-- ==== Sys2Proof/Word.lean ====
section
/-! DEFINITION. The word types of the machine and its sparse map type.
Registers, addresses and lines are bit vectors (spec 00 R12); a bank of registers, a memory or any other numbered
store is a `SMap`: the list of its entries that differ from what an unlisted index reads as. -/

namespace Sys2Proof

abbrev Byte := BitVec 8
/-- A scalar register or system register (R12). -/
abbrev Word64 := BitVec 64
/-- A virtual address: home field in [71:68], offset in [67:0] (R4). -/
abbrev VA := BitVec 72
/-- A vector register, and also one 128-byte line, byte 0 in the lowest bits (R12, R45). -/
abbrev Vec := BitVec 1024

/-- A sparse numbered store: entries strictly rising in index, none equal to the value an unlisted index reads as. -/
abbrev SMap (α : Type) := List (Nat × α)

end Sys2Proof
end

