-- ==== Sys2Proof/Config.lean ====
section
/-! DEFINITION. What is fixed for the machine, and what the manual leaves to the maker (free values, no body). -/

namespace Sys2Proof.Config

/-- Number of dies, clusters per die, cores per cluster, contexts per core (R1, R3). -/
def dies : Nat := 4
def clusters : Nat := 32
def cores : Nat := 128
def contexts : Nat := 512

/-- Scratchpad bytes of one cluster (R3). -/
def spadSize : Nat := 0x400000
/-- End of processing memory in per-die physical addresses (R242). -/
def pmEnd : Nat := 0x2000000000
/-- RSVBASE and the size of the firmware-reserved area (R309, R331). -/
def rsvBase : Nat := 0x1FE0000000
def rsvSize : Nat := 0x20000000
/-- The register window of a die (R331) and the first doorbell in it (R332). -/
def regBase : Nat := 0x800000000000
def regSize : Nat := 0x1000000
def doorbellOff : Nat := 0x800000

/-- clk per microsecond at 1.9 GHz (R2). -/
def clkPerUs : Nat := 1900
/-- tnext landing (R113), spawn start (R121), snapshot latch (R344). -/
def tnextDelay : Nat := 24
def spawnDelay : Nat := 8
def latchDelay : Nat := 256
/-- Fault batch closing time (R320) and the pre-emption and abort limits (R326, R40). -/
def batchClk : Nat := 20 * clkPerUs
def preemptClk : Nat := 200 * clkPerUs

/-- Queue capacities: matrix and copy queues (R217), processing-memory queue (R251), resume tree queue (R274). -/
def matrixQueue : Nat := 32
def copyQueue : Nat := 16
def pmQueue : Nat := 64
def rtQueue : Nat := 32
/-- Entries of a store gate (R314), operand ranges of a core (R158), tiles of a core (R218). -/
def gateSize : Nat := 64
def operandRanges : Nat := 8
def tilesPerCore : Nat := 32
/-- Lines a core's instruction cache holds: 64 KiB of 128-byte lines (R181). -/
def icacheLines : Nat := 512
/-- Lines of one L2 slice: 4 MiB (R3, R181). -/
def l2Lines : Nat := 32768
/-- Ways and sets of one slice's TLB of 4,096 entries, entries of its walk cache (log 8) and of its sharer records (R311). -/
def tlbWays : Nat := 8
def tlbSets : Nat := 512
def walkEntries : Nat := 4096
def ptShares : Nat := 16384
/-- clk between two vdivs of a core (R127). -/
def divGap : Nat := 5

/-- Memory keys. A byte of die d's physical memory has key d * 2^48 + PA; a byte of host memory has key 2^60 + host PA;
a byte of a layout window, where it is named as a line of its layout engine, has key 2^62 + d * 2^54 + slot * 2^48 + offset. -/
def hostKey : Nat := 2 ^ 60
def windowKey : Nat := 2 ^ 62
def dieKey (d pa : Nat) : Nat := d * 2 ^ 48 + pa

/-- Free values (assumption log 9): the part's identity key, certificate chain and digests are the maker's. -/
opaque certByte : Nat → Byte
opaque certLength : Nat
/-- SHA3-512 of a byte string. -/
opaque sha3 : List Byte → BitVec 512
/-- Whether a signature over a digest verifies under a public key (ML-DSA-87). -/
opaque verify : (key : List Byte) → (digest : BitVec 512) → (signature : List Byte) → Bool
/-- Byte i of the identity key's signature over a digest. -/
opaque signByte : BitVec 512 → Nat → Byte
/-- The digest of the boot ROM that a quote holds. -/
opaque romDigest : BitVec 512
/-- The digest of the configuration that a quote holds: fused key digest, fused minimum, grade, cap. -/
opaque configDigest : BitVec 512 → BitVec 32 → Nat → Nat → BitVec 512
/-- The stepping that ID holds (R331). -/
opaque stepping : Byte

end Sys2Proof.Config
end

