-- ==== Sys2Proof/Syntax.lean ====
section
/-! DEFINITION. The steps of the machine: one constructor per row of spec/opcode_table.json.
The first 221 constructors are slot instructions (R78 to R82) with the operands their encodings hold; the last 67 are the
machine's events, with the party each names. -/

namespace Sys2Proof

abbrev SReg := BitVec 5
abbrev QReg := BitVec 4
abbrev VReg := BitVec 5
abbrev PReg := BitVec 3
abbrev MReg := BitVec 4
abbrev KReg := BitVec 3
abbrev CReg := BitVec 4
abbrev TileName := BitVec 5
/-- PE and P of R73: `none` when PE is 0. -/
abbrev Pred := Option PReg

/-- The element types a TY field names (R75), less the reserved codes. -/
inductive Ty where
  | f32 | bf16 | f16 | e4m3 | e5m2 | i8 | n8 | i16 | n16 | i32 | n32 | i64 | n64 | bp
  deriving DecidableEq, Repr

/-- The four slot classes (R70). -/
inductive SlotClass where
  | S | V | L | E
  deriving DecidableEq, Repr

inductive Instr where
  -- every class
  | nop
  -- class S, slot 0 (R78)
  | add (d a b : SReg) | sub (d a b : SReg) | and (d a b : SReg) | or (d a b : SReg) | xor (d a b : SReg)
  | shl (d a b : SReg) | shr (d a b : SReg) | sra (d a b : SReg) | min (d a b : SReg) | max (d a b : SReg)
  | mul (d a b : SReg) | mulh (d a b : SReg) | mulhu (d a b : SReg) | div (d a b : SReg) | divu (d a b : SReg)
  | addi (d a : SReg) (imm : BitVec 15) | andi (d a : SReg) (imm : BitVec 15) | ori (d a : SReg) (imm : BitVec 15)
  | xori (d a : SReg) (imm : BitVec 15)
  | shli (d a : SReg) (sh : BitVec 6) | shri (d a : SReg) (sh : BitVec 6) | srai (d a : SReg) (sh : BitVec 6)
  | li (d : SReg) (imm : BitVec 20) | lic (d : SReg) (imm : BitVec 20)
  | bfxs (d a b c : SReg) | bfxu (d a b c : SReg) | bfi (d a b c : SReg) | fshl (d a b c : SReg) | fshr (d a b c : SReg)
  | clz (d a : SReg) | ctz (d a : SReg) | popc (d a : SReg) | slt (d a b : SReg) | sltu (d a b : SReg)
  | pcmp (d : PReg) (a b : SReg) (cc : BitVec 5) | sel (d a b : SReg) (c : PReg)
  | qadd (d a : QReg) (b : SReg) | qaddi (d a : QReg) (imm : BitVec 15) | qsub (d : SReg) (a b : QReg)
  | qmov (d : QReg) (a b : SReg) | qtos (d : SReg) (a : QReg) (hi : Bool) | qhome (d a : QReg) (b : SReg)
  | beq (a b : SReg) (off : BitVec 15) | bne (a b : SReg) (off : BitVec 15) | blt (a b : SReg) (off : BitVec 15)
  | bge (a b : SReg) (off : BitVec 15) | bltu (a b : SReg) (off : BitVec 15) | bgeu (a b : SReg) (off : BitVec 15)
  | jmp (off : BitVec 25) | call (off : BitVec 25) | jr (a : QReg)
  | loop (a : SReg) (off : BitVec 15) | loopi (n : BitVec 10) (off : BitVec 15)
  | endCtx | yield | wait (d : SReg) | warm (a b c : SReg) (n : BitVec 3) (rep : Bool) | tnext | fmtset (a : SReg)
  | mfsr (d : SReg) (sr : BitVec 12) | mtsr (a : SReg) (sr : BitVec 12) | trap (imm : BitVec 20) | tret
  -- class V, slot 1 (R79)
  | vadd (ty : Ty) (d a b : VReg) (p : Pred) | vsub (ty : Ty) (d a b : VReg) (p : Pred)
  | vmul (ty : Ty) (d a b : VReg) (p : Pred) | vfma (ty : Ty) (d a b : VReg) (p : Pred)
  | vfms (ty : Ty) (d a b : VReg) (p : Pred) | vdiv (ty : Ty) (d a b : VReg) (p : Pred)
  | vmin (ty : Ty) (d a b : VReg) (p : Pred) | vmax (ty : Ty) (d a b : VReg) (p : Pred)
  | vabs (ty : Ty) (d a : VReg) (p : Pred) | vneg (ty : Ty) (d a : VReg) (p : Pred)
  | vadds (ty : Ty) (d a b : VReg) (p : Pred) | vsubs (ty : Ty) (d a b : VReg) (p : Pred)
  | vmulh (ty : Ty) (d a b : VReg) (p : Pred) | vshl (ty : Ty) (d a b : VReg) (p : Pred)
  | vshr (ty : Ty) (d a b : VReg) (p : Pred) | vsra (ty : Ty) (d a b : VReg) (p : Pred)
  | vaddi (ty : Ty) (d a : VReg) (imm : BitVec 15) (p : Pred) | vshli (ty : Ty) (d a : VReg) (imm : BitVec 15) (p : Pred)
  | vshri (ty : Ty) (d a : VReg) (imm : BitVec 15) (p : Pred) | vsrai (ty : Ty) (d a : VReg) (imm : BitVec 15) (p : Pred)
  | vcmpeq (ty : Ty) (d : PReg) (a b : VReg) (p : Pred) | vcmpne (ty : Ty) (d : PReg) (a b : VReg) (p : Pred)
  | vcmplt (ty : Ty) (d : PReg) (a b : VReg) (p : Pred) | vcmple (ty : Ty) (d : PReg) (a b : VReg) (p : Pred)
  | vsel (ty : Ty) (d a b : VReg) (c : PReg)
  | vcvt (ty src : Ty) (d a : VReg) (part : BitVec 2) (p : Pred)
  | vbppack (planes : BitVec 3) (d a : VReg) | vbpunpack (planes : BitVec 3) (d a : VReg)
  | vexp2 (ty : Ty) (d a : VReg) (p : Pred) | vlog2 (ty : Ty) (d a : VReg) (p : Pred)
  | vrcp (ty : Ty) (d a : VReg) (p : Pred) | vrsqrt (ty : Ty) (d a : VReg) (p : Pred)
  | vredadd (ty : Ty) (d a : VReg) (p : Pred) | vredmax (ty : Ty) (d a : VReg) (p : Pred)
  | vredmin (ty : Ty) (d a : VReg) (p : Pred) | vscanadd (ty : Ty) (d a : VReg) (p : Pred)
  | vscanmax (ty : Ty) (d a : VReg) (p : Pred)
  | vperm (ty : Ty) (d a b : VReg) (p : Pred) | vbcast (ty : Ty) (d a : VReg) (b : SReg) (p : Pred)
  | vrot (ty : Ty) (d a : VReg) (imm : BitVec 15) (p : Pred) | vslide (ty : Ty) (d a : VReg) (imm : BitVec 15) (p : Pred)
  | vzip (ty : Ty) (d a b : VReg) (half : Bool) (p : Pred) | vunzip (ty : Ty) (d a b : VReg) (half : Bool) (p : Pred)
  | vand (ty : Ty) (d a b : VReg) (p : Pred) | vor (ty : Ty) (d a b : VReg) (p : Pred)
  | vxor (ty : Ty) (d a b : VReg) (p : Pred) | vandn (ty : Ty) (d a b : VReg) (p : Pred)
  | vpopc (ty : Ty) (d a : VReg) (p : Pred) | vclz (ty : Ty) (d a : VReg) (p : Pred)
  | vbfx (ty : Ty) (d a b : VReg) (p : Pred) | vbfi (ty : Ty) (d a b : VReg) (p : Pred)
  | vins (ty : Ty) (d : VReg) (a b : SReg) | vext (ty : Ty) (d : SReg) (a : VReg) (b : SReg)
  | vdup (ty : Ty) (d : VReg) (a : SReg) (p : Pred) | vmov (ty : Ty) (d a : VReg) (p : Pred)
  | pand (d a b : PReg) | por (d a b : PReg) | pxor (d a b : PReg) | pnot (d a : PReg)
  | mand (d a b : MReg) | mor (d a b : MReg) | mxor (d a b : MReg) | mset (d : MReg) (a : SReg) | mget (d : SReg) (a : MReg)
  | manc (a : VReg) (b : SReg)
  | vargmax (ty : Ty) (d a : VReg) (b : SReg) (p : Pred) | vsparseadd (d a : VReg) (b : SReg)
  | vcfhash (form : BitVec 2) (d a : VReg) (b : SReg) (p : Pred) | vcfupd (d a : VReg) (b : SReg) (p : Pred)
  | vdesc (d a : VReg) | vphilox (d a b : VReg)
  -- class L, slot 2 (R80)
  | ld (ty : Ty) (vc : BitVec 3) (d : SReg) (q : QReg) (off : BitVec 17) | st (ty : Ty) (d : SReg) (q : QReg) (off : BitVec 17)
  | vld (ty : Ty) (vc : BitVec 3) (d : VReg) (q : QReg) (off : BitVec 17) | vst (ty : Ty) (d : VReg) (q : QReg) (off : BitVec 17)
  | ldx (ty : Ty) (vc : BitVec 3) (d : SReg) (q : QReg) (i : SReg) (sc : BitVec 2)
  | stx (ty : Ty) (d : SReg) (q : QReg) (i : SReg) (sc : BitVec 2)
  | vldx (ty : Ty) (vc : BitVec 3) (d : VReg) (q : QReg) (i : SReg) (sc : BitVec 2)
  | vstx (ty : Ty) (d : VReg) (q : QReg) (i : SReg) (sc : BitVec 2)
  | vlds (ty : Ty) (vc : BitVec 3) (d : VReg) (q : QReg) (i : SReg) (sc : BitVec 2)
  | vsts (ty : Ty) (d : VReg) (q : QReg) (i : SReg) (sc : BitVec 2)
  | vgath (ty : Ty) (vc : BitVec 3) (d : VReg) (q : QReg) (i : VReg) (sc : BitVec 2)
  | vscat (ty : Ty) (d : VReg) (q : QReg) (i : VReg) (sc : BitVec 2)
  | kld (vc : BitVec 3) (d : KReg) (q : QReg) (off : BitVec 17)
  | bgath (d : CReg) (a : KReg) (b : QReg) (c : SReg) (zero : Bool)
  | amadd (ty : Ty) (d : SReg) (a : QReg) (b : SReg) (ord : BitVec 2) (scope : BitVec 3)
  | ammin (ty : Ty) (d : SReg) (a : QReg) (b : SReg) (ord : BitVec 2) (scope : BitVec 3)
  | ammax (ty : Ty) (d : SReg) (a : QReg) (b : SReg) (ord : BitVec 2) (scope : BitVec 3)
  | amand (ty : Ty) (d : SReg) (a : QReg) (b : SReg) (ord : BitVec 2) (scope : BitVec 3)
  | amor (ty : Ty) (d : SReg) (a : QReg) (b : SReg) (ord : BitVec 2) (scope : BitVec 3)
  | amxor (ty : Ty) (d : SReg) (a : QReg) (b : SReg) (ord : BitVec 2) (scope : BitVec 3)
  | amxchg (ty : Ty) (d : SReg) (a : QReg) (b : SReg) (ord : BitVec 2) (scope : BitVec 3)
  | amcas (ty : Ty) (d : SReg) (a : QReg) (b : SReg) (ord : BitVec 2) (scope : BitVec 3)
  | stadd (ty : Ty) (a : QReg) (b : SReg) (ord : BitVec 2) (scope : BitVec 3)
  | stmin (ty : Ty) (a : QReg) (b : SReg) (ord : BitVec 2) (scope : BitVec 3)
  | stmax (ty : Ty) (a : QReg) (b : SReg) (ord : BitVec 2) (scope : BitVec 3)
  | stand (ty : Ty) (a : QReg) (b : SReg) (ord : BitVec 2) (scope : BitVec 3)
  | stor (ty : Ty) (a : QReg) (b : SReg) (ord : BitVec 2) (scope : BitVec 3)
  | stxor (ty : Ty) (a : QReg) (b : SReg) (ord : BitVec 2) (scope : BitVec 3)
  | lda (ty : Ty) (vc : BitVec 3) (d : SReg) (q : QReg) (scope : BitVec 3)
  | stl (ty : Ty) (d : SReg) (q : QReg) (scope : BitVec 3)
  | fence (scope : BitVec 3) | drain
  | cbwait (d : SReg) (a : CReg) (n : BitVec 23) | cbspace (d : SReg) (a : CReg) (n : BitVec 23)
  | cbfree (a : CReg) (n : BitVec 23) | cbadv (a : CReg) (n : BitVec 23)
  | cbbind (d : CReg) (a : QReg) (off : BitVec 23) | cbpop (d : BitVec 5) (a : CReg) (vec : Bool)
  | barv (a b : SReg) | barx (d a b : SReg) | barw (a b : SReg) | dsync (ord : BitVec 2) (scope : BitVec 3)
  | pref (l2 : Bool) (vc : BitVec 3) (q : QReg) (off : BitVec 17) | spmode (a b : SReg)
  | pld (vc : BitVec 3) (d : PReg) (q : QReg) (off : BitVec 17) | pst (d : PReg) (q : QReg) (off : BitVec 17)
  | vldbc (ty : Ty) (vc : BitVec 3) (d : VReg) (q : QReg) (off : BitVec 17)
  -- class E, slot 3 (R81)
  | mma (t : TileName) (a b : BitVec 4) (c : SReg) (arr aBuf bBuf : Bool)
  | mmaa (t : TileName) (a b : BitVec 4) (c : SReg) (arr aBuf bBuf : Bool)
  | mmas (t a : TileName) (b : BitVec 4) (c : SReg) (arr bBuf : Bool)
  | mmtr (t : TileName) (a b : BitVec 4) (c : SReg) (arr aBuf bBuf : Bool)
  | mmtra (t : TileName) (a b : BitVec 4) (c : SReg) (arr aBuf bBuf : Bool)
  | tld (t : TileName) (a : QReg) (c : SReg) | tldsp (t : TileName) (a : SReg) (c : SReg)
  | tst (t : TileName) (a : QReg) (c : SReg) | tstsp (t : TileName) (a : SReg) (c : SReg) | tzero (t : TileName) (c : SReg)
  | attn (t : TileName) (a : QReg) (b : BitVec 4) (c : SReg) (slot : BitVec 4) (bBuf : Bool)
  | attnf (t : TileName) (a : QReg) (c : SReg) | mpld (slot : BitVec 4) (a : QReg) (c : SReg)
  | copy (a b : QReg) (c : SReg) (bar : Bool) | copy2d (a b : QReg) (c : SReg) (bar : Bool)
  | copyc (b : CReg) (a : QReg) (c : SReg) (out : Bool)
  | pmvec (a : QReg) (c : SReg) (b : BitVec 3) | pmmac (t : BitVec 4) (c : SReg) (ls : BitVec 6)
  | pmatk (c : SReg) (ls : BitVec 6) | pmatv (c : SReg) (ls : BitVec 6) | pmrd (b : CReg) (c : SReg) (ls : BitVec 6)
  | pmclr (c : SReg) (ls : BitVec 6) | laybind (a : QReg) (c : SReg) (ls : BitVec 6)
  | kvxfer (a : QReg) (c : SReg) (ls : BitVec 6) | kvapp (a : QReg) (c : SReg) (ls : BitVec 6)
  | pmst (a : QReg) (c : SReg) (ls : BitVec 6) | pmsync (d : SReg)
  | rthash (d : SReg) (a : QReg) (b c : SReg) | rtfind (d : SReg) (a : QReg) (b c : SReg)
  | rtdep (d : SReg) (a : QReg) (b c : SReg) (move : Bool) | rtref (d a : SReg) | rtrel (d a : SReg)
  | rtpin (d a : SReg) (op : BitVec 5) | rtevict (d : SReg) (c : CReg) (a b : SReg) | rtrd (d a b : SReg)
  | schsel (d a : QReg) | tokcommit (d a b : SReg) | specacc (d a b : VReg) (c : SReg) | spawn (a b c : SReg) (n : BitVec 5)
  -- machine events: queues, launches, contexts
  | doorbell (die q : Nat) (wridx : BitVec 32) | slotMapping (die : Nat) | timeSliceExpiry (q : Nat) | launch (q : Nat)
  | retirement (ctx : Nat) | launchAbortTimeout (ctx : Nat) | tnextLanding (ctx : Nat) | fmtWriteEffect (ctx : Nat)
  | spawnTargetReady (ctx : Nat) | commandFire (id : Nat) | commandRetire (id : Nat) | restartPointCommit (ctx : Nat)
  | conflictRollback (ctx : Nat) | faultRollback (ctx cause : Nat) (va : VA) | faultBatchClose (die : Nat)
  | faultResponse (die : Nat) (v : BitVec 64) | preemption (ctx : Nat) | preemptTimeout (ctx : Nat)
  | writeCompletion (ctx : Nat) | groupStart (id bge : Nat) | groupComplete (id bge : Nat)
  -- coherence
  | readRequest (core : Nat) (asid : BitVec 16) (va : VA) (view : BitVec 3)
  | storeHeader (core : Nat) (asid : BitVec 16) (va : VA) (bytes : List Byte)
  | writeThrough (die : Nat) (asid : BitVec 16) (va : VA) (bytes : List Byte)
  | ownershipRequest (core : Nat) (asid : BitVec 16) (va : VA) | upgrade (core : Nat) (asid : BitVec 16) (va : VA)
  | precisionSnoop (die lid : Nat) (mask : BitVec 128) (data : BitVec 1024) | backInvalidation (die lid : Nat)
  | recall (lid : Nat) | grant (die : Nat) (asid : BitVec 16) (va : VA)
  | dataResponse (core : Nat) (asid : BitVec 16) (va : VA) (view : BitVec 3)
  | ownerEviction (die lid : Nat) | hostRead (off : BitVec 39) (n : Nat)
  | hostWrite (off : BitVec 39) (bytes : List Byte) | hostSnoop (pa : Nat) (data : BitVec 1024) | flitCrcFailure (a b : Nat)
  | coherenceTimeout (ctx : Nat) (va : VA) | hostSnoopTimeout (ctx : Nat) (va : VA)
  | pageMigration (die : Nat) (asid : BitVec 16) (va : VA) (dst : Nat)
  -- processing memory
  | refresh (die bge bank : Nat)
  -- register windows, mailbox, power, bring-up
  | qbindBind (die : Nat) (v : BitVec 64) | qbindUnbind (die : Nat) (v : BitVec 64) | asidselWrite (die : Nat) (v : BitVec 64)
  | asidselLoad (die : Nat) (v : BitVec 64) | tlbinv (die : Nat) (v : BitVec 64) | tlbinvRead (die : Nat)
  | hfaultRead (die : Nat) | erdropClear (die : Nat) | registerWrite (die : Nat) (off : BitVec 24) (v : BitVec 64)
  | setcap (die : Nat) (tag : Byte) | sleep (die : Nat) (tag : Byte) | getcert (die : Nat) (tag : Byte)
  | quote (die : Nat) (tag : Byte) | fwload (die : Nat) (tag : Byte) | reset (die : Nat) (tag : Byte)
  | mailboxUnknown (die : Nat) (v : BitVec 64) | watchdogExpired (die : Nat) | powerCheck (avg : BitVec 16)
  | coldReset | fullServiceEntry | wake (v : BitVec 64)
  -- trigger and rings
  | htrigFire (die : Nat) | htrigArm (die : Nat) | triggerFire (ctx : Nat) | triggerArm (ctx : Nat) | snapshotLatch
  | frrdWrite (die : Nat) (v : BitVec 64)
  deriving DecidableEq, Repr

end Sys2Proof
end

