-- ==== Sys2Proof/WellFormed.lean ====
section
/-! DEFINITION. Element types and the checks an instruction's operands must pass (R75, R124 and the descriptions). -/

namespace Sys2Proof

/-- The TY code of a type (R75). -/
def Ty.code : Ty → BitVec 4
  | .f32 => 0 | .bf16 => 1 | .f16 => 2 | .e4m3 => 3 | .e5m2 => 4 | .i8 => 5 | .n8 => 6 | .i16 => 7 | .n16 => 8
  | .i32 => 9 | .n32 => 10 | .i64 => 11 | .n64 => 12 | .bp => 13

/-- Element width in bytes. -/
def Ty.width : Ty → Nat
  | .f32 | .i32 | .n32 => 4
  | .bf16 | .f16 | .i16 | .n16 => 2
  | .e4m3 | .e5m2 | .i8 | .n8 | .bp => 1
  | .i64 | .n64 => 8

/-- FP of R124. -/
def Ty.isFp : Ty → Bool
  | .f32 | .bf16 | .f16 => true
  | _ => false
/-- F8 of R124. -/
def Ty.isF8 : Ty → Bool
  | .e4m3 | .e5m2 => true
  | _ => false
/-- INT of R124. -/
def Ty.isInt : Ty → Bool
  | .i8 | .n8 | .i16 | .n16 | .i32 | .n32 => true
  | _ => false
def Ty.isSigned : Ty → Bool
  | .i8 | .i16 | .i32 | .i64 => true
  | _ => false
def Ty.fpInt (t : Ty) : Bool := t.isFp || t.isInt
/-- The signed types of vabs and vneg (R128). -/
def Ty.fpOrSigned (t : Ty) : Bool := t.isFp || (t.isInt && t.isSigned)
/-- Types of vcvt (R133). -/
def Ty.cvt (t : Ty) : Bool := t.isFp || t.isF8 || t.isInt
/-- Types of ld and st: TY 5 to 12 (R162). -/
def Ty.scalarMem : Ty → Bool
  | .i8 | .n8 | .i16 | .n16 | .i32 | .n32 | .i64 | .n64 => true
  | _ => false
/-- Types of vld and vst: TY 0 to 10 (R162). -/
def Ty.vectorMem (t : Ty) : Bool := t.isFp || t.isF8 || t.isInt
/-- Types of vgath and vscat (R164). -/
def Ty.gather : Ty → Bool
  | .f32 | .bf16 | .f16 | .i16 | .n16 | .i32 | .n32 => true
  | _ => false
/-- Types of the integer atomics, and of those that also take .f32 (R166). -/
def Ty.atomInt : Ty → Bool
  | .i32 | .n32 | .i64 | .n64 => true
  | _ => false
def Ty.atomAny (t : Ty) : Bool := t.atomInt || t == .f32

/-- The ratio r of R133 that bounds `part`. -/
def cvtRatio (ty src : Ty) : Nat :=
  if ty.width < src.width then src.width / ty.width else ty.width / src.width

/-- Scopes 6 and 7 are reserved (R18). -/
def scopeOk (s : BitVec 3) : Bool := s.toNat ≤ 5
/-- With order 0 the scope must be 0 (R166, R177). -/
def orderScopeOk (o : BitVec 2) (s : BitVec 3) : Bool := scopeOk s && (o != 0 || s == 0)
/-- The T codes of pmmac that name a stored type (R255). -/
def pmTypeOk (t : BitVec 4) : Bool := t != 0 && t != 7 && t != 15

/-- The operand checks R83 makes at steps 2 and 3, for each instruction. -/
def Instr.wf : Instr → Bool
  | .vadd ty .. | .vsub ty .. | .vmul ty .. | .vmin ty .. | .vmax ty .. => ty.fpInt
  | .vfma ty .. | .vfms ty .. | .vdiv ty .. => ty.isFp
  | .vabs ty .. | .vneg ty .. => ty.fpOrSigned
  | .vadds ty .. | .vsubs ty .. | .vmulh ty .. | .vshl ty .. | .vshr ty .. | .vsra ty .. => ty.isInt
  | .vaddi ty .. | .vshli ty .. | .vshri ty .. | .vsrai ty .. => ty.isInt
  | .vcmpeq ty .. | .vcmpne ty .. | .vcmplt ty .. | .vcmple ty .. => ty.fpInt
  | .vsel ty .. => ty.fpInt
  | .vcvt ty src _ _ part _ => ty.cvt && src.cvt && part.toNat < cvtRatio ty src
  | .vbppack pl .. | .vbpunpack pl .. => pl != 7
  | .vexp2 ty .. | .vlog2 ty .. | .vrcp ty .. | .vrsqrt ty .. => ty.isFp
  | .vredadd ty .. | .vredmax ty .. | .vredmin ty .. | .vscanadd ty .. | .vscanmax ty .. => ty.fpInt
  | .vperm ty .. | .vbcast ty .. | .vrot ty .. | .vslide ty .. | .vzip ty .. | .vunzip ty .. => ty.fpInt
  | .vand ty .. | .vor ty .. | .vxor ty .. | .vandn ty .. | .vpopc ty .. | .vclz ty .. | .vbfx ty .. | .vbfi ty .. => ty.isInt
  | .vins ty .. | .vext ty .. | .vdup ty .. | .vmov ty .. | .vargmax ty .. => ty.fpInt
  | .vcfhash form .. => form != 3
  | .pcmp _ _ _ cc => cc.toNat ≤ 6
  | .ld ty .. | .st ty .. | .ldx ty .. | .stx ty .. => ty.scalarMem
  | .vld ty .. | .vst ty .. | .vldx ty .. | .vstx ty .. | .vlds ty .. | .vsts ty .. | .vldbc ty .. => ty.vectorMem
  | .vgath ty .. | .vscat ty .. => ty.gather
  | .amadd ty _ _ _ o s | .ammin ty _ _ _ o s | .ammax ty _ _ _ o s | .amxchg ty _ _ _ o s | .amcas ty _ _ _ o s =>
    ty.atomAny && orderScopeOk o s
  | .amand ty _ _ _ o s | .amor ty _ _ _ o s | .amxor ty _ _ _ o s => ty.atomInt && orderScopeOk o s
  | .stadd ty _ _ o s | .stmin ty _ _ o s | .stmax ty _ _ o s => ty.atomAny && orderScopeOk o s
  | .stand ty _ _ o s | .stor ty _ _ o s | .stxor ty _ _ o s => ty.atomInt && orderScopeOk o s
  | .lda ty _ _ _ s => ty.scalarMem && scopeOk s
  | .stl ty _ _ s => ty.scalarMem && scopeOk s
  | .fence s => scopeOk s
  | .pref l2 vc _ _ => !l2 || vc == 0
  | .dsync o s => orderScopeOk o s
  | .pmmac t _ _ => pmTypeOk t
  | .rtpin _ _ op => op.toNat ≤ 4
  | .spawn _ _ c n => n.toNat ≤ 16 && c.toNat + n.toNat ≤ 32 && (n != 0 || c == 0)
  | .nop | .add .. | .sub .. | .and .. | .or .. | .xor .. | .shl .. | .shr .. | .sra .. | .min .. | .max .. | .mul ..
  | .mulh .. | .mulhu .. | .div .. | .divu .. | .addi .. | .andi .. | .ori .. | .xori .. | .shli .. | .shri .. | .srai ..
  | .li .. | .lic .. | .bfxs .. | .bfxu .. | .bfi .. | .fshl .. | .fshr .. | .clz .. | .ctz .. | .popc .. | .slt .. | .sltu ..
  | .sel .. | .qadd .. | .qaddi .. | .qsub .. | .qmov .. | .qtos .. | .qhome .. | .beq .. | .bne .. | .blt .. | .bge ..
  | .bltu .. | .bgeu .. | .jmp .. | .call .. | .jr .. | .loop .. | .loopi .. | .endCtx | .yield | .wait .. | .warm .. | .tnext
  | .fmtset .. | .mfsr .. | .mtsr .. | .trap .. | .tret => true
  | .pand .. | .por .. | .pxor .. | .pnot .. | .mand .. | .mor .. | .mxor .. | .mset .. | .mget .. | .manc .. | .vsparseadd ..
  | .vcfupd .. | .vdesc .. | .vphilox .. => true
  | .kld .. | .bgath .. | .drain | .cbwait .. | .cbspace .. | .cbfree .. | .cbadv .. | .cbbind .. | .cbpop .. | .barv ..
  | .barx .. | .barw .. | .spmode .. | .pld .. | .pst .. => true
  | .mma .. | .mmaa .. | .mmas .. | .mmtr .. | .mmtra .. | .tld .. | .tldsp .. | .tst .. | .tstsp .. | .tzero .. | .attn ..
  | .attnf .. | .mpld .. | .copy .. | .copy2d .. | .copyc .. | .pmvec .. | .pmatk .. | .pmatv .. | .pmrd .. | .pmclr ..
  | .laybind .. | .kvxfer .. | .kvapp .. | .pmst .. | .pmsync .. | .rthash .. | .rtfind .. | .rtdep .. | .rtref .. | .rtrel ..
  | .rtevict .. | .rtrd .. | .schsel .. | .tokcommit .. | .specacc .. => true
  | .doorbell .. | .slotMapping .. | .timeSliceExpiry .. | .launch .. | .retirement .. | .launchAbortTimeout ..
  | .tnextLanding .. | .fmtWriteEffect .. | .spawnTargetReady .. | .commandFire .. | .commandRetire ..
  | .restartPointCommit .. | .conflictRollback .. | .faultRollback .. | .faultBatchClose .. | .faultResponse ..
  | .preemption .. | .preemptTimeout .. | .readRequest .. | .storeHeader .. | .writeThrough .. | .ownershipRequest ..
  | .upgrade .. | .precisionSnoop .. | .backInvalidation .. | .recall .. | .grant .. | .dataResponse .. | .ownerEviction ..
  | .writeCompletion .. | .hostRead .. | .hostWrite .. | .hostSnoop .. | .flitCrcFailure .. | .coherenceTimeout ..
  | .hostSnoopTimeout .. | .pageMigration .. | .groupStart .. | .groupComplete .. | .refresh .. | .qbindBind ..
  | .qbindUnbind .. | .asidselWrite .. | .asidselLoad .. | .tlbinv .. | .tlbinvRead .. | .hfaultRead .. | .erdropClear ..
  | .registerWrite .. | .setcap .. | .sleep .. | .getcert .. | .quote .. | .fwload .. | .reset .. | .mailboxUnknown ..
  | .watchdogExpired .. | .powerCheck .. | .coldReset | .fullServiceEntry | .wake .. | .htrigFire .. | .htrigArm ..
  | .triggerFire .. | .triggerArm .. | .snapshotLatch | .frrdWrite .. => true

/-- An instruction whose operands pass every check. -/
abbrev WellFormed (i : Instr) : Prop := i.wf = true

end Sys2Proof
end

