-- ==== Sys2Proof/Decode.lean ====
section
/-! DEFINITION. The decoder of bundles and slot words (R69 to R83), total on any bits, and the encoder after it. -/

namespace Sys2Proof

/-- Why a slot word is refused at decode: the causes 1, 3 and 4 of R83 steps 1 to 3. -/
inductive DecErr where
  | unassigned | reserved | typeUnsupported
  deriving DecidableEq, Repr

/-- The cause code of a refusal (R83). -/
def DecErr.cause : DecErr → Nat
  | .unassigned => 1 | .reserved => 3 | .typeUnsupported => 4

/-- A word whose reserved bits hold answers its instruction, any other the refusal of step 2. -/
def ok? (b : Bool) (i : Instr) : Except DecErr Instr := if b then .ok i else .error .reserved

def opOf (w : BitVec 32) : BitVec 7 := w.extractLsb' 25 7
/-- Register-number range checks of R74. -/
def q? (x : BitVec 5) : Bool := x.toNat < 16
def p? (x : BitVec 5) : Bool := x.toNat < 8

/-- Format RR (R73). -/
structure FRR where
  (d a b c f : BitVec 5)
def rrOf (w : BitVec 32) : FRR :=
  ⟨w.extractLsb' 20 5, w.extractLsb' 15 5, w.extractLsb' 10 5, w.extractLsb' 5 5, w.extractLsb' 0 5⟩

/-- imm_value of R72 for an n-bit field and its extension byte, as the wide field's bits. -/
def immValue (n : Nat) (signed hdr : Bool) (ext : Byte) (field : BitVec n) : BitVec (8 + n) :=
  if hdr then ext ++ field else if signed then field.signExtend (8 + n) else field.setWidth (8 + n)

/-- The type a TY code names; 14 and 15 are reserved (R75). -/
def tyOf (c : BitVec 4) : Option Ty :=
  match c.toNat with
  | 0 => some .f32 | 1 => some .bf16 | 2 => some .f16 | 3 => some .e4m3 | 4 => some .e5m2 | 5 => some .i8 | 6 => some .n8
  | 7 => some .i16 | 8 => some .n16 | 9 => some .i32 | 10 => some .n32 | 11 => some .i64 | 12 => some .n64 | 13 => some .bp
  | _ => none

/-- Steps 2 and 3 of R83 for a word that holds a TY field. -/
def typed (res : Bool) (code : BitVec 4) (acc : Ty → Bool) (mk : Ty → Instr) : Except DecErr Instr :=
  if res then
    match tyOf code with
    | none => .error .reserved
    | some t => if acc t then .ok (mk t) else .error .typeUnsupported
  else .error .reserved

/-- Format VR (R73): `res` says that the extension byte and an unused P are zero. -/
structure FVR where
  (d a b : BitVec 5)
  (pe : Bool)
  (p : BitVec 3)
  (ty : BitVec 4)
  (f : BitVec 2)
  (res : Bool)
def vrOf (ext : Byte) (w : BitVec 32) : FVR :=
  ⟨w.extractLsb' 20 5, w.extractLsb' 15 5, w.extractLsb' 10 5, w.getLsbD 9, w.extractLsb' 6 3, w.extractLsb' 2 4,
   w.extractLsb' 0 2, ext == 0 && (w.getLsbD 9 || w.extractLsb' 6 3 == 0)⟩
def FVR.pred (v : FVR) : Pred := if v.pe then some v.p else none
def vr (v : FVR) (res : Bool) (acc : Ty → Bool) (mk : Ty → Instr) : Except DecErr Instr :=
  typed (v.res && res) v.ty acc mk

/-- vcvt (R133): the source code in B; the part, which its widths bound, is checked after the types are accepted (log 56). -/
def vcvtDec (v : FVR) : Except DecErr Instr :=
  match tyOf v.ty, tyOf (v.b.setWidth 4) with
  | some t, some s =>
    if !(v.res && q? v.b) then .error .reserved
    else if !(t.cvt && s.cvt) then .error .typeUnsupported
    else if v.f.toNat < cvtRatio t s then .ok (.vcvt t s v.d v.a v.f v.pred)
    else .error .reserved
  | _, _ => .error .reserved

/-- Format VI (R73): a 7-bit immediate, widened by the extension byte. -/
def vi (w : BitVec 32) (hdr : Bool) (ext : Byte) (signed : Bool) (acc : Ty → Bool)
    (mk : Ty → BitVec 5 → BitVec 5 → BitVec 15 → Pred → Instr) : Except DecErr Instr :=
  typed (w.getLsbD 14 || w.extractLsb' 11 3 == 0) (w.extractLsb' 7 4) acc fun t =>
    mk t (w.extractLsb' 20 5) (w.extractLsb' 15 5) (immValue 7 signed hdr ext (w.extractLsb' 0 7))
      (if w.getLsbD 14 then some (w.extractLsb' 11 3) else none)

/-- Format MI (R73): a signed 9-bit offset, widened by the extension byte. -/
structure FMI where
  (d : BitVec 5)
  (q : BitVec 4)
  (vc : BitVec 3)
  (ty : BitVec 4)
  (off : BitVec 17)
def miOf (hdr : Bool) (ext : Byte) (w : BitVec 32) : FMI :=
  ⟨w.extractLsb' 20 5, w.extractLsb' 16 4, w.extractLsb' 13 3, w.extractLsb' 9 4,
   immValue 9 true hdr ext (w.extractLsb' 0 9)⟩
/-- lda and stl: OFF holds a scope code 0 to 5 (R170). -/
def FMI.scopeField (m : FMI) : Bool := m.off.toNat ≤ 5
def mi (m : FMI) (res : Bool) (acc : Ty → Bool) (mk : Ty → Instr) : Except DecErr Instr := typed res m.ty acc mk

/-- Format MX (R73). -/
structure FMX where
  (d : BitVec 5)
  (q : BitVec 4)
  (vc : BitVec 3)
  (ty : BitVec 4)
  (i : BitVec 5)
  (sc : BitVec 2)
  (res : Bool)
def mxOf (ext : Byte) (w : BitVec 32) : FMX :=
  ⟨w.extractLsb' 20 5, w.extractLsb' 16 4, w.extractLsb' 13 3, w.extractLsb' 9 4, w.extractLsb' 4 5, w.extractLsb' 2 2,
   ext == 0 && w.extractLsb' 0 2 == 0⟩
def mx (x : FMX) (res : Bool) (acc : Ty → Bool) (mk : Ty → Instr) : Except DecErr Instr := typed (x.res && res) x.ty acc mk

/-- Format RI in slot 2: a 15-bit immediate, widened to 23 bits by the extension byte (R73). -/
def ri23 (w : BitVec 32) (hdr : Bool) (ext : Byte) (signed : Bool) : BitVec 23 :=
  immValue 15 signed hdr ext (w.extractLsb' 0 15)

/-- The atomics (R166): q number in A, order and scope in C, TY in F[3:0]. -/
def atom (f : FRR) (res : Bool) (acc : Ty → Bool) (mk : Ty → Instr) : Except DecErr Instr :=
  typed (res && q? f.a && q? f.f && orderScopeOk (f.c.extractLsb' 0 2) (f.c.extractLsb' 2 3)) (f.f.setWidth 4) acc mk

/-- Format EC (R73): `ext0` and `extT` say that the extension byte is zero, or zero but for tile bit 4. -/
structure FEC where
  (t : BitVec 4)
  (a b c : BitVec 5)
  (f : BitVec 6)
  (tile : BitVec 5)
  (ext0 extT : Bool)
def ecOf (ext : Byte) (w : BitVec 32) : FEC :=
  ⟨w.extractLsb' 21 4, w.extractLsb' 16 5, w.extractLsb' 11 5, w.extractLsb' 6 5, w.extractLsb' 0 6,
   ext.extractLsb' 7 1 ++ w.extractLsb' 21 4, ext == 0, ext.extractLsb' 0 7 == 0⟩

/-- Class S, slot 0 (R78). -/
def decodeS (w : BitVec 32) : Except DecErr Instr :=
  let f := rrOf w
  match (opOf w).toNat with
  | 0x00 => ok? (w == 0) .nop
  | 0x01 => ok? (f.c == 0 && f.f == 0) (.add f.d f.a f.b)
  | 0x02 => ok? (f.c == 0 && f.f == 0) (.sub f.d f.a f.b)
  | 0x03 => ok? (f.c == 0 && f.f == 0) (.and f.d f.a f.b)
  | 0x04 => ok? (f.c == 0 && f.f == 0) (.or f.d f.a f.b)
  | 0x05 => ok? (f.c == 0 && f.f == 0) (.xor f.d f.a f.b)
  | 0x06 => ok? (f.c == 0 && f.f == 0) (.shl f.d f.a f.b)
  | 0x07 => ok? (f.c == 0 && f.f == 0) (.shr f.d f.a f.b)
  | 0x08 => ok? (f.c == 0 && f.f == 0) (.sra f.d f.a f.b)
  | 0x09 => ok? (f.c == 0 && f.f == 0) (.min f.d f.a f.b)
  | 0x0A => ok? (f.c == 0 && f.f == 0) (.max f.d f.a f.b)
  | 0x0B => ok? (f.c == 0 && f.f == 0) (.mul f.d f.a f.b)
  | 0x0C => ok? (f.c == 0 && f.f == 0) (.mulh f.d f.a f.b)
  | 0x0D => ok? (f.c == 0 && f.f == 0) (.mulhu f.d f.a f.b)
  | 0x0E => ok? (f.c == 0 && f.f == 0) (.div f.d f.a f.b)
  | 0x0F => ok? (f.c == 0 && f.f == 0) (.divu f.d f.a f.b)
  | 0x10 => .ok (.addi f.d f.a (w.extractLsb' 0 15))
  | 0x11 => .ok (.andi f.d f.a (w.extractLsb' 0 15))
  | 0x12 => .ok (.ori f.d f.a (w.extractLsb' 0 15))
  | 0x13 => .ok (.xori f.d f.a (w.extractLsb' 0 15))
  | 0x14 => ok? (w.extractLsb' 6 9 == 0) (.shli f.d f.a (w.extractLsb' 0 6))
  | 0x15 => ok? (w.extractLsb' 6 9 == 0) (.shri f.d f.a (w.extractLsb' 0 6))
  | 0x16 => ok? (w.extractLsb' 6 9 == 0) (.srai f.d f.a (w.extractLsb' 0 6))
  | 0x17 => .ok (.li f.d (w.extractLsb' 0 20))
  | 0x18 => .ok (.lic f.d (w.extractLsb' 0 20))
  | 0x19 => ok? (f.f == 0) (.bfxs f.d f.a f.b f.c)
  | 0x1A => ok? (f.f == 0) (.bfxu f.d f.a f.b f.c)
  | 0x1B => ok? (f.f == 0) (.bfi f.d f.a f.b f.c)
  | 0x1C => ok? (f.f == 0) (.fshl f.d f.a f.b f.c)
  | 0x1D => ok? (f.f == 0) (.fshr f.d f.a f.b f.c)
  | 0x1E => ok? (f.b == 0 && f.c == 0 && f.f == 0) (.clz f.d f.a)
  | 0x1F => ok? (f.b == 0 && f.c == 0 && f.f == 0) (.ctz f.d f.a)
  | 0x20 => ok? (f.b == 0 && f.c == 0 && f.f == 0) (.popc f.d f.a)
  | 0x21 => ok? (f.c == 0 && f.f == 0) (.slt f.d f.a f.b)
  | 0x22 => ok? (f.c == 0 && f.f == 0) (.sltu f.d f.a f.b)
  | 0x23 => ok? (p? f.d && f.c.toNat ≤ 6 && f.f == 0) (.pcmp (f.d.setWidth 3) f.a f.b f.c)
  | 0x24 => ok? (p? f.c && f.f == 0) (.sel f.d f.a f.b (f.c.setWidth 3))
  | 0x25 => ok? (q? f.d && q? f.a && f.c == 0 && f.f == 0) (.qadd (f.d.setWidth 4) (f.a.setWidth 4) f.b)
  | 0x26 => ok? (q? f.d && q? f.a) (.qaddi (f.d.setWidth 4) (f.a.setWidth 4) (w.extractLsb' 0 15))
  | 0x27 => ok? (q? f.a && q? f.b && f.c == 0 && f.f == 0) (.qsub f.d (f.a.setWidth 4) (f.b.setWidth 4))
  | 0x28 => ok? (q? f.d && f.c == 0 && f.f == 0) (.qmov (f.d.setWidth 4) f.a f.b)
  | 0x29 => ok? (q? f.a && f.b.toNat ≤ 1 && f.c == 0 && f.f == 0) (.qtos f.d (f.a.setWidth 4) (f.b == 1))
  | 0x2A => ok? (q? f.d && q? f.a && f.c == 0 && f.f == 0) (.qhome (f.d.setWidth 4) (f.a.setWidth 4) f.b)
  | 0x2B => .ok (.beq f.d f.a (w.extractLsb' 0 15))
  | 0x2C => .ok (.bne f.d f.a (w.extractLsb' 0 15))
  | 0x2D => .ok (.blt f.d f.a (w.extractLsb' 0 15))
  | 0x2E => .ok (.bge f.d f.a (w.extractLsb' 0 15))
  | 0x2F => .ok (.bltu f.d f.a (w.extractLsb' 0 15))
  | 0x30 => .ok (.bgeu f.d f.a (w.extractLsb' 0 15))
  | 0x31 => .ok (.jmp (w.extractLsb' 0 25))
  | 0x32 => .ok (.call (w.extractLsb' 0 25))
  | 0x33 => ok? (q? f.a && f.d == 0 && f.b == 0 && f.c == 0 && f.f == 0) (.jr (f.a.setWidth 4))
  | 0x34 => ok? (f.a == 0) (.loop f.d (w.extractLsb' 0 15))
  | 0x35 => .ok (.loopi (w.extractLsb' 15 10) (w.extractLsb' 0 15))
  | 0x36 => ok? (f.d == 0 && f.a == 0 && f.b == 0 && f.c == 0 && f.f == 0) (.endCtx)
  | 0x37 => ok? (f.d == 0 && f.a == 0 && f.b == 0 && f.c == 0 && f.f == 0) (.yield)
  | 0x38 => ok? (f.a == 0 && f.b == 0 && f.c == 0 && f.f == 0) (.wait f.d)
  | 0x39 => ok? (f.d == 0 && f.f.toNat < 16) (.warm f.a f.b f.c (f.f.setWidth 3) (f.f.getLsbD 3))
  | 0x3A => ok? (f.d == 0 && f.a == 0 && f.b == 0 && f.c == 0 && f.f == 0) (.tnext)
  | 0x3B => ok? (f.d == 0 && f.b == 0 && f.c == 0 && f.f == 0) (.fmtset f.a)
  | 0x3C => ok? (w.extractLsb' 0 8 == 0) (.mfsr f.d (w.extractLsb' 8 12))
  | 0x3D => ok? (w.extractLsb' 0 8 == 0) (.mtsr f.d (w.extractLsb' 8 12))
  | 0x3E => ok? (f.d == 0) (.trap (w.extractLsb' 0 20))
  | 0x3F => ok? (f.d == 0 && f.a == 0 && f.b == 0 && f.c == 0 && f.f == 0) (.tret)
  | _ => .error .unassigned

/-- Class V, slot 1 (R79). -/
def decodeV (hdr : Bool) (ext : Byte) (w : BitVec 32) : Except DecErr Instr :=
  let v := vrOf ext w
  match (opOf w).toNat with
  | 0x00 => ok? (w == 0 && ext == 0) .nop
  | 0x01 => vr v (v.f == 0) Ty.fpInt fun ty => .vadd ty v.d v.a v.b v.pred
  | 0x02 => vr v (v.f == 0) Ty.fpInt fun ty => .vsub ty v.d v.a v.b v.pred
  | 0x03 => vr v (v.f == 0) Ty.fpInt fun ty => .vmul ty v.d v.a v.b v.pred
  | 0x04 => vr v (v.f == 0) Ty.isFp fun ty => .vfma ty v.d v.a v.b v.pred
  | 0x05 => vr v (v.f == 0) Ty.isFp fun ty => .vfms ty v.d v.a v.b v.pred
  | 0x06 => vr v (v.f == 0) Ty.isFp fun ty => .vdiv ty v.d v.a v.b v.pred
  | 0x07 => vr v (v.f == 0) Ty.fpInt fun ty => .vmin ty v.d v.a v.b v.pred
  | 0x08 => vr v (v.f == 0) Ty.fpInt fun ty => .vmax ty v.d v.a v.b v.pred
  | 0x09 => vr v (v.b == 0 && v.f == 0) Ty.fpOrSigned fun ty => .vabs ty v.d v.a v.pred
  | 0x0A => vr v (v.b == 0 && v.f == 0) Ty.fpOrSigned fun ty => .vneg ty v.d v.a v.pred
  | 0x0B => vr v (v.f == 0) Ty.isInt fun ty => .vadds ty v.d v.a v.b v.pred
  | 0x0C => vr v (v.f == 0) Ty.isInt fun ty => .vsubs ty v.d v.a v.b v.pred
  | 0x0D => vr v (v.f == 0) Ty.isInt fun ty => .vmulh ty v.d v.a v.b v.pred
  | 0x0E => vr v (v.f == 0) Ty.isInt fun ty => .vshl ty v.d v.a v.b v.pred
  | 0x0F => vr v (v.f == 0) Ty.isInt fun ty => .vshr ty v.d v.a v.b v.pred
  | 0x10 => vr v (v.f == 0) Ty.isInt fun ty => .vsra ty v.d v.a v.b v.pred
  | 0x11 => vi w hdr ext true Ty.isInt fun ty d a imm p => .vaddi ty d a imm p
  | 0x12 => vi w hdr ext false Ty.isInt fun ty d a imm p => .vshli ty d a imm p
  | 0x13 => vi w hdr ext false Ty.isInt fun ty d a imm p => .vshri ty d a imm p
  | 0x14 => vi w hdr ext false Ty.isInt fun ty d a imm p => .vsrai ty d a imm p
  | 0x15 => vr v (p? v.d && v.f == 0) Ty.fpInt fun ty => .vcmpeq ty (v.d.setWidth 3) v.a v.b v.pred
  | 0x16 => vr v (p? v.d && v.f == 0) Ty.fpInt fun ty => .vcmpne ty (v.d.setWidth 3) v.a v.b v.pred
  | 0x17 => vr v (p? v.d && v.f == 0) Ty.fpInt fun ty => .vcmplt ty (v.d.setWidth 3) v.a v.b v.pred
  | 0x18 => vr v (p? v.d && v.f == 0) Ty.fpInt fun ty => .vcmple ty (v.d.setWidth 3) v.a v.b v.pred
  | 0x19 => vr v (v.pe && v.f == 0) Ty.fpInt fun ty => .vsel ty v.d v.a v.b v.p
  | 0x1A => vcvtDec v
  | 0x1B => vr v (!v.pe && v.f == 0 && v.b.toNat < 7) (· == .bp) fun _ => .vbppack (v.b.setWidth 3) v.d v.a
  | 0x1C => vr v (!v.pe && v.f == 0 && v.b.toNat < 7) (· == .bp) fun _ => .vbpunpack (v.b.setWidth 3) v.d v.a
  | 0x1D => vr v (v.b == 0 && v.f == 0) Ty.isFp fun ty => .vexp2 ty v.d v.a v.pred
  | 0x1E => vr v (v.b == 0 && v.f == 0) Ty.isFp fun ty => .vlog2 ty v.d v.a v.pred
  | 0x1F => vr v (v.b == 0 && v.f == 0) Ty.isFp fun ty => .vrcp ty v.d v.a v.pred
  | 0x20 => vr v (v.b == 0 && v.f == 0) Ty.isFp fun ty => .vrsqrt ty v.d v.a v.pred
  | 0x21 => vr v (v.b == 0 && v.f == 0) Ty.fpInt fun ty => .vredadd ty v.d v.a v.pred
  | 0x22 => vr v (v.b == 0 && v.f == 0) Ty.fpInt fun ty => .vredmax ty v.d v.a v.pred
  | 0x23 => vr v (v.b == 0 && v.f == 0) Ty.fpInt fun ty => .vredmin ty v.d v.a v.pred
  | 0x24 => vr v (v.b == 0 && v.f == 0) Ty.fpInt fun ty => .vscanadd ty v.d v.a v.pred
  | 0x25 => vr v (v.b == 0 && v.f == 0) Ty.fpInt fun ty => .vscanmax ty v.d v.a v.pred
  | 0x26 => vr v (v.f == 0) Ty.fpInt fun ty => .vperm ty v.d v.a v.b v.pred
  | 0x27 => vr v (v.f == 0) Ty.fpInt fun ty => .vbcast ty v.d v.a v.b v.pred
  | 0x28 => vi w hdr ext false Ty.fpInt fun ty d a imm p => .vrot ty d a imm p
  | 0x29 => vi w hdr ext true Ty.fpInt fun ty d a imm p => .vslide ty d a imm p
  | 0x2A => vr v (v.f.toNat < 2) Ty.fpInt fun ty => .vzip ty v.d v.a v.b (v.f == 1) v.pred
  | 0x2B => vr v (v.f.toNat < 2) Ty.fpInt fun ty => .vunzip ty v.d v.a v.b (v.f == 1) v.pred
  | 0x2C => vr v (v.f == 0) Ty.isInt fun ty => .vand ty v.d v.a v.b v.pred
  | 0x2D => vr v (v.f == 0) Ty.isInt fun ty => .vor ty v.d v.a v.b v.pred
  | 0x2E => vr v (v.f == 0) Ty.isInt fun ty => .vxor ty v.d v.a v.b v.pred
  | 0x2F => vr v (v.f == 0) Ty.isInt fun ty => .vandn ty v.d v.a v.b v.pred
  | 0x30 => vr v (v.b == 0 && v.f == 0) Ty.isInt fun ty => .vpopc ty v.d v.a v.pred
  | 0x31 => vr v (v.b == 0 && v.f == 0) Ty.isInt fun ty => .vclz ty v.d v.a v.pred
  | 0x32 => vr v (v.f == 0) Ty.isInt fun ty => .vbfx ty v.d v.a v.b v.pred
  | 0x33 => vr v (v.f == 0) Ty.isInt fun ty => .vbfi ty v.d v.a v.b v.pred
  | 0x34 => vr v (!v.pe && v.f == 0) Ty.fpInt fun ty => .vins ty v.d v.a v.b
  | 0x35 => vr v (!v.pe && v.f == 0) Ty.fpInt fun ty => .vext ty v.d v.a v.b
  | 0x36 => vr v (v.b == 0 && v.f == 0) Ty.fpInt fun ty => .vdup ty v.d v.a v.pred
  | 0x37 => vr v (v.b == 0 && v.f == 0) Ty.fpInt fun ty => .vmov ty v.d v.a v.pred
  | 0x38 => vr v (!v.pe && p? v.d && p? v.a && p? v.b && v.f == 0) (· == .f32) fun _ => .pand (v.d.setWidth 3) (v.a.setWidth 3) (v.b.setWidth 3)
  | 0x39 => vr v (!v.pe && p? v.d && p? v.a && p? v.b && v.f == 0) (· == .f32) fun _ => .por (v.d.setWidth 3) (v.a.setWidth 3) (v.b.setWidth 3)
  | 0x3A => vr v (!v.pe && p? v.d && p? v.a && p? v.b && v.f == 0) (· == .f32) fun _ => .pxor (v.d.setWidth 3) (v.a.setWidth 3) (v.b.setWidth 3)
  | 0x3B => vr v (!v.pe && p? v.d && p? v.a && v.b == 0 && v.f == 0) (· == .f32) fun _ => .pnot (v.d.setWidth 3) (v.a.setWidth 3)
  | 0x3C => vr v (!v.pe && q? v.d && q? v.a && q? v.b && v.f == 0) (· == .f32) fun _ => .mand (v.d.setWidth 4) (v.a.setWidth 4) (v.b.setWidth 4)
  | 0x3D => vr v (!v.pe && q? v.d && q? v.a && q? v.b && v.f == 0) (· == .f32) fun _ => .mor (v.d.setWidth 4) (v.a.setWidth 4) (v.b.setWidth 4)
  | 0x3E => vr v (!v.pe && q? v.d && q? v.a && q? v.b && v.f == 0) (· == .f32) fun _ => .mxor (v.d.setWidth 4) (v.a.setWidth 4) (v.b.setWidth 4)
  | 0x3F => vr v (!v.pe && q? v.d && v.b == 0 && v.f == 0) (· == .f32) fun _ => .mset (v.d.setWidth 4) v.a
  | 0x40 => vr v (!v.pe && q? v.a && v.b == 0 && v.f == 0) (· == .f32) fun _ => .mget v.d (v.a.setWidth 4)
  | 0x41 => vr v (!v.pe && v.d == 0 && v.f == 0) (· == .i32) fun _ => .manc v.a v.b
  | 0x42 => vr v (v.f == 0) Ty.fpInt fun ty => .vargmax ty v.d v.a v.b v.pred
  | 0x43 => vr v (!v.pe && v.f == 0) (· == .f32) fun _ => .vsparseadd v.d v.a v.b
  | 0x44 => vr v (v.f != 3) (· == .n32) fun _ => .vcfhash v.f v.d v.a v.b v.pred
  | 0x45 => vr v (v.f == 0) (· == .n8) fun _ => .vcfupd v.d v.a v.b v.pred
  | 0x46 => vr v (!v.pe && v.b == 0 && v.f == 0) (· == .f32) fun _ => .vdesc v.d v.a
  | 0x47 => vr v (!v.pe && v.f == 0) (· == .n32) fun _ => .vphilox v.d v.a v.b
  | _ => .error .unassigned

/-- Class L, slot 2 (R80). A type field that is not zero in pref or pst is cause 4 (R161, log 66);
a view class that is not zero in pref at level 1, which does not use it, is cause 3 (log 76). -/
def decodeL (hdr : Bool) (ext : Byte) (w : BitVec 32) : Except DecErr Instr :=
  let f := rrOf w
  let m := miOf hdr ext w
  let x := mxOf ext w
  match (opOf w).toNat with
  | 0x00 => ok? (w == 0 && ext == 0) .nop
  | 0x01 => mi m (true) Ty.scalarMem fun ty => .ld ty m.vc m.d m.q m.off
  | 0x02 => mi m (m.vc == 0) Ty.scalarMem fun ty => .st ty m.d m.q m.off
  | 0x03 => mi m (true) Ty.vectorMem fun ty => .vld ty m.vc m.d m.q m.off
  | 0x04 => mi m (m.vc == 0) Ty.vectorMem fun ty => .vst ty m.d m.q m.off
  | 0x05 => mx x true Ty.scalarMem fun ty => .ldx ty x.vc x.d x.q x.i x.sc
  | 0x06 => mx x (x.vc == 0) Ty.scalarMem fun ty => .stx ty x.d x.q x.i x.sc
  | 0x07 => mx x true Ty.vectorMem fun ty => .vldx ty x.vc x.d x.q x.i x.sc
  | 0x08 => mx x (x.vc == 0) Ty.vectorMem fun ty => .vstx ty x.d x.q x.i x.sc
  | 0x09 => mx x true Ty.vectorMem fun ty => .vlds ty x.vc x.d x.q x.i x.sc
  | 0x0A => mx x (x.vc == 0) Ty.vectorMem fun ty => .vsts ty x.d x.q x.i x.sc
  | 0x0B => mx x true Ty.gather fun ty => .vgath ty x.vc x.d x.q x.i x.sc
  | 0x0C => mx x (x.vc == 0) Ty.gather fun ty => .vscat ty x.d x.q x.i x.sc
  | 0x0D => mi m (p? m.d) (· == .n32) fun _ => .kld m.vc (m.d.setWidth 3) m.q m.off
  | 0x0E => ok? (ext == 0 && q? f.d && p? f.a && q? f.b && f.f.toNat < 2) (.bgath (f.d.setWidth 4) (f.a.setWidth 3) (f.b.setWidth 4) f.c (f.f == 1))
  | 0x0F => atom f (ext == 0) Ty.atomAny fun ty => .amadd ty f.d (f.a.setWidth 4) f.b (f.c.extractLsb' 0 2) (f.c.extractLsb' 2 3)
  | 0x10 => atom f (ext == 0) Ty.atomAny fun ty => .ammin ty f.d (f.a.setWidth 4) f.b (f.c.extractLsb' 0 2) (f.c.extractLsb' 2 3)
  | 0x11 => atom f (ext == 0) Ty.atomAny fun ty => .ammax ty f.d (f.a.setWidth 4) f.b (f.c.extractLsb' 0 2) (f.c.extractLsb' 2 3)
  | 0x12 => atom f (ext == 0) Ty.atomInt fun ty => .amand ty f.d (f.a.setWidth 4) f.b (f.c.extractLsb' 0 2) (f.c.extractLsb' 2 3)
  | 0x13 => atom f (ext == 0) Ty.atomInt fun ty => .amor ty f.d (f.a.setWidth 4) f.b (f.c.extractLsb' 0 2) (f.c.extractLsb' 2 3)
  | 0x14 => atom f (ext == 0) Ty.atomInt fun ty => .amxor ty f.d (f.a.setWidth 4) f.b (f.c.extractLsb' 0 2) (f.c.extractLsb' 2 3)
  | 0x15 => atom f (ext == 0) Ty.atomAny fun ty => .amxchg ty f.d (f.a.setWidth 4) f.b (f.c.extractLsb' 0 2) (f.c.extractLsb' 2 3)
  | 0x16 => atom f (ext == 0) Ty.atomAny fun ty => .amcas ty f.d (f.a.setWidth 4) f.b (f.c.extractLsb' 0 2) (f.c.extractLsb' 2 3)
  | 0x17 => atom f (ext == 0 && f.d == 0) Ty.atomAny fun ty => .stadd ty (f.a.setWidth 4) f.b (f.c.extractLsb' 0 2) (f.c.extractLsb' 2 3)
  | 0x18 => atom f (ext == 0 && f.d == 0) Ty.atomAny fun ty => .stmin ty (f.a.setWidth 4) f.b (f.c.extractLsb' 0 2) (f.c.extractLsb' 2 3)
  | 0x19 => atom f (ext == 0 && f.d == 0) Ty.atomAny fun ty => .stmax ty (f.a.setWidth 4) f.b (f.c.extractLsb' 0 2) (f.c.extractLsb' 2 3)
  | 0x1A => atom f (ext == 0 && f.d == 0) Ty.atomInt fun ty => .stand ty (f.a.setWidth 4) f.b (f.c.extractLsb' 0 2) (f.c.extractLsb' 2 3)
  | 0x1B => atom f (ext == 0 && f.d == 0) Ty.atomInt fun ty => .stor ty (f.a.setWidth 4) f.b (f.c.extractLsb' 0 2) (f.c.extractLsb' 2 3)
  | 0x1C => atom f (ext == 0 && f.d == 0) Ty.atomInt fun ty => .stxor ty (f.a.setWidth 4) f.b (f.c.extractLsb' 0 2) (f.c.extractLsb' 2 3)
  | 0x1D => mi m (m.scopeField) Ty.scalarMem fun ty => .lda ty m.vc m.d m.q (m.off.setWidth 3)
  | 0x1E => mi m (m.vc == 0 && m.scopeField) Ty.scalarMem fun ty => .stl ty m.d m.q (m.off.setWidth 3)
  | 0x1F => ok? (ext == 0 && f.d == 0 && f.a == 0 && f.b == 0 && f.c == 0 && f.f.toNat ≤ 5) (.fence (f.f.setWidth 3))
  | 0x20 => ok? (ext == 0 && f.d == 0 && f.a == 0 && f.b == 0 && f.c == 0 && f.f == 0) (.drain)
  | 0x21 => ok? (q? f.a) (.cbwait f.d (f.a.setWidth 4) (ri23 w hdr ext false))
  | 0x22 => ok? (q? f.a) (.cbspace f.d (f.a.setWidth 4) (ri23 w hdr ext false))
  | 0x23 => ok? (f.d == 0 && q? f.a) (.cbfree (f.a.setWidth 4) (ri23 w hdr ext false))
  | 0x24 => ok? (f.d == 0 && q? f.a) (.cbadv (f.a.setWidth 4) (ri23 w hdr ext false))
  | 0x25 => ok? (q? f.d && q? f.a) (.cbbind (f.d.setWidth 4) (f.a.setWidth 4) (ri23 w hdr ext true))
  | 0x26 => ok? (q? f.a && (ri23 w hdr ext false).toNat < 2) (.cbpop f.d (f.a.setWidth 4) (ri23 w hdr ext false == 1))
  | 0x27 => ok? (ext == 0 && f.d == 0 && f.c == 0 && f.f == 0) (.barv f.a f.b)
  | 0x28 => ok? (ext == 0 && f.c == 0 && f.f == 0) (.barx f.d f.a f.b)
  | 0x29 => ok? (ext == 0 && f.d == 0 && f.c == 0 && f.f == 0) (.barw f.a f.b)
  | 0x2A => ok? (ext == 0 && f.d == 0 && f.a == 0 && f.b == 0 && f.f == 0 && orderScopeOk (f.c.extractLsb' 0 2) (f.c.extractLsb' 2 3)) (.dsync (f.c.extractLsb' 0 2) (f.c.extractLsb' 2 3))
  | 0x2B => mi m (m.d.toNat < 2 && (m.d == 0 || m.vc == 0)) (· == .f32) fun _ => .pref (m.d == 1) m.vc m.q m.off
  | 0x2C => ok? (ext == 0 && f.d == 0 && f.c == 0 && f.f == 0) (.spmode f.a f.b)
  | 0x2D => mi m (p? m.d) (· == .f32) fun _ => .pld m.vc (m.d.setWidth 3) m.q m.off
  | 0x2E => mi m (p? m.d && m.vc == 0) (· == .f32) fun _ => .pst (m.d.setWidth 3) m.q m.off
  | 0x2F => mi m (true) Ty.vectorMem fun ty => .vldbc ty m.vc m.d m.q m.off
  | _ => .error .unassigned

/-- Class E, slot 3 (R81). -/
def decodeE (ext : Byte) (w : BitVec 32) : Except DecErr Instr :=
  let f := rrOf w
  let e := ecOf ext w
  match (opOf w).toNat with
  | 0x00 => ok? (w == 0 && ext == 0) .nop
  | 0x01 => ok? (e.extT && q? e.a && q? e.b && e.f.toNat < 8) (.mma e.tile (e.a.setWidth 4) (e.b.setWidth 4) e.c (e.f.getLsbD 0) (e.f.getLsbD 1) (e.f.getLsbD 2))
  | 0x02 => ok? (e.extT && q? e.a && q? e.b && e.f.toNat < 8) (.mmaa e.tile (e.a.setWidth 4) (e.b.setWidth 4) e.c (e.f.getLsbD 0) (e.f.getLsbD 1) (e.f.getLsbD 2))
  | 0x03 => ok? (e.extT && q? e.b && e.f.toNat < 8 && !e.f.getLsbD 1) (.mmas e.tile e.a (e.b.setWidth 4) e.c (e.f.getLsbD 0) (e.f.getLsbD 2))
  | 0x04 => ok? (e.extT && q? e.a && q? e.b && e.f.toNat < 8) (.mmtr e.tile (e.a.setWidth 4) (e.b.setWidth 4) e.c (e.f.getLsbD 0) (e.f.getLsbD 1) (e.f.getLsbD 2))
  | 0x05 => ok? (e.extT && q? e.a && q? e.b && e.f.toNat < 8) (.mmtra e.tile (e.a.setWidth 4) (e.b.setWidth 4) e.c (e.f.getLsbD 0) (e.f.getLsbD 1) (e.f.getLsbD 2))
  | 0x06 => ok? (e.extT && q? e.a && e.b == 0 && e.f == 0) (.tld e.tile (e.a.setWidth 4) e.c)
  | 0x07 => ok? (e.extT && e.b == 0 && e.f == 0) (.tldsp e.tile e.a e.c)
  | 0x08 => ok? (e.extT && q? e.a && e.b == 0 && e.f == 0) (.tst e.tile (e.a.setWidth 4) e.c)
  | 0x09 => ok? (e.extT && e.b == 0 && e.f == 0) (.tstsp e.tile e.a e.c)
  | 0x0A => ok? (e.extT && e.a == 0 && e.b == 0 && e.f == 0) (.tzero e.tile e.c)
  | 0x0B => ok? (e.extT && q? e.a && q? e.b && e.f.toNat < 32) (.attn e.tile (e.a.setWidth 4) (e.b.setWidth 4) e.c (e.f.setWidth 4) (e.f.getLsbD 4))
  | 0x0C => ok? (e.extT && q? e.a && e.b == 0 && e.f == 0) (.attnf e.tile (e.a.setWidth 4) e.c)
  | 0x0D => ok? (e.ext0 && e.t == 0 && q? e.a && e.b == 0 && e.f.toNat < 16) (.mpld (e.f.setWidth 4) (e.a.setWidth 4) e.c)
  | 0x0E => ok? (e.ext0 && e.t == 0 && q? e.a && q? e.b && e.f.toNat < 2) (.copy (e.a.setWidth 4) (e.b.setWidth 4) e.c (e.f == 1))
  | 0x0F => ok? (e.ext0 && e.t == 0 && q? e.a && q? e.b && e.f.toNat < 2) (.copy2d (e.a.setWidth 4) (e.b.setWidth 4) e.c (e.f == 1))
  | 0x10 => ok? (e.ext0 && e.t == 0 && q? e.a && q? e.b && e.f.toNat < 2) (.copyc (e.b.setWidth 4) (e.a.setWidth 4) e.c (e.f == 1))
  | 0x11 => ok? (e.ext0 && e.t == 0 && q? e.a && e.b == 0 && e.f.toNat < 8) (.pmvec (e.a.setWidth 4) e.c (e.f.setWidth 3))
  | 0x12 => ok? (e.ext0 && pmTypeOk e.t && e.a == 0 && e.b == 0) (.pmmac e.t e.c e.f)
  | 0x13 => ok? (e.ext0 && e.t == 0 && e.a == 0 && e.b == 0) (.pmatk e.c e.f)
  | 0x14 => ok? (e.ext0 && e.t == 0 && e.a == 0 && e.b == 0) (.pmatv e.c e.f)
  | 0x16 => ok? (e.ext0 && e.t == 0 && e.a == 0 && e.b == 0) (.pmclr e.c e.f)
  | 0x15 => ok? (e.ext0 && e.t == 0 && e.a == 0 && q? e.b) (.pmrd (e.b.setWidth 4) e.c e.f)
  | 0x17 => ok? (e.ext0 && e.t == 0 && q? e.a && e.b == 0) (.laybind (e.a.setWidth 4) e.c e.f)
  | 0x18 => ok? (e.ext0 && e.t == 0 && q? e.a && e.b == 0) (.kvxfer (e.a.setWidth 4) e.c e.f)
  | 0x19 => ok? (e.ext0 && e.t == 0 && q? e.a && e.b == 0) (.kvapp (e.a.setWidth 4) e.c e.f)
  | 0x1A => ok? (e.ext0 && e.t == 0 && q? e.a && e.b == 0) (.pmst (e.a.setWidth 4) e.c e.f)
  | 0x1B => ok? (ext == 0 && f.a == 0 && f.b == 0 && f.c == 0 && f.f == 0) (.pmsync f.d)
  | 0x1C => ok? (ext == 0 && q? f.a && f.f == 0) (.rthash f.d (f.a.setWidth 4) f.b f.c)
  | 0x1D => ok? (ext == 0 && q? f.a && f.f == 0) (.rtfind f.d (f.a.setWidth 4) f.b f.c)
  | 0x1E => ok? (ext == 0 && q? f.a && f.f.toNat < 2) (.rtdep f.d (f.a.setWidth 4) f.b f.c (f.f == 1))
  | 0x1F => ok? (ext == 0 && f.b == 0 && f.c == 0 && f.f == 0) (.rtref f.d f.a)
  | 0x20 => ok? (ext == 0 && f.b == 0 && f.c == 0 && f.f == 0) (.rtrel f.d f.a)
  | 0x21 => ok? (ext == 0 && f.b == 0 && f.c == 0 && f.f.toNat ≤ 4) (.rtpin f.d f.a f.f)
  | 0x22 => ok? (ext == 0 && q? f.c && f.f == 0) (.rtevict f.d (f.c.setWidth 4) f.a f.b)
  | 0x23 => ok? (ext == 0 && f.c == 0 && f.f == 0) (.rtrd f.d f.a f.b)
  | 0x24 => ok? (ext == 0 && q? f.d && q? f.a && f.b == 0 && f.c == 0 && f.f == 0) (.schsel (f.d.setWidth 4) (f.a.setWidth 4))
  | 0x25 => ok? (ext == 0 && f.c == 0 && f.f == 0) (.tokcommit f.d f.a f.b)
  | 0x26 => ok? (ext == 0 && f.f == 0) (.specacc f.d f.a f.b f.c)
  | 0x27 => ok? (ext == 0 && f.d == 0 && f.f.toNat ≤ 16 && f.c.toNat + f.f.toNat ≤ 32 && (f.f != 0 || f.c == 0)) (.spawn f.a f.b f.c f.f)
  | _ => .error .unassigned

/-! ## Bundles -/

/-- A decoded bundle (R69, R71): whether slot 0 is a header, its RESTART bit, and the four instructions. -/
structure Bundle where
  hdr : Bool
  restart : Bool
  (i0 i1 i2 i3 : Instr)
  deriving DecidableEq, Repr

/-- A refusal names the slot and the opcode (R83). -/
structure BundleErr where
  err : DecErr
  slot : Nat
  opcode : Nat
  deriving DecidableEq, Repr

/-- Slot i's word of a bundle (R69). -/
def slotWord (b : BitVec 128) (i : Nat) : BitVec 32 := b.extractLsb' (32 * i) 32
/-- Opcode 0x7F in slot 0 is the header (R71). -/
def isHeader (w : BitVec 32) : Bool := opOf w == 0x7F
def atSlot (slot : Nat) (w : BitVec 32) : Except DecErr Instr → Except BundleErr Instr
  | .ok i => .ok i
  | .error e => .error ⟨e, slot, (opOf w).toNat⟩

/-- Steps 1 to 3 of R83 on the four slots, in slot order. -/
def decodeBundle (b : BitVec 128) : Except BundleErr Bundle :=
  let w0 := slotWord b 0
  let h := isHeader w0
  let x1 : Byte := if h then w0.extractLsb' 0 8 else 0
  let x2 : Byte := if h then w0.extractLsb' 8 8 else 0
  let x3 : Byte := if h then w0.extractLsb' 16 8 else 0
  match if h then .ok .nop else atSlot 0 w0 (decodeS w0) with
  | .error e => .error e
  | .ok i0 =>
    match atSlot 1 (slotWord b 1) (decodeV h x1 (slotWord b 1)) with
    | .error e => .error e
    | .ok i1 =>
      match atSlot 2 (slotWord b 2) (decodeL h x2 (slotWord b 2)) with
      | .error e => .error e
      | .ok i2 =>
        match atSlot 3 (slotWord b 3) (decodeE x3 (slotWord b 3)) with
        | .error e => .error e
        | .ok i3 => .ok ⟨h, h && w0.getLsbD 24, i0, i1, i2, i3⟩

/-- Sixteen bytes as they stand in memory, to a bundle's bits (R69). -/
def bundleOfBytes : List Byte → BitVec 128
  | [] => 0
  | b :: bs => b.setWidth 128 ||| (bundleOfBytes bs <<< 8)

/-! ## The class of an instruction and its encoding -/

/-- The slot class whose opcode map holds the instruction (R78 to R81); NOP is in every class. -/
def Instr.cls : Instr → Option SlotClass
  | .nop => none
  | .add .. | .sub .. | .and .. | .or .. | .xor .. | .shl .. | .shr .. | .sra .. | .min .. | .max .. | .mul ..
  | .mulh .. | .mulhu .. | .div .. | .divu .. | .addi .. | .andi .. | .ori .. | .xori .. | .shli .. | .shri ..
  | .srai .. | .li .. | .lic .. | .bfxs .. | .bfxu .. | .bfi .. | .fshl .. | .fshr .. | .clz .. | .ctz ..
  | .popc .. | .slt .. | .sltu .. | .pcmp .. | .sel .. | .qadd .. | .qaddi .. | .qsub .. | .qmov .. | .qtos ..
  | .qhome .. | .beq .. | .bne .. | .blt .. | .bge .. | .bltu .. | .bgeu .. | .jmp .. | .call .. | .jr ..
  | .loop .. | .loopi .. | .endCtx .. | .yield .. | .wait .. | .warm .. | .tnext .. | .fmtset .. | .mfsr ..
  | .mtsr .. | .trap .. | .tret .. => some .S
  | .vadd .. | .vsub .. | .vmul .. | .vfma .. | .vfms .. | .vdiv .. | .vmin .. | .vmax .. | .vabs ..
  | .vneg .. | .vadds .. | .vsubs .. | .vmulh .. | .vshl .. | .vshr .. | .vsra .. | .vaddi .. | .vshli ..
  | .vshri .. | .vsrai .. | .vcmpeq .. | .vcmpne .. | .vcmplt .. | .vcmple .. | .vsel .. | .vcvt ..
  | .vbppack .. | .vbpunpack .. | .vexp2 .. | .vlog2 .. | .vrcp .. | .vrsqrt .. | .vredadd .. | .vredmax ..
  | .vredmin .. | .vscanadd .. | .vscanmax .. | .vperm .. | .vbcast .. | .vrot .. | .vslide .. | .vzip ..
  | .vunzip .. | .vand .. | .vor .. | .vxor .. | .vandn .. | .vpopc .. | .vclz .. | .vbfx .. | .vbfi ..
  | .vins .. | .vext .. | .vdup .. | .vmov .. | .pand .. | .por .. | .pxor .. | .pnot .. | .mand .. | .mor ..
  | .mxor .. | .mset .. | .mget .. | .manc .. | .vargmax .. | .vsparseadd .. | .vcfhash .. | .vcfupd ..
  | .vdesc .. | .vphilox .. => some .V
  | .ld .. | .st .. | .vld .. | .vst .. | .ldx .. | .stx .. | .vldx .. | .vstx .. | .vlds .. | .vsts ..
  | .vgath .. | .vscat .. | .kld .. | .bgath .. | .amadd .. | .ammin .. | .ammax .. | .amand .. | .amor ..
  | .amxor .. | .amxchg .. | .amcas .. | .stadd .. | .stmin .. | .stmax .. | .stand .. | .stor .. | .stxor ..
  | .lda .. | .stl .. | .fence .. | .drain .. | .cbwait .. | .cbspace .. | .cbfree .. | .cbadv .. | .cbbind ..
  | .cbpop .. | .barv .. | .barx .. | .barw .. | .dsync .. | .pref .. | .spmode .. | .pld .. | .pst ..
  | .vldbc .. => some .L
  | .mma .. | .mmaa .. | .mmas .. | .mmtr .. | .mmtra .. | .tld .. | .tldsp .. | .tst .. | .tstsp ..
  | .tzero .. | .attn .. | .attnf .. | .mpld .. | .copy .. | .copy2d .. | .copyc .. | .pmvec .. | .pmmac ..
  | .pmatk .. | .pmatv .. | .pmclr .. | .pmrd .. | .laybind .. | .kvxfer .. | .kvapp .. | .pmst ..
  | .pmsync .. | .rthash .. | .rtfind .. | .rtdep .. | .rtref .. | .rtrel .. | .rtpin .. | .rtevict ..
  | .rtrd .. | .schsel .. | .tokcommit .. | .specacc .. | .spawn .. => some .E
  | .doorbell .. | .slotMapping .. | .timeSliceExpiry .. | .launch .. | .retirement ..
  | .launchAbortTimeout .. | .tnextLanding .. | .fmtWriteEffect .. | .spawnTargetReady .. | .commandFire ..
  | .commandRetire .. | .restartPointCommit .. | .conflictRollback .. | .faultRollback ..
  | .faultBatchClose .. | .faultResponse .. | .preemption .. | .preemptTimeout .. | .readRequest ..
  | .storeHeader .. | .writeThrough .. | .ownershipRequest .. | .upgrade .. | .precisionSnoop ..
  | .backInvalidation .. | .recall .. | .grant .. | .dataResponse .. | .ownerEviction .. | .writeCompletion ..
  | .hostRead .. | .hostWrite .. | .hostSnoop .. | .flitCrcFailure .. | .coherenceTimeout ..
  | .hostSnoopTimeout .. | .pageMigration .. | .groupStart .. | .groupComplete .. | .refresh ..
  | .qbindBind .. | .qbindUnbind .. | .asidselWrite .. | .asidselLoad .. | .tlbinv .. | .tlbinvRead ..
  | .hfaultRead .. | .erdropClear .. | .registerWrite .. | .setcap .. | .sleep .. | .getcert .. | .quote ..
  | .fwload .. | .reset .. | .mailboxUnknown .. | .watchdogExpired .. | .powerCheck .. | .coldReset ..
  | .fullServiceEntry .. | .wake .. | .htrigFire .. | .htrigArm .. | .triggerFire .. | .triggerArm ..
  | .snapshotLatch .. | .frrdWrite .. => none

def bit2 (b : Bool) : BitVec 2 := (BitVec.ofBool b).setWidth 2
def bit5 (b : Bool) : BitVec 5 := (BitVec.ofBool b).setWidth 5
def bit6 (b : Bool) : BitVec 6 := (BitVec.ofBool b).setWidth 6
def bit15 (b : Bool) : BitVec 15 := (BitVec.ofBool b).setWidth 15
def predBits (p : Pred) : BitVec 4 :=
  match p with
  | some n => 1#1 ++ n
  | none => 0
def rr (op : BitVec 7) (d a b c f : BitVec 5) : BitVec 32 := op ++ d ++ a ++ b ++ c ++ f
def ri (op : BitVec 7) (d a : BitVec 5) (imm : BitVec 15) : BitVec 32 := op ++ d ++ a ++ imm
def ru (op : BitVec 7) (d : BitVec 5) (imm : BitVec 20) : BitVec 32 := op ++ d ++ imm
def jp (op : BitVec 7) (off : BitVec 25) : BitVec 32 := op ++ off
def sy (op : BitVec 7) (d : BitVec 5) (sr : BitVec 12) : BitVec 32 := op ++ d ++ sr ++ 0#8
def vr' (op : BitVec 7) (d a b : BitVec 5) (p : Pred) (ty : BitVec 4) (f : BitVec 2) : BitVec 32 :=
  op ++ d ++ a ++ b ++ predBits p ++ ty ++ f
def vi' (op : BitVec 7) (d a : BitVec 5) (p : Pred) (ty : BitVec 4) (imm : BitVec 7) : BitVec 32 :=
  op ++ d ++ a ++ predBits p ++ ty ++ imm
def mi' (op : BitVec 7) (d : BitVec 5) (q : BitVec 4) (vc : BitVec 3) (ty : BitVec 4) (off : BitVec 9) : BitVec 32 :=
  op ++ d ++ q ++ vc ++ ty ++ off
def mx' (op : BitVec 7) (d : BitVec 5) (q : BitVec 4) (vc : BitVec 3) (ty : BitVec 4) (i : BitVec 5) (sc : BitVec 2) :
    BitVec 32 := op ++ d ++ q ++ vc ++ ty ++ i ++ sc ++ 0#2
def ec (op : BitVec 7) (t : BitVec 4) (a b c : BitVec 5) (f : BitVec 6) : BitVec 32 := op ++ t ++ a ++ b ++ c ++ f
def tileExt (t : TileName) : Byte := t.extractLsb' 4 1 ++ 0#7

/-- The slot word of an instruction, from the format and opcode tables R73 to R81 (0 for a machine event). -/
def encode : Instr → BitVec 32
  | .nop => 0
  | .add d a b => rr 0x01 d a b 0 0
  | .sub d a b => rr 0x02 d a b 0 0
  | .and d a b => rr 0x03 d a b 0 0
  | .or d a b => rr 0x04 d a b 0 0
  | .xor d a b => rr 0x05 d a b 0 0
  | .shl d a b => rr 0x06 d a b 0 0
  | .shr d a b => rr 0x07 d a b 0 0
  | .sra d a b => rr 0x08 d a b 0 0
  | .min d a b => rr 0x09 d a b 0 0
  | .max d a b => rr 0x0A d a b 0 0
  | .mul d a b => rr 0x0B d a b 0 0
  | .mulh d a b => rr 0x0C d a b 0 0
  | .mulhu d a b => rr 0x0D d a b 0 0
  | .div d a b => rr 0x0E d a b 0 0
  | .divu d a b => rr 0x0F d a b 0 0
  | .addi d a imm => ri 0x10 d a imm
  | .andi d a imm => ri 0x11 d a imm
  | .ori d a imm => ri 0x12 d a imm
  | .xori d a imm => ri 0x13 d a imm
  | .shli d a sh => ri 0x14 d a (sh.setWidth 15)
  | .shri d a sh => ri 0x15 d a (sh.setWidth 15)
  | .srai d a sh => ri 0x16 d a (sh.setWidth 15)
  | .li d imm => ru 0x17 d imm
  | .lic d imm => ru 0x18 d imm
  | .bfxs d a b c => rr 0x19 d a b c 0
  | .bfxu d a b c => rr 0x1A d a b c 0
  | .bfi d a b c => rr 0x1B d a b c 0
  | .fshl d a b c => rr 0x1C d a b c 0
  | .fshr d a b c => rr 0x1D d a b c 0
  | .clz d a => rr 0x1E d a 0 0 0
  | .ctz d a => rr 0x1F d a 0 0 0
  | .popc d a => rr 0x20 d a 0 0 0
  | .slt d a b => rr 0x21 d a b 0 0
  | .sltu d a b => rr 0x22 d a b 0 0
  | .pcmp d a b cc => rr 0x23 (d.setWidth 5) a b cc 0
  | .sel d a b c => rr 0x24 d a b (c.setWidth 5) 0
  | .qadd d a b => rr 0x25 (d.setWidth 5) (a.setWidth 5) b 0 0
  | .qaddi d a imm => ri 0x26 (d.setWidth 5) (a.setWidth 5) imm
  | .qsub d a b => rr 0x27 d (a.setWidth 5) (b.setWidth 5) 0 0
  | .qmov d a b => rr 0x28 (d.setWidth 5) a b 0 0
  | .qtos d a hi => rr 0x29 d (a.setWidth 5) (bit5 hi) 0 0
  | .qhome d a b => rr 0x2A (d.setWidth 5) (a.setWidth 5) b 0 0
  | .beq a b off => ri 0x2B a b off
  | .bne a b off => ri 0x2C a b off
  | .blt a b off => ri 0x2D a b off
  | .bge a b off => ri 0x2E a b off
  | .bltu a b off => ri 0x2F a b off
  | .bgeu a b off => ri 0x30 a b off
  | .jmp off => jp 0x31 off
  | .call off => jp 0x32 off
  | .jr a => rr 0x33 0 (a.setWidth 5) 0 0 0
  | .loop a off => ri 0x34 a 0 off
  | .loopi n off => ri 0x35 (n.extractLsb' 5 5) (n.extractLsb' 0 5) off
  | .endCtx  => rr 0x36 0 0 0 0 0
  | .yield  => rr 0x37 0 0 0 0 0
  | .wait d => rr 0x38 d 0 0 0 0
  | .warm a b c n rep => rr 0x39 0 a b c ((0#1 ++ BitVec.ofBool rep ++ n))
  | .tnext  => rr 0x3A 0 0 0 0 0
  | .fmtset a => rr 0x3B 0 a 0 0 0
  | .mfsr d sr => sy 0x3C d sr
  | .mtsr d sr => sy 0x3D d sr
  | .trap imm => ru 0x3E 0 imm
  | .tret  => rr 0x3F 0 0 0 0 0
  | .vadd ty d a b p => vr' 0x01 d a b p ty.code 0
  | .vsub ty d a b p => vr' 0x02 d a b p ty.code 0
  | .vmul ty d a b p => vr' 0x03 d a b p ty.code 0
  | .vfma ty d a b p => vr' 0x04 d a b p ty.code 0
  | .vfms ty d a b p => vr' 0x05 d a b p ty.code 0
  | .vdiv ty d a b p => vr' 0x06 d a b p ty.code 0
  | .vmin ty d a b p => vr' 0x07 d a b p ty.code 0
  | .vmax ty d a b p => vr' 0x08 d a b p ty.code 0
  | .vabs ty d a p => vr' 0x09 d a 0 p ty.code 0
  | .vneg ty d a p => vr' 0x0A d a 0 p ty.code 0
  | .vadds ty d a b p => vr' 0x0B d a b p ty.code 0
  | .vsubs ty d a b p => vr' 0x0C d a b p ty.code 0
  | .vmulh ty d a b p => vr' 0x0D d a b p ty.code 0
  | .vshl ty d a b p => vr' 0x0E d a b p ty.code 0
  | .vshr ty d a b p => vr' 0x0F d a b p ty.code 0
  | .vsra ty d a b p => vr' 0x10 d a b p ty.code 0
  | .vaddi ty d a imm p => vi' 0x11 d a p ty.code (imm.extractLsb' 0 7)
  | .vshli ty d a imm p => vi' 0x12 d a p ty.code (imm.extractLsb' 0 7)
  | .vshri ty d a imm p => vi' 0x13 d a p ty.code (imm.extractLsb' 0 7)
  | .vsrai ty d a imm p => vi' 0x14 d a p ty.code (imm.extractLsb' 0 7)
  | .vcmpeq ty d a b p => vr' 0x15 (d.setWidth 5) a b p ty.code 0
  | .vcmpne ty d a b p => vr' 0x16 (d.setWidth 5) a b p ty.code 0
  | .vcmplt ty d a b p => vr' 0x17 (d.setWidth 5) a b p ty.code 0
  | .vcmple ty d a b p => vr' 0x18 (d.setWidth 5) a b p ty.code 0
  | .vsel ty d a b c => vr' 0x19 d a b (some c) ty.code 0
  | .vcvt ty src d a part p => vr' 0x1A d a (src.code.setWidth 5) p ty.code part
  | .vbppack planes d a => vr' 0x1B d a (planes.setWidth 5) none Ty.bp.code 0
  | .vbpunpack planes d a => vr' 0x1C d a (planes.setWidth 5) none Ty.bp.code 0
  | .vexp2 ty d a p => vr' 0x1D d a 0 p ty.code 0
  | .vlog2 ty d a p => vr' 0x1E d a 0 p ty.code 0
  | .vrcp ty d a p => vr' 0x1F d a 0 p ty.code 0
  | .vrsqrt ty d a p => vr' 0x20 d a 0 p ty.code 0
  | .vredadd ty d a p => vr' 0x21 d a 0 p ty.code 0
  | .vredmax ty d a p => vr' 0x22 d a 0 p ty.code 0
  | .vredmin ty d a p => vr' 0x23 d a 0 p ty.code 0
  | .vscanadd ty d a p => vr' 0x24 d a 0 p ty.code 0
  | .vscanmax ty d a p => vr' 0x25 d a 0 p ty.code 0
  | .vperm ty d a b p => vr' 0x26 d a b p ty.code 0
  | .vbcast ty d a b p => vr' 0x27 d a b p ty.code 0
  | .vrot ty d a imm p => vi' 0x28 d a p ty.code (imm.extractLsb' 0 7)
  | .vslide ty d a imm p => vi' 0x29 d a p ty.code (imm.extractLsb' 0 7)
  | .vzip ty d a b half p => vr' 0x2A d a b p ty.code (bit2 half)
  | .vunzip ty d a b half p => vr' 0x2B d a b p ty.code (bit2 half)
  | .vand ty d a b p => vr' 0x2C d a b p ty.code 0
  | .vor ty d a b p => vr' 0x2D d a b p ty.code 0
  | .vxor ty d a b p => vr' 0x2E d a b p ty.code 0
  | .vandn ty d a b p => vr' 0x2F d a b p ty.code 0
  | .vpopc ty d a p => vr' 0x30 d a 0 p ty.code 0
  | .vclz ty d a p => vr' 0x31 d a 0 p ty.code 0
  | .vbfx ty d a b p => vr' 0x32 d a b p ty.code 0
  | .vbfi ty d a b p => vr' 0x33 d a b p ty.code 0
  | .vins ty d a b => vr' 0x34 d a b none ty.code 0
  | .vext ty d a b => vr' 0x35 d a b none ty.code 0
  | .vdup ty d a p => vr' 0x36 d a 0 p ty.code 0
  | .vmov ty d a p => vr' 0x37 d a 0 p ty.code 0
  | .pand d a b => vr' 0x38 (d.setWidth 5) (a.setWidth 5) (b.setWidth 5) none 0 0
  | .por d a b => vr' 0x39 (d.setWidth 5) (a.setWidth 5) (b.setWidth 5) none 0 0
  | .pxor d a b => vr' 0x3A (d.setWidth 5) (a.setWidth 5) (b.setWidth 5) none 0 0
  | .pnot d a => vr' 0x3B (d.setWidth 5) (a.setWidth 5) 0 none 0 0
  | .mand d a b => vr' 0x3C (d.setWidth 5) (a.setWidth 5) (b.setWidth 5) none 0 0
  | .mor d a b => vr' 0x3D (d.setWidth 5) (a.setWidth 5) (b.setWidth 5) none 0 0
  | .mxor d a b => vr' 0x3E (d.setWidth 5) (a.setWidth 5) (b.setWidth 5) none 0 0
  | .mset d a => vr' 0x3F (d.setWidth 5) a 0 none 0 0
  | .mget d a => vr' 0x40 d (a.setWidth 5) 0 none 0 0
  | .manc a b => vr' 0x41 0 a b none Ty.i32.code 0
  | .vargmax ty d a b p => vr' 0x42 d a b p ty.code 0
  | .vsparseadd d a b => vr' 0x43 d a b none 0 0
  | .vcfhash form d a b p => vr' 0x44 d a b p Ty.n32.code form
  | .vcfupd d a b p => vr' 0x45 d a b p Ty.n8.code 0
  | .vdesc d a => vr' 0x46 d a 0 none 0 0
  | .vphilox d a b => vr' 0x47 d a b none Ty.n32.code 0
  | .ld ty vc d q off => mi' 0x01 d q vc ty.code (off.extractLsb' 0 9)
  | .st ty d q off => mi' 0x02 d q 0 ty.code (off.extractLsb' 0 9)
  | .vld ty vc d q off => mi' 0x03 d q vc ty.code (off.extractLsb' 0 9)
  | .vst ty d q off => mi' 0x04 d q 0 ty.code (off.extractLsb' 0 9)
  | .ldx ty vc d q i sc => mx' 0x05 d q vc ty.code i sc
  | .stx ty d q i sc => mx' 0x06 d q 0 ty.code i sc
  | .vldx ty vc d q i sc => mx' 0x07 d q vc ty.code i sc
  | .vstx ty d q i sc => mx' 0x08 d q 0 ty.code i sc
  | .vlds ty vc d q i sc => mx' 0x09 d q vc ty.code i sc
  | .vsts ty d q i sc => mx' 0x0A d q 0 ty.code i sc
  | .vgath ty vc d q i sc => mx' 0x0B d q vc ty.code i sc
  | .vscat ty d q i sc => mx' 0x0C d q 0 ty.code i sc
  | .kld vc d q off => mi' 0x0D (d.setWidth 5) q vc Ty.n32.code (off.extractLsb' 0 9)
  | .bgath d a b c zero => rr 0x0E (d.setWidth 5) (a.setWidth 5) (b.setWidth 5) c (bit5 zero)
  | .amadd ty d a b ord scope => rr 0x0F d (a.setWidth 5) b (scope ++ ord) (ty.code.setWidth 5)
  | .ammin ty d a b ord scope => rr 0x10 d (a.setWidth 5) b (scope ++ ord) (ty.code.setWidth 5)
  | .ammax ty d a b ord scope => rr 0x11 d (a.setWidth 5) b (scope ++ ord) (ty.code.setWidth 5)
  | .amand ty d a b ord scope => rr 0x12 d (a.setWidth 5) b (scope ++ ord) (ty.code.setWidth 5)
  | .amor ty d a b ord scope => rr 0x13 d (a.setWidth 5) b (scope ++ ord) (ty.code.setWidth 5)
  | .amxor ty d a b ord scope => rr 0x14 d (a.setWidth 5) b (scope ++ ord) (ty.code.setWidth 5)
  | .amxchg ty d a b ord scope => rr 0x15 d (a.setWidth 5) b (scope ++ ord) (ty.code.setWidth 5)
  | .amcas ty d a b ord scope => rr 0x16 d (a.setWidth 5) b (scope ++ ord) (ty.code.setWidth 5)
  | .stadd ty a b ord scope => rr 0x17 0 (a.setWidth 5) b (scope ++ ord) (ty.code.setWidth 5)
  | .stmin ty a b ord scope => rr 0x18 0 (a.setWidth 5) b (scope ++ ord) (ty.code.setWidth 5)
  | .stmax ty a b ord scope => rr 0x19 0 (a.setWidth 5) b (scope ++ ord) (ty.code.setWidth 5)
  | .stand ty a b ord scope => rr 0x1A 0 (a.setWidth 5) b (scope ++ ord) (ty.code.setWidth 5)
  | .stor ty a b ord scope => rr 0x1B 0 (a.setWidth 5) b (scope ++ ord) (ty.code.setWidth 5)
  | .stxor ty a b ord scope => rr 0x1C 0 (a.setWidth 5) b (scope ++ ord) (ty.code.setWidth 5)
  | .lda ty vc d q scope => mi' 0x1D d q vc ty.code (scope.setWidth 9)
  | .stl ty d q scope => mi' 0x1E d q 0 ty.code (scope.setWidth 9)
  | .fence scope => rr 0x1F 0 0 0 0 (scope.setWidth 5)
  | .drain  => rr 0x20 0 0 0 0 0
  | .cbwait d a n => ri 0x21 d (a.setWidth 5) (n.extractLsb' 0 15)
  | .cbspace d a n => ri 0x22 d (a.setWidth 5) (n.extractLsb' 0 15)
  | .cbfree a n => ri 0x23 0 (a.setWidth 5) (n.extractLsb' 0 15)
  | .cbadv a n => ri 0x24 0 (a.setWidth 5) (n.extractLsb' 0 15)
  | .cbbind d a off => ri 0x25 (d.setWidth 5) (a.setWidth 5) (off.extractLsb' 0 15)
  | .cbpop d a vec => ri 0x26 d (a.setWidth 5) (bit15 vec)
  | .barv a b => rr 0x27 0 a b 0 0
  | .barx d a b => rr 0x28 d a b 0 0
  | .barw a b => rr 0x29 0 a b 0 0
  | .dsync ord scope => rr 0x2A 0 0 0 (scope ++ ord) 0
  | .pref l2 vc q off => mi' 0x2B (bit5 l2) q vc 0 (off.extractLsb' 0 9)
  | .spmode a b => rr 0x2C 0 a b 0 0
  | .pld vc d q off => mi' 0x2D (d.setWidth 5) q vc 0 (off.extractLsb' 0 9)
  | .pst d q off => mi' 0x2E (d.setWidth 5) q 0 0 (off.extractLsb' 0 9)
  | .vldbc ty vc d q off => mi' 0x2F d q vc ty.code (off.extractLsb' 0 9)
  | .mma t a b c arr aBuf bBuf => ec 0x01 (t.setWidth 4) (a.setWidth 5) (b.setWidth 5) c (0#3 ++ BitVec.ofBool bBuf ++ BitVec.ofBool aBuf ++ BitVec.ofBool arr)
  | .mmaa t a b c arr aBuf bBuf => ec 0x02 (t.setWidth 4) (a.setWidth 5) (b.setWidth 5) c (0#3 ++ BitVec.ofBool bBuf ++ BitVec.ofBool aBuf ++ BitVec.ofBool arr)
  | .mmas t a b c arr bBuf => ec 0x03 (t.setWidth 4) a (b.setWidth 5) c (0#3 ++ BitVec.ofBool bBuf ++ 0#1 ++ BitVec.ofBool arr)
  | .mmtr t a b c arr aBuf bBuf => ec 0x04 (t.setWidth 4) (a.setWidth 5) (b.setWidth 5) c (0#3 ++ BitVec.ofBool bBuf ++ BitVec.ofBool aBuf ++ BitVec.ofBool arr)
  | .mmtra t a b c arr aBuf bBuf => ec 0x05 (t.setWidth 4) (a.setWidth 5) (b.setWidth 5) c (0#3 ++ BitVec.ofBool bBuf ++ BitVec.ofBool aBuf ++ BitVec.ofBool arr)
  | .tld t a c => ec 0x06 (t.setWidth 4) (a.setWidth 5) 0 c 0
  | .tldsp t a c => ec 0x07 (t.setWidth 4) a 0 c 0
  | .tst t a c => ec 0x08 (t.setWidth 4) (a.setWidth 5) 0 c 0
  | .tstsp t a c => ec 0x09 (t.setWidth 4) a 0 c 0
  | .tzero t c => ec 0x0A (t.setWidth 4) 0 0 c 0
  | .attn t a b c slot bBuf => ec 0x0B (t.setWidth 4) (a.setWidth 5) (b.setWidth 5) c (0#1 ++ BitVec.ofBool bBuf ++ slot)
  | .attnf t a c => ec 0x0C (t.setWidth 4) (a.setWidth 5) 0 c 0
  | .mpld slot a c => ec 0x0D 0 (a.setWidth 5) 0 c (slot.setWidth 6)
  | .copy a b c bar => ec 0x0E 0 (a.setWidth 5) (b.setWidth 5) c (bit6 bar)
  | .copy2d a b c bar => ec 0x0F 0 (a.setWidth 5) (b.setWidth 5) c (bit6 bar)
  | .copyc b a c out => ec 0x10 0 (a.setWidth 5) (b.setWidth 5) c (bit6 out)
  | .pmvec a c b => ec 0x11 0 (a.setWidth 5) 0 c (b.setWidth 6)
  | .pmmac t c ls => ec 0x12 t 0 0 c ls
  | .pmatk c ls => ec 0x13 0 0 0 c ls
  | .pmatv c ls => ec 0x14 0 0 0 c ls
  | .pmclr c ls => ec 0x16 0 0 0 c ls
  | .pmrd b c ls => ec 0x15 0 0 (b.setWidth 5) c ls
  | .laybind a c ls => ec 0x17 0 (a.setWidth 5) 0 c ls
  | .kvxfer a c ls => ec 0x18 0 (a.setWidth 5) 0 c ls
  | .kvapp a c ls => ec 0x19 0 (a.setWidth 5) 0 c ls
  | .pmst a c ls => ec 0x1A 0 (a.setWidth 5) 0 c ls
  | .pmsync d => rr 0x1B d 0 0 0 0
  | .rthash d a b c => rr 0x1C d (a.setWidth 5) b c 0
  | .rtfind d a b c => rr 0x1D d (a.setWidth 5) b c 0
  | .rtdep d a b c move => rr 0x1E d (a.setWidth 5) b c (bit5 move)
  | .rtref d a => rr 0x1F d a 0 0 0
  | .rtrel d a => rr 0x20 d a 0 0 0
  | .rtpin d a op => rr 0x21 d a 0 0 op
  | .rtevict d c a b => rr 0x22 d a b (c.setWidth 5) 0
  | .rtrd d a b => rr 0x23 d a b 0 0
  | .schsel d a => rr 0x24 (d.setWidth 5) (a.setWidth 5) 0 0 0
  | .tokcommit d a b => rr 0x25 d a b 0 0
  | .specacc d a b c => rr 0x26 d a b c 0
  | .spawn a b c n => rr 0x27 0 a b c n
  | .doorbell .. | .slotMapping .. | .timeSliceExpiry .. | .launch .. | .retirement ..
  | .launchAbortTimeout .. | .tnextLanding .. | .fmtWriteEffect .. | .spawnTargetReady .. | .commandFire ..
  | .commandRetire .. | .restartPointCommit .. | .conflictRollback .. | .faultRollback ..
  | .faultBatchClose .. | .faultResponse .. | .preemption .. | .preemptTimeout .. | .readRequest ..
  | .storeHeader .. | .writeThrough .. | .ownershipRequest .. | .upgrade .. | .precisionSnoop ..
  | .backInvalidation .. | .recall .. | .grant .. | .dataResponse .. | .ownerEviction .. | .writeCompletion ..
  | .hostRead .. | .hostWrite .. | .hostSnoop .. | .flitCrcFailure .. | .coherenceTimeout ..
  | .hostSnoopTimeout .. | .pageMigration .. | .groupStart .. | .groupComplete .. | .refresh ..
  | .qbindBind .. | .qbindUnbind .. | .asidselWrite .. | .asidselLoad .. | .tlbinv .. | .tlbinvRead ..
  | .hfaultRead .. | .erdropClear .. | .registerWrite .. | .setcap .. | .sleep .. | .getcert .. | .quote ..
  | .fwload .. | .reset .. | .mailboxUnknown .. | .watchdogExpired .. | .powerCheck .. | .coldReset ..
  | .fullServiceEntry .. | .wake .. | .htrigFire .. | .htrigArm .. | .triggerFire .. | .triggerArm ..
  | .snapshotLatch .. | .frrdWrite .. => 0

/-- The extension byte of an instruction in a bundle with a header (R72). -/
def encodeExt : Instr → Byte
  | .nop => 0
  | .add .. | .sub .. | .and .. | .or .. | .xor .. | .shl .. | .shr .. | .sra .. | .min .. | .max .. | .mul ..
  | .mulh .. | .mulhu .. | .div .. | .divu .. | .addi .. | .andi .. | .ori .. | .xori .. | .shli .. | .shri ..
  | .srai .. | .li .. | .lic .. | .bfxs .. | .bfxu .. | .bfi .. | .fshl .. | .fshr .. | .clz .. | .ctz ..
  | .popc .. | .slt .. | .sltu .. | .pcmp .. | .sel .. | .qadd .. | .qaddi .. | .qsub .. | .qmov .. | .qtos ..
  | .qhome .. | .beq .. | .bne .. | .blt .. | .bge .. | .bltu .. | .bgeu .. | .jmp .. | .call .. | .jr ..
  | .loop .. | .loopi .. | .endCtx .. | .yield .. | .wait .. | .warm .. | .tnext .. | .fmtset .. | .mfsr ..
  | .mtsr .. | .trap .. | .tret .. => 0
  | .vaddi _ _ _ imm _ => imm.extractLsb' 7 8
  | .vshli _ _ _ imm _ => imm.extractLsb' 7 8
  | .vshri _ _ _ imm _ => imm.extractLsb' 7 8
  | .vsrai _ _ _ imm _ => imm.extractLsb' 7 8
  | .vrot _ _ _ imm _ => imm.extractLsb' 7 8
  | .vslide _ _ _ imm _ => imm.extractLsb' 7 8
  | .vadd .. | .vsub .. | .vmul .. | .vfma .. | .vfms .. | .vdiv .. | .vmin .. | .vmax .. | .vabs ..
  | .vneg .. | .vadds .. | .vsubs .. | .vmulh .. | .vshl .. | .vshr .. | .vsra .. | .vcmpeq .. | .vcmpne ..
  | .vcmplt .. | .vcmple .. | .vsel .. | .vcvt .. | .vbppack .. | .vbpunpack .. | .vexp2 .. | .vlog2 ..
  | .vrcp .. | .vrsqrt .. | .vredadd .. | .vredmax .. | .vredmin .. | .vscanadd .. | .vscanmax .. | .vperm ..
  | .vbcast .. | .vzip .. | .vunzip .. | .vand .. | .vor .. | .vxor .. | .vandn .. | .vpopc .. | .vclz ..
  | .vbfx .. | .vbfi .. | .vins .. | .vext .. | .vdup .. | .vmov .. | .pand .. | .por .. | .pxor .. | .pnot ..
  | .mand .. | .mor .. | .mxor .. | .mset .. | .mget .. | .manc .. | .vargmax .. | .vsparseadd ..
  | .vcfhash .. | .vcfupd .. | .vdesc .. | .vphilox .. => 0
  | .ld _ _ _ _ off => off.extractLsb' 9 8
  | .st _ _ _ off => off.extractLsb' 9 8
  | .vld _ _ _ _ off => off.extractLsb' 9 8
  | .vst _ _ _ off => off.extractLsb' 9 8
  | .kld _ _ _ off => off.extractLsb' 9 8
  | .cbwait _ _ n => n.extractLsb' 15 8
  | .cbspace _ _ n => n.extractLsb' 15 8
  | .cbfree _ n => n.extractLsb' 15 8
  | .cbadv _ n => n.extractLsb' 15 8
  | .cbbind _ _ off => off.extractLsb' 15 8
  | .pref _ _ _ off => off.extractLsb' 9 8
  | .pld _ _ _ off => off.extractLsb' 9 8
  | .pst _ _ off => off.extractLsb' 9 8
  | .vldbc _ _ _ _ off => off.extractLsb' 9 8
  | .ldx .. | .stx .. | .vldx .. | .vstx .. | .vlds .. | .vsts .. | .vgath .. | .vscat .. | .bgath ..
  | .amadd .. | .ammin .. | .ammax .. | .amand .. | .amor .. | .amxor .. | .amxchg .. | .amcas .. | .stadd ..
  | .stmin .. | .stmax .. | .stand .. | .stor .. | .stxor .. | .lda .. | .stl .. | .fence .. | .drain ..
  | .cbpop .. | .barv .. | .barx .. | .barw .. | .dsync .. | .spmode .. => 0
  | .mma t _ _ _ _ _ _ => tileExt t
  | .mmaa t _ _ _ _ _ _ => tileExt t
  | .mmas t _ _ _ _ _ => tileExt t
  | .mmtr t _ _ _ _ _ _ => tileExt t
  | .mmtra t _ _ _ _ _ _ => tileExt t
  | .tld t _ _ => tileExt t
  | .tldsp t _ _ => tileExt t
  | .tst t _ _ => tileExt t
  | .tstsp t _ _ => tileExt t
  | .tzero t _ => tileExt t
  | .attn t _ _ _ _ _ => tileExt t
  | .attnf t _ _ => tileExt t
  | .mpld .. | .copy .. | .copy2d .. | .copyc .. | .pmvec .. | .pmmac .. | .pmatk .. | .pmatv .. | .pmclr ..
  | .pmrd .. | .laybind .. | .kvxfer .. | .kvapp .. | .pmst .. | .pmsync .. | .rthash .. | .rtfind ..
  | .rtdep .. | .rtref .. | .rtrel .. | .rtpin .. | .rtevict .. | .rtrd .. | .schsel .. | .tokcommit ..
  | .specacc .. | .spawn .. => 0
  | .doorbell .. | .slotMapping .. | .timeSliceExpiry .. | .launch .. | .retirement ..
  | .launchAbortTimeout .. | .tnextLanding .. | .fmtWriteEffect .. | .spawnTargetReady .. | .commandFire ..
  | .commandRetire .. | .restartPointCommit .. | .conflictRollback .. | .faultRollback ..
  | .faultBatchClose .. | .faultResponse .. | .preemption .. | .preemptTimeout .. | .readRequest ..
  | .storeHeader .. | .writeThrough .. | .ownershipRequest .. | .upgrade .. | .precisionSnoop ..
  | .backInvalidation .. | .recall .. | .grant .. | .dataResponse .. | .ownerEviction .. | .writeCompletion ..
  | .hostRead .. | .hostWrite .. | .hostSnoop .. | .flitCrcFailure .. | .coherenceTimeout ..
  | .hostSnoopTimeout .. | .pageMigration .. | .groupStart .. | .groupComplete .. | .refresh ..
  | .qbindBind .. | .qbindUnbind .. | .asidselWrite .. | .asidselLoad .. | .tlbinv .. | .tlbinvRead ..
  | .hfaultRead .. | .erdropClear .. | .registerWrite .. | .setcap .. | .sleep .. | .getcert .. | .quote ..
  | .fwload .. | .reset .. | .mailboxUnknown .. | .watchdogExpired .. | .powerCheck .. | .coldReset ..
  | .fullServiceEntry .. | .wake .. | .htrigFire .. | .htrigArm .. | .triggerFire .. | .triggerArm ..
  | .snapshotLatch .. | .frrdWrite .. => 0

/-- The decoder of one slot, by class. -/
def decodeSlot (c : SlotClass) (hdr : Bool) (ext : Byte) (w : BitVec 32) : Except DecErr Instr :=
  match c with
  | .S => decodeS w
  | .V => decodeV hdr ext w
  | .L => decodeL hdr ext w
  | .E => decodeE ext w

/-- The slot of a class (R70). -/
def SlotClass.slot : SlotClass → Nat
  | .S => 0 | .V => 1 | .L => 2 | .E => 3

/-- The instruction a bundle with one non-NOP slot holds: the word `w` in the slot of class `c`, all other slots NOP. -/
def bundleWith (c : SlotClass) (w : BitVec 32) : BitVec 128 := w.setWidth 128 <<< (32 * c.slot)
/-- The instruction that stands in the slot of a class. -/
def Bundle.at (b : Bundle) : SlotClass → Instr
  | .S => b.i0 | .V => b.i1 | .L => b.i2 | .E => b.i3

/-- The first class, in slot order, whose slot decodes the word when every other slot of the bundle is NOP. The opcode
table gives the four classes' words over the same 32 bits, so a word alone does not name its slot (log 10). -/
def tableClass (w : BitVec 32) : Option SlotClass :=
  [SlotClass.S, .V, .L, .E].find? fun c =>
    match decodeBundle (bundleWith c w) with
    | .ok _ => !(c == .S && isHeader w)
    | .error _ => false

/-- The instruction the decoder reads from a word numbered as the opcode table numbers it. -/
def decodeTableWord (nbits w : Nat) : Option Instr :=
  if nbits ≤ 32 then
    match tableClass (BitVec.ofNat 32 w) with
    | none => none
    | some c =>
      match decodeBundle (bundleWith c (BitVec.ofNat 32 w)) with
      | .ok b => some (b.at c)
      | .error _ => none
  else none

end Sys2Proof
end

