-- ==== Sys2Proof/Machine/State.lean ====
section
/-! DEFINITION. Everything the spec gives the machine, as plain data, and the state after reset.
Numbering used throughout: die d < 4, cluster k < 32 (die k / 8), core c < 128 (cluster c / 4), context n < 512
(core n / 4). A numbered bank is a sparse map whose unlisted entries are the default the docstring names. -/

namespace Sys2Proof.Machine

/-- One entry of a loop stack (R107). -/
structure LoopEnt where
  start : VA
  last : VA
  remaining : Nat
  deriving DecidableEq, Repr

/-- The registers a checkpoint records (R315): those of R12 but tc and DOM, fmt with its pending writes (R65), fstat and
the pending atomic flags (R168), VIEWCLASS, the loop stack, the trap registers (R318), the generation registers (R289)
and the PC. Unlisted registers hold zero. -/
structure Regs where
  s : SMap Word64
  q : SMap VA
  v : SMap Vec
  p : SMap (BitVec 128)
  m : SMap (BitVec 16)
  k : SMap (BitVec 2048)
  pc : VA
  fmt : Word64
  /-- Pending fmt writes: value and how many more bundles of the context still use an older value (R65). -/
  fmtPend : List (Word64 × Nat)
  fstat : Word64
  /-- Flags of FP atomics without return, not yet in fstat (R168). -/
  aflags : BitVec 6
  view : SMap Word64
  loops : List LoopEnt
  tvec : Word64
  tcause : Word64
  tpc : Word64
  tval : Word64
  tstate : Word64
  tscr : Word64
  gocc : Word64
  gdraft : Word64
  gsel : Word64
  giter : Word64
  greq : SMap Word64
  deriving DecidableEq, Repr

/-- The states of R14. -/
inductive CtxState where
  | idle | ready | running | blocked | retiring
  deriving DecidableEq, Repr

/-- A tnext landing that is pending (R113): due clk, register, value. -/
structure Landing where
  due : Nat
  reg : Nat
  value : Word64
  deriving DecidableEq, Repr

/-- One entry of a store gate (R314): the bytes one store writes in one 128-byte line, or in one register. `line` is the line's
number in memory, in the scratchpad when `spad`, or the register's key; `va` is the line's virtual address and `hf` its page's home
format; `bytes` pairs each byte's offset in the line with its value; `width` is the bytes of one access (R156), for registers;
`release` marks stl; `checked` is false when a shootdown has voided the check; commands numbered from `before` on were issued
after the store. -/
structure GateEnt where
  spad : Bool
  line : Nat
  asid : BitVec 16
  va : VA
  hf : BitVec 2
  bytes : List (Nat × Byte)
  width : Nat
  checked : Bool
  release : Bool
  before : Nat
  deriving DecidableEq, Repr

/-- A watched line, at the load's view, or watched scratchpad bytes (R205); `behind` is the length of the gate at the load. -/
structure Watch where
  spad : Bool
  line : Nat
  offs : List Nat
  view : BitVec 3
  behind : Nat
  deriving DecidableEq, Repr

/-- A fault as the batcher sees it (R320): cause, address space, VA, access bits of R321, engine operand or not. -/
structure FaultRec where
  cause : Nat
  asid : BitVec 16
  va : VA
  access : BitVec 3
  engine : Bool
  deriving DecidableEq, Repr

/-- A trap that a context is to take (R317, R319, R326): cause, TVAL, and the SLOT, OPCODE and FAULT of its TCAUSE. -/
structure Owed where
  cause : Nat
  tval : Word64
  slot : Nat
  opcode : Nat
  fault : Bool
  deriving DecidableEq, Repr

/-- The units that engine commands run on; the first three share one command queue (R217, R251, R274). -/
inductive EUnit where
  | score | value | tile | copy | pm | rt | gen | none
  deriving DecidableEq, Repr

/-- One hardware context (R14), but for its registers' definitions in `Regs`. -/
structure Ctx where
  st : CtxState
  regs : Regs
  /-- The last checkpoint (R312, R315). -/
  ck : Regs
  launch : Option Nat
  dom : Word64
  /-- tc0 to tc3 (R115), the rotation index (R113) and the pending landings. -/
  tc : SMap Word64
  rot : Nat
  landings : List Landing
  /-- The fault the context is held on (R316). -/
  held : Option FaultRec
  preq : Bool
  preqAt : Nat
  preempted : Bool
  /-- A checkpoint has committed under PREQ: the context is selected no more, and is pre-empted once what it awaits has landed
  (R325). -/
  leaving : Bool
  /-- Traps taken before the context next issues, oldest first: of a pre-emption that timed out (R326), of a batch that answered FAIL
  (R317, R323), or one that a rollback has undone (log 38). -/
  owed : List Owed
  /-- Traps that gave way to another at one boundary, taken once no handler runs (log 38). -/
  later : List Owed
  /-- The trap entered at the last checkpoint, where issuing again would not raise it (log 48). -/
  ckTrap : Option Owed
  gate : List GateEnt
  /-- Released stores that have not performed, in program order (R170, R263, R313). -/
  out : List GateEnt
  /-- A drain has issued and its wait is not over (R172). -/
  draining : Bool
  /-- The units whose queues the context has fed (R37). -/
  fed : List EUnit
  watch : List Watch
  /-- A conflict has been found (R205); rollbacks so far to one mark; the mode of one bundle at a time. -/
  conflict : Bool
  conflicts : Nat
  stepMode : Bool
  /-- RBCNT (R318). -/
  faultRolls : Nat
  conflRolls : Nat
  /-- Handle n is bound to buffer-table entry b when the map holds b + 1 at n (R173); 0 is unbound. -/
  cb : SMap Nat
  /-- Tile name n is bound to physical tile t of the core when the map holds t + 1 at n (R218); 0 is unbound. -/
  tiles : SMap Nat
  pmerr : Word64
  /-- Domain syncs: arrivals made, syncs completed, and whether the dsync in issue has arrived (R21, R177). -/
  arrived : Nat
  synced : Nat
  joined : Bool
  /-- Engine faults that answered FAIL, owed at the next restart points (R317), oldest first: cause and VA. -/
  engFaults : List (Nat × VA)
  /-- The bundle the context is Blocked on (R16). -/
  waitOn : Option Bundle
  /-- After a fence one more than the number of the next command then (R171): later L slots wait for the block gathers and the
  stores before it. -/
  fence : Nat
  /-- The clk of the abort request of R40. -/
  abortAt : Option Nat
  /-- The clk in which the context's spawn target or launch was made: Ready from here on (R121). -/
  readyAt : Nat
  deriving DecidableEq, Repr

/-- A wake comparator (R34, R112); `on` false is disarmed; bytes count from clk `since` on. -/
structure Cmp where
  on : Bool
  lo : Nat
  len : Nat
  token : BitVec 16
  rep : Bool
  ctx : Nat
  count : Nat
  since : Nat
  deriving DecidableEq, Repr

/-- A token of a wake queue, tagged with its context and comparator (R34, R111), and the clk of its push. -/
structure Token where
  ctx : Nat
  cmp : Nat
  value : BitVec 16
  pushed : Nat
  deriving DecidableEq, Repr

/-- The states of an L1 or proxy copy; an absent copy is in I (R186, R191). -/
inductive CState where
  | S | E | M
  deriving DecidableEq, Repr

/-- A copy of a memory line in an L1 or a proxy (R185, R191). `data` holds, for each home element, the bit pattern of the
view at the element's place in the line (the bytes as stored at FULL). -/
structure Copy where
  line : Nat
  asid : BitVec 16
  va : VA
  st : CState
  hf : BitVec 2
  view : BitVec 3
  update : Bool
  prio : Nat
  data : Vec
  deriving DecidableEq, Repr

/-- A line of an instruction cache, tagged by image address and generation (R41). -/
structure ICLine where
  va : VA
  image : Word64
  gen : BitVec 32
  data : Vec
  deriving DecidableEq, Repr

/-- What a core holds beside its contexts. `l1` and `ic` stand most recently used first. -/
structure CoreSt where
  cur : Nat
  wakeQ : List Token
  overflow : Bool
  cmps : SMap Cmp
  l1 : List Copy
  ic : List ICLine
  ecnt : SMap Word64
  esel : SMap Word64
  esnap : SMap Word64
  /-- Counters that an mtsr has written in clk `ecntAt` (R343). -/
  ecntSet : List Nat
  ecntAt : Nat
  /-- The first clk in which the next vdiv may issue (R127). -/
  divAt : Nat
  /-- A context has been selected, and no selection since then has found none Ready; otherwise the core idles (R17). -/
  busy : Bool
  /-- The context that it runs was selected in the clk before: the core's next clk is its switch's bubble (R17). -/
  bubble : Bool
  deriving DecidableEq, Repr

/-- An accumulator tile (R218, R219): FP32 elements at 64 * row + column, row-flag bytes. -/
structure Tile where
  data : SMap (BitVec 32)
  flags : SMap Byte
  deriving DecidableEq, Repr

/-- An entry of a cluster's buffer table (R31, R173). -/
structure CBuf where
  valid : Bool
  base : Nat
  slotsz : Nat
  slots : Nat
  wp : Nat
  rp : Nat
  filled : Nat
  /-- Output slots that fired commands have reserved (R33). -/
  reserved : Nat
  stream : Bool
  prod : Nat
  cons : Nat
  deriving DecidableEq, Repr

/-- A skew entry and the launch whose context entered it (R179, R39). -/
structure Skew where
  offset : Nat
  rows : Nat
  rb : Nat
  launch : Option Nat
  deriving DecidableEq, Repr

/-- States of a directory entry (R192). -/
inductive DState where
  | I | S | E | O | M
  deriving DecidableEq, Repr

/-- A directory entry (R192, R345); `tagged` false is an entry that carries no tag (R196). -/
structure DirEnt where
  line : Nat
  st : DState
  /-- Bit n: die n; bit 4: the host. -/
  sharers : BitVec 5
  owner : Nat
  /-- FMT(n) in bits [3n+2:3n]. -/
  fmt : BitVec 12
  loc : Bool
  tagged : Bool
  asid : BitVec 16
  va : VA
  deriving DecidableEq, Repr

/-- A translation held by a slice, with the page-table lines it was read from (R311). -/
structure Tlb where
  die : Nat
  slice : Nat
  asid : BitVec 16
  /-- First VA of the page, and its size in bits. -/
  base : Nat
  bits : Nat
  leaf : Word64
  lines : List Nat
  deriving DecidableEq, Repr

/-- A range of a closed batch (R321). -/
structure FRange where
  cause : Nat
  access : BitVec 3
  engine : Bool
  asid : BitVec 16
  home : BitVec 4
  start : Nat
  pages : Nat
  count : Nat
  batch : Nat
  index : Nat
  lastR : Bool
  /-- The range record stands in the fault ring. -/
  written : Bool
  deriving DecidableEq, Repr

/-- The layout record of a slot (R246); `valid` false is an unbound slot. -/
structure Layout where
  valid : Bool
  record : BitVec 512
  bad : Bool
  deriving DecidableEq, Repr

/-- An activation slot's descriptor (R244, R254). -/
structure ActDesc where
  valid : Bool
  af : Nat
  koff : Nat
  kc : Nat
  scl : Bool
  deriving DecidableEq, Repr

/-- A bank-group engine (R244): slot bytes at 2048 * slot + j, scales at 64 * slot + j, accumulators at 8 * row + column. -/
structure Bge where
  act : SMap Byte
  scales : SMap Byte
  desc : SMap ActDesc
  acc : SMap (BitVec 32)
  poison : BitVec 64
  nan : Bool
  inf : Bool
  cause : Nat
  /-- Refreshes postponed, by bank (R264). -/
  postponed : SMap Nat
  deriving DecidableEq, Repr

/-- A 2 KiB unit marked bad, with the column cycles written since the marking (R265). -/
structure BadUnit where
  die : Nat
  bge : Nat
  bank : Nat
  row : Nat
  written : BitVec 64
  deriving DecidableEq, Repr

/-- How a device location misbehaves (R265): the physical cause behind an error, an input to the machine. -/
inductive DevFault where
  | ecc | residue | link | corrected
  deriving DecidableEq, Repr

/-- A misbehaving column cycle of a device. -/
structure BadCell where
  die : Nat
  bge : Nat
  bank : Nat
  row : Nat
  col : Nat
  kind : DevFault
  /-- The fault lies in the stored bits; a transient one is met once. -/
  persist : Bool
  deriving DecidableEq, Repr

/-- A write of one line held behind groups in flight (R263), by the host (`die` none) or a party of a die: the tag it
travels under, its home format and its bytes by offset; the context whose store it is, or the command whose write; `before` as in
GateEnt; and the commands whose groups it does not precede. -/
structure HeldWrite where
  die : Option Nat
  line : Nat
  asid : BitVec 16
  va : VA
  hf : BitVec 2
  bytes : List (Nat × Byte)
  ctx : Option Nat
  cmd : Option Nat
  before : Nat
  groups : List Nat
  deriving DecidableEq, Repr

/-- The page-table lines that slices have read from, as their home slice keeps them (R311): the line and the slices. -/
structure PtShare where
  line : Nat
  slices : BitVec 16
  deriving DecidableEq, Repr

/-- A table entry held by a slice's walk cache (R311): its address and value. -/
structure WalkEnt where
  slice : Nat
  addr : Nat
  value : Word64
  deriving DecidableEq, Repr

/-- A node of a resume tree (R270, R271). -/
structure RtNode where
  hdr : BitVec 256
  tok : BitVec 2048
  deriving DecidableEq, Repr

/-- What a die holds. Registers are those of R331 that are not derived from other state. -/
structure DieSt where
  proxies : List Copy
  /-- Lines that the L2 holds, home lines and proxies, most recently used first (R181). -/
  l2 : List Nat
  /-- Sharer records of page-table lines, most recent first, and the walk caches (R311). -/
  shares : List PtShare
  walks : List WalkEnt
  headers : Nat
  /-- The open batch (R320): faults and opening clk; the closed, unanswered ranges; the next batch number. -/
  batch : List FaultRec
  batchAt : Nat
  ranges : List FRange
  batchNo : Nat
  fring : Word64
  frwr : Word64
  frrd : Word64
  ering : Word64
  erwr : Word64
  errd : Word64
  erdrop : Word64
  boot : Nat
  bootCause : Nat
  svc : Nat
  hfault : Word64
  asidsel : Word64
  asidlo : Word64
  asidhi : Word64
  tlbinv : Word64
  mbstat : Word64
  mbarg : SMap Word64
  layouts : SMap Layout
  /-- Issue-time descriptors at 8 * channel + slot (R252). -/
  pmDesc : SMap ActDesc
  bges : SMap Bge
  rtNodes : SMap RtNode
  rtBuckets : SMap (BitVec 128)
  rtNow : BitVec 32
  rtColl : Word64
  /-- Table entries whose reads are uncorrectable, an input (R275): header n, token entry 2^20 + n, bucket 2^21 + b. -/
  rtBad : List Nat
  /-- The control block: RTNOW and RTCOLL as saved for sleep (R287). -/
  rtSaved : Option (BitVec 32 × Word64)
  snap : SMap Word64
  /-- One more than the clk of the scheduler's last decisions (R28). -/
  mapAt : Nat
  deriving DecidableEq, Repr

/-- Where an engine command stands (R217, R230). -/
inductive CmdState where
  | queued | paused | fired
  deriving DecidableEq, Repr

/-- An engine command (R217, R220): its issue number, its context and launch, the instruction, the registers and fmt it
captured, its identifier and predecessors, the tiles and buffer entries it names, the operand ranges it holds, the layout
record it captured, its progress (R230), and the BGEs whose groups have started and completed (R253). -/
structure Cmd where
  id : Nat
  ctx : Nat
  launch : Option Nat
  asid : BitVec 16
  ins : Instr
  lat : Regs
  cid : Nat
  preds : List Nat
  tiles : List Nat
  inBuf : Option Nat
  inCount : Nat
  inBuf2 : Option Nat
  inCount2 : Nat
  outBuf : Option Nat
  outCount : Nat
  /-- Bytes a fired command has read and still has to deliver (R254). -/
  data : List Byte
  /-- Operand ranges: scratchpad or memory, first VA or offset, last one. -/
  ranges : List (Bool × Nat × Nat)
  lay : BitVec 512
  lay2 : BitVec 512
  st : CmdState
  prog : Nat
  /-- The slot of the output entry at which the command's reservation begins, and its slots advanced (R33). -/
  outFrom : Nat
  outDone : Nat
  pausedOn : Option FaultRec
  abandoned : Bool
  started : List Nat
  done : List Nat
  /-- The DRAM rows that groups in flight read: BGE, and bank + 4 * row (R263). -/
  rows : List (Nat × Nat)
  /-- By BGE: pieces of work done, and the source bytes read so far of the piece in hand (R251, R253). -/
  parts : SMap Nat
  got : SMap (List Byte)
  deriving DecidableEq, Repr

/-- A launch (R24, R27): its queue and record index, the record and image descriptor, the bucket table (R290), tiles
granted per die (R114), and the cause it completes with. -/
structure Launch where
  active : Bool
  queue : Nat
  index : Nat
  recVA : VA
  record : BitVec 512
  image : BitVec 512
  buckets : BitVec 1024
  granted : SMap Nat
  status : Nat
  /-- The clk of the trap that gave the status, and its context (R40). -/
  statusAt : Nat
  statusBy : Nat
  contexts : Nat
  asid : BitVec 16
  deriving DecidableEq, Repr

/-- A user queue (R22, R28, R332): whether the part has disabled it, its home die and descriptor address, the descriptor as read, the
indexes, the records started and those completed out of order, the slot it holds and since when, since when it has waited. -/
structure Queue where
  bound : Bool
  unbinding : Bool
  enabled : Bool
  die : Nat
  descPA : Nat
  desc : BitVec 512
  rd : BitVec 32
  wr : BitVec 32
  next : BitVec 32
  completed : List (BitVec 32)
  slot : Option Nat
  slotAt : Nat
  waitAt : Nat
  expired : Bool
  /-- The fault that the read of the next record waits on (R320). -/
  held : Option FaultRec
  deriving DecidableEq, Repr

/-- A ridge link (R198): down or up, failed replays of the flit in hand, flits sent and replayed. -/
structure Link where
  down : Bool
  replays : Nat
  sent : Nat
  replayed : Nat
  deriving DecidableEq, Repr

/-- A host access at an HDM offset (R330): a read of n bytes, or a write. -/
inductive HostAcc where
  | read (off : BitVec 39) (n : Nat)
  | write (off : BitVec 39) (bytes : List Byte)
  deriving DecidableEq, Repr

/-- Sleep states (R339): awake, self-refresh, deep sleep. -/
inductive Sleep where
  | awake | selfRefresh | deep
  deriving DecidableEq, Repr

/-- The bundle or instruction in issue: the context it acts for, the bundle's address, the slot and opcode a trap names,
the registers as every slot reads them (R84), the transfer or trap that slot 0 has made, the flags raised so far. -/
structure Issue where
  ctx : Nat
  pc : VA
  slot : Nat
  opcode : Nat
  lat : Regs
  /-- Target of a taken transfer of slot 0 that may break loops (R108). -/
  target : Option VA
  /-- The next pc of call, tret, loop and loopi, which the loop rules leave as it is. -/
  direct : Option VA
  /-- A trap has been taken in this bundle: the pc stands. -/
  trapped : Bool
  flags : BitVec 6
  /-- Commands numbered from here on are the bundle's own. -/
  first : Nat
  deriving DecidableEq, Repr

/-- The machine. -/
structure State where
  clk : Nat
  /-- Whose move is next within the clk: the engines and managers, which come first, when it is 128, else core `turn` (log 4). -/
  turn : Nat
  /-- Inputs and events from outside the program, which happen first (log 4). -/
  agenda : List Instr
  issue : Issue
  ctxs : SMap Ctx
  cores : SMap CoreSt
  dies : SMap DieSt
  /-- Memory bytes by key (Config): processing memory of the four dies and host memory. Unlisted bytes read 0 (log 1). -/
  mem : List Host.Cell
  /-- Scratchpad bytes at cluster * 2^22 + physical offset. Unlisted bytes read 0 (log 1). -/
  spad : List Host.Cell
  /-- Tiles at core * 32 + tile, buffer entries at cluster * 64 + entry, skew entries per cluster, mask slots at cluster * 16 + slot. -/
  tiles : SMap Tile
  cbufs : SMap CBuf
  skews : SMap (List Skew)
  masks : SMap (Option (BitVec 512))
  /-- Directory sets, most recently used entry first (R192, R249, R345). -/
  dir : SMap (List DirEnt)
  /-- Die 0's CXL.cache copies of host lines (R345): whether dirty, and the data. -/
  cxl : SMap (Option (Bool × Vec))
  /-- Pages of processing memory whose backing has moved to host memory (R215): die page to host page number plus 1. -/
  backing : SMap Nat
  tlb : List Tlb
  cmds : List Cmd
  nextCmd : Nat
  launches : SMap Launch
  nextLaunch : Nat
  queues : SMap Queue
  badUnits : List BadUnit
  devFaults : List BadCell
  heldWrites : List HeldWrite
  links : SMap Link
  /-- Trigger (R344): armed, valid, latches taken, clk of a pending latch. -/
  armed : Bool
  snapValid : Bool
  latches : BitVec 32
  latchAt : Option Nat
  snapPC : SMap Word64
  /-- Power and management (R337 to R342): cap, clock, average, ticks under the cap, sleep, always-on record, firmware. -/
  cap : Nat
  mhz : Nat
  avg : BitVec 16
  under : Nat
  sleep : Sleep
  wakes : BitVec 64
  fw : List Byte
  fwNext : List Byte
  minSV : BitVec 32
  keyDigest : BitVec 512
  grade : Nat
  /-- The host's side: MSI-X counts by vector, accesses held for dies that are not up (R336), the data and poison of its last
  read. -/
  msi : SMap Nat
  hostHeld : List HostAcc
  hostData : List Byte
  hostPoison : Bool
  deriving DecidableEq, Repr

/-- A stop of the model. -/
inductive Fault where
  /-- An event names a die, core, context, queue or command number that the machine does not have (R3); raised by the
  event's meaning. Safe: the hardware has no such party. -/
  | noSuchParty
  deriving DecidableEq, Repr

/-- A refusal of the model. -/
inductive Refusal where
  /-- The instruction has no meaning yet; raised by an arm of exec. Safe. -/
  | notModelled (mnemonic : String)
  deriving DecidableEq, Repr

/-- All registers zero (R27; log 2 for the time before a launch). -/
def Regs.zero : Regs where
  s := []
  q := []
  v := []
  p := []
  m := []
  k := []
  pc := 0
  fmt := 0
  fmtPend := []
  fstat := 0
  aflags := 0
  view := []
  loops := []
  tvec := 0
  tcause := 0
  tpc := 0
  tval := 0
  tstate := 0
  tscr := 0
  gocc := 0
  gdraft := 0
  gsel := 0
  giter := 0
  greq := []

/-- An Idle context. -/
def Ctx.zero : Ctx where
  st := .idle
  regs := .zero
  ck := .zero
  launch := none
  dom := 0
  tc := []
  rot := 0
  landings := []
  held := none
  preq := false
  preqAt := 0
  preempted := false
  leaving := false
  owed := []
  later := []
  ckTrap := none
  gate := []
  out := []
  draining := false
  fed := []
  watch := []
  conflict := false
  conflicts := 0
  stepMode := false
  faultRolls := 0
  conflRolls := 0
  cb := []
  tiles := []
  pmerr := 0
  arrived := 0
  synced := 0
  joined := false
  engFaults := []
  waitOn := none
  fence := 0
  abortAt := none
  readyAt := 0

def Cmp.zero : Cmp := ⟨false, 0, 0, 0, false, 0, 0, 0⟩
def CoreSt.zero : CoreSt := ⟨0, [], false, [], [], [], [], [], [], [], 0, 0, true, false⟩
def Tile.zero : Tile := ⟨[], []⟩
def CBuf.zero : CBuf := ⟨false, 0, 0, 0, 0, 0, 0, 0, false, 0, 0⟩
def Layout.zero : Layout := ⟨false, 0, false⟩
def ActDesc.zero : ActDesc := ⟨false, 0, 0, 0, false⟩
def Bge.zero : Bge := ⟨[], [], [], [], 0, false, false, 0, []⟩
def RtNode.zero : RtNode := ⟨0, 0⟩
def Launch.zero : Launch := ⟨false, 0, 0, 0, 0, 0, 0, [], 0, 0, 0, 0, 0⟩
def Queue.zero : Queue := ⟨false, false, false, 0, 0, 0, 0, 0, 0, [], none, 0, 0, false, none⟩
def Link.zero : Link := ⟨false, 0, 0, 0⟩
/-- A die whose management core starts from its boot ROM (R335 state 0). -/
def DieSt.zero : DieSt where
  proxies := []
  l2 := []
  shares := []
  walks := []
  headers := 0
  batch := []
  batchAt := 0
  ranges := []
  batchNo := 0
  fring := 0
  frwr := 0
  frrd := 0
  ering := 0
  erwr := 0
  errd := 0
  erdrop := 0
  boot := 0
  bootCause := 0
  svc := 0
  hfault := 0
  asidsel := 0
  asidlo := 0
  asidhi := 0
  tlbinv := 0
  mbstat := 0
  mbarg := []
  layouts := []
  pmDesc := []
  bges := []
  rtNodes := []
  rtBuckets := []
  rtNow := 0
  rtColl := 0
  rtBad := []
  rtSaved := none
  snap := []
  mapAt := 0
def Issue.zero : Issue := ⟨0, 0, 0, 0, .zero, none, none, false, 0, 0⟩

/-- The machine right after reset: every die in its boot ROM (R335), every context Idle, every table empty, every register
at the value the spec states or, where it states none, at zero (log 2). -/
def State.reset : State where
  clk := 0
  turn := 128
  agenda := []
  issue := .zero
  ctxs := []
  cores := []
  dies := []
  mem := []
  spad := []
  tiles := []
  cbufs := []
  skews := []
  masks := []
  dir := []
  cxl := []
  backing := []
  tlb := []
  cmds := []
  nextCmd := 0
  launches := []
  nextLaunch := 0
  queues := []
  badUnits := []
  devFaults := []
  heldWrites := []
  links := []
  armed := false
  snapValid := false
  latches := 0
  latchAt := none
  snapPC := []
  cap := 550
  mhz := 1900
  avg := 0
  under := 0
  sleep := .awake
  wakes := 0
  fw := []
  fwNext := []
  minSV := 0
  keyDigest := 0
  grade := 0
  msi := []
  hostHeld := []
  hostData := []
  hostPoison := false

end Sys2Proof.Machine
end

