-- ==== Sys2Proof/Machine/Flags.lean ====
section
/-! DEFINITION. Number formats, the rounding helpers and the floating-point flags (R44 to R60). Exact values are dyadic
numbers; every function is plain structural recursion, so that each evaluates. -/

namespace Sys2Proof.Machine

/-- The bits of fstat (R66). -/
abbrev Flg := BitVec 6
def fNV : Flg := 1
def fDZ : Flg := 2
def fOF : Flg := 4
def fUF : Flg := 8
def fNX : Flg := 16
def fSF : Flg := 32

/-- The floating-point formats of R46. -/
inductive Fmt where
  | f32 | bf16 | f16 | e4m3 | e5m2
  deriving DecidableEq, Repr

/-- Exponent bits, bias, significand bits, total bits. -/
def Fmt.e : Fmt → Nat
  | .f32 => 8 | .bf16 => 8 | .f16 => 5 | .e4m3 => 4 | .e5m2 => 5
def Fmt.b : Fmt → Nat
  | .f32 => 127 | .bf16 => 127 | .f16 => 15 | .e4m3 => 7 | .e5m2 => 15
def Fmt.m : Fmt → Nat
  | .f32 => 23 | .bf16 => 7 | .f16 => 10 | .e4m3 => 3 | .e5m2 => 2
def Fmt.bits (F : Fmt) : Nat := 1 + F.e + F.m
def Fmt.isE4 : Fmt → Bool
  | .e4m3 => true | _ => false
/-- The pattern of the largest finite value, of canonical NaN and of +∞ (R46). -/
def Fmt.maxPat : Fmt → Nat
  | .f32 => 0x7F7FFFFF | .bf16 => 0x7F7F | .f16 => 0x7BFF | .e4m3 => 0x7E | .e5m2 => 0x7B
def Fmt.nan : Fmt → Nat
  | .f32 => 0x7FC00000 | .bf16 => 0x7FC0 | .f16 => 0x7E00 | .e4m3 => 0x7F | .e5m2 => 0x7E
def Fmt.infPat (F : Fmt) : Nat := (2 ^ F.e - 1) * 2 ^ F.m
def Fmt.sign (F : Fmt) : Nat := 2 ^ (F.e + F.m)

/-- An exact value: NaN, an infinity, or ±mag × 2^exp. -/
inductive XR where
  | nan
  | inf (neg : Bool)
  | fin (neg : Bool) (mag : Nat) (exp : Int)
  deriving DecidableEq, Repr

/-- The value of a pattern (R46). -/
def decodeFP (F : Fmt) (p : Nat) : XR :=
  let neg := (p / F.sign) % 2 == 1
  let ex := (p / 2 ^ F.m) % 2 ^ F.e
  let f := p % 2 ^ F.m
  if ex = 2 ^ F.e - 1 && !F.isE4 then (if f = 0 then .inf neg else .nan)
  else if F.isE4 && ex = 15 && f = 7 then .nan
  else if ex = 0 then .fin neg f (1 - F.b - F.m)
  else .fin neg (2 ^ F.m + f) ((ex : Int) - F.b - F.m)

/-- The rounding modes (R54), numbered as fmt.RND (R64). -/
inductive Rnd where
  | rne | rtz | rdn | rup
  deriving DecidableEq, Repr
def Rnd.of (n : Nat) : Rnd :=
  match n with
  | 0 => .rne | 1 => .rtz | 2 => .rdn | _ => .rup

/-- Whether the grid value above `n` is taken, given the remainder `r` of a division by `d`. -/
def roundsUp (mode : Rnd) (neg : Bool) (n r d : Nat) : Bool :=
  match mode with
  | .rne => decide (2 * r > d) || (decide (2 * r = d) && n % 2 == 1)
  | .rtz => false
  | .rdn => neg && r != 0
  | .rup => !neg && r != 0

/-- mag × 2^exp rounded to a multiple of 2^q: the multiple, and whether it is inexact. -/
def roundTo (mode : Rnd) (neg : Bool) (mag : Nat) (exp q : Int) : Nat × Bool :=
  if q ≤ exp then (mag * 2 ^ (exp - q).toNat, false)
  else
    let d := 2 ^ (q - exp).toNat
    let n := mag / d
    let r := mag % d
    (if roundsUp mode neg n r d then n + 1 else n, r != 0)

/-- overflow of R54: pattern and flags (R55). -/
def overflowFP (F : Fmt) (mode : Rnd) (neg : Bool) : Nat × Flg :=
  let sg := if neg then F.sign else 0
  let toMax := mode == .rtz || (mode == .rdn && !neg) || (mode == .rup && neg)
  (if toMax then sg + F.maxPat else if F.isE4 then F.nan else sg + F.infPat, fOF ||| fNX)

/-- round of R54: the pattern, and the overflow, underflow and inexact flags it raises. -/
def roundFP (F : Fmt) (mode : Rnd) (x : XR) : Nat × Flg :=
  match x with
  | .nan => (F.nan, 0)
  | .inf neg => if F.isE4 then (F.nan, 0) else ((if neg then F.sign else 0) + F.infPat, 0)
  | .fin neg mag exp =>
    let sg := if neg then F.sign else 0
    if mag = 0 then (sg, 0)
    else
      let top : Int := (Nat.log2 mag : Int) + exp
      let qmin : Int := 1 - F.b - F.m
      let q := max (top - F.m) qmin
      let (n, nx) := roundTo mode neg mag exp q
      let pat := (q - qmin).toNat * 2 ^ F.m + n
      if pat > F.maxPat then overflowFP F mode neg
      else
        let (n', _) := roundTo mode neg mag exp (top - F.m)
        let tiny := decide (top < 1 - F.b) && !(decide (top = -F.b) && decide (n' = 2 ^ (F.m + 1)))
        (sg + pat, (if nx then fNX else 0) ||| (if nx && tiny then fUF else 0))

/-- round_rne (R54). -/
def rne (F : Fmt) (x : XR) : Nat × Flg := roundFP F .rne x

/-- ±value of a pair of a sign and a magnitude over a common exponent, from an integer. -/
def XR.ofInt (i : Int) (exp : Int) : XR := .fin (i < 0) i.natAbs exp
def XR.neg : XR → XR
  | .nan => .nan
  | .inf s => .inf (!s)
  | .fin s m e => .fin (!s) m e
def signed (neg : Bool) (m : Nat) : Int := if neg then -(m : Int) else m

/-- Exact sum; an exact zero from operands of opposite sign is +0 (R48). -/
def XR.add : XR → XR → XR
  | .nan, _ => .nan
  | _, .nan => .nan
  | .inf a, .inf b => if a = b then .inf a else .nan
  | .inf a, _ => .inf a
  | _, .inf b => .inf b
  | .fin sa ma ea, .fin sb mb eb =>
    let e := min ea eb
    let i := signed sa (ma * 2 ^ (ea - e).toNat) + signed sb (mb * 2 ^ (eb - e).toNat)
    if i = 0 then .fin (sa && sb) 0 e else .ofInt i e
/-- Exact product; 0 × ∞ is NaN. -/
def XR.mul : XR → XR → XR
  | .nan, _ => .nan
  | _, .nan => .nan
  | .inf a, .inf b => .inf (a != b)
  | .inf a, .fin b m _ => if m = 0 then .nan else .inf (a != b)
  | .fin a m _, .inf b => if m = 0 then .nan else .inf (a != b)
  | .fin sa ma ea, .fin sb mb eb => .fin (sa != sb) (ma * mb) (ea + eb)
def XR.isNan : XR → Bool
  | .nan => true | _ => false
def XR.isZero : XR → Bool
  | .fin _ 0 _ => true | _ => false
/-- x < y for values that are not NaN. -/
def XR.lt : XR → XR → Bool
  | .nan, _ => false
  | _, .nan => false
  | .inf a, .inf b => a && !b
  | .inf a, _ => a
  | _, .inf b => !b
  | .fin sa ma ea, .fin sb mb eb =>
    let e := min ea eb
    decide (signed sa (ma * 2 ^ (ea - e).toNat) < signed sb (mb * 2 ^ (eb - e).toNat))
def XR.eq (x y : XR) : Bool := !x.isNan && !y.isNan && !x.lt y && !y.lt x
def XR.negative : XR → Bool
  | .fin s _ _ => s | .inf s => s | .nan => false

/-- Bits of quotient or root kept before the sticky bit. -/
def guardBits : Nat := 80
/-- Quotient of positive magnitudes with a sticky low bit, at exponent. -/
def divMag (ma : Nat) (ea : Int) (mb : Nat) (eb : Int) : Nat × Int :=
  let n := ma * 2 ^ (guardBits + Nat.log2 mb)
  (2 * (n / mb) + (if n % mb = 0 then 0 else 1), ea - eb - guardBits - Nat.log2 mb - 1)

/-- Largest r with r × r ≤ n, by bits from `k` down. -/
def isqrtFrom (n : Nat) : Nat → Nat → Nat
  | 0, r => r
  | k + 1, r =>
    let r' := r + 2 ^ k
    isqrtFrom n k (if r' * r' ≤ n then r' else r)
def isqrt (n : Nat) : Nat := isqrtFrom n (Nat.log2 n / 2 + 1) 0

/-- The invalid flag of an operation whose exact result is NaN or that reads a NaN (R48). -/
def nvIf (b : Bool) : Flg := if b then fNV else 0

/-- vadd, vsub, vmul, vfma of R128 on patterns: result and flags. -/
def fpAdd (F : Fmt) (a b : Nat) : Nat × Flg :=
  let x := (decodeFP F a).add (decodeFP F b)
  let r := rne F x
  (r.1, r.2 ||| nvIf x.isNan)
def fpNegPat (F : Fmt) (a : Nat) : Nat := if a < F.sign then a + F.sign else a - F.sign
def fpSub (F : Fmt) (a b : Nat) : Nat × Flg := fpAdd F a (fpNegPat F b)
def fpMul (F : Fmt) (a b : Nat) : Nat × Flg :=
  let x := (decodeFP F a).mul (decodeFP F b)
  let r := rne F x
  (r.1, r.2 ||| nvIf x.isNan)
def fpFma (F : Fmt) (a b c : Nat) : Nat × Flg :=
  let x := ((decodeFP F a).mul (decodeFP F b)).add (decodeFP F c)
  let r := rne F x
  (r.1, r.2 ||| nvIf x.isNan)
/-- vdiv (R129). -/
def fpDiv (F : Fmt) (a b : Nat) : Nat × Flg :=
  match decodeFP F a, decodeFP F b with
  | .nan, _ => (F.nan, fNV)
  | _, .nan => (F.nan, fNV)
  | .inf _, .inf _ => (F.nan, fNV)
  | .inf sa, .fin sb _ _ => rne F (.inf (sa != sb))
  | .fin sa _ _, .inf sb => rne F (.fin (sa != sb) 0 0)
  | .fin sa ma ea, .fin sb mb eb =>
    if mb = 0 then if ma = 0 then (F.nan, fNV) else ((rne F (.inf (sa != sb))).1, fDZ)
    else
      let (m, e) := divMag ma ea mb eb
      rne F (.fin (sa != sb) m e)
/-- The order of vmin and vmax: values, with −0 below +0 (R129). -/
def fpBelow (F : Fmt) (a b : Nat) : Bool :=
  let x := decodeFP F a
  let y := decodeFP F b
  if x.isZero && y.isZero then x.negative && !y.negative else x.lt y
def fpMin (F : Fmt) (a b : Nat) : Nat × Flg :=
  if (decodeFP F a).isNan || (decodeFP F b).isNan then (F.nan, fNV) else (if fpBelow F b a then b else a, 0)
def fpMax (F : Fmt) (a b : Nat) : Nat × Flg :=
  if (decodeFP F a).isNan || (decodeFP F b).isNan then (F.nan, fNV) else (if fpBelow F a b then b else a, 0)
def fpAbs (F : Fmt) (a : Nat) : Nat × Flg :=
  if (decodeFP F a).isNan then (F.nan, fNV) else (a % F.sign, 0)
def fpNeg (F : Fmt) (a : Nat) : Nat × Flg :=
  if (decodeFP F a).isNan then (F.nan, fNV) else (fpNegPat F a, 0)

/-! ## Special functions (R135), correctly rounded -/

/-- Fraction bits of the series (log 11). -/
def serBits : Nat := 320
/-- floor(2^320 × ln 2). -/
def ln2Fix : Nat :=
  1480553391661173448385607439722553250922680800745876974795605978609098082859138712941075737848984
/-- exp(y / 2^320) × 2^320 for 0 ≤ y < 2^320, by 90 terms. -/
def expFix (y : Nat) : Nat :=
  ((List.range 90).foldl (fun (a : Nat × Nat) k => (a.1 + a.2, a.2 * y / ((k + 1) * 2 ^ serBits))) (0, 2 ^ serBits)).1
/-- ln(x / d) × 2^320 for d ≤ x < 2d, by 110 terms of 2 artanh((x − d)/(x + d)). -/
def lnFix (x d : Nat) : Nat :=
  let z := (x - d) * 2 ^ serBits / (x + d)
  let z2 := z * z / 2 ^ serBits
  2 * ((List.range 110).foldl (fun (a : Nat × Nat) k => (a.1 + a.2 / (2 * k + 1), a.2 * z2 / 2 ^ serBits)) (0, z)).1

/-- 2^x for a finite non-zero x, with a sticky bit when inexact. -/
def exp2Mag (neg : Bool) (mag : Nat) (exp : Int) : XR :=
  -- beyond these magnitudes every format overflows or underflows to its least values
  let top : Int := (Nat.log2 mag : Int) + exp
  if top > 12 then (if neg then .fin false 1 (-5000) else .fin false 1 5000)
  else
    let f := if exp < 0 then (-exp).toNat else 0
    let i : Int := signed neg (if exp < 0 then mag else mag * 2 ^ exp.toNat)
    let n : Int := i / (2 ^ f : Nat)
    let fr := (i % (2 ^ f : Nat)).toNat
    if fr = 0 then .fin false 1 n
    else .fin false (2 * expFix (fr * ln2Fix / 2 ^ f) + 1) (n - serBits - 1)
def fpExp2 (F : Fmt) (a : Nat) : Nat × Flg :=
  match decodeFP F a with
  | .nan => (F.nan, fNV)
  | .inf neg => rne F (if neg then .fin false 0 0 else .inf false)
  | .fin neg mag exp => if mag = 0 then rne F (.fin false 1 0) else rne F (exp2Mag neg mag exp)
def fpLog2 (F : Fmt) (a : Nat) : Nat × Flg :=
  match decodeFP F a with
  | .nan => (F.nan, fNV)
  | .inf neg => if neg then (F.nan, fNV) else rne F (.inf false)
  | .fin neg mag exp =>
    if mag = 0 then ((rne F (.inf true)).1, fDZ)
    else if neg then (F.nan, fNV)
    else
      let l := Nat.log2 mag
      let n : Int := l + exp
      if mag = 2 ^ l then rne F (.ofInt n 0)
      else
        let i : Int := n * (2 ^ serBits : Nat) + (lnFix mag (2 ^ l) * 2 ^ serBits / ln2Fix : Nat)
        rne F (.fin (i < 0) (2 * i.natAbs + 1) (-(serBits : Int) - 1))
def fpRcp (F : Fmt) (a : Nat) : Nat × Flg :=
  match decodeFP F a with
  | .nan => (F.nan, fNV)
  | .inf neg => rne F (.fin neg 0 0)
  | .fin neg mag exp =>
    if mag = 0 then ((rne F (.inf neg)).1, fDZ)
    else
      let (m, e) := divMag 1 0 mag exp
      rne F (.fin neg m e)
def fpRsqrt (F : Fmt) (a : Nat) : Nat × Flg :=
  match decodeFP F a with
  | .nan => (F.nan, fNV)
  | .inf neg => if neg then (F.nan, fNV) else rne F (.fin false 0 0)
  | .fin neg mag exp =>
    if mag = 0 then ((rne F (.inf neg)).1, fDZ)
    else if neg then (F.nan, fNV)
    else
      let m := if exp % 2 = 0 then mag else 2 * mag
      let e := if exp % 2 = 0 then exp else exp - 1
      let t := guardBits + Nat.log2 m
      let r := isqrt (2 ^ (2 * t) / m)
      rne F (.fin false (2 * r + (if r * r * m = 2 ^ (2 * t) then 0 else 1)) (-(e / 2) - t - 1))

/-! ## Conversions (R56) and views (R57) -/

/-- sat_finite (R54), with whether it changed the value. -/
def satFinite (F : Fmt) (x : XR) : XR × Bool :=
  let top := decodeFP F F.maxPat
  match x with
  | .nan => (.nan, false)
  | _ => if top.lt x then (top, true) else if x.lt top.neg then (top.neg, true) else (x, false)
/-- FP or integer → FP under fmt.RND and fmt.SAT. -/
def cvtToFP (F : Fmt) (rnd : Rnd) (sat : Bool) (x : XR) : Nat × Flg :=
  if sat then
    let (y, ch) := satFinite F x
    let r := roundFP F rnd y
    let nx := if ch then fNX else 0
    (r.1, r.2 ||| nx ||| if ch then fSF else 0)
  else
    match x with
    | .inf _ => if F.isE4 then (F.nan, fOF ||| fNX) else roundFP F rnd x
    | _ => roundFP F rnd x
/-- An exact value rounded to an integer. -/
def roundInt (rnd : Rnd) (neg : Bool) (mag : Nat) (exp : Int) : Int × Bool :=
  let (n, nx) := roundTo rnd neg mag exp 0
  (signed neg n, nx)
/-- FP → integer of range lo..hi: value and flags; a clamp is invalid, and its result differs from the exact source (R56). -/
def cvtToInt (lo hi : Int) (rnd : Rnd) (x : XR) : Int × Flg :=
  match x with
  | .nan => (0, fNV)
  | .inf neg => (if neg then lo else hi, fNV ||| fNX)
  | .fin neg mag exp =>
    let (n, nx) := roundInt rnd neg mag exp
    if n < lo then (lo, fNV ||| fNX) else if hi < n then (hi, fNV ||| fNX) else (n, if nx then fNX else 0)

/-- A VIEW code's format (R184); none is FULL. -/
def viewFmt (v : BitVec 3) : Option Fmt :=
  match v.toNat with
  | 1 => some .bf16 | 2 => some .f16 | 3 => some .e4m3 | 4 => some .e5m2 | _ => none
/-- An HF code's format (R182); none is RAW. -/
def homeFmt (h : BitVec 2) : Option Fmt :=
  match h.toNat with
  | 0 => some .f32 | 1 => some .bf16 | 2 => some .f16 | _ => none
/-- view_round (R57): the pattern in the view's format. -/
def viewRound (hf vf : Fmt) (p : Nat) : Nat :=
  match decodeFP hf p with
  | .nan => vf.nan
  | x => (rne vf (match vf with | .e4m3 => (satFinite vf x).1 | _ => x)).1
/-- The view pattern widened back, exactly, to the home format (R157). -/
def viewWiden (hf vf : Fmt) (p : Nat) : Nat := (rne hf (decodeFP vf p)).1
/-- The format of a served view: none when the load is served as FULL (R183). -/
def served (hf : BitVec 2) (v : BitVec 3) : Option (Fmt × Fmt) :=
  match homeFmt hf, viewFmt v with
  | some h, some f =>
    if h = f then none
    else match h, f with
      | .bf16, .f16 => none
      | .f16, .bf16 => none
      | _, _ => some (h, f)
  | _, _ => none

/-! ## Block products (R50 to R53, R58) -/

/-- SC8 and E8M0 scale bytes (R52). -/
def sc8 (b : Nat) : XR :=
  if b / 8 = 0 then .fin false (b % 8) (-17) else .fin false (8 + b % 8) ((b / 8 : Nat) - 18)
def e8m0 (b : Nat) : XR := if b = 0xFF then .nan else .fin false 1 ((b : Int) - 127)
/-- The exact dot product of R58: NaN and infinite products first; an exact zero is +0 (log 54). -/
def dotProducts (ps : List XR) : XR :=
  if ps.any XR.isNan then .nan
  else
    let hasP := ps.any (· == .inf false)
    let hasN := ps.any (· == .inf true)
    if hasP && hasN then .nan else if hasP then .inf false else if hasN then .inf true
    else ps.foldl XR.add (.fin false 0 0)
/-- block_term (R58): SCALE 0 none, 1 SC8, 2 E8M0. -/
def blockTerm (d : XR) (sa sb : Nat) (scale : Nat) : Nat :=
  match scale with
  | 0 => (rne .f32 d).1
  | 1 => (rne .f32 (d.mul ((sc8 sa).mul (sc8 sb)))).1
  | _ => if sa = 0xFF || sb = 0xFF then Fmt.nan .f32 else (rne .f32 (d.mul ((e8m0 sa).mul (e8m0 sb)))).1
/-- accumulate in FP32 (R58). -/
def accFP (acc t : Nat) : Nat := (fpAdd .f32 acc t).1

/-- The pairwise tree of R60 over a list of length 2^L. -/
def treeStep (op : Nat → Nat → Nat × Flg) : List Nat → List Nat × Flg
  | a :: b :: t =>
    let r := op a b
    let rest := treeStep op t
    (r.1 :: rest.1, r.2 ||| rest.2)
  | l => (l, 0)
def treeRed (op : Nat → Nat → Nat × Flg) : Nat → List Nat → Nat × Flg
  | 0, l => (l.headD 0, 0)
  | k + 1, l =>
    let r := treeStep op l
    let rest := treeRed op k r.1
    (rest.1, r.2 ||| rest.2)
/-- One scan step at distance d (R60); the first d elements are as they were, NaN patterns included (log 55). -/
def scanStep (op : Nat → Nat → Nat × Flg) (d : Nat) (l : List Nat) : List Nat × Flg :=
  let rs := List.zipWith op l (l.drop d)
  (l.take d ++ rs.map (·.1), rs.foldl (fun f r => f ||| r.2) 0)
def scanAll (op : Nat → Nat → Nat × Flg) : Nat → Nat → List Nat → List Nat × Flg
  | 0, _, l => (l, 0)
  | k + 1, d, l =>
    let r := scanStep op d l
    let rest := scanAll op k (2 * d) r.1
    (rest.1, r.2 ||| rest.2)

end Sys2Proof.Machine
end

