-- ==== Sys2Proof/Machine/Store.lean ====
section
/-! DEFINITION. Reading and writing sparse stores, byte strings and lines. A store lists, in rising order, the entries that
differ from its default, so equal stores are equal data. -/

namespace Sys2Proof.Machine

/-- The entry at an index, or the default. -/
def sget {α : Type} (d : α) : SMap α → Nat → α
  | [], _ => d
  | e :: t, k => if e.1 = k then e.2 else sget d t k
/-- Insert before the first greater index. -/
def sins {α : Type} (k : Nat) (v : α) : SMap α → SMap α
  | [] => [(k, v)]
  | e :: t => if k < e.1 then (k, v) :: e :: t else e :: sins k v t
/-- Drop the entry at an index. -/
def sdel {α : Type} (k : Nat) : SMap α → SMap α
  | [] => []
  | e :: t => if e.1 = k then sdel k t else e :: sdel k t
/-- Write an entry; writing the default removes it. -/
def sput {α : Type} [DecidableEq α] (d : α) (m : SMap α) (k : Nat) (v : α) : SMap α :=
  if v = d then sdel k m else sins k v (sdel k m)

/-- The canonical form: indexes strictly rising, no entry at the default. -/
def canon {α : Type} [DecidableEq α] (d : α) : SMap α → Bool
  | [] => true
  | [e] => decide (e.2 ≠ d)
  | e :: f :: t => decide (e.2 ≠ d) && decide (e.1 < f.1) && canon d (f :: t)

/-- The canonical form of a memory: unlisted bytes read zero (log 1). -/
abbrev Memory.wf (m : List Host.Cell) : Prop := canon (0 : Byte) m = true

/-! ## Byte strings, little-endian (R45) -/

def rdByte (m : List Host.Cell) (a : Nat) : Byte := sget 0 m a
def wrByte (m : List Host.Cell) (a : Nat) (b : Byte) : List Host.Cell := sput 0 m a b
def rdBytes (m : List Host.Cell) (a n : Nat) : List Byte := (List.range n).map fun i => rdByte m (a + i)
def wrBytes (m : List Host.Cell) (a : Nat) : List Byte → List Host.Cell
  | [] => m
  | b :: bs => wrBytes (wrByte m a b) (a + 1) bs
/-- A number from bytes, least significant first, and back. -/
def leNat : List Byte → Nat
  | [] => 0
  | b :: bs => b.toNat + 256 * leNat bs
def toLE : Nat → Nat → List Byte
  | 0, _ => []
  | n + 1, x => BitVec.ofNat 8 x :: toLE n (x / 256)
/-- Bits [hi:lo] of a number. -/
def bits (x hi lo : Nat) : Nat := x / 2 ^ lo % 2 ^ (hi + 1 - lo)
def bit (x i : Nat) : Bool := x / 2 ^ i % 2 == 1
def lineOf (bs : List Byte) : Vec := BitVec.ofNat 1024 (leNat bs)
def bytesOf (v : Vec) : List Byte := toLE 128 v.toNat
/-- Signed value of the low n bits. -/
def sx (n x : Nat) : Int := if bit x (n - 1) then ((x % 2 ^ n : Nat) : Int) - (2 ^ n : Nat) else (x % 2 ^ n : Nat)
/-- An integer modulo 2^n. -/
def wrap (n : Nat) (i : Int) : Nat := (i % (2 ^ n : Nat)).toNat
def boolN (b : Bool) : Nat := if b then 1 else 0
/-- Insertion sort by an order, structural. -/
def insBy {α : Type} (le : α → α → Bool) (x : α) : List α → List α
  | [] => [x]
  | y :: t => if le x y then x :: y :: t else y :: insBy le x t
def sortBy {α : Type} (le : α → α → Bool) : List α → List α
  | [] => []
  | x :: t => insBy le x (sortBy le t)

/-- Overwrite, in a line, the bytes whose offsets are listed. -/
def mergeLine (v : Vec) (bs : List (Nat × Byte)) : Vec :=
  bs.foldl (fun v b =>
    let byte : Vec := b.2.setWidth 1024
    (v &&& ~~~((0xFF#1024) <<< (8 * b.1))) ||| (byte <<< (8 * b.1))) v
def lineByte (v : Vec) (i : Nat) : Byte := v.extractLsb' (8 * i) 8

end Sys2Proof.Machine
end

