-- ==== Sys2Proof/Machine/Operands.lean ====
section
/-! DEFINITION. Operands: vector lanes, predicates, immediates, types and effective addresses (R45, R72, R75, R103, R124, R125, R153). -/

namespace Sys2Proof.Machine

/-- Element i of a vector at width w bytes (R45). -/
def lane (w : Nat) (v : Vec) (i : Nat) : Nat := (v.extractLsb' (8 * w * i) (8 * w)).toNat
/-- The n elements of a vector at width w. -/
def lanes (w : Nat) (v : Vec) : List Nat := (List.range (128 / w)).map (lane w v)
/-- A vector from the elements of width w, element 0 first. -/
def ofLanes (w : Nat) (xs : List Nat) : Vec :=
  BitVec.ofNat 1024 (xs.foldr (fun x acc => x % 2 ^ (8 * w) + 2 ^ (8 * w) * acc) 0)
/-- Element i replaced. -/
def setLane (w : Nat) (v : Vec) (i x : Nat) : Vec :=
  let msk : Vec := BitVec.ofNat 1024 (2 ^ (8 * w) - 1) <<< (8 * w * i)
  (v &&& ~~~msk) ||| (BitVec.ofNat 1024 (x % 2 ^ (8 * w)) <<< (8 * w * i))
/-- Element i is enabled (R125): bit i × w of the predicate. -/
def enabled (w : Nat) (p : Option (BitVec 128)) (i : Nat) : Bool :=
  match p with
  | none => true
  | some b => b.getLsbD (i * w)
/-- Element-wise result under a predicate: enabled elements take `f i`, the others keep vD's (R125). -/
def laneMap (w : Nat) (p : Option (BitVec 128)) (old : Vec) (f : Nat → Nat × Flg) : Vec × Flg :=
  let rs := (List.range (128 / w)).map fun i => if enabled w p i then f i else (lane w old i, 0)
  (ofLanes w (rs.map (·.1)), rs.foldl (fun fl r => fl ||| r.2) 0)

/-- The FP format of a type (R46). -/
def tyFmt : Ty → Fmt
  | .bf16 => .bf16 | .f16 => .f16 | .e4m3 => .e4m3 | .e5m2 => .e5m2 | _ => .f32
/-- A byte-scaled signed offset added to an address: the home field is kept, the offset wraps (R103, R153). -/
def qoff (q : VA) (off : Int) : VA :=
  q.extractLsb' 68 4 ++ BitVec.ofNat 68 (wrap 68 ((q.extractLsb' 0 68).toNat + off))
/-- The home field of an address (R4). -/
def vaHome (a : VA) : Nat := (a.extractLsb' 68 4).toNat
/-- R19's home field check. -/
def homeOk (a : VA) : Bool := vaHome a ≤ 3 || vaHome a == 8
/-- A scratchpad address (R154): VA[67:22] all ones. -/
def isSpad (a : VA) : Bool := (a.extractLsb' 22 46).toNat == 2 ^ 46 - 1
def spadOff (a : VA) : Nat := (a.extractLsb' 0 22).toNat
/-- An address from VA[71:8], as records hold it. -/
def va8 (x : Nat) : VA := BitVec.ofNat 72 (x % 2 ^ 64 * 256)
/-- An address from VA[71:16]. -/
def va16 (x : Nat) : VA := BitVec.ofNat 72 (x % 2 ^ 56 * 65536)
/-- The TPC encoding of an address (R318), and back (R319). -/
def pcEnc (a : VA) : Word64 := (0 : BitVec 16) ++ a.extractLsb' 68 4 ++ a.extractLsb' 4 44
def pcDec (w : Word64) : VA := w.extractLsb' 44 4 ++ (0 : BitVec 20) ++ w.extractLsb' 0 44 ++ (0 : BitVec 4)
/-- TVAL for a faulting address (R318). -/
def tvalOf (a : VA) : Word64 := (0 : BitVec 12) ++ a.extractLsb' 68 4 ++ a.extractLsb' 0 48

end Sys2Proof.Machine
end

