-- ==== Sys2Proof/Machine/Base.lean ====
section
/-! DEFINITION. Reading and writing the parts of the state: contexts, cores, dies, register banks (R12, R14), event counters
(R343). Every register read and write of a meaning goes through these. -/

namespace Sys2Proof.Machine

/-- A field of a record: `w` bits from bit `lo`. -/
def fld {n : Nat} (x : BitVec n) (lo w : Nat) : Nat := (x.extractLsb' lo w).toNat
/-- A field of a record replaced. -/
def setFld {n : Nat} (x : BitVec n) (lo w v : Nat) : BitVec n :=
  (x &&& ~~~(BitVec.ofNat n (2 ^ w - 1) <<< lo)) ||| (BitVec.ofNat n (v % 2 ^ w) <<< lo)

/-! ## Parts of the state -/

def State.ctx (s : State) (n : Nat) : Ctx := sget .zero s.ctxs n
def State.setCtx (s : State) (n : Nat) (c : Ctx) : State := { s with ctxs := sput .zero s.ctxs n c }
def State.updCtx (s : State) (n : Nat) (f : Ctx → Ctx) : State := s.setCtx n (f (s.ctx n))
def State.core (s : State) (n : Nat) : CoreSt := sget .zero s.cores n
def State.updCore (s : State) (n : Nat) (f : CoreSt → CoreSt) : State :=
  { s with cores := sput .zero s.cores n (f (s.core n)) }
def State.die (s : State) (n : Nat) : DieSt := sget .zero s.dies n
def State.updDie (s : State) (n : Nat) (f : DieSt → DieSt) : State :=
  { s with dies := sput .zero s.dies n (f (s.die n)) }
def State.launchRec (s : State) (n : Nat) : Launch := sget .zero s.launches n
def State.updLaunch (s : State) (n : Nat) (f : Launch → Launch) : State :=
  { s with launches := sput .zero s.launches n (f (s.launchRec n)) }
def State.queue (s : State) (n : Nat) : Queue := sget .zero s.queues n
def State.updQueue (s : State) (n : Nat) (f : Queue → Queue) : State :=
  { s with queues := sput .zero s.queues n (f (s.queue n)) }
def State.tile (s : State) (n : Nat) : Tile := sget .zero s.tiles n
def State.updTile (s : State) (n : Nat) (f : Tile → Tile) : State :=
  { s with tiles := sput .zero s.tiles n (f (s.tile n)) }
def State.cbuf (s : State) (n : Nat) : CBuf := sget .zero s.cbufs n
def State.updCbuf (s : State) (n : Nat) (f : CBuf → CBuf) : State :=
  { s with cbufs := sput .zero s.cbufs n (f (s.cbuf n)) }

/-- Die, cluster and core of a context (R1, R3). -/
def dieOf (n : Nat) : Nat := n / 128
def clusterOf (n : Nat) : Nat := n / 16
def coreOf (n : Nat) : Nat := n / 4

/-- The context in issue, its die and its captured registers. -/
def State.cur (s : State) : Nat := s.issue.ctx
def State.cx (s : State) : Ctx := s.ctx s.issue.ctx
def State.lat (s : State) : Regs := s.issue.lat
def State.myDie (s : State) : Nat := dieOf s.issue.ctx
def State.upd (s : State) (f : Ctx → Ctx) : State := s.updCtx s.issue.ctx f
def State.updRegs (s : State) (f : Regs → Regs) : State := s.upd fun c => { c with regs := f c.regs }
/-- The launch of a context, its address space and TAG. -/
def State.launchOf (s : State) (n : Nat) : Launch :=
  match (s.ctx n).launch with
  | some l => s.launchRec l
  | none => .zero
def State.asidOf (s : State) (n : Nat) : BitVec 16 := (s.launchOf n).asid
def Launch.tag (l : Launch) : Nat := fld l.record 384 64
def Launch.phase (l : Launch) : Bool := l.record.getLsbD 56
def Launch.code (l : Launch) : VA := va8 (fld l.image 64 64)
def Launch.nbundle (l : Launch) : Nat := fld l.image 128 32
def Launch.level (l : Launch) : Nat := fld l.record 200 3
def Launch.dies (l : Launch) : BitVec 4 := l.record.extractLsb' 204 4

/-! ## Registers of a bank, as bits and as numbers -/

def Regs.gs (r : Regs) (n : SReg) : Word64 := sget 0 r.s n.toNat
def Regs.gq (r : Regs) (n : QReg) : VA := sget 0 r.q n.toNat
def Regs.gv (r : Regs) (n : VReg) : Vec := sget 0 r.v n.toNat
def Regs.gp (r : Regs) (n : PReg) : BitVec 128 := sget 0 r.p n.toNat
def Regs.gm (r : Regs) (n : MReg) : BitVec 16 := sget 0 r.m n.toNat
def Regs.gk (r : Regs) (n : KReg) : BitVec 2048 := sget 0 r.k n.toNat
def Regs.ws (r : Regs) (n : SReg) (x : Word64) : Regs := { r with s := sput 0 r.s n.toNat x }
def Regs.wq (r : Regs) (n : QReg) (x : VA) : Regs := { r with q := sput 0 r.q n.toNat x }
def Regs.wv (r : Regs) (n : VReg) (x : Vec) : Regs := { r with v := sput 0 r.v n.toNat x }
def Regs.wp (r : Regs) (n : PReg) (x : BitVec 128) : Regs := { r with p := sput 0 r.p n.toNat x }
def Regs.wm (r : Regs) (n : MReg) (x : BitVec 16) : Regs := { r with m := sput 0 r.m n.toNat x }
def Regs.wk (r : Regs) (n : KReg) (x : BitVec 2048) : Regs := { r with k := sput 0 r.k n.toNat x }
/-- s(n) by number, for commands that name a following register (R220); beyond s31 zero. -/
def Regs.gsn (r : Regs) (n : Nat) : Word64 := if n < 32 then sget 0 r.s n else 0
/-- The predicate a PE field names (R125). -/
def Regs.pred (r : Regs) (p : Pred) : Option (BitVec 128) := p.map r.gp

/-- A slot reads the captured bank and writes the context's (R84). -/
def State.rS (s : State) (n : SReg) : Word64 := s.lat.gs n
def State.rQ (s : State) (n : QReg) : VA := s.lat.gq n
def State.rV (s : State) (n : VReg) : Vec := s.lat.gv n
def State.rP (s : State) (n : PReg) : BitVec 128 := s.lat.gp n
def State.wS (s : State) (n : SReg) (x : Word64) : State := s.updRegs fun r => r.ws n x
def State.wQ (s : State) (n : QReg) (x : VA) : State := s.updRegs fun r => r.wq n x
def State.wV (s : State) (n : VReg) (x : Vec) : State := s.updRegs fun r => r.wv n x
def State.wP (s : State) (n : PReg) (x : BitVec 128) : State := s.updRegs fun r => r.wp n x
def State.wM (s : State) (n : MReg) (x : BitVec 16) : State := s.updRegs fun r => r.wm n x
def State.wK (s : State) (n : KReg) (x : BitVec 2048) : State := s.updRegs fun r => r.wk n x
/-- Flags a slot raises are ORed into fstat (R67); the bundle keeps them so that an mtsr of fstat comes first. -/
def State.raiseFlags (s : State) (f : Flg) : State :=
  let s := s.updRegs fun r => { r with fstat := r.fstat ||| f.setWidth 64 }
  { s with issue := { s.issue with flags := s.issue.flags ||| f } }

/-! ## fmt (R64) -/

def fmtA (f : Word64) : Nat := fld f 0 4
def fmtB (f : Word64) : Nat := fld f 4 4
def fmtC (f : Word64) : Nat := fld f 8 4
def fmtScale (f : Word64) : Nat := fld f 12 2
def fmtRnd (f : Word64) : Rnd := .of (fld f 14 2)
def fmtSat (f : Word64) : Bool := f.getLsbD 16
def fmtKpl (f : Word64) : Nat := fld f 17 3
/-- The values R64 accepts. -/
def fmtOk (f : Word64) : Bool :=
  fmtA f ≤ 8 && fmtB f ≤ 8 && (fmtC f == 0 || fmtC f == 8) && fmtScale f ≤ 2 && fld f 20 44 == 0

/-! ## Event counters (R343) -/

/-- Whether counter selection `e` of core `c` counts event `ev` of context `n`. -/
def counts (e : Word64) (c ev n : Nat) : Bool :=
  e.getLsbD 10 && fld e 0 8 == ev &&
    match fld e 8 2 with
    | 0 => coreOf n == c && n % 4 == fld e 11 2
    | 1 => coreOf n == c
    | 2 => clusterOf n == c / 4
    | _ => dieOf n == c / 32
/-- A counter that an mtsr has set in this clk counts nothing more in it. -/
def CoreSt.setNow (k : CoreSt) (clk i : Nat) : Bool := k.ecntAt == clk && k.ecntSet.contains i
/-- Add `k` to every counter that counts event `ev` of context `n`. -/
def State.bump (s : State) (ev n k : Nat) : State :=
  { s with cores := s.cores.map fun c =>
      (c.1, { c.2 with ecnt := (List.range 8).foldl (fun m i =>
        if counts (sget 0 c.2.esel i) c.1 ev n && !c.2.setNow s.clk i then sput 0 m i (sget 0 m i + BitVec.ofNat 64 k) else m) c.2.ecnt }) }

end Sys2Proof.Machine
end

