-- ==== Sys2Proof/Machine/Layout.lean ====
section
/-! DEFINITION. Where bytes of processing memory lie: linear locations (R242), layout records and stripes (R246, R247), windows
(R248), units (R250), and reading and writing a line at its home. -/

namespace Sys2Proof.Machine

/-! ## Linear locations (R242) -/

/-- BGE i = 8c + 4d + g, bank, DRAM row, byte in the row, of a physical address. -/
def paBge (pa : Nat) : Nat := 8 * bits pa 14 11 + 4 * bits pa 15 15 + bits pa 17 16
def paBank (pa : Nat) : Nat := bits pa 19 18
def paRow (pa : Nat) : Nat := bits pa 36 20
def paCol (pa : Nat) : Nat := bits pa 10 0
def locPA (bge bank row col : Nat) : Nat :=
  col + 2 ^ 11 * (bge / 8) + 2 ^ 15 * (bge / 4 % 2) + 2 ^ 16 * (bge % 4) + 2 ^ 18 * bank + 2 ^ 20 * row

/-! ## Layout records (R246, R247) -/

def lrEfmt (r : BitVec 512) : Nat := fld r 0 4
def lrPlanes (r : BitVec 512) : Nat := fld r 4 3 + 2
def lrScale (r : BitVec 512) : Nat := fld r 8 2
def lrKind (r : BitVec 512) : Nat := fld r 10 2
def lrRows (r : BitVec 512) : Nat := fld r 32 32
def lrCols (r : BitVec 512) : Nat := fld r 64 32
def lrBase (r : BitVec 512) : Nat := fld r 96 17
def lrUnits (r : BitVec 512) : Nat := fld r 128 32
def lrMask (r : BitVec 512) : BitVec 128 := r.extractLsb' 160 128
def lrWbase (r : BitVec 512) : VA := r.extractLsb' 288 72
/-- Element width in bytes of an R44 code. -/
def efWidth (c : Nat) : Nat :=
  match c with
  | 0 => 4 | 1 => 2 | 2 => 2 | 8 => 4 | _ => 1
def ceilDiv (a b : Nat) : Nat := (a + b - 1) / b
def pad32 (x : Nat) : Nat := 32 * ceilDiv x 32
/-- The BGEs of the stripe set, lowest first, and their number S. -/
def lrBges (r : BitVec 512) : List Nat := (List.range 128).filter fun i => (lrMask r).getLsbD i
def lrS (r : BitVec 512) : Nat := (lrBges r).length
def lrLR (r : BitVec 512) : Nat := ceilDiv (lrRows r) (lrS r)
def lrBP (r : BitVec 512) : Bool := lrKind r == 0 && lrEfmt r == 7
def lrPr (r : BitVec 512) : Nat :=
  if lrKind r = 0 then if lrEfmt r = 7 then pad32 (lrCols r / 8) else pad32 (lrCols r * efWidth (lrEfmt r))
  else pad32 (2 * lrCols r)
def lrNp (r : BitVec 512) : Nat := if lrBP r then lrPlanes r else 1
def lrPs (r : BitVec 512) : Nat := if lrScale r = 0 then 0 else pad32 (lrCols r / 32)
def lrData (r : BitVec 512) (row j : Nat) : Nat := (j * lrLR r + row) * lrPr r
def lrScaleAt (r : BitVec 512) (row : Nat) : Nat := lrNp r * lrLR r * lrPr r + row * lrPs r
def lrStep (r : BitVec 512) (row : Nat) : Nat := lrLR r * lrPr r + 4 * row
def lrNeed (r : BitVec 512) : Nat :=
  ceilDiv (lrNp r * lrLR r * lrPr r + lrLR r * lrPs r + (if lrKind r = 0 then 0 else 4 * lrLR r)) 2048
/-- place (R247): bank, DRAM row, column byte of a stripe offset. -/
def lrPlace (r : BitVec 512) (off : Nat) : Nat × Nat × Nat :=
  (off / 2048 % 4, lrBase r + off / 2048 / 4, off % 2048)
/-- The physical address of stripe offset `off` on a BGE. -/
def lrPA (r : BitVec 512) (bge off : Nat) : Nat :=
  let p := lrPlace r off
  locPA bge p.1 p.2.1 p.2.2
/-- The BGE of row or token n, and its local row. -/
def lrBgeOf (r : BitVec 512) (n : Nat) : Nat := (lrBges r).getD (n % lrS r) 0
def lrLocal (r : BitVec 512) (n : Nat) : Nat := n / lrS r

/-- The window row length and size (R248). -/
def lrRW (r : BitVec 512) : Nat :=
  let sc := if lrScale r = 0 then 0 else lrCols r / 32
  if lrKind r ≠ 0 then 2 * lrCols r
  else if lrEfmt r = 7 then 4 * lrPlanes r * (lrCols r / 32) + sc
  else lrCols r * efWidth (lrEfmt r) + sc
def lrWinSize (r : BitVec 512) : Nat := lrRows r * lrRW r + (if lrKind r = 0 then 0 else 4 * lrRows r)
/-- Where byte `o` of the window is stored: the BGE and the stripe offset (R248); none at or beyond the size. -/
def lrWinByte (r : BitVec 512) (o : Nat) : Option (Nat × Nat) :=
  if lrWinSize r ≤ o then none
  else if lrRows r * lrRW r ≤ o then
    let t := o - lrRows r * lrRW r
    some (lrBgeOf r (t / 4), lrStep r (lrLocal r (t / 4)) + t % 4)
  else
    let n := o / lrRW r
    let b := o % lrRW r
    let row := lrLocal r n
    let dlen := if lrKind r ≠ 0 then lrRW r else if lrEfmt r = 7 then 4 * lrPlanes r * (lrCols r / 32)
      else lrCols r * efWidth (lrEfmt r)
    if dlen ≤ b then some (lrBgeOf r n, lrScaleAt r row + (b - dlen))
    else if lrBP r then
      let q := b / (4 * lrPlanes r)
      let j := b % (4 * lrPlanes r) / 4
      some (lrBgeOf r n, lrData r row j + 4 * q + b % 4)
    else some (lrBgeOf r n, lrData r row 0 + b)
/-- Whether a location lies inside the units of a record (R250). -/
def lrOwns (r : BitVec 512) (bge bank row : Nat) : Bool :=
  (lrMask r).getLsbD bge && decide (lrBase r ≤ row) && decide (4 * (row - lrBase r) + bank < lrUnits r)
/-- The rules of R246 that the record alone can break. -/
def lrOk (r : BitVec 512) (die : Nat) : Bool :=
  let k := lrKind r
  let e := lrEfmt r
  (if k = 0 then decide (1 ≤ e) && decide (e ≤ 7) else k ≠ 3 && e = 2) &&
  (if e = 7 then fld r 4 3 ≠ 7 else fld r 4 3 = 0) && !r.getLsbD 7 &&
  lrScale r ≠ 3 && (lrScale r = 0 || (k = 0 && e ≠ 1 && e ≠ 2)) &&
  fld r 13 19 = 0 && lrRows r ≠ 0 && lrCols r ≠ 0 && lrCols r % 32 = 0 && (k = 0 || lrCols r ≤ 1024) &&
  fld r 113 15 = 0 && lrMask r ≠ 0 && decide (lrNeed r ≤ lrUnits r) &&
  decide (lrBase r + ceilDiv (lrUnits r) 4 ≤ 131072) &&
  fld r 288 16 = 0 && decide (vaHome (lrWbase r) = die) && fld r 360 152 = 0

/-- Slot `ls` of a die, and whether two valid records share a unit (R246). -/
def State.layout (s : State) (d ls : Nat) : Layout := sget .zero (s.die d).layouts ls
def lrOverlap (a b : BitVec 512) : Bool :=
  lrMask a &&& lrMask b != 0 &&
  -- units u of a stand at 4 * base + u in a bank-major count of rows
  decide (4 * lrBase a < 4 * lrBase b + lrUnits b) && decide (4 * lrBase b < 4 * lrBase a + lrUnits a)
/-- The valid slot that owns a location (R250). -/
def State.ownerSlot (s : State) (d pa : Nat) : Option Nat :=
  ((s.die d).layouts.find? fun e => e.2.valid && lrOwns e.2.record (paBge pa) (paBank pa) (paRow pa)).map (·.1)

/-! ## Lines (Config keys) -/

def lineDie (l : Nat) : Nat :=
  let k := l * 128
  if Config.windowKey ≤ k then (k - Config.windowKey) / 2 ^ 54 else if Config.hostKey ≤ k then 0 else k / 2 ^ 48
def isWin (l : Nat) : Bool := decide (Config.windowKey ≤ l * 128)
def isHost (l : Nat) : Bool := !isWin l && decide (Config.hostKey ≤ l * 128)
def winSlot (l : Nat) : Nat := (l * 128 - Config.windowKey) / 2 ^ 48 % 64
def winOff (l : Nat) : Nat := (l * 128 - Config.windowKey) % 2 ^ 48
def winLine (d slot off : Nat) : Nat := (Config.windowKey + d * 2 ^ 54 + slot * 2 ^ 48 + off) / 128
/-- Where a byte of memory is kept: a page whose backing has moved to host memory lies there (R215). -/
def State.backKey (s : State) (k : Nat) : Nat :=
  if Config.hostKey ≤ k then k
  else match sget 0 s.backing (k / 65536) with
    | 0 => k
    | h + 1 => Config.hostKey + h * 65536 + k % 65536
/-- The key of byte i of a line: for a window line through its layout record, none beyond the window (R248, R249). -/
def State.byteKey (s : State) (l i : Nat) : Option Nat :=
  if isWin l then
    (lrWinByte (s.layout (lineDie l) (winSlot l)).record (winOff l + i)).map fun p =>
      Config.dieKey (lineDie l) (lrPA (s.layout (lineDie l) (winSlot l)).record p.1 p.2)
  else some (s.backKey (l * 128 + i))
/-- The line as memory holds it. -/
def State.storedLine (s : State) (l : Nat) : Vec :=
  lineOf ((List.range 128).map fun i =>
    match s.byteKey l i with
    | some k => rdByte s.mem k
    | none => 0)
/-- The line as it stands at its home: for a host line, die 0's CXL.cache copy stands in place of memory (R345). -/
def State.homeLine (s : State) (l : Nat) : Vec :=
  match sget none s.cxl l with
  | some x => x.2
  | none => s.storedLine l

/-! ## Operand rows of groups in flight (R263) -/

/-- A DRAM row of a BGE, as a command lists it. -/
def rowId (bank row : Nat) : Nat := bank + 4 * row
/-- s(C+i) as the command captured it. -/
def Cmd.w (c : Cmd) (r : SReg) (i : Nat) : Word64 := c.lat.gsn (r.toNat + i)
/-- Channels of a mask, and the BGEs of a record that lie in them, lowest first. -/
def chans (m : Nat) : List Nat := (List.range 16).filter fun c => m.testBit c
def bgesIn (r : BitVec 512) (m : Nat) : List Nat := (lrBges r).filter fun b => m.testBit (b / 8)
/-- The channel masks of pmmac, and of pmrd and pmst. -/
def pmChm (w : Word64) : Nat := fld w 46 16
def prChm (w : Word64) : Nat := fld w 36 16
/-- Tokens T0 to T0+TN−1 of a stripe, increasing. -/
def stripeTokens (r : BitVec 512) (st t0 tn : Nat) : List Nat :=
  (List.range tn).filterMap fun i => if (t0 + i) % lrS r = st then some (t0 + i) else none
/-- The BGEs of a command of processing memory. -/
def Cmd.bges (c : Cmd) : List Nat :=
  match c.ins with
  | .pmvec _ k _ => (chans (fld (c.w k 1) 0 16)).flatMap fun ch => (List.range 8).map fun g => 8 * ch + g
  | .pmmac _ k _ => bgesIn c.lay (pmChm (c.w k 0))
  | .pmatk .. | .pmatv .. => lrBges c.lay
  | .pmrd _ k _ | .pmst _ k _ => bgesIn c.lay (prChm (c.w k 0))
  | .pmclr k _ => bgesIn c.lay (fld (c.w k 0) 32 16)
  | .kvxfer _ k _ =>
    let t0 := fld (c.w k 1) 0 32
    (lrBges c.lay).zipIdx.filterMap fun x => if (stripeTokens c.lay x.2 t0 (min (fld (c.w k 1) 32 32) (lrS c.lay))).isEmpty then none else some x.1
  | .kvapp _ k _ => [lrBgeOf c.lay (fld (c.w k 1) 0 32), lrBgeOf c.lay2 (fld (c.w k 1) 0 32)].dedup
  | _ => []
/-- A group of a command in flight reads the DRAM row of a key. -/
def Cmd.readsRow (c : Cmd) (key : Nat) : Bool :=
  let pa := key % 2 ^ 48
  decide (dieOf c.ctx = key / 2 ^ 48) && c.rows.contains (paBge pa, rowId (paBank pa) (paRow pa))
/-- A group in flight reads the DRAM row of a key. -/
def State.rowHeld (s : State) (key : Nat) : Bool := decide (key < Config.hostKey) && s.cmds.any (·.readsRow key)
def State.keysOf (s : State) (l : Nat) (offs : List Nat) : List Nat := offs.filterMap (s.byteKey l)
def HeldWrite.keys (h : HeldWrite) (s : State) : List Nat := s.keysOf h.line (h.bytes.map (·.1))
/-- A write that waits stands before a write of these bytes of a line: it is of the same line, or covers one of its locations. -/
def HeldWrite.before_ (h : HeldWrite) (s : State) (l : Nat) (ks : List Nat) : Bool := h.line == l || (h.keys s).any ks.contains
/-- A write of these bytes of a line does not perform yet: a group in flight reads one of its rows, or a write already held
stands before it. The scatter of a window line counts as one write. -/
def State.lineHeld (s : State) (l : Nat) (offs : List Nat) : Bool :=
  !(s.heldWrites.isEmpty && s.cmds.all (·.rows.isEmpty)) &&
    (let ks := s.keysOf l offs
     ks.any s.rowHeld || s.heldWrites.any fun h => h.before_ s l ks)
/-- The BGEs on which bytes of memory lie. -/
def bgesOfKeys (ks : List Nat) : List Nat := ((ks.filter (· < Config.hostKey)).map fun k => paBge (k % 2 ^ 48)).dedup
/-- The commands whose groups a write that arrives now does not precede: those with a group in flight that reads one of its rows,
and, since a BGE takes groups in issue order, those whose work on one of its BGEs comes before a later part of theirs. -/
def State.groupsOver (s : State) (ks : List Nat) : List Nat :=
  let bs := bgesOfKeys ks
  (s.cmds.foldr (fun c acc =>
    let todo := (bs.filter c.bges.contains).filter fun b => !c.done.contains b
    if ks.any c.readsRow || acc.any fun x => dieOf x.ctx == dieOf c.ctx && todo.any fun b => x.bges.contains b && !x.started.contains b
    then c :: acc else acc) []).map (·.id)
/-- The same for a write of a line that also comes behind writes already held. -/
def State.groupsBefore (s : State) (l : Nat) (offs : List Nat) : List Nat :=
  let ks := s.keysOf l offs
  (s.groupsOver ks ++ (s.heldWrites.filter fun h => h.before_ s l ks).flatMap (·.groups)).dedup
/-- A held write still waits for one of those commands: it has not completed its work on every BGE of the write. -/
def HeldWrite.waits (h : HeldWrite) (s : State) : Bool :=
  s.cmds.any fun c => h.groups.contains c.id && (bgesOfKeys (h.keys s)).any fun b => c.bges.contains b && !c.done.contains b

/-! ## Device writes (R265) -/

/-- Perform bytes at the devices: they are stored, and the marks of bad units record the columns written (R265). -/
def State.devWrite (s : State) (cells : List Host.Cell) : State :=
  let s := { s with mem := cells.foldl (fun (m : List Host.Cell) (c : Host.Cell) => wrByte m c.1 c.2) s.mem }
  if s.badUnits.isEmpty then s
  else
    let mark (u : BadUnit) (c : Host.Cell) : BadUnit :=
      let pa := c.1 % 2 ^ 48
      if c.1 < Config.hostKey && c.1 / 2 ^ 48 == u.die && paBge pa == u.bge && paBank pa == u.bank && paRow pa == u.row
      then { u with written := u.written ||| (1#64 <<< (paCol pa / 32)) } else u
    { s with badUnits := (s.badUnits.map fun u => cells.foldl mark u).filter fun u => u.written != ~~~(0 : BitVec 64) }
/-- Merge bytes into a line at its home. -/
def State.homeMerge (s : State) (l : Nat) (bs : List (Nat × Byte)) : State :=
  if isHost l then { s with cxl := sput none s.cxl l (some (true, mergeLine (s.homeLine l) bs)) }
  else s.devWrite (bs.filterMap fun b => (s.byteKey l b.1).map fun k => (k, b.2))
def allBytes (v : Vec) : List (Nat × Byte) := (List.range 128).map fun i => (i, lineByte v i)

/-- Whether a device fault lies in the column cycle of a key. -/
def BadCell.at (c : BadCell) (key : Nat) : Bool :=
  let pa := key % 2 ^ 48
  decide (key < Config.hostKey) && c.die == key / 2 ^ 48 && c.bge == paBge pa && c.bank == paBank pa && c.row == paRow pa &&
    c.col == paCol pa / 32
/-- What an ordinary access of a physical location meets (R250, R263, R265): a cause, or none. Only a read finds its data
uncorrectable, and an access that a cache serves (`cached`) meets nothing of the device. -/
def State.locCause (s : State) (key : Nat) (window read cached : Bool) : Option Nat :=
  if Config.hostKey ≤ key then none
  else
    let d := key / 2 ^ 48
    let pa := key % 2 ^ 48
    let slot := s.ownerSlot d pa
    if !window && slot.isSome then some 197
    else if s.badUnits.any (fun u => u.die == d && u.bge == paBge pa && u.bank == paBank pa && u.row == paRow pa) then some 203
    else if (match slot with | some ls => (s.layout d ls).bad | none => false) then some 203
    else if cached then none
    else if s.devFaults.any (fun c => c.at key && c.kind == .link) then some 204
    else if read && s.devFaults.any (fun c => c.at key && c.kind == .ecc) then some 202
    else none
/-- The first cause that an ordinary access of a line meets: 32-byte column cycles of a linear line, or every byte of a
window line. -/
def State.lineCause (s : State) (l : Nat) (read cached : Bool) : Option Nat :=
  if isWin l then (List.range 128).findSome? fun i => (s.byteKey l i).bind fun k => s.locCause k true read cached
  else (List.range 4).findSome? fun i => s.locCause (s.backKey (l * 128 + 32 * i)) false read cached
/-- The device faults of a line. -/
def State.faultsIn (s : State) (l : Nat) (k : DevFault) : List BadCell :=
  s.devFaults.filter fun c => c.kind == k && (List.range 128).any fun i => match s.byteKey l i with | some x => c.at x | none => false

/-! ## Die 0's CXL.cache copies (R345) -/

/-- A copy is obtained from the host, where there is none. -/
def State.cxlFill (s : State) (l : Nat) : State :=
  if isHost l && (sget none s.cxl l).isNone then { s with cxl := sput none s.cxl l (some (false, s.storedLine l)) } else s
/-- Dirty data goes to the host, and the copy is clean. -/
def State.cxlClean (s : State) (l : Nat) : State :=
  match sget none s.cxl l with
  | some (true, x) => { s.devWrite ((allBytes x).map fun b => (l * 128 + b.1, b.2)) with cxl := sput none s.cxl l (some (false, x)) }
  | _ => s
/-- The copy goes, dirty data to the host first. -/
def State.cxlDrop (s : State) (l : Nat) : State := { s.cxlClean l with cxl := sput none s.cxl l none }

end Sys2Proof.Machine
end

