-- ==== Sys2Proof/Machine/Coherence.lean ====
section
/-! DEFINITION. Copies of memory lines and the directory (R181 to R201, R345). Each request is one whole transaction (log 7): it
takes its tightrope slot, is served at the home, and its snoops are answered before the next transaction begins. -/

namespace Sys2Proof.Machine

/-! ## Views of a line (R157, R182, R183) -/

/-- The line's elements as bit patterns of the view; the line itself when the view is served as FULL. -/
def viewLine (hf : BitVec 2) (v : BitVec 3) (x : Vec) : Vec :=
  match served hf v with
  | none => x
  | some (h, f) => ofLanes (h.bits / 8) ((lanes (h.bits / 8) x).map (viewRound h f))
/-- A view copy's patterns in the home format again. -/
def widenLine (hf : BitVec 2) (v : BitVec 3) (x : Vec) : Vec :=
  match served hf v with
  | none => x
  | some (h, f) => ofLanes (h.bits / 8) ((lanes (h.bits / 8) x).map (viewWiden h f))
/-- What a load under view v returns of a FULL line (R157). -/
def loadLine (hf : BitVec 2) (v : BitVec 3) (x : Vec) : Vec := widenLine hf v (viewLine hf v x)
/-- The view a copy is kept at: FULL where the home format does not admit it (R183). -/
def effView (hf : BitVec 2) (v : BitVec 3) : BitVec 3 := if (served hf v).isNone then 0 else v
/-- The comparison of R188 on FULL lines, over the touched bytes: true is changed. -/
def changedAt (hf : BitVec 2) (v : BitVec 3) (offs : List Nat) (old new : Vec) : Bool :=
  match served hf v with
  | none => offs.any fun i => lineByte old i != lineByte new i
  | some (h, f) =>
    let w := h.bits / 8
    (List.range (128 / w)).any fun e =>
      let n := ((List.range w).filter fun b => offs.contains (e * w + b)).length
      n != 0 && (n != w || viewRound h f (lane w old e) != viewRound h f (lane w new e))

/-! ## Copies -/

def State.l1Find (s : State) (c l : Nat) : Option Copy := (s.core c).l1.find? (·.line == l)
/-- The copy that serves a request of core c under a tag (R196). -/
def Copy.tagged (x : Copy) (asid : BitVec 16) (va : VA) : Bool := x.asid == asid && x.va == va
def State.l1Del (s : State) (c l : Nat) : State :=
  s.updCore c fun k => { k with l1 := k.l1.filter (·.line != l) }
/-- Replace or add a copy as the most recently used. -/
def State.l1Put (s : State) (c : Nat) (p : Copy) : State :=
  s.updCore c fun k => { k with l1 := p :: k.l1.filter (·.line != p.line) }
/-- Change a copy where it stands. -/
def State.l1Set (s : State) (c : Nat) (p : Copy) : State :=
  s.updCore c fun k => { k with l1 := k.l1.map fun x => if x.line == p.line then p else x }
def State.prFind (s : State) (d l : Nat) : Option Copy := (s.die d).proxies.find? (·.line == l)
/-- A proxy's copy goes, and its place in the L2 slice with it (R181). -/
def State.prDel (s : State) (d l : Nat) : State :=
  s.updDie d fun k => { k with proxies := k.proxies.filter (·.line != l), l2 := k.l2.filter (· != l) }
def State.prPut (s : State) (d : Nat) (p : Copy) : State :=
  s.updDie d fun k => { k with proxies := p :: k.proxies.filter (·.line != p.line) }
/-- A header enters a die's tightrope (R187). -/
def State.header (s : State) (d : Nat) : State := s.updDie d fun k => { k with headers := k.headers + 1 }
/-- The cores of a die that hold anything. -/
def State.coresOf (s : State) (d : Nat) : List Nat := (s.cores.map (·.1)).filter fun c => c / 32 == d

/-- The tag under which a request travels. -/
structure Tag where
  asid : BitVec 16
  va : VA
  hf : BitVec 2

/-! ## The directory (R192, R201, R249, R345) -/

def dirKey (l : Nat) : Nat :=
  let k := l * 128
  if isWin l then 2 ^ 20 + lineDie l * 2 ^ 12 + bits (winOff l) 22 11
  else if isHost l then 2 ^ 21 + bits k 10 7 * 1024 + bits k 20 11
  else lineDie l * 2 ^ 16 + bits k 22 7
def State.dirSet (s : State) (l : Nat) : List DirEnt := sget [] s.dir (dirKey l)
def State.dirFind (s : State) (l : Nat) : Option DirEnt := (s.dirSet l).find? (·.line == l)
/-- Write an entry as the most recently used of its set: every write of an entry counts as a use of it (log 79). -/
def State.dirPut (s : State) (e : DirEnt) : State :=
  { s with dir := sput [] s.dir (dirKey e.line) (e :: (s.dirSet e.line).filter (·.line != e.line)) }
def State.dirDel (s : State) (l : Nat) : State :=
  { s with dir := sput [] s.dir (dirKey l) ((s.dirSet l).filter (·.line != l)) }
def DirEnt.fmtOf (e : DirEnt) (d : Nat) : BitVec 3 := e.fmt.extractLsb' (3 * d) 3
def DirEnt.withFmt (e : DirEnt) (d : Nat) (v : BitVec 3) : DirEnt := { e with fmt := setFld e.fmt (3 * d) 3 v.toNat }
def DirEnt.has (e : DirEnt) (d : Nat) : Bool := e.sharers.getLsbD d
def DirEnt.add (e : DirEnt) (d : Nat) : DirEnt := { e with sharers := e.sharers ||| (1#5 <<< d) }
def DirEnt.drop (e : DirEnt) (d : Nat) : DirEnt := { e with sharers := e.sharers &&& ~~~(1#5 <<< d) }
def DirEnt.owned (e : DirEnt) : Bool := e.st == .E || e.st == .O || e.st == .M

/-- The latest merged value of a line (R199): an L1 in M, else the owning proxy's copy, else the home. -/
def State.lineNow (s : State) (l : Nat) : Vec :=
  match s.cores.findSome? fun c => (c.2.l1.find? fun x => x.line == l && x.st == .M) with
  | some x => x.data
  | none =>
    match s.dirFind l with
    | some e =>
      if e.owned then match s.prFind e.owner l with | some p => p.data | none => s.homeLine l
      else s.homeLine l
    | none => s.homeLine l

/-- The contexts that watch a line and for which `p` holds have a conflict (R205); the acting context has none. -/
def State.conflictIf (s : State) (by_ : Option Nat) (l : Nat) (p : Watch → Bool) : State :=
  { s with ctxs := s.ctxs.map fun (e : Nat × Ctx) =>
      if some e.1 != by_ && e.2.watch.any (fun w => !w.spad && w.line == l && p w)
      then (e.1, { e.2 with conflict := true }) else e }

/-! ## Steps at one L1 -/

/-- An M copy of core c is written back: to its die's memory, or to the die's proxy for a line homed elsewhere (R189). -/
def State.writeBack (s : State) (c l : Nat) : State :=
  match s.l1Find c l with
  | some x =>
    if x.st == .M then
      if lineDie l = c / 32 then s.homeMerge l (allBytes x.data)
      else match s.prFind (c / 32) l with
        | some p => s.prPut (c / 32) { p with st := .M, data := x.data }
        | none => s.homeMerge l (allBytes x.data)
    else s
  | none => s
/-- Recall of a core's copy: written back, then S at FULL (R189). -/
def State.recallL1 (s : State) (c l : Nat) : State :=
  match s.l1Find c l with
  | some x => if x.st == .S then s else (s.writeBack c l).l1Set c { x with st := .S, view := 0 }
  | none => s
/-- Invalidation of a core's copy: written back when in M, then I. -/
def State.invL1 (s : State) (c l : Nat) : State := (s.writeBack c l).l1Del c l
/-- 32-byte quarters of a frame that a copy takes (R185). -/
def Copy.quarters (x : Copy) : Nat :=
  match served x.hf x.view with
  | none => 4
  | some (h, f) => 4 * f.bits / h.bits
def framesOf (xs : List Copy) : Nat :=
  let n k := (xs.filter fun x => x.quarters == k).length
  n 4 + (n 2 + 1) / 2 + (n 1 + 3) / 4
/-- The set of an L1 that a line maps to: VA[13:7] (log 8). -/
def l1SetNo (va : VA) : Nat := fld va 7 7
/-- Evict until the copies of the set fit eight frames: lowest PRIO first, then least recently used (R185). -/
def State.l1Fit (s : State) (c set : Nat) (keep : Nat) : Nat → State
  | 0 => s
  | n + 1 =>
    let xs := (s.core c).l1.filter fun x => l1SetNo x.va == set
    if framesOf xs ≤ 8 then s
    else
      let ys := xs.filter (·.line != keep)
      let least := ys.foldl (fun m x => min m x.prio) 4
      match (ys.filter fun x => x.prio == least).getLast? with
      | some x => (s.invL1 c x.line).l1Fit c set keep n
      | none => s
/-- Place a copy in an L1 (R185). -/
def State.l1Place (s : State) (c : Nat) (x : Copy) : State := (s.l1Put c x).l1Fit c (l1SetNo x.va) x.line 40

/-- A store header on a die's tightrope (R187 to R189): each copy there compares at its view. `old` and `new` are the line at
FULL. Counts the snooped stores that compared unchanged and changed (R343 events 7 and 8). It is no use of a copy for R185 (log 68). -/
def State.storeHeader (s : State) (d l : Nat) (hf : BitVec 2) (offs : List Nat) (old new : Vec) : State :=
  ((s.header d).coresOf d).foldl (fun s c =>
    match s.l1Find c l with
    | none => s
    | some _ =>
      let s := s.recallL1 c l
      match s.l1Find c l with
      | none => s
      | some x =>
        let full := effView hf x.view == 0
        let ch := changedAt hf x.view offs old new
        let s := s.bump (if ch then 8 else 7) (4 * c) 1
        if !ch then s
        else if full then s.l1Set c { x with data := new }
        else
          let partial_ := changedAt hf x.view offs new new
          if x.update && !partial_ then s.l1Set c { x with data := viewLine hf x.view new } else s.l1Del c l) (s.header d)
/-- An invalidation broadcast on a die's tightrope: every copy of its L1s and its proxy's copy go to I. -/
def State.invDie (s : State) (by_ : Option Nat) (d l : Nat) : State :=
  let s := s.header d
  let s := (s.coresOf d).foldl (fun s c => s.invL1 c l) s
  ({ s with ctxs := s.ctxs.map fun (e : Nat × Ctx) =>
      if some e.1 != by_ && dieOf e.1 == d && e.2.watch.any (fun w => !w.spad && w.line == l)
      then (e.1, { e.2 with conflict := true }) else e }).prDel d l
/-- The same for the L1s of the home die, whose lines have no proxy. -/
def State.invHomeL1s (s : State) (by_ : Option Nat) (l : Nat) (except : Option Nat) : State :=
  let d := lineDie l
  let s := s.header d
  let s := (s.coresOf d).foldl (fun s c => if some c == except then s else s.invL1 c l) s
  s.conflictIf by_ l fun _ => true

/-! ## Links (R198) -/

/-- The ridge link of two dies. -/
def linkKey (a b : Nat) : Nat := 4 * min a b + max a b
/-- A message from die a to die b has crossed their link: the flit in hand, if any, has been delivered (R198; R343 event 16). -/
def State.crossed (s : State) (a b : Nat) : State :=
  if a = b then s
  else
    let k := sget .zero s.links (linkKey a b)
    ({ s with links := sput .zero s.links (linkKey a b) { k with replays := 0, sent := k.sent + 1 } }).bump 16 (128 * a) 1

/-! ## Steps at the home -/

/-- The owner's die writes its data back and shares at FULL; the entry becomes S (R194). -/
def State.recallOwner (s : State) (e : DirEnt) : State × DirEnt :=
  if !e.owned then (s, e)
  else
    let x := e.owner
    let s := ((s.crossed (lineDie e.line) x).crossed x (lineDie e.line)).header x
    let s := (s.coresOf x).foldl (fun s c => s.recallL1 c e.line) s
    let s := match s.prFind x e.line with
      | some p => (s.homeMerge e.line (allBytes p.data)).prPut x { p with st := .S }
      | none => s
    let e := { (e.add x).withFmt x 0 with st := .S }
    (s.dirPut e, e)
/-- A back-invalidation to the host, through die 0 (R5, R195, R197; R343 events 16 and 18). -/
def State.hostInv (s : State) (e : DirEnt) : State × DirEnt :=
  if e.has 4 then
    let e := e.drop 4
    ((((s.crossed (lineDie e.line) 0).dirPut e).bump 18 (128 * lineDie e.line) 1).crossed 0 (lineDie e.line), e)
  else (s, e)
/-- A back-invalidation of a die's copy crosses to it and is counted there (R343 events 16 and 18). -/
def State.invRemote (s : State) (by_ : Option Nat) (e : DirEnt) (d : Nat) : State :=
  (((s.crossed (lineDie e.line) d).bump 18 (128 * lineDie e.line) 1).invDie by_ d e.line).crossed d (lineDie e.line)
/-- Every remote copy goes to I: an owner writes back first (R195). -/
def State.dropRemote (s : State) (by_ : Option Nat) (e : DirEnt) : State × DirEnt :=
  let (s, e) := s.recallOwner e
  let s := (List.range 4).foldl (fun s d => if e.has d then s.invRemote by_ e d else s) s
  let e := { e with sharers := e.sharers &&& 0x10#5, fmt := 0 }
  let (s, e) := s.hostInv e
  let e := { e with st := .I }
  (s.dirPut e, e)
/-- Precision snoop (R194): each sharer but Y compares at its recorded format; the home die's L1s compare when LOCAL is set
and the store has not been on its tightrope. -/
def State.snoop (s : State) (e : DirEnt) (hf : BitVec 2) (y : Option Nat) (home : Bool) (offs : List Nat) (old new : Vec) :
    State × DirEnt :=
  let s := if e.loc && home then s.storeHeader (lineDie e.line) e.line hf offs old new else s
  let r := (List.range 4).foldl (fun (a : State × DirEnt) d =>
    if a.2.has d && some d != y && changedAt hf (a.2.fmtOf d) offs old new then
      let s := (a.1.crossed (lineDie e.line) d).crossed d (lineDie e.line)
      match s.prFind d e.line with
      | some p =>
        let s := s.prPut d { p with data := viewLine hf p.view new }
        (s.storeHeader d e.line hf offs old new, a.2)
      | none => (s, a.2.drop d)
    else a) (s, e)
  if y != some 4 && changedAt hf 0 offs old new then r.1.hostInv r.2 else r
/-- A presence probe on the home tightrope (R192). -/
def State.probe (s : State) (l : Nat) : State × Bool :=
  let d := lineDie l
  (s.header d, (s.coresOf d).any fun c => (s.l1Find c l).isSome)
/-- The entry that a new entry of the line's set displaces: of a full set the least recently used, one in I first (R195). -/
def State.dirVictim (s : State) (l : Nat) : Option DirEnt :=
  let set := s.dirSet l
  if set.length < 16 then none
  else match (set.filter fun e => e.st == .I).getLast? with
    | some e => some e
    | none => set.getLast?
/-- Room for an entry in the line's set; the dirty data of a host-homed line goes to the host (R195, R345). -/
def State.dirRoom (s : State) (by_ : Option Nat) (l : Nat) : State :=
    match s.dirVictim l with
    | some v => (((s.dropRemote by_ v).1).dirDel v.line).cxlClean v.line
    | none => s
/-- An entry for the line, allocated if there is none (R192, R195). -/
def State.dirAlloc (s : State) (by_ : Option Nat) (l : Nat) : State × DirEnt :=
  match s.dirFind l with
  | some e => (s, e)
  | none =>
    let (s, loc) := (s.dirRoom by_ l).probe l
    let e : DirEnt := ⟨l, .I, 0, 0, 0, loc, false, 0, 0⟩
    (s.dirPut e, e)
/-- The tag rule (R196): a request under another tag invalidates every copy under the old one. -/
def State.retag (s : State) (by_ : Option Nat) (e : DirEnt) (asid : BitVec 16) (va : VA) : State × DirEnt :=
  if e.tagged && (e.asid != asid || e.va != va) then
    let host := e.has 4
    let (s, e) := s.recallOwner e
    let s := (List.range 4).foldl (fun s d => if e.has d then s.invRemote by_ e d else s) s
    let s := s.invHomeL1s by_ e.line none
    let e := { e with st := if host then .S else .I, sharers := e.sharers &&& 0x10#5, fmt := 0, loc := false,
                      asid := asid, va := va }
    (s.dirPut e, e)
  else
    let e := { e with tagged := true, asid := asid, va := va }
    (s.dirPut e, e)

/-- L1s of the home die that hold the line in E or M are recalled by a request from outside it, which the home replays on its
tightrope (R187, R189). -/
def State.recallHome (s : State) (l : Nat) : State :=
  if s.cores.any fun c => c.1 / 32 == lineDie l && c.2.l1.any fun x => x.line == l && x.st != .S then
    (s.coresOf (lineDie l)).foldl (fun s c => s.recallL1 c l) (s.header (lineDie l))
  else s
/-- An owner supplies a read from die y and keeps the line at FULL (R194): at E it becomes a sharer, and what it has written comes to
the home; at M and O it stays the owner, in O. -/
def State.supply (s : State) (e : DirEnt) (y : Nat) : State × DirEnt :=
  let h := lineDie e.line
  let x := e.owner
  let s := (s.crossed h x).header x
  let s := ((s.coresOf x).foldl (fun s c => s.recallL1 c e.line) s).crossed x y
  let p := s.prFind x e.line
  let s := match p with
    | some p => (if e.st == .E && p.st == .M then (s.homeMerge e.line (allBytes p.data)).crossed x h else s).prPut x { p with st := .S }
    | none => s
  (s, if e.st == .E then { (e.add x).withFmt x 0 with st := .S } else { e with st := .O })
/-- A read from die y at view v (R193, R194): the proxy there holds the line at its recorded format. -/
def State.homeRead (s : State) (by_ : Option Nat) (l y : Nat) (t : Tag) (v : BitVec 3) : State :=
  let (s, e) := ((s.crossed y (lineDie l)).recallHome l).dirAlloc by_ l
  let (s, e) := s.retag by_ e t.asid t.va
  let supplied := e.owned
  let (s, e) := if e.owned then s.supply e y else (s, { e with st := .S })
  let f := if !e.has y || e.fmtOf y == v then v else 0
  let e := (e.add y).withFmt y f
  let s := if supplied then s.dirPut e else (s.dirPut e).crossed (lineDie l) y
  s.prPut y ⟨l, t.asid, t.va, .S, t.hf, f, true, 0, viewLine t.hf f (s.lineNow l)⟩
/-- A write-through from die y (R194): merged with precision snoops, or granted. `old` and `new` are the line before and after. -/
def State.homeWrite (s : State) (by_ : Option Nat) (l y : Nat) (t : Tag) (bs : List (Nat × Byte)) (old new : Vec) : State :=
  let (s, e) := ((s.crossed y (lineDie l)).recallHome l).dirAlloc by_ l
  let (s, e) := s.retag by_ e t.asid t.va
  let offs := bs.map (·.1)
  let alone := e.st == .I || (e.st == .S && e.sharers == (1#5 <<< y))
  if alone && !e.loc then
    let s := s.homeMerge l bs
    let e := { e with st := .M, owner := y, sharers := 1#5 <<< y, fmt := 0 }
    ((s.dirPut e).crossed (lineDie l) y).prPut y ⟨l, t.asid, t.va, .M, t.hf, 0, true, 0, new⟩
  else
    -- an owner in O sends the whole line, which the home takes without a recall
    let whole := e.st == .O && e.owner == y
    let (s, e) := if whole then (s, { (e.add y).withFmt y 0 with st := .S }) else s.recallOwner e
    let s := s.homeMerge l (if whole then allBytes new else bs)
    let (s, e) := s.snoop e t.hf (some y) true offs old new
    (s.crossed (lineDie l) y).dirPut { e with st := if e.st == .I then .I else .S }
/-- An ownership request from die y (R194): y's proxy holds the line at FULL in E. -/
def State.homeOwn (s : State) (by_ : Option Nat) (l y : Nat) (t : Tag) : State :=
  let (s, e) := ((s.crossed y (lineDie l)).recallHome l).dirAlloc by_ l
  let (s, e) := s.retag by_ e t.asid t.va
  let (s, e) := s.recallOwner e
  let s := if e.loc then s.invHomeL1s by_ l none else s
  let s := (List.range 4).foldl (fun s d => if e.has d && d != y then s.invRemote by_ e d else s) s
  let (s, e) := s.hostInv e
  let e := { e with st := .E, owner := y, sharers := 1#5 <<< y, fmt := 0, loc := false }
  ((s.dirPut e).crossed (lineDie l) y).prPut y ⟨l, t.asid, t.va, .E, t.hf, 0, true, 0, s.homeLine l⟩
/-- A read by an L1 of the home die. -/
def State.homeReadLocal (s : State) (by_ : Option Nat) (l : Nat) (t : Tag) : State :=
  match s.dirFind l with
  | none => s
  | some e =>
    let (s, e) := s.retag by_ e t.asid t.va
    let (s, e) := s.recallOwner e
    s.dirPut { e with loc := true }
/-- A store by a party of the home die, whose header its tightrope has carried; an L1's request sets LOCAL (R192). -/
def State.homeStore (s : State) (by_ : Option Nat) (l1 : Bool) (l : Nat) (t : Tag) (bs : List (Nat × Byte)) (old new : Vec) : State :=
  match s.dirFind l with
  | none => s.homeMerge l bs
  | some e =>
    let (s, e) := s.retag by_ e t.asid t.va
    let (s, e) := s.recallOwner e
    let s := s.homeMerge l bs
    let (s, e) := s.snoop e t.hf none false (bs.map (·.1)) old new
    s.dirPut { e with loc := e.loc || l1 }
/-- An atomic by an L1 of the home die: remote holders go to I. -/
def State.homeOwnLocal (s : State) (by_ : Option Nat) (l : Nat) (t : Tag) : State :=
  match s.dirFind l with
  | none => s
  | some e =>
    let (s, e) := s.retag by_ e t.asid t.va
    let (s, e) := s.dropRemote by_ e
    s.dirPut { e with loc := true }

/-! ## Tags of requests (R196) -/

/-- The home format under which the line's copies are held, RAW when there is none. -/
def State.copyHf (s : State) (l : Nat) : BitVec 2 :=
  match s.cores.findSome? fun c => c.2.l1.find? (·.line == l) with
  | some x => x.hf
  | none => match s.dies.findSome? fun d => d.2.proxies.find? (·.line == l) with
    | some x => x.hf
    | none => 3
/-- The tag a unit's physical write travels under: the one the line is held under, where there is one. -/
def State.lineTag (s : State) (l : Nat) : Tag :=
  match (s.dirFind l).filter (·.tagged) with
  | some e => ⟨e.asid, e.va, s.copyHf l⟩
  | none => match s.cores.findSome? fun c => c.2.l1.find? (·.line == l) with
    | some x => ⟨x.asid, x.va, s.copyHf l⟩
    | none => ⟨0, 0, s.copyHf l⟩
/-- An invalidation that the home broadcasts to its own L1s; it clears LOCAL (R192). -/
def State.clearHome (s : State) (by_ : Option Nat) (l : Nat) : State :=
  let s := s.invHomeL1s by_ l none
  match s.dirFind l with
  | some e => s.dirPut { e with loc := false }
  | none => s
/-- A line is held under one tag (log 45): before a request under another is served, every copy under the old one goes. -/
def State.synonym (s : State) (by_ : Option Nat) (l : Nat) (t : Tag) : State :=
  let s := match s.dirFind l with
    | some e => if e.tagged && (e.asid != t.asid || e.va != t.va) then (s.retag by_ e t.asid t.va).1 else s
    | none => s
  if s.cores.any fun c => c.1 / 32 == lineDie l && c.2.l1.any fun x => x.line == l && !x.tagged t.asid t.va then
    s.clearHome by_ l
  else s

/-! ## The L2 (R181, R191, R345) -/

/-- OWNER_EVICTION: the owning proxy writes back and its die's copies go (R194). -/
def State.evictOwner (s : State) (d l : Nat) : State :=
  match s.dirFind l with
  | none => s
  | some e =>
    if e.owned && e.owner == d then
      let shared := e.st == .O
      let (s, e) := s.recallOwner e
      let e := e.drop d
      let s := (s.coresOf d).foldl (fun s c => s.l1Del c l) s
      (s.prDel d l).dirPut { e with st := if shared then .S else .I }
    else s
/-- A proxy gives up its copy: an owner writes back, a sharer goes silently; the die's L1s hold nothing that it does not. -/
def State.dropProxy (s : State) (d l : Nat) : State :=
  match (s.dirFind l).filter fun e => e.owned && e.owner == d with
  | some _ => s.evictOwner d l
  | none => (((s.header d).coresOf d).foldl (fun s c => s.invL1 c l) (s.header d)).prDel d l
/-- Die 0 gives up its CXL.cache copy of a host line: the other dies' copies and its own L1s' go first. -/
def State.dropHostCopy (s : State) (l : Nat) : State :=
  let s := match s.dirFind l with
    | some e => ((s.dropRemote none e).1).dirDel l
    | none => s
  (s.invHomeL1s none l none).cxlDrop l
/-- An L2 slice gives up a line: a home line is as memory holds it, and leaves nothing to do. -/
def State.l2Evict (s : State) (d l : Nat) : State :=
  let s := s.updDie d fun k => { k with l2 := k.l2.filter (· != l) }
  if lineDie l ≠ d then s.dropProxy d l else if isHost l then s.dropHostCopy l else s
/-- The line that a use of line l displaces from its slice of die d, if one does. -/
def State.l2Victim (s : State) (d l : Nat) : Option Nat :=
  let mine := (l :: (s.die d).l2.filter (· != l)).filter fun x => x % 16 == l % 16
  if mine.length ≤ Config.l2Lines then none else mine.getLast?
/-- A line is used in the L2 slice of a die that serves it; beyond the slice's capacity the least recently used line goes
(R181, log 46). -/
def State.l2Use (s : State) (d l : Nat) : State :=
  let x := s.l2Victim d l
  let s := s.updDie d fun k => { k with l2 := l :: k.l2.filter (· != l) }
  let s := match x with
    | some x => s.l2Evict d x
    | none => s
  if lineDie l = d then s.cxlFill l else s
/-- A request of a die passes its proxy, where it has one, and the home. -/
def State.l2Pass (s : State) (d l : Nat) : State :=
  let s := s.l2Use (lineDie l) l
  if d = lineDie l then s else s.l2Use d l
/-- A die that a request has left without a copy gives back the place in its slice that the request took. -/
def State.l2Trim (s : State) (d l : Nat) : State :=
  if lineDie l = d || (s.prFind d l).isSome then s else s.updDie d fun k => { k with l2 := k.l2.filter (· != l) }

/-! ## Whole requests -/

/-- A read request from core c at view v (R186, R189 to R191): the L1 then holds the line at v. -/
def State.readRequest (s : State) (by_ : Option Nat) (c l : Nat) (t : Tag) (v : BitVec 3) (update : Bool) (prio : Nat) : State :=
  let d := c / 32
  let v := effView t.hf v
  let s := ((s.synonym by_ l t).l2Pass d l).header d
  let s := (s.coresOf d).foldl (fun s k => if k = c then s else s.recallL1 k l) s
  let s :=
    if lineDie l = d then s.homeReadLocal by_ l t
    else match s.prFind d l with
      | some p => if p.view == 0 || p.view == v then s else s.homeRead by_ l d t v
      | none => s.homeRead by_ l d t v
  s.l1Place c ⟨l, t.asid, t.va, .S, t.hf, v, update, prio, viewLine t.hf v (s.lineNow l)⟩
/-- Core c is to hold a line at view v: hit, upgrade or miss (R186); a copy under another tag serves nothing (R196). -/
def State.l1Fetch (s : State) (by_ : Option Nat) (c l : Nat) (t : Tag) (v : BitVec 3) (update : Bool) (prio : Nat) : State :=
  match (s.l1Find c l).filter (·.tagged t.asid t.va) with
  | some x => if x.view == effView t.hf v || x.view == 0 then s.l1Put c x else s.readRequest by_ c l t 0 update prio
  | none => s.readRequest by_ c l t (effView t.hf v) update prio
/-- A load of context n under view v, with its miss or upgrade counted (R343 events 5 and 6). -/
def State.l1Load (s : State) (n l : Nat) (t : Tag) (v : BitVec 3) (update : Bool) (prio : Nat) : State :=
  let s := match (s.l1Find (coreOf n) l).filter (·.tagged t.asid t.va) with
    | some x => if x.view == effView t.hf v || x.view == 0 then s else s.bump 6 n 1
    | none => s.bump 5 n 1
  s.l1Fetch (some n) (coreOf n) l t v update prio
/-- The L2 of die d is to hold a line at FULL: as its home, or in its proxy. -/
def State.l2Fetch (s : State) (by_ : Option Nat) (d l : Nat) (t : Tag) : State :=
  let s := (s.synonym by_ l t).l2Pass d l
  if lineDie l = d || (s.prFind d l).isSome then s else s.homeRead by_ l d t 0
/-- The store header, then the home or the proxy. -/
def State.storeOut (s : State) (by_ : Option Nat) (l1 : Bool) (d l : Nat) (t : Tag) (bs : List (Nat × Byte)) (offs : List Nat)
    (old new : Vec) : State :=
  let s := s.storeHeader d l t.hf offs old new
  if lineDie l = d then s.homeStore by_ l1 l t bs old new
  else match s.prFind d l with
    | some p =>
      if p.st == .S then
        (s.prPut d { p with data := viewLine t.hf p.view new }).homeWrite by_ l d t bs old new
      else s.prPut d { p with st := .M, data := new }
    | none => s.homeWrite by_ l d t bs old new
/-- The bytes of a write that a line keeps: a window byte beyond its size ignores writes (R248). -/
def State.kept (s : State) (l : Nat) (bs : List (Nat × Byte)) : List (Nat × Byte) := bs.filter fun b => (s.byteKey l b.1).isSome
/-- A store of bytes by a party of die d: from core c's L1, or from an engine when c is none (R189, R191, R194). -/
def State.storeLine (s : State) (by_ : Option Nat) (c : Option Nat) (d l : Nat) (t : Tag) (bs : List (Nat × Byte)) : State :=
  let bs := s.kept l bs
  let own := (c.bind fun k => s.l1Find k l).filter fun x => x.st != .S && x.tagged t.asid t.va
  let s := if own.isSome then s else (s.synonym by_ l t).l2Pass d l
  let old := s.lineNow l
  let new := mergeLine old bs
  let offs := bs.map (·.1)
  let s := s.conflictIf by_ l fun w => changedAt t.hf w.view offs old new
  match c, own with
  | some k, some x => s.l1Put k { x with st := .M, data := new }
  | _, _ => (s.storeOut by_ c.isSome d l t bs offs old new).l2Trim d l

/-- The request of R194 after its header. -/
def State.ownOut (s : State) (by_ : Option Nat) (c d l : Nat) (t : Tag) : State :=
  let s := ((s.synonym by_ l t).l2Pass d l).header d
  let s := (s.coresOf d).foldl (fun s k => if k = c then s.l1Del c l else s.invL1 k l) s
  let s := s.conflictIf by_ l fun _ => true
  let s :=
    if lineDie l = d then s.homeOwnLocal by_ l t
    else match s.prFind d l with
      | some p => if p.st == .S then s.homeOwn by_ l d t else s
      | none => s.homeOwn by_ l d t
  s.l1Place c ⟨l, t.asid, t.va, .E, t.hf, 0, false, 0, s.lineNow l⟩
/-- An ownership request of core c for an atomic: its L1 holds the line at FULL in E (R169, R189, R194). -/
def State.ownRequest (s : State) (by_ : Option Nat) (c l : Nat) (t : Tag) : State :=
  let d := c / 32
  match (s.l1Find c l).filter fun x => x.st != .S && x.tagged t.asid t.va with
  | some _ => s
  | none => s.ownOut by_ c d l t

/-- Copies of the lines of which `p` holds return to memory: owners write back, and entries and copies are dropped. Watchers of
the lines have a conflict (R205). -/
def State.flushLines (s : State) (p : Nat → Bool) : State :=
  let s := { s with ctxs := s.ctxs.map fun (e : Nat × Ctx) =>
    if e.2.watch.any fun w => !w.spad && p w.line then (e.1, { e.2 with conflict := true }) else e }
  let s := (s.cores.map (·.1)).foldl (fun s c =>
    (((s.core c).l1.map (·.line)).filter p).foldl (fun s l => s.invL1 c l) s) s
  let s := ((s.dir.flatMap (·.2)).filter fun e => p e.line).foldl (fun (s : State) e =>
    (((s.recallOwner e).1.hostInv e).1).dirDel e.line) s
  let s := ((s.cxl.map (·.1)).filter p).foldl (fun (s : State) l => s.cxlDrop l) s
  { s with dies := s.dies.map fun (d : Nat × DieSt) =>
      (d.1, { d.2 with proxies := d.2.proxies.filter (fun x => !p x.line), l2 := d.2.l2.filter fun l => !p l }) }

/-! ## Writes that meet a group in flight (R263) -/

/-- Whose write it is: a context's store, with the number of the first command after it, a command's, or neither. -/
structure Writer where
  ctx : Option Nat
  cmd : Option Nat
  before : Nat
/-- The host, or a manager of the part. -/
def Writer.unit : Writer := ⟨none, none, 0⟩
/-- A write of a line by a party (the host where `die` is none): it is held whole behind a group in flight, or performs as
`done` says. -/
def State.behind (s : State) (w : Writer) (die : Option Nat) (l : Nat) (t : Tag) (bs : List (Nat × Byte)) (done : State) : State :=
  if s.lineHeld l (bs.map (·.1)) then
    { s with heldWrites := s.heldWrites ++
        [⟨die, l, t.asid, t.va, t.hf, bs, w.ctx, w.cmd, w.before, s.groupsBefore l (bs.map (·.1))⟩] }
  else done
/-- A write of a line by a party of die d without an L1. -/
def State.lineStoreBy (s : State) (w : Writer) (d l : Nat) (t : Tag) (bs : List (Nat × Byte)) : State :=
  s.behind w (some d) l t bs (s.storeLine none none d l t bs)
def State.lineStore (s : State) (d l : Nat) (t : Tag) (bs : List (Nat × Byte)) : State := s.lineStoreBy .unit d l t bs

/-! ## What holds a line -/

/-- The copy of core c that serves an access under a tag and a view (R186). -/
def Copy.serves (x : Copy) (t : Tag) (v : BitVec 3) : Bool := x.tagged t.asid t.va && (x.view == 0 || x.view == effView t.hf v)
def State.l1Serves (s : State) (c : Option Nat) (l : Nat) (t : Tag) (v : BitVec 3) : Bool :=
  (c.bind fun k => s.l1Find k l).any (·.serves t v)
/-- The view that a read asks of the L2: FULL for an upgrade. -/
def State.wanted (s : State) (c : Option Nat) (l : Nat) (t : Tag) (v : BitVec 3) : BitVec 3 :=
  if (c.bind fun k => s.l1Find k l).any (·.tagged t.asid t.va) then 0 else v
/-- The proxy of die d serves a read. -/
def State.prServes (s : State) (d : Nat) (c : Option Nat) (l : Nat) (t : Tag) (v : BitVec 3) : Bool :=
  (s.prFind d l).any (·.serves t (s.wanted c l t v))
/-- Core c's L1, or the proxy of die d, holds the line exclusively. -/
def State.l1Owns (s : State) (c : Option Nat) (l : Nat) (t : Tag) : Bool :=
  (c.bind fun k => s.l1Find k l).any fun x => x.st != .S && x.tagged t.asid t.va
def State.prOwns (s : State) (d l : Nat) (t : Tag) : Bool := (s.prFind d l).any fun x => x.st != .S && x.tagged t.asid t.va
/-- A copy in E or M, or a directory owner, holds the line, and supplies what is read. -/
def State.ownedBy (s : State) (l : Nat) : Bool :=
  (s.cores.any fun c => c.2.l1.any fun x => x.line == l && x.st != .S) || (s.dirFind l).any (·.owned)
/-- A read, or a write, of a party of die d (of core c, where it has an L1) reaches no device. -/
def State.readCached (s : State) (d : Nat) (c : Option Nat) (l : Nat) (t : Tag) (v : BitVec 3) : Bool :=
  s.l1Serves c l t v || s.prServes d c l t v || s.ownedBy l
def State.writeCached (s : State) (d : Nat) (c : Option Nat) (l : Nat) (t : Tag) : Bool := s.l1Owns c l t || s.prOwns d l t

/-! ## Messages that a down link stops (R198) -/

def State.linkIsDown (s : State) (a b : Nat) : Bool := a != b && (sget .zero s.links (linkKey a b)).down
/-- A page's backing in host memory is reached from its die through die 0 (R5, R215). -/
def State.backDown (s : State) (l : Nat) : Bool :=
  !isWin l && !isHost l && decide (Config.hostKey ≤ s.backKey (l * 128)) && s.linkIsDown (lineDie l) 0
/-- A message of an entry's home to the owner, whose data its backing then takes, to a sharer or, through die 0, to the host (party 4),
of which `told` holds. -/
def State.tellDown (s : State) (e : DirEnt) (told : Nat → Bool) : Bool :=
  (e.owned && (s.linkIsDown (lineDie e.line) e.owner || s.backDown e.line)) ||
  (List.range 5).any fun x => e.has x && told x && s.linkIsDown (lineDie e.line) (x % 4)
/-- Giving up a line, an L2 slice of die d would wait on a message: an owner writes back; die 0 recalls a host-homed line. -/
def State.evictDown (s : State) (d l : Nat) : Bool :=
  match s.dirFind l with
  | none => false
  | some e => if lineDie l ≠ d then e.owned && e.owner == d && (s.linkIsDown d (lineDie l) || s.backDown l)
    else isHost l && s.tellDown e fun _ => true
/-- What a request of die d displaces: a line of its slices (R181), or a directory entry (R195). -/
def State.passDown (s : State) (d l : Nat) : Bool :=
  (s.l2Victim (lineDie l) l).any (s.evictDown (lineDie l)) || (d != lineDie l && (s.l2Victim d l).any (s.evictDown d))
def State.roomDown (s : State) (l : Nat) : Bool := (s.dirVictim l).any fun e => s.tellDown e fun _ => true
/-- A request of die d that its L1s and its proxy do not serve would wait on a message across a link that is down: to the home, from
the home to an owner or to the parties of which `told` holds, from an owner that supplies the reader, or for what it displaces. -/
def State.msgDown (s : State) (d l : Nat) (supply : Bool) (told : DirEnt → Nat → Bool) : Bool :=
  let h := lineDie l
  s.linkIsDown d h || s.backDown l ||
  match s.dirFind l with
  | none => d != h && s.roomDown l
  | some e => s.tellDown { e with owner := if e.owner = d then h else e.owner } (fun x => x != d && told e x) ||
      (e.owned && e.owner != d && supply && s.linkIsDown e.owner d)
/-- A return to memory of the lines of which `p` holds would need a message across a link that is down. -/
def State.flushDown (s : State) (p : Nat → Bool) : Bool := s.dir.any fun x => x.2.any fun e => p e.line && s.tellDown e fun _ => true
/-- The entry of a line is under another tag, and every copy goes first (R196). -/
def DirEnt.foreign (e : DirEnt) (t : Tag) (x : Nat) : Bool := x != 4 && e.tagged && (e.asid != t.asid || e.va != t.va)
/-- A read at a view, of core c or of the die's engines. -/
def State.readDown (s : State) (d : Nat) (c : Option Nat) (l : Nat) (t : Tag) (v : BitVec 3) : Bool :=
  !s.l1Serves c l t v && (s.passDown d l || (!s.prServes d c l t v && s.msgDown d l true fun e x => e.foreign t x))
/-- A write of core c's bytes, or of an engine's; without the bytes, of an ownership request. -/
def State.writeDown (s : State) (d : Nat) (c : Option Nat) (l : Nat) (t : Tag) (bs : Option (List (Nat × Byte))) : Bool :=
  !s.l1Owns c l t && (s.passDown d l || (!s.prOwns d l t && s.msgDown d l false fun e x => e.foreign t x || match bs with
    | none => true
    | some bs => changedAt t.hf (e.fmtOf x) (bs.map (·.1)) (s.lineNow l) (mergeLine (s.lineNow l) (s.kept l bs))))

end Sys2Proof.Machine
end

