-- ==== Sys2Proof/Machine/Translate.lean ====
section
/-! DEFINITION. Translation at the home die (R305 to R311) and what an access reaches. -/

namespace Sys2Proof.Machine

/-- The kinds of access a translation checks (R308). -/
inductive Acc where
  | read | write | fetch
  deriving DecidableEq, Repr
/-- The ACCESS bits of a range record (R321). -/
def Acc.bits : Acc → BitVec 3
  | .read => 1 | .write => 2 | .fetch => 4

/-- A leaf a walk has reached: its entry, the entry's address, the page's first VA offset and size in bits, and the lines of
page table the walk read. -/
structure Leaf where
  pte : Word64
  addr : Nat
  base : Nat
  size : Nat
  lines : List Nat
  /-- The table entries above the leaf, by address. -/
  path : List (Nat × Word64)
  deriving DecidableEq, Repr

/-- Eight bytes of processing memory as the part's parties see them. -/
def State.word64 (s : State) (d pa : Nat) : Word64 :=
  (s.lineNow (Config.dieKey d pa / 128)).extractLsb' (8 * (pa % 128)) 64
/-- A table read that the devices cannot make: its data is uncorrectable, lies in a unit marked bad, or is not delivered (R265, R309). -/
def State.tableUE (s : State) (d pa : Nat) : Bool :=
  (s.locCause (Config.dieKey d pa) true true (s.ownedBy (Config.dieKey d pa / 128))).isSome
/-- Index bits [hi:lo] of each level of R307, and the size in bits a leaf there maps. -/
def levelBits (n : Nat) : Nat × Nat :=
  match n with
  | 0 => (47, 41) | 1 => (40, 32) | 2 => (31, 27) | 3 => (26, 21) | _ => (20, 16)
def inPM (pa : Nat) : Bool := decide (pa < Config.pmEnd)
def inReserved (pa : Nat) : Bool := decide (Config.rsvBase ≤ pa) && decide (pa < Config.rsvBase + Config.rsvSize)

/-- The checks of a valid leaf (R308, R309). -/
def leafCheck (e : Word64) (size : Nat) (host : Bool) (off : Nat) (a : Acc) : Option Nat :=
  let win := e.getLsbD 8
  let pa := fld e 16 36 * 65536
  if fld e 9 7 ≠ 0 || fld e 58 6 ≠ 0 || (!win && fld e 52 6 ≠ 0) || (!win && pa % 2 ^ size ≠ 0) then some 77
  else if a == .write && !e.getLsbD 2 then some 73
  else if a == .fetch && !e.getLsbD 3 then some 74
  else if win || host then none
  else if 2 ^ 48 ≤ pa then some 78
  else if Config.regBase ≤ pa ∧ pa < Config.regBase + Config.regSize then
    if pa + off % 2 ^ size < Config.regBase + Config.doorbellOff ∨ pa < Config.regBase + Config.doorbellOff then some 78 else none
  else if !inPM (pa + 2 ^ size - 1) then some 78
  else if inReserved pa || (decide (pa ≤ Config.rsvBase) && decide (Config.rsvBase < pa + 2 ^ size) && inReserved (pa + off % 2 ^ size))
  then some 78
  else none

/-- The slice that serves a VA (R311). -/
def sliceOf (va : VA) : Nat := fld va 7 4
/-- A table entry in the walk cache of a slice (R311). -/
def State.walkHit (s : State) (d slice addr : Nat) : Option Word64 :=
  ((s.die d).walks.find? fun w => w.slice == slice && w.addr == addr).map (·.value)
/-- A walk by a slice from the table at `tbl`, level n, with fuel for the five levels (R307, R308). A table on a page that has moved to
host memory is read through die 0 (R198, R215). -/
def State.walkFrom (s : State) (d slice : Nat) (host : Bool) (off : Nat) (a : Acc) :
    (fuel : Nat) → (n tbl : Nat) → (seen : List Nat) → (path : List (Nat × Word64)) → Except Nat Leaf
  | 0, _, _, _, _ => .error 77
  | fuel + 1, n, tbl, seen, path =>
    let hl := levelBits n
    let addr := tbl + 8 * bits off hl.1 hl.2
    let ln := Config.dieKey d addr / 128
    let held := s.walkHit d slice addr
    if held.isNone && s.backDown ln then .error 256
    else if held.isNone && s.tableUE d addr then .error 79
    else
      let e := held.getD (s.word64 d addr)
      if !e.getLsbD 0 then .error 72
      else if e.getLsbD 1 then
        if n = 0 then .error 77
        else match leafCheck e hl.2 host off a with
          | some c => .error c
          | none => .ok ⟨e, addr, off / 2 ^ hl.2 * 2 ^ hl.2, hl.2, ln :: seen, path⟩
      else if n = 4 then .error 77
      else
        let next := fld e 8 44 * 256
        let nl := levelBits (n + 1)
        let size := 8 * 2 ^ (nl.1 + 1 - nl.2)
        if fld e 2 6 ≠ 0 || fld e 52 12 ≠ 0 || next % size ≠ 0 || !inPM (next + size - 1) then .error 77
        else s.walkFrom d slice host off a fuel (n + 1) next (ln :: seen) ((addr, e) :: path)

/-- The walk for an access to a VA, from the ASID table of its translating die (R305, R306). -/
def State.walk (s : State) (asid : BitVec 16) (va : VA) (a : Acc) : Except Nat Leaf :=
  let host := vaHome va == 8
  let d := if host then 0 else vaHome va
  let addr := Config.rsvBase + 16 * asid.toNat + (if host then 8 else 0)
  let e : Word64 := BitVec.ofNat 64 (leNat (rdBytes s.mem (Config.dieKey d addr) 8))
  if s.tableUE d addr then .error 79
  else if !e.getLsbD 0 then .error 76
  else if fld e 1 9 ≠ 0 || fld e 48 16 ≠ 0 then .error 77
  else s.walkFrom d (sliceOf va) host (fld va 0 48) a 5 0 (fld e 10 38 * 1024) [] []

/-- What an address reaches: a line and the page's home format, or an offset of a die's register window (R331). -/
structure Reach where
  line : Nat
  hf : BitVec 2
  win : Bool
  reg : Option (Nat × Nat)
  deriving DecidableEq, Repr

/-- A translation held by the slice that serves the access; one with D clear does not serve a write (R311). -/
def State.tlbFind (s : State) (asid : BitVec 16) (va : VA) (a : Acc) : Option Tlb :=
  let host := vaHome va == 8
  let d := if host then 0 else vaHome va
  s.tlb.find? fun t => t.die == d && t.slice == sliceOf va && t.asid == asid &&
    decide (t.base = (vaHome va * 2 ^ 68 + fld va 0 48 / 2 ^ t.bits * 2 ^ t.bits)) &&
    (a != .write || (t.leaf.getLsbD 2 && t.leaf.getLsbD 5)) && (a != .fetch || t.leaf.getLsbD 3)
/-- The leaf entry and page size of an access: from a held translation or by a walk. -/
def State.leafOf (s : State) (asid : BitVec 16) (va : VA) (a : Acc) : Except Nat (Word64 × Nat) :=
  match s.tlbFind asid va a with
  | some t => .ok (t.leaf, t.bits)
  | none => match s.walk asid va a with
    | .ok f => .ok (f.pte, f.size)
    | .error c => .error c

/-- The place an access is translated to, or the cause of its fault (R249, R305 to R309). -/
def State.place (s : State) (asid : BitVec 16) (va : VA) (a : Acc) : Except Nat Reach :=
  match s.leafOf asid va a with
  | .error c => .error c
  | .ok (e, size) =>
    let hf : BitVec 2 := e.extractLsb' 6 2
    let d := if vaHome va = 8 then 0 else vaHome va
    let pa := fld e 16 36 * 65536 + fld va 0 48 % 2 ^ size
    if e.getLsbD 8 then
      let ls := fld e 52 6
      let lay := s.layout d ls
      let o := (fld va 0 72 : Int) - (lrWbase lay.record).toNat
      if !lay.valid || o < 0 then .error 193
      else .ok ⟨winLine d ls (o.toNat / 128 * 128), hf, true, none⟩
    else if vaHome va = 8 then .ok ⟨(Config.hostKey + pa) / 128, hf, false, none⟩
    else if Config.regBase ≤ pa then .ok ⟨0, hf, false, some (d, pa - Config.regBase)⟩
    else if inReserved pa then .error 78
    else .ok ⟨Config.dieKey d pa / 128, hf, false, none⟩
/-- The tag of an access (R196). -/
def tagOf (asid : BitVec 16) (va : VA) (r : Reach) : Tag := ⟨asid, BitVec.ofNat 72 (va.toNat / 128 * 128), r.hf⟩

/-- Translations go, and the checks of gated stores that they served are void (R311, R314). -/
def State.tlbForget (s : State) (p : Tlb → Bool) : State :=
  let gone := s.tlb.filter p
  if gone.isEmpty then s
  else
    let hit (g : GateEnt) : Bool := !g.spad && gone.any fun t => t.asid == g.asid &&
      decide (t.base = (vaHome g.va * 2 ^ 68 + fld g.va 0 48 / 2 ^ t.bits * 2 ^ t.bits))
    { s with tlb := s.tlb.filter fun t => !p t,
             ctxs := s.ctxs.map fun (e : Nat × Ctx) =>
               (e.1, { e.2 with gate := e.2.gate.map fun g => if hit g then { g with checked := false } else g }) }
/-- Every slice of a sharer record drops what it has read from the record's line, and the record goes (R311). -/
def State.shareDrop (s : State) (r : PtShare) : State :=
  let d := lineDie r.line
  let s := s.updDie d fun k => { k with
    shares := k.shares.filter fun x => x.line != r.line
    walks := k.walks.filter fun w => !(r.slices.getLsbD w.slice && Config.dieKey d w.addr / 128 == r.line) }
  s.tlbForget fun t => t.die == d && r.slices.getLsbD t.slice && t.lines.contains r.line
/-- A write to a page-table line by any party but the walker shoots down what slices hold from it. -/
def State.shootdown (s : State) (l : Nat) : State :=
  match (s.die (lineDie l)).shares.find? (·.line == l) with
  | some r => s.shareDrop r
  | none => s
/-- A slice has read a page-table line: its home slice notes it, and gives up its least recent record beyond its capacity. -/
def State.shareNote (s : State) (d slice l : Nat) : State :=
  let old := match (s.die d).shares.find? (·.line == l) with | some r => r.slices | none => 0
  let s := s.updDie d fun k => { k with shares := ⟨l, old ||| (1#16 <<< slice)⟩ :: k.shares.filter fun x => x.line != l }
  let mine := (s.die d).shares.filter fun x => x.line % 16 == l % 16
  if mine.length ≤ Config.ptShares then s else match mine.getLast? with
    | some r => s.shareDrop r
    | none => s
/-- Every translation of an ASID on a die is dropped, or of every ASID (R333). -/
def State.tlbDrop (s : State) (d : Nat) (p : BitVec 16 → Bool) : State :=
  { s with tlb := s.tlb.filter fun t => !(t.die == d && p t.asid),
           dies := sput .zero s.dies d { s.die d with walks := [] },
           ctxs := s.ctxs.map fun (e : Nat × Ctx) =>
             (e.1, { e.2 with gate := e.2.gate.map fun g =>
               if (if vaHome g.va = 8 then 0 else vaHome g.va) = d && p g.asid then { g with checked := false } else g }) }

/-- The set of a slice's TLB in which a translation stands: the low bits of its page number (log 8). -/
def Tlb.setNo (t : Tlb) : Nat := t.base % 2 ^ 68 / 2 ^ t.bits % Config.tlbSets
/-- The slice's walk cache takes the table entries of a walk, most recent first (R311, log 8). -/
def State.walkNote (s : State) (d slice : Nat) (f : Leaf) : State :=
  s.updDie d fun k =>
    let new : List WalkEnt := f.path.map fun p => ⟨slice, p.1, p.2⟩
    let rest := k.walks.filter fun w => !new.any fun n => n.slice == w.slice && n.addr == w.addr
    let all := new ++ rest
    let gone := (all.filter (·.slice == slice)).drop Config.walkEntries
    { k with walks := all.filter fun w => !gone.contains w }
/-- A leaf with the walker's marks for an access (R310). -/
def Leaf.marked (f : Leaf) (a : Acc) : Word64 := f.pte ||| 0x10 ||| (if a == .write then 0x20 else 0)
/-- The bytes of a marked leaf, by their offsets in the line. -/
def Leaf.markBytes (f : Leaf) (a : Acc) : List (Nat × Byte) :=
  (List.range 8).map fun i => (f.addr % 128 + i, (f.marked a).extractLsb' (8 * i) 8)
/-- The marks of an access need a message across a link that is down (R198). -/
def State.markDown (s : State) (asid : BitVec 16) (va : VA) (a : Acc) : Bool :=
  match s.tlbFind asid va a with
  | some _ => false
  | none => match s.walk asid va a with
    | .error _ => false
    | .ok f =>
      let d := if vaHome va = 8 then 0 else vaHome va
      let l := Config.dieKey d f.addr / 128
      decide (f.marked a ≠ f.pte) && s.writeDown d none l (s.lineTag l) (some (f.markBytes a))
/-- The walker's marks (R310): A, and D on a write, set by a compare-and-swap that merges at the home as any write does; then
the slice holds the translation (R311, log 8). -/
def State.translate (s : State) (asid : BitVec 16) (va : VA) (a : Acc) : State :=
  match s.tlbFind asid va a with
  | some _ => s
  | none =>
    match s.walk asid va a with
    | .error _ => s
    | .ok f =>
      if s.markDown asid va a then s else
      let d := if vaHome va = 8 then 0 else vaHome va
      let e := f.marked a
      let l := Config.dieKey d f.addr / 128
      let s := if e = f.pte then s else s.lineStore d l (s.lineTag l) (f.markBytes a)
      let t : Tlb := ⟨d, sliceOf va, asid, vaHome va * 2 ^ 68 + f.base, f.size, e, f.lines⟩
      let rest := s.tlb.filter fun x => !(x.die == t.die && x.slice == t.slice && x.asid == t.asid && x.base == t.base)
      let mine := rest.filter fun x => x.die == t.die && x.slice == t.slice && x.setNo == t.setNo
      let rest := if mine.length < Config.tlbWays then rest
        else match mine.getLast? with | some x => rest.filter (· != x) | none => rest
      f.lines.foldl (fun s x => s.shareNote d t.slice x) { s.walkNote d t.slice f with tlb := t :: rest }

/-- The ridge link between a party's die and the home of an address is down (R198). -/
def State.linkDown (s : State) (d : Nat) (va : VA) : Bool :=
  let h := if vaHome va = 8 then 0 else vaHome va
  s.linkIsDown d h
/-- The walk for an access of die d leaves its marks, where the home of the address can be reached (R198, R310). -/
def State.translateFor (s : State) (d : Nat) (asid : BitVec 16) (va : VA) (a : Acc) : State :=
  if s.linkDown d va then s else s.translate asid va a
/-- An access of die d (and of core c's L1, where there is one) at a view would wait on a message across a link that is down (R198);
an address that is not translated reaches no further than its home. -/
def State.accDown (s : State) (d : Nat) (c : Option Nat) (asid : BitVec 16) (va : VA) (a : Acc) (v : BitVec 3) : Bool :=
  match s.place asid va a with
  | .error _ => s.linkDown d va
  | .ok r =>
    if r.reg.isSome then s.linkDown d va || s.markDown asid va a
    else match a with
      | .write => s.writeDown d c r.line (tagOf asid va r) (some []) || (!s.l1Owns c r.line (tagOf asid va r) && s.markDown asid va a)
      | _ => s.readDown d c r.line (tagOf asid va r) v || (!s.l1Serves c r.line (tagOf asid va r) v && s.markDown asid va a)
/-- The access reaches no device: a cache serves it (R265). -/
def State.accCached (s : State) (d : Nat) (c : Option Nat) (l : Nat) (t : Tag) (a : Acc) (v : BitVec 3) : Bool :=
  match a with
  | .write => s.writeCached d c l t
  | _ => s.readCached d c l t v
/-- What an access of die d (of core c's L1, where there is one) at a view reaches, or the cause of its fault: the links', the
translation's or the devices' (R198, R250, R265). -/
def State.access (s : State) (d : Nat) (c : Option Nat) (asid : BitVec 16) (va : VA) (a : Acc) (v : BitVec 3) : Except Nat Reach :=
  if s.accDown d c asid va a v then .error 256
  else match s.place asid va a with
    | .error e => .error e
    | .ok r =>
      if r.reg.isSome then .ok r
      else match s.lineCause r.line (a != .write) (s.accCached d c r.line (tagOf asid va r) a v) with
        | some e => .error e
        | none => .ok r

/-- How a cause of an access is delivered (R317, R328): F goes to the batcher, E traps at the checkpoint. -/
def isF (c : Nat) : Bool := c == 72 || c == 73 || c == 74 || c == 76 || c == 77 || c == 78 || c == 193

end Sys2Proof.Machine
end

