-- ==== Sys2Proof/Machine/Rings.lean ====
section
/-! DEFINITION. Scratchpad banks with their comparators (R34, R179), error records (R324), the doorbell (R23, R332) and the
fault batcher (R320 to R323): what stores, traps and engines share. -/

namespace Sys2Proof.Machine

/-! ## Scratchpad -/

/-- The physical offset of a logical scratchpad offset: inside a skew entry's tile, rotated by row (R179). -/
def skewOff (es : List Skew) (off : Nat) : Nat :=
  match es.find? fun e => decide (e.offset ≤ off) && decide (off < e.offset + e.rows * e.rb) with
  | some e =>
    let l := off - e.offset
    let row := l / e.rb
    e.offset + row * e.rb + (l % e.rb + 4 * row) % e.rb
  | none => off
/-- The key of a scratchpad byte of cluster k. -/
def State.spadKey (s : State) (k off : Nat) : Nat := k * 2 ^ 22 + skewOff (sget [] s.skews k) (off % 2 ^ 22)
def State.spadByte (s : State) (k off : Nat) : Byte := rdByte s.spad (s.spadKey k off)
def State.spadBytes (s : State) (k off n : Nat) : List Byte := (List.range n).map fun i => s.spadByte k (off + i)
/-- A comparator counts the bytes of one write that fall in its range (R34): the setting after it, and whether it fires. -/
def Cmp.count_ (c : Cmp) (clk : Nat) (offs : List Nat) : Cmp × Bool :=
  if !c.on || decide (clk < c.since) then (c, false)
  else
    let n := c.count + (offs.filter fun o => decide (c.lo ≤ o) && decide (o < c.lo + c.len)).length
    if n < c.len then ({ c with count := n }, false)
    else if c.rep then ({ c with count := n - c.len }, true)
    else ({ c with count := 0, on := false }, true)
/-- A token takes its place behind those of earlier clk and behind those of its own clk and a lower index (R34). -/
def tokenPut (t : Token) : List Token → List Token
  | [] => [t]
  | x :: r => if x.pushed == t.pushed && decide (t.cmp < x.cmp) then t :: x :: r else x :: tokenPut t r
/-- Push a token; of the tokens of one clk those that come last and find the queue full are dropped, and the overflow bit is
set (R34). -/
def CoreSt.push (k : CoreSt) (t : Token) : CoreSt :=
  if k.wakeQ.length < 16 then { k with wakeQ := tokenPut t k.wakeQ }
  else { k with wakeQ := (tokenPut t k.wakeQ).take 16, overflow := true }
/-- One core's comparators see a write of clk `clk`, in index order. -/
def CoreSt.sees (k : CoreSt) (clk : Nat) (offs : List Nat) : CoreSt :=
  (List.range 8).foldl (fun k i =>
    let c := sget .zero k.cmps i
    let r := c.count_ clk offs
    let k := { k with cmps := sput .zero k.cmps i r.1 }
    if r.2 then k.push ⟨c.ctx, i, c.token, clk⟩ else k) k
/-- A write of bytes at a cluster's banks, at logical offsets, by a context or another party: watchers of the bytes have a
conflict (R205) and the comparators of the cluster's cores count (R34). -/
def State.spadWrite (s : State) (by_ : Option Nat) (k : Nat) (bs : List (Nat × Byte)) : State :=
  let keys := bs.map fun b => s.spadKey k b.1
  let s := { s with
    spad := bs.foldl (fun (m : List Host.Cell) (b : Nat × Byte) => wrByte m (s.spadKey k b.1) b.2) s.spad,
    ctxs := s.ctxs.map fun (e : Nat × Ctx) =>
      if some e.1 != by_ && e.2.watch.any (fun w => w.spad && w.offs.any fun o => keys.contains o)
      then (e.1, { e.2 with conflict := true }) else e }
  if s.cores.any fun c => c.1 / 4 == k && !c.2.cmps.isEmpty then
    (List.range 4).foldl (fun s i => s.updCore (4 * k + i) fun c => c.sees s.clk (bs.map (·.1))) s
  else s
/-- Consecutive bytes from an offset. -/
def offsetBytes (o : Nat) (bs : List Byte) : List (Nat × Byte) := bs.zipIdx.map fun b => (o + b.2, b.1)
/-- The same, written line by line, so that no write at a bank exceeds 128 bytes (R34). -/
def State.spadPut (s : State) (by_ : Option Nat) (k : Nat) (bs : List (Nat × Byte)) : State :=
  let ls := (bs.map fun b => b.1 / 128).dedup
  ls.foldl (fun s l => s.spadWrite by_ k (bs.filter fun b => b.1 / 128 == l)) s

/-! ## Barrier objects (R35, R36) -/

structure Barrier where
  count : Int
  phase : Nat
  exp : Bool
  deriving DecidableEq, Repr
def State.barrier (s : State) (k off : Nat) : Barrier :=
  let x := leNat (s.spadBytes k off 16)
  ⟨sx 32 x, bits x 47 32, bit x 48⟩
def State.putBarrier (s : State) (by_ : Option Nat) (k off : Nat) (b : Barrier) : State :=
  s.spadWrite by_ k (offsetBytes off (toLE 16 (wrap 32 b.count + 2 ^ 32 * b.phase + 2 ^ 48 * boolN b.exp)))
/-- The completion check after an update. -/
def Barrier.settle (b : Barrier) : Barrier :=
  if b.exp && b.count == 0 then { b with phase := (b.phase + 1) % 65536, exp := false } else b
def Barrier.inRange (b : Barrier) : Bool := decide (-(2 ^ 31 : Int) ≤ b.count) && decide (b.count < 2 ^ 31)
def Barrier.arrive (b : Barrier) (n : Nat) : Barrier := { b with count := b.count - n }
def Barrier.expect (b : Barrier) (n : Nat) : Barrier := { b with count := b.count + n, exp := true }

/-! ## Stores by the part's own units -/

/-- Bytes at consecutive keys, by line: the line, and its bytes by offset. -/
def lineParts (key : Nat) (bs : List Byte) : List (Nat × List (Nat × Byte)) :=
  let cells := offsetBytes key bs
  (cells.map fun c => c.1 / 128).dedup.map fun l => (l, (cells.filter fun c => c.1 / 128 == l).map fun c => (c.1 % 128, c.2))
/-- A store of a unit of die d needs a message across a link that is down (R198). -/
def State.unitDown (s : State) (d key : Nat) (bs : List Byte) : Bool :=
  (lineParts key bs).any fun x => s.writeDown d none x.1 (s.lineTag x.1) (some x.2)
/-- Bytes at a memory key, stored by a unit of die d; into host memory they are posted to the host (R334). A store that cannot be made
(R198) is lost (log 47). -/
def State.unitWrite (s : State) (d key : Nat) (bs : List Byte) : State :=
  if s.unitDown d key bs then s
  else (lineParts key bs).foldl (fun s x => ((s.lineStore d x.1 (s.lineTag x.1) x.2).shootdown x.1).cxlClean x.1) s
/-- A read of a line by a unit of die d needs a message across a link that is down (R198). -/
def State.unitReadDown (s : State) (d l : Nat) : Bool := s.msgDown d l true fun _ _ => false
/-- Bytes at a memory key, as the part's parties see them. -/
def State.unitRead (s : State) (key n : Nat) : List Byte :=
  (List.range n).map fun i => lineByte (s.lineNow ((key + i) / 128)) ((key + i) % 128)

/-! ## Rings in host memory (R324, R334) -/

def ringSize (r : Word64) : Nat := 2 ^ (fld r 52 4 + 6)
def ringBase (r : Word64) : Nat := fld r 12 40 * 4096
def State.msiRaise (s : State) (v : Nat) : State := { s with msi := sput 0 s.msi v (sget 0 s.msi v + 1) }
/-- Where record i of a ring lies in host memory. -/
def ringKey (r : Word64) (i : Word64) : Nat := Config.hostKey + ringBase r + 32 * (i.toNat % ringSize r)
/-- Die d cannot post a record at a key: a link that the record or its snoops must cross is down (R5, R198, log 47). -/
def State.postDown (s : State) (d key r : Nat) : Bool := s.linkIsDown d 0 || s.unitDown 0 key (toLE 32 r)
/-- Post a 32-byte record to a die's error ring, or drop and count it (R334); a die that cannot reach the ring drops it too (log 47). -/
def State.postError (s : State) (d : Nat) (r : Nat) : State :=
  let k := s.die d
  if k.ering.getLsbD 63 && decide (((k.erwr - k.errd).toNat) < ringSize k.ering) && !s.postDown d (ringKey k.ering k.erwr) r then
    let s := (s.crossed d 0).unitWrite 0 (ringKey k.ering k.erwr) (toLE 32 r)
    (s.updDie d fun k => { k with erwr := k.erwr + 1 }).msiRaise (3 * d + 1)
  else s.updDie d fun k => { k with erdrop := if k.erdrop.toNat < 2 ^ 32 - 1 then k.erdrop + 1 else k.erdrop }
/-- The fields every error record shares (R324). -/
def errRec (cause tag ctx cid : Nat) : Nat :=
  cause + 2 ^ 64 * tag + 2 ^ 128 * (ctx % 128) + 2 ^ 135 * (cid % 256)
/-- An error record for a context's unit or command. -/
def State.postCtxError (s : State) (n cid cause : Nat) : State :=
  s.postError (dieOf n) (errRec cause (s.launchOf n).tag n cid)

/-- A device location, as error records name it (R266). -/
structure DevLoc where
  bge : Nat
  bank : Nat
  row : Nat
  col : Nat
  deriving DecidableEq, Repr
/-- A processing-memory error record but for its TAG, CTX and CID (R266). -/
def pmRecord (cause : Nat) (l : DevLoc) (ls : Nat) (linear : Bool) (arow : Option Nat) (rewrite : Bool) : Nat :=
  cause + 2 ^ 9 * l.bge + 2 ^ 16 * l.bank + 2 ^ 18 * l.row + 2 ^ 35 * l.col + 2 ^ 41 * ls + 2 ^ 47 * boolN linear +
    (match arow with | some r => 2 ^ 48 * r + 2 ^ 54 | none => 0) + 2 ^ 55 * boolN rewrite
/-- TAG, CTX and CID of a context's record; zero for the host's accesses. -/
def State.recWho (s : State) (n : Option Nat) (cid : Nat) : Nat :=
  match n with
  | some n => errRec 0 (s.launchOf n).tag n cid
  | none => 0
/-- The layout slot of a line, 0 for a line of no window. -/
def lslotOf (l : Nat) : Nat := if isWin l then winSlot l else 0
/-- Device faults that have been met and do not lie in stored bits are gone. -/
def State.metCells (s : State) (cs : List BadCell) : State :=
  { s with devFaults := s.devFaults.filter fun c => c.persist || !cs.contains c }
/-- PMERR of a context records a cause (R262). -/
def State.pmerrNote (s : State) (n cause : Nat) : State :=
  s.updCtx n fun c =>
    let w := if fld c.pmerr 0 9 = 0 then setFld c.pmerr 0 9 cause else c.pmerr
    { c with pmerr := setFld w 16 16 (min 65535 (fld w 16 16 + 1)) }
/-- The errors that an ordinary read of a line, where no cache serves it, meets corrected. -/
def State.corrected (s : State) (l : Nat) (cached : Bool) : List BadCell :=
  if s.devFaults.isEmpty || cached then [] else s.faultsIn l .corrected
/-- It reports them (R265). -/
def State.noteRead (s : State) (n : Option Nat) (cid l : Nat) (cached : Bool) : State :=
  let cs := s.corrected l cached
  (cs.foldl (fun (s : State) c => s.postError (lineDie l)
    (pmRecord 205 ⟨c.bge, c.bank, c.row, c.col⟩ (lslotOf l) true none false + s.recWho n cid)) s).metCells cs
/-- The first of the cells of each 2 KiB unit. -/
def unitsOf (cs : List BadCell) : List BadCell :=
  cs.foldl (fun a c => if a.any fun x => x.bge == c.bge && x.bank == c.bank && x.row == c.row then a else a ++ [c]) []
/-- Step 5 of R265: an ordinary read through a window that meets uncorrectable data marks the unit bad, in a table of 256
units for each die and beyond it the whole slot, and asks the host to rewrite it. -/
def State.markBad (s : State) (n : Option Nat) (cid l : Nat) (c : BadCell) : State :=
  let d := lineDie l
  let full := decide (256 ≤ (s.badUnits.filter fun u => u.die == d).length)
  let s := if full then s.updDie d fun k => { k with layouts := sput .zero k.layouts (winSlot l) { sget .zero k.layouts (winSlot l) with bad := true } }
    else { s with badUnits := s.badUnits ++ [⟨d, c.bge, c.bank, c.row, 0⟩] }
  s.postError d (pmRecord 203 ⟨c.bge, c.bank, c.row, c.col⟩ (winSlot l) true none true + s.recWho n cid)
/-- A cell of each unit that an access which meets uncorrectable data through a window marks bad. -/
def State.newlyBad (s : State) (asid : BitVec 16) (va : VA) (a : Acc) (cause : Nat) : List BadCell :=
  match s.place asid va a with
  | .error _ => []
  | .ok r => if r.win && cause == 202 then unitsOf (s.faultsIn r.line .ecc) else []
/-- What an ordinary access that meets a device fault leaves behind. -/
def State.noteFault (s : State) (n : Option Nat) (cid : Nat) (asid : BitVec 16) (va : VA) (a : Acc) (cause : Nat) : State :=
  if cause = 202 ∨ cause = 204 then
    match s.place asid va a with
    | .error _ => s
    | .ok r => ((s.newlyBad asid va a cause).foldl (fun (s : State) c => s.markBad n cid r.line c) s).metCells
        (s.faultsIn r.line (if cause = 202 then .ecc else .link))
  else s

/-! ## Doorbells (R22, R23, R332) -/

/-- Ring capacity in records. -/
def Queue.cap (q : Queue) : Nat := 16 * 2 ^ fld q.desc 56 4
def Queue.asid (q : Queue) : BitVec 16 := q.desc.extractLsb' 128 16
/-- EN of a bound queue: the part has not disabled it, and its descriptor, where a link that is down does not keep it away, still says
so (log 15, log 47). -/
def State.queueOn (s : State) (q : Nat) : Bool :=
  let u := s.queue q
  let l := Config.dieKey u.die u.descPA / 128
  u.enabled && !s.unitReadDown u.die l && (lineByte (s.lineNow l) (u.descPA % 128 + 7)).getLsbD 7
/-- A write to queue q's doorbell in die d's window. -/
def State.ring (s : State) (d q : Nat) (w : BitVec 32) : State :=
  let u := s.queue q
  if !u.bound || u.unbinding || u.die != d || !s.queueOn q then s
  else if u.cap < (w - u.rd).toNat then
    (s.updQueue q fun u => { u with enabled := false }).postError d (errRec 325 0 0 0)
  else
    let s := s.updQueue q fun u =>
      { u with wr := w, waitAt := if u.rd == u.wr then s.clk else u.waitAt }
    s.unitWrite d (Config.dieKey d (u.descPA + 12)) (toLE 4 w.toNat)
/-- What a read of a window offset in the doorbell area returns: RDIDX (R332). -/
def State.doorRead (s : State) (d off : Nat) : Word64 :=
  let o := off - Config.doorbellOff
  let u := s.queue (o / 1024)
  if o % 1024 = 0 && u.bound && u.die == d then u.rd.setWidth 64 else 0
/-- A context's store to its die's window (R331): only aligned 8-byte writes act, and only doorbells are mapped. -/
def State.windowStore (s : State) (d off : Nat) (bs : List Byte) : State :=
  let o := off - Config.doorbellOff
  if bs.length = 8 && off % 8 = 0 && decide (Config.doorbellOff ≤ off) && o % 1024 = 0 then
    s.ring d (o / 1024) (BitVec.ofNat 32 (leNat bs))
  else s
def State.windowLoad (s : State) (d off n : Nat) : List Byte :=
  if n = 8 && off % 8 = 0 then toLE 8 (s.doorRead d off).toNat else List.replicate n 0xFF

/-! ## The fault batcher (R320 to R323) -/

def FaultRec.page (f : FaultRec) : Nat := fld f.va 0 48 / 65536 * 65536
def FRange.covers (r : FRange) (f : FaultRec) : Bool :=
  r.cause == f.cause && r.asid == f.asid && r.home.toNat == vaHome f.va &&
  decide (r.start ≤ f.page) && decide (f.page < r.start + 65536 * r.pages)
/-- The batcher of the die that translates an address. -/
def FaultRec.die (f : FaultRec) : Nat := if vaHome f.va = 8 then 0 else vaHome f.va % 4
/-- A fault joins a closed unanswered range, or the open batch. -/
def State.batchJoin (s : State) (f : FaultRec) : State :=
  s.updDie f.die fun k =>
    if k.ranges.any (·.covers f) then
      { k with ranges := k.ranges.map fun r =>
          if r.covers f && !r.written then { r with count := min 65535 (r.count + 1) } else r }
    else { k with batch := k.batch ++ [f], batchAt := if k.batch.isEmpty then s.clk else k.batchAt }
/-- The order of R321. -/
def FaultRec.le (a b : FaultRec) : Bool :=
  let ka := (a.asid.toNat * 16 + vaHome a.va) * 512 + a.cause
  let kb := (b.asid.toNat * 16 + vaHome b.va) * 512 + b.cause
  decide (ka < kb) || (ka == kb && decide (fld a.va 0 48 ≤ fld b.va 0 48))
/-- Merge sorted faults into ranges (R321). -/
def mergeFaults (batch : Nat) : List FaultRec → List FRange → List FRange
  | [], acc => acc.reverse
  | f :: t, acc =>
    match acc with
    | r :: rest =>
      if r.cause == f.cause && r.asid == f.asid && r.home.toNat == vaHome f.va && decide (f.page ≤ r.start + 65536 * r.pages) then
        let r := { r with pages := max r.pages ((f.page - r.start) / 65536 + 1), count := min 65535 (r.count + 1),
                          access := r.access ||| f.access, engine := r.engine || f.engine }
        mergeFaults batch t (r :: rest)
      else
        mergeFaults batch t (⟨f.cause, f.access, f.engine, f.asid, f.va.extractLsb' 68 4, f.page, 1, 1, batch, acc.length, false, false⟩ :: acc)
    | [] =>
      mergeFaults batch t [⟨f.cause, f.access, f.engine, f.asid, f.va.extractLsb' 68 4, f.page, 1, 1, batch, 0, false, false⟩]
def markLast : List FRange → List FRange
  | [] => []
  | [r] => [{ r with lastR := true }]
  | r :: t => r :: markLast t
/-- The record of a range (R321). -/
def FRange.record (r : FRange) : Nat :=
  r.cause + 2 ^ 9 * r.access.toNat + 2 ^ 12 * boolN r.engine + 2 ^ 16 * r.asid.toNat + 2 ^ 32 * r.home.toNat +
  2 ^ 64 * r.start + 2 ^ 112 * r.pages + 2 ^ 144 * r.count + 2 ^ 160 * (r.batch % 2 ^ 32) + 2 ^ 192 * r.index +
  2 ^ 200 * boolN r.lastR
/-- Write the closed ranges that wait, in order, while the fault ring has room (R321, R334). -/
def State.fringFlush (s : State) (d : Nat) : State :=
  (s.die d).ranges.zipIdx.foldl (fun s ri =>
    let k := s.die d
    if ri.1.written || !k.fring.getLsbD 63 || ringSize k.fring ≤ (k.frwr - k.frrd).toNat ||
        s.postDown d (ringKey k.fring k.frwr) ri.1.record then s
    else
      let s := (s.crossed d 0).unitWrite 0 (ringKey k.fring k.frwr) (toLE 32 ri.1.record)
      (s.updDie d fun k => { k with frwr := k.frwr + 1, ranges := k.ranges.set ri.2 { ri.1 with written := true } }).msiRaise (3 * d)) s
/-- The open batch closes (R320, R321). -/
def State.batchClose (s : State) (d : Nat) : State :=
  let k := s.die d
  if k.batch.isEmpty then s
  else
    let rs := markLast (mergeFaults k.batchNo (sortBy FaultRec.le k.batch) [])
    (s.updDie d fun k => { k with batch := [], ranges := k.ranges ++ rs, batchNo := k.batchNo + 1 }).fringFlush d
/-- A fault reaches the batcher; a batch of 256 closes at once (R320). -/
def State.batchAdd (s : State) (f : FaultRec) : State :=
  let s := s.batchJoin f
  if 256 ≤ (s.die f.die).batch.length then s.batchClose f.die else s

end Sys2Proof.Machine
end

