-- ==== Sys2Proof/Machine/Ops.lean ====
section
/-! DEFINITION. The named operations a meaning is made of: loads and stores of a context (R153 to R160, R204, R205), checkpoints
and rollbacks (R312 to R316), taking a trap and returning from one (R319), ending a launch (R37, R40), domain syncs
(R21), and how an instruction's checks decide what it does. -/

namespace Sys2Proof.Machine

/-! ## Loads -/

/-- The gate entries of a context that lie on a memory line, oldest first. -/
def Ctx.gateOn (c : Ctx) (l : Nat) : List GateEnt := c.gate.filter fun g => !g.spad && g.line == l
/-- A line as a context's loads see it: the newest gated bytes over memory (R205). -/
def State.lineFor (s : State) (n l : Nat) : Vec :=
  ((s.ctx n).gateOn l).foldl (fun v g => mergeLine v g.bytes) (s.lineNow l)
/-- A scratchpad byte as a context's loads see it. -/
def State.spadFor (s : State) (n off : Nat) : Byte :=
  let o := off % 2 ^ 22
  match ((s.ctx n).gate.filter fun g => g.spad && g.line == o / 128).reverse.findSome?
      (fun g => (g.bytes.reverse.find? fun b => b.1 == o % 128)) with
  | some b => b.2
  | none => s.spadByte (clusterOf n) o
/-- VIEWCLASS fields (R184). -/
def vcView (w : Word64) : BitVec 3 := w.extractLsb' 0 3
def vcUpdate (w : Word64) : Bool := w.getLsbD 3
def vcPrio (w : Word64) : Nat := fld w 4 2

/-- A context's own die homes an address (R204). -/
def isLocal (n : Nat) (va : VA) : Bool := isSpad va || vaHome va == dieOf n
/-- The parts of an access of len bytes, one for each 128-byte line: first address and length there (R156). -/
def segs (va : VA) (len : Nat) : List (VA × Nat) :=
  let first := fld va 0 7
  (List.range ((first + len + 127) / 128)).map fun (i : Nat) =>
    if i = 0 then (va, min len (128 - first)) else (qoff va (128 * i - first : Nat), min 128 (len - (128 * i - first)))
/-- The lines an access touches, by their first address there. -/
def touched (va : VA) (len : Nat) : List VA := (segs va len).map (·.1)
/-- The bytes an access of len bytes at va reads under a view: a scratchpad's, a register's or a memory line's (R157, R331). -/
def State.readVia (s : State) (n : Nat) (asid : BitVec 16) (va : VA) (len : Nat) (v : BitVec 3) : List Byte :=
  (segs va len).flatMap fun g =>
    if isSpad g.1 then (List.range g.2).map fun i => s.spadFor n (spadOff g.1 + i)
    else match s.place asid g.1 .read with
      | .ok r => match r.reg with
        | some (d, o) => s.windowLoad d o g.2
        | none =>
          let x := loadLine r.hf v (s.lineFor n r.line)
          (List.range g.2).map fun i => lineByte x (fld g.1 0 7 + i)
      | .error _ => List.replicate g.2 0
/-- What a load of len bytes does beside its value (R186, R205): the translation's marks, the L1 copy at its view, and the
watch that a load after gated stores places. -/
def State.loadEffect (s : State) (n : Nat) (asid : BitVec 16) (va : VA) (len : Nat) (vc : Word64) : State :=
  let watch (s : State) (w : Watch) : State :=
    if (s.ctx n).gate.isEmpty then s else s.updCtx n fun c => { c with watch := c.watch ++ [{ w with behind := c.gate.length }] }
  (segs va len).foldl (fun s g =>
    let a := g.1
    if isSpad a then watch s ⟨true, 0, (List.range g.2).map fun i => s.spadKey (clusterOf n) (spadOff a + i), 0, 0⟩
    else
      let s := s.translateFor (dieOf n) asid a .read
      match s.place asid a .read with
      | .ok r =>
        if r.reg.isSome then s
        else
          let t := tagOf asid a r
          let s := (s.noteRead (some n) 0 r.line (s.readCached (dieOf n) (some (coreOf n)) r.line t (vcView vc))).l1Load n r.line t
            (vcView vc) (vcUpdate vc) (vcPrio vc)
          if isLocal n a then watch s ⟨false, r.line, [], effView r.hf (vcView vc), 0⟩ else s
      | .error _ => s) s

/-! ## What an instruction's checks answer (R83, R155, R16, R15) -/

inductive Verdict where
  | ok
  /-- A precise trap: cause and TVAL. -/
  | trap (cause : Nat) (tval : Word64)
  /-- A precise trap that a translation shows (R157, R169): the accesses up to it, whose walks leave their marks (R310). -/
  | trapAfter (cause : Nat) (tval : Word64) (walked : List (VA × Acc))
  /-- A translation or memory fault of an access: cause, address, kind (R317 deliveries F and E), and the addresses before it
  whose walks have reached a leaf (R310). -/
  | fault (cause : Nat) (va : VA) (acc : Acc) (walked : List VA)
  /-- The bundle waits under R16. -/
  | block
  /-- The bundle stalls in place under R15. -/
  | stall
  deriving DecidableEq, Repr

/-- The first verdict that is not ok. -/
def Verdict.andThen : Verdict → Verdict → Verdict
  | .ok, v => v
  | v, _ => v
def Verdict.all : List Verdict → Verdict
  | [] => .ok
  | v :: t => v.andThen (Verdict.all t)
def require (b : Bool) (cause : Nat) : Verdict := if b then .ok else .trap cause 0
def waitFor (b : Bool) : Verdict := if b then .ok else .stall
def blockFor (b : Bool) : Verdict := if b then .ok else .block

/-- The address rules of one element (R155, R305): scratchpad window, home field, alignment, VA[67:48], in this order (log 66). -/
def addrCheck (n : Nat) (va : VA) (align : Nat) : Verdict :=
  if isSpad va && vaHome va != dieOf n then .trap 66 (tvalOf va)
  else if !isSpad va && !homeOk va then .trap 64 (tvalOf va)
  else if va.toNat % align ≠ 0 then .trap 65 (tvalOf va)
  else if !isSpad va && fld va 48 20 ≠ 0 then .trap 75 (tvalOf va)
  else .ok
/-- The address rules of every element of an access of len bytes: its first element, and the first of each further line. -/
def addrChecks (n : Nat) (va : VA) (align len : Nat) : Verdict := Verdict.all ((touched va len).map fun a => addrCheck n a align)
/-- The walk for an access of die d, made at the home, reaches a leaf, whatever the access meets then: it leaves its marks (R310). -/
def State.walks (s : State) (d : Nat) (asid : BitVec 16) (va : VA) (a : Acc) : Bool :=
  !s.linkDown d va && match s.leafOf asid va a with | .ok _ => true | .error _ => false
/-- What accesses at a view meet at their homes, one first address of a line after another: the first that faults, and the addresses
whose walks have reached a leaf. -/
def State.reachAll (s : State) (n : Nat) (asid : BitVec 16) (a : Acc) (v : BitVec 3) : List VA → List VA → Verdict
  | [], _ => .ok
  | x :: t, done =>
    if isSpad x then s.reachAll n asid a v t done
    else match s.access (dieOf n) (if a == .fetch then none else some (coreOf n)) asid x a v with
      | .error c => .fault c x a (if s.walks (dieOf n) asid x a then done ++ [x] else done)
      | .ok _ => s.reachAll n asid a v t (done ++ [x])
/-- What an access of len bytes meets at its home: the first line that faults. -/
def State.reachCheck (s : State) (n : Nat) (asid : BitVec 16) (va : VA) (len : Nat) (a : Acc) : Verdict :=
  s.reachAll n asid a 0 (touched va len) []
/-- R157: the part of a load that lies in one line covers whole home elements. -/
def State.viewOk (s : State) (asid : BitVec 16) (v : BitVec 3) (g : VA × Nat) : Bool :=
  isSpad g.1 || match s.place asid g.1 .read with
    | .error _ => true
    | .ok r => match served r.hf v with
      | none => true
      | some (h, _) => g.1.toNat % (h.bits / 8) == 0 && g.2 % (h.bits / 8) == 0
/-- The parts of a load under a reduced view, line by line: the first that does not, behind the walks made up to it. -/
def State.viewCheck (s : State) (asid : BitVec 16) (v : BitVec 3) : List (VA × Nat) → List (VA × Acc) → Verdict
  | [], _ => .ok
  | g :: t, done =>
    let done := if isSpad g.1 then done else done ++ [(g.1, .read)]
    if s.viewOk asid v g then s.viewCheck asid v t done else .trapAfter 67 (tvalOf g.1) done
/-- Released stores of a context that have not performed: the address of each one's line, and the line. -/
def State.outs (s : State) (n : Nat) : List (VA × Nat) :=
  (s.ctx n).out.map (fun g => (g.va, g.line)) ++ (s.heldWrites.filter fun h => h.ctx == some n).map fun h => (h.va, h.line)
/-- One of them is die-local, or at the scratchpad. -/
def State.outLocal (s : State) (n : Nat) : Bool := (s.outs n).any fun o => isLocal n o.1
def State.outSpad (s : State) (n : Nat) : Bool := (s.outs n).any fun o => isSpad o.1
/-- An access waits for them where program order binds it (log 24): two die-local accesses (R204), or two of one line (R206). -/
def State.accessReady (s : State) (n : Nat) (asid : BitVec 16) (a : Acc) (vas : List VA) : Verdict :=
  waitFor ((s.outs n).isEmpty || vas.all fun x => !(isLocal n x && s.outLocal n) &&
    (isSpad x || match s.place asid x a with | .ok r => !(s.outs n).any fun o => !isSpad o.1 && o.2 == r.line | .error _ => true))
/-- The checks of a load of elements of len bytes at the addresses given: the address rules of every element in increasing
index, then the view rule, then translation (R155, R157); then it waits for what program order puts before it. -/
def State.loadCheck (s : State) (n : Nat) (vas : List VA) (align len : Nat) (vc : Word64) : Verdict :=
  let asid := s.asidOf n
  (Verdict.all (vas.map fun a => addrChecks n a align len)).andThen
    ((s.viewCheck asid (vcView vc) (vas.flatMap fun a => segs a len) []).andThen
      ((s.reachAll n asid .read (vcView vc) (vas.flatMap fun a => touched a len) []).andThen
        (s.accessReady n asid .read (vas.flatMap fun a => touched a len))))

/-! ## The store gate (R160, R314) -/

/-- The key of a register-window byte as a gate line (R331). -/
def regKey (d off : Nat) : Nat := 2 ^ 63 + d * 2 ^ 24 + off
/-- The line of a gate entry that reaches a place: a memory line, or a register's. -/
def Reach.gateLine (r : Reach) : Nat := match r.reg with | some (d, o) => regKey d o / 128 | none => r.line
def GateEnt.isReg (g : GateEnt) : Bool := !g.spad && decide (2 ^ 63 ≤ g.line * 128)
/-- The gate entries of a store of bytes at addresses, in accesses of `width` bytes: one for each line (R156, R160). -/
def State.gateEnts (s : State) (asid : BitVec 16) (bs : List (VA × Byte)) (width : Nat) (release : Bool) : List GateEnt :=
  let lns := (bs.map fun b => b.1.toNat / 128).dedup
  lns.filterMap fun ln =>
    let mine := bs.filter fun b => b.1.toNat / 128 == ln
    match mine with
    | [] => none
    | b :: _ =>
      let va : VA := BitVec.ofNat 72 (ln * 128)
      let bytes := mine.map fun x => (fld x.1 0 7, x.2)
      if isSpad b.1 then some ⟨true, spadOff b.1 / 128, asid, va, 3, bytes, width, true, release, s.nextCmd⟩
      else match s.place asid b.1 .write with
        | .ok r => some ⟨false, r.gateLine, asid, va, r.hf, bytes, width, true, release, s.nextCmd⟩
        | .error _ => none
/-- Bytes at consecutive addresses. -/
def vaBytes (va : VA) (bs : List Byte) : List (VA × Byte) := bs.zipIdx.map fun b => (qoff va b.2, b.1)
/-- A gated store of bytes: translated for its checks, then held (R314). -/
def State.gateStore (s : State) (n : Nat) (bs : List (VA × Byte)) (width : Nat) (release : Bool) : State :=
  let asid := s.asidOf n
  let s := (bs.map fun b => (BitVec.ofNat 72 (b.1.toNat / 128 * 128) : VA)).dedup.foldl
    (fun s a => if isSpad a then s else s.translateFor (dieOf n) asid a .write) s
  let es := s.gateEnts asid bs width release
  s.updCtx n fun c => { c with gate := c.gate ++ es }
/-- A range that an unfinished command of the context, issued by an earlier bundle, still reads (R158). -/
def State.rangeHit (s : State) (n : Nat) (va : VA) (len : Nat) : Bool :=
  (segs va len).any fun g =>
    let lo := if isSpad g.1 then spadOff g.1 else g.1.toNat
    s.cmds.any fun c => c.ctx == n && decide (c.id < s.issue.first) &&
      c.ranges.any fun r => r.1 == isSpad g.1 && decide (r.2.1 ≤ lo + g.2 - 1) && decide (lo ≤ r.2.2)
/-- Gate overflow (R314), counted in the lines a store writes. -/
def State.gateRoom (s : State) (n : Nat) (bs : List VA) : Verdict :=
  require (decide ((s.ctx n).gate.length + (bs.map fun a => a.toNat / 128).dedup.length ≤ Config.gateSize)) 70
/-- The checks of a store of elements of len bytes at the addresses given. -/
def State.storeCheck (s : State) (n : Nat) (vas : List VA) (align len : Nat) : Verdict :=
  (Verdict.all (vas.map fun a => addrChecks n a align len)).andThen
    ((s.gateRoom n (vas.flatMap fun a => touched a len)).andThen
      ((Verdict.all (vas.map fun a => waitFor (!s.rangeHit n a len))).andThen
        (s.reachAll n (s.asidOf n) .write 0 (vas.flatMap fun a => touched a len) [])))
/-- A context's store to a line performs, or is held behind a group in flight (R263); `before` as in GateEnt. -/
def State.ctxStore (s : State) (n before l : Nat) (t : Tag) (bs : List (Nat × Byte)) : State :=
  s.behind ⟨some n, none, before⟩ (some (dieOf n)) l t bs ((s.storeLine (some n) (some (coreOf n)) (dieOf n) l t bs).shootdown l)
/-- Bytes in pieces of k, the accesses of a store. -/
def accessesOf (k : Nat) : Nat → List (Nat × Byte) → List (List (Nat × Byte))
  | 0, _ => []
  | f + 1, bs => if bs.isEmpty then [] else bs.take (max 1 k) :: accessesOf k f (bs.drop (max 1 k))
/-- One gate entry performs (R313): at its home, at the scratchpad bank, or, access by access, at a register. -/
def State.perform (s : State) (n : Nat) (g : GateEnt) : State :=
  if g.spad then s.spadWrite (some n) (clusterOf n) (g.bytes.map fun b => (g.line * 128 + b.1, b.2))
  else if g.isReg then
    let k := g.line * 128 - 2 ^ 63
    (accessesOf g.width g.bytes.length g.bytes).foldl (fun s bs => match bs with
      | [] => s
      | b :: _ => s.windowStore (k / 2 ^ 24) (k % 2 ^ 24 + b.1) (bs.map (·.2))) s
  else s.ctxStore n g.before g.line ⟨g.asid, g.va, g.hf⟩ g.bytes
/-- A gate entry whose check a shootdown has voided is translated afresh (R314). -/
def State.regate (s : State) (g : GateEnt) : GateEnt :=
  if g.checked || g.spad then g
  else match s.place g.asid g.va .write with | .ok r => { g with line := r.gateLine, hf := r.hf, checked := true } | .error _ => g
/-- The reads of the context's block gathers have performed; a release waits for them (R165, R170, R172). -/
def State.readsDone (s : State) (n : Nat) : Bool :=
  !s.cmds.any fun c => c.ctx == n && match c.ins with | .bgath .. => true | _ => false
/-- A store is to perform over a link that is down (R198). -/
def State.storeDown (s : State) (n : Nat) (g : GateEnt) : Bool :=
  if g.spad then false
  else if g.isReg then s.linkDown (dieOf n) g.va
  else s.writeDown (dieOf n) (some (coreOf n)) g.line ⟨g.asid, g.va, g.hf⟩ (some g.bytes)
/-- What a gated store meets when it is to perform: its void check is made again, and no message that it needs crosses a link
that is down (R198). -/
def State.gateCheck (s : State) (n : Nat) (g : GateEnt) : Verdict :=
  if g.spad then .ok
  else match (if g.checked then .ok () else (s.access (dieOf n) (some (coreOf n)) g.asid g.va .write 0).map fun _ => ()) with
    | .error c => .fault c g.va .write (if s.walks (dieOf n) g.asid g.va .write then [g.va] else [])
    | .ok _ => if s.storeDown n (s.regate g) then .fault 256 g.va .write [g.va] else .ok
/-! ## Released stores (R170, R263, R313, log 24) -/

/-- The oldest released store of a context may perform: none of its stores before it is held, and a store-release's earlier block
gathers have made their reads. -/
def State.outReady (s : State) (n : Nat) (g : GateEnt) : Bool :=
  !(s.heldWrites.any fun h => h.ctx == some n) &&
  !(g.release && s.cmds.any fun c => c.ctx == n && decide (c.id < g.before) && match c.ins with | .bgath .. => true | _ => false)
/-- It performs; where a link has gone down since its check, it is lost, and its context traps with cause 256 (log 63). -/
def State.performOut (s : State) (n : Nat) (g : GateEnt) : State :=
  if s.storeDown n g then s.updCtx n fun c => { c with engFaults := c.engFaults ++ [(256, g.va)] } else s.perform n g
/-- Released stores perform in program order, as far as they may. -/
def State.drainList (s : State) (n : Nat) : List GateEnt → State
  | [] => s.updCtx n fun c => { c with out := [] }
  | g :: t => if s.outReady n g then (s.performOut n g).drainList n t else s.updCtx n fun c => { c with out := g :: t }
def State.drainOut (s : State) (n : Nat) : State := s.drainList n (s.ctx n).out
/-- The gate empties: its stores, each translated afresh where its check was void, follow those already released. -/
def State.releaseGate (s : State) (n : Nat) : State :=
  match (s.ctx n).gate with
  | [] => s.updCtx n fun c => { c with gate := [], watch := [] }
  | gs =>
    let s := gs.foldl (fun s g => if g.checked || g.spad then s else s.translateFor (dieOf n) g.asid g.va .write) s
    let es := gs.map s.regate
    (s.updCtx n fun c => { c with gate := [], watch := [], out := c.out ++ es }).drainOut n
/-- The state that the gate's release would leave, as checks see it. -/
def State.released (s : State) (n : Nat) : State := if (s.ctx n).gate.isEmpty then s else s.releaseGate n
/-- The first k gated stores perform at once if the gate is released, those that are die-local at least: a die-local load that has
passed them is then in its place among the die's accesses (R204, log 24). -/
def State.passWait (s : State) (n k : Nat) : Verdict :=
  let g := (s.ctx n).gate
  waitFor (k == 0 || !((g.take k).drop (g.length - ((s.released n).outs n).length)).any fun e => isLocal n e.va)
/-- A bundle at a restart point waits for every gated store to hold a passed check (R313), and until no watched load is left in front
of a store that it has passed (R204, R205). -/
def State.recheck (s : State) (n : Nat) : Verdict :=
  (Verdict.all ((s.ctx n).gate.map (s.gateCheck n))).andThen (s.passWait n ((s.ctx n).watch.foldl (fun m w => max m w.behind) 0))
/-- Every store of the context has performed once the gate is released. -/
def State.storesDone (s : State) (n : Nat) : Bool := ((s.released n).outs n).isEmpty
/-- An order of which bit 1 is a release waits for the context's earlier accesses: its stores and the reads of its block gathers
(R167, R177). -/
def State.releaseReady (s : State) (n : Nat) (ord : BitVec 2) : Bool := !ord.getLsbD 1 || (s.readsDone n && s.storesDone n)

/-! ## Checkpoints, rollback, pre-emption (R312 to R316, R325 to R327) -/

/-- Bytes of a context's save block, from its checkpoint (R327); a loop's two VAs stand in the encoding of TPC, 8 bytes each (log 77). -/
def saveBytes (c : Ctx) : List Byte :=
  let r := c.ck
  let regs (n w : Nat) (f : Nat → Nat) : List Byte := (List.range n).flatMap fun i => toLE w (f i)
  let pend := (List.range 4).flatMap fun i =>
    match r.fmtPend[i]? with
    | some p => toLE 8 p.1.toNat ++ toLE 8 p.2
    | none => toLE 16 0
  let loops := (List.range 4).flatMap fun i =>
    match r.loops[i]? with
    | some e => toLE 8 (pcEnc e.start).toNat ++ toLE 8 (pcEnc e.last).toNat ++ toLE 8 e.remaining ++ toLE 8 1
    | none => toLE 32 0
  regs 32 8 (fun i => (sget 0 r.s i).toNat) ++ regs 16 16 (fun i => (sget 0 r.q i).toNat) ++
  regs 8 16 (fun i => (sget 0 r.p i).toNat) ++ regs 16 2 (fun i => (sget 0 r.m i).toNat) ++
  toLE 8 r.fmt.toNat ++ toLE 8 r.fstat.toNat ++ toLE 8 c.dom.toNat ++ toLE 8 r.aflags.toNat ++ pend ++
  regs 8 8 (fun i => (sget 0 r.view i).toNat) ++ loops ++ regs 4 8 (fun i => (sget 0 c.tc i).toNat) ++
  toLE 8 c.rot ++ toLE 8 (pcEnc r.pc).toNat ++ toLE 16 0 ++
  toLE 8 r.tvec.toNat ++ toLE 8 r.tcause.toNat ++ toLE 8 r.tpc.toNat ++ toLE 8 r.tval.toNat ++ toLE 8 r.tstate.toNat ++
  toLE 8 r.tscr.toNat ++ toLE 8 (128 * boolN c.preq) ++ toLE 8 (c.faultRolls + 2 ^ 32 * c.conflRolls) ++
  toLE 8 r.gocc.toNat ++ toLE 8 r.gdraft.toNat ++ toLE 8 r.gsel.toNat ++ toLE 8 r.giter.toNat ++ toLE 32 0 ++
  regs 8 8 (fun i => (sget 0 r.greq i).toNat) ++ toLE 8 c.pmerr.toNat ++ toLE 56 0 ++
  regs 8 256 (fun i => (sget 0 r.k i).toNat) ++ toLE 768 0 ++ regs 32 128 (fun i => (sget 0 r.v i).toNat)
/-- The save block of a context is written (R327). -/
def State.saveBlock (s : State) (n : Nat) : State :=
  { s with mem := wrBytes s.mem (Config.dieKey (dieOf n) (Config.rsvBase + 0x100000 + 8192 * (n % 128))) (saveBytes (s.ctx n)) }
/-- Every register write that a command owes the context has landed (R315). -/
def Instr.lateWrite : Instr → Bool
  | .rthash .. => true | .rtfind .. => true | .rtdep .. => true | .rtref .. => true | .rtrel .. => true
  | .rtpin .. => true | .rtevict .. => true | .rtrd .. => true | .schsel .. => true | .tokcommit .. => true
  | .specacc .. => true
  | _ => false
def State.landed (s : State) (n : Nat) : Bool := !s.cmds.any fun c => c.ctx == n && Instr.lateWrite c.ins
/-- The same for the commands of earlier bundles. -/
def State.landedBefore (s : State) (n : Nat) : Bool :=
  !s.cmds.any fun c => c.ctx == n && decide (c.id < s.issue.first) && Instr.lateWrite c.ins
/-- A context leaves the core's selection (R325, R327). -/
def State.preemptNow (s : State) (n : Nat) : State :=
  (s.updCtx n fun c => { c with preempted := true, leaving := false, st := if c.st == .running then .ready else c.st }).saveBlock n
/-- A checkpoint is recorded (R312, R313): the gate empties and the registers are kept, to go on at `pc`. -/
def State.markAt (s : State) (n : Nat) (pc : VA) : State :=
  (s.releaseGate n).updCtx n fun c =>
    { c with ck := { c.regs with pc := pc }, ckTrap := none, conflict := false, conflicts := 0, stepMode := false }
/-- A checkpoint commits, and a requested pre-emption or abort takes the context here (R312, R325, R40). -/
def State.commitAt (s : State) (n : Nat) (pc : VA) : State :=
  let s := s.markAt n pc
  let c := s.ctx n
  if c.abortAt.isSome && c.st != .idle then s.updCtx n fun c => { c with st := .retiring, abortAt := none }
  else if c.preq && c.st != .retiring then
    if c.landings.isEmpty && s.landed n then s.preemptNow n
    else s.updCtx n fun c => { c with leaving := true, st := if c.st == .running then .ready else c.st }
  else s
/-- A rollback (R316): the gate is discarded and the last checkpoint's registers stand again; a trap entered there that issuing again
would not raise is owed once more (log 48). -/
def State.rollback (s : State) (n : Nat) : State :=
  s.updCtx n fun c =>
    { c with regs := c.ck, gate := [], watch := [], conflict := false, waitOn := none,
             owed := c.ckTrap.toList ++ c.owed, ckTrap := none,
             st := if c.st == .blocked then .ready else c.st }

/-! ## Ending a launch (R37, R40) -/

/-- Whether a context would be pre-empted at once: Blocked at a committed checkpoint, or held (R325);
a spawned context that is not yet Ready has issued nothing (R121). -/
def Ctx.atMark (c : Ctx) : Bool := (c.st == .blocked && c.gate.isEmpty && c.regs == c.ck) ||
  c.held.isSome || c.preempted || c.leaving || c.st == .idle
/-- A context moves to Retiring with its gate discarded, its arrivals standing (R21, R40). -/
def State.retireNow (s : State) (n : Nat) : State :=
  (s.rollback n).updCtx n fun c => { c with st := .retiring, held := none, abortAt := none, preempted := false, leaving := false, preq := false, landings := [] }

/-! ## Domain syncs (R20, R21) -/

def domLevel (d : Word64) : Nat := fld d 0 3
def unitOf (level n : Nat) : Nat :=
  match level with
  | 0 => n | 1 => coreOf n | 2 => clusterOf n | 3 => dieOf n | _ => 0
/-- The live members of a context's domain: those of its launch, unit and level (log 49). -/
def State.domain (s : State) (n : Nat) : List Nat :=
  let c := s.ctx n
  let lv := domLevel c.dom
  (s.ctxs.filter fun e => e.2.launch == c.launch && c.launch.isSome && e.2.st != .idle && e.2.st != .retiring &&
    domLevel e.2.dom == lv && unitOf lv e.1 == unitOf lv n).map (·.1)
/-- PHASE inverts in every member when every live member has arrived once more (R21). -/
def State.domainCheck (s : State) (n : Nat) : State :=
  let ms := s.domain n
  if !ms.isEmpty && ms.all fun m => decide ((s.ctx m).synced < (s.ctx m).arrived) then
    ms.foldl (fun s m => s.updCtx m fun c => { c with synced := c.synced + 1, dom := c.dom ^^^ (1#64 <<< 30) }) s
  else s
/-- The context in issue arrives at its next domain sync, once (R177). -/
def State.arrive (s : State) (n : Nat) : State :=
  if (s.ctx n).joined then s
  else (s.updCtx n fun c => { c with arrived := c.arrived + 1, joined := true }).domainCheck n

/-- A launch keeps the cause of its first trap; of traps in one clk, that of the lowest context (R40). -/
def State.noteStatus (s : State) (l n cause : Nat) : State :=
  s.updLaunch l fun r =>
    if r.status = 0 ∨ (r.statusAt = s.clk ∧ n < r.statusBy) then { r with status := cause, statusAt := s.clk, statusBy := n } else r
/-- A launch takes its first cause, and an abort is requested of every other context of it (R40). -/
def State.endLaunch (s : State) (n cause : Nat) : State :=
  match (s.ctx n).launch with
  | none => s
  | some l =>
    let s := s.noteStatus l n cause
    let s := s.domainCheck n
    (s.ctxs.filter fun e => e.2.launch == some l && e.1 != n && e.2.st != .retiring).foldl
      (fun s e => if e.2.atMark then s.retireNow e.1 else s.updCtx e.1 fun c => { c with abortAt := some s.clk }) s

/-! ## Traps (R318, R319) -/

def tcauseOf (cause slot opcode : Nat) (fault : Bool) : Word64 :=
  BitVec.ofNat 64 (cause + 2 ^ 9 * slot + 2 ^ 11 * opcode + 2 ^ 18 * boolN fault)
/-- The trap registers of an entry, and the handler's address (R318, R319). -/
def Regs.trapped (r : Regs) (o : Owed) (ret entry : VA) : Regs :=
  { r with tcause := tcauseOf o.cause o.slot o.opcode o.fault, tval := o.tval, tpc := pcEnc ret, tstate := 1, pc := entry }
/-- Trap entry (R319) of context n: with no handler, or in one, the context retires at its last checkpoint and its launch
ends; otherwise a checkpoint commits at the trap's boundary, `ret` being the return bundle, and then the trap registers are
written and fetch goes to the handler. `once` marks a trap that issuing `ret` again would not raise. Traps that were owed give
way, and an abort that the checkpoint admits comes first. -/
def State.enterTrap (s : State) (n : Nat) (o : Owed) (once : Bool) (ret : VA) : State :=
  let r := (s.ctx n).regs
  if !r.tvec.getLsbD 63 || r.tstate.getLsbD 0 then
    let s := (s.retireNow n).saveBlock n
    s.endLaunch n (if r.tstate.getLsbD 0 then 327 else o.cause)
  else
    let entry := qoff (s.launchOf n).code (16 * fld r.tvec 0 32)
    let s := (s.updCtx n fun c => { c with waitOn := none, st := if c.st == .blocked then .ready else c.st }).commitAt n ret
    if (s.ctx n).st == .retiring then s
    else s.updCtx n fun c =>
      { c with regs := c.regs.trapped o ret entry, ckTrap := if once then some o else none, owed := [], later := c.owed ++ c.later }
/-- An engine fault that is owed is the trap taken (R317). -/
def State.engTrap (s : State) (n : Nat) (f : Nat × VA) (ret : VA) : State :=
  (s.updCtx n fun c => { c with engFaults := c.engFaults.drop 1 }).enterTrap n ⟨f.1, tvalOf f.2, 0, 0, true⟩ true ret
/-- A trap is taken at a restart point: an engine fault that is owed comes before it. The trap is met again on return, or, where
issuing again would not raise it, is taken later (R312, R317, log 38). -/
def State.takeTrap (s : State) (n : Nat) (o : Owed) (once : Bool) (ret : VA) : State :=
  match (s.ctx n).engFaults with
  | f :: _ => (s.updCtx n fun c => { c with owed := if once then o :: c.owed else c.owed }).engTrap n f ret
  | [] => s.enterTrap n o once ret
/-- tret (R119, R319): the return address and INTRAP clear. -/
def State.trapReturn (s : State) : State :=
  let s := s.updRegs fun r => { r with tstate := 0, pc := pcDec s.lat.tpc }
  { s with issue := { s.issue with direct := some (pcDec s.lat.tpc) } }
/-- Walks of context n have left their marks (R310). -/
def State.walkedBy (s : State) (n : Nat) (xs : List (VA × Acc)) : State :=
  xs.foldl (fun s x => s.translateFor (dieOf n) (s.asidOf n) x.1 x.2) s
/-- A precise trap of the instruction in issue: no effect but the entry (R83). -/
def State.trapHere (s : State) (cause : Nat) (tval : Word64) : State :=
  let s := s.takeTrap s.cur ⟨cause, tval, s.issue.slot, s.issue.opcode, false⟩ false s.issue.pc
  { s with issue := { s.issue with trapped := true } }
/-- An F fault of context n (R316, R317): rollback, the fault to the batcher, the context held. -/
def State.faultHeld (s : State) (n : Nat) (f : FaultRec) : State :=
  let s := (s.rollback n).batchAdd f
  let s := s.updCtx n fun c => { c with held := some f, faultRolls := min (2 ^ 32 - 1) (c.faultRolls + 1) }
  let s := s.bump 10 n 1
  let c := s.ctx n
  if c.abortAt.isSome then s.retireNow n
  else if c.preq && c.landings.isEmpty && s.landed n then s.preemptNow n
  else s
/-- An E fault (R317): rollback, then at once a trap at the checkpoint. -/
def State.faultTrap (s : State) (n cause : Nat) (va : VA) : State :=
  let s := (s.rollback n).updCtx n fun c => { c with faultRolls := min (2 ^ 32 - 1) (c.faultRolls + 1) }
  let s := s.bump 10 n 1
  s.takeTrap n ⟨cause, tvalOf va, 0, 0, true⟩ true (s.ctx n).ck.pc
/-- A fault of an access of the context in issue; walks that reached a leaf before it have left their marks (R310). -/
def State.faultHere (s : State) (cause : Nat) (va : VA) (a : Acc) (walked : List VA) : State :=
  let n := s.cur
  let s := s.walkedBy n (walked.map fun x => (x, a))
  let s := s.noteFault (some n) 0 (s.asidOf n) va a cause
  let s := if isF cause then s.faultHeld n ⟨cause, s.asidOf n, va, a.bits, false⟩ else s.faultTrap n cause va
  { s with issue := { s.issue with trapped := true } }
/-- The context in issue blocks (R16). -/
def State.blockHere (s : State) : State := s.upd fun c => { c with st := .blocked }

/-- The outcome of a meaning. -/
abbrev Out := Host.Outcome State Fault Refusal

/-- A trap waits for pending landings and owed register writes (R115, R315); a rollback for the owed writes. -/
def State.settled (s : State) (n : Nat) : Bool := (s.ctx n).landings.isEmpty && s.landed n

/-- What a verdict makes of an effect. A stall in place changes nothing. -/
def State.resolve (s : State) (v : Verdict) (f : State → State) : Out :=
  match v with
  | .ok => .next (f s)
  | .trap c t => .next (if s.settled s.cur then s.trapHere c t else s)
  | .trapAfter c t w => .next (if s.settled s.cur then (s.walkedBy s.cur w).trapHere c t else s)
  | .fault c va a w => .next (if (if isF c then s.landed s.cur else s.settled s.cur) then s.faultHere c va a w else s)
  | .block => .next s.blockHere
  | .stall => .next s

/-- A party number of an event within its range, or the fault that no such party exists. -/
def party (b : Bool) (s : State) : Out := if b then .next s else .fault .noSuchParty

end Sys2Proof.Machine
end

