-- ==== Sys2Proof/Machine/Scalar.lean ====
section
/-! DEFINITION. Class S: integer arithmetic, bit fields, compares and address arithmetic (R93 to R103). Each meaning reads the
captured registers and writes the context's; these instructions raise no flag. -/

namespace Sys2Proof.Machine

/-- NOP reads and writes nothing (R82). -/
def execNop (s : State) : Out := .next s

/-- Shift amounts are bits [5:0] of the operand (R97). -/
def shAmt (x : Word64) : Nat := fld x 0 6
def divS (a b : Word64) : Word64 :=
  if b = 0 then BitVec.ofNat 64 (2 ^ 64 - 1) else BitVec.ofInt 64 (Int.tdiv a.toInt b.toInt)
def divU (a b : Word64) : Word64 :=
  if b = 0 then BitVec.ofNat 64 (2 ^ 64 - 1) else BitVec.ofNat 64 (a.toNat / b.toNat)

/-! ## Register-register (R97, R99, R101) -/

def execAdd (d a b : SReg) (s : State) : Out := .next (s.wS d (s.rS a + s.rS b))
def execSub (d a b : SReg) (s : State) : Out := .next (s.wS d (s.rS a - s.rS b))
def execAnd (d a b : SReg) (s : State) : Out := .next (s.wS d (s.rS a &&& s.rS b))
def execOr (d a b : SReg) (s : State) : Out := .next (s.wS d (s.rS a ||| s.rS b))
def execXor (d a b : SReg) (s : State) : Out := .next (s.wS d (s.rS a ^^^ s.rS b))
def execShl (d a b : SReg) (s : State) : Out := .next (s.wS d (s.rS a <<< shAmt (s.rS b)))
def execShr (d a b : SReg) (s : State) : Out := .next (s.wS d (s.rS a >>> shAmt (s.rS b)))
def execSra (d a b : SReg) (s : State) : Out := .next (s.wS d ((s.rS a).sshiftRight (shAmt (s.rS b))))
def execMin (d a b : SReg) (s : State) : Out := .next (s.wS d (if (s.rS a).toInt ≤ (s.rS b).toInt then s.rS a else s.rS b))
def execMax (d a b : SReg) (s : State) : Out := .next (s.wS d (if (s.rS b).toInt ≤ (s.rS a).toInt then s.rS a else s.rS b))
def execMul (d a b : SReg) (s : State) : Out := .next (s.wS d (s.rS a * s.rS b))
def execMulh (d a b : SReg) (s : State) : Out := .next (s.wS d (BitVec.ofInt 64 ((s.rS a).toInt * (s.rS b).toInt / 2 ^ 64)))
def execMulhu (d a b : SReg) (s : State) : Out := .next (s.wS d (BitVec.ofNat 64 ((s.rS a).toNat * (s.rS b).toNat / 2 ^ 64)))
def execDiv (d a b : SReg) (s : State) : Out := .next (s.wS d (divS (s.rS a) (s.rS b)))
def execDivu (d a b : SReg) (s : State) : Out := .next (s.wS d (divU (s.rS a) (s.rS b)))
def execSlt (d a b : SReg) (s : State) : Out := .next (s.wS d (if (s.rS a).toInt < (s.rS b).toInt then 1 else 0))
def execSltu (d a b : SReg) (s : State) : Out := .next (s.wS d (if (s.rS a).toNat < (s.rS b).toNat then 1 else 0))

/-! ## Immediates (R98) -/

def execAddi (d a : SReg) (imm : BitVec 15) (s : State) : Out := .next (s.wS d (s.rS a + imm.signExtend 64))
def execAndi (d a : SReg) (imm : BitVec 15) (s : State) : Out := .next (s.wS d (s.rS a &&& imm.signExtend 64))
def execOri (d a : SReg) (imm : BitVec 15) (s : State) : Out := .next (s.wS d (s.rS a ||| imm.signExtend 64))
def execXori (d a : SReg) (imm : BitVec 15) (s : State) : Out := .next (s.wS d (s.rS a ^^^ imm.signExtend 64))
def execShli (d a : SReg) (sh : BitVec 6) (s : State) : Out := .next (s.wS d (s.rS a <<< sh.toNat))
def execShri (d a : SReg) (sh : BitVec 6) (s : State) : Out := .next (s.wS d (s.rS a >>> sh.toNat))
def execSrai (d a : SReg) (sh : BitVec 6) (s : State) : Out := .next (s.wS d ((s.rS a).sshiftRight sh.toNat))
def execLi (d : SReg) (imm : BitVec 20) (s : State) : Out := .next (s.wS d (imm.signExtend 64))
def execLic (d : SReg) (imm : BitVec 20) (s : State) : Out := .next (s.wS d ((s.rS d <<< 20) + imm.setWidth 64))

/-! ## Bit fields and funnel shifts (R100) -/

/-- field_check: offset and width operands. -/
def fieldOk (o w : Word64) : Bool := decide (o.toNat ≤ 63) && decide (1 ≤ w.toNat) && decide (o.toNat + w.toNat ≤ 64)
def checkBf (b c : SReg) (s : State) : Verdict := require (fieldOk (s.rS b) (s.rS c)) 15
def checkFsh (c : SReg) (s : State) : Verdict := require (decide ((s.rS c).toNat ≤ 64)) 15
/-- The field of w bits at offset o, as a number. -/
def fieldAt (x o w : Nat) : Nat := x / 2 ^ o % 2 ^ w
def bfxsVal (x o w : Nat) : Word64 :=
  let f := fieldAt x o w
  if 2 ^ (w - 1) ≤ f then BitVec.ofInt 64 ((f : Int) - (2 ^ w : Nat)) else BitVec.ofNat 64 f
def bfiVal (d x : Word64) (o w : Nat) : Word64 := setFld d o w (fld x 0 w)
def fshVal (left : Bool) (a b : Word64) (n : Nat) : Word64 :=
  let x := a.toNat * 2 ^ 64 + b.toNat
  if left then BitVec.ofNat 64 (x * 2 ^ n % 2 ^ 128 / 2 ^ 64) else BitVec.ofNat 64 (x / 2 ^ n)
def execBfxs (d a b c : SReg) (s : State) : Out :=
  s.resolve (checkBf b c s) fun s => s.wS d (bfxsVal (s.rS a).toNat (s.rS b).toNat (s.rS c).toNat)
def execBfxu (d a b c : SReg) (s : State) : Out :=
  s.resolve (checkBf b c s) fun s => s.wS d (BitVec.ofNat 64 (fieldAt (s.rS a).toNat (s.rS b).toNat (s.rS c).toNat))
def execBfi (d a b c : SReg) (s : State) : Out :=
  s.resolve (checkBf b c s) fun s => s.wS d (bfiVal (s.rS d) (s.rS a) (s.rS b).toNat (s.rS c).toNat)
def execFshl (d a b c : SReg) (s : State) : Out :=
  s.resolve (checkFsh c s) fun s => s.wS d (fshVal true (s.rS a) (s.rS b) (s.rS c).toNat)
def execFshr (d a b c : SReg) (s : State) : Out :=
  s.resolve (checkFsh c s) fun s => s.wS d (fshVal false (s.rS a) (s.rS b) (s.rS c).toNat)

/-! ## Counts, compares and select (R101, R102) -/

/-- Set bits, leading and trailing zero bits of an n-bit pattern. -/
def popCount : Nat → Nat → Nat
  | 0, _ => 0
  | n + 1, x => x % 2 + popCount n (x / 2)
def leadZeros (n x : Nat) : Nat := if x % 2 ^ n = 0 then n else n - 1 - Nat.log2 (x % 2 ^ n)
def trailZeros : Nat → Nat → Nat
  | 0, _ => 0
  | n + 1, x => if x % 2 = 1 then 0 else 1 + trailZeros n (x / 2)
def execClz (d a : SReg) (s : State) : Out := .next (s.wS d (BitVec.ofNat 64 (leadZeros 64 (s.rS a).toNat)))
def execCtz (d a : SReg) (s : State) : Out := .next (s.wS d (BitVec.ofNat 64 (trailZeros 64 (s.rS a).toNat)))
def execPopc (d a : SReg) (s : State) : Out := .next (s.wS d (BitVec.ofNat 64 (popCount 64 (s.rS a).toNat)))
def execSel (d a b : SReg) (c : PReg) (s : State) : Out :=
  .next (s.wS d (if (s.rP c).getLsbD 0 then s.rS a else s.rS b))
/-- The conditions 0 to 5 of R102. -/
def condOf (cc : Nat) (a b : Word64) : Bool :=
  match cc with
  | 0 => a == b
  | 1 => a != b
  | 2 => decide (a.toInt < b.toInt)
  | 3 => decide (b.toInt ≤ a.toInt)
  | 4 => decide (a.toNat < b.toNat)
  | _ => decide (b.toNat ≤ a.toNat)
/-- The lanes condition: the bytes of the first `n` elements of width w. -/
def laneBits (n w : Nat) : BitVec 128 := BitVec.ofNat 128 (2 ^ min 128 (n * w) - 1)
def checkPcmp (b : SReg) (cc : BitVec 5) (s : State) : Verdict :=
  let w := (s.rS b).toNat
  require (cc.toNat != 6 || w == 1 || w == 2 || w == 4 || w == 8) 16
def execPcmp (d : PReg) (a b : SReg) (cc : BitVec 5) (s : State) : Out :=
  s.resolve (checkPcmp b cc s) fun s => s.wP d
    (if cc.toNat = 6 then laneBits (s.rS a).toNat (s.rS b).toNat
     else if condOf cc.toNat (s.rS a) (s.rS b) then ~~~0 else 0)

/-! ## Address registers (R103) -/

def execQadd (d a : QReg) (b : SReg) (s : State) : Out := .next (s.wQ d (qoff (s.rQ a) (s.rS b).toInt))
def execQaddi (d a : QReg) (imm : BitVec 15) (s : State) : Out := .next (s.wQ d (qoff (s.rQ a) imm.toInt))
def execQsub (d : SReg) (a b : QReg) (s : State) : Out :=
  .next (s.wS d (((s.rQ a).extractLsb' 0 68 - (s.rQ b).extractLsb' 0 68).setWidth 64))
def execQmov (d : QReg) (a b : SReg) (s : State) : Out := .next (s.wQ d ((s.rS b).extractLsb' 0 8 ++ s.rS a))
def execQtos (d : SReg) (a : QReg) (hi : Bool) (s : State) : Out :=
  .next (s.wS d (if hi then ((s.rQ a).extractLsb' 64 8).setWidth 64 else (s.rQ a).extractLsb' 0 64))
def execQhome (d a : QReg) (b : SReg) (s : State) : Out :=
  .next (s.wQ d ((s.rS b).extractLsb' 0 4 ++ (s.rQ a).extractLsb' 0 68))

end Sys2Proof.Machine
end

