-- ==== Sys2Proof/Machine/Control.lean ====
section
/-! DEFINITION. Class S: control transfer, hardware loops and context control (R104 to R116, R118, R119). -/

namespace Sys2Proof.Machine

/-- The bundle n bundles on from the one in issue (R104). -/
def State.bundleAt (s : State) (n : Int) : VA := qoff s.issue.pc (16 * n)
/-- A taken branch, jmp or jr: fetch goes to t, and loops are broken by the rules of R108 as the bundle ends. -/
def State.transfer (s : State) (t : VA) : State :=
  let s := s.updRegs fun r => { r with pc := t }
  { s with issue := { s.issue with target := some t } }
/-- A change of the next pc that the loop rules leave as it is (call, tret, loop, loopi). -/
def State.direct (s : State) (t : VA) : State :=
  let s := s.updRegs fun r => { r with pc := t }
  { s with issue := { s.issue with direct := some t } }
def State.branch (s : State) (taken : Bool) (off : BitVec 15) : State :=
  if taken then s.transfer (s.bundleAt off.toInt) else s

def execBeq (a b : SReg) (off : BitVec 15) (s : State) : Out := .next (s.branch (condOf 0 (s.rS a) (s.rS b)) off)
def execBne (a b : SReg) (off : BitVec 15) (s : State) : Out := .next (s.branch (condOf 1 (s.rS a) (s.rS b)) off)
def execBlt (a b : SReg) (off : BitVec 15) (s : State) : Out := .next (s.branch (condOf 2 (s.rS a) (s.rS b)) off)
def execBge (a b : SReg) (off : BitVec 15) (s : State) : Out := .next (s.branch (condOf 3 (s.rS a) (s.rS b)) off)
def execBltu (a b : SReg) (off : BitVec 15) (s : State) : Out := .next (s.branch (condOf 4 (s.rS a) (s.rS b)) off)
def execBgeu (a b : SReg) (off : BitVec 15) (s : State) : Out := .next (s.branch (condOf 5 (s.rS a) (s.rS b)) off)
def execJmp (off : BitVec 25) (s : State) : Out := .next (s.transfer (s.bundleAt off.toInt))
def execCall (off : BitVec 25) (s : State) : Out := .next ((s.wQ 15 (s.bundleAt 1)).direct (s.bundleAt off.toInt))
/-- A misaligned target traps at the jr (R69, R105). -/
def checkJr (a : QReg) (s : State) : Verdict := require ((s.rQ a).extractLsb' 0 4 == 0) 2
def execJr (a : QReg) (s : State) : Out := s.resolve (checkJr a s) fun s => s.transfer (s.rQ a)

/-! ## Hardware loops (R107, R108) -/

/-- The checks of R107 and R108: LOOP_SHAPE, then the count's limit, then LOOP_DEPTH; the spec orders no two of them (log 64). -/
def checkLoopN (n : Nat) (off : BitVec 15) (s : State) : Verdict :=
  let ls := s.lat.loops
  let shape := decide (1 ≤ off.toInt) && (match ls with | e :: _ => e.last != s.issue.pc | [] => true)
  (require shape 14).andThen ((require (decide (n < 2 ^ 32)) 16).andThen (require (n == 0 || decide (ls.length < 4)) 13))
def checkLoop (a : SReg) (off : BitVec 15) (s : State) : Verdict := checkLoopN (s.rS a).toNat off s
/-- A count of zero skips the body; any other opens it. -/
def State.openLoop (s : State) (n : Nat) (off : BitVec 15) : State :=
  if n = 0 then s.direct (s.bundleAt (off.toInt + 1))
  else
    let s := s.updRegs fun r => { r with loops := ⟨s.bundleAt 1, s.bundleAt off.toInt, n⟩ :: r.loops }
    s.direct (s.bundleAt 1)
def execLoop (a : SReg) (off : BitVec 15) (s : State) : Out :=
  s.resolve (checkLoop a off s) fun s => s.openLoop (s.rS a).toNat off
def execLoopi (n : BitVec 10) (off : BitVec 15) (s : State) : Out :=
  s.resolve (checkLoopN n.toNat off s) fun s => s.openLoop n.toNat off

/-! ## Context control (R109 to R112) -/

/-- end: Retiring, with the loop stack and pending landings discarded; a domain sync may complete by it (R21). -/
def checkEnd (s : State) : Verdict := s.recheck s.cur
def execEndCtx (s : State) : Out :=
  s.resolve (checkEnd s) fun s =>
    let s := s.upd fun c => { c with st := .retiring, landings := [], regs := { c.regs with loops := [] } }
    s.domainCheck s.cur
/-- yield: the context is Ready and the core selects as if it had blocked. -/
def execYield (s : State) : Out := .next (s.upd fun c => { c with st := .ready })

/-- The oldest token of the context that was pushed before clk `clk`, and the queue without it: tokens of the clk in hand are put in
their order first (R34). -/
def takeToken (n clk : Nat) : List Token → Option (Token × List Token)
  | [] => none
  | t :: rest => if t.ctx = n ∧ t.pushed < clk then some (t, rest) else (takeToken n clk rest).map fun r => (r.1, t :: r.2)
def checkWait (s : State) : Verdict :=
  let k := s.core (coreOf s.cur)
  if k.overflow then .trap 132 0 else blockFor (takeToken s.cur s.clk k.wakeQ).isSome
def execWait (d : SReg) (s : State) : Out :=
  -- the trap clears the overflow bit and pops nothing (R34)
  let v := checkWait s
  let s := if s.settled s.cur then s.updCore (coreOf s.cur) fun k => { k with overflow := false } else s
  s.resolve v fun s =>
    match takeToken s.cur s.clk (s.core (coreOf s.cur)).wakeQ with
    | some (t, rest) =>
      (s.updCore (coreOf s.cur) fun k => { k with wakeQ := rest }).wS d (BitVec.ofNat 64 (t.value.toNat + 65536 * t.cmp))
    | none => s
/-- The limits of R112 on lo and len. -/
def warmOk (lo len : Nat) : Bool :=
  len == 0 || (lo % 128 == 0 && len % 128 == 0 && decide (128 ≤ len) && decide (len ≤ 2 ^ 20) && decide (lo + len ≤ 2 ^ 22))
def checkWarm (a b : SReg) (s : State) : Verdict := require (warmOk (s.rS a).toNat (s.rS b).toNat) 16
def execWarm (a b c : SReg) (n : BitVec 3) (rep : Bool) (s : State) : Out :=
  s.resolve (checkWarm a b s) fun s =>
    let len := (s.rS b).toNat
    let m : Cmp := if len = 0 then .zero
      else ⟨true, (s.rS a).toNat, len, (s.rS c).extractLsb' 0 16, rep, s.cur, 0, s.clk + 1⟩
    s.updCore (coreOf s.cur) fun k => { k with cmps := sput .zero k.cmps n.toNat m }

/-! ## Tile coordinates (R113, R114) -/

def Launch.tileX (l : Launch) : Nat := fld l.record 224 16
def Launch.tileY (l : Launch) : Nat := fld l.record 240 16
/-- The position of a die among those named in DIES, and their number. -/
def Launch.diePos (l : Launch) (d : Nat) : Nat := ((List.range d).filter fun i => l.dies.getLsbD i).length
def Launch.dieCount (l : Launch) : Nat := ((List.range 4).filter fun i => l.dies.getLsbD i).length
/-- The value of the k-th grant of a die: its tile, or the null flag (R114, R115). -/
def Launch.tileValue (l : Launch) (d k : Nat) : Word64 :=
  let n := l.diePos d + k * l.dieCount
  if l.tileX * l.tileY ≤ n then BitVec.ofNat 64 (2 ^ 63)
  else BitVec.ofNat 64 (n % l.tileX + 65536 * (n / l.tileX))
def execTnext (s : State) : Out :=
  let n := s.cur
  let d := dieOf n
  let l := s.launchOf n
  let k := sget 0 l.granted d
  let s := match (s.ctx n).launch with
    | some i => s.updLaunch i fun l => { l with granted := sput 0 l.granted d (k + 1) }
    | none => s
  .next (s.upd fun c =>
    { c with rot := (c.rot + 1) % 4, landings := c.landings ++ [⟨s.clk + Config.tnextDelay, c.rot, l.tileValue d k⟩] })

/-! ## fmtset, trap and tret (R116, R118, R119) -/

/-- A fmt write is pending for the bundle in issue and the four after it (R65). -/
def State.writeFmt (s : State) (x : Word64) : State := s.updRegs fun r => { r with fmtPend := r.fmtPend ++ [(x, 5)] }
def checkFmtset (a : SReg) (s : State) : Verdict := require (fmtOk (s.rS a)) 7
def execFmtset (a : SReg) (s : State) : Out := s.resolve (checkFmtset a s) fun s => s.writeFmt (s.rS a)
/-- SOFTWARE_TRAP at the boundary after the bundle: the other slots have taken effect and the bundle's checkpoint stands, so
that a context which takes the trap unhandled has performed its stores (R96, R118, R312). -/
def checkTrap (s : State) : Verdict := waitFor (s.cx.landings.isEmpty && s.landedBefore s.cur)
def execTrap (imm : BitVec 20) (s : State) : Out :=
  s.resolve (checkTrap s) fun s =>
  let s := (s.markAt s.cur (s.bundleAt 1)).takeTrap s.cur ⟨9, imm.setWidth 64, s.issue.slot, s.issue.opcode, false⟩ true (s.bundleAt 1)
  { s with issue := { s.issue with trapped := true } }
def checkTret (s : State) : Verdict := require (s.lat.tstate.getLsbD 0) 10
def execTret (s : State) : Out := s.resolve (checkTret s) State.trapReturn

end Sys2Proof.Machine
end

