-- ==== Sys2Proof/Machine/SysReg.lean ====
section
/-! DEFINITION. System registers (R76, R115, R117, R184, R286, R289, R318, R343, R344): the one place that reads and writes them. -/

namespace Sys2Proof.Machine

/-! ## The trigger (R344) -/

/-- A trigger: ignored while not armed or while a latch is pending. -/
def State.fireTrigger (s : State) : State :=
  if s.armed && s.latchAt.isNone then { s with latchAt := some (s.clk + Config.latchDelay) } else s
def State.arm (s : State) : State := { s with armed := true }
/-- SNAPSTAT: VALID, ARMED, latch count. -/
def State.snapStat (s : State) : Word64 :=
  BitVec.ofNat 64 (boolN s.snapValid + 2 * boolN s.armed + 2 ^ 32 * s.latches.toNat)
/-- The state code and PC of SNAPPC (R343). -/
def Ctx.snap (c : Ctx) : Word64 :=
  let st := if c.held.isSome then 5 else if c.preempted then 6 else match c.st with
    | .idle => 0 | .ready => 1 | .running => 2 | .blocked => 3 | .retiring => 4
  pcEnc c.regs.pc + BitVec.ofNat 64 (2 ^ 48 * st)

/-! ## Reads (R117) -/

/-- RTFREE: free nodes of a die's resume tree (R286). -/
def State.rtFree (s : State) (d : Nat) : Nat := 2 ^ 20 - ((s.die d).rtNodes.filter fun e => e.2.hdr.getLsbD 85).length
/-- The value of system register `sr` as the context in issue reads it; none is cause 12 (R76). fmt is the value in force for
the bundle (R65). -/
def State.readSR (s : State) (sr : Nat) : Option Word64 :=
  let c := s.cx
  let r := s.lat
  let k := s.core (coreOf s.cur)
  let d := s.die s.myDie
  if sr = 0 then some r.fmt
  else if sr = 1 then some r.fstat
  else if sr = 2 then some c.dom
  else if 4 ≤ sr ∧ sr ≤ 7 then some (sget 0 c.tc (sr - 4))
  else if 0x10 ≤ sr ∧ sr ≤ 0x17 then some (sget 0 r.view (sr - 0x10))
  else if sr = 0x20 then some r.tvec
  else if sr = 0x21 then some r.tcause
  else if sr = 0x22 then some r.tpc
  else if sr = 0x23 then some r.tval
  else if sr = 0x24 then some r.tstate
  else if sr = 0x25 then some r.tscr
  else if sr = 0x28 then some (BitVec.ofNat 64 (c.gate.length + 128 * boolN c.preq))
  else if sr = 0x29 then some (BitVec.ofNat 64 (c.faultRolls + 2 ^ 32 * c.conflRolls))
  else if sr = 0x2A then some (pcEnc c.ck.pc)
  else if sr = 0x60 then some r.gocc
  else if sr = 0x61 then some r.gdraft
  else if sr = 0x62 then some r.gsel
  else if sr = 0x63 then some r.giter
  else if 0x68 ≤ sr ∧ sr ≤ 0x6F then some (sget 0 r.greq (sr - 0x68))
  else if sr = 0x80 then some c.pmerr
  else if sr = 0xA0 then some (d.rtNow.setWidth 64)
  else if sr = 0xA1 then some (BitVec.ofNat 64 (s.rtFree s.myDie))
  else if sr = 0xA2 then some d.rtColl
  else if 0xC0 ≤ sr ∧ sr ≤ 0xC7 then some (sget 0 k.ecnt (sr - 0xC0))
  else if 0xC8 ≤ sr ∧ sr ≤ 0xCF then some (sget 0 k.esel (sr - 0xC8))
  else if 0xD0 ≤ sr ∧ sr ≤ 0xD7 then some (sget 0 k.esnap (sr - 0xD0))
  else if 0xD8 ≤ sr ∧ sr ≤ 0xDB then some (sget 0 s.snapPC (4 * coreOf s.cur + (sr - 0xD8)))
  else if sr = 0xDC then some s.snapStat
  else if sr = 0xDD then some 0
  else none
/-- No command that writes the generation registers is pending: their writes are under the interlock of R15 (R315). -/
def Instr.writesGen : Instr → Bool
  | .schsel .. => true | .tokcommit .. => true | _ => false
def State.genQuiet (s : State) (sr : Nat) : Verdict :=
  waitFor (!(decide (0x60 ≤ sr) && decide (sr ≤ 0x6F) && s.cmds.any fun c => c.ctx == s.cur && Instr.writesGen c.ins))
/-- A tc register with a landing pending stalls the read (R115). -/
def checkMfsr (sr : BitVec 12) (s : State) : Verdict :=
  let n := sr.toNat
  (require (s.readSR n).isSome 12).andThen
    ((waitFor (!(decide (4 ≤ n) && decide (n ≤ 7) && s.cx.landings.any fun l => l.reg == n - 4))).andThen (s.genQuiet n))
def execMfsr (d : SReg) (sr : BitVec 12) (s : State) : Out :=
  s.resolve (checkMfsr sr s) fun s => s.wS d ((s.readSR sr.toNat).getD 0)

/-! ## Writes (R117) -/

/-- The scopes an event of R343 allows: lowest and highest; none is an unlisted event. -/
def eventScopes (e : Nat) : Option (Nat × Nat) :=
  if e = 0 then some (0, 3)
  else if e = 7 ∨ e = 8 then some (1, 3)
  else if e ≤ 13 then some (0, 2)
  else if e ≤ 18 then some (3, 3)
  else none
def eselOk (x : Word64) : Bool :=
  fld x 13 51 == 0 && match eventScopes (fld x 0 8) with
    | some (lo, hi) => decide (lo ≤ fld x 8 2) && decide (fld x 8 2 ≤ hi)
    | none => false
def draftOk (x : Nat) : Bool := x == 0 || x == 4 || x == 8 || x == 13
/-- The cause of a write of x to register sr, 0 if it is accepted (R64, R76, R184, R289, R318, R343). -/
def mtsrCause (sr : Nat) (x : Word64) : Nat :=
  if sr = 0 then if fmtOk x then 0 else 7
  else if sr = 1 then 0
  else if 0x10 ≤ sr ∧ sr ≤ 0x17 then if fld x 0 3 ≤ 4 then 0 else 16
  else if sr = 0x20 then if fld x 32 31 = 0 then 0 else 16
  else if sr = 0x22 then if fld x 48 16 = 0 then 0 else 16
  else if sr = 0x25 ∨ sr = 0x60 ∨ sr = 0x63 then 0
  else if sr = 0x61 then if draftOk (fld x 0 4) then 0 else 16
  else if 0x68 ≤ sr ∧ sr ≤ 0x6F then 0
  else if 0xC0 ≤ sr ∧ sr ≤ 0xC7 then 0
  else if 0xC8 ≤ sr ∧ sr ≤ 0xCF then if eselOk x then 0 else 16
  else if sr = 0xDD then if fld x 2 62 = 0 then 0 else 16
  else 12
def checkMtsr (a : SReg) (sr : BitVec 12) (s : State) : Verdict :=
  let c := mtsrCause sr.toNat (s.rS a)
  (require (c == 0) c).andThen (s.genQuiet sr.toNat)
/-- The write of an accepted value; reserved bits that a table ignores read back zero (R10). -/
def State.writeSR (s : State) (sr : Nat) (x : Word64) : State :=
  let low (n : Nat) : Word64 := BitVec.ofNat 64 (fld x 0 n)
  let c := coreOf s.cur
  if sr = 0 then s.writeFmt x
  else if sr = 1 then s.updRegs fun r => { r with fstat := low 6 ||| s.issue.flags.setWidth 64 }
  else if 0x10 ≤ sr ∧ sr ≤ 0x17 then s.updRegs fun r => { r with view := sput 0 r.view (sr - 0x10) (low 6) }
  else if sr = 0x20 then s.updRegs fun r => { r with tvec := x }
  else if sr = 0x22 then s.updRegs fun r => { r with tpc := x }
  else if sr = 0x25 then s.updRegs fun r => { r with tscr := x }
  else if sr = 0x60 then s.updRegs fun r => { r with gocc := low 16 }
  else if sr = 0x61 then s.updRegs fun r => { r with gdraft := low 4 }
  else if sr = 0x63 then s.updRegs fun r => { r with giter := low 32 }
  else if 0x68 ≤ sr ∧ sr ≤ 0x6F then s.updRegs fun r => { r with greq := sput 0 r.greq (sr - 0x68) x }
  else if 0xC0 ≤ sr ∧ sr ≤ 0xC7 then s.updCore c fun k =>
    { k with ecnt := sput 0 k.ecnt (sr - 0xC0) x, ecntAt := s.clk,
             ecntSet := (sr - 0xC0) :: (if k.ecntAt = s.clk then k.ecntSet else []) }
  else if 0xC8 ≤ sr ∧ sr ≤ 0xCF then s.updCore c fun k => { k with esel := sput 0 k.esel (sr - 0xC8) x }
  else
    let s := if x.getLsbD 0 then s.fireTrigger else s
    if x.getLsbD 1 then s.arm else s
def execMtsr (a : SReg) (sr : BitVec 12) (s : State) : Out :=
  s.resolve (checkMtsr a sr s) fun s => s.writeSR sr.toNat (s.rS a)

end Sys2Proof.Machine
end

