-- ==== Sys2Proof/Machine/Vector.lean ====
section
/-! DEFINITION. Class V: element arithmetic, compares, conversions, special functions, reductions and scans (R124 to R136). -/

namespace Sys2Proof.Machine

/-- An element as the integer its type reads (R49). -/
def elemInt (ty : Ty) (x : Nat) : Int := if ty.isSigned then sx (8 * ty.width) x else (x : Int)
/-- The range of an integer type. -/
def tyLo (ty : Ty) : Int := if ty.isSigned then -(2 ^ (8 * ty.width - 1) : Nat) else 0
def tyHi (ty : Ty) : Int := if ty.isSigned then (2 ^ (8 * ty.width - 1) : Nat) - 1 else (2 ^ (8 * ty.width) : Nat) - 1
def clampTy (ty : Ty) (i : Int) : Int := if i < tyLo ty then tyLo ty else if tyHi ty < i then tyHi ty else i
/-- An integer result, stored modulo 2^(element bits); no flag (R49). -/
def intRes (ty : Ty) (i : Int) : Nat × Flg := (wrap (8 * ty.width) i, 0)

/-- A two-operand operation on one element: the FP form on patterns, the INT form on integers. -/
def elem2 (ty : Ty) (fp : Fmt → Nat → Nat → Nat × Flg) (int : Int → Int → Int) (x y : Nat) : Nat × Flg :=
  if ty.isFp then fp (tyFmt ty) x y else intRes ty (int (elemInt ty x) (elemInt ty y))
/-- Write a vector and raise its flags (R127). -/
def State.wVF (s : State) (d : VReg) (r : Vec × Flg) : State := (s.wV d r.1).raiseFlags r.2
/-- Element-wise f over vA and vB under the predicate (R125). -/
def State.vmap2 (s : State) (ty : Ty) (d a b : VReg) (p : Pred) (f : Nat → Nat → Nat × Flg) : State :=
  s.wVF d (laneMap ty.width (s.lat.pred p) (s.rV d) fun i => f (lane ty.width (s.rV a) i) (lane ty.width (s.rV b) i))
def State.vmap1 (s : State) (ty : Ty) (d a : VReg) (p : Pred) (f : Nat → Nat × Flg) : State :=
  s.wVF d (laneMap ty.width (s.lat.pred p) (s.rV d) fun i => f (lane ty.width (s.rV a) i))

/-! ## Arithmetic (R128 to R130) -/

def vAdd (ty : Ty) : Nat → Nat → Nat × Flg := elem2 ty fpAdd (· + ·)
def vSub (ty : Ty) : Nat → Nat → Nat × Flg := elem2 ty fpSub (· - ·)
def vMul (ty : Ty) : Nat → Nat → Nat × Flg := elem2 ty fpMul (· * ·)
def vMin (ty : Ty) : Nat → Nat → Nat × Flg := elem2 ty fpMin min
def vMax (ty : Ty) : Nat → Nat → Nat × Flg := elem2 ty fpMax max
/-- Shifts by a (R128): by the full width or more a logical shift gives 0, an arithmetic one the sign. -/
def vShl (ty : Ty) (x a : Nat) : Nat × Flg := (if 8 * ty.width ≤ a then 0 else x * 2 ^ a % 2 ^ (8 * ty.width), 0)
def vShr (ty : Ty) (x a : Nat) : Nat × Flg := (if 8 * ty.width ≤ a then 0 else x / 2 ^ a, 0)
def vSra (ty : Ty) (x a : Nat) : Nat × Flg :=
  (wrap (8 * ty.width) (sx (8 * ty.width) x / (2 ^ min a (8 * ty.width - 1) : Nat)), 0)

def execVadd (ty : Ty) (d a b : VReg) (p : Pred) (s : State) : Out := .next (s.vmap2 ty d a b p (vAdd ty))
def execVsub (ty : Ty) (d a b : VReg) (p : Pred) (s : State) : Out := .next (s.vmap2 ty d a b p (vSub ty))
def execVmul (ty : Ty) (d a b : VReg) (p : Pred) (s : State) : Out := .next (s.vmap2 ty d a b p (vMul ty))
/-- vfma and vfms read vD as their third operand and round once. -/
def State.vfused (s : State) (ty : Ty) (d a b : VReg) (p : Pred) (neg : Bool) : State :=
  let F := tyFmt ty
  s.wVF d (laneMap ty.width (s.lat.pred p) (s.rV d) fun i =>
    let x := lane ty.width (s.rV a) i
    fpFma F (if neg then fpNegPat F x else x) (lane ty.width (s.rV b) i) (lane ty.width (s.rV d) i))
def execVfma (ty : Ty) (d a b : VReg) (p : Pred) (s : State) : Out := .next (s.vfused ty d a b p false)
def execVfms (ty : Ty) (d a b : VReg) (p : Pred) (s : State) : Out := .next (s.vfused ty d a b p true)
def execVdiv (ty : Ty) (d a b : VReg) (p : Pred) (s : State) : Out := .next (s.vmap2 ty d a b p (fpDiv (tyFmt ty)))
def execVmin (ty : Ty) (d a b : VReg) (p : Pred) (s : State) : Out := .next (s.vmap2 ty d a b p (vMin ty))
def execVmax (ty : Ty) (d a b : VReg) (p : Pred) (s : State) : Out := .next (s.vmap2 ty d a b p (vMax ty))
def execVabs (ty : Ty) (d a : VReg) (p : Pred) (s : State) : Out := .next (s.vmap1 ty d a p (fun x => if ty.isFp then fpAbs (tyFmt ty) x else intRes ty (elemInt ty x).natAbs))
def execVneg (ty : Ty) (d a : VReg) (p : Pred) (s : State) : Out := .next (s.vmap1 ty d a p (fun x => if ty.isFp then fpNeg (tyFmt ty) x else intRes ty (-(elemInt ty x))))
def execVadds (ty : Ty) (d a b : VReg) (p : Pred) (s : State) : Out := .next (s.vmap2 ty d a b p (fun x y => intRes ty (clampTy ty (elemInt ty x + elemInt ty y))))
def execVsubs (ty : Ty) (d a b : VReg) (p : Pred) (s : State) : Out := .next (s.vmap2 ty d a b p (fun x y => intRes ty (clampTy ty (elemInt ty x - elemInt ty y))))
def execVmulh (ty : Ty) (d a b : VReg) (p : Pred) (s : State) : Out := .next (s.vmap2 ty d a b p (fun x y => intRes ty (elemInt ty x * elemInt ty y / (2 ^ (8 * ty.width) : Nat))))
def execVshl (ty : Ty) (d a b : VReg) (p : Pred) (s : State) : Out := .next (s.vmap2 ty d a b p (vShl ty))
def execVshr (ty : Ty) (d a b : VReg) (p : Pred) (s : State) : Out := .next (s.vmap2 ty d a b p (vShr ty))
def execVsra (ty : Ty) (d a b : VReg) (p : Pred) (s : State) : Out := .next (s.vmap2 ty d a b p (vSra ty))
def execVaddi (ty : Ty) (d a : VReg) (imm : BitVec 15) (p : Pred) (s : State) : Out :=
  .next (s.vmap1 ty d a p fun x => intRes ty (elemInt ty x + imm.toInt))
/-- A shift immediate of the element width or more traps (R130). -/
def checkVsh (ty : Ty) (imm : BitVec 15) : Verdict := require (decide (imm.toNat < 8 * ty.width)) 16
def execVshli (ty : Ty) (d a : VReg) (imm : BitVec 15) (p : Pred) (s : State) : Out :=
  s.resolve (checkVsh ty imm) fun s => s.vmap1 ty d a p fun x => vShl ty x imm.toNat
def execVshri (ty : Ty) (d a : VReg) (imm : BitVec 15) (p : Pred) (s : State) : Out :=
  s.resolve (checkVsh ty imm) fun s => s.vmap1 ty d a p fun x => vShr ty x imm.toNat
def execVsrai (ty : Ty) (d a : VReg) (imm : BitVec 15) (p : Pred) (s : State) : Out :=
  s.resolve (checkVsh ty imm) fun s => s.vmap1 ty d a p fun x => vSra ty x imm.toNat

/-! ## Compares and select (R131, R132) -/

/-- x < y of a type: values for FP, false for a NaN. -/
def elemLt (ty : Ty) (x y : Nat) : Bool :=
  if ty.isFp then (decodeFP (tyFmt ty) x).lt (decodeFP (tyFmt ty) y) else decide (elemInt ty x < elemInt ty y)
def elemEq (ty : Ty) (x y : Nat) : Bool :=
  if ty.isFp then (decodeFP (tyFmt ty) x).eq (decodeFP (tyFmt ty) y) else x == y
def elemNan (ty : Ty) (x : Nat) : Bool := ty.isFp && (decodeFP (tyFmt ty) x).isNan
/-- Set the bits of enabled elements to the comparison; NaN operands raise NV when `loud`. -/
def State.vcompare (s : State) (ty : Ty) (d : PReg) (a b : VReg) (p : Pred) (loud : Bool) (f : Nat → Nat → Bool) : State :=
  let w := ty.width
  let pr := s.lat.pred p
  let r := (List.range (128 / w)).foldl (fun (acc : BitVec 128 × Flg) i =>
    if enabled w pr i then
      let x := lane w (s.rV a) i
      let y := lane w (s.rV b) i
      (setFld acc.1 (i * w) w (if f x y then 2 ^ w - 1 else 0), acc.2 ||| nvIf (loud && (elemNan ty x || elemNan ty y)))
    else acc) (s.rP d, 0)
  (s.wP d r.1).raiseFlags r.2
def execVcmpeq (ty : Ty) (d : PReg) (a b : VReg) (p : Pred) (s : State) : Out := .next (s.vcompare ty d a b p false (elemEq ty))
def execVcmpne (ty : Ty) (d : PReg) (a b : VReg) (p : Pred) (s : State) : Out := .next (s.vcompare ty d a b p false (fun x y => !elemEq ty x y))
def execVcmplt (ty : Ty) (d : PReg) (a b : VReg) (p : Pred) (s : State) : Out := .next (s.vcompare ty d a b p true (elemLt ty))
def execVcmple (ty : Ty) (d : PReg) (a b : VReg) (p : Pred) (s : State) : Out := .next (s.vcompare ty d a b p true (fun x y => elemLt ty x y || elemEq ty x y))
def execVsel (ty : Ty) (d a b : VReg) (c : PReg) (s : State) : Out :=
  let w := ty.width
  .next (s.wV d (ofLanes w ((List.range (128 / w)).map fun i =>
    if (s.rP c).getLsbD (i * w) then lane w (s.rV a) i else lane w (s.rV b) i)))

/-! ## Conversions (R56, R133, R134) -/

/-- convert (R56): one element from src to ty under a rounding mode and SAT. -/
def convert (rnd : Rnd) (sat : Bool) (src ty : Ty) (x : Nat) : Nat × Flg :=
  let fpSrc := src.isFp || src.isF8
  let fpDst := ty.isFp || ty.isF8
  if fpSrc then
    let v := decodeFP (tyFmt src) x
    if fpDst then cvtToFP (tyFmt ty) rnd (sat && decide (ty.width ≤ src.width)) v
    else
      let r := cvtToInt (tyLo ty) (tyHi ty) rnd v
      (wrap (8 * ty.width) r.1, r.2)
  else
    let i := elemInt src x
    if fpDst then cvtToFP (tyFmt ty) rnd sat (.ofInt i 0)
    else if src.width < ty.width || !sat then (wrap (8 * ty.width) i, 0)
    else (wrap (8 * ty.width) (clampTy ty i), if clampTy ty i = i then 0 else fSF)
def execVcvt (ty src : Ty) (d a : VReg) (part : BitVec 2) (p : Pred) (s : State) : Out :=
  let ws := src.width
  let wd := ty.width
  let m := max ws wd
  let rnd := fmtRnd s.lat.fmt
  let sat := fmtSat s.lat.fmt
  let r := (List.range (128 / m)).foldl (fun (acc : Vec × Flg) i =>
    let j := if wd ≤ ws then part.toNat * (128 / ws) + i else i
    let x := if wd ≤ ws then lane ws (s.rV a) i else lane ws (s.rV a) (part.toNat * (128 / wd) + i)
    if enabled wd (s.lat.pred p) j then
      let y := convert rnd sat src ty x
      (setLane wd acc.1 j y.1, acc.2 ||| y.2)
    else acc) (s.rV d, 0)
  .next (s.wVF d r)
/-- vbppack and vbpunpack between INT8 elements and blocks of n planes (R50, R134). -/
def bpPack (n : Nat) (v : Vec) : Vec :=
  (List.range 128).foldl (fun r e =>
    (List.range n).foldl (fun r j =>
      if bit (lane 1 v e) (n - 1 - j) then r ||| (1#1024 <<< (8 * (4 * n * (e / 32) + 4 * j) + e % 32)) else r) r) 0
def bpUnpack (k : Nat) (v : Vec) : Vec :=
  ofLanes 1 ((List.range 128).map fun e =>
    let code := (List.range k).foldl (fun c j => 2 * c + boolN (v.getLsbD (8 * (4 * k * (e / 32) + 4 * j) + e % 32))) 0
    wrap 8 (sx k code))
def execVbppack (planes : BitVec 3) (d a : VReg) (s : State) : Out := .next (s.wV d (bpPack (planes.toNat + 2) (s.rV a)))
def execVbpunpack (planes : BitVec 3) (d a : VReg) (s : State) : Out := .next (s.wV d (bpUnpack (planes.toNat + 2) (s.rV a)))

/-! ## Special functions (R135) -/

def execVexp2 (ty : Ty) (d a : VReg) (p : Pred) (s : State) : Out := .next (s.vmap1 ty d a p (fpExp2 (tyFmt ty)))
def execVlog2 (ty : Ty) (d a : VReg) (p : Pred) (s : State) : Out := .next (s.vmap1 ty d a p (fpLog2 (tyFmt ty)))
def execVrcp (ty : Ty) (d a : VReg) (p : Pred) (s : State) : Out := .next (s.vmap1 ty d a p (fpRcp (tyFmt ty)))
def execVrsqrt (ty : Ty) (d a : VReg) (p : Pred) (s : State) : Out := .next (s.vmap1 ty d a p (fpRsqrt (tyFmt ty)))

/-! ## Reductions and scans (R60, R136) -/

/-- log2 of the element count. -/
def treeDepth (w : Nat) : Nat := Nat.log2 (128 / w)
/-- Identities of add, max and min. -/
def idAdd (ty : Ty) : Nat := if ty.isFp then (tyFmt ty).sign else 0
def idMax (ty : Ty) : Nat :=
  if ty.isFp then (tyFmt ty).sign + (tyFmt ty).infPat else wrap (8 * ty.width) (tyLo ty)
def idMin (ty : Ty) : Nat := if ty.isFp then (tyFmt ty).infPat else wrap (8 * ty.width) (tyHi ty)
/-- The elements that take part, the others as the identity. -/
def State.taking (s : State) (ty : Ty) (a : VReg) (p : Pred) (ident : Nat) : List Nat :=
  (List.range (128 / ty.width)).map fun i => if enabled ty.width (s.lat.pred p) i then lane ty.width (s.rV a) i else ident
def State.vreduce (s : State) (ty : Ty) (d a : VReg) (p : Pred) (op : Nat → Nat → Nat × Flg) (ident : Nat) : State :=
  let r := treeRed op (treeDepth ty.width) (s.taking ty a p ident)
  s.wVF d (ofLanes ty.width [r.1], r.2)
/-- Every op of the scan raises its flags, at a position whose source the predicate excludes too (log 74). -/
def State.vscan (s : State) (ty : Ty) (d a : VReg) (p : Pred) (op : Nat → Nat → Nat × Flg) (ident : Nat) : State :=
  let r := scanAll op (treeDepth ty.width) 1 (s.taking ty a p ident)
  s.wVF d (ofLanes ty.width r.1, r.2)
def execVredadd (ty : Ty) (d a : VReg) (p : Pred) (s : State) : Out := .next (s.vreduce ty d a p (vAdd ty) (idAdd ty))
def execVredmax (ty : Ty) (d a : VReg) (p : Pred) (s : State) : Out := .next (s.vreduce ty d a p (vMax ty) (idMax ty))
def execVredmin (ty : Ty) (d a : VReg) (p : Pred) (s : State) : Out := .next (s.vreduce ty d a p (vMin ty) (idMin ty))
def execVscanadd (ty : Ty) (d a : VReg) (p : Pred) (s : State) : Out := .next (s.vscan ty d a p (vAdd ty) (idAdd ty))
def execVscanmax (ty : Ty) (d a : VReg) (p : Pred) (s : State) : Out := .next (s.vscan ty d a p (vMax ty) (idMax ty))

end Sys2Proof.Machine
end

