-- ==== Sys2Proof/Machine/VectorMove.lean ====
section
/-! DEFINITION. Class V: permutes, logic, bit fields, moves, predicates, masks, and the sampler's instructions (R137 to R151). -/

namespace Sys2Proof.Machine

/-! ## Permutes and broadcasts (R137 to R139) -/

def execVperm (ty : Ty) (d a b : VReg) (p : Pred) (s : State) : Out :=
  let w := ty.width
  .next (s.wVF d (laneMap w (s.lat.pred p) (s.rV d) fun i =>
    let x := lane w (s.rV b) i
    (if x < 128 / w then lane w (s.rV a) x else 0, 0)))
def checkLaneS (ty : Ty) (b : SReg) (s : State) : Verdict := require (decide ((s.rS b).toNat < 128 / ty.width)) 16
def execVbcast (ty : Ty) (d a : VReg) (b : SReg) (p : Pred) (s : State) : Out :=
  s.resolve (checkLaneS ty b s) fun s =>
    s.wVF d (laneMap ty.width (s.lat.pred p) (s.rV d) fun _ => (lane ty.width (s.rV a) (s.rS b).toNat, 0))
def checkVrot (ty : Ty) (imm : BitVec 15) : Verdict := require (decide (imm.toNat < 128 / ty.width)) 16
def execVrot (ty : Ty) (d a : VReg) (imm : BitVec 15) (p : Pred) (s : State) : Out :=
  s.resolve (checkVrot ty imm) fun s =>
    let n := 128 / ty.width
    s.wVF d (laneMap ty.width (s.lat.pred p) (s.rV d) fun i => (lane ty.width (s.rV a) ((i + imm.toNat) % n), 0))
def checkVslide (ty : Ty) (imm : BitVec 15) : Verdict := require (decide (imm.toInt.natAbs ≤ 128 / ty.width)) 16
def execVslide (ty : Ty) (d a : VReg) (imm : BitVec 15) (p : Pred) (s : State) : Out :=
  s.resolve (checkVslide ty imm) fun s =>
    let n := 128 / ty.width
    s.wVF d (laneMap ty.width (s.lat.pred p) (s.rV d) fun i =>
      let j : Int := i + imm.toInt
      (if 0 ≤ j ∧ j < n then lane ty.width (s.rV a) j.toNat else 0, 0))
def execVzip (ty : Ty) (d a b : VReg) (half : Bool) (p : Pred) (s : State) : Out :=
  let w := ty.width
  let h := boolN half * (128 / w / 2)
  .next (s.wVF d (laneMap w (s.lat.pred p) (s.rV d) fun i =>
    (if i % 2 = 0 then lane w (s.rV a) (h + i / 2) else lane w (s.rV b) (h + i / 2), 0)))
def execVunzip (ty : Ty) (d a b : VReg) (half : Bool) (p : Pred) (s : State) : Out :=
  let w := ty.width
  let n := 128 / w
  .next (s.wVF d (laneMap w (s.lat.pred p) (s.rV d) fun i =>
    let j := 2 * i + boolN half
    (if j < n then lane w (s.rV a) j else lane w (s.rV b) (j - n), 0)))

/-! ## Logic, counts and bit fields (R140, R141) -/

def execVand (ty : Ty) (d a b : VReg) (p : Pred) (s : State) : Out := .next (s.vmap2 ty d a b p fun x y => (x &&& y, 0))
def execVor (ty : Ty) (d a b : VReg) (p : Pred) (s : State) : Out := .next (s.vmap2 ty d a b p fun x y => (x ||| y, 0))
def execVxor (ty : Ty) (d a b : VReg) (p : Pred) (s : State) : Out := .next (s.vmap2 ty d a b p fun x y => (x ^^^ y, 0))
def execVandn (ty : Ty) (d a b : VReg) (p : Pred) (s : State) : Out :=
  .next (s.vmap2 ty d a b p fun x y => (x &&& (2 ^ (8 * ty.width) - 1 - y), 0))
def execVpopc (ty : Ty) (d a : VReg) (p : Pred) (s : State) : Out :=
  .next (s.vmap1 ty d a p fun x => (popCount (8 * ty.width) x, 0))
def execVclz (ty : Ty) (d a : VReg) (p : Pred) (s : State) : Out :=
  .next (s.vmap1 ty d a p fun x => (leadZeros (8 * ty.width) x, 0))
/-- Offset and width are bytes 0 and 1 of vB, for the whole instruction. -/
def checkVbf (ty : Ty) (b : VReg) (s : State) : Verdict :=
  require (decide (1 ≤ lane 1 (s.rV b) 1) && decide (lane 1 (s.rV b) 0 + lane 1 (s.rV b) 1 ≤ 8 * ty.width)) 15
def execVbfx (ty : Ty) (d a b : VReg) (p : Pred) (s : State) : Out :=
  s.resolve (checkVbf ty b s) fun s =>
    let o := lane 1 (s.rV b) 0
    let f := lane 1 (s.rV b) 1
    s.vmap1 ty d a p fun x => intRes ty (if ty.isSigned then sx f (fieldAt x o f) else (fieldAt x o f : Nat))
def execVbfi (ty : Ty) (d a b : VReg) (p : Pred) (s : State) : Out :=
  s.resolve (checkVbf ty b s) fun s =>
    let o := lane 1 (s.rV b) 0
    let f := lane 1 (s.rV b) 1
    let w := ty.width
    s.wVF d (laneMap w (s.lat.pred p) (s.rV d) fun i =>
      let x := lane w (s.rV d) i
      (x - fieldAt x o f * 2 ^ o + lane w (s.rV a) i % 2 ^ f * 2 ^ o, 0))

/-! ## Moves, predicates and masks (R142 to R145) -/

def execVins (ty : Ty) (d : VReg) (a b : SReg) (s : State) : Out :=
  s.resolve (checkLaneS ty b s) fun s => s.wV d (setLane ty.width (s.rV d) (s.rS b).toNat (s.rS a).toNat)
def execVext (ty : Ty) (d : SReg) (a : VReg) (b : SReg) (s : State) : Out :=
  s.resolve (checkLaneS ty b s) fun s => s.wS d (BitVec.ofInt 64 (elemInt ty (lane ty.width (s.rV a) (s.rS b).toNat)))
def execVdup (ty : Ty) (d : VReg) (a : SReg) (p : Pred) (s : State) : Out :=
  .next (s.wVF d (laneMap ty.width (s.lat.pred p) (s.rV d) fun _ => (fld (s.rS a) 0 (8 * ty.width), 0)))
def execVmov (ty : Ty) (d a : VReg) (p : Pred) (s : State) : Out := .next (s.vmap1 ty d a p fun x => (x, 0))
def execPand (d a b : PReg) (s : State) : Out := .next (s.wP d (s.rP a &&& s.rP b))
def execPor (d a b : PReg) (s : State) : Out := .next (s.wP d (s.rP a ||| s.rP b))
def execPxor (d a b : PReg) (s : State) : Out := .next (s.wP d (s.rP a ^^^ s.rP b))
def execPnot (d a : PReg) (s : State) : Out := .next (s.wP d (~~~(s.rP a)))
def execMand (d a b : MReg) (s : State) : Out := .next (s.wM d (s.lat.gm a &&& s.lat.gm b))
def execMor (d a b : MReg) (s : State) : Out := .next (s.wM d (s.lat.gm a ||| s.lat.gm b))
def execMxor (d a b : MReg) (s : State) : Out := .next (s.wM d (s.lat.gm a ^^^ s.lat.gm b))
def execMset (d : MReg) (a : SReg) (s : State) : Out := .next (s.wM d ((s.rS a).setWidth 16))
def execMget (d : SReg) (a : MReg) (s : State) : Out := .next (s.wS d ((s.lat.gm a).setWidth 64))
/-- Parent of node j; the sets of ancestors built so far, one per node. -/
def parentAt (v : Vec) (j : Nat) : Int := sx 32 (lane 4 v j)
def ancestors (v : Vec) (c : Nat) : List Nat :=
  (List.range 16).foldl (fun acc j =>
    acc ++ [if c ≤ j then 0 else
      let p := parentAt v j
      if p = -1 then 2 ^ j else acc.getD p.toNat 0 ||| 2 ^ j]) []
def treeOk (v : Vec) (c : Nat) : Bool :=
  decide (1 ≤ c) && decide (c ≤ 16) &&
    (List.range c).all fun j => decide (parentAt v j = -1) || (decide (0 ≤ parentAt v j) && decide (parentAt v j < j))
def checkManc (a : VReg) (b : SReg) (s : State) : Verdict := require (treeOk (s.rV a) (s.rS b).toNat) 16
def execManc (a : VReg) (b : SReg) (s : State) : Out :=
  s.resolve (checkManc a b s) fun s =>
    (ancestors (s.rV a) (s.rS b).toNat).zipIdx.foldl (fun s x => s.wM (BitVec.ofNat 4 x.2) (BitVec.ofNat 16 x.1)) s

/-! ## Sampling and filtering (R146 to R151) -/

/-- The strict order of R146: NaNs above every number and equal to each other. -/
def argGreater (ty : Ty) (x y : Nat) : Bool :=
  if elemNan ty x then !elemNan ty y else if elemNan ty y then false else elemLt ty y x
def execVargmax (ty : Ty) (d a : VReg) (b : SReg) (p : Pred) (s : State) : Out :=
  let w := ty.width
  let v := s.rV a
  let en := (List.range (128 / w)).filter (enabled w (s.lat.pred p))
  let best := en.foldl (fun (m : Option Nat) i =>
    match m with
    | none => some i
    | some j => if argGreater ty (lane w v i) (lane w v j) then some i else some j) none
  let r := match best with
    | none => ofLanes 4 [0, 0xFFFFFFFF]
    | some i => ofLanes 4 [lane w v i, ((s.rS b).toNat + i) % 2 ^ 32]
  .next (s.wVF d (r, nvIf (en.any fun i => elemNan ty (lane w v i))))
/-- The pairs of vA taken in order against the chunk from `base`: vD, pairs used, whether a pair has ended the scan, flags. -/
def sparseStep (v : Vec) (base : Nat) (acc : Vec × Nat × Bool × Flg) (j : Nat) : Vec × Nat × Bool × Flg :=
  let x := lane 4 v (2 * j)
  if acc.2.2.1 then acc
  else if base + 32 ≤ x then (acc.1, acc.2.1, true, acc.2.2.2)
  else if base ≤ x then
    let r := fpAdd .f32 (lane 4 acc.1 (x - base)) (lane 4 v (2 * j + 1))
    (setLane 4 acc.1 (x - base) r.1, acc.2.1 + 1, false, acc.2.2.2 ||| r.2)
  else (acc.1, acc.2.1 + 1, false, acc.2.2.2)
def execVsparseadd (d a : VReg) (b : SReg) (s : State) : Out :=
  let base := fld (s.rS b) 0 32
  let r := (List.range 16).foldl (sparseStep (s.rV a) base) (s.rV d, 0, false, 0)
  .next ((s.wVF d (r.1, r.2.2.2)).wS b (BitVec.ofNat 64 (r.2.1 * 2 ^ 32 + base)))
/-- The 12-bit hash of R148. -/
def cfHash (t seed : Nat) : Nat := (t ^^^ seed) * 0x9E3779B1 % 2 ^ 32 / 2 ^ 20
def execVcfhash (form : BitVec 2) (d a : VReg) (b : SReg) (p : Pred) (s : State) : Out :=
  let s0 := fld (s.rS b) 0 32
  let s1 := fld (s.rS b) 32 32
  .next (s.wVF d (laneMap 4 (s.lat.pred p) (s.rV d) fun i =>
    let t := lane 4 (s.rV a) i
    (match form.toNat with
     | 0 => cfHash t s0
     | 1 => cfHash t s1
     | _ => cfHash t s1 * 65536 + cfHash t s0, 0)))
def cfBump (sl : Nat) (v : Vec) (x : Nat) : Vec :=
  if x / 128 = sl then setLane 1 v (x % 128) (min 255 (lane 1 v (x % 128) + 1)) else v
def execVcfupd (d a : VReg) (b : SReg) (p : Pred) (s : State) : Out :=
  let sl := fld (s.rS b) 0 5
  let v := (List.range 32).foldl (fun v i =>
    if enabled 4 (s.lat.pred p) i then
      let x := lane 4 (s.rV a) i
      let h := bits x 11 0
      let g := bits x 27 16
      if h = g then cfBump sl v h else cfBump sl (cfBump sl v h) g
    else v) (s.rV d)
  .next (s.wV d v)
/-- A node of all ones ends the step before vA and u are looked at (R150, log 62). -/
def execVdesc (d a : VReg) (s : State) : Out :=
  let v := s.rV a
  let o := s.rV d
  let node := lane 4 o 1
  if node = 0xFFFFFFFF then .next (s.wV d (setLane 4 o 2 0xFFFFFFFF))
  else
    let u := lane 4 o 0
    let nan := nvIf (elemNan .f32 u || (lanes 4 v).any (elemNan .f32))
    let prev (j : Nat) : Nat := if j = 0 then 0 else lane 4 v (j - 1)
    let j := match (List.range 32).find? fun i => elemLt .f32 u (lane 4 v i) with
      | some j => some j
      | none => (List.range 32).reverse.find? fun i => elemLt .f32 (prev i) (lane 4 v i)
    match j with
    | none => .next (s.wVF d (setLane 4 (setLane 4 o 1 0xFFFFFFFF) 2 0xFFFFFFFF, nan))
    | some j =>
      let r := fpSub .f32 u (prev j)
      .next (s.wVF d (setLane 4 (setLane 4 (setLane 4 o 0 r.1) 1 ((node * 32 + j) % 2 ^ 32)) 2 j, nan ||| r.2))
/-- One Philox round on (c0, c1, c2, c3) with keys k0, k1 (R151). -/
def philoxRound (c : Nat × Nat × Nat × Nat) (k0 k1 : Nat) : Nat × Nat × Nat × Nat :=
  let p := 0xD2511F53 * c.1
  let o := 0xCD9E8D57 * c.2.2.1
  ((o / 2 ^ 32) ^^^ c.2.1 ^^^ k0, o % 2 ^ 32, (p / 2 ^ 32) ^^^ c.2.2.2 ^^^ k1, p % 2 ^ 32)
def philox (c : Nat × Nat × Nat × Nat) (k0 k1 : Nat) : Nat × Nat × Nat × Nat :=
  (List.range 10).foldl (fun c r =>
    philoxRound c ((k0 + r * 0x9E3779B9) % 2 ^ 32) ((k1 + r * 0xBB67AE85) % 2 ^ 32)) c
def execVphilox (d a b : VReg) (s : State) : Out :=
  let v := s.rV a
  .next (s.wV d (ofLanes 4 ((List.range 8).flatMap fun g =>
    let r := philox (lane 4 v (4 * g), lane 4 v (4 * g + 1), lane 4 v (4 * g + 2), lane 4 v (4 * g + 3))
      (lane 4 (s.rV b) 0) (lane 4 (s.rV b) 1)
    [r.1, r.2.1, r.2.2.1, r.2.2.2])))

end Sys2Proof.Machine
end

