-- ==== Sys2Proof/Machine/Mem.lean ====
section
/-! DEFINITION. Class L: loads, stores, gather, scatter, prefetch, lda, stl, fence and drain (R153 to R164, R170 to R172, R178). -/

namespace Sys2Proof.Machine

/-- VIEWCLASS[vc] as the slot reads it (R73, R184). -/
def State.vcOf (s : State) (vc : BitVec 3) : Word64 := sget 0 s.lat.view vc.toNat
/-- Effective addresses of R153: immediate offset, scalar index, strided element, vector index. -/
def State.eaOff (s : State) (q : QReg) (off : BitVec 17) : VA := qoff (s.rQ q) off.toInt
def State.eaIdx (s : State) (q : QReg) (i : SReg) (sc : BitVec 2) : VA := qoff (s.rQ q) ((s.rS i).toInt * (2 ^ sc.toNat : Nat))
def State.eaStride (s : State) (q : QReg) (i : SReg) (sc : BitVec 2) (e : Nat) : VA :=
  qoff (s.rQ q) (e * ((s.rS i).toInt * (2 ^ sc.toNat : Nat)))
def State.eaVec (s : State) (ty : Ty) (q : QReg) (i : VReg) (sc : BitVec 2) (e : Nat) : VA :=
  qoff (s.rQ q) (lane ty.width (s.rV i) e * 2 ^ sc.toNat : Nat)
/-- The addresses of all elements of a strided access, and those of a gather whose index is not null (R164). -/
def State.strides (s : State) (ty : Ty) (q : QReg) (i : SReg) (sc : BitVec 2) : List VA :=
  (List.range (128 / ty.width)).map (s.eaStride q i sc)
def State.live (s : State) (ty : Ty) (i : VReg) : List Nat :=
  (List.range (128 / ty.width)).filter fun e => lane ty.width (s.rV i) e != 2 ^ (8 * ty.width) - 1

/-- The bytes that a load of the context in issue returns under a view class, and what the load does beside. -/
def State.loadHere (s : State) (va : VA) (len : Nat) (vc : Word64) : List Byte :=
  s.readVia s.cur (s.asidOf s.cur) va len (vcView vc)
def State.loadDone (s : State) (va : VA) (len : Nat) (vc : Word64) : State :=
  s.loadEffect s.cur (s.asidOf s.cur) va len vc
def State.loadsDone (s : State) (vas : List VA) (len : Nat) (vc : Word64) : State :=
  vas.foldl (fun s a => s.loadDone a len vc) s
def State.storeHere (s : State) (bs : List (VA × Byte)) (width : Nat) (release : Bool) : State := s.gateStore s.cur bs width release

/-! ## Scalar loads and stores (R162, R163, R170) -/

/-- A loaded element extended to 64 bits: sign for .i types, zero for .n types. -/
def extend (ty : Ty) (x : Nat) : Word64 :=
  if ty.isSigned then BitVec.ofInt 64 (sx (8 * ty.width) x) else BitVec.ofNat 64 x
def State.loadS (s : State) (ty : Ty) (d : SReg) (va : VA) (vc : Word64) : State :=
  let x := extend ty (leNat (s.loadHere va ty.width vc))
  (s.loadDone va ty.width vc).wS d x
def State.storeS (s : State) (ty : Ty) (d : SReg) (va : VA) (release : Bool) : State :=
  s.storeHere (vaBytes va (toLE ty.width (s.rS d).toNat)) ty.width release
def checkLd (ty : Ty) (vc : BitVec 3) (q : QReg) (off : BitVec 17) (s : State) : Verdict :=
  s.loadCheck s.cur [s.eaOff q off] ty.width ty.width (s.vcOf vc)
def execLd (ty : Ty) (vc : BitVec 3) (d : SReg) (q : QReg) (off : BitVec 17) (s : State) : Out :=
  s.resolve (checkLd ty vc q off s) fun s => s.loadS ty d (s.eaOff q off) (s.vcOf vc)
def checkSt (ty : Ty) (q : QReg) (off : BitVec 17) (s : State) : Verdict :=
  s.storeCheck s.cur [s.eaOff q off] ty.width ty.width
def execSt (ty : Ty) (d : SReg) (q : QReg) (off : BitVec 17) (s : State) : Out :=
  s.resolve (checkSt ty q off s) fun s => s.storeS ty d (s.eaOff q off) false
def checkLdx (ty : Ty) (vc : BitVec 3) (q : QReg) (i : SReg) (sc : BitVec 2) (s : State) : Verdict :=
  s.loadCheck s.cur [s.eaIdx q i sc] ty.width ty.width (s.vcOf vc)
def execLdx (ty : Ty) (vc : BitVec 3) (d : SReg) (q : QReg) (i : SReg) (sc : BitVec 2) (s : State) : Out :=
  s.resolve (checkLdx ty vc q i sc s) fun s => s.loadS ty d (s.eaIdx q i sc) (s.vcOf vc)
def checkStx (ty : Ty) (q : QReg) (i : SReg) (sc : BitVec 2) (s : State) : Verdict :=
  s.storeCheck s.cur [s.eaIdx q i sc] ty.width ty.width
def execStx (ty : Ty) (d : SReg) (q : QReg) (i : SReg) (sc : BitVec 2) (s : State) : Out :=
  s.resolve (checkStx ty q i sc s) fun s => s.storeS ty d (s.eaIdx q i sc) false
/-- lda loads as ld does; every transaction is ordered, so the acquire asks nothing more (R170, log 7). -/
def checkLda (ty : Ty) (vc : BitVec 3) (q : QReg) (s : State) : Verdict :=
  s.loadCheck s.cur [s.rQ q] ty.width ty.width (s.vcOf vc)
def execLda (ty : Ty) (vc : BitVec 3) (d : SReg) (q : QReg) (scope : BitVec 3) (s : State) : Out :=
  let _ := scope
  s.resolve (checkLda ty vc q s) fun s => s.loadS ty d (s.rQ q) (s.vcOf vc)
/-- stl waits in the gate, behind every earlier store, and is marked as a release (R160, R170). -/
def checkStl (ty : Ty) (q : QReg) (s : State) : Verdict := s.storeCheck s.cur [s.rQ q] ty.width ty.width
def execStl (ty : Ty) (d : SReg) (q : QReg) (scope : BitVec 3) (s : State) : Out :=
  let _ := scope
  s.resolve (checkStl ty q s) fun s => s.storeS ty d (s.rQ q) true

/-! ## Vector loads and stores (R162, R163) -/

def State.loadV (s : State) (d : VReg) (va : VA) (vc : Word64) : State :=
  let x := lineOf (s.loadHere va 128 vc)
  (s.loadDone va 128 vc).wV d x
def State.storeV (s : State) (d : VReg) (va : VA) : State := s.storeHere (vaBytes va (bytesOf (s.rV d))) 128 false
def checkVld (ty : Ty) (vc : BitVec 3) (q : QReg) (off : BitVec 17) (s : State) : Verdict :=
  s.loadCheck s.cur [s.eaOff q off] ty.width 128 (s.vcOf vc)
def execVld (ty : Ty) (vc : BitVec 3) (d : VReg) (q : QReg) (off : BitVec 17) (s : State) : Out :=
  s.resolve (checkVld ty vc q off s) fun s => s.loadV d (s.eaOff q off) (s.vcOf vc)
def checkVst (ty : Ty) (q : QReg) (off : BitVec 17) (s : State) : Verdict := s.storeCheck s.cur [s.eaOff q off] ty.width 128
def execVst (ty : Ty) (d : VReg) (q : QReg) (off : BitVec 17) (s : State) : Out :=
  s.resolve (checkVst ty q off s) fun s => s.storeV d (s.eaOff q off)
def checkVldx (ty : Ty) (vc : BitVec 3) (q : QReg) (i : SReg) (sc : BitVec 2) (s : State) : Verdict :=
  s.loadCheck s.cur [s.eaIdx q i sc] ty.width 128 (s.vcOf vc)
def execVldx (ty : Ty) (vc : BitVec 3) (d : VReg) (q : QReg) (i : SReg) (sc : BitVec 2) (s : State) : Out :=
  s.resolve (checkVldx ty vc q i sc s) fun s => s.loadV d (s.eaIdx q i sc) (s.vcOf vc)
def checkVstx (ty : Ty) (q : QReg) (i : SReg) (sc : BitVec 2) (s : State) : Verdict :=
  s.storeCheck s.cur [s.eaIdx q i sc] ty.width 128
def execVstx (ty : Ty) (d : VReg) (q : QReg) (i : SReg) (sc : BitVec 2) (s : State) : Out :=
  s.resolve (checkVstx ty q i sc s) fun s => s.storeV d (s.eaIdx q i sc)
/-- vldbc: one element into every lane. -/
def checkVldbc (ty : Ty) (vc : BitVec 3) (q : QReg) (off : BitVec 17) (s : State) : Verdict :=
  s.loadCheck s.cur [s.eaOff q off] ty.width ty.width (s.vcOf vc)
def execVldbc (ty : Ty) (vc : BitVec 3) (d : VReg) (q : QReg) (off : BitVec 17) (s : State) : Out :=
  s.resolve (checkVldbc ty vc q off s) fun s =>
    let x := leNat (s.loadHere (s.eaOff q off) ty.width (s.vcOf vc))
    (s.loadDone (s.eaOff q off) ty.width (s.vcOf vc)).wV d (ofLanes ty.width (List.replicate (128 / ty.width) x))
def checkVlds (ty : Ty) (vc : BitVec 3) (q : QReg) (i : SReg) (sc : BitVec 2) (s : State) : Verdict :=
  s.loadCheck s.cur (s.strides ty q i sc) ty.width ty.width (s.vcOf vc)
def execVlds (ty : Ty) (vc : BitVec 3) (d : VReg) (q : QReg) (i : SReg) (sc : BitVec 2) (s : State) : Out :=
  s.resolve (checkVlds ty vc q i sc s) fun s =>
    let xs := (s.strides ty q i sc).map fun a => leNat (s.loadHere a ty.width (s.vcOf vc))
    (s.loadsDone (s.strides ty q i sc) ty.width (s.vcOf vc)).wV d (ofLanes ty.width xs)
def checkVsts (ty : Ty) (q : QReg) (i : SReg) (sc : BitVec 2) (s : State) : Verdict :=
  s.storeCheck s.cur (s.strides ty q i sc) ty.width ty.width
/-- Element stores in increasing index: of two that name one byte the higher index remains. -/
def State.storeElems (s : State) (ty : Ty) (d : VReg) (es : List (Nat × VA)) : State :=
  s.storeHere (es.flatMap fun e => vaBytes e.2 (toLE ty.width (lane ty.width (s.rV d) e.1))) ty.width false
def execVsts (ty : Ty) (d : VReg) (q : QReg) (i : SReg) (sc : BitVec 2) (s : State) : Out :=
  s.resolve (checkVsts ty q i sc s) fun s =>
    s.storeElems ty d ((s.strides ty q i sc).zipIdx.map fun a => (a.2, a.1))

/-! ## Gather and scatter (R164) -/

def checkVgath (ty : Ty) (vc : BitVec 3) (q : QReg) (i : VReg) (sc : BitVec 2) (s : State) : Verdict :=
  s.loadCheck s.cur ((s.live ty i).map (s.eaVec ty q i sc)) ty.width ty.width (s.vcOf vc)
def execVgath (ty : Ty) (vc : BitVec 3) (d : VReg) (q : QReg) (i : VReg) (sc : BitVec 2) (s : State) : Out :=
  s.resolve (checkVgath ty vc q i sc s) fun s =>
    let xs := (List.range (128 / ty.width)).map fun e =>
      if lane ty.width (s.rV i) e = 2 ^ (8 * ty.width) - 1 then 0
      else leNat (s.loadHere (s.eaVec ty q i sc e) ty.width (s.vcOf vc))
    (s.loadsDone ((s.live ty i).map (s.eaVec ty q i sc)) ty.width (s.vcOf vc)).wV d (ofLanes ty.width xs)
def checkVscat (ty : Ty) (q : QReg) (i : VReg) (sc : BitVec 2) (s : State) : Verdict :=
  s.storeCheck s.cur ((s.live ty i).map (s.eaVec ty q i sc)) ty.width ty.width
def execVscat (ty : Ty) (d : VReg) (q : QReg) (i : VReg) (sc : BitVec 2) (s : State) : Out :=
  s.resolve (checkVscat ty q i sc s) fun s =>
    s.storeElems ty d ((s.live ty i).map fun e => (e, s.eaVec ty q i sc e))

/-! ## kld, pld, pst (R162) -/

def checkKld (vc : BitVec 3) (q : QReg) (off : BitVec 17) (s : State) : Verdict :=
  s.loadCheck s.cur [s.eaOff q off] 4 256 (s.vcOf vc)
def execKld (vc : BitVec 3) (d : KReg) (q : QReg) (off : BitVec 17) (s : State) : Out :=
  s.resolve (checkKld vc q off s) fun s =>
    let x := leNat (s.loadHere (s.eaOff q off) 256 (s.vcOf vc))
    (s.loadDone (s.eaOff q off) 256 (s.vcOf vc)).wK d (BitVec.ofNat 2048 x)
def checkPld (vc : BitVec 3) (q : QReg) (off : BitVec 17) (s : State) : Verdict :=
  s.loadCheck s.cur [s.eaOff q off] 16 16 (s.vcOf vc)
def execPld (vc : BitVec 3) (d : PReg) (q : QReg) (off : BitVec 17) (s : State) : Out :=
  s.resolve (checkPld vc q off s) fun s =>
    let x := leNat (s.loadHere (s.eaOff q off) 16 (s.vcOf vc))
    (s.loadDone (s.eaOff q off) 16 (s.vcOf vc)).wP d (BitVec.ofNat 128 x)
def checkPst (q : QReg) (off : BitVec 17) (s : State) : Verdict := s.storeCheck s.cur [s.eaOff q off] 16 16
def execPst (d : PReg) (q : QReg) (off : BitVec 17) (s : State) : Out :=
  s.resolve (checkPst q off s) fun s =>
    s.storeHere (vaBytes (s.eaOff q off) (toLE 16 (s.rP d).toNat)) 16 false

/-! ## Ordering (R171, R172) and prefetch (R178) -/

/-- fence: the gate is released once every gated store has passed its checks; in the one order of transactions (log 7) every
earlier access has then performed for every scope but the reads of earlier block gathers and the stores that still wait
(R263), for which later L slots wait (State.fenced). -/
def checkFence (s : State) : Verdict := s.recheck s.cur
def execFence (scope : BitVec 3) (s : State) : Out :=
  let _ := scope
  s.resolve (checkFence s) fun s => (s.releaseGate s.cur).upd fun c => { c with fence := s.nextCmd + 1 }
/-- drain: the gate is released, and the bundle after it waits (State.drained). -/
def checkDrain (s : State) : Verdict := s.recheck s.cur
def execDrain (s : State) : Out :=
  s.resolve (checkDrain s) fun s => (s.releaseGate s.cur).upd fun c => { c with draining := true }
/-- The pending flags of atomics go to fstat. -/
def Regs.takeFlags (r : Regs) : Regs := { r with fstat := r.fstat ||| r.aflags.setWidth 64, aflags := 0 }
/-- Every store of the context and every read of its block gathers has performed. -/
def State.quiet (s : State) (n : Nat) : Bool := s.readsDone n && (s.outs n).isEmpty
/-- A drain's wait ends: the flags go to fstat, in the checkpoint after the drain as well. -/
def State.drained (s : State) (n : Nat) : State :=
  if (s.ctx n).draining && s.quiet n then
    s.updCtx n fun c => { c with draining := false, regs := c.regs.takeFlags, ck := c.ck.takeFlags }
  else s

/-- The line of a prefetch, when nothing drops it: an address that loads, in memory, over links that are up. -/
def State.prefLine (s : State) (va : VA) (l2 : Bool) (v : BitVec 3) : Option (Reach × Tag) :=
  let asid := s.asidOf s.cur
  if isSpad va || addrCheck s.cur va 1 != .ok then none
  else match s.access (dieOf s.cur) (if l2 then none else some (coreOf s.cur)) asid va .read v with
    | .ok r => if r.reg.isSome then none else some (r, tagOf asid va r)
    | .error _ => none
def execPref (l2 : Bool) (vc : BitVec 3) (q : QReg) (off : BitVec 17) (s : State) : Out :=
  let va := s.eaOff q off
  .next (match s.prefLine va l2 (if l2 then 0 else vcView (s.vcOf vc)) with
    | none => s
    | some (r, t) =>
      let n := s.cur
      let s := s.translateFor (dieOf n) (s.asidOf n) va .read
      let w := s.vcOf vc
      if l2 then s.l2Fetch (some n) (dieOf n) r.line t
      else s.l1Fetch (some n) (coreOf n) r.line t (vcView w) (vcUpdate w) (vcPrio w))

end Sys2Proof.Machine
end

