-- ==== Sys2Proof/Machine/Atomic.lean ====
section
/-! DEFINITION. Class L: the atomics (R166 to R169). -/

namespace Sys2Proof.Machine

/-- The operations of R167. -/
inductive AtomOp where
  | add | min | max | and | or | xor | xchg | cas
  deriving DecidableEq, Repr

/-- The new value of an element, if one is written, and the flags raised (R167, R168). `exp` is the expected value of a CAS. -/
def AtomOp.apply (op : AtomOp) (ty : Ty) (old x exp : Nat) : Option Nat × Flg :=
  let w := 8 * ty.width
  let fp (f : Fmt → Nat → Nat → Nat × Flg) : Option Nat × Flg := let r := f .f32 old x; (some r.1, r.2)
  let i (f : Int → Int → Int) : Option Nat × Flg := (some (wrap w (f (elemInt ty old) (elemInt ty x))), 0)
  match op with
  | .add => if ty = .f32 then fp fpAdd else i (· + ·)
  | .min => if ty = .f32 then fp fpMin else i (fun a b => if a ≤ b then a else b)
  | .max => if ty = .f32 then fp fpMax else i (fun a b => if a ≤ b then b else a)
  | .and => (some (old &&& x), 0)
  | .or => (some (old ||| x), 0)
  | .xor => (some (old ^^^ x), 0)
  | .xchg => (some x, 0)
  | .cas => (if old = exp then some x else none, 0)

/-- The alignment and reach of an atomic: a window page takes none (R155, R167, R169). A store to a pending operand waits
(R158); the line is fetched for writing. -/
def State.windowCheck (s : State) (asid : BitVec 16) (va : VA) : Verdict :=
  if isSpad va then .ok
  else match s.place asid va .write with
    | .ok r => if r.win then .trapAfter 69 (tvalOf va) [(va, .write)] else .ok
    | .error _ => .ok
/-- The ownership of the line that an atomic needs, and the read of it, meet what a store's merge need not (R194, R198, R265). -/
def State.ownCheck (s : State) (n : Nat) (asid : BitVec 16) (va : VA) : Verdict :=
  if isSpad va then .ok
  else match s.place asid va .write with
    | .error _ => .ok
    | .ok r =>
      let t := tagOf asid va r
      if r.reg.isSome then .ok
      else if s.writeDown (dieOf n) (some (coreOf n)) r.line t none then .fault 256 va .write [va]
      else match s.lineCause r.line true (s.writeCached (dieOf n) (some (coreOf n)) r.line t || s.ownedBy r.line) with
        | some c => .fault c va .write [va]
        | none => .ok
def checkAtomic (ty : Ty) (a : QReg) (ord : BitVec 2) (s : State) : Verdict :=
  let va := s.rQ a
  let asid := s.asidOf s.cur
  (addrCheck s.cur va ty.width).andThen ((s.windowCheck asid va).andThen
     ((waitFor (!s.rangeHit s.cur va ty.width)).andThen
      ((s.recheck s.cur).andThen ((waitFor (s.releaseReady s.cur ord)).andThen
        ((s.reachCheck s.cur asid va ty.width .write).andThen ((s.ownCheck s.cur asid va).andThen
          ((s.released s.cur).accessReady s.cur asid .write [va])))))))
/-- The read-modify-write itself, after every gated store of the context has performed (R160, R313): at the bank, at a
doorbell register, or in the core's L1 once it holds the line exclusively. -/
def State.atomicAt (s : State) (ty : Ty) (va : VA) (f : Nat → Option Nat) : State :=
  let n := s.cur
  let asid := s.asidOf n
  let s := s.releaseGate n
  if isSpad va then
    match f (leNat (s.spadBytes (clusterOf n) (spadOff va) ty.width)) with
    | some x => s.spadWrite (some n) (clusterOf n) (offsetBytes (spadOff va) (toLE ty.width x))
    | none => s
  else
    let s := s.translateFor (dieOf n) asid va .write
    match s.place asid va .write with
    | .error _ => s
    | .ok r => match r.reg with
      | some (d, o) =>
        match f (leNat (s.windowLoad d o ty.width)) with
        | some x => s.windowStore d o (toLE ty.width x)
        | none => s
      | none =>
        let t := tagOf asid va r
        let cached := s.writeCached (dieOf n) (some (coreOf n)) r.line t || s.ownedBy r.line
        let s := (s.noteRead (some n) 0 r.line cached).ownRequest (some n) (coreOf n) r.line t
        let o := fld va 0 7
        let old := leNat ((List.range ty.width).map fun i => lineByte (s.lineNow r.line) (o + i))
        match f old with
        | some x =>
          s.ctxStore n s.nextCmd r.line t ((toLE ty.width x).zipIdx.map fun b => (o + b.2, b.1))
        | none => s
/-- The old value an atomic reads: the context's gated stores have performed by then. -/
def State.atomicOld (s : State) (ty : Ty) (va : VA) : Nat :=
  leNat (s.readVia s.cur (s.asidOf s.cur) va ty.width 0)
def State.atomicVal (s : State) (op : AtomOp) (ty : Ty) (b : SReg) (exp : Word64) (old : Nat) : Option Nat × Flg :=
  op.apply ty old ((s.rS b).toNat % 2 ^ (8 * ty.width)) (exp.toNat % 2 ^ (8 * ty.width))
/-- A form with return: sD takes the old value, and the flags are raised (R167, R168). -/
def State.atomicRet (s : State) (op : AtomOp) (ty : Ty) (d : SReg) (a : QReg) (b : SReg) : State :=
  let old := s.atomicOld ty (s.rQ a)
  let r := s.atomicVal op ty b (s.rS d) old
  let x : Word64 := if ty = .i32 then BitVec.ofInt 64 (sx 32 old) else BitVec.ofNat 64 old
  ((s.atomicAt ty (s.rQ a) fun o => (s.atomicVal op ty b (s.rS d) o).1).wS d x).raiseFlags r.2
/-- A form without return: its flags wait for a drain. -/
def State.atomicNo (s : State) (op : AtomOp) (ty : Ty) (a : QReg) (b : SReg) : State :=
  let r := s.atomicVal op ty b 0 (s.atomicOld ty (s.rQ a))
  (s.atomicAt ty (s.rQ a) fun o => (s.atomicVal op ty b 0 o).1).updRegs fun g => { g with aflags := g.aflags ||| r.2 }

/-! In the one order of transactions the scope asks nothing more; a release order waits for the context's earlier stores and the
reads of its block gathers (R167, R170, log 7). -/

def execAmadd (ty : Ty) (d : SReg) (a : QReg) (b : SReg) (ord : BitVec 2) (scope : BitVec 3) (s : State) : Out :=
  let _ := scope
  s.resolve (checkAtomic ty a ord s) fun s => s.atomicRet .add ty d a b
def execAmmin (ty : Ty) (d : SReg) (a : QReg) (b : SReg) (ord : BitVec 2) (scope : BitVec 3) (s : State) : Out :=
  let _ := scope
  s.resolve (checkAtomic ty a ord s) fun s => s.atomicRet .min ty d a b
def execAmmax (ty : Ty) (d : SReg) (a : QReg) (b : SReg) (ord : BitVec 2) (scope : BitVec 3) (s : State) : Out :=
  let _ := scope
  s.resolve (checkAtomic ty a ord s) fun s => s.atomicRet .max ty d a b
def execAmand (ty : Ty) (d : SReg) (a : QReg) (b : SReg) (ord : BitVec 2) (scope : BitVec 3) (s : State) : Out :=
  let _ := scope
  s.resolve (checkAtomic ty a ord s) fun s => s.atomicRet .and ty d a b
def execAmor (ty : Ty) (d : SReg) (a : QReg) (b : SReg) (ord : BitVec 2) (scope : BitVec 3) (s : State) : Out :=
  let _ := scope
  s.resolve (checkAtomic ty a ord s) fun s => s.atomicRet .or ty d a b
def execAmxor (ty : Ty) (d : SReg) (a : QReg) (b : SReg) (ord : BitVec 2) (scope : BitVec 3) (s : State) : Out :=
  let _ := scope
  s.resolve (checkAtomic ty a ord s) fun s => s.atomicRet .xor ty d a b
def execAmxchg (ty : Ty) (d : SReg) (a : QReg) (b : SReg) (ord : BitVec 2) (scope : BitVec 3) (s : State) : Out :=
  let _ := scope
  s.resolve (checkAtomic ty a ord s) fun s => s.atomicRet .xchg ty d a b
def execAmcas (ty : Ty) (d : SReg) (a : QReg) (b : SReg) (ord : BitVec 2) (scope : BitVec 3) (s : State) : Out :=
  let _ := scope
  s.resolve (checkAtomic ty a ord s) fun s => s.atomicRet .cas ty d a b
def execStadd (ty : Ty) (a : QReg) (b : SReg) (ord : BitVec 2) (scope : BitVec 3) (s : State) : Out :=
  let _ := scope
  s.resolve (checkAtomic ty a ord s) fun s => s.atomicNo .add ty a b
def execStmin (ty : Ty) (a : QReg) (b : SReg) (ord : BitVec 2) (scope : BitVec 3) (s : State) : Out :=
  let _ := scope
  s.resolve (checkAtomic ty a ord s) fun s => s.atomicNo .min ty a b
def execStmax (ty : Ty) (a : QReg) (b : SReg) (ord : BitVec 2) (scope : BitVec 3) (s : State) : Out :=
  let _ := scope
  s.resolve (checkAtomic ty a ord s) fun s => s.atomicNo .max ty a b
def execStand (ty : Ty) (a : QReg) (b : SReg) (ord : BitVec 2) (scope : BitVec 3) (s : State) : Out :=
  let _ := scope
  s.resolve (checkAtomic ty a ord s) fun s => s.atomicNo .and ty a b
def execStor (ty : Ty) (a : QReg) (b : SReg) (ord : BitVec 2) (scope : BitVec 3) (s : State) : Out :=
  let _ := scope
  s.resolve (checkAtomic ty a ord s) fun s => s.atomicNo .or ty a b
def execStxor (ty : Ty) (a : QReg) (b : SReg) (ord : BitVec 2) (scope : BitVec 3) (s : State) : Out :=
  let _ := scope
  s.resolve (checkAtomic ty a ord s) fun s => s.atomicNo .xor ty a b
end Sys2Proof.Machine
end

