-- ==== Sys2Proof/Machine/Queue.lean ====
section
/-! DEFINITION. Engine commands: circular buffers (R31 to R33, R173), control words, identifiers, operand ranges, queues
(R217 to R225) and how a command reads and writes its operands (R226, R230). -/

namespace Sys2Proof.Machine

/-! ## Circular buffers -/

/-- Slot count, slot size in bytes, free slots. -/
def CBuf.n (b : CBuf) : Nat := b.slots + 1
def CBuf.size (b : CBuf) : Nat := (b.slotsz + 1) * 128
def CBuf.free (b : CBuf) : Nat := b.n - b.filled
def CBuf.advance (b : CBuf) (k : Nat) : CBuf := { b with wp := (b.wp + k) % b.n, filled := b.filled + k }
def CBuf.release (b : CBuf) (k : Nat) : CBuf := { b with rp := (b.rp + k) % b.n, filled := b.filled - k }
/-- The offset of byte x of the slots that start at slot `from_`, in slot order. -/
def CBuf.at (b : CBuf) (from_ x : Nat) : Nat := b.base + (from_ + x / b.size) % b.n * b.size + x % b.size
/-- The buffer-table entry that handle h of context n is bound to. -/
def State.bound (s : State) (n : Nat) (h : CReg) : Option Nat :=
  match sget 0 (s.ctx n).cb h.toNat with
  | 0 => none
  | k + 1 => some (clusterOf n * 64 + k)
/-- The party code of a context (R173). -/
def partyOf (n : Nat) : Nat := n % 16
/-- Entries that no handle binds and no command names are freed (R173). -/
def State.cbSweep (s : State) (k : Nat) : State :=
  let used (e : Nat) : Bool :=
    (s.ctxs.any fun c => clusterOf c.1 == k && c.2.cb.any fun h => h.2 == e % 64 + 1) ||
    s.cmds.any fun c => c.inBuf == some e || c.inBuf2 == some e || c.outBuf == some e
  { s with cbufs := s.cbufs.filter fun e => e.1 / 64 != k || used e.1 }
/-- Bytes of a cluster's buffer slots. -/
def State.cbBytes (s : State) (e from_ off n : Nat) : List Byte :=
  (List.range n).map fun i => s.spadByte (e / 64) ((s.cbuf e).at from_ (off + i))

/-! ## Units and queues (R217, R251, R274) -/

/-- The unit a command runs on. -/
def Instr.unit : Instr → EUnit
  | .mma _ _ _ _ arr _ _ | .mmaa _ _ _ _ arr _ _ | .mmas _ _ _ _ arr _ | .mmtr _ _ _ _ arr _ _ | .mmtra _ _ _ _ arr _ _ =>
    if arr then .value else .score
  | .attn .. => .score
  | .tld .. | .tldsp .. | .tst .. | .tstsp .. | .tzero .. | .attnf .. | .mpld .. => .tile
  | .copy .. | .copy2d .. | .copyc .. | .bgath .. => .copy
  | .pmvec .. | .pmmac .. | .pmatk .. | .pmatv .. | .pmrd .. | .pmclr .. | .laybind .. | .kvxfer .. | .kvapp .. | .pmst .. => .pm
  | .rthash .. | .rtfind .. | .rtdep .. | .rtref .. | .rtrel .. | .rtpin .. | .rtevict .. | .rtrd .. => .rt
  | .schsel .. | .tokcommit .. | .specacc .. => .gen
  | _ => .none
def EUnit.isMatrix : EUnit → Bool
  | .score | .value | .tile => true
  | _ => false
/-- The commands that hold entries of the queue a command would enter. -/
def State.queueLen (s : State) (n : Nat) (u : EUnit) : Nat :=
  (s.cmds.filter fun c =>
    let v := Instr.unit c.ins
    if u.isMatrix then v.isMatrix && clusterOf c.ctx == clusterOf n
    else if u == .copy then v == .copy && clusterOf c.ctx == clusterOf n
    else v == u && dieOf c.ctx == dieOf n).length
def EUnit.cap : EUnit → Nat
  | .copy => Config.copyQueue | .pm => Config.pmQueue | .rt => Config.rtQueue | _ => Config.matrixQueue
/-- An E-slot command whose queue is full blocks its bundle (R16, R217). -/
def State.queueRoom (s : State) (u : EUnit) : Verdict := blockFor (decide (s.queueLen s.cur u < u.cap))

/-! ## Control words (R220, R221) -/

/-- A command without an identifier carries this in place of one. -/
def noCid : Nat := 256
def cwCheck (w : Word64) : Verdict :=
  (require (decide (fld w 28 3 ≤ 5)) 3).andThen
    (require (!w.getLsbD 31 && (fld w 28 3 == 0 || w.getLsbD 26 || w.getLsbD 27)) 16)
/-- The control word and its followers exist. -/
def regsCheck (c : SReg) (more : Nat) : Verdict := require (decide (c.toNat + more ≤ 31)) 16
/-- The most recent unretired command of context n with an identifier; all engines share one space (R221, R251). -/
def State.cmdOf (s : State) (n cid : Nat) : Option Cmd := (s.cmds.filter fun c => c.ctx == n && c.cid == cid).getLast?
def State.predsOf (s : State) (n : Nat) (w : Word64) : List Nat :=
  let get (v : Bool) (p : Nat) : List Nat := if v then ((s.cmdOf n p).map (·.id)).toList else []
  get (w.getLsbD 24) (fld w 8 8) ++ get (w.getLsbD 25) (fld w 16 8)
/-- A command whose identifier is in use waits (R221). -/
def State.cidFree (s : State) (cid : Nat) : Verdict := waitFor (s.cmdOf s.cur cid).isNone

/-! ## Issue -/

/-- The command the slot in issue makes, with the registers it captures; further fields are set by its meaning. -/
def State.newCmd (s : State) (i : Instr) (cid : Nat) (preds : List Nat) : Cmd where
  id := s.nextCmd
  ctx := s.cur
  launch := s.cx.launch
  asid := s.asidOf s.cur
  ins := i
  lat := s.lat
  cid := cid
  preds := preds
  tiles := []
  inBuf := none
  inCount := 0
  inBuf2 := none
  inCount2 := 0
  outBuf := none
  outCount := 0
  data := []
  ranges := []
  lay := 0
  lay2 := 0
  st := .queued
  prog := 0
  outFrom := 0
  outDone := 0
  pausedOn := none
  abandoned := false
  started := []
  done := []
  rows := []
  parts := []
  got := []
/-- A command enters its queue, which its context has fed from then on (R37). -/
def State.enqueue (s : State) (c : Cmd) : State :=
  ({ s with cmds := s.cmds ++ [c], nextCmd := s.nextCmd + 1 }).updCtx c.ctx fun x =>
    { x with fed := if x.fed.contains (Instr.unit c.ins) then x.fed else x.fed ++ [Instr.unit c.ins] }
def State.cmd (s : State) (id : Nat) : Option Cmd := s.cmds.find? (·.id == id)
def State.setCmd (s : State) (c : Cmd) : State := { s with cmds := s.cmds.map fun x => if x.id == c.id then c else x }
def State.dropCmd (s : State) (id : Nat) : State := { s with cmds := s.cmds.filter (·.id != id) }
/-- A range an operand takes (R224). -/
def rangeOf (va : VA) (len : Nat) : Bool × Nat × Nat :=
  let lo := if isSpad va then spadOff va else va.toNat
  (isSpad va, lo, lo + (len - 1))
def State.rangesFree (s : State) (k : Nat) : Verdict :=
  waitFor (decide (((s.cmds.filter fun c => coreOf c.ctx == coreOf s.cur).flatMap (·.ranges)).length + k ≤ Config.operandRanges))
/-- The checks of R225 on an operand of `len` bytes at an address, aligned to `align`. -/
def operandCheck (n : Nat) (va : VA) (align len : Nat) : Verdict :=
  (addrCheck n va align).andThen
    (if isSpad va then require (decide (spadOff va + len ≤ Config.spadSize)) 16
     else if fld va 0 48 + len ≤ 2 ^ 48 then .ok else .trap 75 (tvalOf va))
/-- A buffer operand: bound, of the party, and the declared count within its slots. -/
def State.bufCheck (s : State) (h : CReg) (producer : Bool) (code count : Nat) : Verdict :=
  match s.bound s.cur h with
  | none => .trap 128 0
  | some e =>
    let b := s.cbuf e
    (require ((if producer then b.prod else b.cons) == code) 130).andThen (require (decide (count ≤ b.n)) 129)

/-! ## Operands of a running command (R226, R230) -/

/-- A fault met by a command: cause, address, kind of access, and the accesses made before it, whose walks have left their marks
(R310). -/
structure Hit where
  cause : Nat
  va : VA
  acc : Acc
  walked : List (VA × Acc)
  deriving DecidableEq, Repr
/-- A fault met behind accesses that have been made. -/
def hitAfter {α : Type} (w : List (VA × Acc)) : Except Hit α → Except Hit α
  | .ok x => .ok x
  | .error h => .error { h with walked := w ++ h.walked }

/-- Where an operand lies: at an address, or in the slots of a buffer entry from slot `from_`. -/
inductive Src where
  | at (va : VA)
  | buf (e from_ : Nat)
  deriving DecidableEq, Repr

/-- Bytes of one line, or of the scratchpad of cluster k, that a party of die d without an L1 reads, at full precision. The read leaves
nothing in the directory, in a proxy or in an L2 slice (log 67). -/
def State.engReadLine (s : State) (d k : Nat) (asid : BitVec 16) (a : VA) (n : Nat) : Except Hit (List Byte) :=
  if isSpad a then .ok (s.spadBytes k (spadOff a) n)
  else match s.access d none asid a .read 0 with
    | .error c => .error ⟨c, a, .read, []⟩
    | .ok r => .ok (match r.reg with
      | some (w, o) => s.windowLoad w o n
      | none => (List.range n).map fun i => lineByte (s.lineNow r.line) (fld a 0 7 + i))
/-- The same, line by line. -/
def State.engReadMem (s : State) (d k : Nat) (asid : BitVec 16) : List (VA × Nat) → Except Hit (List Byte)
  | [] => .ok []
  | g :: t =>
    match s.engReadLine d k asid g.1 g.2 with
    | .error h => .error h
    | .ok x => (hitAfter [(g.1, .read)] (s.engReadMem d k asid t)).map fun xs => x ++ xs
/-- The parts of an operand that lie in memory or in the scratchpad; a buffer's slots have none. -/
def Src.segs (src : Src) (off n : Nat) : List (VA × Nat) :=
  match src with
  | .buf .. => []
  | .at va => Machine.segs (qoff va (off : Int)) n
/-- The accesses that a read makes. -/
def Src.reads (src : Src) (off n : Nat) : List (VA × Acc) := (src.segs off n).map fun g => (g.1, .read)
def State.engRead (s : State) (c : Cmd) (src : Src) (off n : Nat) : Except Hit (List Byte) :=
  match src with
  | .buf e from_ => .ok (s.cbBytes e from_ off n)
  | .at _ => s.engReadMem (dieOf c.ctx) (clusterOf c.ctx) c.asid (src.segs off n)
/-- Records that the ordinary accesses of a command of processing memory have posted stand in PMERR (R262). -/
def State.cmdNotes (s : State) (c : Cmd) (cause k : Nat) : State :=
  if Instr.unit c.ins == .pm then (List.range k).foldl (fun s _ => s.pmerrNote c.ctx cause) s else s
/-- The walker's marks and the corrected errors of what a command reads (R265, R310). -/
def State.engMarks (s : State) (c : Cmd) (src : Src) (off n : Nat) : State :=
  (src.segs off n).foldl (fun s g =>
    if isSpad g.1 then s
    else
      let s := s.translate c.asid g.1 .read
      match s.place c.asid g.1 .read with
      | .ok r => if r.reg.isSome then s
        else
          let cached := s.readCached (dieOf c.ctx) none r.line (tagOf c.asid g.1 r) 0
          (s.noteRead (some c.ctx) c.cid r.line cached).cmdNotes c 205 (s.corrected r.line cached).length
      | .error _ => s) s
/-- The parts of an operand, one for each 128-byte line: offset and length. -/
def segOffs (va : VA) (len : Nat) : List (Nat × Nat) :=
  (segs va len).zipIdx.map fun g => (if g.2 = 0 then 0 else 128 * g.2 - fld va 0 7, g.1.2)
/-- Lines read one after another behind the bytes already read, which are the progress of a read that pauses (R251). -/
def readOn (c : Cmd) (va : VA) : List (Nat × Nat) → State → List Byte → State × List Byte × Option Hit
  | [], s, got => (s, got, none)
  | g :: t, s, got =>
    if g.1 < got.length then readOn c va t s got
    else match s.engRead c (.at va) g.1 g.2 with
      | .error h => (s, got, some h)
      | .ok bs => readOn c va t (s.engMarks c (.at va) g.1 g.2) (got ++ bs)
/-- One destination line of a command; the write may wait behind a group in flight (R263). -/
def State.engWriteLine (s : State) (c : Cmd) (a : VA) (bs : List Byte) : Except Hit State :=
  if isSpad a then .ok (s.spadPut none (clusterOf c.ctx) (offsetBytes (spadOff a) bs))
  else match s.access (dieOf c.ctx) none c.asid a .write 0 with
    | .error e => .error ⟨e, a, .write, []⟩
    | .ok r =>
      let cells := bs.zipIdx.map fun b => (fld a 0 7 + b.2, b.1)
      let t := tagOf c.asid a r
      match r.reg with
      | some (d, o) => .ok ((s.translate c.asid a .write).windowStore d o bs)
      | none =>
        if s.writeDown (dieOf c.ctx) none r.line t (some cells) then .error ⟨256, a, .write, []⟩
        else .ok (((s.translate c.asid a .write).lineStoreBy ⟨none, some c.id, 0⟩ (dieOf c.ctx) r.line t cells).shootdown r.line)
/-- The pieces of work of a command, in order, from its progress: the state, the progress, and the fault that stopped it. -/
def runItems : List (State → Except Hit State) → Nat → State → State × Nat × Option Hit
  | [], p, s => (s, p, none)
  | f :: t, p, s =>
    match f s with
    | .ok s' => runItems t (p + 1) s'
    | .error h => (s, p, some h)
/-- Work that writes len bytes at va line by line, the bytes of each line given by their offset and length. -/
def lineItems (va : VA) (len : Nat) (f : State → Nat → Nat → Except Hit (State × List Byte)) (c : Cmd) :
    List (State → Except Hit State) :=
  (segOffs va len).map fun g => fun s =>
    match f s g.1 g.2 with
    | .ok (s, bs) => s.engWriteLine c (qoff va (g.1 : Int)) bs
    | .error h => .error h

end Sys2Proof.Machine
end

