-- ==== Sys2Proof/Machine/Sync.lean ====
section
/-! DEFINITION. Class L: circular buffers, barriers, domain sync, the skew table and the block gather's issue (R165, R173 to
R177, R179). -/

namespace Sys2Proof.Machine

/-! ## cbwait, cbspace, cbfree, cbadv, cbpop (R174, R175) -/

/-- Checks 1 to 4 of R174. -/
def State.cbCheck (s : State) (h : CReg) (n : Nat) (producer : Bool) : Verdict :=
  match s.bound s.cur h with
  | none => .trap 128 0
  | some e =>
    let b := s.cbuf e
    (require (n != 0) 16).andThen ((require ((if producer then b.prod else b.cons) == partyOf s.cur) 130).andThen
      (require (decide (n ≤ b.n)) 129))
/-- The entry of a handle that has passed its checks. -/
def State.cbOf (s : State) (h : CReg) : Nat := (s.bound s.cur h).getD 0
def State.cbHere (s : State) (h : CReg) : CBuf := s.cbuf (s.cbOf h)
def checkCbwait (a : CReg) (n : BitVec 23) (s : State) : Verdict :=
  (s.cbCheck a n.toNat false).andThen (blockFor (decide (n.toNat ≤ (s.cbHere a).filled)))
def execCbwait (d : SReg) (a : CReg) (n : BitVec 23) (s : State) : Out :=
  s.resolve (checkCbwait a n s) fun s => s.wS d (BitVec.ofNat 64 ((s.cbHere a).base + (s.cbHere a).rp * (s.cbHere a).size))
def checkCbspace (a : CReg) (n : BitVec 23) (s : State) : Verdict :=
  (s.cbCheck a n.toNat true).andThen (blockFor (decide (n.toNat ≤ (s.cbHere a).free)))
def execCbspace (d : SReg) (a : CReg) (n : BitVec 23) (s : State) : Out :=
  s.resolve (checkCbspace a n s) fun s => s.wS d (BitVec.ofNat 64 ((s.cbHere a).base + (s.cbHere a).wp * (s.cbHere a).size))
/-- A free beyond FILLED or an advance beyond the free slots is cause 131 (R32). An advance waits for the context's earlier stores to
the scratchpad (R174). -/
def checkCbfree (a : CReg) (n : BitVec 23) (s : State) : Verdict :=
  (s.cbCheck a n.toNat false).andThen ((require (decide (n.toNat ≤ (s.cbHere a).filled)) 131).andThen (s.recheck s.cur))
def execCbfree (a : CReg) (n : BitVec 23) (s : State) : Out :=
  s.resolve (checkCbfree a n s) fun s => (s.releaseGate s.cur).updCbuf (s.cbOf a) fun b => b.release n.toNat
def checkCbadv (a : CReg) (n : BitVec 23) (s : State) : Verdict :=
  (s.cbCheck a n.toNat true).andThen ((require (decide (n.toNat ≤ (s.cbHere a).free)) 131).andThen
    ((s.recheck s.cur).andThen (waitFor (!(s.released s.cur).outSpad s.cur))))
def execCbadv (a : CReg) (n : BitVec 23) (s : State) : Out :=
  s.resolve (checkCbadv a n s) fun s => (s.releaseGate s.cur).updCbuf (s.cbOf a) fun b => b.advance n.toNat
/-- The check of STREAM comes before that of the consumer (log 66); the slot is read after the context's earlier die-local stores
(R204). -/
def checkCbpop (a : CReg) (s : State) : Verdict :=
  match s.bound s.cur a with
  | none => .trap 128 0
  | some e =>
    let b := s.cbuf e
    (require b.stream 135).andThen ((require (b.cons == partyOf s.cur) 130).andThen
      ((blockFor (b.filled != 0)).andThen ((s.recheck s.cur).andThen (waitFor (!(s.released s.cur).outLocal s.cur)))))
def execCbpop (d : BitVec 5) (a : CReg) (vec : Bool) (s : State) : Out :=
  s.resolve (checkCbpop a s) fun s =>
    let e := s.cbOf a
    let s := s.releaseGate s.cur
    let bs := s.cbBytes e (s.cbuf e).rp 0 (if vec then 128 else 8)
    let s := s.updCbuf e fun b => b.release 1
    if vec then s.wV d (lineOf bs) else s.wS d (BitVec.ofNat 64 (leNat bs))

/-! ## cbbind (R31, R173) -/

/-- A descriptor's fields (R31). -/
def cbufOfDesc (x : Nat) : CBuf where
  valid := true
  base := bits x 21 0
  slotsz := bits x 39 32
  slots := bits x 47 40
  wp := bits x 55 48
  rp := bits x 63 56
  filled := bits x 72 64
  reserved := 0
  stream := bit x 73
  prod := bits x 87 80
  cons := bits x 95 88
/-- The geometry and party checks, those against an entry of the same base, and those of a new entry's pointers. -/
def CBuf.shapeOk (b : CBuf) : Bool := b.base % 128 == 0 && decide (b.base + b.size * b.n ≤ Config.spadSize)
def CBuf.partiesOk (b : CBuf) : Bool :=
  decide (b.prod ≤ 0x14) && decide (b.cons ≤ 0x14) && (!b.stream || decide (b.cons ≤ 0x0F))
def CBuf.pointersOk (b : CBuf) : Bool :=
  decide (b.wp ≤ b.slots) && decide (b.rp ≤ b.slots) && decide (b.filled ≤ b.n) && (b.rp + b.filled) % b.n == b.wp
def CBuf.sameAs (a b : CBuf) : Bool :=
  a.slotsz == b.slotsz && a.slots == b.slots && a.stream == b.stream && a.prod == b.prod && a.cons == b.cons
/-- The handle's old binding released. -/
def State.unbind (s : State) (n : Nat) (h : CReg) : State :=
  (s.updCtx n fun c => { c with cb := sput 0 c.cb h.toNat 0 }).cbSweep (clusterOf n)
/-- The entry with a base, and a free entry, of a cluster. -/
def State.entryAt (s : State) (k base : Nat) : Option Nat :=
  (s.cbufs.find? fun e => e.1 / 64 == k && e.2.valid && e.2.base == base).map (·.1)
def State.freeEntry (s : State) (k : Nat) : Option Nat :=
  ((List.range 64).map fun i => k * 64 + i).find? fun e => !(s.cbuf e).valid
def State.cbDesc (s : State) (a : QReg) (off : BitVec 23) : Nat :=
  leNat (s.loadHere (qoff (s.rQ a) off.toInt) 16 0)
def checkCbbind (d : CReg) (a : QReg) (off : BitVec 23) (s : State) : Verdict :=
  let va := qoff (s.rQ a) off.toInt
  let x := s.cbDesc a off
  let b := cbufOfDesc x
  let t := s.unbind s.cur d
  let k := clusterOf s.cur
  (s.loadCheck s.cur [va] 16 16 0).andThen
    ((if !bit x 74 then .ok
      else (require b.shapeOk 129).andThen ((require b.partiesOk 130).andThen
        (match t.entryAt k b.base with
         | some e => require ((t.cbuf e).sameAs b) 129
         | none => (require b.pointersOk 129).andThen (require (t.freeEntry k).isSome 134)))).andThen (s.recheck s.cur))
/-- The copy that its read fills is in invalidate mode with PRIO 0, as VIEWCLASS does not apply (log 68). -/
def execCbbind (d : CReg) (a : QReg) (off : BitVec 23) (s : State) : Out :=
  s.resolve (checkCbbind d a off s) fun s =>
    let x := s.cbDesc a off
    let b := cbufOfDesc x
    let n := s.cur
    let k := clusterOf n
    let s := (s.loadDone (qoff (s.rQ a) off.toInt) 16 0).releaseGate n
    let s := s.unbind n d
    if !bit x 74 then s
    else
      match s.entryAt k b.base with
      | some e => s.upd fun c => { c with cb := sput 0 c.cb d.toNat (e % 64 + 1) }
      | none =>
        match s.freeEntry k with
        | some e => (s.updCbuf e fun _ => b).upd fun c => { c with cb := sput 0 c.cb d.toNat (e % 64 + 1) }
        | none => s

/-! ## Barriers (R176) -/

def barOffOk (x : Word64) : Bool := x.toNat % 16 == 0 && decide (x.toNat < Config.spadSize)
/-- A barrier instruction is taken at the bank after the context's earlier die-local stores (R176, R204). -/
def State.bankReady (s : State) : Verdict := (s.recheck s.cur).andThen (waitFor (!(s.released s.cur).outLocal s.cur))
/-- The barrier as the context's earlier stores leave it. -/
def State.barrierFor (s : State) (off : Nat) : Barrier := (s.releaseGate s.cur).barrier (clusterOf s.cur) off
def checkBarv (a b : SReg) (s : State) : Verdict :=
  (require (barOffOk (s.rS a)) 16).andThen ((require (decide ((s.rS b).toNat < 2 ^ 31)) 16).andThen s.bankReady)
def execBarv (a b : SReg) (s : State) : Out :=
  s.resolve (checkBarv a b s) fun s =>
    let n := s.cur
    let o := (s.rS a).toNat
    let m := (s.rS b).toNat
    let s := s.releaseGate n
    let x := (s.barrier (clusterOf n) o).arrive m
    if x.inRange then s.putBarrier (some n) (clusterOf n) o x.settle else s.postCtxError n 0 133
def checkBarx (a b : SReg) (s : State) : Verdict :=
  let m := (s.rS b).toNat
  (require (barOffOk (s.rS a)) 16).andThen ((require (decide (1 ≤ m) && decide (m < 2 ^ 31)) 16).andThen
    (s.bankReady.andThen (require ((s.barrierFor (s.rS a).toNat).expect m).inRange 133)))
def execBarx (d a b : SReg) (s : State) : Out :=
  s.resolve (checkBarx a b s) fun s =>
    let n := s.cur
    let o := (s.rS a).toNat
    let m := (s.rS b).toNat
    let s := s.releaseGate n
    let x := s.barrier (clusterOf n) o
    (s.putBarrier (some n) (clusterOf n) o (x.expect m).settle).wS d (BitVec.ofNat 64 x.phase)
/-- The scratchpad address of an offset in a context's cluster. -/
def spadVA (n off : Nat) : VA := BitVec.ofNat 4 (dieOf n) ++ (~~~(0 : BitVec 46)) ++ BitVec.ofNat 22 off
/-- PHASE stands in bytes 4 and 5 of a barrier (R35): barw reads it as a scratchpad load does, through the context's own gated
stores, and watches it (R202, R205, log 50). -/
def State.phaseFor (s : State) (off : Nat) : Nat := leNat ((List.range 2).map fun i => s.spadFor s.cur (off + 4 + i))
def checkBarw (a b : SReg) (s : State) : Verdict :=
  (require (barOffOk (s.rS a)) 16).andThen ((waitFor (!s.outLocal s.cur)).andThen
    (blockFor (s.phaseFor (s.rS a).toNat != fld (s.rS b) 0 16)))
def execBarw (a b : SReg) (s : State) : Out :=
  s.resolve (checkBarw a b s) fun s => s.loadDone (spadVA s.cur ((s.rS a).toNat + 4)) 2 0

/-! ## dsync (R21, R177) -/

/-- The bundle may have arrived: without release at the checkpoint before it, with release once its earlier accesses have performed:
in the one order of transactions, its stores and the reads of its block gathers (log 7). -/
def State.dsyncReady (s : State) (ord : BitVec 2) : Bool := s.cx.joined || s.releaseReady s.cur ord
/-- The bundle's one arrival. -/
def State.dsyncArrive (s : State) : State := if s.cx.joined then s else (s.releaseGate s.cur).arrive s.cur
/-- The sync that the context has joined has completed. -/
def State.dsyncDone (s : State) : Bool := decide (s.cx.arrived ≤ s.cx.synced)
def checkDsync (ord : BitVec 2) (s : State) : Verdict :=
  (s.recheck s.cur).andThen (blockFor (s.dsyncReady ord && s.dsyncArrive.dsyncDone))
def execDsync (ord : BitVec 2) (scope : BitVec 3) (s : State) : Out :=
  let _ := scope
  let v := checkDsync ord s
  let s := match v with | .ok | .block => if s.dsyncReady ord then s.dsyncArrive else s | _ => s
  s.resolve v fun s => s.upd fun c => { c with joined := false }

/-! ## spmode (R179) -/

/-- Offset, rows and row bytes of a `.tile` constant (R91). -/
def tileRows (x : Nat) : Nat := bits x 29 22 + 1
def tileWidth (x : Nat) : Nat :=
  match bits x 41 38 with
  | 0 | 9 | 10 => 4 | 1 | 2 | 7 | 8 => 2 | 3 | 4 | 5 | 6 => 1 | _ => 0
def tileRb (x : Nat) : Nat := (bits x 37 30 + 1) * tileWidth x
def tileOk (x : Nat) : Bool :=
  x / 2 ^ 42 == 0 && tileWidth x != 0 && tileRb x % 128 == 0 && decide (bits x 21 0 + tileRows x * tileRb x ≤ Config.spadSize)
def Skew.overlaps (e : Skew) (lo hi : Nat) : Bool := decide (e.offset < hi) && decide (lo < e.offset + e.rows * e.rb)
def checkSpmode (a b : SReg) (s : State) : Verdict :=
  let x := (s.rS a).toNat
  let es := sget [] s.skews (clusterOf s.cur)
  (require (decide ((s.rS b).toNat ≤ 1) && tileOk x) 16).andThen
    ((require ((s.rS b).toNat == 0 ||
       (decide (es.length < 8) && !es.any fun e => e.overlaps (bits x 21 0) (bits x 21 0 + tileRows x * tileRb x))) 136).andThen
     ((s.recheck s.cur).andThen (waitFor (!(s.released s.cur).outSpad s.cur))))
def execSpmode (a b : SReg) (s : State) : Out :=
  s.resolve (checkSpmode a b s) fun s =>
    let x := (s.rS a).toNat
    let off := (s.rS b).toNat == 0
    let l := s.cx.launch
    let k := clusterOf s.cur
    let s := s.releaseGate s.cur
    let es := sget [] s.skews k
    let es := if off then es.filter fun e => e.offset != bits x 21 0 else es ++ [⟨bits x 21 0, tileRows x, tileRb x, l⟩]
    { s with skews := sput [] s.skews k es }

/-! ## bgath at issue (R165) -/

/-- The indices captured: entries FIRST to FIRST + CNT − 1 of kA. -/
def bgFirst (c : Word64) : Nat := fld c 0 6
def bgCnt (c : Word64) : Nat := fld c 6 7
def bgBound (c : Word64) : Nat := fld c 32 32
def kEntry (k : BitVec 2048) (i : Nat) : Nat := (k.extractLsb' (32 * i) 32).toNat
def bgIdx (k : BitVec 2048) (c : Word64) : List Nat := (List.range (bgCnt c)).map fun j => kEntry k (bgFirst c + j)
/-- The blocks that the pool has, by their first addresses, and the address rules of all their bytes (R165, R305). The producer is
checked before the fields of sC (log 66). -/
def bgBlocks (is : List Nat) (bound : Nat) (base : VA) (size : Nat) : List VA :=
  (is.filter fun x => decide (x < bound)).map fun x => qoff base (x * size : Nat)
def checkBgath (d : CReg) (a : KReg) (b : QReg) (c : SReg) (zero : Bool) (s : State) : Verdict :=
  let w := s.rS c
  match s.bound s.cur d with
  | none => .trap 128 0
  | some e =>
    (require ((s.cbuf e).prod == 0x10) 130).andThen
      ((require (decide (1 ≤ bgCnt w) && decide (bgFirst w + bgCnt w ≤ 64) && fld w 13 19 == 0) 16).andThen
        ((require (decide (bgCnt w ≤ (s.cbuf e).n)) 129).andThen
          ((match (bgIdx (s.lat.gk a) w).find? fun x => decide (bgBound w ≤ x) with
            | some _ => require zero 68
            | none => .ok).andThen
            ((Verdict.all ((bgBlocks (bgIdx (s.lat.gk a) w) (bgBound w) (s.rQ b) (s.cbuf e).size).map fun x =>
              addrChecks s.cur x 1 (s.cbuf e).size)).andThen ((s.recheck s.cur).andThen (s.queueRoom .copy))))))
def execBgath (d : CReg) (a : KReg) (b : QReg) (c : SReg) (zero : Bool) (s : State) : Out :=
  s.resolve (checkBgath d a b c zero s) fun s =>
    let e := s.cbOf d
    (s.releaseGate s.cur).enqueue
      { s.newCmd (.bgath d a b c zero) noCid [] with outBuf := some e, outCount := bgCnt (s.rS c) }

end Sys2Proof.Machine
end

