-- ==== Sys2Proof/Machine/Tile.lean ====
section
/-! DEFINITION. Accumulator tiles (R218, R219, R222) and their moves: tld, tldsp, tst, tstsp, tzero (R231), with mpld (R233). -/

namespace Sys2Proof.Machine

/-! ## Tiles as rows -/

/-- `n` entries of a store from index k, in one pass. -/
def dense {α : Type} (d : α) : Nat → Nat → SMap α → List α
  | 0, _, _ => []
  | n + 1, k, m =>
    match m with
    | [] => d :: dense d n (k + 1) []
    | e :: t => if e.1 = k then e.2 :: dense d n (k + 1) t else d :: dense d n (k + 1) (e :: t)
/-- The store of a list of entries from index 0. -/
def sparse {α : Type} [DecidableEq α] (d : α) (xs : List α) : SMap α :=
  xs.zipIdx.filterMap fun x => if x.1 = d then none else some (x.2, x.1)
/-- Consecutive groups of w elements. -/
def groups {α : Type} (w : Nat) : Nat → List α → List (List α)
  | 0, _ => []
  | n + 1, xs => xs.take w :: groups w n (xs.drop w)
def Tile.rows (t : Tile) : List (List Nat) := groups 64 64 ((dense 0 4096 0 t.data).map (·.toNat))
def Tile.get (t : Tile) (r c : Nat) : Nat := (sget 0 t.data (64 * r + c)).toNat
/-- Every element, row by row. -/
def Tile.setRows (t : Tile) (rs : List (List Nat)) : Tile :=
  { t with data := sparse 0 (rs.flatten.map (BitVec.ofNat 32)) }
/-- Rows below M and columns below N rewritten by position and old value. -/
def Tile.mapSub (t : Tile) (M N : Nat) (f : Nat → Nat → Nat → Nat) : Tile :=
  t.setRows (t.rows.zipIdx.map fun row =>
    if M ≤ row.2 then row.1 else row.1.zipIdx.map fun x => if N ≤ x.2 then x.1 else f row.2 x.2 x.1)
/-- Row-flag bits (R219). -/
def rfNAN : Byte := 1
def rfINF : Byte := 2
def rfSAT : Byte := 4
def rfALLMASK : Byte := 8
def rfSCORENAN : Byte := 16
def rfABORT : Byte := 32
def Tile.orFlag (t : Tile) (r : Nat) (f : Byte) : Tile := { t with flags := sput 0 t.flags r (sget 0 t.flags r ||| f) }
def Tile.clearFlags (t : Tile) (M : Nat) : Tile := { t with flags := t.flags.filter fun e => decide (M ≤ e.1) }
/-- NAN and INF of an FP32 pattern. -/
def nanInf (x : Nat) : Byte :=
  match decodeFP .f32 x with
  | .nan => rfNAN | .inf _ => rfINF | _ => 0

/-! ## Names, binding and busy bits (R218, R222) -/

/-- The physical tile a name of context n is bound to. -/
def State.tileOf (s : State) (n : Nat) (t : Nat) : Option Nat :=
  match sget 0 (s.ctx n).tiles t with
  | 0 => none
  | k + 1 => some (coreOf n * 32 + k)
/-- The physical tiles of a core that no context has bound. -/
def State.tilesFree (s : State) (core : Nat) : List Nat :=
  (List.range 32).filter fun k =>
    !((List.range 4).any fun i => (s.ctx (4 * core + i)).tiles.any fun e => e.2 == k + 1)
/-- Names that would have to be bound have free tiles. -/
def State.tileRoom (s : State) (names : List Nat) : Verdict :=
  let new := (names.dedup.filter fun t => (s.tileOf s.cur t).isNone).length
  require (decide (new ≤ (s.tilesFree (coreOf s.cur)).length)) 18
/-- Bind a name at issue: the tile is filled with +0 and its flags are clear. -/
def State.bindTile (s : State) (t : Nat) : State :=
  match s.tileOf s.cur t with
  | some _ => s
  | none =>
    match s.tilesFree (coreOf s.cur) with
    | [] => s
    | k :: _ =>
      (s.updTile (coreOf s.cur * 32 + k) fun _ => .zero).upd fun c => { c with tiles := sput 0 c.tiles t (k + 1) }
def State.bindTiles (s : State) (ts : List Nat) : State := ts.foldl State.bindTile s
def State.phys (s : State) (ts : List Nat) : List Nat := ts.filterMap (s.tileOf s.cur)
/-- Commands of R222's list, and the destination tiles of one. -/
def Instr.accumulates : Instr → Bool
  | .mma .. | .mmaa .. | .mmas .. | .mmtr .. | .mmtra .. | .attn .. => true
  | _ => false
def Cmd.dst (c : Cmd) : List Nat :=
  match c.ins with
  | .mmas .. => c.tiles.take 1
  | _ => if Instr.accumulates c.ins then c.tiles else []
/-- A busy tile stalls the bundle unless the command is a chained accumulation (R222). -/
def State.tilesReady (s : State) (dst src : List Nat) (chains : Bool) : Verdict :=
  let d := s.phys dst
  let r := s.phys src
  let holders := s.cmds.filter fun c => c.tiles.any fun t => d.contains t || r.contains t
  let chained := chains && holders.all fun c =>
    c.ctx == s.cur && Instr.accumulates c.ins && c.dst.dedup.length == d.dedup.length && c.dst.all d.contains &&
    d.length == dst.length && !c.tiles.any r.contains
  waitFor (holders.isEmpty || chained)

/-! ## Tile moves (R231) -/

def mvElf (w : Word64) : Nat := fld w 32 4
def mvM (w : Word64) : Nat := 16 * 2 ^ fld w 36 2
def mvN (w : Word64) : Nat := 16 * 2 ^ fld w 38 2
def mvFlags (w : Word64) : Bool := w.getLsbD 40
def mvOk (w : Word64) (store : Bool) : Bool :=
  (mvElf w ≤ 2 || mvElf w == 8) && fld w 36 2 != 3 && fld w 38 2 != 3 && fld w 41 23 == 0 &&
  (!mvFlags w || (store && fld w 32 8 == 0))
/-- Bytes from the first to the last that a move touches. -/
def mvSpan (w : Word64) (stride : Nat) : Nat :=
  if mvFlags w then 64 else (mvM w - 1) * stride + mvN w * efWidth (mvElf w)
def State.moveCheck (s : State) (t : TileName) (va : VA) (c : SReg) (store : Bool) : Verdict :=
  let w := s.rS c
  let w1 := s.lat.gsn (c.toNat + 1)
  (regsCheck c 1).andThen ((cwCheck w).andThen ((require (mvOk w store && fld w1 32 32 == 0) 16).andThen
    ((require (fld w1 0 32 % 16 == 0) 65).andThen ((operandCheck s.cur va 16 (mvSpan w (fld w1 0 32))).andThen
      ((s.tileRoom [t.toNat]).andThen ((s.cidFree (fld w 0 8)).andThen
        ((s.tilesReady [] [t.toNat] false).andThen
          ((if store then .ok else s.rangesFree 1).andThen (s.queueRoom .tile)))))))))
def State.moveIssue (s : State) (i : Instr) (t : TileName) (va : VA) (c : SReg) (store : Bool) : State :=
  let w := s.rS c
  let c0 := s.newCmd i (fld w 0 8) (s.predsOf s.cur w)
  let s := s.bindTile t.toNat
  s.enqueue { c0 with tiles := s.phys [t.toNat],
                      ranges := if store then [] else [rangeOf va (mvSpan w (fld (s.lat.gsn (c.toNat + 1)) 0 32))] }
def checkTld (t : TileName) (a : QReg) (c : SReg) (s : State) : Verdict := s.moveCheck t (s.rQ a) c false
def execTld (t : TileName) (a : QReg) (c : SReg) (s : State) : Out :=
  s.resolve (checkTld t a c s) fun s => s.moveIssue (.tld t a c) t (s.rQ a) c false
/-- A scratchpad offset operand lies below 4 MiB (R225). -/
def checkTldsp (t : TileName) (a c : SReg) (s : State) : Verdict :=
  (require (decide ((s.rS a).toNat < Config.spadSize)) 16).andThen (s.moveCheck t (spadVA s.cur (s.rS a).toNat) c false)
def execTldsp (t : TileName) (a c : SReg) (s : State) : Out :=
  s.resolve (checkTldsp t a c s) fun s => s.moveIssue (.tldsp t a c) t (spadVA s.cur (s.rS a).toNat) c false
def checkTst (t : TileName) (a : QReg) (c : SReg) (s : State) : Verdict := s.moveCheck t (s.rQ a) c true
def execTst (t : TileName) (a : QReg) (c : SReg) (s : State) : Out :=
  s.resolve (checkTst t a c s) fun s => s.moveIssue (.tst t a c) t (s.rQ a) c true
def checkTstsp (t : TileName) (a c : SReg) (s : State) : Verdict :=
  (require (decide ((s.rS a).toNat < Config.spadSize)) 16).andThen (s.moveCheck t (spadVA s.cur (s.rS a).toNat) c true)
def execTstsp (t : TileName) (a c : SReg) (s : State) : Out :=
  s.resolve (checkTstsp t a c s) fun s => s.moveIssue (.tstsp t a c) t (spadVA s.cur (s.rS a).toNat) c true
def checkTzero (t : TileName) (c : SReg) (s : State) : Verdict :=
  let w := s.rS c
  (cwCheck w).andThen ((require (fld w 32 32 == 0) 16).andThen ((s.tileRoom [t.toNat]).andThen
    ((s.cidFree (fld w 0 8)).andThen ((s.tilesReady [] [t.toNat] false).andThen (s.queueRoom .tile)))))
def execTzero (t : TileName) (c : SReg) (s : State) : Out :=
  s.resolve (checkTzero t c s) fun s =>
    let c0 := s.newCmd (.tzero t c) (fld (s.rS c) 0 8) (s.predsOf s.cur (s.rS c))
    let s := s.bindTile t.toNat
    s.enqueue { c0 with tiles := s.phys [t.toNat] }

/-! ## The moves as they run -/

/-- Elements of w bytes from a byte string. -/
def elems (w n : Nat) (bs : List Byte) : List Nat := (groups w n bs).map leNat
/-- The FP format of an R44 code. -/
def efFmt (c : Nat) : Fmt :=
  match c with
  | 1 => .bf16 | 2 => .f16 | 3 => .e4m3 | 4 => .e5m2 | _ => .f32
/-- widen is exact; ELF 0 and 8 move bit patterns. -/
def widenElf (elf x : Nat) : Nat := if elf = 1 ∨ elf = 2 then (rne .f32 (decodeFP (efFmt elf) x)).1 else x
/-- narrow converts under R56 with the fmt captured, with the row flags it raises. -/
def narrowElf (elf : Nat) (f : Word64) (x : Nat) : Nat × Byte :=
  if elf = 1 ∨ elf = 2 then
    let r := cvtToFP (efFmt elf) (fmtRnd f) (fmtSat f) (decodeFP .f32 x)
    (r.1, (if r.2 &&& fSF != 0 then rfSAT else 0) ||| (if (decodeFP (efFmt elf) r.1).isNan then rfNAN else 0))
  else (x, 0)
/-- Rows of a load, one item each. -/
def loadRow (c : Cmd) (tk : Nat) (va : VA) (w : Word64) (stride r : Nat) (s : State) : Except Hit State :=
  let n := mvN w
  let wd := efWidth (mvElf w)
  match s.engRead c (.at va) (r * stride) (n * wd) with
  | .error h => .error h
  | .ok bs =>
    let xs := (elems wd n bs).map (widenElf (mvElf w))
    let s := s.engMarks c (.at va) (r * stride) (n * wd)
    .ok (s.updTile tk fun t =>
      let rs := t.rows
      { t.setRows (rs.set r (xs ++ (rs.getD r []).drop n)) with flags := sput 0 t.flags r 0 })
def runLoad (c : Cmd) (tk : Nat) (va : VA) (r : SReg) (s : State) : State × Nat × Option Hit :=
  let w := c.w r 0
  runItems (((List.range (mvM w)).map fun i => loadRow c tk va w (fld (c.w r 1) 0 32) i).drop c.prog) c.prog s
/-- The bytes of part of a row of a store, with the flags its conversion raises. -/
def storeRow (c : Cmd) (tk : Nat) (w : Word64) (r : Nat) (s : State) (off len : Nat) : Except Hit (State × List Byte) :=
  let wd := efWidth (mvElf w)
  let xs := ((s.tile tk).rows.getD r []).take (mvN w) |>.map (narrowElf (mvElf w) c.lat.fmt)
  let bs := (xs.flatMap fun x => toLE wd x.1)
  let fl := (xs.zipIdx.filter fun x => decide (x.2 * wd < off + len) && decide (off < (x.2 + 1) * wd)).foldl (fun a x => a ||| x.1.2) 0
  .ok (s.updTile tk fun t => t.orFlag r fl, (bs.drop off).take len)
def runStore (c : Cmd) (tk : Nat) (va : VA) (r : SReg) (s : State) : State × Nat × Option Hit :=
  let w := c.w r 0
  let st := fld (c.w r 1) 0 32
  let items :=
    if mvFlags w then
      lineItems va 64 (fun s off len => .ok (s, (((List.range 64).map fun i => sget 0 (s.tile tk).flags i).drop off).take len)) c
    else (List.range (mvM w)).flatMap fun i =>
      lineItems (qoff va (i * st : Nat)) (mvN w * efWidth (mvElf w)) (storeRow c tk w i) c
  runItems (items.drop c.prog) c.prog s

/-! ## mpld (R233) -/

def State.mpldCheck (s : State) (a : QReg) (c : SReg) : Verdict :=
  let w := s.rS c
  (cwCheck w).andThen ((require (fld w 32 32 == 0) 16).andThen ((operandCheck s.cur (s.rQ a) 64 64).andThen
    ((s.cidFree (fld w 0 8)).andThen ((s.rangesFree 1).andThen (s.queueRoom .tile)))))
def checkMpld (a : QReg) (c : SReg) (s : State) : Verdict := s.mpldCheck a c
def execMpld (slot : BitVec 4) (a : QReg) (c : SReg) (s : State) : Out :=
  s.resolve (checkMpld a c s) fun s =>
    s.enqueue { s.newCmd (.mpld slot a c) (fld (s.rS c) 0 8) (s.predsOf s.cur (s.rS c)) with ranges := [rangeOf (s.rQ a) 64] }
/-- The rules of the mask block. -/
def maskOk (b : BitVec 512) : Bool :=
  let k := fld b 0 4
  decide (k ≤ 5) && fld b 5 27 == 0 && !(k == 2 && fld b 64 32 == 0) &&
  (if k = 4 then fld b 384 128 == 0 else if k = 5 then fld b 480 32 == 0 else fld b 192 320 == 0)
def maskKey (n : Nat) (slot : BitVec 4) : Nat := clusterOf n * 16 + slot.toNat
def runMpld (c : Cmd) (slot : BitVec 4) (a : QReg) (s : State) : State × Nat × Option Hit :=
  match s.engRead c (.at (c.lat.gq a)) 0 64 with
  | .error h => (s, 0, some h)
  | .ok bs =>
    let s := s.engMarks c (.at (c.lat.gq a)) 0 64
    let b : BitVec 512 := BitVec.ofNat 512 (leNat bs)
    let s := { s with masks := sput none s.masks (maskKey c.ctx slot) (if maskOk b then some b else none) }
    (if maskOk b then s else s.postCtxError c.ctx c.cid 137, 1, none)

end Sys2Proof.Machine
end

