-- ==== Sys2Proof/Machine/Matrix.lean ====
section
/-! DEFINITION. The mma family (R226 to R230): operands, combinations, and the block-scaled product. -/

namespace Sys2Proof.Machine

/-! ## Control fields (R228) -/

def mmK (w : Word64) : Nat := 32 * (fld w 32 8 + 1)
def mmM (w : Word64) : Nat := 16 * 2 ^ fld w 40 2
def mmN (w : Word64) : Nat := 16 * 2 ^ fld w 42 2
def mmSp (w : Word64) : Nat := fld w 44 2
def mmPlanes (w : Word64) : Nat := fld w 46 3 + 2
def mmDiag (w : Word64) : Int := sx 8 (fld w 50 8)
def mmVal (w : Word64) : Nat :=
  match fld w 58 2 with
  | 0 => 0 | 1 => 0xFF800000 | 2 => 0xFF7FFFFF | _ => 0x80000000
/-- Planes read of a bit-plane operand (R64). -/
def mmRead (f : Word64) (w : Word64) : Nat := if fmtKpl f = 0 then mmPlanes w else fmtKpl f + 1

/-- The pairings of R227. -/
def pairOk (f : Word64) (sp : Nat) : Bool :=
  let a := fmtA f
  let b := fmtB f
  let c := fmtC f
  let sc := fmtScale f
  let f8 (x : Nat) : Bool := x == 3 || x == 4
  let i8 (x : Nat) : Bool := x == 5 || x == 6
  let cInt := c == 0 || (c == 8 && sc == 0)
  if f8 a && f8 b then c == 0 && sc ≤ 2 && decide (sp ≤ 1)
  else if i8 a && i8 b then cInt && sc ≤ 2 && decide (sp ≤ 1)
  else if (a == 1 && b == 1) || (a == 2 && b == 2) then c == 0 && sc == 0 && decide (sp ≤ 1)
  else if a == 7 && b == 5 then cInt && sc ≤ 2 && sp == 0
  else false
/-- Step 4 of R83 for the mma family. -/
def mmCombo (f : Word64) (w : Word64) (stream : Bool) : Bool :=
  pairOk f (mmSp w) && fld w 40 2 != 3 && fld w 42 2 != 3 &&
  (!stream || (mmSp w == 0 && fld w 32 8 == 1 && decide (1 ≤ fmtA f) && decide (fmtA f ≤ 4)))

/-! ## Operand rows (R226) -/

/-- An operand of an array command: where, stride, element format, stored planes and planes read, sparse, K, scales. -/
structure Opd where
  src : Src
  stride : Nat
  fmt : Nat
  stored : Nat
  read : Nat
  sparse : Bool
  k : Nat
  scale : Nat
/-- Data bytes and all bytes of a row. -/
def Opd.data (o : Opd) : Nat :=
  if o.fmt = 7 then o.k / 32 * 4 * o.stored
  else if o.sparse then o.k / 2 * efWidth o.fmt + o.k / 8 else o.k * efWidth o.fmt
def Opd.len (o : Opd) : Nat := o.data + if o.scale = 0 then 0 else o.k / 32
/-- The end of the last byte of a row that is read: planes beyond those read are not. -/
def Opd.last (o : Opd) : Nat :=
  if o.scale ≠ 0 then o.len else if o.fmt = 7 then o.data - 4 * (o.stored - o.read) else o.data
/-- From the first byte to the end of the last that the operand reads of the rows given, as offsets; none of no rows (R224). -/
def Opd.extent (o : Opd) (rows : List Nat) : Option (Nat × Nat) :=
  match rows.head?, rows.getLast? with
  | some a, some b => some (a * o.stride, b * o.stride + o.last)
  | _, _ => none
/-- The byte ranges of a row that block b reads. -/
def Opd.reads (o : Opd) (b : Nat) : List (Nat × Nat) :=
  let w := efWidth o.fmt
  (if o.fmt = 7 then [(4 * o.stored * b, 4 * o.read)]
   else if o.sparse then [(16 * w * b, 16 * w), (o.k / 2 * w + 4 * b, 4)]
   else [(32 * w * b, 32 * w)]) ++ (if o.scale = 0 then [] else [(o.data + b, 1)])
/-- An element's exact value from its pattern (R44, R46, R49). -/
def elemVal (code x : Nat) : XR :=
  match code with
  | 5 => .ofInt (sx 8 x) 0
  | 6 => .ofInt (x : Int) 0
  | 8 => .ofInt (sx 32 x) 0
  | c => decodeFP (efFmt c) x
/-- Element i of a bit-plane block read at k of n planes, times 2^(n−k) (R50, R51). -/
def planeVal (n k : Nat) (planes : List Nat) (i : Nat) : XR :=
  let v := (planes.take k).foldl (fun a p => 2 * a + p / 2 ^ i % 2) 0
  .ofInt (sx k v * (2 ^ (n - k) : Nat)) 0
/-- The 32 dense values of a block, and its scale byte. -/
def Opd.values (o : Opd) (parts : List (List Byte)) : List XR × Nat :=
  let p0 := parts.getD 0 []
  let w := efWidth o.fmt
  let xs :=
    if o.fmt = 7 then (List.range 32).map (planeVal o.stored o.read (elems 4 o.read p0))
    else if o.sparse then
      let kept := (elems w 16 p0).map (elemVal o.fmt)
      let md := parts.getD 1 []
      (List.range 32).map fun p =>
        let g := p / 4
        let m := (md.getD (g / 2) 0).toNat / (if g % 2 = 0 then 1 else 16)
        let at_ (i pos : Nat) : XR := if pos = p % 4 then kept.getD (2 * g + i) (.fin false 0 0) else .fin false 0 0
        (at_ 0 (m % 4)).add (at_ 1 (m / 4 % 4))
    else (elems w 32 p0).map (elemVal o.fmt)
  (xs, if o.scale = 0 then 0 else (((parts.getLast?).getD []).getD 0 0).toNat)
/-- Block b of a row, with the fault its reads meet. -/
def State.readBlock (s : State) (c : Cmd) (o : Opd) (r b : Nat) : Except Hit (List XR × Nat) :=
  let rec go : List (Nat × Nat) → Except Hit (List (List Byte))
    | [] => .ok []
    | g :: t =>
      match s.engRead c o.src (r * o.stride + g.1) g.2 with
      | .error h => .error h
      | .ok x => (hitAfter (o.src.reads (r * o.stride + g.1) g.2) (go t)).map fun xs => x :: xs
  match go (o.reads b) with
  | .ok ps => .ok (o.values ps)
  | .error h => .error h
/-- The accesses that reading block b of a row makes. -/
def Opd.rowReads (o : Opd) (b r : Nat) : List (VA × Acc) := (o.reads b).flatMap fun g => o.src.reads (r * o.stride + g.1) g.2
/-- Block b of every row that is needed. -/
def State.readBlocks (s : State) (c : Cmd) (o : Opd) (b : Nat) (need : Nat → Bool) : Nat → Nat → Except Hit (List (List XR × Nat))
  | 0, _ => .ok []
  | n + 1, r =>
    let x : Except Hit (List XR × Nat) := if need r then s.readBlock c o r b else .ok ([], 0)
    match x with
    | .error h => .error h
    | .ok v => (hitAfter (if need r then o.rowReads b r else []) (s.readBlocks c o b need n (r + 1))).map fun vs => v :: vs
def State.markBlocks (s : State) (c : Cmd) (o : Opd) (b rows : Nat) (need : Nat → Bool) : State :=
  ((List.range rows).filter need).foldl (fun s r =>
    (o.reads b).foldl (fun s g => s.engMarks c o.src (r * o.stride + g.1) g.2) s) s

/-! ## The product -/

/-- accumulate of R58: FP32, or INT32 modulo 2^32. -/
def accBlock (int : Bool) (acc : Nat) (a b : List XR × Nat) (scale : Nat) : Nat :=
  let d := dotProducts (List.zipWith XR.mul a.1 b.1)
  if int then
    match d with
    | .fin neg m e => wrap 32 ((acc : Int) + signed neg (m * 2 ^ e.toNat))
    | _ => acc
  else accFP acc (blockTerm d a.2 b.2 scale)
/-- What an mma command is: its kind, tiles and operands. -/
structure Mma where
  w : Word64
  fmt : Word64
  dst : Nat
  init : Bool
  tri : Bool
  a : Opd
  /-- The source tile of mmas. -/
  tile : Option Nat
  b : Opd
def Mma.masked (m : Mma) (i j : Nat) : Bool := m.tri && decide (mmDiag m.w < (j : Int) - i)
/-- Rows of A and of B that some unskipped 16×16 sub-tile needs (R229). -/
def mmLive (tri : Bool) (w : Word64) (bi bj : Nat) : Bool := !tri || decide (16 * (bj : Int) - (16 * bi + 15) ≤ mmDiag w)
def mmNeedA (tri : Bool) (w : Word64) (i : Nat) : Bool := (List.range (mmN w / 16)).any fun bj => mmLive tri w (i / 16) bj
def mmNeedB (tri : Bool) (w : Word64) (j : Nat) : Bool := (List.range (mmM w / 16)).any fun bi => mmLive tri w bi (j / 16)
def Mma.needA (m : Mma) (i : Nat) : Bool := mmNeedA m.tri m.w i
def Mma.needB (m : Mma) (j : Nat) : Bool := mmNeedB m.tri m.w j
def Mma.rowsA (m : Mma) : List Nat := (List.range (mmM m.w)).filter m.needA
def Mma.rowsB (m : Mma) : List Nat := (List.range (mmN m.w)).filter m.needB
/-- Block b of mmas's A: the tile's elements converted to AFMT, scale 1.0. -/
def State.tileBlock (s : State) (m : Mma) (tk b : Nat) : List ((List XR × Nat) × Bool) :=
  let F := efFmt (fmtA m.fmt)
  ((s.tile tk).rows.take (mmM m.w)).map fun row =>
    let rs := ((row.drop (32 * b)).take 32).map fun x => cvtToFP F (fmtRnd m.fmt) (fmtSat m.fmt) (decodeFP .f32 x)
    ((rs.map fun r => decodeFP F r.1, if fmtScale m.fmt = 1 then 0x78 else 0x7F), rs.any fun r => r.2 &&& fSF != 0)
/-- One K block for every element (R61). -/
def Mma.block (c : Cmd) (m : Mma) (b : Nat) (s : State) : Except Hit State :=
  let A : Except Hit (List ((List XR × Nat) × Bool)) :=
    match m.tile with
    | some tk => .ok (s.tileBlock m tk b)
    | none => match s.readBlocks c m.a b m.needA (mmM m.w) 0 with
      | .ok xs => .ok (xs.map fun x => (x, false))
      | .error h => .error h
  match A with
  | .error h => .error h
  | .ok as =>
    match hitAfter (if m.tile.isSome then [] else m.rowsA.flatMap (m.a.rowReads b)) (s.readBlocks c m.b b m.needB (mmN m.w) 0) with
    | .error h => .error h
    | .ok bs =>
      let s := if m.tile.isSome then s else s.markBlocks c m.a b (mmM m.w) m.needA
      let s := s.markBlocks c m.b b (mmN m.w) m.needB
      .ok (s.updTile m.dst fun t =>
        let t := t.mapSub (mmM m.w) (mmN m.w) fun i j x =>
          if m.masked i j then x
          else accBlock (fmtC m.fmt == 8) x (as.getD i (([], 0), false)).1 (bs.getD j ([], 0)) (fmtScale m.fmt)
        as.zipIdx.foldl (fun t x => if x.1.2 then t.orFlag x.2 rfSAT else t) t)
/-- Slots of a buffer operand whose last read is made once the blocks before b are done: those before the first byte that a later
block reads (R33). -/
def Opd.freed (o : Opd) (rows : List Nat) (size count b : Nat) : Nat :=
  if b = 0 then 0
  else ((List.range (o.k / 32 - b)).flatMap fun i => rows.flatMap fun r =>
    (o.reads (b + i)).map fun g => (r * o.stride + g.1) / size).foldl min count
/-- The slots of each input entry that are free by then; of operands in one entry A's come first. -/
def Mma.freed (m : Mma) (c : Cmd) (s : State) (b : Nat) : List (Nat × Nat) :=
  let fa (e : Nat) : Nat := m.a.freed m.rowsA (s.cbuf e).size c.inCount b
  let fb (e : Nat) : Nat := m.b.freed m.rowsB (s.cbuf e).size c.inCount2 b
  match c.inBuf, c.inBuf2 with
  | none, none => []
  | some e, none => [(e, fa e)]
  | none, some e => [(e, fb e)]
  | some e, some x => if e = x then [(e, if fa e < c.inCount then fa e else c.inCount + fb e)] else [(e, fa e), (x, fb x)]
/-- Block b is done: the input slots that it has read last are freed (R33). -/
def Mma.free (m : Mma) (c : Cmd) (b : Nat) (s : State) : State :=
  (List.zip (m.freed c s b) (m.freed c s (b + 1))).foldl
    (fun (s : State) x => s.updCbuf x.1.1 fun k => k.release (x.2.2 - x.1.2)) s
/-- The start: initial accumulators and cleared flags. -/
def Mma.start (m : Mma) (s : State) : State :=
  s.updTile m.dst fun t =>
    if m.init then (t.mapSub (mmM m.w) (mmN m.w) fun _ _ _ => 0).clearFlags (mmM m.w) else t
/-- The end: masked elements take MVAL, and NAN and INF are recorded. -/
def Mma.finish (m : Mma) (s : State) : State :=
  s.updTile m.dst fun t =>
    let t := t.mapSub (mmM m.w) (mmN m.w) fun i j x => if m.masked i j then mmVal m.w else x
    if fmtC m.fmt = 8 then t
    else (t.rows.take (mmM m.w)).zipIdx.foldl (fun t row =>
      t.orFlag row.2 ((row.1.take (mmN m.w)).foldl (fun f x => f ||| nanInf x) 0)) t
def runMma (c : Cmd) (m : Mma) (s : State) : State × Nat × Option Hit :=
  let s := if c.prog = 0 then m.start s else s
  let r := runItems (((List.range (mmK m.w / 32)).map fun b s => (m.block c b s).map (m.free c b)).drop c.prog) c.prog s
  match r with
  | (s, p, none) => (m.finish s, p, none)
  | x => x

/-! ## Issue (R220, R224, R225, R228) -/

/-- The shape of an mma instruction: tile, A (none for mmas) with its buffer flag, source tile, B with its flag, registers. -/
structure MmForm where
  t : TileName
  a : BitVec 4
  aBuf : Bool
  src : Option TileName
  b : BitVec 4
  bBuf : Bool
  c : SReg
  arr : Bool
  init : Bool
  tri : Bool
def mmForm : Instr → Option MmForm
  | .mma t a b c arr aB bB => some ⟨t, a, aB, none, b, bB, c, arr, true, false⟩
  | .mmaa t a b c arr aB bB => some ⟨t, a, aB, none, b, bB, c, arr, false, false⟩
  | .mmas t a b c arr bB => some ⟨t, 0, false, some a, b, bB, c, arr, false, false⟩
  | .mmtr t a b c arr aB bB => some ⟨t, a, aB, none, b, bB, c, arr, true, true⟩
  | .mmtra t a b c arr aB bB => some ⟨t, a, aB, none, b, bB, c, arr, false, true⟩
  | _ => none
def MmForm.code (f : MmForm) : Nat := if f.arr then 0x12 else 0x11
def mmOpdA (f w : Word64) (src : Src) (stride : Nat) : Opd :=
  ⟨src, stride, fmtA f, mmPlanes w, mmRead f w, mmSp w == 1, mmK w, fmtScale f⟩
def mmOpdB (f w : Word64) (src : Src) (stride : Nat) : Opd := ⟨src, stride, fmtB f, 0, 0, false, mmK w, fmtScale f⟩
/-- The limits of the control word beyond step 4. -/
def mmOk (w : Word64) (f : Word64) (m : MmForm) : Bool :=
  !w.getLsbD 49 && fld w 60 4 == 0 && (fmtA f == 7 || fld w 46 3 == 0) && (m.tri || (fld w 50 8 == 0 && fld w 58 2 == 0))
def mmPlanesOk (w f : Word64) : Bool := fld w 46 3 != 7 && (fmtA f != 7 || decide (mmRead f w ≤ mmPlanes w))
/-- Slots an operand in a buffer declares (R226). -/
def State.slotCount (s : State) (h : BitVec 4) (bytes : Nat) : Nat := ceilDiv bytes (s.cbuf ((s.bound s.cur h).getD 0)).size
/-- What the operands of a command in memory or scratchpad read: A's extent and B's. -/
def MmForm.extA (m : MmForm) (f w w1 : Word64) : Option (Nat × Nat) :=
  if m.src.isSome || m.aBuf then none
  else (mmOpdA f w (.at 0) (fld w1 0 32)).extent ((List.range (mmM w)).filter (mmNeedA m.tri w))
def MmForm.extB (m : MmForm) (f w w1 : Word64) : Option (Nat × Nat) :=
  if m.bBuf then none else (mmOpdB f w (.at 0) (fld w1 32 32)).extent ((List.range (mmN w)).filter (mmNeedB m.tri w))
/-- The range of an operand's extent from its base. -/
def extRange (va : VA) (e : Option (Nat × Nat)) : List (Bool × Nat × Nat) :=
  (e.map fun x => rangeOf (qoff va (x.1 : Int)) (x.2 - x.1)).toList
/-- An operand of `rows` rows: strides, then the address or the handle (R225, R226). -/
def State.opdCheck (s : State) (r : BitVec 4) (buf : Bool) (o : Opd) (rows code : Nat) (ext : Option (Nat × Nat)) : Verdict :=
  (require (o.stride % 16 == 0) 65).andThen ((require (decide (o.len ≤ o.stride)) 16).andThen
    (if buf then s.bufCheck r false code (s.slotCount r (rows * o.stride))
     else operandCheck s.cur (s.rQ r) 16 ((ext.map (·.2)).getD 0)))
/-- The checks of a command of the mma family. Where its queue is full and it also meets a stall, it stalls (log 70). -/
def State.mmCheck (s : State) (i : Instr) : Verdict :=
  match mmForm i with
  | none => .ok
  | some m =>
    let w := s.rS m.c
    let w1 := s.lat.gsn (m.c.toNat + 1)
    let f := s.lat.fmt
    let A := mmOpdA f w (.at 0) (fld w1 0 32)
    let B := mmOpdB f w (.at 0) (fld w1 32 32)
    (require (mmCombo f w m.src.isSome) 6).andThen ((regsCheck m.c 1).andThen ((cwCheck w).andThen
      ((require (mmPlanesOk w f) 8).andThen ((require (mmOk w f m && (m.src.isNone || fld w1 0 32 == 0)) 16).andThen
        ((require (m.src != some m.t) 17).andThen
          ((if m.src.isSome then .ok else s.opdCheck m.a m.aBuf A (mmM w) m.code (m.extA f w w1)).andThen
            ((s.opdCheck m.b m.bBuf B (mmN w) m.code (m.extB f w w1)).andThen
              ((s.tileRoom (m.t.toNat :: m.src.toList.map (·.toNat))).andThen ((s.cidFree (fld w 0 8)).andThen
                ((s.tilesReady [m.t.toNat] (m.src.toList.map (·.toNat)) (!m.init)).andThen
                  ((s.rangesFree (boolN (m.extA f w w1).isSome + boolN (m.extB f w w1).isSome)).andThen
                    (s.queueRoom (Instr.unit i)))))))))))))
/-- The command queued; an operand buffer of each side is declared, A's first. -/
def State.mmIssue (s : State) (i : Instr) : State :=
  match mmForm i with
  | none => s
  | some m =>
    let w := s.rS m.c
    let w1 := s.lat.gsn (m.c.toNat + 1)
    let f := s.lat.fmt
    let c0 := s.newCmd i (fld w 0 8) (s.predsOf s.cur w)
    let names := m.t.toNat :: m.src.toList.map (·.toNat)
    let s := s.bindTiles names
    s.enqueue { c0 with
      tiles := s.phys names
      inBuf := if m.aBuf then s.bound s.cur m.a else none
      inCount := if m.aBuf then s.slotCount m.a (mmM w * fld w1 0 32) else 0
      inBuf2 := if m.bBuf then s.bound s.cur m.b else none
      inCount2 := if m.bBuf then s.slotCount m.b (mmN w * fld w1 32 32) else 0
      ranges := extRange (s.rQ m.a) (m.extA f w w1) ++ extRange (s.rQ m.b) (m.extB f w w1) }
def execMma (t : TileName) (a b : BitVec 4) (c : SReg) (arr aBuf bBuf : Bool) (s : State) : Out :=
  s.resolve (s.mmCheck (.mma t a b c arr aBuf bBuf)) fun s => s.mmIssue (.mma t a b c arr aBuf bBuf)
def execMmaa (t : TileName) (a b : BitVec 4) (c : SReg) (arr aBuf bBuf : Bool) (s : State) : Out :=
  s.resolve (s.mmCheck (.mmaa t a b c arr aBuf bBuf)) fun s => s.mmIssue (.mmaa t a b c arr aBuf bBuf)
def execMmas (t a : TileName) (b : BitVec 4) (c : SReg) (arr bBuf : Bool) (s : State) : Out :=
  s.resolve (s.mmCheck (.mmas t a b c arr bBuf)) fun s => s.mmIssue (.mmas t a b c arr bBuf)
def execMmtr (t : TileName) (a b : BitVec 4) (c : SReg) (arr aBuf bBuf : Bool) (s : State) : Out :=
  s.resolve (s.mmCheck (.mmtr t a b c arr aBuf bBuf)) fun s => s.mmIssue (.mmtr t a b c arr aBuf bBuf)
def execMmtra (t : TileName) (a b : BitVec 4) (c : SReg) (arr aBuf bBuf : Bool) (s : State) : Out :=
  s.resolve (s.mmCheck (.mmtra t a b c arr aBuf bBuf)) fun s => s.mmIssue (.mmtra t a b c arr aBuf bBuf)
/-- A source of a running command: its address, or its buffer's slots from the read pointer on. -/
def State.srcOf (s : State) (c : Cmd) (r : BitVec 4) (buf : Option Nat) : Src :=
  match buf with
  | some e => .buf e (s.cbuf e).rp
  | none => .at (c.lat.gq r)
/-- Slots are counted from the read pointer as it stood at the command's start: those freed since lie behind it. Two operands in one
buffer follow each other in its slots (A's slots first). -/
def runMatrix (c : Cmd) (m : MmForm) (s : State) : State × Nat × Option Hit :=
  let w := c.w m.c 0
  let w1 := c.w m.c 1
  let f := c.lat.fmt
  let mma (a b : Src) : Mma := ⟨w, f, c.tiles.headD 0, m.init, m.tri, mmOpdA f w a (fld w1 0 32),
    if m.src.isSome then c.tiles[1]? else none, mmOpdB f w b (fld w1 32 32)⟩
  let gone := (mma (.at 0) (.at 0)).freed c s c.prog
  let src (r : BitVec 4) (buf : Option Nat) (skip : Nat) : Src :=
    match buf with
    | some e => .buf e ((s.cbuf e).rp + (s.cbuf e).n - ((gone.find? (·.1 == e)).map (·.2)).getD 0 + skip)
    | none => .at (c.lat.gq r)
  runMma c (mma (src m.a c.inBuf 0) (src m.b c.inBuf2 (if c.inBuf = c.inBuf2 then c.inCount else 0))) s

end Sys2Proof.Machine
end

