-- ==== Sys2Proof/Machine/Attention.lean ====
section
/-! DEFINITION. attn and attnf (R232 to R237). -/

namespace Sys2Proof.Machine

/-! ## Fields (R232, R237) -/

def atDH (w : Word64) : Nat := 32 * (fld w 32 3 + 1)
def atH (w : Word64) : Nat := ceilDiv (atDH w) 64
def atFirst (w : Word64) : Bool := w.getLsbD 35
def atQN (w : Word64) : Nat := fld w 36 7 + 1
def atKN (w : Word64) : Nat := fld w 43 7 + 1
def atCombo (f : Word64) : Bool :=
  fmtC f == 0 && fmtScale f == 0 &&
  ((fmtA f == 1 && fmtB f == 1) || (fmtA f == 2 && fmtB f == 2) ||
   ((fmtA f == 3 || fmtA f == 4) && (fmtB f == 3 || fmtB f == 4)))
/-- The names T to T + h. -/
def atNames (t : TileName) (w : Word64) : List Nat := (List.range (atH w + 1)).map fun i => t.toNat + i

/-! ## The mask (R233, R234) -/

def mkKind (b : BitVec 512) : Nat := fld b 0 4
def mkStep (b : BitVec 512) : Bool := b.getLsbD 4
def mkWord (b : BitVec 512) (i : Nat) : Nat := fld b (32 * i) 32
/-- doc(x): the boundaries B1 to B6 that are at most x. -/
def mkDoc (b : BitVec 512) (x : Nat) : Nat := ((List.range 6).filter fun i => decide (mkWord b (6 + i) ≤ x)).length
def visible (b : BitVec 512) (q k : Nat) : Bool :=
  let m32 (x : Int) : Nat := wrap 32 x
  match mkKind b with
  | 0 => true
  | 1 => decide (k ≤ q)
  | 2 => decide (k ≤ q) && decide (m32 ((q : Int) - k) < mkWord b 2)
  | 3 => decide (k ≤ q) || (decide (k < mkWord b 3) && decide (q < mkWord b 3))
  | 4 => decide (k ≤ q) && mkDoc b k == mkDoc b q
  | _ =>
    let tb := mkWord b 6
    let hi := m32 ((tb : Int) + 16)
    if q < tb ∨ hi ≤ q then decide (k ≤ q)
    else if k < tb then true
    else decide (k < hi) && (fld b (224 + 16 * (q - tb)) 16).testBit (k - tb)
/-- The tests of R234 that need no step number: with an invalid slot, rows and keys beyond QN and KN only. -/
def maskedPlain (slot : Option (BitVec 512)) (w w2 : Word64) (i j : Nat) : Bool :=
  if atQN w ≤ i ∨ atKN w ≤ j then true
  else match slot with
    | none => false
    | some b =>
      let q := (fld w2 0 32 + i) % 2 ^ 32
      let k := (fld w2 32 32 + j) % 2 ^ 32
      decide (mkWord b 4 ≤ k) || !visible b q k
def State.maskSlot (s : State) (n : Nat) (slot : BitVec 4) : Option (BitVec 512) := sget none s.masks (maskKey n slot)

/-! ## Issue -/

/-- An mpld of the slot that an attn will wait for has not retired (R223). -/
def State.mpldPending (s : State) (n : Nat) (slot : BitVec 4) : Bool :=
  s.cmds.any fun c => clusterOf c.ctx == clusterOf n && match c.ins with | .mpld x _ _ => x == slot | _ => false
/-- The attn may read step words: its slot's STEPEN is 1, or an mpld that it waits for may make it so (log 53). -/
def State.mayStep (s : State) (slot : BitVec 4) : Bool :=
  s.mpldPending s.cur slot || (match s.maskSlot s.cur slot with | some m => mkStep m | none => false)
/-- From K's first byte to the last of V, or of the step words behind it. -/
def kvLen (f w w1 : Word64) (step : Bool) : Nat :=
  if step then 128 * fld w1 32 32 + 4 * atKN w else (63 + atKN w) * fld w1 32 32 + atDH w * efWidth (fmtB f)
def State.attnCheck (s : State) (t : TileName) (a : QReg) (b : BitVec 4) (c : SReg) (slot : BitVec 4) (bBuf : Bool) : Verdict :=
  let w := s.rS c
  let w1 := s.lat.gsn (c.toNat + 1)
  let f := s.lat.fmt
  let qs := fld w1 0 32
  let kvs := fld w1 32 32
  let rowA := atDH w * efWidth (fmtA f)
  let rowB := atDH w * efWidth (fmtB f)
  (require (atCombo f) 6).andThen ((regsCheck c 2).andThen ((cwCheck w).andThen
    ((require (atQN w ≤ 64 && atKN w ≤ 64 && fld w 50 14 == 0 && decide (t.toNat + atH w ≤ 31)) 16).andThen
      ((require (qs % 16 == 0 && kvs % 16 == 0) 65).andThen
        ((require (decide (rowA ≤ qs) && decide (rowB ≤ kvs)) 16).andThen
          ((operandCheck s.cur (s.rQ a) 16 ((atQN w - 1) * qs + rowA)).andThen
            ((if bBuf then s.bufCheck b false 0x11 (s.slotCount b (128 * kvs))
              else operandCheck s.cur (s.rQ b) 16 (kvLen f w w1 (s.mayStep slot))).andThen
              ((s.tileRoom (atNames t w)).andThen ((s.cidFree (fld w 0 8)).andThen
                ((s.tilesReady (atNames t w) [] (!atFirst w)).andThen
                  ((s.rangesFree (if bBuf then 1 else 2)).andThen (s.queueRoom .score))))))))))))
def checkAttn (t : TileName) (a : QReg) (b : BitVec 4) (c : SReg) (slot : BitVec 4) (bBuf : Bool) (s : State) : Verdict :=
  s.attnCheck t a b c slot bBuf
def execAttn (t : TileName) (a : QReg) (b : BitVec 4) (c : SReg) (slot : BitVec 4) (bBuf : Bool) (s : State) : Out :=
  s.resolve (checkAttn t a b c slot bBuf s) fun s =>
    let w := s.rS c
    let w1 := s.lat.gsn (c.toNat + 1)
    let c0 := s.newCmd (.attn t a b c slot bBuf) (fld w 0 8) (s.predsOf s.cur w)
    let f := s.lat.fmt
    let kvs := fld w1 32 32
    let s := s.bindTiles (atNames t w)
    s.enqueue { c0 with
      tiles := s.phys (atNames t w)
      inBuf := if bBuf then s.bound s.cur b else none
      inCount := if bBuf then s.slotCount b (128 * kvs) else 0
      ranges := rangeOf (s.rQ a) ((atQN w - 1) * fld w1 0 32 + atDH w * efWidth (fmtA f)) ::
        (if bBuf then [] else [rangeOf (s.rQ b) (kvLen f w w1 (s.mayStep slot))]) }
def atfOk (w w1 : Word64) (t : TileName) : Bool :=
  decide (fld w 35 4 ≤ 2) && decide (fld w 39 7 ≤ 63) && fld w 46 18 == 0 && fld w1 32 32 == 0 && decide (t.toNat + atH w ≤ 31)
def checkAttnf (t : TileName) (a : QReg) (c : SReg) (s : State) : Verdict :=
  let w := s.rS c
  let w1 := s.lat.gsn (c.toNat + 1)
  (regsCheck c 1).andThen ((cwCheck w).andThen ((require (atfOk w w1 t) 16).andThen
    ((require (fld w1 0 32 % 16 == 0) 65).andThen
      ((operandCheck s.cur (s.rQ a) 16 (fld w 39 7 * fld w1 0 32 + atDH w * efWidth (fld w 35 4))).andThen
        ((s.tileRoom (atNames t w)).andThen ((s.cidFree (fld w 0 8)).andThen
          ((s.tilesReady [] (atNames t w) false).andThen (s.queueRoom .tile))))))))
def execAttnf (t : TileName) (a : QReg) (c : SReg) (s : State) : Out :=
  s.resolve (checkAttnf t a c s) fun s =>
    let w := s.rS c
    let c0 := s.newCmd (.attnf t a c) (fld w 0 8) (s.predsOf s.cur w)
    let s := s.bindTiles (atNames t w)
    s.enqueue { c0 with tiles := s.phys (atNames t w) }

/-! ## The attn as it runs (R235, R236) -/

/-- The reads an attn makes before it writes: Q rows, step words, K and V rows; where, from what offset and how long each was. -/
structure AtReads where
  q : List (List Nat)
  k : List (List Nat)
  v : List (List Nat)
  used : List (List Nat)
  made : List (Src × Nat × Nat)
/-- Rows of an operand: n elements of w bytes, row i at off i, for the rows below `rows` where `need` holds. -/
structure AtRows where
  src : Src
  w : Nat
  n : Nat
  off : Nat → Nat
  need : Nat → Bool
  rows : Nat
def AtRows.made (o : AtRows) : List (Src × Nat × Nat) :=
  ((List.range o.rows).filter o.need).map fun i => (o.src, o.off i, o.w * o.n)
def madeReads (xs : List (Src × Nat × Nat)) : List (VA × Acc) := xs.flatMap fun x => x.1.reads x.2.1 x.2.2
/-- A row of n elements of an operand. -/
def State.readElems (s : State) (c : Cmd) (src : Src) (off w n : Nat) : Except Hit (List Nat) :=
  (s.engRead c src off (w * n)).map (elems w n)
/-- The k rows from row i on, empty where `need` does not hold. -/
def State.readRows (s : State) (c : Cmd) (o : AtRows) : Nat → Nat → Except Hit (List (List Nat))
  | 0, _ => .ok []
  | k + 1, i =>
    match (if o.need i then s.readElems c o.src (o.off i) o.w o.n else .ok []) with
    | .error h => .error h
    | .ok v => (hitAfter (if o.need i then o.src.reads (o.off i) (o.w * o.n) else []) (s.readRows c o k (i + 1))).map fun vs => v :: vs
/-- An operand's rows, read behind the reads already made. -/
def State.readAfter (s : State) (c : Cmd) (made : List (Src × Nat × Nat)) (o : AtRows) : Except Hit (List (List Nat)) :=
  hitAfter (madeReads made) (s.readRows c o o.rows 0)
/-- An attn's reads: with an invalid mask slot none; else, in order, those that some key or row needs. A row whose keys are all masked
needs none: its Q row is not read either (log 81). -/
def atReads (s : State) (c : Cmd) (f w w1 w2 : Word64) (a b : Src) (slot : Option (BitVec 512)) : Except Hit AtReads :=
  match slot with
  | none => .ok ⟨[], [], [], (List.range (atQN w)).map fun i => (List.range 64).filter fun j => !maskedPlain none w w2 i j, []⟩
  | some m =>
    let dh := atDH w
    let kvs := fld w1 32 32
    let rows := List.range (atQN w)
    let plain (j : Nat) : Bool := rows.any fun i => !maskedPlain slot w w2 i j
    let S : AtRows := ⟨b, 4, 1, fun j => 128 * kvs + 4 * j, fun j => mkStep m && plain j, 64⟩
    match s.readAfter c [] S with
    | .error h => .error h
    | .ok steps =>
      let u := rows.map fun i => (List.range 64).filter fun j =>
        !maskedPlain slot w w2 i j && !(mkStep m && decide (mkWord m 5 < (steps.getD j []).headD 0))
      let live (j : Nat) : Bool := u.any fun r => r.contains j
      let Q : AtRows := ⟨a, efWidth (fmtA f), dh, fun i => i * fld w1 0 32, fun i => !(u.getD i []).isEmpty, atQN w⟩
      let K : AtRows := ⟨b, efWidth (fmtB f), dh, fun j => j * kvs, live, 64⟩
      let V : AtRows := { K with off := fun j => (64 + j) * kvs }
      match s.readAfter c S.made Q with
      | .error h => .error h
      | .ok q => match s.readAfter c (S.made ++ Q.made) K with
        | .error h => .error h
        | .ok k => match s.readAfter c (S.made ++ Q.made ++ K.made) V with
          | .error h => .error h
          | .ok v => .ok ⟨q, k, v, u, S.made ++ Q.made ++ K.made ++ V.made⟩
/-- The walker's marks of those reads. -/
def atMarks (s : State) (c : Cmd) (r : AtReads) : State := r.made.foldl (fun s x => s.engMarks c x.1 x.2.1 x.2.2) s
/-- Accumulated blocks of 32 products (R61). -/
def dotBlocks (acc : Nat) (xs : List (List XR)) : Nat := xs.foldl (fun a ps => accFP a (rne .f32 (dotProducts ps)).1) acc
/-- One query row: O columns, m and l before; after, with the row flags, or none where the row is unchanged. -/
def atRow (f : Word64) (scale : Nat) (valid : Bool) (q : List Nat) (k v : List (List Nat)) (u : List Nat) (dh m l : Nat) (o : List Nat) :
    Option (List Nat × Nat × Nat × Byte) :=
  let F := efFmt (fmtA f)
  let G := efFmt (fmtB f)
  let nan := Fmt.nan .f32
  if (decodeFP .f32 m).isNan || u.isEmpty then none
  else
    let ts := u.map fun j =>
      if !valid then nan
      else
        let ps := List.zipWith (fun x y => (decodeFP F x).mul (decodeFP G y)) q (k.getD j [])
        (fpMul .f32 scale (dotBlocks 0 (groups 32 (dh / 32) ps))).1
    if ts.any fun t => (decodeFP .f32 t).isNan || t == 0x7F800000 then some (List.replicate dh nan, nan, nan, rfSCORENAN)
    else
      let mn := ts.foldl (fun a t => (fpMax .f32 a t).1) m
      if mn = 0xFF800000 then none
      else
        let e (x : Nat) : Nat := (fpExp2 .f32 (fpSub .f32 x mn).1).1
        let al := e m
        let p := List.zip u (ts.map fun t => (rne .bf16 (decodeFP .f32 (e t))).1)
        let pw (j : Nat) : Option Nat := (p.find? (·.1 == j)).map (·.2)
        let rs := (treeRed (fpAdd .f32) 6 ((List.range 64).map fun j =>
          match pw j with | some x => (rne .f32 (decodeFP .bf16 x)).1 | none => 0x80000000)).1
        let l' := (fpAdd .f32 (fpMul .f32 al l).1 rs).1
        let o' := o.zipIdx.map fun x =>
          let block (lo : Nat) : List XR :=
            (p.filter fun y => decide (lo ≤ y.1) && decide (y.1 < lo + 32)).map fun y =>
              (decodeFP .bf16 y.2).mul (decodeFP G ((v.getD y.1 []).getD x.2 0))
          dotBlocks (fpMul .f32 al x.1).1 [block 0, block 32]
        some (o', mn, l', o'.foldl (fun a x => a ||| nanInf x) 0)
/-- Columns c of O in tile T + c / 64 replaced for row i. -/
def State.setO (s : State) (ts : List Nat) (i dh : Nat) (o : List Nat) : State :=
  (ts.take (ceilDiv dh 64)).zipIdx.foldl (fun s t =>
    let part := (o.drop (64 * t.2)).take 64
    s.updTile t.1 fun x =>
      let rs := x.rows
      x.setRows (rs.set i (part ++ (rs.getD i []).drop part.length))) s
def State.getO (s : State) (ts : List Nat) (i dh : Nat) : List Nat :=
  ((ts.take (ceilDiv dh 64)).flatMap fun t => (s.tile t).rows.getD i []).take dh
def State.setStat (s : State) (tk i m l : Nat) : State :=
  s.updTile tk fun t => { t with data := sput 0 (sput 0 t.data (64 * i) (BitVec.ofNat 32 m)) (64 * i + 1) (BitVec.ofNat 32 l) }
/-- FIRST: m, l and O of the valid rows are initialised and their flags cleared. -/
def atInit (s : State) (ts : List Nat) (w : Word64) : State :=
  let s := (List.range (atQN w)).foldl (fun s i =>
    (s.setO ts i (atDH w) (List.replicate (atDH w) 0)).setStat (ts.getD (atH w) 0) i 0xFF800000 0) s
  ts.foldl (fun s t => s.updTile t fun x => x.clearFlags (atQN w)) s
/-- Slots an attn consumes from its buffer, as fixed when it reads its mask slot (R232, R233). -/
def atCount (s : State) (c : Cmd) (slot : BitVec 4) (r : SReg) : Nat :=
  match c.inBuf with
  | none => 0
  | some e =>
    let step := match s.maskSlot c.ctx slot with | some m => mkStep m | none => false
    ceilDiv (128 * fld (c.w r 1) 32 32 + if step then 256 else 0) (s.cbuf e).size
def runAttn (c : Cmd) (a : QReg) (b : BitVec 4) (r : SReg) (slot : BitVec 4) (s : State) : State × Nat × Option Hit :=
  let w := c.w r 0
  let w1 := c.w r 1
  let w2 := c.w r 2
  let f := c.lat.fmt
  let m := s.maskSlot c.ctx slot
  if (List.range (atQN w)).all fun i => (List.range (atKN w)).all fun j => maskedPlain m w w2 i j then (s, 1, none)
  else
    let sa : Src := .at (c.lat.gq a)
    let sb := s.srcOf c b c.inBuf
    match atReads s c f w w1 w2 sa sb m with
    | .error h => (s, 0, some h)
    | .ok rd =>
      let s := atMarks s c rd
      let s := if atFirst w then atInit s c.tiles w else s
      let tk := c.tiles.getD (atH w) 0
      let scale := match m with | some x => mkWord x 1 | none => 0
      ((List.range (atQN w)).foldl (fun s i =>
        let st := s.tile tk
        match atRow f scale m.isSome (rd.q.getD i []) rd.k rd.v (rd.used.getD i []) (atDH w) (st.get i 0) (st.get i 1)
            (s.getO c.tiles i (atDH w)) with
        | none => s
        | some (o, mn, l, fl) =>
          ((s.setO c.tiles i (atDH w) o).setStat tk i mn l).updTile (c.tiles.headD 0) fun t => t.orFlag i fl) s, 1, none)

/-! ## attnf (R237) -/

def atfRow (c : Cmd) (w : Word64) (i : Nat) (s : State) (off len : Nat) : Except Hit (State × List Byte) :=
  let elf := fld w 35 4
  let wd := efWidth elf
  let st := s.tile (c.tiles.getD (atH w) 0)
  let m := st.get i 0
  let l := st.get i 1
  let nan := (decodeFP .f32 m).isNan
  let ys := (s.getO c.tiles i (atDH w)).map fun o =>
    if nan then Fmt.nan .f32 else if l = 0 then 0 else (fpDiv .f32 o l).1
  let zs := ys.map (narrowElf elf c.lat.fmt)
  let fl := (zs.zipIdx.filter fun x => decide (x.2 * wd < off + len) && decide (off < (x.2 + 1) * wd)).foldl (fun a x => a ||| x.1.2)
    (if !nan && l == 0 then rfALLMASK else 0)
  .ok (s.updTile (c.tiles.headD 0) fun t => t.orFlag i fl, ((zs.flatMap fun x => toLE wd x.1).drop off).take len)
def runAttnf (c : Cmd) (a : QReg) (r : SReg) (s : State) : State × Nat × Option Hit :=
  let w := c.w r 0
  let items := (List.range (fld w 39 7 + 1)).flatMap fun i =>
    lineItems (qoff (c.lat.gq a) (i * fld (c.w r 1) 0 32 : Nat)) (atDH w * efWidth (fld w 35 4)) (atfRow c w i) c
  runItems (items.drop c.prog) c.prog s

end Sys2Proof.Machine
end

