-- ==== Sys2Proof/Machine/CopyEngine.lean ====
section
/-! DEFINITION. The copy engine: copy, copy2d, copyc (R239) and the block gather as it runs (R165). -/

namespace Sys2Proof.Machine

/-! ## Issue (R220, R225, R239) -/

/-- The barrier of a copy with `bar`: a multiple of 16, and a destination in the scratchpad. -/
def barOk (bar : Bool) (x : Word64) (dst : VA) : Bool :=
  fld x 22 42 == 0 && (!bar || (fld x 0 22 % 16 == 0 && isSpad dst))
def checkCopy (a b : QReg) (c : SReg) (bar : Bool) (s : State) : Verdict :=
  let w := s.rS c
  let len := fld w 32 32
  (regsCheck c 1).andThen ((cwCheck w).andThen
    ((require (len != 0 && barOk bar (s.lat.gsn (c.toNat + 1)) (s.rQ b)) 16).andThen
      ((operandCheck s.cur (s.rQ a) 1 len).andThen ((operandCheck s.cur (s.rQ b) 1 len).andThen
        ((s.cidFree (fld w 0 8)).andThen ((s.rangesFree 1).andThen (s.queueRoom .copy)))))))
def execCopy (a b : QReg) (c : SReg) (bar : Bool) (s : State) : Out :=
  s.resolve (checkCopy a b c bar s) fun s =>
    s.enqueue { s.newCmd (.copy a b c bar) (fld (s.rS c) 0 8) (s.predsOf s.cur (s.rS c)) with
      ranges := [rangeOf (s.rQ a) (fld (s.rS c) 32 32)] }
/-- Bytes from the first to the last of R rows of W bytes at a stride. -/
def span2d (w : Word64) (stride : Nat) : Nat := (fld w 48 16 - 1) * stride + fld w 32 16
def checkCopy2d (a b : QReg) (c : SReg) (bar : Bool) (s : State) : Verdict :=
  let w := s.rS c
  let w1 := s.lat.gsn (c.toNat + 1)
  (regsCheck c 2).andThen ((cwCheck w).andThen
    ((require (fld w 32 16 != 0 && fld w 48 16 != 0 && barOk bar (s.lat.gsn (c.toNat + 2)) (s.rQ b)) 16).andThen
      ((operandCheck s.cur (s.rQ a) 1 (span2d w (fld w1 0 32))).andThen
        ((operandCheck s.cur (s.rQ b) 1 (span2d w (fld w1 32 32))).andThen
          ((s.cidFree (fld w 0 8)).andThen ((s.rangesFree 1).andThen (s.queueRoom .copy)))))))
def execCopy2d (a b : QReg) (c : SReg) (bar : Bool) (s : State) : Out :=
  s.resolve (checkCopy2d a b c bar s) fun s =>
    s.enqueue { s.newCmd (.copy2d a b c bar) (fld (s.rS c) 0 8) (s.predsOf s.cur (s.rS c)) with
      ranges := [rangeOf (s.rQ a) (span2d (s.rS c) (fld (s.lat.gsn (c.toNat + 1)) 0 32))] }
def checkCopyc (b : CReg) (a : QReg) (c : SReg) (out : Bool) (s : State) : Verdict :=
  let w := s.rS c
  let cnt := fld w 32 8
  (cwCheck w).andThen ((require (cnt != 0 && fld w 40 24 == 0) 16).andThen
    ((s.bufCheck b (!out) 0x10 cnt).andThen
      ((operandCheck s.cur (s.rQ a) 1 (cnt * (s.cbuf ((s.bound s.cur b).getD 0)).size)).andThen
        ((s.cidFree (fld w 0 8)).andThen ((s.rangesFree (if out then 0 else 1)).andThen (s.queueRoom .copy))))))
def execCopyc (b : CReg) (a : QReg) (c : SReg) (out : Bool) (s : State) : Out :=
  s.resolve (checkCopyc b a c out s) fun s =>
    let e := (s.bound s.cur b).getD 0
    let cnt := fld (s.rS c) 32 8
    s.enqueue { s.newCmd (.copyc b a c out) (fld (s.rS c) 0 8) (s.predsOf s.cur (s.rS c)) with
      inBuf := if out then some e else none
      inCount := if out then cnt else 0
      outBuf := if out then none else some e
      outCount := if out then 0 else cnt
      ranges := if out then [] else [rangeOf (s.rQ a) (cnt * (s.cbuf e).size)] }

/-! ## Running -/

/-- An arrival at a barrier by an engine (R36): beyond the range it is undone and an error record is posted. -/
def State.engArrive (s : State) (c : Cmd) (off n : Nat) : State :=
  let x := (s.barrier (clusterOf c.ctx) off).arrive n
  if x.inRange then s.putBarrier none (clusterOf c.ctx) off x.settle else s.postCtxError c.ctx c.cid 133
/-- One destination line of a copy: the source as it stands now, then the arrival. -/
def copyItems (c : Cmd) (src dst : VA) (len : Nat) (bar : Option Nat) : List (State → Except Hit State) :=
  (segOffs dst len).map fun g => fun s =>
    match s.engRead c (.at src) g.1 g.2 with
    | .error h => .error h
    | .ok bs =>
      match hitAfter ((Src.at src).reads g.1 g.2) ((s.engMarks c (.at src) g.1 g.2).engWriteLine c (qoff dst (g.1 : Int)) bs) with
      | .error h => .error h
      | .ok s => .ok (match bar with | some o => s.engArrive c o g.2 | none => s)
def runCopy (c : Cmd) (a b : QReg) (r : SReg) (bar : Bool) (s : State) : State × Nat × Option Hit :=
  runItems ((copyItems c (c.lat.gq a) (c.lat.gq b) (fld (c.w r 0) 32 32)
    (if bar then some (fld (c.w r 1) 0 22) else none)).drop c.prog) c.prog s
def runCopy2d (c : Cmd) (a b : QReg) (r : SReg) (bar : Bool) (s : State) : State × Nat × Option Hit :=
  let w := c.w r 0
  let w1 := c.w r 1
  let items := (List.range (fld w 48 16)).flatMap fun i =>
    copyItems c (qoff (c.lat.gq a) (i * fld w1 0 32 : Nat)) (qoff (c.lat.gq b) (i * fld w1 32 32 : Nat)) (fld w 32 16)
      (if bar then some (fld (c.w r 2) 0 22) else none)
  runItems (items.drop c.prog) c.prog s
/-- The offset in its cluster of slot j of those a command has reserved; slots it has advanced are behind the write pointer. -/
def State.outSlot (s : State) (e j advanced : Nat) : Nat := (s.cbuf e).at (s.cbuf e).wp ((j - advanced) * (s.cbuf e).size)
/-- One slot advances: its reservation becomes a filled slot (R33). -/
def State.advanceSlot (s : State) (e : Nat) : State :=
  s.updCbuf e fun b => { b.advance 1 with reserved := b.reserved - 1 }
/-- Fill one line of a slot from memory; the last line of a slot advances it. -/
def fillItems (c : Cmd) (e : Nat) (src : Nat → Option VA) (size cnt : Nat) : List (State → Except Hit State) :=
  (List.range cnt).flatMap fun j => (List.range (size / 128)).map fun i => fun s =>
    let bs : Except Hit (List Byte) := match src j with
      | some va => s.engRead c (.at va) (128 * i) 128
      | none => .ok (List.replicate 128 0)
    match bs with
    | .error h => .error h
    | .ok bs =>
      let s := match src j with | some va => s.engMarks c (.at va) (128 * i) 128 | none => s
      -- the slots before j have advanced, so slot j is the one at the write pointer
      let s := s.spadPut none (e / 64) (offsetBytes (s.outSlot e j j + 128 * i) bs)
      .ok (if i + 1 = size / 128 then s.advanceSlot e else s)
/-- One destination line from a buffer's slots; each slot is freed as its last byte is read (R33). -/
def drainItems (c : Cmd) (e : Nat) (dst : VA) (size len : Nat) : List (State → Except Hit State) :=
  (segOffs dst len).map fun g => fun s =>
    match s.engWriteLine c (qoff dst (g.1 : Int)) (s.cbBytes e (s.cbuf e).rp (g.1 % size) g.2) with
    | .error h => .error h
    | .ok s => .ok (s.updCbuf e fun b => b.release ((g.1 + g.2) / size - g.1 / size))
/-- Progress of a fill is counted in slots when it stops: a slot not yet advanced is fetched again (R165). -/
def wholeSlots (lines p : Nat) : Nat := p / lines * lines
def runCopyc (c : Cmd) (a : QReg) (r : SReg) (out : Bool) (s : State) : State × Nat × Option Hit :=
  let cnt := fld (c.w r 0) 32 8
  if out then
    match c.inBuf with
    | none => (s, 1, none)
    | some e =>
      let size := (s.cbuf e).size
      runItems ((drainItems c e (c.lat.gq a) size (cnt * size)).drop c.prog) c.prog s
  else
    match c.outBuf with
    | none => (s, 1, none)
    | some e =>
      let size := (s.cbuf e).size
      runItems ((fillItems c e (fun j => some (qoff (c.lat.gq a) (j * size : Nat))) size cnt).drop c.prog) c.prog s
def runBgath (c : Cmd) (a : KReg) (b : QReg) (r : SReg) (s : State) : State × Nat × Option Hit :=
  match c.outBuf with
  | none => (s, 1, none)
  | some e =>
    let size := (s.cbuf e).size
    let idx := bgIdx (c.lat.gk a) (c.w r 0)
    let src (j : Nat) : Option VA :=
      let x := idx.getD j 0
      if bgBound (c.w r 0) ≤ x then none else some (qoff (c.lat.gq b) (x * size : Nat))
    match runItems ((fillItems c e src size (bgCnt (c.w r 0))).drop c.prog) c.prog s with
    | (s, p, some h) => (s, wholeSlots (size / 128) p, some h)
    | x => x

end Sys2Proof.Machine
end

