-- ==== Sys2Proof/Machine/PM.lean ====
section
/-! DEFINITION. Processing-memory commands at issue (R251 to R262): their checks, captured records and descriptors. -/

namespace Sys2Proof.Machine

/-! ## Shared checks (R220, R245, R252) -/

/-- PM_PHASE: the multiply-accumulates are legal in generate only. -/
def State.pmPhase (s : State) : Verdict := require (s.launchOf s.cur).phase 192
/-- Layout slots that a command names. -/
def Instr.slots : Instr → List Nat
  | .pmmac _ _ ls | .pmatk _ ls | .pmatv _ ls | .pmrd _ _ ls | .pmclr _ ls | .laybind _ _ ls | .kvxfer _ _ ls | .pmst _ _ ls => [ls.toNat]
  | .kvapp _ _ ls => [ls.toNat, ls.toNat + 1]
  | _ => []
def Instr.isLaybind : Instr → Bool
  | .laybind .. => true | _ => false
/-- A laybind of the slot that has issued and not retired stalls the bundle. -/
def State.slotQuiet (s : State) (ls : Nat) : Verdict :=
  waitFor (!s.cmds.any fun c => dieOf c.ctx == s.myDie && Instr.isLaybind c.ins && (Instr.slots c.ins).contains ls)
def State.lrec (s : State) (ls : Nat) : BitVec 512 := (s.layout s.myDie ls).record
/-- The slot is valid, and of a kind allowed. -/
def State.slotCheck (s : State) (ls : Nat) (kinds : List Nat) : Verdict :=
  (s.slotQuiet ls).andThen ((require (s.layout s.myDie ls).valid 193).andThen (require (kinds.contains (lrKind (s.lrec ls))) 196))
/-- The pairings of R245, SCL included. -/
def pmPair (r : BitVec 512) (a : ActDesc) : Bool :=
  let e := lrEfmt r
  let sc := lrScale r
  a.scl == (sc != 0) &&
  (((e == 5 || e == 6 || e == 7) && a.af == 5) || ((e == 3 || e == 4) && (a.af == 3 || a.af == 4)) ||
   (e == 1 && a.af == 1 && sc == 0) || (e == 2 && a.af == 2 && sc == 0))
/-- The descriptor that the latest issued pmvec set for a slot of a channel. -/
def State.issueDesc (s : State) (ch b : Nat) : ActDesc := sget .zero (s.die s.myDie).pmDesc (8 * ch + b)
/-- What every command's control word is checked for. -/
def State.pmWord (s : State) (c : SReg) (more : Nat) : Verdict := (regsCheck c more).andThen (cwCheck (s.rS c))
/-- The identifier, ranges and queue of a command. -/
def State.pmQueue (s : State) (c : SReg) (ranges : Nat) : Verdict :=
  (s.cidFree (fld (s.rS c) 0 8)).andThen ((s.rangesFree ranges).andThen (s.queueRoom .pm))
def State.pmCmd (s : State) (i : Instr) (c : SReg) : Cmd := s.newCmd i (fld (s.rS c) 0 8) (s.predsOf s.cur (s.rS c))
def State.r1 (s : State) (c : SReg) : Word64 := s.lat.gsn (c.toNat + 1)
def State.r2 (s : State) (c : SReg) : Word64 := s.lat.gsn (c.toNat + 2)

/-! ## pmvec (R254) -/

def pvLen (w : Word64) : Nat := 32 * (fld w 32 6 + 1)
def pvAf (w : Word64) : Nat := fld w 38 4
def pvKc (w : Word64) : Nat := pvLen w / efWidth (pvAf w)
def pvScl (w : Word64) : Bool := w.getLsbD 42
/-- Bytes read: elements, then scales. -/
def pvBytes (w : Word64) : Nat := pvLen w + if pvScl w then pvKc w / 32 else 0
def pvDesc (w : Word64) : ActDesc := ⟨true, pvAf w, 32 * fld w 43 16, pvKc w, pvScl w⟩
def checkPmvec (a : QReg) (c : SReg) (s : State) : Verdict :=
  let w := s.rS c
  (s.pmWord c 1).andThen
    ((require (decide (1 ≤ pvAf w) && decide (pvAf w ≤ 6) && pvKc w % 32 == 0 && fld w 59 5 == 0 &&
        fld (s.r1 c) 0 16 != 0 && fld (s.r1 c) 16 48 == 0) 16).andThen
      ((operandCheck s.cur (s.rQ a) 16 (pvBytes w)).andThen (s.pmQueue c 1)))
def execPmvec (a : QReg) (c : SReg) (b : BitVec 3) (s : State) : Out :=
  s.resolve (checkPmvec a c s) fun s =>
    let w := s.rS c
    let s1 := s.updDie s.myDie fun k =>
      { k with pmDesc := (chans (fld (s.r1 c) 0 16)).foldl (fun m ch => sput .zero m (8 * ch + b.toNat) (pvDesc w)) k.pmDesc }
    s1.enqueue { s.pmCmd (.pmvec a c b) c with ranges := [rangeOf (s.rQ a) (pvBytes w)] }

/-! ## pmmac (R255) -/

/-- Planes a T code reads, and whether it names a record's type. -/
def pmType (t : BitVec 4) (r : BitVec 512) : Bool :=
  if t.toNat ≤ 6 then t.toNat == lrEfmt r else lrEfmt r == 7
def pmPlanes (t : BitVec 4) (r : BitVec 512) : Nat := if lrEfmt r = 7 then t.toNat - 6 else 1
def pmSlots (w : Word64) : List Nat := (List.range 8).filter fun b => w.getLsbD (32 + b)
def checkPmmac (t : BitVec 4) (c : SReg) (ls : BitVec 6) (s : State) : Verdict :=
  let w := s.rS c
  let w1 := s.r1 c
  let r := s.lrec ls.toNat
  let used := ((bgesIn r (pmChm w)).map (· / 8)).dedup
  let descs := used.flatMap fun ch => (pmSlots w).map fun b => s.issueDesc ch b
  s.pmPhase.andThen ((s.pmWord c 1).andThen
    ((require (fld w 32 8 != 0 && pmChm w != 0 && fld w 62 2 == 0 && fld w1 32 32 == 0) 16).andThen
      ((s.slotCheck ls.toNat [0]).andThen ((require (pmType t r) 196).andThen
        ((require (decide (pmPlanes t r ≤ lrNp r)) 8).andThen
          ((require (decide (fld w1 0 32 + (fld w 40 6 + 1) ≤ lrLR r)) 195).andThen
            ((Verdict.all (descs.map fun a =>
                (require a.valid 198).andThen ((require (pmPair r a) 196).andThen (require (decide (a.koff + a.kc ≤ lrCols r)) 195)))).andThen
              (s.pmQueue c 0))))))))
def execPmmac (t : BitVec 4) (c : SReg) (ls : BitVec 6) (s : State) : Out :=
  s.resolve (checkPmmac t c ls s) fun s => s.enqueue { s.pmCmd (.pmmac t c ls) c with lay := s.lrec ls.toNat }

/-! ## pmatk and pmatv (R256) -/

def paB (w : Word64) : Nat := fld w 32 3
def paAcol (w : Word64) : Nat := fld w 35 3
def paDH (w : Word64) : Nat := 32 * (fld w 38 3 + 1)
def paStep (w : Word64) : Bool := w.getLsbD 41
def paHoff (w2 : Word64) : Nat := fld w2 32 16
/-- The activation slot's part of the checks, for one channel. -/
def paDescCheck (val : Bool) (w w1 : Word64) (a : ActDesc) : Verdict :=
  (require a.valid 198).andThen
    (require (if val then (a.af == 1 || a.af == 2) && decide (a.koff ≤ fld w1 0 32) && decide (fld w1 0 32 + fld w1 32 32 ≤ a.koff + a.kc)
      else a.af == 2 && decide (paDH w ≤ a.kc)) 196)
def State.pmAttCheck (s : State) (c : SReg) (ls : Nat) (val : Bool) : Verdict :=
  let w := s.rS c
  let w1 := s.r1 c
  let w2 := s.r2 c
  let r := s.lrec ls
  let t0 := fld w1 0 32
  let tn := fld w1 32 32
  s.pmPhase.andThen ((s.pmWord c 2).andThen
    ((require (fld w 42 22 == 0 && fld w2 48 16 == 0 && paHoff w2 % 32 == 0 &&
        (!val || decide (paAcol w + ceilDiv (paDH w) 64 ≤ 8))) 16).andThen
      ((s.slotCheck ls [if val then 2 else 1]).andThen
        ((require (decide (t0 + tn ≤ lrRows r) && decide (paHoff w2 + paDH w ≤ lrCols r) &&
            (val || (t0 % lrS r == 0 && decide (tn ≤ 64 * lrS r)))) 195).andThen
          ((Verdict.all (((lrBges r).map (· / 8)).dedup.map fun ch => paDescCheck val w w1 (s.issueDesc ch (paB w)))).andThen
            (s.pmQueue c 0))))))
def checkPmatk (c : SReg) (ls : BitVec 6) (s : State) : Verdict := s.pmAttCheck c ls.toNat false
def execPmatk (c : SReg) (ls : BitVec 6) (s : State) : Out :=
  s.resolve (checkPmatk c ls s) fun s => s.enqueue { s.pmCmd (.pmatk c ls) c with lay := s.lrec ls.toNat }
def checkPmatv (c : SReg) (ls : BitVec 6) (s : State) : Verdict := s.pmAttCheck c ls.toNat true
def execPmatv (c : SReg) (ls : BitVec 6) (s : State) : Out :=
  s.resolve (checkPmatv c ls s) fun s => s.enqueue { s.pmCmd (.pmatv c ls) c with lay := s.lrec ls.toNat }

/-! ## pmrd, pmst, pmclr (R258, R259) -/

def prElf (w : Word64) : Nat := fld w 32 4
def prOk (w : Word64) : Bool := decide (prElf w ≤ 2) && prChm w != 0 && fld w 52 12 == 0
/-- Bytes of an accumulator record (R257). -/
def recBytes (elf : Nat) : Nat := 128 + 512 * efWidth elf
def checkPmrd (b : CReg) (c : SReg) (ls : BitVec 6) (s : State) : Verdict :=
  let w := s.rS c
  let n := (bgesIn (s.lrec ls.toNat) (prChm w)).length
  (s.pmWord c 0).andThen ((require (prOk w) 16).andThen ((s.slotCheck ls.toNat [0, 1, 2]).andThen
    ((s.bufCheck b true 0x13 n).andThen
      ((require ((s.cbuf ((s.bound s.cur b).getD 0)).size == recBytes (prElf w)) 129).andThen (s.pmQueue c 0)))))
def execPmrd (b : CReg) (c : SReg) (ls : BitVec 6) (s : State) : Out :=
  s.resolve (checkPmrd b c ls s) fun s =>
    s.enqueue { s.pmCmd (.pmrd b c ls) c with
      lay := s.lrec ls.toNat, outBuf := s.bound s.cur b, outCount := (bgesIn (s.lrec ls.toNat) (prChm (s.rS c))).length }
def checkPmst (a : QReg) (c : SReg) (ls : BitVec 6) (s : State) : Verdict :=
  let w := s.rS c
  let n := (bgesIn (s.lrec ls.toNat) (prChm w)).length
  (s.pmWord c 0).andThen ((require (prOk w) 16).andThen ((s.slotCheck ls.toNat [0, 1, 2]).andThen
    ((operandCheck s.cur (s.rQ a) 128 (n * recBytes (prElf w))).andThen (s.pmQueue c 0))))
def execPmst (a : QReg) (c : SReg) (ls : BitVec 6) (s : State) : Out :=
  s.resolve (checkPmst a c ls s) fun s => s.enqueue { s.pmCmd (.pmst a c ls) c with lay := s.lrec ls.toNat }
def checkPmclr (c : SReg) (ls : BitVec 6) (s : State) : Verdict :=
  let w := s.rS c
  (s.pmWord c 0).andThen ((require (fld w 32 16 != 0 && fld w 48 16 == 0) 16).andThen
    ((s.slotCheck ls.toNat [0, 1, 2]).andThen (s.pmQueue c 0)))
def execPmclr (c : SReg) (ls : BitVec 6) (s : State) : Out :=
  s.resolve (checkPmclr c ls s) fun s => s.enqueue { s.pmCmd (.pmclr c ls) c with lay := s.lrec ls.toNat }

/-! ## kvxfer and kvapp (R260) -/

/-- Source element width. -/
def kvWidth (w : Word64) : Nat := if fld w 32 4 = 0 then 4 else 2
def kvWordOk (w : Word64) : Bool := (fld w 32 4 == 0 || fld w 32 4 == 2) && fld w 36 28 == 0
def checkKvxfer (a : QReg) (c : SReg) (ls : BitVec 6) (s : State) : Verdict :=
  let w := s.rS c
  let r := s.lrec ls.toNat
  let tn := fld (s.r1 c) 32 32
  let st := fld (s.r2 c) 0 32
  let n := lrCols r * kvWidth w
  (s.pmWord c 2).andThen ((require (kvWordOk w && decide (1 ≤ tn) && decide (tn ≤ 65536)) 16).andThen
    ((s.slotCheck ls.toNat [1, 2]).andThen ((require (decide (n ≤ st)) 16).andThen
      ((require (decide (fld (s.r1 c) 0 32 + tn ≤ lrRows r)) 195).andThen ((require (st % kvWidth w == 0) 65).andThen
        ((operandCheck s.cur (s.rQ a) (kvWidth w) ((tn - 1) * st + n)).andThen (s.pmQueue c 1)))))))
def execKvxfer (a : QReg) (c : SReg) (ls : BitVec 6) (s : State) : Out :=
  s.resolve (checkKvxfer a c ls s) fun s =>
    let n := lrCols (s.lrec ls.toNat) * kvWidth (s.rS c)
    s.enqueue { s.pmCmd (.kvxfer a c ls) c with
      lay := s.lrec ls.toNat, ranges := [rangeOf (s.rQ a) ((fld (s.r1 c) 32 32 - 1) * fld (s.r2 c) 0 32 + n)] }
def checkKvapp (a : QReg) (c : SReg) (ls : BitVec 6) (s : State) : Verdict :=
  let w := s.rS c
  let r := s.lrec ls.toNat
  let v := s.lrec (ls.toNat + 1)
  let t := fld (s.r1 c) 0 32
  let n := lrCols r * kvWidth w
  (s.pmWord c 2).andThen ((require (kvWordOk w && fld (s.r2 c) 32 32 == 0) 16).andThen
    ((s.slotCheck ls.toNat [1, 2]).andThen ((require (ls.toNat != 63) 196).andThen ((s.slotQuiet (ls.toNat + 1)).andThen
      ((require (s.layout s.myDie (ls.toNat + 1)).valid 193).andThen
      ((require (lrKind v == 2 && lrCols v == lrCols r) 196).andThen
        ((require (decide (t + 1 ≤ lrRows r) && decide (t + 1 ≤ lrRows v)) 195).andThen
          ((operandCheck s.cur (s.rQ a) (kvWidth w) n).andThen
            ((operandCheck s.cur (qoff (s.rQ a) (fld (s.r2 c) 0 32 : Nat)) (kvWidth w) n).andThen (s.pmQueue c 2))))))))))
def execKvapp (a : QReg) (c : SReg) (ls : BitVec 6) (s : State) : Out :=
  s.resolve (checkKvapp a c ls s) fun s =>
    let n := lrCols (s.lrec ls.toNat) * kvWidth (s.rS c)
    s.enqueue { s.pmCmd (.kvapp a c ls) c with
      lay := s.lrec ls.toNat, lay2 := s.lrec (ls.toNat + 1),
      ranges := [rangeOf (s.rQ a) n, rangeOf (qoff (s.rQ a) (fld (s.r2 c) 0 32 : Nat)) n] }

/-! ## laybind and pmsync (R261, R262) -/

def checkLaybind (a : QReg) (c : SReg) (ls : BitVec 6) (s : State) : Verdict :=
  (s.pmWord c 0).andThen ((require (fld (s.rS c) 32 32 == 0) 16).andThen ((s.slotQuiet ls.toNat).andThen
    ((operandCheck s.cur (s.rQ a) 64 64).andThen (s.pmQueue c 1))))
def execLaybind (a : QReg) (c : SReg) (ls : BitVec 6) (s : State) : Out :=
  s.resolve (checkLaybind a c ls s) fun s =>
    s.enqueue { s.pmCmd (.laybind a c ls) c with ranges := [rangeOf (s.rQ a) 64] }
/-- Every processing-memory command of the context has retired. -/
def checkPmsync (s : State) : Verdict := waitFor (!s.cmds.any fun c => c.ctx == s.cur && Instr.unit c.ins == .pm)
def execPmsync (d : SReg) (s : State) : Out :=
  s.resolve (checkPmsync s) fun s => (s.wS d s.cx.pmerr).upd fun c => { c with pmerr := 0 }

end Sys2Proof.Machine
end

