-- ==== Sys2Proof/Machine/PMRun.lean ====
section
/-! DEFINITION. Groups on bank-group engines (R253 to R266): reads with their errors, the arithmetic, records and hand-over, and
the events GROUP_START, GROUP_COMPLETE and REFRESH. -/

namespace Sys2Proof.Machine

def State.bge (s : State) (d b : Nat) : Bge := sget .zero (s.die d).bges b
def State.updBge (s : State) (d b : Nat) (f : Bge → Bge) : State :=
  s.updDie d fun k => { k with bges := sput .zero k.bges b (f (sget .zero k.bges b)) }

/-! ## The BGEs of a command -/

/-- Every earlier-issued command of the die has finished its work on a BGE (R253). -/
def State.bgeFree (s : State) (c : Cmd) (b : Nat) : Bool :=
  !s.cmds.any fun x => dieOf x.ctx == dieOf c.ctx && Instr.unit x.ins == .pm && decide (x.id < c.id) && x.bges.contains b && !x.done.contains b

/-! ## Errors (R265, R266) -/

/-- The fields of an error record that a unit of processing memory gives. -/
structure PmErr where
  cause : Nat
  bge : Nat
  bank : Nat
  row : Nat
  col : Nat
  deriving DecidableEq, Repr
/-- A record for a command's error, with the accumulator row it poisons; the BGE's CAUSE and PMERR record it. -/
def State.postPm (s : State) (c : Cmd) (ls : Nat) (e : PmErr) (arow : Option Nat) : State :=
  let d := dieOf c.ctx
  let s := if e.cause = 200 ∨ e.cause = 201 ∨ e.cause = 203 then
      s.updBge d e.bge fun b => { b with cause := if b.cause = 0 then e.cause else b.cause } else s
  (s.postError d (pmRecord e.cause ⟨e.bge, e.bank, e.row, e.col⟩ ls false arow false + s.recWho (some c.ctx) c.cid)).pmerrNote
    c.ctx e.cause
/-- A unit that is marked bad. -/
def State.badUnit (s : State) (d bge bank row : Nat) : Bool :=
  s.badUnits.any fun u => u.die == d && u.bge == bge && u.bank == bank && u.row == row
/-- What a BGE meets in the column cycles of bytes [off, off + n) of its stripe: every error of each cycle, or one of each bad unit. -/
def State.devErrs (s : State) (d : Nat) (r : BitVec 512) (bad : Bool) (bge off n : Nat) : List PmErr :=
  if n = 0 ∨ (s.badUnits.isEmpty ∧ s.devFaults.isEmpty ∧ !bad) then []
  else
    ((List.range ((off + n - 1) / 32 - off / 32 + 1)).map fun i => off / 32 + i).flatMap fun cc =>
      let p := lrPlace r (32 * cc)
      let e (cause : Nat) : PmErr := ⟨cause, bge, p.1, p.2.1, p.2.2 / 32⟩
      if bad || s.badUnit d bge p.1 p.2.1 then if cc = off / 32 ∨ cc % 64 = 0 then [e 203] else []
      else
        (s.devFaults.filter fun f => f.die == d && f.bge == bge && f.bank == p.1 && f.row == p.2.1 && f.col == p.2.2 / 32).map fun f =>
          e (match f.kind with | .ecc => 200 | .residue => 201 | .link => 204 | .corrected => 205)
/-- Transient faults that a read has met are gone. -/
def State.meet (s : State) (d : Nat) (es : List PmErr) : State :=
  { s with devFaults := s.devFaults.filter fun f =>
      f.persist || !es.any fun e => e.cause != 203 && f.die == d && f.bge == e.bge && f.bank == e.bank && f.row == e.row && f.col == e.col }
/-- Steps 1 and 2 of R265 for a read that updates accumulator rows `rows`: every error is reported; one that was not corrected
poisons the rows. True: the read is usable. -/
def State.escalate (s : State) (c : Cmd) (ls : Nat) (bge : Nat) (rows : List Nat) (es : List PmErr) : State × Bool :=
  let s := s.meet (dieOf c.ctx) es
  let ok := es.all (·.cause == 205)
  let s := if ok then s
    else s.updBge (dieOf c.ctx) bge fun b => { b with poison := rows.foldl (fun p r => p ||| (1#64 <<< r)) b.poison }
  (es.foldl (fun s e => s.postPm c ls e (if e.cause == 205 then none else rows.head?)) s, ok)
/-- Stored bytes as the device holds them. -/
def State.devBytes (s : State) (d : Nat) (r : BitVec 512) (bge off n : Nat) : List Byte :=
  (List.range n).map fun i => rdByte s.mem (Config.dieKey d (lrPA r bge (off + i)))
/-- A 32-bit word of a stripe. -/
def State.devWord (s : State) (d : Nat) (r : BitVec 512) (bge off : Nat) : Nat := leNat (s.devBytes d r bge off 4)

/-! ## Accumulators -/

def Bge.elem (b : Bge) (slot af i : Nat) : XR :=
  let w := efWidth af
  elemVal af (leNat ((List.range w).map fun k => sget 0 b.act (2048 * slot + i * w + k)))
def Bge.scale (b : Bge) (slot i : Nat) : Nat := (sget 0 b.scales (64 * slot + i)).toNat
def Bge.accAt (b : Bge) (r col : Nat) : Nat := (sget 0 b.acc (8 * r + col)).toNat
/-- Write an accumulator; the flags record a NaN or an infinity. -/
def Bge.putAcc (b : Bge) (r col x : Nat) : Bge :=
  let f := nanInf x
  { b with acc := sput 0 b.acc (8 * r + col) (BitVec.ofNat 32 x), nan := b.nan || f == rfNAN, inf := b.inf || f == rfINF }
def Bge.poisoned (b : Bge) (r : Nat) : Bool := b.poison.getLsbD r
/-- Element i of an accumulator record's element, as read. -/
def Bge.read (b : Bge) (r col : Nat) : Nat := if b.poisoned r then Fmt.nan .f32 else b.accAt r col
/-- The accumulator record of a BGE (R257). An element of ELF 0 is stored as it is, under either fmt.SAT (log 75). -/
def Bge.record (b : Bge) (bge elf : Nat) (f : Word64) : List Byte :=
  let rs := (List.range 64).flatMap fun r => (List.range 8).map fun col =>
    let x := b.read r col
    if elf = 0 then (x, (0 : Flg)) else cvtToFP (efFmt elf) (fmtRnd f) (fmtSat f) (decodeFP .f32 x)
  let vals := rs.map fun x => decodeFP (efFmt elf) x.1
  let isInf (x : XR) : Bool := match x with | .inf _ => true | _ => false
  toLE 128 (bge + 2 ^ 8 * b.cause + 2 ^ 17 * boolN (vals.any XR.isNan) + 2 ^ 18 * boolN (vals.any isInf) +
    2 ^ 19 * boolN (rs.any fun x => x.2 &&& fSF != 0) + 2 ^ 64 * b.poison.toNat) ++ rs.flatMap fun x => toLE (efWidth elf) x.1

/-! ## The work of a group (R254 to R260) -/

/-- pmvec: the bytes read at firing go to the slot. -/
def pvGroup (c : Cmd) (k : SReg) (slot : Nat) (b : Bge) : Bge :=
  let w := c.w k 0
  let el := c.data.take (pvLen w)
  let sc := c.data.drop (pvLen w)
  let put (m : SMap Byte) (base n : Nat) (bs : List Byte) : SMap Byte :=
    bs.zipIdx.foldl (fun m x => sput 0 m (base + x.2) x.1) (m.filter fun e => !(decide (base ≤ e.1) && decide (e.1 < base + n)))
  { b with act := put b.act (2048 * slot) 2048 el, scales := put b.scales (64 * slot) 64 sc,
           desc := sput .zero b.desc slot (pvDesc w) }
/-- The weights of block q of a stored row, with the block's scale. -/
def State.macBlock (s : State) (d : Nat) (r : BitVec 512) (bge row k q : Nat) : List XR × Nat :=
  let e := lrEfmt r
  let xs := if e = 7 then
      let ps := (List.range k).map fun j => s.devWord d r bge (lrData r row j + 4 * q)
      (List.range 32).map (planeVal (lrPlanes r) k ps)
    else (elems (efWidth e) 32 (s.devBytes d r bge (lrData r row 0 + 32 * efWidth e * q) (32 * efWidth e))).map (elemVal e)
  (xs, if lrScale r = 0 then 0 else leNat (s.devBytes d r bge (lrScaleAt r row + q) 1))
/-- The first block of a pmmac's activation slots on a BGE, and the number of blocks to the last. -/
def macSpan (g : Bge) (r : BitVec 512) (slots : List Nat) : Nat × Nat :=
  let ds := slots.map fun b => sget .zero g.desc b
  let lo := ds.foldl (fun m a => min m (a.koff / 32)) (lrCols r / 32)
  (lo, ds.foldl (fun m a => max m ((a.koff + a.kc) / 32)) 0 - lo)
/-- What a pmmac reads of a stored row: stripe offsets and lengths of its planes or elements and of its scales. -/
def macReads (r : BitVec 512) (k row lo n : Nat) : List (Nat × Nat) :=
  let w := efWidth (lrEfmt r)
  (if lrEfmt r = 7 then (List.range k).map fun j => (lrData r row j + 4 * lo, 4 * n)
    else [(lrData r row 0 + 32 * w * lo, 32 * w * n)]) ++ (if lrScale r = 0 then [] else [(lrScaleAt r row + lo, n)])
/-- One accumulator row of a pmmac (R255). -/
def macRow (c : Cmd) (t : BitVec 4) (ls : Nat) (slots : List Nat) (bge row arow : Nat) (s : State) : State :=
  let d := dieOf c.ctx
  let r := c.lay
  let g := s.bge d bge
  let descs := slots.map fun b => (b, sget .zero g.desc b)
  let q := macSpan g r slots
  let k := pmPlanes t r
  let (s, ok) := s.escalate c ls bge [arow]
    ((macReads r k row q.1 q.2).flatMap fun x => s.devErrs d r (s.layout d ls).bad bge x.1 x.2)
  if !ok then s
  else
    let blocks := (List.range q.2).map fun i => (q.1 + i, s.macBlock d r bge row k (q.1 + i))
    s.updBge d bge fun g => blocks.foldl (fun g q => descs.foldl (fun g x =>
      let b := x.1
      let a := x.2
      if a.koff / 32 ≤ q.1 ∧ q.1 < (a.koff + a.kc) / 32 then
        let base := 32 * q.1 - a.koff
        let ys := (List.range 32).map fun i => g.elem b a.af (base + i)
        g.putAcc arow b (accFP (g.accAt arow b)
          (blockTerm (dotProducts (List.zipWith XR.mul q.2.1 ys)) q.2.2 (g.scale b (base / 32)) (lrScale r)))
      else g) g) g
/-- The accumulator rows of a pmmac whose stored rows exist and that are not poisoned. -/
def macRows (c : Cmd) (k : SReg) (bge : Nat) (g : Bge) : List Nat :=
  let r := c.lay
  let st := (lrBges r).findIdx (· == bge)
  (List.range (fld (c.w k 0) 40 6 + 1)).filter fun i =>
    decide ((fld (c.w k 1) 0 32 + i) * lrS r + st < lrRows r) && !g.poisoned i
def macGroup (c : Cmd) (t : BitVec 4) (k : SReg) (ls bge : Nat) (s : State) : State :=
  (macRows c k bge (s.bge (dieOf c.ctx) bge)).foldl
    (fun s i => macRow c t ls (pmSlots (c.w k 0)) bge (fld (c.w k 1) 0 32 + i) i s) s
/-- Whether a token's step word masks it, with the errors of reading it. -/
def State.tokMask (s : State) (c : Cmd) (k : SReg) (ls bge tok : Nat) : Bool × List PmErr :=
  let off := lrStep c.lay (lrLocal c.lay tok)
  let d := dieOf c.ctx
  if paStep (c.w k 0) then
    (decide (fld (c.w k 2) 0 32 < s.devWord d c.lay bge off), s.devErrs d c.lay (s.layout d ls).bad bge off 4)
  else (false, [])
/-- The FP16 elements of a token's head. -/
def State.headElems (s : State) (c : Cmd) (k : SReg) (bge tok : Nat) : List XR :=
  let n := paDH (c.w k 0)
  (elems 2 n (s.devBytes (dieOf c.ctx) c.lay bge (lrData c.lay (lrLocal c.lay tok) 0 + 2 * paHoff (c.w k 2)) (2 * n))).map (decodeFP .f16)
def State.headErrs (s : State) (c : Cmd) (k : SReg) (ls bge tok : Nat) : List PmErr :=
  let d := dieOf c.ctx
  s.devErrs d c.lay (s.layout d ls).bad bge (lrData c.lay (lrLocal c.lay tok) 0 + 2 * paHoff (c.w k 2)) (2 * paDH (c.w k 0))
def atkGroup (c : Cmd) (k : SReg) (ls bge : Nat) (s : State) : State :=
  let w := c.w k 0
  let d := dieOf c.ctx
  let t0 := fld (c.w k 1) 0 32
  let st := (lrBges c.lay).findIdx (· == bge)
  (stripeTokens c.lay st t0 (fld (c.w k 1) 32 32)).foldl (fun s tok =>
    let r := (tok - t0) / lrS c.lay
    let m := s.tokMask c k ls bge tok
    let errs := m.2 ++ if m.1 then [] else s.headErrs c k ls bge tok
    let (s, ok) := s.escalate c ls bge [r] errs
    if !ok then s
    else if m.1 then s.updBge d bge fun g => g.putAcc r (paAcol w) 0xFF800000
    else
      let ks := s.headElems c k bge tok
      s.updBge d bge fun g =>
        let a := sget .zero g.desc (paB w)
        let qs := (List.range (paDH w)).map fun i => g.elem (paB w) a.af i
        g.putAcc r (paAcol w) (dotBlocks 0 (groups 32 (paDH w / 32) (List.zipWith XR.mul qs ks)))) s
def atvGroup (c : Cmd) (k : SReg) (ls bge : Nat) (s : State) : State :=
  let w := c.w k 0
  let d := dieOf c.ctx
  let t0 := fld (c.w k 1) 0 32
  let st := (lrBges c.lay).findIdx (· == bge)
  let toks := stripeTokens c.lay st t0 (fld (c.w k 1) 32 32)
  let rows := List.range (min 64 (paDH w))
  -- step words, then the value rows of the tokens they leave
  let ms := toks.map fun tok => (tok, s.tokMask c k ls bge tok)
  let errs := ms.flatMap fun m => m.2.2 ++ if m.2.1 then [] else s.headErrs c k ls bge m.1
  let (s, ok) := s.escalate c ls bge rows errs
  if !ok then s
  else
    let a := sget .zero (s.bge d bge).desc (paB w)
    let vals := ms.map fun m => if m.2.1 then none else some ((s.bge d bge).elem (paB w) a.af (m.1 - a.koff), s.headElems c k bge m.1)
    let blocks := groups 32 (ceilDiv vals.length 32) vals
    s.updBge d bge fun g => (List.range (paDH w)).foldl (fun g col =>
      let ro := col % 64
      let co := paAcol w + col / 64
      g.putAcc ro co (dotBlocks (g.accAt ro co)
        (blocks.map fun bl => bl.filterMap fun v => v.map fun x => x.1.mul (x.2.getD col (.fin false 0 0))))) g
def clrGroup (b : Bge) : Bge := { b with acc := [], poison := 0, nan := false, inf := false, cause := 0 }
/-- pmrd: the record of a BGE into the reserved slot of its ordinal (R33, R258). -/
def rdGroup (c : Cmd) (k : SReg) (bge : Nat) (s : State) : State :=
  match c.outBuf with
  | none => s
  | some e =>
    s.spadPut none (e / 64) (offsetBytes ((s.cbuf e).at (c.outFrom + c.bges.findIdx (· == bge)) 0)
      ((s.bge (dieOf c.ctx) bge).record bge (prElf (c.w k 0)) c.lat.fmt))
/-- Delivered slots of a buffer advance, each as it comes to stand at the write pointer (R33). -/
def State.settleOut (s : State) (e : Nat) : Nat → State
  | 0 => s
  | n + 1 =>
    match s.cmds.find? fun x => x.outBuf == some e && Instr.unit x.ins == .pm && x.st == .fired && decide (x.outDone < x.outCount) &&
        (x.outFrom + x.outDone) % (s.cbuf e).n == (s.cbuf e).wp && (x.bges[x.outDone]?.any x.started.contains) with
    | some x => ((s.advanceSlot e).setCmd { x with outDone := x.outDone + 1 }).settleOut e n
    | none => s
/-- pmst: one record at its ordinal's address, line by line. -/
def stItems (c : Cmd) (a : QReg) (k : SReg) (bge ord : Nat) : List (State → Except Hit State) :=
  let elf := prElf (c.w k 0)
  lineItems (qoff (c.lat.gq a) (ord * recBytes elf : Nat)) (recBytes elf)
    (fun s off len => .ok (s, (((s.bge (dieOf c.ctx) bge).record bge elf c.lat.fmt).drop off).take len)) c

/-! ## Key-value hand-over (R260) -/

/-- A write of a hand-over: the slot, the window offset and the bytes. -/
structure WinPart where
  ls : Nat
  off : Nat
  bytes : List Byte
/-- Its parts by window line: the line, and its bytes by offset. -/
def WinPart.lines (p : WinPart) (d : Nat) : List (Nat × List (Nat × Byte)) :=
  (lineParts p.off p.bytes).map fun x => (winLine d p.ls (128 * x.1), x.2)
/-- It needs a message across a link that is down (R198). -/
def State.winDown (s : State) (d : Nat) (p : WinPart) : Bool :=
  (p.lines d).any fun x => s.writeDown d none x.1 (s.lineTag x.1) (some x.2)
/-- Bytes at a window offset, merged as the ringmaster's write (R249). -/
def State.winWrite (s : State) (d : Nat) (p : WinPart) : State :=
  (p.lines d).foldl (fun s x => s.storeLine none none d x.1 (s.lineTag x.1) x.2) s
/-- The VA of an offset of a slot's window. -/
def State.winVA (s : State) (d ls off : Nat) : VA := qoff (lrWbase (s.layout d ls).record) (off : Int)
/-- A source row converted to FP16, with whether a clamp, a saturation or a NaN was met. -/
def kvRow (c : Cmd) (w : Word64) (bs : List Byte) : List Byte × Bool :=
  let wd := kvWidth w
  let F : Fmt := if wd = 4 then .f32 else .f16
  let rs := (elems wd (bs.length / wd) bs).map fun x => cvtToFP .f16 (fmtRnd c.lat.fmt) (fmtSat c.lat.fmt) (decodeFP F x)
  (rs.flatMap fun r => toLE 2 r.1, rs.any fun r => r.2 &&& fSF != 0 || (decodeFP .f16 r.1).isNan)
/-- One token's row of a hand-over: its source, slot, token and record, and the slots whose step words follow it. -/
structure KvPiece where
  src : VA
  ls : Nat
  tok : Nat
  lay : BitVec 512
  steps : List (Nat × BitVec 512)
/-- The pieces of a hand-over on a BGE. kvapp's value row comes after its key row and before both step words. -/
def Cmd.kvPieces (c : Cmd) (b : Nat) : List KvPiece :=
  match c.ins with
  | .kvxfer a k ls =>
    let t0 := fld (c.w k 1) 0 32
    (stripeTokens c.lay ((lrBges c.lay).findIdx (· == b)) t0 (fld (c.w k 1) 32 32)).map fun t =>
      ⟨qoff (c.lat.gq a) ((t - t0) * fld (c.w k 2) 0 32 : Nat), ls.toNat, t, c.lay, [(ls.toNat, c.lay)]⟩
  | .kvapp a k ls =>
    let t := fld (c.w k 1) 0 32
    (if lrBgeOf c.lay t = b then [⟨c.lat.gq a, ls.toNat, t, c.lay, []⟩] else []) ++
    (if lrBgeOf c.lay2 t = b then [⟨qoff (c.lat.gq a) (fld (c.w k 2) 0 32 : Nat), ls.toNat + 1, t, c.lay2,
      [(ls.toNat, c.lay), (ls.toNat + 1, c.lay2)]⟩] else [])
  | _ => []
/-- The writes of a piece, in order: the row, then the step words (R260). -/
def KvPiece.writes (x : KvPiece) (row : List Byte) (step : Nat) : List WinPart :=
  ⟨x.ls, x.tok * lrRW x.lay, row⟩ :: x.steps.map fun y => ⟨y.1, lrRows y.2 * lrRW y.2 + 4 * x.tok, toLE 4 step⟩
/-- The control register and STEP of a hand-over. -/
def Cmd.kvReg (c : Cmd) : SReg := match c.ins with | .kvxfer _ k _ | .kvapp _ k _ => k | _ => 0
def Cmd.kvStep (c : Cmd) : Nat := match c.ins with
  | .kvxfer _ k _ => fld (c.w k 2) 32 32
  | .kvapp _ k _ => fld (c.w k 1) 32 32
  | _ => 0
/-- One record for a command that has clamped, saturated or met a NaN (R260, R262). -/
def State.kvNote (s : State) (c : Cmd) (ls : Nat) (hit : Bool) : State :=
  match s.cmd c.id with
  | some x => if hit && x.data.isEmpty then (s.setCmd { x with data := [1] }).postPm c ls ⟨196, 0, 0, 0, 0⟩ none else s
  | none => s
/-- The pieces of a BGE from its progress: the pieces done, and the source bytes of the piece in hand. -/
def runKv (c : Cmd) : List KvPiece → Nat → List Byte → State → State × Nat × List Byte × Option Hit
  | [], p, got, s => (s, p, got, none)
  | x :: t, p, got, s =>
    let w := c.w c.kvReg 0
    match readOn c x.src (segOffs x.src (lrCols x.lay * kvWidth w)) s got with
    | (s, got, some h) => (s, p, got, some h)
    | (s, bs, none) =>
      let row := kvRow c w bs
      let d := dieOf c.ctx
      let parts := x.writes row.1 c.kvStep
      match parts.find? (s.winDown d) with
      | some y => (s, p, bs, some ⟨256, s.winVA d y.ls y.off, .write, []⟩)
      | none => runKv c t (p + 1) [] ((parts.foldl (fun s y => s.winWrite d y) s).kvNote c x.ls row.2)
def kvGroup (c : Cmd) (b : Nat) (s : State) : State × Option Hit :=
  match runKv c ((c.kvPieces b).drop (sget 0 c.parts b)) (sget 0 c.parts b) (sget [] c.got b) s with
  | (s, p, got, h) =>
    (match s.cmd c.id with
      | some x => s.setCmd { x with parts := sput 0 x.parts b p, got := sput [] x.got b got }
      | none => s, h)

/-! ## Operand rows (R263) -/

/-- The DRAM rows of bytes [off, off + n) of a BGE's stripe, but for bad units, which a group does not read. -/
def State.unitRows (s : State) (d : Nat) (r : BitVec 512) (bad : Bool) (bge off n : Nat) : List (Nat × Nat) :=
  if bad || n == 0 then []
  else (List.range ((off + n - 1) / 2048 - off / 2048 + 1)).filterMap fun i =>
    let p := lrPlace r (2048 * (off / 2048 + i))
    if s.badUnit d bge p.1 p.2.1 then none else some (bge, rowId p.1 p.2.1)
/-- What a pmatk or pmatv reads of its stripe: step words, and the rows of the tokens that they leave. -/
def State.attReads (s : State) (c : Cmd) (k : SReg) (ls bge : Nat) : List (Nat × Nat) :=
  (stripeTokens c.lay ((lrBges c.lay).findIdx (· == bge)) (fld (c.w k 1) 0 32) (fld (c.w k 1) 32 32)).flatMap fun tok =>
    (if paStep (c.w k 0) then [(lrStep c.lay (lrLocal c.lay tok), 4)] else []) ++
    (if (s.tokMask c k ls bge tok).1 then []
      else [(lrData c.lay (lrLocal c.lay tok) 0 + 2 * paHoff (c.w k 2), 2 * paDH (c.w k 0))])
/-- The operand rows that a command's group reads on a BGE. -/
def State.groupRows (s : State) (c : Cmd) (b : Nat) : List (Nat × Nat) :=
  let d := dieOf c.ctx
  let rows (ls : Nat) (xs : List (Nat × Nat)) : List (Nat × Nat) :=
    (xs.flatMap fun x => s.unitRows d c.lay (s.layout d ls).bad b x.1 x.2).dedup
  match c.ins with
  | .pmmac t k ls =>
    let q := macSpan (s.bge d b) c.lay (pmSlots (c.w k 0))
    rows ls.toNat ((macRows c k b (s.bge d b)).flatMap fun i =>
      macReads c.lay (pmPlanes t c.lay) (fld (c.w k 1) 0 32 + i) q.1 q.2)
  | .pmatk k ls | .pmatv k ls => rows ls.toNat (s.attReads c k ls.toNat b)
  | _ => []
/-- The rows of the step words that a pmatk or pmatv reads on a BGE: which token rows it reads depends on them (R256). -/
def State.stepRows (s : State) (c : Cmd) (b : Nat) : List (Nat × Nat) :=
  match c.ins with
  | .pmatk k ls | .pmatv k ls =>
    if paStep (c.w k 0) then
      ((stripeTokens c.lay ((lrBges c.lay).findIdx (· == b)) (fld (c.w k 1) 0 32) (fld (c.w k 1) 32 32)).flatMap fun tok =>
        s.unitRows (dieOf c.ctx) c.lay (s.layout (dieOf c.ctx) ls.toNat).bad b (lrStep c.lay (lrLocal c.lay tok)) 4).dedup
    else []
  | _ => []
/-- A write that waits lies on operand rows of the group, and is not one that the group precedes: the group reads it (R263). -/
def State.heldOn (s : State) (c : Cmd) (rows : List (Nat × Nat)) : Bool :=
  s.heldWrites.any fun h => !h.groups.contains c.id && (h.keys s).any fun k =>
    decide (k < Config.hostKey) && k / 2 ^ 48 == dieOf c.ctx &&
      rows.contains (paBge (k % 2 ^ 48), rowId (paBank (k % 2 ^ 48)) (paRow (k % 2 ^ 48)))
/-- A write that waits lies on a line or a location that a hand-over's group writes, and is not one that the group precedes: the group's
writes come after it (R263). -/
def State.heldUnder (s : State) (c : Cmd) (b : Nat) : Bool :=
  (c.kvPieces b).any fun x => (x.writes (List.replicate (2 * lrCols x.lay) 0) c.kvStep).any fun p =>
    (p.lines (dieOf c.ctx)).any fun y => s.heldWrites.any fun h =>
      !h.groups.contains c.id && h.before_ s y.1 (s.keysOf y.1 (y.2.map (·.1)))
/-- The window lines of rows that a copy holds exclusively. -/
def State.ownedOn (s : State) (d : Nat) (rows : List (Nat × Nat)) : List Nat :=
  let lines := (s.cores.flatMap fun c => (c.2.l1.filter (·.st != .S)).map (·.line)) ++
    (s.dir.flatMap (·.2)).filterMap fun e => if e.owned then some e.line else none
  lines.dedup.filter fun l => isWin l && lineDie l == d && (s.keysOf l (List.range 128)).any fun k =>
    rows.contains (paBge (k % 2 ^ 48), rowId (paBank (k % 2 ^ 48)) (paRow (k % 2 ^ 48)))
/-- The first of them whose owner lies beyond a link that is down (R198). -/
def State.settleDown (s : State) (d : Nat) (rows : List (Nat × Nat)) : Option Nat :=
  (s.ownedOn d rows).find? fun l => (s.dirFind l).any fun e => e.owned && s.linkIsDown d e.owner
/-- What the operand rows' window lines hold in caches returns to the devices before the group reads them: a write that has
performed at an owner's copy has performed for the group (R203, R213, log 52). -/
def State.settleRows (s : State) (d : Nat) (rows : List (Nat × Nat)) : State :=
  (s.ownedOn d rows).foldl
    (fun s l => match (s.recallHome l).dirFind l with
      | some e => ((s.recallHome l).recallOwner e).1
      | none => s.recallHome l) s
/-- The operand rows of a group as the settled step words give them. -/
def State.settledRows (s : State) (c : Cmd) (b : Nat) : List (Nat × Nat) :=
  (s.settleRows (dieOf c.ctx) (s.stepRows c b)).groupRows c b

/-! ## Pausing and abandoning (R230, R317) -/

/-- Rows of tiles that a command was writing take ABORT. -/
def Cmd.abortRows (c : Cmd) : Nat :=
  match c.ins with
  | .attn _ _ _ k _ _ => atQN (c.w k 0)
  | .tld _ _ k | .tldsp _ _ k => mvM (c.w k 0)
  | i => match mmForm i with | some m => mmM (c.w m.c 0) | none => 0
/-- Output slots that a command has filled and advanced already. -/
def State.advanced (s : State) (c : Cmd) : Nat :=
  match c.ins, c.outBuf with
  | .copyc .., some e => c.prog / ((s.cbuf e).size / 128)
  | .bgath .., some e => c.prog / ((s.cbuf e).size / 128)
  | _, _ => 0
/-- The tiles a command writes. -/
def Cmd.written (c : Cmd) : List Nat := match c.ins with | .mmas .. => c.tiles.take 1 | _ => c.tiles
/-- The rows that it was writing have ABORT set (R230). -/
def State.markAbort (s : State) (ts : List Nat) (c : Cmd) : State :=
  ts.foldl (fun s t => (List.range c.abortRows).foldl (fun (s : State) r => s.updTile t fun x => x.orFlag r rfABORT) s) s
/-- A command that cannot go on retires at once, its fault owed to its context (R230, R317): every group counts as done. -/
def State.abandon (s : State) (c : Cmd) (h : Hit) : State :=
  let s := s.markAbort c.written c
  let s := s.setCmd { c with st := .fired, abandoned := true, pausedOn := none, ranges := [], started := c.bges, done := c.bges,
                             outDone := c.outCount, rows := [] }
  let s := match c.outBuf with
    | some e => s.updCbuf e fun b => { b with reserved := b.reserved - (c.outCount - s.advanced c) }
    | none => s
  let s := s.updCtx c.ctx fun x => { x with engFaults := x.engFaults ++ [(h.cause, h.va)] }
  match (s.ctx c.ctx).st, c.launch with
  | .retiring, some l => s.noteStatus l c.ctx h.cause
  | _, _ => s
/-- The accesses of which the walk may have reached a leaf: those made, and the one that met the fault where its address could be
translated. -/
def Hit.accesses (h : Hit) : List (VA × Acc) :=
  (h.walked ++ if h.cause = 64 ∨ h.cause = 65 ∨ h.cause = 66 ∨ h.cause = 75 then [] else [(h.va, h.acc)]).filter fun x => !isSpad x.1
/-- They have left their marks, where the home of the address can be reached (R310). -/
def State.hitMarks (s : State) (d : Nat) (asid : BitVec 16) (h : Hit) : State :=
  h.accesses.foldl (fun s x => s.translateFor d asid x.1 x.2) s
/-- A command meets a fault: it pauses and the fault goes to the batcher, or, for a cause that no driver answers, it is
abandoned (R230, R317). -/
def State.engHit (s : State) (c : Cmd) (h : Hit) : State :=
  let s := s.hitMarks (dieOf c.ctx) c.asid h
  let bad := s.newlyBad c.asid h.va h.acc h.cause
  let s := (s.noteFault (some c.ctx) c.cid c.asid h.va h.acc h.cause).cmdNotes c 203 bad.length
  if isF h.cause then
    let f : FaultRec := ⟨h.cause, c.asid, h.va, h.acc.bits, true⟩
    (s.setCmd { c with st := .paused, pausedOn := some f }).batchAdd f
  else s.abandon c h

/-! ## Events -/

/-- A group may start on a BGE (R253), but behind a write of the rows it reads, or of what it writes, that waits (R263); kvapp's value row
follows its key row (R260). -/
def State.groupReady (s : State) (c : Cmd) (b : Nat) : Bool :=
  c.st == .fired && !c.abandoned && c.bges.contains b && !c.started.contains b && s.bgeFree c b &&
  (s.heldWrites.isEmpty || !(s.heldOn c (s.settledRows c b) || s.heldUnder c b)) &&
  match c.ins with
  | .kvapp .. => (c.bges.takeWhile (· != b)).all c.started.contains
  | _ => true
/-- The group's work on a BGE, with the fault that stops it. -/
def State.groupWork (s : State) (c : Cmd) (b : Nat) : State × Option Hit :=
  let d := dieOf c.ctx
  match c.ins with
  | .pmvec _ k v => (s.updBge d b (pvGroup c k v.toNat), none)
  | .pmmac t k ls => (macGroup c t k ls.toNat b s, none)
  | .pmatk k ls => (atkGroup c k ls.toNat b s, none)
  | .pmatv k ls => (atvGroup c k ls.toNat b s, none)
  | .pmclr _ _ => (s.updBge d b clrGroup, none)
  | .pmrd _ k _ => (rdGroup c k b s, none)
  | .pmst a k _ =>
    match runItems ((stItems c a k b (c.bges.findIdx (· == b))).drop (sget 0 c.parts b)) (sget 0 c.parts b) s with
    | (s, p, h) => (match s.cmd c.id with | some x => s.setCmd { x with parts := sput 0 x.parts b p } | none => s, h)
  | .kvxfer .. | .kvapp .. => kvGroup c b s
  | _ => (s, none)
/-- A fault that stops a group: of an operand, or, for a hand-over's write through the window, which no translation precedes, its
end (R198, R230). -/
def State.groupHit (s : State) (c : Cmd) (b : Nat) (h : Hit) : State :=
  if !(c.kvPieces b).isEmpty && h.acc == .write then s.abandon c h else s.engHit c h
/-- The group's work is done: its rows are held, and its slots advance. -/
def State.groupBegun (s : State) (x : Cmd) (b : Nat) (rows : List (Nat × Nat)) : State :=
  let x := { x with started := x.started ++ [b], rows := x.rows ++ rows }
  let s := s.setCmd { x with ranges := if x.bges.all x.started.contains then [] else x.ranges }
  match x.outBuf with | some e => s.settleOut e 256 | none => s
/-- The operand rows settle and are held, those of the step words first, and the work is done on what they hold now. An owner beyond a
link that is down ends the command (R198). -/
def State.groupStart (s : State) (c : Cmd) (b : Nat) : State :=
  let d := dieOf c.ctx
  let gone (s : State) (l : Nat) : State := s.abandon c ⟨256, s.winVA d (winSlot l) (winOff l), .read, []⟩
  match s.settleDown d (s.stepRows c b) with
  | some l => gone s l
  | none =>
    let rows := s.settledRows c b
    let s := s.settleRows d (s.stepRows c b)
    match s.settleDown d rows with
    | some l => gone s l
    | none => match (s.settleRows d rows).groupWork c b with
      | (s, h) => match s.cmd c.id, h with
        | some x, some h => s.groupHit x b h
        | some x, none => s.groupBegun x b rows
        | none, _ => s
/-- GROUP_START. -/
def execGroupStart (id bge : Nat) (s : State) : Out :=
  if 128 ≤ bge then .fault .noSuchParty
  else match s.cmd id with
    | some c => .next (if s.groupReady c bge then (s.bump 14 c.ctx 1).groupStart c bge else s)
    | none => .next s
/-- A group completes on a BGE once its step words are written (R260). -/
def Cmd.groupEnds (c : Cmd) (b : Nat) : Bool :=
  c.started.contains b && !c.done.contains b && match c.ins with | .kvapp .. => c.bges.all c.started.contains | _ => true
/-- GROUP_COMPLETE: the operand rows are held no more; what waits on them performs after it (WRITE_COMPLETION). -/
def State.groupComplete (s : State) (c : Cmd) (b : Nat) : State :=
  s.setCmd { c with done := c.done ++ [b], rows := c.rows.filter fun x => x.1 != b }
def execGroupComplete (id bge : Nat) (s : State) : Out :=
  if 128 ≤ bge then .fault .noSuchParty
  else match s.cmd id with
    | some c => .next (if c.groupEnds bge then s.groupComplete c bge else s)
    | none => .next s
/-- The group in flight of a command holds a bank of a BGE: it reads or writes a row there. -/
def Cmd.holdsBank (c : Cmd) (bge bank : Nat) : Bool :=
  c.started.contains bge && !c.done.contains bge &&
  (c.rows.any (fun x => x.1 == bge && x.2 % 4 == bank) || (c.kvPieces bge).any fun x =>
    let lo := lrData x.lay (lrLocal x.lay x.tok) 0
    ((List.range ((lo % 2048 + 2 * lrCols x.lay - 1) / 2048 + 1)).any fun i => (lrPlace x.lay (lo + 2048 * i)).1 == bank) ||
      (lrPlace x.lay (lrStep x.lay (lrLocal x.lay x.tok))).1 == bank)
/-- A refresh of a bank is postponed while a group holds it, at most eight times; then it is made and the group goes on (R264). -/
def execRefresh (die bge bank : Nat) (s : State) : Out :=
  if 4 ≤ die ∨ 128 ≤ bge ∨ 4 ≤ bank then .fault .noSuchParty
  else
    let busy := s.cmds.any fun c => dieOf c.ctx == die && Instr.unit c.ins == .pm && c.holdsBank bge bank
    .next (s.updBge die bge fun b =>
      let n := sget 0 b.postponed bank
      { b with postponed := sput 0 b.postponed bank (if busy && decide (n < 8) then n + 1 else 0) })

end Sys2Proof.Machine
end

