-- ==== Sys2Proof/Machine/ResumeTree.lean ====
section
/-! DEFINITION. The resume tree engine (R268 to R287): nodes and buckets, the commands at issue and their one step on the
tables. -/

namespace Sys2Proof.Machine

/-! ## Hash, nodes, buckets (R268 to R272) -/

def roll (h : Word64) (t : BitVec 32) : Word64 := (h ^^^ t.setWidth 64) * 0x9E3779B97F4A7C15
def rollAll (h : Word64) (ts : List (BitVec 32)) : Word64 := ts.foldl roll h

def RtNode.hash (x : RtNode) : Word64 := x.hdr.extractLsb' 0 64
def RtNode.parent (x : RtNode) : Nat := fld x.hdr 64 20
def RtNode.proot (x : RtNode) : Bool := x.hdr.getLsbD 84
def RtNode.valid (x : RtNode) : Bool := x.hdr.getLsbD 85
def RtNode.tier (x : RtNode) : Nat := fld x.hdr 86 2
def RtNode.pin (x : RtNode) : Bool := x.hdr.getLsbD 88
def RtNode.busy (x : RtNode) : Bool := x.hdr.getLsbD 89
def RtNode.ref (x : RtNode) : Nat := fld x.hdr 96 24
def RtNode.snap (x : RtNode) : Nat := fld x.hdr 128 64
def RtNode.stamp (x : RtNode) : BitVec 32 := x.hdr.extractLsb' 192 32
def RtNode.children (x : RtNode) : Nat := fld x.hdr 224 32
def RtNode.set (x : RtNode) (lo w v : Nat) : RtNode := { x with hdr := setFld x.hdr lo w v }
def RtNode.setTier (x : RtNode) (v : Nat) : RtNode := x.set 86 2 v
def RtNode.setPin (x : RtNode) (v : Bool) : RtNode := x.set 88 1 (boolN v)
def RtNode.setBusy (x : RtNode) (v : Bool) : RtNode := x.set 89 1 (boolN v)
def RtNode.setRef (x : RtNode) (v : Nat) : RtNode := x.set 96 24 v
def RtNode.setStamp (x : RtNode) (v : BitVec 32) : RtNode := x.set 192 32 v.toNat
def RtNode.setChildren (x : RtNode) (v : Nat) : RtNode := x.set 224 32 v
def maxRef : Nat := 16777215

def DieSt.rt (k : DieSt) (n : Nat) : RtNode := sget .zero k.rtNodes n
def DieSt.setRt (k : DieSt) (n : Nat) (x : RtNode) : DieSt := { k with rtNodes := sput .zero k.rtNodes n x }
def DieSt.updRt (k : DieSt) (n : Nat) (f : RtNode → RtNode) : DieSt := k.setRt n (f (k.rt n))
/-- The bucket of a hash, and its candidate words. -/
def bucketOf (h : Word64) : Nat := fld h 45 19
def DieSt.slotWord (k : DieSt) (b j : Nat) : Nat := fld (sget 0 k.rtBuckets b) (32 * j) 32
/-- Valid candidates of a bucket, slot 0 first. -/
def DieSt.candidates (k : DieSt) (b : Nat) : List Nat :=
  (List.range 4).filterMap fun j => if bit (k.slotWord b j) 31 then some (k.slotWord b j % 2 ^ 20) else none
def DieSt.setSlot (k : DieSt) (b j w : Nat) : DieSt :=
  { k with rtBuckets := sput 0 k.rtBuckets b (setFld (sget 0 k.rtBuckets b) (32 * j) 32 w) }
/-- The lowest-numbered slot of a bucket that holds no candidate. -/
def DieSt.openSlot (k : DieSt) (b : Nat) : Option Nat := (List.range 4).find? fun j => !bit (k.slotWord b j) 31
/-- The lowest-numbered free node, at least n, of nodes listed in rising order. -/
def freeNode : Nat → List (Nat × RtNode) → Nat
  | n, [] => n
  | n, e :: t => if e.1 < n then freeNode n t else if e.1 = n ∧ e.2.valid then freeNode (n + 1) t else n
def parentIs (x : RtNode) (cur : Option Nat) : Bool :=
  match cur with
  | none => x.proot
  | some p => !x.proot && x.parent == p
/-- Whether a candidate is the chunk sought: hash, parent and tokens. -/
def DieSt.isChunk (k : DieSt) (n : Nat) (h : Word64) (cur : Option Nat) (tok : BitVec 2048) : Bool :=
  (k.rt n).valid && (k.rt n).hash == h && parentIs (k.rt n) cur && (k.rt n).tok == tok
/-- Candidates of equal hash that are not the chunk sought. -/
def DieSt.isCollision (k : DieSt) (n : Nat) (h : Word64) (cur : Option Nat) (tok : BitVec 2048) : Bool :=
  (k.rt n).valid && (k.rt n).hash == h && !(parentIs (k.rt n) cur && (k.rt n).tok == tok)

/-! ## Results (R275) -/

/-- A result word; the node's state is taken after the command. -/
def rtWord (status : Nat) (node : Option (Nat × RtNode)) (root : Bool) (coll val : Nat) : Word64 :=
  BitVec.ofNat 64 (status + 2 ^ 24 * boolN root + 2 ^ 29 * min coll 7 + 2 ^ 32 * val +
    match node with
    | some (n, x) => 2 ^ 4 * n + 2 ^ 25 * x.tier + 2 ^ 27 * boolN x.busy + 2 ^ 28 * boolN x.pin
    | none => 0)
/-- NO_NODE from rtref, rtrel and rtpin names the node. -/
def rtNoNode (n : Nat) : Word64 := BitVec.ofNat 64 (4 + 2 ^ 4 * n)

/-- What one command does to the tables: its result, the tables after, and the table entries it read (R275 status 7). -/
structure RtOut where
  res : Word64
  die : DieSt
  reads : List Nat

/-! ## The commands on the tables (R276 to R282) -/

/-- Bucket, headers, and the token entries of candidates of equal hash. -/
def DieSt.readsOf (k : DieSt) (b : Nat) (h : Word64) (cs : List Nat) : List Nat :=
  (2 ^ 21 + b) :: cs ++ (cs.filter fun n => (k.rt n).valid && (k.rt n).hash == h).map (2 ^ 20 + ·)
/-- The search of R277 over the chunks: nodes matched, deepest first, with collisions and reads. -/
def DieSt.search (k : DieSt) : List (BitVec 2048 × List (BitVec 32)) → Option Nat → Word64 → List Nat × Nat × List Nat →
    List Nat × Nat × List Nat
  | [], _, _, acc => acc
  | (tok, ts) :: rest, cur, h, (path, coll, reads) =>
    let h := rollAll h ts
    let cs := k.candidates (bucketOf h)
    let before := cs.takeWhile fun n => !k.isChunk n h cur tok
    let coll := coll + (before.filter fun n => k.isCollision n h cur tok).length
    match cs.find? fun n => k.isChunk n h cur tok with
    | none => (path, coll, k.readsOf (bucketOf h) h cs ++ reads)
    | some n => k.search rest (some n) h (n :: path, coll, k.readsOf (bucketOf h) h (before ++ [n]) ++ reads)
def rtFind (k : DieSt) (seed : Word64) (chunks : List (BitVec 2048 × List (BitVec 32))) : RtOut :=
  let (path, coll, reads) := k.search chunks none seed ([], 0, [])
  let k := { path.foldl (fun k n => k.updRt n fun x => x.setStamp k.rtNow) k with rtColl := k.rtColl + BitVec.ofNat 64 coll }
  match path with
  | [] => ⟨rtWord 0 none true coll 0, k, reads⟩
  | n :: _ =>
    if (k.rt n).ref = maxRef then ⟨rtWord 5 (some (n, k.rt n)) false coll path.length, k, reads⟩
    else
      let k := k.updRt n fun x => x.setRef (x.ref + 1)
      ⟨rtWord 0 (some (n, k.rt n)) false coll path.length, k, reads⟩
/-- The header of a node deposited (R278). -/
def rtHeader (h : Word64) (p : Option Nat) (snap : Word64) (now : BitVec 32) : BitVec 256 :=
  BitVec.ofNat 256 (h.toNat + 2 ^ 64 * p.getD 0 + 2 ^ 84 * boolN p.isNone + 2 ^ 85 + 2 ^ 96 + 2 ^ 128 * snap.toNat + 2 ^ 192 * now.toNat)
def rtDep (k : DieSt) (b seed snap : Word64) (move : Bool) (tok : BitVec 2048) (ts : List (BitVec 32)) : RtOut :=
  let p : Option Nat := if b.getLsbD 63 then none else some (fld b 0 20)
  let gone := match p with | some n => !(k.rt n).valid | none => false
  if gone then ⟨rtWord 4 none false 0 0, k, p.toList⟩
  else
    let h := rollAll (match p with | some n => (k.rt n).hash | none => seed) ts
    let cs := k.candidates (bucketOf h)
    let coll := (cs.filter fun n => k.isCollision n h p tok).length
    let reads := p.toList ++ k.readsOf (bucketOf h) h cs
    let k := { k with rtColl := k.rtColl + BitVec.ofNat 64 coll }
    -- with `move` the parent's reference passes to the child
    let moved (k : DieSt) : DieSt := match p with
      | some n => if move && (k.rt n).ref != 0 then k.updRt n fun x => x.setRef (x.ref - 1) else k
      | none => k
    match cs.find? fun n => k.isChunk n h p tok with
    | some n =>
      if (k.rt n).ref = maxRef then ⟨rtWord 5 (some (n, k.rt n)) false coll 0, k, reads⟩
      else
        let k := moved (k.updRt n fun x => (x.setRef (x.ref + 1)).setStamp k.rtNow)
        ⟨rtWord 1 (some (n, k.rt n)) false coll 0, k, reads⟩
    | none =>
      match k.openSlot (bucketOf h) with
      | none => ⟨rtWord 2 none false coll 0, k, reads⟩
      | some j =>
        let n := freeNode 0 k.rtNodes
        if 2 ^ 20 ≤ n then ⟨rtWord 3 none false coll 0, k, reads⟩
        else
          let k := (k.setRt n ⟨rtHeader h p snap k.rtNow, tok⟩).setSlot (bucketOf h) j (n + 2 ^ 31)
          let k := match p with | some q => k.updRt q fun x => x.setChildren (x.children + 1) | none => k
          let k := moved k
          ⟨rtWord 0 (some (n, k.rt n)) false coll 0, k, reads⟩
/-- rtref and rtrel; a REF at its limit changes nothing. -/
def rtCount (k : DieSt) (n : Nat) (up : Bool) : RtOut :=
  let x := k.rt n
  if !x.valid then ⟨rtNoNode n, k, [n]⟩
  else if x.ref = (if up then maxRef else 0) then ⟨rtWord 5 (some (n, x)) false 0 x.ref, k, [n]⟩
  else
    let y := (x.setRef (if up then x.ref + 1 else x.ref - 1)).setStamp k.rtNow
    ⟨rtWord 0 (some (n, y)) false 0 y.ref, k.setRt n y, [n]⟩
/-- rtpin's table of operations (R280): the node after, and whether the operation applied. -/
def pinOp (op : Nat) (x : RtNode) : RtNode × Bool :=
  match op with
  | 0 => (x.setPin true, true)
  | 1 => (x.setPin false, true)
  | 2 => if x.busy && x.ref == 0 && !x.pin then ((x.setTier (x.tier + 1)).setBusy false, true) else (x.setBusy false, false)
  | 3 => (x.setBusy false, x.busy)
  | _ => if x.busy then (x, false) else (x.setTier 0, true)
def rtPin (k : DieSt) (n op : Nat) : RtOut :=
  let x := k.rt n
  if !x.valid then ⟨rtNoNode n, k, [n]⟩
  else
    let r := pinOp op x
    ⟨rtWord (if r.2 then 0 else 6) (some (n, r.1)) false 0 0, k.setRt n r.1, [n]⟩
/-- Nodes eligible for eviction at a tier, oldest first, lower number first among equals (R281). -/
def DieSt.eligible (k : DieSt) (t : Nat) : List (Nat × RtNode) :=
  let age (x : RtNode) : Nat := (k.rtNow - x.stamp).toNat
  sortBy (fun a b => decide (age b.2 < age a.2) || (age a.2 == age b.2 && decide (a.1 ≤ b.1)))
    (k.rtNodes.filter fun e => e.2.valid && e.2.tier == t && e.2.ref == 0 && !e.2.pin && !e.2.busy && e.2.children == 0)
/-- A node leaves the tree: its bucket slot, its VALID, its parent's count. -/
def DieSt.remove (k : DieSt) (n : Nat) : DieSt :=
  let x := k.rt n
  let b := bucketOf x.hash
  let k := (List.range 4).foldl (fun k j => if k.slotWord b j = n + 2 ^ 31 then k.setSlot b j 0 else k) k
  let k := k.updRt n fun x => x.set 85 1 0
  if x.proot then k else k.updRt x.parent fun p => p.setChildren (p.children - 1)
/-- The victim record. -/
def victimRecord (n t : Nat) (x : RtNode) : Nat := n + 2 ^ 20 * t + 2 ^ 22 * boolN (t == 2) + 2 ^ 64 * x.snap
def rtEvict (k : DieSt) (lim t : Nat) : RtOut × List Nat :=
  let vs := (k.eligible t).take lim
  let k' := vs.foldl (fun k v => if t = 2 then k.remove v.1 else k.updRt v.1 fun x => x.setBusy true) k
  (⟨rtWord 0 none false 0 vs.length, k', k.rtNodes.map (·.1) ++ if t = 2 then vs.map (2 ^ 21 + bucketOf ·.2.hash) else []⟩,
   vs.map fun v => victimRecord v.1 t v.2)
def rtRead (k : DieSt) (n w : Nat) : RtOut :=
  if w < 4 then ⟨(k.rt n).hdr.extractLsb' (64 * w) 64, k, [n]⟩
  else ⟨(k.rt n).tok.extractLsb' (64 * (w - 4)) 64, k, [2 ^ 20 + n]⟩

/-! ## Issue (R274) -/

/-- The token operand: n tokens at a 4-byte-aligned address. -/
def State.tokCheck (s : State) (a : QReg) (n : Nat) : Verdict := operandCheck s.cur (s.rQ a) 4 (4 * n)
def State.rtQueueCheck (s : State) (ranges : Nat) : Verdict := (s.rangesFree ranges).andThen (s.queueRoom .rt)
def State.rtCmd (s : State) (i : Instr) : Cmd := s.newCmd i noCid []
def nodeOk (x : Word64) : Bool := fld x 20 44 == 0
def checkRthash (a : QReg) (b : SReg) (s : State) : Verdict :=
  let n := (s.rS b).toNat
  let va := s.rQ a
  (require (decide (n ≤ 65536)) 16).andThen
    (if n = 0 then
      (if isSpad va && vaHome va != dieOf s.cur then .trap 66 (tvalOf va)
       else if !isSpad va && !homeOk va then .trap 64 (tvalOf va)
       else if va.toNat % 4 ≠ 0 then .trap 65 (tvalOf va) else s.queueRoom .rt)
     else (s.tokCheck a n).andThen (s.rtQueueCheck 1))
def execRthash (d : SReg) (a : QReg) (b c : SReg) (s : State) : Out :=
  s.resolve (checkRthash a b s) fun s =>
    let n := (s.rS b).toNat
    s.enqueue { s.rtCmd (.rthash d a b c) with ranges := if n = 0 then [] else [rangeOf (s.rQ a) (4 * n)] }
def checkRtfind (a : QReg) (b : SReg) (s : State) : Verdict :=
  let n := (s.rS b).toNat
  (require (decide (1 ≤ n) && decide (n ≤ 1024)) 16).andThen ((s.tokCheck a (64 * n)).andThen (s.rtQueueCheck 1))
def execRtfind (d : SReg) (a : QReg) (b c : SReg) (s : State) : Out :=
  s.resolve (checkRtfind a b s) fun s =>
    s.enqueue { s.rtCmd (.rtfind d a b c) with ranges := [rangeOf (s.rQ a) (256 * (s.rS b).toNat)] }
def checkRtdep (a : QReg) (b c : SReg) (s : State) : Verdict :=
  let p := s.rS b
  (require (c != 31 && (p == 0x8000000000000000 || nodeOk p)) 16).andThen ((s.tokCheck a 64).andThen (s.rtQueueCheck 1))
def execRtdep (d : SReg) (a : QReg) (b c : SReg) (move : Bool) (s : State) : Out :=
  s.resolve (checkRtdep a b c s) fun s =>
    s.enqueue { s.rtCmd (.rtdep d a b c move) with ranges := [rangeOf (s.rQ a) 256] }
def checkRtnode (a : SReg) (s : State) : Verdict := (require (nodeOk (s.rS a)) 16).andThen (s.queueRoom .rt)
def execRtref (d a : SReg) (s : State) : Out := s.resolve (checkRtnode a s) fun s => s.enqueue (s.rtCmd (.rtref d a))
def execRtrel (d a : SReg) (s : State) : Out := s.resolve (checkRtnode a s) fun s => s.enqueue (s.rtCmd (.rtrel d a))
/-- op 5 to 31 is a reserved field (R280). -/
def checkRtpin (a : SReg) (op : BitVec 5) (s : State) : Verdict :=
  (require (decide (op.toNat ≤ 4)) 3).andThen (checkRtnode a s)
def execRtpin (d a : SReg) (op : BitVec 5) (s : State) : Out :=
  s.resolve (checkRtpin a op s) fun s => s.enqueue (s.rtCmd (.rtpin d a op))
def checkRtevict (c : CReg) (a b : SReg) (s : State) : Verdict :=
  let n := (s.rS a).toNat
  (require (decide (1 ≤ n) && decide (n ≤ 64) && decide ((s.rS b).toNat ≤ 2)) 16).andThen
    ((s.bufCheck c true 0x14 n).andThen
      ((require ((s.cbuf ((s.bound s.cur c).getD 0)).size == 128) 129).andThen (s.queueRoom .rt)))
def execRtevict (d : SReg) (c : CReg) (a b : SReg) (s : State) : Out :=
  s.resolve (checkRtevict c a b s) fun s =>
    s.enqueue { s.rtCmd (.rtevict d c a b) with outBuf := s.bound s.cur c, outCount := (s.rS a).toNat }
def checkRtrd (a b : SReg) (s : State) : Verdict :=
  (require (nodeOk (s.rS a) && decide ((s.rS b).toNat ≤ 35)) 16).andThen (s.queueRoom .rt)
def execRtrd (d a b : SReg) (s : State) : Out := s.resolve (checkRtrd a b s) fun s => s.enqueue (s.rtCmd (.rtrd d a b))

/-! ## Running (R273, R275) -/

/-- Tokens a command reads when it fires. -/
def Cmd.tokens (c : Cmd) : Option (QReg × Nat) :=
  match c.ins with
  | .rthash _ a b _ => some (a, (c.lat.gs b).toNat)
  | .rtfind _ a b _ => some (a, 64 * (c.lat.gs b).toNat)
  | .rtdep _ a _ _ _ => some (a, 64)
  | _ => none
def tokensOf (bs : List Byte) : List (BitVec 32) := (elems 4 (bs.length / 4) bs).map (BitVec.ofNat 32)
/-- The chunks of a token string. -/
def chunksOf (bs : List Byte) : List (BitVec 2048 × List (BitVec 32)) :=
  (groups 256 (bs.length / 256) bs).map fun g => (BitVec.ofNat 2048 (leNat g), tokensOf g)
/-- The step of a command on its die's tables, with the victim records of rtevict. -/
def rtStep (c : Cmd) (bs : List Byte) (k : DieSt) : RtOut × List Nat :=
  match c.ins with
  | .rthash _ _ _ r => (⟨rollAll (c.lat.gs r) (tokensOf bs), k, []⟩, [])
  | .rtfind _ _ _ r => (rtFind k (c.lat.gs r) (chunksOf bs), [])
  | .rtdep _ _ b r move => (rtDep k (c.lat.gs b) (c.w r 1) (c.lat.gs r) move (BitVec.ofNat 2048 (leNat bs)) (tokensOf bs), [])
  | .rtref _ a => (rtCount k (c.lat.gs a).toNat true, [])
  | .rtrel _ a => (rtCount k (c.lat.gs a).toNat false, [])
  | .rtpin _ a op => (rtPin k (c.lat.gs a).toNat op.toNat, [])
  | .rtevict _ _ a b => rtEvict k (c.lat.gs a).toNat (c.lat.gs b).toNat
  | .rtrd _ a b => (rtRead k (c.lat.gs a).toNat (c.lat.gs b).toNat, [])
  | _ => (⟨0, k, []⟩, [])
/-- RTNOW advances at the start of a command, once (R273). -/
def rtBegin (s : State) (c : Cmd) : State × Cmd :=
  if c.started.isEmpty then (s.updDie (dieOf c.ctx) fun k => { k with rtNow := k.rtNow + 1 }, { c with started := [0] }) else (s, c)
/-- A command that has read its tokens takes its step: the tables change, the result waits in `data` for the retirement. An uncorrectable
table read leaves the tables as they were and posts cause 206. -/
def rtTake (s : State) (c : Cmd) (bs : List Byte) : State × Cmd :=
  let d := dieOf c.ctx
  let k := s.die d
  let r := rtStep c bs k
  let isRead : Bool := match c.ins with | .rtrd .. => true | _ => false
  let done (s : State) (x : Word64) (n : Nat) : State × Cmd := (s, { c with data := toLE 8 x.toNat, prog := n })
  if r.1.reads.any k.rtBad.contains then
    done (s.postCtxError c.ctx c.cid 206) (if isRead then ~~~0 else rtWord 7 none false 0 0) 0
  else
    let s := s.updDie d fun _ => r.1.die
    -- rtfind returns the chunks matched as VAL (R343 event 15)
    let s := match c.ins with | .rtfind .. => s.bump 15 c.ctx (fld r.1.res 32 32) | _ => s
    let s := match c.outBuf with
      | none => s
      | some e => r.2.foldl (fun s v => (s.spadPut none (e / 64) (offsetBytes (s.outSlot e 0 0) (toLE 128 v))).advanceSlot e) s
    done s r.1.res r.2.length
def runRt (c : Cmd) (s : State) : State × Cmd × Option Hit :=
  let (s, c) := rtBegin s c
  match c.tokens with
  | none => let r := rtTake s c []; (r.1, r.2, none)
  | some (a, n) =>
    let src : Src := .at (c.lat.gq a)
    match (if n = 0 then .ok [] else s.engRead c src 0 (4 * n)) with
    | .error h => (s, c, some h)
    | .ok bs => let r := rtTake (if n = 0 then s else s.engMarks c src 0 (4 * n)) c bs; (r.1, r.2, none)

end Sys2Proof.Machine
end

