-- ==== Sys2Proof/Machine/Gen.lean ====
section
/-! DEFINITION. The generation loop: schsel, tokcommit and specacc (R289 to R297), with request records and delivery rings. -/

namespace Sys2Proof.Machine

/-- Registers that a command writes when it completes; a rollback keeps them (R315). -/
def State.lateRegs (s : State) (n : Nat) (f : Regs → Regs) : State := s.updCtx n fun c => { c with regs := f c.regs, ck := f c.ck }
def noToken : BitVec 32 := 0xFFFFFFFF

/-! ## Request records (R292, R293) -/

/-- The header and PEND of a request record, as read. -/
structure Req where
  va : VA
  ring : VA
  rsz : Nat
  wr : BitVec 32
  rd : BitVec 32
  pos : BitVec 32
  pendn : Nat
  plast : Bool
  /-- Byte 24 as read: PENDN, PLAST and two bits the part keeps. -/
  b24 : Nat
  pend : List (BitVec 32)
  deriving DecidableEq, Repr

/-- The record at an address from its first 96 bytes. -/
def reqOf (va : VA) (bs : List Byte) : Req :=
  let x := leNat bs
  let w (i : Nat) : BitVec 32 := BitVec.ofNat 32 (bits x (32 * i + 31) (32 * i))
  { va := va, ring := va8 (bits x 63 0), rsz := bits x 68 64, wr := w 3, rd := w 4, pos := w 5, pendn := bits x 196 192,
    plast := bit x 197, b24 := bits x 199 192, pend := (List.range 16).map fun i => w (8 + i) }
/-- The check of R294: cause 139 where it fails. -/
def Req.ok (r : Req) : Bool := decide (4 ≤ r.rsz) && decide (r.rsz ≤ 20) && decide (r.pendn ≤ 16)
/-- Free entries of the ring. -/
def Req.room (r : Req) : Nat := 2 ^ r.rsz - (r.wr - r.rd).toNat
/-- An entry (R293), and where entry i stands. -/
def ringEntry (tok : BitVec 32) (tpos : BitVec 32) (last : Bool) : List Byte :=
  toLE 8 (tok.toNat + 2 ^ 32 * (tpos.toNat % 2 ^ 31) + 2 ^ 63 * boolN last)
def Req.entryVA (r : Req) (i : BitVec 32) : VA := qoff r.ring (8 * (i.toNat % 2 ^ r.rsz) : Nat)
/-- Byte 24 with new PENDN and PLAST. -/
def Req.byte24 (r : Req) (n : Nat) (plast : Bool) : List Byte := toLE 1 (n + 32 * boolN plast + r.b24 / 64 * 64)

/-- An address that a command of this chapter forms when it runs must pass the address rules (R19, R154, R305). -/
def genAddr (c : Cmd) (va : VA) (a : Acc) : Option Hit :=
  match addrCheck c.ctx va 1 with
  | .trap cause _ => some ⟨cause, va, a, []⟩
  | _ => none
/-- A record, read with the walker's marks. -/
def State.readReq (s : State) (c : Cmd) (va : VA) : Except Hit (State × Req) :=
  match genAddr c va .read with
  | some h => .error h
  | none =>
    match s.engRead c (.at va) 0 96 with
    | .error h => .error h
    | .ok bs => .ok (s.engMarks c (.at va) 0 96, reqOf va bs)
/-- Small writes, each within a line, all or none. -/
def State.genWrites (s : State) (c : Cmd) : List (VA × List Byte) → Except Hit State
  | [] => .ok s
  | w :: t =>
    match genAddr c w.1 .write with
    | some h => .error h
    | none =>
      match s.engWriteLine c w.1 w.2 with
      | .error h => .error h
      | .ok s => hitAfter [(w.1, .write)] (s.genWrites c t)
/-- The reads of a record. -/
def reqReads (va : VA) : List (VA × Acc) := (Src.at va).reads 0 96
def toLE32 (x : BitVec 32) : List Byte := toLE 4 x.toNat

/-! ## OCC and HOLD (R289) -/

def occ (g : Word64) (s : Nat) : Bool := g.getLsbD s
def hold (g : Word64) (s : Nat) : Bool := g.getLsbD (8 + s)
def clearBit (g : Word64) (i : Nat) : Word64 := g &&& ~~~(1#64 <<< i)
def State.gocc (s : State) (n : Nat) : Word64 := (s.ctx n).regs.gocc
def State.setGocc (s : State) (n : Nat) (g : Word64) : State := s.lateRegs n fun r => { r with gocc := g }
def State.reqVA (s : State) (n slot : Nat) : VA := va8 (sget 0 (s.ctx n).regs.greq slot).toNat
/-- RING_BAD: the slot leaves the batch. -/
def State.ringBad (s : State) (c : Cmd) (slot : Nat) : State :=
  (s.setGocc c.ctx (clearBit (clearBit (s.gocc c.ctx) slot) (8 + slot))).postCtxError c.ctx c.cid 139

/-! ## flush (R296) -/

/-- The entries that a flush delivers. -/
def Req.flushed (r : Req) : List (List Byte) :=
  let m := r.pendn
  let z := boolN (r.plast && m != 0 && r.pend.getD (m - 1) 0 == noToken)
  (List.range (min r.room m)).map fun k =>
    ringEntry (r.pend.getD k 0) (r.pos - BitVec.ofNat 32 (m - z) + BitVec.ofNat 32 k) (r.plast && k + 1 == m)
def State.flush (s : State) (c : Cmd) (slot : Nat) : Except Hit State :=
  match s.readReq c (s.reqVA c.ctx slot) with
  | .error h => .error h
  | .ok (s, r) =>
    if !r.ok then .ok (s.ringBad c slot)
    else
      let es := r.flushed
      let k := es.length
      let left := r.pendn - k
      let ring := es.zipIdx.map fun e => (r.entryVA (r.wr + BitVec.ofNat 32 e.2), e.1)
      let wr := if k = 0 then [] else [(qoff r.va 12, toLE32 (r.wr + BitVec.ofNat 32 k))]
      let rest := if k = 0 then [] else ((r.pend.take r.pendn).drop k).zipIdx.map fun x => (qoff r.va (32 + 4 * x.2 : Nat), toLE32 x.1)
      let hdr := if k = 0 ∧ left ≠ 0 then [] else [(qoff r.va 24, r.byte24 left (r.plast && left != 0))]
      match hitAfter (reqReads r.va) (s.genWrites c (ring ++ wr ++ rest ++ hdr)) with
      | .error h => .error h
      | .ok s => .ok (if left = 0 then s.setGocc c.ctx (clearBit (s.gocc c.ctx) (8 + slot)) else s)

/-! ## schsel (R291) -/

def execSchsel (d a : QReg) (s : State) : Out := .next (s.enqueue (s.newCmd (.schsel d a) noCid []))
/-- The batch: GSEL for the lanes, and the bucket index. -/
def bucketCode (n : Nat) : Nat := if n ≤ 1 then 0 else if n ≤ 2 then 1 else if n ≤ 4 then 2 else 3
def draftCode (dl : Nat) : Nat := if dl = 4 then 1 else if dl = 8 then 2 else if dl = 13 then 3 else 0
def laneMap8 (lanes : List Nat) : Nat := leNatNibbles ((List.range 8).map fun i => lanes.getD i 15)
where
  /-- Nibbles, lowest first. -/
  leNatNibbles : List Nat → Nat
    | [] => 0
    | x :: t => x + 16 * leNatNibbles t
def gselOf (lanes : List Nat) (dl : Nat) : Word64 :=
  let n := lanes.length
  BitVec.ofNat 64 (laneMap8 lanes + if n = 0 then 0 else 2 ^ 32 * n + 2 ^ 36 * bucketCode n + 2 ^ 38 * draftCode dl)
/-- The registers after the flushes, and the schedule chosen. Bits [62:32] of a bucket entry play no part (log 57). -/
def State.select (s : State) (c : Cmd) (a : QReg) : State × VA :=
  let r := (s.ctx c.ctx).regs
  let lanes := (List.range 8).filter fun i => occ r.gocc i && !hold r.gocc i
  let dl := fld r.gdraft 0 4
  let s := s.lateRegs c.ctx fun r => { r with gsel := gselOf lanes dl }
  if lanes.isEmpty then (s, c.lat.gq a)
  else
    let s := s.lateRegs c.ctx fun r => { r with giter := BitVec.ofNat 64 ((fld r.giter 0 32 + 1) % 2 ^ 32) }
    let e := fld (s.launchOf c.ctx).buckets (64 * (4 * bucketCode lanes.length + draftCode dl)) 64
    (s, if bit e 63 then qoff (s.launchOf c.ctx).code (16 * (e % 2 ^ 32) : Nat) else c.lat.gq a)
def runSchsel (c : Cmd) (a : QReg) (s : State) : State × Cmd × Option Hit :=
  let held := (List.range 8).filter fun i => hold (s.gocc c.ctx) i
  match runItems (held.map fun i => fun s => s.flush c i) 0 s with
  | (s, _, some h) => (s, c, some h)
  | (s, _, none) =>
    let r := s.select c a
    (r.1, { c with data := toLE 16 r.2.toNat }, none)

/-! ## tokcommit (R294, R295) -/

def checkTokcommit (a b : SReg) (s : State) : Verdict :=
  require (fld (s.rS a) 3 29 == 0 && fld (s.rS a) 33 31 == 0 && fld (s.rS b) 32 32 == 0) 16
def execTokcommit (d a b : SReg) (s : State) : Out :=
  s.resolve (checkTokcommit a b s) fun s => s.enqueue (s.newCmd (.tokcommit d a b) noCid [])
def tokResult (status : Nat) (full halted : Bool) (pos : BitVec 32) : Word64 :=
  BitVec.ofNat 64 (status + 4 * boolN full + 8 * boolN halted + 2 ^ 32 * pos.toNat)
/-- A commit to a record that has passed its check: the state and the result word. -/
def State.commitTok (s : State) (c : Cmd) (slot : Nat) (last : Bool) (tok : BitVec 32) (r : Req) : Except Hit (State × Word64) :=
  let none_ := tok == noToken
  let lst := none_ || last
  let pos := if none_ then r.pos else r.pos + 1
  let g := s.gocc c.ctx
  let deliver := !hold g slot && r.room != 0
  if !deliver && 16 ≤ r.pendn then .ok (s, tokResult 2 false false r.pos)
  else
    let chunk := if none_ then [] else [(qoff r.va (256 + 4 * (r.pos.toNat % 64) : Nat), toLE32 tok), (qoff r.va 20, toLE32 pos)]
    let rest := if deliver then [(r.entryVA r.wr, ringEntry tok r.pos lst), (qoff r.va 12, toLE32 (r.wr + 1))]
      else [(qoff r.va (32 + 4 * r.pendn : Nat), toLE32 tok), (qoff r.va 24, r.byte24 (r.pendn + 1) lst)]
    match hitAfter (reqReads r.va) (s.genWrites c (chunk ++ rest)) with
    | .error h => .error h
    | .ok s =>
      let g := if deliver then g else g ||| (1#64 <<< (8 + slot))
      let g := if lst then clearBit g slot else g
      let s := s.setGocc c.ctx g
      let s := if none_ then s.postCtxError c.ctx c.cid 138 else s
      .ok (s, tokResult (if deliver then 0 else 1) (!none_ && pos.toNat % 64 == 0) lst pos)
def State.commitSlot (s : State) (c : Cmd) (slot : Nat) (last : Bool) (tok : BitVec 32) : Except Hit (State × Word64) :=
  if !occ (s.gocc c.ctx) slot then .ok (s, 2)
  else
    match s.readReq c (s.reqVA c.ctx slot) with
    | .error h => .error h
    | .ok (s, r) => if r.ok then s.commitTok c slot last tok r else .ok (s.ringBad c slot, tokResult 2 false true r.pos)
def runTokcommit (c : Cmd) (a b : SReg) (s : State) : State × Cmd × Option Hit :=
  let x := c.lat.gs a
  match s.commitSlot c (fld x 0 3) (x.getLsbD 32) ((c.lat.gs b).extractLsb' 0 32) with
  | .error h => (s, c, some h)
  | .ok (s, w) => (s, { c with data := toLE 8 w.toNat }, none)

/-! ## specacc (R297) -/

def checkSpecacc (a : VReg) (c : SReg) (s : State) : Verdict :=
  let n := (s.rS c).toNat
  let ps := lanes 4 (s.rV a)
  require (decide (1 ≤ n) && decide (n ≤ 16) && ps.headD 0 == 2 ^ 32 - 1 &&
    (List.range n).all fun j => j == 0 || decide (ps.getD j 0 < j)) 16
def execSpecacc (d a b : VReg) (c : SReg) (s : State) : Out :=
  s.resolve (checkSpecacc a c s) fun s => s.enqueue (s.newCmd (.specacc d a b c) noCid [])
/-- The path accepted from node `cur`: node numbers, root last. -/
def acceptPath (n : Nat) (ps ds ts : List Nat) : Nat → Nat → List Nat → List Nat
  | 0, _, path => path
  | fuel + 1, cur, path =>
    match (List.range n).find? fun j => j != 0 && ps.getD j 0 == cur && ds.getD j 0 == ts.getD cur 0 && ts.getD cur 0 != 2 ^ 32 - 1 with
    | none => path
    | some j => acceptPath n ps ds ts fuel j (j :: path)
/-- The vector specacc writes, from parents, draft tokens and the target's tokens. -/
def specResult (n : Nat) (pv dv tv : Vec) : Vec :=
  let ps := lanes 4 pv
  let ds := lanes 4 dv
  let ts := lanes 4 tv
  let path := acceptPath n ps ds ts 16 0 []
  let cur := path.headD 0
  let out := path.reverse.map (fun j => ds.getD j 0) ++ [ts.getD cur 0]
  let acc := path.foldl (fun m j => m + 2 ^ j) 1
  ofLanes 4 ((List.range 16).map (fun i => out.getD i (2 ^ 32 - 1)) ++ [out.length, acc, cur] ++ List.replicate 13 0)
def runSpecacc (c : Cmd) (d a b : VReg) (n : SReg) (s : State) : State × Cmd × Option Hit :=
  (s, { c with data := bytesOf (specResult (c.lat.gs n).toNat (c.lat.gv a) (c.lat.gv b) (c.lat.gv d)) }, none)

end Sys2Proof.Machine
end

