-- ==== Sys2Proof/Machine/Spawn.lean ====
section
/-! DEFINITION. spawn (R120 to R122) and the DOM word of R20. -/

namespace Sys2Proof.Machine

/-- DOM (R20): level, rank, size minus one, the unit's index, PHASE 0. -/
def domWord (level rank size domid : Nat) : Word64 := BitVec.ofNat 64 (level + 2 ^ 4 * rank + 2 ^ 13 * size + 2 ^ 22 * domid)
/-- DOMID of a context at a level: die-wide core or cluster number, die, or 0 (log 12). -/
def domId (level n : Nat) : Nat :=
  match level with
  | 0 | 1 => coreOf n % 32 | 2 => clusterOf n % 8 | 3 => dieOf n | _ => 0
/-- A context that no launch holds (R14, R121). -/
def Ctx.free (c : Ctx) : Bool := c.st == .idle && c.launch.isNone
/-- The context that sA names. -/
def State.target (s : State) (a : SReg) : Nat := clusterOf s.cur * 16 + (s.rS a).toNat
def checkSpawn (a b : SReg) (s : State) : Verdict :=
  (require (decide ((s.rS a).toNat ≤ 15)) 16).andThen
    ((require (decide ((s.rS b).toNat < (s.launchOf s.cur).nbundle)) 16).andThen (require (s.ctx (s.target a)).free 48))
/-- The registers a spawned context starts with. -/
def State.spawnRegs (s : State) (b c : SReg) (n : Nat) : Regs :=
  { Regs.zero with
    s := (List.range n).foldl (fun m i => sput 0 m i (s.lat.gsn (c.toNat + i))) []
    q := sput 0 (sput 0 [] 0 (s.rQ 0)) 1 (s.rQ 1)
    view := s.lat.view
    pc := qoff (s.launchOf s.cur).code (16 * (s.rS b).toNat : Nat) }
/-- The queue of a context's launch holds a slot; without one the launch is being pre-empted, and a context spawned for it with
it (R121, R325). -/
def State.slotHeld (s : State) (n : Nat) : Bool := (s.queue (s.launchOf n).queue).slot.isSome
/-- Until clk u+8 the target keeps state Idle, with its launch and registers set (log 51). An abort requested of the spawning context
does not cover it (log 65). -/
def execSpawn (a b c : SReg) (n : BitVec 5) (s : State) : Out :=
  s.resolve (checkSpawn a b s) fun s =>
    let t := s.target a
    let r := s.spawnRegs b c n.toNat
    s.setCtx t { Ctx.zero with
      regs := r, ck := r, launch := s.cx.launch, dom := domWord 0 0 0 (domId 1 t), readyAt := s.clk + Config.spawnDelay,
      preq := !s.slotHeld s.cur, preqAt := if s.slotHeld s.cur then 0 else s.clk }
/-- A spawn target's delay ends: it is Ready, or stands pre-empted at its first checkpoint (R121, R325). -/
def State.spawnReady (s : State) (n : Nat) : State :=
  let c := s.ctx n
  if c.st == .idle && c.launch.isSome && decide (c.readyAt ≤ s.clk) then
    let s := s.updCtx n fun c => { c with st := .ready }
    if c.preq then s.preemptNow n else s
  else s
/-- SPAWN_TARGET_READY. -/
def execSpawnTargetReady (ctx : Nat) (s : State) : Out :=
  if Config.contexts ≤ ctx then .fault .noSuchParty else .next (s.spawnReady ctx)

end Sys2Proof.Machine
end

