-- ==== Sys2Proof/Machine/Commands.lean ====
section
/-! DEFINITION. COMMAND_FIRE and COMMAND_RETIRE (R33, R217 to R230, R253, R273): when a queued command runs, what it does, and
what its retirement releases. -/

namespace Sys2Proof.Machine

/-! ## When a command may fire (R33, R223, R253, R274) -/

def Cmd.cluster (c : Cmd) : Nat := clusterOf c.ctx
/-- A command that has begun: it has reserved its output slots. -/
def Cmd.begun (c : Cmd) : Bool := !c.started.isEmpty
/-- The unit of a cluster's command executes nothing else. -/
def State.unitFree (s : State) (c : Cmd) : Bool :=
  !s.cmds.any fun x => x.id != c.id && x.cluster == c.cluster && Instr.unit x.ins == Instr.unit c.ins && x.st == .fired
def State.predsDone (s : State) (c : Cmd) : Bool := c.preds.all fun p => (s.cmd p).isNone
def State.tilesDone (s : State) (c : Cmd) : Bool :=
  !s.cmds.any fun x => decide (x.id < c.id) && x.tiles.any c.tiles.contains
/-- The mask slot a command reads or writes. -/
def Instr.maskOf : Instr → Option (BitVec 4 × Bool)
  | .attn _ _ _ _ slot _ => some (slot, false)
  | .mpld slot _ _ => some (slot, true)
  | _ => none
/-- attn waits for earlier mplds of its slot, mpld for earlier attns (R223) and mplds of it (R233). -/
def State.maskDone (s : State) (c : Cmd) : Bool :=
  match Instr.maskOf c.ins with
  | none => true
  | some (k, w) => !s.cmds.any fun x => decide (x.id < c.id) && x.cluster == c.cluster &&
      (Instr.maskOf x.ins == some (k, !w) || (w && Instr.maskOf x.ins == some (k, true)))
/-- Slots of its input entries a command declares: attn fixes its count from its mask slot (R233). -/
def State.inCounts (s : State) (c : Cmd) : List (Nat × Nat) :=
  let n := match c.ins with | .attn _ _ _ k slot _ => atCount s c slot k | _ => c.inCount
  (c.inBuf.map fun e => (e, n)).toList ++ (c.inBuf2.map fun e => (e, c.inCount2)).toList
/-- R33: every input entry holds the declared count, every output entry has it free. No other command takes slots of an entry that a
paused command has begun to use until that one ends (log 13). -/
def State.buffersReady (s : State) (c : Cmd) : Bool :=
  let ins := s.inCounts c
  let need (e : Nat) : Nat := (ins.filter fun x => x.1 == e).foldl (fun a x => a + x.2) 0
  let held (e : Nat) : Bool := s.cmds.any fun x => x.id != c.id && x.st == .paused && x.begun &&
    (x.inBuf == some e || x.inBuf2 == some e || x.outBuf == some e)
  (ins.all fun x => decide (need x.1 ≤ (s.cbuf x.1).filled) && !held x.1) &&
  match c.outBuf with
  | some e => decide (c.outCount + (s.cbuf e).reserved ≤ (s.cbuf e).free) && !held e
  | none => true
/-- The declared count of an attn exceeds its buffer. -/
def State.countBad (s : State) (c : Cmd) : Bool :=
  match c.ins with
  | .attn .. => (s.inCounts c).any fun x => decide ((s.cbuf x.1).n < x.2)
  | _ => false
/-- The reads of the context's earlier block gathers have performed. -/
def State.bgathsDone (s : State) (c : Cmd) : Bool :=
  !s.cmds.any fun x => x.ctx == c.ctx && decide (x.id < c.id) && match x.ins with | .bgath .. => true | _ => false
/-- Stores of the context before the command that have not performed, by their lines' addresses: its gate emptied at the command's
issue (R312). -/
def State.outsBefore (s : State) (c : Cmd) : List VA :=
  ((s.ctx c.ctx).out.filter fun g => decide (g.before ≤ c.id)).map (·.va) ++
    (s.heldWrites.filter fun h => h.ctx == some c.ctx && decide (h.before ≤ c.id)).map (·.va)
/-- Every earlier access of the context has performed; every earlier die-local one has (R165, R213, R214). -/
def State.allDone (s : State) (c : Cmd) : Bool := s.bgathsDone c && (s.outsBefore c).isEmpty
def State.localDone (s : State) (c : Cmd) : Bool := !(s.outsBefore c).any (isLocal c.ctx)
/-- With ACQ the first, without it the second (R213, R214). -/
def State.acqDone (s : State) (c : Cmd) (w : Word64) : Bool := s.localDone c && (!w.getLsbD 26 || s.allDone c)
/-- The control word of a command that has one. -/
def Cmd.control (c : Cmd) : Word64 :=
  match c.ins with
  | .mma _ _ _ k _ _ _ | .mmaa _ _ _ k _ _ _ | .mmas _ _ _ k _ _ | .mmtr _ _ _ k _ _ _ | .mmtra _ _ _ k _ _ _ | .tld _ _ k
  | .tldsp _ _ k | .tst _ _ k | .tstsp _ _ k | .tzero _ k | .attn _ _ _ k _ _ | .attnf _ _ k | .mpld _ _ k | .copy _ _ k _
  | .copy2d _ _ k _ | .copyc _ _ k _ | .pmvec _ k _ | .pmmac _ k _ | .pmatk k _ | .pmatv k _ | .pmrd _ k _ | .pmclr k _
  | .laybind _ k _ | .kvxfer _ k _ | .kvapp _ k _ | .pmst _ k _ => c.w k 0
  | _ => 0
/-- Earlier commands of the die that name a laybind's slot have retired (R261), and no write waits on a line of its window (log 24). -/
def State.slotDone (s : State) (c : Cmd) : Bool :=
  !Instr.isLaybind c.ins || (!(s.cmds.any fun x => decide (x.id < c.id) && dieOf x.ctx == dieOf c.ctx &&
      (Instr.slots x.ins).any (Instr.slots c.ins).contains) &&
    !s.heldWrites.any fun h => isWin h.line && lineDie h.line == dieOf c.ctx && (Instr.slots c.ins).contains (winSlot h.line))
/-- The resume tree engine performs its commands one at a time in issue order, once the context's accesses have performed and
the engine has its control block (R273, R274, R287). -/
def State.rtReady (s : State) (c : Cmd) : Bool :=
  !(s.cmds.any fun x => decide (x.id < c.id) && Instr.unit x.ins == .rt && dieOf x.ctx == dieOf c.ctx) &&
  s.allDone c && (s.die (dieOf c.ctx)).rtSaved.isNone &&
  (match c.outBuf with | some e => decide (c.outCount + (s.cbuf e).reserved ≤ (s.cbuf e).free) | none => true)
/-- The step of a command of the generation loop. -/
def runGen (c : Cmd) (s : State) : State × Cmd × Option Hit :=
  match c.ins with
  | .schsel _ a => runSchsel c a s
  | .tokcommit _ a b => runTokcommit c a b s
  | .specacc d a b n => runSpecacc c d a b n s
  | _ => (s, c, none)
/-- Commands of this chapter of one context run in issue order; a commit waits for the context's earlier accesses (R294). A step on a
record is indivisible and perceived as one: it waits until none of its writes would be held behind a group in flight (R263, R296). -/
def State.genReady (s : State) (c : Cmd) : Bool :=
  !(s.cmds.any fun x => decide (x.id < c.id) && x.ctx == c.ctx && Instr.unit x.ins == .gen) && s.allDone c &&
    (runGen c s).1.heldWrites.length == s.heldWrites.length
def State.canFire (s : State) (c : Cmd) : Bool :=
  c.st == .queued &&
  match Instr.unit c.ins with
  | .rt => s.rtReady c
  | .gen => s.genReady c
  | .pm => s.predsDone c && s.acqDone c c.control && s.slotDone c && (c.begun || s.buffersReady c)
  | .none => false
  | _ => s.unitFree c && s.predsDone c && s.tilesDone c && s.maskDone c && s.acqDone c c.control &&
      (c.begun || s.countBad c || s.buffersReady c)
/-! ## Running a cluster engine's command -/

/-- The work of a matrix, tile or copy command from its progress. -/
def runCmd (c : Cmd) (s : State) : State × Nat × Option Hit :=
  match c.ins with
  | .tld t a k => let _ := t; runLoad c (c.tiles.headD 0) (c.lat.gq a) k s
  | .tldsp t a k => let _ := t; runLoad c (c.tiles.headD 0) (spadVA c.ctx (c.lat.gs a).toNat) k s
  | .tst t a k => let _ := t; runStore c (c.tiles.headD 0) (c.lat.gq a) k s
  | .tstsp t a k => let _ := t; runStore c (c.tiles.headD 0) (spadVA c.ctx (c.lat.gs a).toNat) k s
  | .tzero _ _ => (c.tiles.foldl (fun s t => s.updTile t fun _ => .zero) s, 1, none)
  | .attn _ a b k slot _ => runAttn c a b k slot s
  | .attnf _ a k => runAttnf c a k s
  | .mpld slot a _ => runMpld c slot a s
  | .copy a b k bar => runCopy c a b k bar s
  | .copy2d a b k bar => runCopy2d c a b k bar s
  | .copyc _ a k out => runCopyc c a k out s
  | .bgath _ a b k _ => runBgath c a b k s
  | i => match mmForm i with | some m => runMatrix c m s | none => (s, 0, none)
/-- The output slots of a command are reserved (R33). -/
def State.reserve (s : State) (c : Cmd) : State :=
  match c.outBuf with
  | some e => s.updCbuf e fun b => { b with reserved := b.reserved + c.outCount }
  | none => s
/-- A command begins: its output slots are reserved. -/
def State.begin_ (s : State) (c : Cmd) : State × Cmd :=
  if c.begun then (s, c)
  else
    let c := { c with started := [0] }
    let s := s.reserve c
    (s.setCmd c, c)
/-- An attn whose count exceeds its buffer marks the rows of tile T (R233). -/
def State.countAbort (s : State) (c : Cmd) : State :=
  ((s.markAbort (c.tiles.take 1) c).postCtxError c.ctx c.cid 129).setCmd { c with st := .fired, ranges := [] }
/-- The cluster's units run a command, which ends, or pauses at a fault. Input slots are freed as their last read completes (R33):
by copyc and the mma family as they go, by attn when all its reads are made. -/
def State.fireCluster (s : State) (c : Cmd) : State :=
  if s.countBad c then s.countAbort c
  else
    let ins := match c.ins with | .attn .. => s.inCounts c | _ => []
    let (s, c) := s.begin_ c
    match runCmd c s with
    | (s, p, some h) => s.engHit { c with prog := p } h
    | (s, p, none) =>
      let s := ins.foldl (fun (s : State) x => s.updCbuf x.1 fun b => b.release x.2) s
      s.setCmd { c with st := .fired, prog := p, ranges := [] }
/-- Copies of the window lines of a slot return to memory before its binding changes. -/
def State.closeWindow (s : State) (d ls : Nat) : State :=
  if (s.layout d ls).valid then s.flushLines fun l => isWin l && lineDie l == d && winSlot l == ls else s
/-- Copies of the ordinary lines that a record's units hold return to memory before the record binds. -/
def State.clearUnits (s : State) (d : Nat) (r : BitVec 512) : State :=
  s.flushLines fun l => !isWin l && !isHost l && lineDie l == d &&
    lrOwns r (paBge (l * 128 % 2 ^ 48)) (paBank (l * 128 % 2 ^ 48)) (paRow (l * 128 % 2 ^ 48))
/-- The lines that a bind by record r of slot ls returns to memory. -/
def State.bindLines (s : State) (d ls : Nat) (r : BitVec 512) (l : Nat) : Bool :=
  ((s.layout d ls).valid && isWin l && lineDie l == d && winSlot l == ls) ||
  (!isWin l && !isHost l && lineDie l == d && lrOwns r (paBge (l * 128 % 2 ^ 48)) (paBank (l * 128 % 2 ^ 48)) (paRow (l * 128 % 2 ^ 48)))
/-- laybind reads its record and binds, unbinds or rejects (R246, R261); what was written through the old binding stands in the
stripes, and what was written before at the units' own locations is what the new window shows (log 43). -/
def State.bindSlot (s : State) (c : Cmd) (ls : Nat) (r : BitVec 512) : State :=
  let d := dieOf c.ctx
  let put (s : State) (x : Layout) : State := s.updDie d fun k => { k with layouts := sput .zero k.layouts ls x }
  let s := s.closeWindow d ls
  if !r.getLsbD 12 then put s .zero
  else
    let others := (s.die d).layouts.filter fun e => e.1 != ls && e.2.valid
    if lrOk r d && !others.any fun e => lrOverlap r e.2.record then put (s.clearUnits d r) ⟨true, r, false⟩
    else (put s .zero).postPm c ls ⟨194, 0, 0, 0, 0⟩ none
/-- The ringmaster takes a command: pmvec and laybind read their operand, pmrd reserves its slots (R253, R254, R258, R261). -/
def State.firePm (s : State) (c : Cmd) : State :=
  match c.ins with
  | .pmvec a k _ =>
    match readOn c (c.lat.gq a) (segOffs (c.lat.gq a) (pvBytes (c.w k 0))) s c.data with
    | (s, bs, some h) => s.engHit { c with data := bs } h
    | (s, bs, none) => s.setCmd { c with st := .fired, data := bs, ranges := [] }
  | .laybind a _ ls =>
    match s.engRead c (.at (c.lat.gq a)) 0 64 with
    | .error h => s.engHit c h
    | .ok bs =>
      let r : BitVec 512 := BitVec.ofNat 512 (leNat bs)
      if s.flushDown (s.bindLines (dieOf c.ctx) ls.toNat r) then (s.engMarks c (.at (c.lat.gq a)) 0 64).abandon c ⟨256, c.lat.gq a, .read, []⟩
      else ((s.engMarks c (.at (c.lat.gq a)) 0 64).setCmd { c with st := .fired, ranges := [] }).bindSlot c ls.toNat r
  | _ =>
    let from_ := match c.outBuf with
      | some e => ((s.cbuf e).wp + (s.cbuf e).reserved) % (s.cbuf e).n
      | none => 0
    (s.reserve c).setCmd { c with st := .fired, outFrom := from_ }
/-- A command of the resume tree or of the generation loop takes its step; its register is written when it retires. -/
def State.fireLate (r : State × Cmd × Option Hit) : State :=
  match r with
  | (s, c, none) => s.setCmd { c with st := .fired, ranges := [] }
  | (s, c, some h) => s.engHit c h
def State.fire (s : State) (c : Cmd) : State :=
  match Instr.unit c.ins with
  | .pm => s.firePm c
  | .rt => State.fireLate (runRt c (s.reserve c))
  | .gen => State.fireLate (runGen c s)
  | .none => s
  | _ => s.fireCluster c
/-- Of the commands ready for one unit of a cluster the earliest issued fires. -/
def State.mayFire (s : State) (c : Cmd) : Bool :=
  s.canFire c &&
  match Instr.unit c.ins with
  | .score | .value | .tile | .copy =>
    !s.cmds.any fun x => decide (x.id < c.id) && x.cluster == c.cluster && Instr.unit x.ins == Instr.unit c.ins && s.canFire x
  | _ => true
/-- COMMAND_FIRE. -/
def execCommandFire (id : Nat) (s : State) : Out :=
  .next (match s.cmd id with
    | some c => if s.mayFire c then (s.bump 12 c.ctx 1).fire c else s
    | none => s)

/-! ## Retirement (R37, R173, R220, R221, R281) -/

/-- A fired command has made its writes, and none of them waits (R220, R263); one of processing memory has completed its groups and
delivered its slots (R253, R258). -/
def State.mayRetire (s : State) (c : Cmd) : Bool :=
  c.st == .fired && !(s.heldWrites.any fun h => h.cmd == some c.id) &&
    (Instr.unit c.ins != .pm || (c.bges.all c.done.contains && decide (c.outCount ≤ c.outDone)))
/-- The register a command writes when it completes, from the value it has formed. -/
def Cmd.result (c : Cmd) (r : Regs) : Regs :=
  if c.data.isEmpty then r
  else
    let x := leNat c.data
    match c.ins with
    | .rthash d .. | .rtfind d .. | .rtdep d .. | .rtref d _ | .rtrel d _ | .rtpin d .. | .rtevict d .. | .rtrd d .. | .tokcommit d _ _ =>
      r.ws d (BitVec.ofNat 64 x)
    | .schsel d _ => r.wq d (BitVec.ofNat 72 x)
    | .specacc d .. => r.wv d (lineOf c.data)
    | _ => r
/-- rtevict's slots that no victim filled are released (R281). -/
def State.releaseUnfilled (s : State) (c : Cmd) : State :=
  match c.ins, c.outBuf with
  | .rtevict .., some e => s.updCbuf e fun b => { b with reserved := b.reserved - (c.outCount - c.prog) }
  | _, _ => s
def State.retireCmd (s : State) (c : Cmd) : State :=
  let s := if c.abandoned then s else (s.lateRegs c.ctx c.result).releaseUnfilled c
  (s.dropCmd c.id).cbSweep c.cluster
/-- COMMAND_RETIRE. -/
def execCommandRetire (id : Nat) (s : State) : Out :=
  .next (match s.cmd id with
    | some c => if s.mayRetire c then s.retireCmd c else s
    | none => s)

end Sys2Proof.Machine
end

