-- ==== Sys2Proof/Machine/Sched.lean ====
section
/-! DEFINITION. The hardware queue scheduler (R22 to R30, R37 to R40) and the life of a context: launches, landings, retirement,
restart points, rollbacks, the fault batcher's answers, pre-emption (R312 to R327). -/

namespace Sys2Proof.Machine

def queueCount : Nat := 8192
def aContext (n : Nat) : Bool := decide (n < Config.contexts)
/-- An event of a context: it must exist. -/
def ctxEvent (n : Nat) (s : State) (f : State → State) : Out := if aContext n then .next (f s) else .fault .noSuchParty
def dieEvent (d : Nat) (s : State) (f : State → State) : Out := if d < Config.dies then .next (f s) else .fault .noSuchParty
/-- The host reaches a die's window, through die 0, while the module is awake (R5, R198, R339). -/
def State.windowReached (s : State) (d : Nat) : Bool := s.sleep == .awake && !s.linkIsDown 0 d
/-- A die's window answers where the host reaches it and bring-up has not failed (R335). -/
def State.windowOpen (s : State) (d : Nat) : Bool := s.windowReached d && (s.die d).boot != 6
/-- A write to a register of a die's window. -/
def windowEvent (d : Nat) (s : State) (f : State → State) : Out := dieEvent d s fun s => if s.windowOpen d then f s else s
def queueEvent (q : Nat) (s : State) (f : State → State) : Out := if q < queueCount then .next (f s) else .fault .noSuchParty

/-! ## Records (R24, R91) -/

/-- What keeps a scheduler's access from its line before translation. -/
def schedAddr (va : VA) : Option Nat :=
  if isSpad va then some 66 else if !homeOk va then some 64 else if fld va 48 20 ≠ 0 then some 75 else none
/-- Bytes the scheduler of die d reads under an address space, or what stops it. -/
def State.schedRead (s : State) (d : Nat) (asid : BitVec 16) (va : VA) (n : Nat) : Except Hit (List Byte) :=
  match schedAddr va with
  | some c => .error ⟨c, va, .read, []⟩
  | none => s.engReadMem d (8 * d) asid (segs va n)
/-- What its reads leave behind, one after another up to the first that faults: the walker's marks and the errors of the devices
(R265, R310). -/
def State.schedMarks (s : State) (d : Nat) (asid : BitVec 16) : List (VA × Nat) → State
  | [] => s
  | x :: t =>
    match s.schedRead d asid x.1 x.2 with
    | .error h => (s.hitMarks d asid h).noteFault none 0 asid h.va .read h.cause
    | .ok _ => ((touched x.1 x.2).foldl (fun (s : State) a =>
        match (s.translate asid a .read).place asid a .read with
        | .ok r => if r.reg.isSome then s.translate asid a .read
          else (s.translate asid a .read).noteRead none 0 r.line (s.readCached d none r.line (tagOf asid a r) 0)
        | .error _ => s) s).schedMarks d asid t
def Queue.ringVA (q : Queue) (i : BitVec 32) : VA := qoff (va16 (fld q.desc 0 56)) (64 * (i.toNat % q.cap) : Nat)
def recOrder (r : BitVec 512) : Bool := r.getLsbD 58
def recReduced (r : BitVec 512) : Bool := r.getLsbD 57
def recEntry (r : BitVec 512) : Nat := fld r 64 32
def recCpc (r : BitVec 512) : Nat := fld r 192 2 + 1
def recCpk (r : BitVec 512) : Nat := fld r 194 2 + 1
def recKpd (r : BitVec 512) : Nat := fld r 196 3 + 1
def recDies (r : BitVec 512) : BitVec 4 := r.extractLsb' 204 4
def recSignal (r : BitVec 512) : VA := va8 (fld r 256 64)
def recTag (r : BitVec 512) : Nat := fld r 384 64
/-- The checks of R24 on the record alone. -/
def recOk (r : BitVec 512) : Bool :=
  fld r 59 5 = 0 && fld r 96 32 = 0 && !r.getLsbD 199 && decide (fld r 200 3 ≤ 4) && !r.getLsbD 203 && recDies r != 0 &&
  fld r 208 16 = 0 && (fld r 224 16 ≠ 0 || fld r 240 16 = 0) && fld r 448 64 = 0
/-- The checks of R91 on the image descriptor. -/
def imageOk (m : BitVec 512) (entry : Nat) : Bool :=
  fld m 0 16 = 0x4358 && fld m 16 16 = 0 && homeOk (va8 (fld m 64 64)) && fld m 128 32 ≠ 0 && decide (entry < fld m 128 32) &&
  fld m 160 32 = 0 && (fld m 256 64 ≠ 0 || fld m 320 8 = 0) && fld m 328 184 = 0
/-- The view classes that an image gives, by number, and where each stands. -/
def imageViews (m : BitVec 512) : List (Nat × VA) :=
  ((List.range 8).filter fun n => m.getLsbD (320 + n)).map fun n => (n, qoff (va8 (fld m 256 64)) (8 * n : Nat))
/-- The reads of an image: its descriptor, and what a descriptor that can be read and is good names. -/
def State.imageReads (s : State) (d : Nat) (asid : BitVec 16) (r : BitVec 512) : List (VA × Nat) :=
  let desc : VA × Nat := (va16 (fld r 0 56), 64)
  match s.schedRead d asid desc.1 64 with
  | .error _ => [desc]
  | .ok mb =>
    let m : BitVec 512 := BitVec.ofNat 512 (leNat mb)
    if !imageOk m (recEntry r) then [desc]
    else desc :: (if fld m 192 64 = 0 then [] else [(va8 (fld m 192 64), 128)]) ++ (imageViews m).map fun x => (x.2, 8)
/-- What a launch takes from its image: descriptor, bucket table, view classes; none is cause 321. -/
def State.readImage (s : State) (d : Nat) (asid : BitVec 16) (r : BitVec 512) : Option (BitVec 512 × BitVec 1024 × SMap Word64) :=
  match s.schedRead d asid (va16 (fld r 0 56)) 64 with
  | .error _ => none
  | .ok mb =>
    let m : BitVec 512 := BitVec.ofNat 512 (leNat mb)
    if !imageOk m (recEntry r) then none
    else
      let bt := if fld m 192 64 = 0 then .ok [] else s.schedRead d asid (va8 (fld m 192 64)) 128
      let vs := (imageViews m).map fun x => (x.1, s.schedRead d asid x.2 8)
      match bt with
      | .error _ => none
      | .ok bs =>
        if vs.all fun v => match v.2 with | .ok x => decide (leNat x % 8 ≤ 4) | .error _ => false then
          some (m, BitVec.ofNat 1024 (leNat bs), vs.foldl (fun t v => match v.2 with
            | .ok x => sput 0 t v.1 (BitVec.ofNat 64 (leNat x % 64))
            | .error _ => t) [])
        else none

/-! ## Completion (R25, R37, R38) -/

/-- The fault that keeps the completion writes of the bytes from being made, if one does: beside those that R38 lists, what any access
meets at its home (R198, R250, R265, log 60). -/
def State.signalFault (s : State) (d : Nat) (asid : BitVec 16) (va : VA) (bs : List Byte) : Option Nat :=
  match schedAddr va with
  | some c => some c
  | none => match s.access d none asid va .write 0 with
    | .error c => some c
    | .ok r => if r.reg.isNone && s.writeDown d none r.line (tagOf asid va r) (some (offsetBytes (fld va 0 7) bs)) then some 256 else none
/-- Eight bytes stored under an address space by the scheduler of die d. -/
def State.schedWrite (s : State) (d : Nat) (asid : BitVec 16) (va : VA) (x : Nat) : State :=
  match s.place asid va .write with
  | .error _ => s
  | .ok r =>
    let s := s.translate asid va .write
    match r.reg with
    | some (w, o) => s.windowStore w o (toLE 8 x)
    | none => (s.lineStore d r.line (tagOf asid va r) (offsetBytes (fld va 0 7) (toLE 8 x))).shootdown r.line
/-- RDIDX passes every record that has completed, in order, and each advance is stored in the descriptor. -/
def State.advanceRd (s : State) (q : Nat) : Nat → State
  | 0 => s
  | n + 1 =>
    let u := s.queue q
    if u.completed.contains u.rd then
      let s := s.updQueue q fun u => { u with rd := u.rd + 1, completed := u.completed.filter (· != u.rd) }
      (s.unitWrite u.die (Config.dieKey u.die (u.descPA + 8)) (toLE 4 (u.rd + 1).toNat)).advanceRd q n
    else s
/-- A record completes with a status: the completion writes or an error record, then RDIDX. -/
def State.completeRecord (s : State) (q : Nat) (i : BitVec 32) (r : BitVec 512) (status : Nat) : State :=
  let u := s.queue q
  let va := recSignal r
  let s := match s.signalFault u.die u.asid va (toLE 8 (fld r 320 64) ++ toLE 8 status) with
    | some f => ((s.hitMarks u.die u.asid ⟨f, va, .write, []⟩).noteFault none 0 u.asid va .write f).postError u.die
        (328 + 2 ^ 9 * f + 2 ^ 18 * q + 2 ^ 31 * status + 2 ^ 64 * recTag r + 2 ^ 192 * fld r 256 64)
    | none => (s.schedWrite u.die u.asid (qoff va 8) status).schedWrite u.die u.asid va (fld r 320 64)
  (s.updQueue q fun u => { u with completed := u.completed ++ [i] }).advanceRd q (u.completed.length + 1)

/-! ## Slots (R28, R325) -/

/-- A launch of the queue runs. -/
def State.running (s : State) (q : Nat) : Bool := s.launches.any fun l => l.2.active && l.2.queue == q
/-- A record of an enabled queue stands to be read. -/
def State.pending (s : State) (q : Nat) : Bool :=
  let u := s.queue q
  u.bound && !u.unbinding && u.next != u.wr && u.held.isNone && s.queueOn q
/-- The next record of a queue, if there is one to start. -/
def State.nextRecord (s : State) (q : Nat) : Option (BitVec 512) :=
  let u := s.queue q
  if !s.pending q then none
  else match s.schedRead u.die u.asid (u.ringVA u.next) 64 with
    | .ok bs => some (BitVec.ofNat 512 (leNat bs))
    | .error _ => none
/-- The fault of reading it that the batcher takes (R320); where a cause of another delivery stops the read, the queue waits, and no
cause is recorded (log 73). -/
def State.recordFault (s : State) (q : Nat) : Option FaultRec :=
  let u := s.queue q
  if !s.pending q then none
  else match s.schedRead u.die u.asid (u.ringVA u.next) 64 with
    | .ok _ => none
    | .error h => if isF h.cause then some ⟨h.cause, u.asid, h.va, h.acc.bits, false⟩ else none
/-- The next record may start under ORDER. -/
def State.mayStart (s : State) (q : Nat) : Bool :=
  match s.nextRecord q with
  | some r => !recOrder r || (s.queue q).rd == (s.queue q).next
  | none => false
/-- Ready work: a record that may start, or launches that run (log 14). -/
def State.hasWork (s : State) (q : Nat) : Bool := s.mayStart q || s.running q
def Queue.prio (u : Queue) : Nat := fld u.desc 60 3
/-- Effective priority: one level for each 8 ms of waiting; a holder does not wait. -/
def Queue.effective (u : Queue) (clk : Nat) : Nat :=
  if u.slot.isSome then u.prio else min 7 (u.prio + (clk - u.waitAt) / (8000 * Config.clkPerUs))
/-- Time slice in clk (R22). -/
def Queue.slice (u : Queue) : Nat :=
  let x := fld u.desc 144 16
  (if x = 0 then 20 else min x 1000) * 100 * Config.clkPerUs
/-- Queues waiting for a slot of a die, in the order they are served. -/
def State.waiting (s : State) (d : Nat) : List Nat :=
  let qs := s.queues.filter fun e => e.2.bound && e.2.die == d && e.2.slot.isNone && s.hasWork e.1
  (sortBy (fun (a b : Nat × Queue) =>
    let pa := a.2.effective s.clk
    let pb := b.2.effective s.clk
    decide (pb < pa) || (pa == pb && (decide (a.2.waitAt < b.2.waitAt) || (a.2.waitAt == b.2.waitAt && decide (a.1 ≤ b.1))))) qs).map (·.1)
/-- Of holders that may yield: lowest effective priority, then held longest, then the highest queue number. -/
def yieldLe (clk : Nat) (a b : Nat × Queue) : Bool :=
  let pa := a.2.effective clk
  let pb := b.2.effective clk
  decide (pa < pb) || (pa == pb && (decide (a.2.slotAt < b.2.slotAt) || (a.2.slotAt == b.2.slotAt && decide (b.1 ≤ a.1))))
/-- The holder that a waiting queue displaces, if one may yield: one without ready work first, of several the one that comes first in
the same order (log 58), then one whose slice has expired and whose priority the waiting queue's reaches. -/
def State.yielder (s : State) (d q : Nat) : Option Nat :=
  let hs := s.queues.filter fun e => e.2.bound && e.2.die == d && e.2.slot.isSome
  match sortBy (yieldLe s.clk) (hs.filter fun e => !s.hasWork e.1) with
  | e :: _ => some e.1
  | [] => match sortBy (yieldLe s.clk) (hs.filter fun e => e.2.expired) with
    | e :: _ => if e.2.effective s.clk ≤ (s.queue q).effective s.clk then some e.1 else none
    | [] => none
/-- The contexts of a queue's launches. -/
def State.contextsOf (s : State) (q : Nat) : List Nat :=
  (s.ctxs.filter fun e => match e.2.launch with
    | some l => (s.launchRec l).active && (s.launchRec l).queue == q
    | none => false).map (·.1)
/-- PREEMPTION: a context with PREQ that stands at a mark leaves at once (R325). -/
def State.tryPreempt (s : State) (n : Nat) : State :=
  let c := s.ctx n
  if c.preq && !c.preempted && c.st != .idle && c.st != .retiring && c.atMark && c.landings.isEmpty && s.landed n then s.preemptNow n
  else s
/-- A queue loses its slot. -/
def State.unmap (s : State) (q : Nat) : State :=
  let s := s.updQueue q fun u => { u with slot := none, expired := false, waitAt := s.clk }
  (s.contextsOf q).foldl (fun s n =>
    let c := s.ctx n
    if c.st == .retiring || c.preempted then s
    else (s.updCtx n fun c => { c with preq := true, preqAt := s.clk }).tryPreempt n) s
/-- A queue takes a slot: its pre-empted contexts go on. -/
def State.map_ (s : State) (q k : Nat) : State :=
  let s := s.updQueue q fun u => { u with slot := some k, slotAt := s.clk, expired := false }
  (s.contextsOf q).foldl (fun s n => s.updCtx n fun c => { c with preq := false, preempted := false, leaving := false }) s
def State.freeSlot (s : State) (d : Nat) : Option Nat :=
  (List.range 64).find? fun k => !s.queues.any fun e => e.2.bound && e.2.die == d && e.2.slot == some k
def State.mapOne (s : State) (d q : Nat) : State :=
  match s.freeSlot d with
  | some k => s.map_ q k
  | none => match s.yielder d q with
    | none => s
    | some h => match (s.queue h).slot with
      | some k => (s.unmap h).map_ q k
      | none => s
def State.mapSlots (s : State) (d : Nat) : State := (s.waiting d).foldl (fun s q => s.mapOne d q) s
/-- The scheduler has made no decisions in this clk: one clk's decisions are made once, and displace a holder once (R28). -/
def State.mayMap (s : State) (d : Nat) : Bool := decide ((s.die d).mapAt ≤ s.clk)
def execSlotMapping (die : Nat) (s : State) : Out :=
  dieEvent die s fun s => if s.mayMap die then (s.mapSlots die).updDie die fun k => { k with mapAt := s.clk + 1 } else s
/-- A holder's slice runs out. -/
def State.sliceOver (s : State) (q : Nat) : Bool :=
  let u := s.queue q
  u.slot.isSome && !u.expired && decide (u.slice ≤ s.clk - u.slotAt)
def execTimeSliceExpiry (q : Nat) (s : State) : Out :=
  queueEvent q s fun s => if s.sliceOver q then s.updQueue q fun u => { u with expired := true } else s
def execDoorbell (die q : Nat) (wridx : BitVec 32) (s : State) : Out :=
  if q < queueCount then windowEvent die s fun s => s.ring die q wridx else .fault .noSuchParty

/-! ## Launch (R26, R27, R30) -/

/-- The share of a die: the lowest clusters, cores and contexts that can supply it, or none. -/
def State.share (s : State) (d : Nat) (r : BitVec 512) (clusters : Nat) : Option (List Nat) :=
  let coreShare (k : Nat) : List Nat := ((List.range 4).map (4 * k + ·)).filter (fun n => (s.ctx n).free) |>.take (recCpc r)
  let clusterShare (k : Nat) : List (List Nat) :=
    (((List.range 4).map fun i => coreShare (4 * k + i)).filter fun x => x.length == recCpc r).take (recCpk r)
  let cs := (((List.range clusters).map fun k => clusterShare (8 * d + k)).filter fun x => x.length == recCpk r).take (recKpd r)
  if cs.length = recKpd r then some (cs.flatten.flatten) else none
/-- The shares of every die named, or none if one refuses: no die holds its share until all can grant theirs (log 72). -/
def State.shares (s : State) (r : BitVec 512) (clusters : Nat) : Option (List Nat) :=
  (List.range 4).foldl (fun acc d =>
    if (recDies r).getLsbD d then match acc, s.share d r clusters with
      | some xs, some ys => some (xs ++ ys)
      | _, _ => none
    else acc) (some [])
/-- Reduced service places only these (R336). -/
def placeable (svc : Nat) (r : BitVec 512) : Bool := svc == 2 || (svc == 1 && recReduced r && recDies r == 1 && recKpd r == 1)
/-- The state of R27 in the contexts of a launch, ranked in order. -/
def State.startContexts (s : State) (l : Nat) (r : BitVec 512) (recVA code : VA) (view : SMap Word64) (ns : List Nat) : State :=
  let lv := fld r 200 3
  ns.zipIdx.foldl (fun s x =>
    let mates := ns.filter fun m => unitOf lv m == unitOf lv x.1
    let regs := { Regs.zero with
      s := sput 0 (sput 0 [] 0 (BitVec.ofNat 64 x.2)) 1 (BitVec.ofNat 64 ns.length)
      q := sput 0 (sput 0 [] 0 (va8 (fld r 128 64))) 1 recVA
      view := view
      pc := qoff code (16 * recEntry r : Nat) }
    s.setCtx x.1 { Ctx.zero with
      st := .ready, regs := regs, ck := regs, launch := some l,
      dom := domWord lv (mates.findIdx (· == x.1)) (mates.length - 1) (domId lv x.1), readyAt := s.clk }) s
/-- LAUNCH: the next record of a queue that holds a slot is checked and placed, or completed with a cause; a refused share
waits (R25, R26). A record that reduced service does not place is held before its checks (R336); one that cannot be read waits on
the batcher (R320). -/
def State.launchNext (s : State) (q : Nat) : State :=
  let u := s.queue q
  match s.nextRecord q with
  | none => match s.recordFault q with
    | some f => ((s.schedMarks u.die u.asid [(u.ringVA u.next, 64)]).updQueue q fun u => { u with held := some f }).batchAdd f
    | none => s
  | some r =>
    let svc := (s.die u.die).svc
    if u.slot.isNone || !s.mayStart q || !placeable svc r then s
    else
      let recVA := u.ringVA u.next
      let s := s.schedMarks u.die u.asid [(recVA, 64)]
      let reject (s : State) (cause : Nat) : State := (s.updQueue q fun u => { u with next := u.next + 1 }).completeRecord q u.next r cause
      if !recOk r then reject s 320
      else match s.readImage u.die u.asid r with
        | none => reject (s.schedMarks u.die u.asid (s.imageReads u.die u.asid r)) 321
        | some (m, buckets, view) =>
          match s.shares r (if svc = 2 then 8 else 1) with
          | none => s
          | some ns =>
            let s := s.schedMarks u.die u.asid (s.imageReads u.die u.asid r)
            let l := s.nextLaunch
            let s := { s with nextLaunch := l + 1 }
            let s := s.updLaunch l fun _ => ⟨true, q, u.next.toNat, recVA, r, m, buckets, [], 0, 0, 0, ns.length, u.asid⟩
            (s.updQueue q fun u => { u with next := u.next + 1 }).startContexts l r recVA (va8 (fld m 64 64)) view ns
def execLaunch (q : Nat) (s : State) : Out := queueEvent q s fun s => s.launchNext q

/-! ## Retirement (R37, R39, R40) -/

/-- A context becomes Idle: tiles, bindings, comparators and tokens are released. -/
def State.releaseCtx (s : State) (n : Nat) : State :=
  let s := (s.setCtx n .zero).updCore (coreOf n) fun k =>
    { k with cmps := k.cmps.filter (fun e => e.2.ctx != n), wakeQ := k.wakeQ.filter fun t => t.ctx != n }
  s.cbSweep (clusterOf n)
/-- The last context of a launch is Idle: its skew entries go, its record completes, and a queue being unbound whose launches
have all completed is released (R332). -/
def State.finishLaunch (s : State) (l : Nat) : State :=
  let r := s.launchRec l
  let s := { s with skews := s.skews.map fun (e : Nat × List Skew) => (e.1, e.2.filter fun k => k.launch != some l) }
  let s := (s.updLaunch l fun _ => .zero).completeRecord r.queue (BitVec.ofNat 32 r.index) r.record r.status
  if (s.queue r.queue).unbinding && !s.running r.queue then s.updQueue r.queue fun _ => .zero else s
/-- The conditions of R37: every engine command queue that the context has fed is empty, of the commands of other contexts too
(log 59), and each of its stores has performed. -/
def State.mayRetireCtx (s : State) (n : Nat) : Bool :=
  (s.ctx n).st == .retiring && ((s.ctx n).fed.all fun u => s.queueLen n u == 0) && (s.outs n).isEmpty
def State.retireCtx (s : State) (n : Nat) : State :=
  let l := (s.ctx n).launch
  let s := s.releaseCtx n
  match l with
  | none => s
  | some l => if s.ctxs.any fun e => e.2.launch == some l then s else s.finishLaunch l
def execRetirement (ctx : Nat) (s : State) : Out := ctxEvent ctx s fun s => if s.mayRetireCtx ctx then s.retireCtx ctx else s
/-- A requested abort is made: at a moment at which the context would be pre-empted, or 200 µs after the request (R40). -/
def State.abortDue (s : State) (n : Nat) : Bool :=
  match (s.ctx n).abortAt with
  | some t => (decide (Config.preemptClk ≤ s.clk - t) || (s.ctx n).atMark) && s.landed n
  | none => false
def execLaunchAbortTimeout (ctx : Nat) (s : State) : Out := ctxEvent ctx s fun s => if s.abortDue ctx then s.retireNow ctx else s

/-! ## Landings and fmt (R65, R113) -/

/-- A landing stands from its clk on. -/
def Landing.over (clk : Nat) (l : Landing) : Bool := decide (l.due ≤ clk)
/-- Due landings go to their registers, in issue order. -/
def State.land (s : State) (n : Nat) : State :=
  s.updCtx n fun c =>
    { c with tc := (c.landings.filter (·.over s.clk)).foldl (fun m l => sput 0 m l.reg l.value) c.tc,
             landings := c.landings.filter fun l => !l.over s.clk }
def execTnextLanding (ctx : Nat) (s : State) : Out := ctxEvent ctx s fun s => s.land ctx
/-- Pending fmt writes whose four bundles have issued take effect, oldest first. -/
def Regs.fmtEffect (r : Regs) : Regs :=
  { r with fmt := (r.fmtPend.filter (·.2 == 0)).foldl (fun _ p => p.1) r.fmt, fmtPend := r.fmtPend.filter (·.2 != 0) }
/-- One more bundle has issued. -/
def Regs.fmtCount (r : Regs) : Regs := { r with fmtPend := r.fmtPend.map fun p => (p.1, p.2 - 1) }
def execFmtWriteEffect (ctx : Nat) (s : State) : Out :=
  ctxEvent ctx s fun s => s.updCtx ctx fun c => { c with regs := c.regs.fmtEffect }

/-! ## Restart points and rollbacks (R205, R312 to R316) -/

/-- A context whose bundles can issue. -/
def Ctx.live (c : Ctx) : Bool := (c.st == .ready || c.st == .running || c.st == .blocked) && c.held.isNone && !c.preempted && !c.leaving
/-- A conflict rollback; after four to one mark the window runs in the mode of R205. A fault rollback between them does not break the
run (log 80). -/
def State.conflictRoll (s : State) (n : Nat) : State :=
  ((s.rollback n).updCtx n fun c =>
    { c with
      conflicts := c.conflicts + 1
      conflRolls := min (2 ^ 32 - 1) (c.conflRolls + 1)
      stepMode := c.stepMode || decide (4 ≤ c.conflicts + 1) }).bump 9 n 1
def State.conflictDue (s : State) (n : Nat) : Bool := (s.ctx n).live && (s.ctx n).conflict && s.landed n
/-- The checkpoint of a restart point: a conflict that is pending rolls the context back instead (R205). -/
def State.restartPoint (s : State) (n : Nat) : State :=
  if !(s.ctx n).live then s
  else if (s.ctx n).conflict then if s.conflictDue n then s.conflictRoll n else s
  else if s.recheck n == .ok then s.commitAt n (s.ctx n).regs.pc else s
def execRestartPointCommit (ctx : Nat) (s : State) : Out := ctxEvent ctx s fun s => s.restartPoint ctx
def execConflictRollback (ctx : Nat) (s : State) : Out := ctxEvent ctx s fun s => if s.conflictDue ctx then s.conflictRoll ctx else s
/-- Causes delivered as E (R317, R328). -/
def isE (c : Nat) : Bool := c == 79 || c == 197 || (decide (202 ≤ c) && decide (c ≤ 204)) || (decide (256 ≤ c) && decide (c ≤ 258))
/-- A fault that returns to a context. -/
def State.faultReturn (s : State) (n cause : Nat) (va : VA) (a : Acc) : State :=
  if !(s.ctx n).live then s
  else if isF cause then if s.landed n then s.faultHeld n ⟨cause, s.asidOf n, va, a.bits, false⟩ else s
  else if isE cause then if s.settled n then s.faultTrap n cause va else s
  else s
def execFaultRollback (ctx cause : Nat) (va : VA) (s : State) : Out := ctxEvent ctx s fun s => s.faultReturn ctx cause va .read

/-! ## The batcher's close and the driver's answers (R320 to R323) -/

def State.batchDue (s : State) (d : Nat) : Bool :=
  let k := s.die d
  !k.batch.isEmpty && (decide (Config.batchClk ≤ s.clk - k.batchAt) || decide (256 ≤ k.batch.length))
def execFaultBatchClose (die : Nat) (s : State) : Out := dieEvent die s fun s => if s.batchDue die then s.batchClose die else s
/-- A command is to fire again, and goes on from its progress, or is abandoned (R230, R323). -/
def State.answerCmd (s : State) (fail : Bool) (r : FRange) (c : Cmd) : State :=
  match c.pausedOn with
  | some f =>
    if c.st == .paused && r.covers f then
      if fail then s.abandon c ⟨f.cause, f.va, .read, []⟩
      else
        s.setCmd { c with st := .queued, pausedOn := none }
    else s
  | none => s
/-- A context held on the range resumes from its checkpoint, or owes the trap of the cause there, which it takes before it issues,
once its pending writes have landed (R115, R317). -/
def State.answerCtx (s : State) (fail : Bool) (r : FRange) (n : Nat) : State :=
  let c := s.ctx n
  match c.held with
  | some f =>
    if r.covers f then
      s.updCtx n fun c => { c with held := none, owed := if fail then c.owed ++ [⟨f.cause, tvalOf f.va, 0, 0, true⟩] else c.owed }
    else s
  | none => s
/-- A queue whose record read waits on the range reads it again; after FAIL it waits on, until it is unbound (log 61). -/
def State.answerQueue (s : State) (fail : Bool) (r : FRange) (q : Nat) : State :=
  if !fail && (s.queue q).held.any r.covers then s.updQueue q fun u => { u with held := none } else s
def State.answerRange (s : State) (fail : Bool) (r : FRange) : State :=
  let s := (s.ctxs.map (·.1)).foldl (fun s n => s.answerCtx fail r n) s
  let s := (s.queues.map (·.1)).foldl (fun s q => s.answerQueue fail r q) s
  s.cmds.foldl (fun s c => s.answerCmd fail r c) s
/-- FRESP: BATCH in [31:0], INDEX in [39:32], FAIL in [40], ALL in [41]. -/
def State.answer (s : State) (d : Nat) (v : Word64) : State :=
  let mine (r : FRange) : Bool := r.batch % 2 ^ 32 == fld v 0 32 && (v.getLsbD 41 || r.index == fld v 32 8)
  let rs := (s.die d).ranges.filter mine
  let s := s.updDie d fun k => { k with ranges := k.ranges.filter fun r => !mine r }
  rs.foldl (fun s r => s.answerRange (v.getLsbD 40) r) s
def execFaultResponse (die : Nat) (v : BitVec 64) (s : State) : Out := windowEvent die s fun s => s.answer die v

/-! ## Pre-emption (R325, R326) -/

def execPreemption (ctx : Nat) (s : State) : Out := ctxEvent ctx s fun s => s.tryPreempt ctx
def State.preemptDue (s : State) (n : Nat) : Bool :=
  let c := s.ctx n
  c.preq && !c.preempted && c.st != .idle && c.st != .retiring && decide (Config.preemptClk ≤ s.clk - c.preqAt) &&
    c.landings.isEmpty && s.landed n
/-- The context is rolled back and pre-empted there, owing cause 324 behind what it owes already. -/
def execPreemptTimeout (ctx : Nat) (s : State) : Out :=
  ctxEvent ctx s fun s =>
    if s.preemptDue ctx then ((s.rollback ctx).updCtx ctx fun c => { c with owed := c.owed ++ [⟨324, 0, 0, 0, false⟩] }).preemptNow ctx else s

end Sys2Proof.Machine
end

