-- ==== Sys2Proof/Machine/CoherEvents.lean ====
section
/-! DEFINITION. Coherence messages as events of their own (R187 to R201, R345), completions (R203), the host's accesses (R197, R330),
link errors and timeouts (R198) and page migration (R215). -/

namespace Sys2Proof.Machine

def coreEvent (c : Nat) (s : State) (f : State → State) : Out := if c < Config.cores then .next (f s) else .fault .noSuchParty
/-- A request of a die, or of core c's L1, at a view on the line of an address: nothing where the address reaches no line or the
access meets a fault; its walk leaves its marks (R198, R250, R265, R310). -/
def State.onLine (s : State) (d : Nat) (c : Option Nat) (asid : BitVec 16) (va : VA) (a : Acc) (v : BitVec 3)
    (f : State → Nat → Tag → State) : State :=
  if isSpad va || !homeOk va || fld va 48 20 ≠ 0 || s.linkDown d va then s
  else
    let s := s.translate asid va a
    match s.access d c asid va a v with
    | .ok r => if r.reg.isSome then s else f s r.line (tagOf asid va r)
    | .error _ => s
/-- A message between the home of a line and a die, over a link that is up; an owner's data reaches the line's backing (R198, R215). -/
def State.onLink (s : State) (l d : Nat) (f : State → State) : State :=
  if s.linkIsDown (lineDie l) d || ((s.dirFind l).any (·.owned) && s.backDown l) then s else f s
/-- Bytes of one line from an address. -/
def lineBytes (va : VA) (bs : List Byte) : List (Nat × Byte) := offsetBytes (fld va 0 7) (bs.take (128 - fld va 0 7))

/-! ## Requests -/

/-- The context whose counters a request of a core counts in: the one that it runs. -/
def State.coreCtx (s : State) (c : Nat) : Nat := 4 * c + (s.core c).cur
/-- READ_REQUEST of a core at a view: a miss, or an upgrade where its copy under the tag does not serve the view (R186, R196). The
request carries no class: a new copy is in invalidate mode with PRIO 0, an upgraded one keeps its own (log 68). -/
def State.readAt (s : State) (c l : Nat) (t : Tag) (v : BitVec 3) : State :=
  match (s.l1Find c l).filter (·.tagged t.asid t.va) with
  | none => (s.bump 5 (s.coreCtx c) 1).readRequest none c l t v false 0
  | some x => if x.view == 0 || x.view == effView t.hf v then s
    else (s.bump 6 (s.coreCtx c) 1).readRequest none c l t 0 x.update x.prio
def execReadRequest (core : Nat) (asid : BitVec 16) (va : VA) (view : BitVec 3) (s : State) : Out :=
  coreEvent core s fun s => if view.toNat ≤ 4 then s.onLine (core / 32) (some core) asid va .read view fun s l t => s.readAt core l t view else s
/-- UPGRADE: a holder at a reduced view, or one that has lost its copy, obtains FULL (R190). -/
def State.upgradeAt (s : State) (c l : Nat) (t : Tag) : State :=
  match (s.l1Find c l).filter (·.tagged t.asid t.va) with
  | none => (s.bump 6 (s.coreCtx c) 1).readRequest none c l t 0 false 0
  | some x => if x.view == 0 then s else (s.bump 6 (s.coreCtx c) 1).readRequest none c l t 0 x.update x.prio
def execUpgrade (core : Nat) (asid : BitVec 16) (va : VA) (s : State) : Out :=
  coreEvent core s fun s => s.onLine (core / 32) (some core) asid va .read 0 fun s l t => s.upgradeAt core l t
/-- STORE_HEADER: a core's store of bytes within a line. -/
def execStoreHeader (core : Nat) (asid : BitVec 16) (va : VA) (bytes : List Byte) (s : State) : Out :=
  coreEvent core s fun s => s.onLine (core / 32) (some core) asid va .write 0 fun s l t =>
    let bs := lineBytes va bytes
    if s.writeDown (core / 32) (some core) l t (some bs) then s
    else s.behind .unit (some (core / 32)) l t bs ((s.storeLine none (some core) (core / 32) l t bs).shootdown l)
/-- WRITE_THROUGH: a store of a die that no L1 holds (R194). -/
def execWriteThrough (die : Nat) (asid : BitVec 16) (va : VA) (bytes : List Byte) (s : State) : Out :=
  dieEvent die s fun s => s.onLine die none asid va .write 0 fun s l t =>
    let bs := lineBytes va bytes
    if s.writeDown die none l t (some bs) then s else (s.lineStore die l t bs).shootdown l
def execOwnershipRequest (core : Nat) (asid : BitVec 16) (va : VA) (s : State) : Out :=
  coreEvent core s fun s => s.onLine (core / 32) (some core) asid va .write 0 fun s l t =>
    if s.writeDown (core / 32) (some core) l t none then s else s.ownRequest none core l t

/-! ## Snoops and their answers -/

/-- A snoop that finds no copy answers *not held*, and the home clears the bit. -/
def State.notHeld (s : State) (d l : Nat) : State :=
  match s.dirFind l with
  | some e => s.dirPut (e.drop d)
  | none => s
/-- PRECISION_SNOOP: the sharer die's proxy takes the whole new line, which the snoop carries, and replays the store of the masked
bytes on its tightrope (R191, R194). -/
def State.snooped (s : State) (d l : Nat) (mask : BitVec 128) (data : Vec) : State :=
  let s := (s.crossed (lineDie l) d).crossed d (lineDie l)
  match s.prFind d l with
  | none => s.notHeld d l
  | some p =>
    let offs := (List.range 128).filter fun i => mask.getLsbD i
    if p.st == .S then
      (s.prPut d { p with data := viewLine p.hf p.view data }).storeHeader d l p.hf offs (widenLine p.hf p.view p.data) data
    else s
def execPrecisionSnoop (die lid : Nat) (mask : BitVec 128) (data : BitVec 1024) (s : State) : Out :=
  dieEvent die s fun s => s.onLink lid die fun s => s.snooped die lid mask data
/-- BACK_INVALIDATION of a die's copy, an owner writing back first, or of the host's (die number 4). -/
def State.backInv (s : State) (d l : Nat) : State :=
  match s.dirFind l with
  | none => s
  | some e =>
    if d = 4 then (s.hostInv e).1
    else
      let (s, e) := if e.owned && e.owner == d then s.recallOwner e else (s, e)
      if e.has d then
        let e := e.drop d
        (s.invRemote none e d).dirPut { e with st := if e.sharers == 0 then .I else e.st }
      else s
def execBackInvalidation (die lid : Nat) (s : State) : Out :=
  if die ≤ 4 then .next (s.onLink lid (die % 4) fun s => s.backInv die lid) else .fault .noSuchParty
/-- RECALL of a line's owner, which stays a FULL sharer (R194). -/
def execRecall (lid : Nat) (s : State) : Out :=
  .next (match s.dirFind lid with | some e => s.onLink lid e.owner fun s => (s.recallOwner e).1 | none => s)
/-- GRANT: the die's proxy becomes the line's owner, and the line stands in its L2 slice (R181, R194). -/
def State.grant (s : State) (l d : Nat) (t : Tag) : State :=
  if lineDie l = d then s else ((s.synonym none l t).l2Pass d l).homeOwn none l d t
/-- It would need a message across a link that is down (R198). -/
def State.grantDown (s : State) (l d : Nat) : Bool := s.passDown d l || s.msgDown d l false fun _ _ => true
def execGrant (die : Nat) (asid : BitVec 16) (va : VA) (s : State) : Out :=
  dieEvent die s fun s => s.onLine die none asid va .write 0 fun s l t => if s.grantDown l die then s else s.grant l die t
/-- No party owns a line exclusively. -/
def State.unowned (s : State) (l : Nat) : Bool :=
  !(s.cores.any fun c => c.2.l1.any fun x => x.line == l && x.st != .S) &&
  match s.dirFind l with | some e => !e.owned | none => true
/-- A copy or the entry of a line stands under another tag (R196). -/
def State.otherTag (s : State) (l : Nat) (t : Tag) : Bool :=
  let other (x : Copy) : Bool := x.line == l && !x.tagged t.asid t.va
  (s.cores.any fun c => c.2.l1.any other) || (s.dies.any fun d => d.2.proxies.any other) ||
    (s.dirFind l).any fun e => e.tagged && (e.asid != t.asid || e.va != t.va)
/-- DATA_RESPONSE: the requester's L1 takes the line at its view, where its die may hold it there and no copy stands under another
tag. It carries no class (log 68). -/
def State.respond (s : State) (c l : Nat) (t : Tag) (v : BitVec 3) : State :=
  let v := effView t.hf v
  let d := c / 32
  let may := if lineDie l = d then (match s.dirFind l with | some e => e.loc | none => true)
    else match s.prFind d l with | some p => p.view == 0 || p.view == v | none => false
  if s.unowned l && may && (s.l1Find c l).isNone && !s.otherTag l t then
    (s.crossed (lineDie l) d).l1Place c ⟨l, t.asid, t.va, .S, t.hf, v, false, 0, viewLine t.hf v (s.lineNow l)⟩
  else s
def execDataResponse (core : Nat) (asid : BitVec 16) (va : VA) (view : BitVec 3) (s : State) : Out :=
  coreEvent core s fun s => if view.toNat ≤ 4 then s.onLine (core / 32) (some core) asid va .read view fun s l t => s.respond core l t view else s
/-- OWNER_EVICTION. -/
def execOwnerEviction (die lid : Nat) (s : State) : Out := dieEvent die s fun s => s.onLink lid die fun s => s.evictOwner die lid
/-! ## The host (R197, R330) -/

/-- The address of an HDM offset. -/
def hdmVA (off : BitVec 39) : VA := BitVec.ofNat 72 (fld off 0 37 + 2 ^ 68 * fld off 37 2)
/-- The HDM offset of an address. -/
def hdmOff (va : VA) : BitVec 39 := BitVec.ofNat 39 (fld va 0 37 + 2 ^ 37 * fld va 68 2)
/-- HFAULT latches the first fault. -/
def State.hostFault (s : State) (off : BitVec 39) (cause : Nat) : State :=
  s.updDie (fld off 37 2) fun k =>
    if k.hfault.getLsbD 63 then k else { k with hfault := BitVec.ofNat 64 (off.toNat + 2 ^ 39 * cause + 2 ^ 63) }
/-- The home of an address. -/
def homeDie (va : VA) : Nat := if vaHome va = 8 then 0 else vaHome va
/-- A host access of a line would wait on a message across a link that is down, for what it displaces too; a read allocates an entry
(R5, R181, R194, R198). -/
def State.hostDown (s : State) (l : Nat) (read : Bool) (told : DirEnt → Nat → Bool) : Bool :=
  let h := lineDie l
  s.linkIsDown 0 h || s.passDown h l || s.msgDown h l false (fun e x => x != 4 && told e x) ||
    (read && (s.dirFind l).isNone && s.roomDown l)
/-- A host write of bytes of a line would. -/
def State.hostStoreDown (s : State) (l : Nat) (hf : BitVec 2) (bs : List (Nat × Byte)) : Bool :=
  let cells := s.kept l bs
  s.hostDown l false fun e x => changedAt hf (e.fmtOf x) (cells.map (·.1)) (s.lineNow l) (mergeLine (s.lineNow l) cells)
/-- A read of a line for the host (R194): an owner is recalled and the host becomes a sharer. -/
def State.hostReadLine (s : State) (l : Nat) : State :=
  let (s, e) := (((s.crossed 0 (lineDie l)).l2Use (lineDie l) l).recallHome l).dirAlloc none l
  let (s, e) := s.recallOwner e
  (s.crossed (lineDie l) 0).dirPut { e.add 4 with st := .S }
/-- A host access to a die that has come up is made; one to another die waits (R336). -/
def State.hostReady (s : State) (off : BitVec 39) : Bool := decide ((s.die (fld off 37 2)).svc ≠ 0)
/-- The bytes of a host read, line by line, or its fault. -/
def State.hostReadSegs (s : State) : List (VA × Nat) → List Byte → State × Except Nat (List Byte)
  | [], acc => (s, .ok acc)
  | g :: t, acc =>
    if s.linkIsDown 0 (homeDie g.1) || s.markDown 0 g.1 .read then (s, .error 256)
    else
      let s := s.translate 0 g.1 .read
      match s.place 0 g.1 .read with
      | .error c => (s, .error c)
      | .ok r =>
        match r.reg with
        | some (d, o) => s.hostReadSegs t (acc ++ s.windowLoad d o g.2)
        | none =>
          if s.hostDown r.line true fun _ _ => false then (s, .error 256)
          else match s.lineCause r.line true (s.ownedBy r.line) with
            | some c => (s.noteFault none 0 0 g.1 .read c, .error c)
            | none =>
              let s := (s.noteRead none 0 r.line (s.ownedBy r.line)).hostReadLine r.line
              s.hostReadSegs t (acc ++ (List.range g.2).map fun i => lineByte (s.homeLine r.line) (fld g.1 0 7 + i))
/-- HOST_READ: the data, or poison; held where the die is not up. -/
def State.hostRead (s : State) (off : BitVec 39) (n : Nat) : State :=
  if s.sleep != .awake then { s with hostData := [], hostPoison := true }
  else if !s.hostReady off then { s with hostHeld := s.hostHeld ++ [.read off n] }
  else match s.hostReadSegs (segs (hdmVA off) n) [] with
    | (s, .ok bs) => { s with hostData := bs, hostPoison := false }
    | (s, .error c) => { s.hostFault off c with hostData := [], hostPoison := true }
def execHostRead (off : BitVec 39) (n : Nat) (s : State) : Out := .next (s.hostRead off n)
/-- A write-through from the host (R194): no entry is allocated, and the host's own copy is not invalidated. -/
def State.hostStore (s : State) (l : Nat) (hf : BitVec 2) (bs : List (Nat × Byte)) : State :=
  let bs := s.kept l bs
  let old := s.lineNow l
  let new := mergeLine old bs
  let offs := bs.map (·.1)
  let s := ((s.crossed 0 (lineDie l)).l2Use (lineDie l) l).conflictIf none l fun w => changedAt hf w.view offs old new
  let s := match s.dirFind l with
    | none => ((s.recallHome l).homeMerge l bs).storeHeader (lineDie l) l hf offs old new
    | some e =>
      let (s, e) := (s.recallHome l).recallOwner e
      let s := s.homeMerge l bs
      let (s, e) := s.snoop e hf (some 4) true offs old new
      s.dirPut { e with st := if e.st == DState.I then DState.I else DState.S }
  (s.shootdown l).crossed (lineDie l) 0
/-- What keeps a host write of bytes from their line; a unit marked bad takes the rewrite (R265). -/
def State.hostWriteCause (s : State) (va : VA) (bs : List Byte) : Option Nat :=
  if s.linkIsDown 0 (homeDie va) || s.markDown 0 va .write then some 256
  else match s.place 0 va .write with
    | .error c => some c
    | .ok r => if r.reg.isSome then none
      else
        if s.hostStoreDown r.line r.hf (lineBytes va bs) then some 256
        else (s.lineCause r.line false false).filter (· != 203)
/-- What the parts of a host write that is dropped leave behind: the marks of the walks up to the part that faults (R265, R310). -/
def State.hostWriteMarks (s : State) : List (VA × List Byte) → State
  | [] => s
  | g :: t =>
    let s' := s.translateFor 0 0 g.1 .write
    match s.hostWriteCause g.1 g.2 with
    | some c => s'.noteFault none 0 0 g.1 .write c
    | none => s'.hostWriteMarks t
def State.hostWriteLine (s : State) (va : VA) (bs : List Byte) : State :=
  let s := s.translate 0 va .write
  match s.place 0 va .write with
  | .error _ => s
  | .ok r => match r.reg with
    | some (d, o) => s.windowStore d o bs
    | none => s.behind .unit none r.line ⟨0, va, r.hf⟩ (lineBytes va bs) (s.hostStore r.line r.hf (lineBytes va bs))
/-- HOST_WRITE: line by line, dropped on a fault, held where the die is not up. -/
def State.hostWrite (s : State) (off : BitVec 39) (bs : List Byte) : State :=
  if s.sleep != .awake then s
  else if !s.hostReady off then { s with hostHeld := s.hostHeld ++ [.write off bs] }
  else
    let va := hdmVA off
    let parts := (segOffs va bs.length).map fun g => (qoff va (g.1 : Int), (bs.drop g.1).take g.2)
    match parts.findSome? fun g => s.hostWriteCause g.1 g.2 with
    | some c => (s.hostWriteMarks parts).hostFault off c
    | none => parts.foldl (fun s g => s.hostWriteLine g.1 g.2) s
def execHostWrite (off : BitVec 39) (bytes : List Byte) (s : State) : Out := .next (s.hostWrite off bytes)
/-- The die of a host access has come up. -/
def HostAcc.ready (s : State) (x : HostAcc) : Bool := match x with | .read off _ | .write off _ => s.hostReady off
/-- The first of the host accesses that waited and whose die is now up is made (R336, log 30). -/
def State.heldAccess (s : State) : Option State :=
  (s.hostHeld.find? (HostAcc.ready s)).map fun x =>
    let t := { s with hostHeld := s.hostHeld.eraseP (HostAcc.ready s) }
    match x with
    | .read off n => t.hostRead off n
    | .write off bs => t.hostWrite off bs
/-- HOST_SNOOP of a host-homed line: every copy on the part goes, dirty data first to the host, and the host's line is then
the one the snoop brings (R197, R345). A snoop that would need a message over a link that is down is dropped (log 69). -/
def State.hostSnoop (s : State) (pa : Nat) (data : Vec) : State :=
  let l := Config.hostKey / 128 + pa % 2 ^ 52 / 128
  if s.evictDown 0 l then s
  else (s.l2Evict 0 l).devWrite ((allBytes data).map fun b => (l * 128 + b.1, b.2))
def execHostSnoop (pa : Nat) (data : BitVec 1024) (s : State) : Out := .next (s.hostSnoop pa data)

/-! ## Completion of held writes (R203, R263) -/

/-- A link that it needs has gone down meanwhile (R198). -/
def State.heldDown (s : State) (h : HeldWrite) : Bool :=
  match h.die with
  | some d => s.writeDown d (h.ctx.map coreOf) h.line ⟨h.asid, h.va, h.hf⟩ (some h.bytes)
  | none => s.hostStoreDown h.line h.hf h.bytes
/-- A held write that is lost so: cause 256 is owed to its context, ends its command, or stands in HFAULT (log 63). -/
def State.heldLost (s : State) (h : HeldWrite) : State :=
  match h.ctx, h.cmd.bind s.cmd, h.die with
  | some n, _, _ => s.updCtx n fun c => { c with engFaults := c.engFaults ++ [(256, h.va)] }
  | none, some c, _ => s.abandon c ⟨256, h.va, .write, []⟩
  | none, none, none => s.hostFault (hdmOff h.va) 256
  | none, none, some _ => s
/-- A held write performs, a context's from its core. -/
def State.performHeld (s : State) (h : HeldWrite) : State :=
  if s.heldDown h then s.heldLost h
  else match h.die with
    | some d => (s.storeLine h.ctx (h.ctx.map coreOf) d h.line ⟨h.asid, h.va, h.hf⟩ h.bytes).shootdown h.line
    | none => s.hostStore h.line h.hf h.bytes
/-- It may perform: it waits for no group any more, and none of `s.heldWrites`, the writes before it that still wait, stands before
it. -/
def State.heldReady (s : State) (h : HeldWrite) : Bool :=
  !h.waits s && !s.heldWrites.any fun x => x.before_ s h.line (h.keys s)
/-- Held writes in the order in which they came, with those before them that still wait: those of the home `d` that may perform
do. -/
def State.completeFrom (s : State) (d : Nat) : List HeldWrite → State
  | [] => s
  | h :: t =>
    if lineDie h.line == d && s.heldReady h then (s.performHeld h).completeFrom d t
    else { s with heldWrites := s.heldWrites ++ [h] }.completeFrom d t
/-- The home of a released store: of a scratchpad store the context's die. -/
def GateEnt.home (g : GateEnt) (n : Nat) : Nat := if g.spad then dieOf n else if vaHome g.va = 8 then 0 else vaHome g.va
/-- WRITE_COMPLETION at a home: the held writes that may perform do, and then the released stores that waited for them. -/
def State.completeWrites (s : State) (d : Nat) : State :=
  let s := { s with heldWrites := [] }.completeFrom d s.heldWrites
  (s.ctxs.map (·.1)).foldl (fun s n => match (s.ctx n).out with
    | g :: _ => if g.home n = d then s.drainOut n else s
    | [] => s) s
def execWriteCompletion (die : Nat) (s : State) : Out := dieEvent die s fun s => s.completeWrites die

/-! ## Links and timeouts (R198) -/

/-- A flit of the link between two dies fails its CRC: it is replayed, and after eight failed replays the link is down; die a, from which
it was sent, posts the record (log 78). -/
def State.flitFails (s : State) (a b : Nat) : State :=
  let k := sget .zero s.links (linkKey a b)
  if k.down then s
  else if k.replays < 8 then
    ({ s with links := sput .zero s.links (linkKey a b) { k with replays := k.replays + 1, replayed := k.replayed + 1 } }).bump 17 (128 * a) 1
  else
    ({ s with links := sput .zero s.links (linkKey a b) { k with down := true } }).postError a (errRec 256 0 0 0)
def execFlitCrcFailure (a b : Nat) (s : State) : Out :=
  if a < 4 ∧ b < 4 ∧ a ≠ b then .next (s.flitFails a b) else .fault .noSuchParty
def execCoherenceTimeout (ctx : Nat) (va : VA) (s : State) : Out := ctxEvent ctx s fun s => s.faultReturn ctx 257 va .read
def execHostSnoopTimeout (ctx : Nat) (va : VA) (s : State) : Out := ctxEvent ctx s fun s => s.faultReturn ctx 258 va .read

/-! ## Page migration (R215, R311) -/

/-- Cells of a range of keys moved to another place. -/
def moveCells (m : List Host.Cell) (src dst n : Nat) : List Host.Cell :=
  let here := m.filter fun (c : Host.Cell) => decide (src ≤ c.1) && decide (c.1 < src + n)
  here.foldl (fun (m : List Host.Cell) (c : Host.Cell) => wrByte m (c.1 - src + dst) c.2)
    (m.filter fun (c : Host.Cell) => !(decide (dst ≤ c.1) && decide (c.1 < dst + n)))
/-- Lines take new names, with all that the part holds of them: directory entries, copies, watches and writes in hand. An entry that
finds its new set full displaces one there by R195 (log 29). -/
def State.renameLines (s : State) (f : Nat → Nat) : State :=
  let copy (x : Copy) : Copy := { x with line := f x.line }
  let line (g : GateEnt) : GateEnt := if g.spad || g.isReg then g else { g with line := f g.line }
  let moved := (s.dir.flatMap (·.2)).filter fun e => f e.line != e.line
  let s := moved.foldl (fun (s : State) e => s.dirDel e.line) s
  let s := { s with
    cores := s.cores.map fun (c : Nat × CoreSt) => (c.1, { c.2 with l1 := c.2.l1.map copy })
    dies := s.dies.map fun (d : Nat × DieSt) => (d.1, { d.2 with proxies := d.2.proxies.map copy, l2 := d.2.l2.map f })
    heldWrites := s.heldWrites.map fun h => { h with line := f h.line }
    ctxs := s.ctxs.map fun (e : Nat × Ctx) => (e.1, { e.2 with
      watch := e.2.watch.map fun w => if w.spad then w else { w with line := f w.line }
      gate := e.2.gate.map line
      out := e.2.out.map line }) }
  moved.foldr (fun e s => (s.dirRoom none (f e.line)).dirPut { e with line := f e.line }) s
/-- A page of 2^size bytes may move to a destination: a place of the die's processing memory, or host memory from Config.hostKey
on (log 29), aligned to the page. -/
def State.mayMove (s : State) (d : Nat) (e : Word64) (size dst : Nat) : Bool :=
  let src := fld e 16 36 * 65536
  let n := 2 ^ size
  !e.getLsbD 8 && decide (src < Config.regBase) && dst % n == 0 &&
  (if Config.hostKey ≤ dst then decide (dst + n ≤ Config.hostKey + 2 ^ 52)
    else inPM (dst + n - 1) && !inReserved dst && !inReserved (dst + n - 1) &&
      (dst == src || !(List.range (n / 65536)).any fun i => sget 0 s.backing ((Config.dieKey d dst) / 65536 + i) != 0))
/-- A line of the n bytes from a key. -/
def pageHas (k n l : Nat) : Bool := decide (k / 128 ≤ l) && decide (l < (k + n) / 128)
/-- The leaf that places a page elsewhere in its die. -/
def Leaf.moved (f : Leaf) (dst : Nat) : List Byte := toLE 8 (setFld f.pte 16 36 (dst / 65536)).toNat
/-- A move to dst needs a message across a link that is down (R5, R198): host memory is reached through die 0, the destination's lines
return to memory, and where the page's lines take new names the leaf is written and their entries make room. -/
def State.moveDown (s : State) (d : Nat) (f : Leaf) (dst : Nat) : Bool :=
  let n := 2 ^ f.size
  let a := Config.dieKey d (fld f.pte 16 36 * 65536)
  let away := decide (Config.hostKey ≤ dst)
  let b := if away then dst else Config.dieKey d dst
  (s.linkIsDown 0 d && (away || (List.range (n / 65536)).any fun i => decide (Config.hostKey ≤ s.backKey (a + 65536 * i)))) ||
  s.flushDown (fun l => pageHas b n l && !pageHas a n l) ||
  (!away && a != b && (s.unitDown d (Config.dieKey d f.addr) (f.moved dst) ||
    s.dir.any fun x => x.2.any fun e => pageHas a n e.line && s.roomDown (e.line - a / 128 + b / 128)))
/-- A page's backing moves, under the block: its bytes, the names of its lines where its address in the die changes, then the
leaf. The destination's own lines return to memory first. -/
def State.migrate (s : State) (d : Nat) (asid : BitVec 16) (va : VA) (dst : Nat) : State :=
  if vaHome va ≠ d ∨ isSpad va then s
  else match s.walk asid va .read with
    | .error _ => s
    | .ok f =>
      let src := fld f.pte 16 36 * 65536
      let n := 2 ^ f.size
      let a := Config.dieKey d src
      let away := decide (Config.hostKey ≤ dst)
      let b := if away then dst else Config.dieKey d dst
      if !s.mayMove d f.pte f.size dst || s.moveDown d f dst then s
      else
        let s := s.flushLines fun l => pageHas b n l && !pageHas a n l
        let pages := List.range (n / 65536)
        let s := { s with
          mem := pages.foldl (fun m i => if s.backKey (a + 65536 * i) = b + 65536 * i then m
            else moveCells m (s.backKey (a + 65536 * i)) (b + 65536 * i) 65536) s.mem
          backing := pages.foldl (fun m i => sput 0 m (a / 65536 + i) (if away then (dst - Config.hostKey) / 65536 + i + 1 else 0)) s.backing }
        if away ∨ src = dst then s
        else (s.renameLines fun l => if pageHas a n l then l - a / 128 + b / 128 else l).unitWrite d (Config.dieKey d f.addr)
          (f.moved dst)
def execPageMigration (die : Nat) (asid : BitVec 16) (va : VA) (dst : Nat) (s : State) : Out :=
  dieEvent die s fun s => s.migrate die asid va dst

end Sys2Proof.Machine
end

