-- ==== Sys2Proof/Machine/HostSys.lean ====
section
/-! DEFINITION. The host's side of the part (R329 to R344): register windows, queue binding, address-space tables, the management
mailbox, power, sleep and wake, bring-up, firmware, attestation, and the common trigger. -/

namespace Sys2Proof.Machine

/-! ## Queue binding (R22, R332) -/

/-- The checks of a descriptor by the die whose QBIND was written (R22, R330, R332). -/
def descOk (x : BitVec 512) (d : Nat) : Bool :=
  let ring := va16 (fld x 0 56)
  homeOk ring && !isSpad ring && (if vaHome ring = 8 then 0 else vaHome ring) == d && fld x 128 16 != 0 && fld x 160 32 == 0 &&
    fld x 192 320 == 0
/-- A bind of queue q to the descriptor at a PA: ignored for a number that is bound. -/
def State.bindQueue (s : State) (d q pa : Nat) : State :=
  if (s.queue q).bound then s
  else
    let key := Config.dieKey d pa
    let x : BitVec 512 := BitVec.ofNat 512 (leNat (s.unitRead key 64))
    let ok (k : Nat) : Bool := (s.locCause k false true (s.ownedBy (k / 128))).isNone
    if inPM pa && ok key && ok (key + 32) && !s.unitReadDown d (key / 128) && descOk x d then
      let rd : BitVec 32 := x.extractLsb' 64 32
      s.updQueue q fun _ => { Queue.zero with
        bound := true, enabled := true, die := d, descPA := pa, desc := x, rd := rd, next := rd,
        wr := x.extractLsb' 96 32, waitAt := s.clk }
    else s.postError d (errRec 326 0 0 0)
/-- An unbind: the number is released when no launch of the queue runs. -/
def State.unbindQueue (s : State) (d q : Nat) : State :=
  let u := s.queue q
  if !u.bound || u.die != d then s
  else if s.running q then s.updQueue q fun u => { u with unbinding := true }
  else s.updQueue q fun _ => .zero
/-- A write to QBIND; reserved bits that are not zero make it nothing. -/
def State.qbind (s : State) (d : Nat) (v : Word64) : State :=
  if fld v 55 8 ≠ 0 then s
  else if v.getLsbD 63 then s.bindQueue d (fld v 42 13) (fld v 0 42 * 64)
  else s.unbindQueue d (fld v 42 13)
def execQbindBind (die : Nat) (v : BitVec 64) (s : State) : Out :=
  windowEvent die s fun s => if v.getLsbD 63 then s.qbind die v else s
def execQbindUnbind (die : Nat) (v : BitVec 64) (s : State) : Out :=
  windowEvent die s fun s => if v.getLsbD 63 then s else s.qbind die v

/-! ## The ASID table and the TLBs (R306, R333) -/

def asidEntry (d : Nat) (v : Word64) : Nat := Config.dieKey d (Config.rsvBase + 16 * fld v 0 16)
/-- The entry is stored whole and the die's translations of the address space are dropped. -/
def State.asidStore (s : State) (d : Nat) (v : Word64) : State :=
  let k := s.die d
  let s := { s with mem := wrBytes s.mem (asidEntry d v) (toLE 8 k.asidlo.toNat ++ toLE 8 k.asidhi.toNat) }
  s.tlbDrop d fun a => a == v.extractLsb' 0 16
def State.asidLoad (s : State) (d : Nat) (v : Word64) : State :=
  let word (o : Nat) : Word64 := BitVec.ofNat 64 (leNat (rdBytes s.mem (asidEntry d v + o) 8))
  s.updDie d fun k => { k with asidlo := word 0, asidhi := word 8 }
def State.asidsel (s : State) (d : Nat) (v : Word64) : State :=
  let s := s.updDie d fun k => { k with asidsel := v }
  if v.getLsbD 63 then s.asidStore d v else s.asidLoad d v
def execAsidselWrite (die : Nat) (v : BitVec 64) (s : State) : Out :=
  windowEvent die s fun s => if v.getLsbD 63 then s.asidsel die v else s
def execAsidselLoad (die : Nat) (v : BitVec 64) (s : State) : Out :=
  windowEvent die s fun s => if v.getLsbD 63 then s else s.asidsel die v
def State.tlbInv (s : State) (d : Nat) (v : Word64) : State :=
  (s.updDie d fun k => { k with tlbinv := v }).tlbDrop d fun a => v.getLsbD 63 || a == v.extractLsb' 0 16
def execTlbinv (die : Nat) (v : BitVec 64) (s : State) : Out := windowEvent die s fun s => s.tlbInv die v

/-! ## Reading and writing registers of a window (R331, R334) -/

/-- The security version of the firmware that runs (R341). -/
def fwSV (fw : List Byte) : Nat := bits (leNat (fw.take 64)) 63 32
def State.idReg (s : State) (d : Nat) : Word64 :=
  BitVec.ofNat 64 (d + 4 * (s.grade % 4) + 2 ^ 8 * Config.stepping.toNat + 2 ^ 32 * (fwSV s.fw % 2 ^ 16))
def State.pwrReg (s : State) : Word64 := BitVec.ofNat 64 (s.avg.toNat + 2 ^ 16 * s.cap + 2 ^ 32 * s.mhz)
/-- What a read of an aligned register returns; write-only and unlisted offsets read zero. -/
def State.windowReg (s : State) (d off : Nat) : Word64 :=
  let k := s.die d
  if off = 0 then s.idReg d
  else if off = 0x8 then BitVec.ofNat 64 (k.boot + 8 * k.bootCause)
  else if off = 0x10 then BitVec.ofNat 64 k.svc
  else if off = 0x18 then BitVec.ofNat 64 Config.rsvBase
  else if off = 0x20 then s.pwrReg
  else if off = 0x28 then k.hfault
  else if off = 0x50 then k.asidlo
  else if off = 0x58 then k.asidhi
  else if off = 0x60 then k.tlbinv
  else if off = 0x100 then k.fring
  else if off = 0x108 then k.frwr
  else if off = 0x110 then k.frrd
  else if off = 0x120 then k.ering
  else if off = 0x128 then k.erwr
  else if off = 0x130 then k.errd
  else if off = 0x138 then k.erdrop
  else if off = 0x208 then k.mbstat
  else if 0x210 ≤ off ∧ off ≤ 0x228 ∧ off % 8 = 0 then sget 0 k.mbarg ((off - 0x210) / 8)
  else if 0x1000 ≤ off ∧ off ≤ 0x17FF ∧ off % 8 = 0 then sget 0 k.snap ((off - 0x1000) / 8)
  else if Config.doorbellOff ≤ off then s.doorRead d off
  else 0
/-- What answers in state FAILED (R335): ID, BOOTSTAT and what the mailbox commands take, MBARG and MBSTAT (log 36). -/
def answersFailed (off : Nat) (write : Bool) : Bool :=
  (decide (0x210 ≤ off) && decide (off ≤ 0x228)) || (!write && (off == 0 || off == 8 || off == 0x208))
def State.answers (s : State) (d off : Nat) (write : Bool) : Bool :=
  s.windowOpen d || (s.windowReached d && answersFailed off write)
/-- A host read of a register: its bytes, or all ones from a register that does not answer. -/
def State.hostReg (s : State) (d off : Nat) : State :=
  { s with hostData := if s.answers d off false then toLE 8 (s.windowReg d off).toNat else List.replicate 8 0xFF, hostPoison := false }
def execTlbinvRead (die : Nat) (s : State) : Out := dieEvent die s fun s => s.hostReg die 0x60
/-- A read of HFAULT clears it. -/
def execHfaultRead (die : Nat) (s : State) : Out :=
  dieEvent die s fun s =>
    let r := s.hostReg die 0x28
    if s.windowOpen die then r.updDie die fun k => { k with hfault := 0 } else r
def execErdropClear (die : Nat) (s : State) : Out := windowEvent die s fun s => s.updDie die fun k => { k with erdrop := 0 }
/-- Bits of FRING and ERING that hold fields (R334). -/
def ringBits : Word64 := 0x80FFFFFFFFFFF000
/-- A write to a register with no behaviour of its own; every other offset ignores it (R331). -/
def State.windowReg_ (s : State) (d off : Nat) (v : Word64) : State :=
  if off = 0x50 then s.updDie d fun k => { k with asidlo := v }
  else if off = 0x58 then s.updDie d fun k => { k with asidhi := v }
  else if off = 0x100 then (s.updDie d fun k => { k with fring := v &&& ringBits }).fringFlush d
  else if off = 0x120 then s.updDie d fun k => { k with ering := v &&& ringBits }
  else if off = 0x130 then s.updDie d fun k => { k with errd := v }
  else if 0x210 ≤ off ∧ off ≤ 0x228 ∧ off % 8 = 0 then
    s.updDie d fun k => { k with mbarg := sput 0 k.mbarg ((off - 0x210) / 8) v }
  else s
def execRegisterWrite (die : Nat) (off : BitVec 24) (v : BitVec 64) (s : State) : Out :=
  dieEvent die s fun s => if s.answers die off.toNat true then s.windowReg_ die off.toNat v else s
/-- The driver makes room in the fault ring: held batches are written. -/
def State.frrd (s : State) (d : Nat) (v : Word64) : State := (s.updDie d fun k => { k with frrd := v }).fringFlush d
def execFrrdWrite (die : Nat) (v : BitVec 64) (s : State) : Out := windowEvent die s fun s => s.frrd die v

/-! ## Firmware (R341) -/

def fwPlen (fw : List Byte) : Nat := bits (leNat (fw.take 64)) 95 64
/-- The header's rules and the image's length. -/
def fwShape (fw : List Byte) : Bool :=
  let h := leNat (fw.take 64)
  let p := fwPlen fw
  h % 2 ^ 16 == 0x4657 && bits h 31 17 == 0 && h / 2 ^ 96 == 0 && p % 16 == 0 && decide (16 ≤ p) && decide (p ≤ 2 ^ 23) &&
    fw.length == 7283 + p
def fwKey (fw : List Byte) : List Byte := (fw.drop (64 + fwPlen fw)).take 2592
/-- The acceptance of an image. -/
def State.fwOk (s : State) (fw : List Byte) : Bool :=
  fwShape fw && Config.sha3 (fwKey fw) == s.keyDigest &&
  Config.verify (fwKey fw) (Config.sha3 (fw.take (64 + fwPlen fw))) (fw.drop (2656 + fwPlen fw)) &&
  decide (s.minSV.toNat ≤ fwSV fw)

/-! ## Bring-up (R287, R335, R336, R338) -/

def gradeCap (g : Nat) : Nat := if g = 0 then 550 else 300
/-- The logic dies without power: what the devices, the fuses, the always-on islands and the outside hold remains. -/
def State.unpowered (s : State) : State :=
  { State.reset with
    clk := s.clk, agenda := s.agenda, mem := s.mem, nextCmd := s.nextCmd, nextLaunch := s.nextLaunch,
    backing := s.backing, devFaults := s.devFaults, cap := s.cap, wakes := s.wakes, fw := s.fw, fwNext := s.fwNext, minSV := s.minSV,
    keyDigest := s.keyDigest, grade := s.grade, msi := s.msi, hostHeld := s.hostHeld, hostData := s.hostData, hostPoison := s.hostPoison,
    dies := s.dies.map fun (d : Nat × DieSt) => (d.1, { DieSt.zero with rtBad := d.2.rtBad }) }
/-- Bytes of the reserved areas are cleared (R335). -/
def clearReserved (m : List Host.Cell) : List Host.Cell :=
  m.filter fun c => decide (Config.hostKey ≤ c.1) || !inReserved (c.1 % 2 ^ 48)
def State.eachDie (s : State) (f : Nat → DieSt → DieSt) : State := (List.range 4).foldl (fun s d => s.updDie d (f d)) s
/-- Bring-up fails on every die with a cause, which an error record carries as well (R328). -/
def State.bootFails (s : State) (cause : Nat) : State :=
  (List.range 4).foldl (fun s d => s.postError d (errRec cause 0 0 0))
    (s.eachDie fun _ k => { k with boot := 6, bootCause := cause, svc := 0 })
/-- VERIFY and TRAIN: bring-up fails, or TRAIN clears the reserved area after a cold reset, die 0 enters reduced service and the
others stay in TRAIN. -/
def State.bringUp (s : State) (cold : Bool) : State :=
  if !s.fwOk s.fw then s.bootFails 331
  else if 2 ≤ s.grade then s.bootFails 330
  else
    let s := if (leNat (s.fw.take 64)).testBit 16 then { s with minSV := BitVec.ofNat 32 (max s.minSV.toNat (fwSV s.fw)) } else s
    ({ s with mhz := 950, mem := if cold then clearReserved s.mem else s.mem }).eachDie fun d k =>
      if d = 0 then { k with boot := 3, bootCause := 0, svc := 1 } else { k with boot := 2, bootCause := 0, svc := 0 }
/-- A cold reset: nothing of the logic dies remains, the tables are cleared, a staged image becomes the image, the cap is the
grade's maximum. -/
def State.coldReset (s : State) : State :=
  let s := s.unpowered
  { s with fw := if s.fwNext.isEmpty then s.fw else s.fwNext, fwNext := [], cap := gradeCap s.grade }.bringUp true
def execColdReset (s : State) : Out := .next (if s.sleep == .awake then s.coldReset else s)
/-- The engine reads its control block back, and BUSY clears in every node (R287). -/
def DieSt.rtReload (k : DieSt) : DieSt :=
  match k.rtSaved with
  | none => k
  | some (n, c) =>
    { k with rtNow := n, rtColl := c, rtSaved := none,
             rtNodes := k.rtNodes.map fun (e : Nat × RtNode) => (e.1, e.2.setBusy false) }
/-- Every die has reached TRAIN's end: full service. -/
def State.fullService (s : State) : State :=
  if s.sleep == .awake && (s.die 0).boot == 3 then
    ({ s with mhz := 1900 }).eachDie fun _ k => { k.rtReload with boot := 4, svc := 2 }
  else s
def execFullServiceEntry (s : State) : Out := .next s.fullService
/-- The check of each 1 ms (R338): a step down over the cap, a step up after ten checks at least 10 % under it. -/
def State.powerCheck (s : State) (avg : BitVec 16) : State :=
  if s.sleep != .awake then s
  else
    let s := { s with avg := avg }
    let w := avg.toNat
    if (s.die 0).svc ≠ 2 then { s with under := 0 }
    else if s.cap < w then { s with mhz := max 950 (s.mhz - 95), under := 0 }
    else if 10 * w ≤ 9 * s.cap then
      if 10 ≤ s.under + 1 then { s with mhz := min 1900 (s.mhz + 95), under := 0 } else { s with under := s.under + 1 }
    else { s with under := 0 }
def execPowerCheck (avg : BitVec 16) (s : State) : Out := .next (s.powerCheck avg)

/-! ## Sleep and wake (R339, R340) -/

/-- Nothing runs and no queue is enabled. -/
def State.mayRest (s : State) : Bool :=
  !(s.ctxs.any fun e => e.2.st != .idle || e.2.launch.isSome) && s.cmds.isEmpty &&
  !(s.queues.any fun e => e.2.bound && s.queueOn e.1)
/-- Writes that waited perform, copies return to memory, open batches close, and the logic dies power off; a control block that an
engine has not read back yet stays saved (R287). -/
def State.rest (s : State) (mode : Sleep) : State :=
  let s := ((List.range 4).foldl (fun (s : State) d => s.completeWrites d) s).flushLines fun _ => true
  let s := (List.range 4).foldl (fun s d => s.batchClose d) s
  let s := s.msiRaise 2
  let tables (d : Nat) (k : DieSt) : DieSt :=
    let o := s.die d
    { k with rtNodes := o.rtNodes, rtBuckets := o.rtBuckets, rtSaved := some (o.rtSaved.getD (o.rtNow, o.rtColl)), batchNo := o.batchNo }
  ({ s.unpowered with sleep := mode }).eachDie tables
/-- WAKE: a cold reset after deep sleep; after self-refresh the states from VERIFY, with what the devices kept. -/
def State.wakeUp (s : State) : State :=
  match s.sleep with
  | .awake => s
  | .deep => ({ s with sleep := .awake, wakes := s.wakes + 1 }).coldReset
  | .selfRefresh =>
    let s := ({ s with sleep := .awake, wakes := s.wakes + 1 }).bringUp false
    if (s.die 0).boot = 3 then s.updDie 0 DieSt.rtReload else s
def execWake (v : BitVec 64) (s : State) : Out := let _ := v; .next s.wakeUp

/-! ## The mailbox (R9, R337, R342) -/

def DieSt.arg (k : DieSt) (n : Nat) : Nat := (sget 0 k.mbarg n).toNat
/-- A command completes: BUSY clears, TAG and RESULT stand, the die's vector is raised where the die reaches the host (R5). -/
def State.mbDone (s : State) (d tag result : Nat) : State :=
  let t := s.updDie d fun k => { k with mbstat := BitVec.ofNat 64 (2 ^ 8 * (tag % 256) + 2 ^ 16 * result) }
  if s.linkIsDown d 0 then t else t.msiRaise (3 * d + 2)
def State.mbResult (s : State) (d n x : Nat) : State :=
  s.updDie d fun k => { k with mbarg := sput 0 k.mbarg n (BitVec.ofNat 64 x) }
/-- The cap a request is applied as (R9). -/
def capOf (grade w : Nat) : Nat := if w < 250 then 250 else if gradeCap grade < w then gradeCap grade else w / 5 * 5
/-- Bytes of host memory, read and written by a management core. -/
def State.hostBytes (s : State) (pa n : Nat) : List Byte := s.unitRead (Config.hostKey + pa % 2 ^ 52) n
def State.hostPut (s : State) (pa : Nat) (bs : List Byte) : State := s.unitWrite 0 (Config.hostKey + pa % 2 ^ 52) bs
def State.doSetcap (s : State) (tag : Nat) : State :=
  let w := capOf s.grade ((s.die 0).arg 0)
  (({ s with cap := w }).mbResult 0 0 w).mbDone 0 tag 0
def State.doSleep (s : State) (tag : Nat) : State :=
  let a := (s.die 0).arg 0
  if 2 ≤ a then s.mbDone 0 tag 2
  else if !s.mayRest then s.mbDone 0 tag 1
  else s.rest (if a = 0 then .selfRefresh else .deep)
/-- The chain, as many bytes as the length given, and its length. -/
def State.doGetcert (s : State) (d tag : Nat) : State :=
  let k := s.die d
  let bs := (List.range (min (k.arg 1) Config.certLength)).map Config.certByte
  ((s.hostPut (k.arg 0) bs).mbResult d 0 Config.certLength).mbDone d tag 0
/-- The signed part of a quote. -/
def State.quoteBody (s : State) (d : Nat) (nonce : List Byte) : List Byte :=
  nonce ++ toLE 64 Config.romDigest.toNat ++ toLE 64 (Config.sha3 s.fw).toNat ++
    toLE 64 (Config.configDigest s.keyDigest s.minSV s.grade s.cap).toNat ++
    toLE 8 (fwSV s.fw) ++ toLE 8 s.wakes.toNat ++ toLE 8 (s.idReg d).toNat ++ toLE 40 0
/-- The quote, written after the nonce. -/
def State.doQuote (s : State) (d tag : Nat) : State :=
  let pa := (s.die d).arg 0
  let body := s.quoteBody d (s.hostBytes pa 64)
  let sig := (List.range 4627).map (Config.signByte (Config.sha3 body))
  (s.hostPut (pa + 64) (body ++ sig)).mbDone d tag 0
/-- An image is read, checked and staged. -/
def State.doFwload (s : State) (tag : Nat) : State :=
  let k := s.die 0
  let n := k.arg 1
  let fw := if n ≤ 7283 + 2 ^ 23 then s.hostBytes (k.arg 0) n else []
  if s.fwOk fw then ({ s with fwNext := fw }).mbDone 0 tag 0 else s.mbDone 0 tag 3
/-- A write to MBCMD: ignored while a command runs, or where it does not reach the die or nothing answers (R5, R335, R339). -/
def State.mailbox (s : State) (d cmd tag rest : Nat) : State :=
  let k := s.die d
  if !s.windowReached d || k.boot < 2 || k.mbstat.getLsbD 0 then s
  else if k.boot = 6 ∧ ¬(cmd = 5 ∨ cmd = 6) then s
  else if rest ≠ 0 then s.mbDone d tag 2
  else if cmd = 0 ∨ 6 < cmd then s.mbDone d tag 4
  else if d ≠ 0 ∧ (cmd = 1 ∨ cmd = 2 ∨ cmd = 5 ∨ cmd = 6) then s.mbDone d tag 2
  else if cmd = 1 then s.doSetcap tag
  else if cmd = 2 then s.doSleep tag
  else if cmd = 3 then s.doGetcert d tag
  else if cmd = 4 then s.doQuote d tag
  else if cmd = 5 then s.doFwload tag
  else (s.mbDone d tag 0).coldReset
def execSetcap (die : Nat) (tag : Byte) (s : State) : Out := dieEvent die s fun s => s.mailbox die 1 tag.toNat 0
def execSleep (die : Nat) (tag : Byte) (s : State) : Out := dieEvent die s fun s => s.mailbox die 2 tag.toNat 0
def execGetcert (die : Nat) (tag : Byte) (s : State) : Out := dieEvent die s fun s => s.mailbox die 3 tag.toNat 0
def execQuote (die : Nat) (tag : Byte) (s : State) : Out := dieEvent die s fun s => s.mailbox die 4 tag.toNat 0
def execFwload (die : Nat) (tag : Byte) (s : State) : Out := dieEvent die s fun s => s.mailbox die 5 tag.toNat 0
def execReset (die : Nat) (tag : Byte) (s : State) : Out := dieEvent die s fun s => s.mailbox die 6 tag.toNat 0
/-- MAILBOX_UNKNOWN: any value written to MBCMD. -/
def execMailboxUnknown (die : Nat) (v : BitVec 64) (s : State) : Out :=
  dieEvent die s fun s => s.mailbox die (fld v 0 8) (fld v 8 8) (fld v 16 48)
/-- A management core restarts: an error record, and a command in progress is lost. -/
def State.watchdog (s : State) (d : Nat) : State :=
  if s.sleep != .awake then s
  else
    let k := s.die d
    let s := s.postError d (errRec 332 0 0 0)
    if k.mbstat.getLsbD 0 then s.mbDone d (fld k.mbstat 8 8) 5 else s
def execWatchdogExpired (die : Nat) (s : State) : Out := dieEvent die s fun s => s.watchdog die

/-! ## The common trigger (R343, R344) -/

def execHtrigFire (die : Nat) (s : State) : Out := windowEvent die s fun s => s.fireTrigger
def execHtrigArm (die : Nat) (s : State) : Out := windowEvent die s fun s => s.arm
def execTriggerFire (ctx : Nat) (s : State) : Out := ctxEvent ctx s fun s => s.fireTrigger
def execTriggerArm (ctx : Nat) (s : State) : Out := ctxEvent ctx s fun s => s.arm
/-- What waits in the queue of channel c of a die: groups of fired commands that have not started, and held writes (log 24). -/
def State.channelDepth (s : State) (d c : Nat) : Nat :=
  ((s.cmds.filter fun x => dieOf x.ctx == d && Instr.unit x.ins == .pm && x.st == .fired).map fun x =>
    (x.bges.filter fun b => b / 8 == c && !x.started.contains b).length).sum +
  (s.heldWrites.filter fun h => (h.keys s).any fun k =>
    decide (k < Config.hostKey) && k / 2 ^ 48 == d && paBge (k % 2 ^ 48) / 8 == c).length
def State.slotsHeld (s : State) (d : Nat) : Nat :=
  (List.range 64).foldl (fun a k => if s.queues.any fun e => e.2.bound && e.2.die == d && e.2.slot == some k then a + 2 ^ k else a) 0
/-- SNAPDIE of a die, by eight-byte word. -/
def State.snapDie (s : State) (d : Nat) : SMap Word64 :=
  let k := s.die d
  let w (n : Nat) : Word64 := BitVec.ofNat 64 n
  let depths := (List.range 8).map fun i => (8 + i, w (s.channelDepth d (2 * i) + 2 ^ 32 * s.channelDepth d (2 * i + 1)))
  let pcs := (s.ctxs.filter fun (e : Nat × Ctx) => dieOf e.1 == d).map fun (e : Nat × Ctx) => (128 + e.1 % 128, e.2.snap)
  ([(0, s.snapStat), (1, w (s.slotsHeld d)), (2, k.rtNow.setWidth 64), (3, w k.headers), (4, w k.batch.length)] ++ depths ++ pcs).foldl
    (fun (m : SMap Word64) (e : Nat × Word64) => sput 0 m e.1 e.2) []
/-- A pending latch is due. -/
def State.latchDue (s : State) : Bool := match s.latchAt with | some t => decide (t ≤ s.clk) | none => false
/-- Every die latches its snapshot registers in one clk. -/
def State.latch (s : State) : State :=
  let s := { s with snapValid := true, armed := false, latches := s.latches + 1, latchAt := none }
  let s := { s with
    cores := s.cores.map fun (c : Nat × CoreSt) => (c.1, { c.2 with esnap := c.2.ecnt })
    snapPC := s.ctxs.foldl (fun (m : SMap Word64) (e : Nat × Ctx) => sput 0 m e.1 e.2.snap) [] }
  s.eachDie fun d k => { k with snap := s.snapDie d }
def execSnapshotLatch (s : State) : Out := .next (if s.latchDue then s.latch else s)

end Sys2Proof.Machine
end

