-- ==== Sys2Proof/Machine/Dispatch.lean ====
section
/-! DEFINITION. One arm per constructor of Instr, each one direct call of that instruction's meaning. -/

namespace Sys2Proof.Machine

def exec (i : Instr) (s : State) : Host.Outcome State Fault Refusal :=
  match i with
  | .nop => Sys2Proof.Machine.execNop s
  | .add d a b => Sys2Proof.Machine.execAdd d a b s
  | .sub d a b => Sys2Proof.Machine.execSub d a b s
  | .and d a b => Sys2Proof.Machine.execAnd d a b s
  | .or d a b => Sys2Proof.Machine.execOr d a b s
  | .xor d a b => Sys2Proof.Machine.execXor d a b s
  | .shl d a b => Sys2Proof.Machine.execShl d a b s
  | .shr d a b => Sys2Proof.Machine.execShr d a b s
  | .sra d a b => Sys2Proof.Machine.execSra d a b s
  | .min d a b => Sys2Proof.Machine.execMin d a b s
  | .max d a b => Sys2Proof.Machine.execMax d a b s
  | .mul d a b => Sys2Proof.Machine.execMul d a b s
  | .mulh d a b => Sys2Proof.Machine.execMulh d a b s
  | .mulhu d a b => Sys2Proof.Machine.execMulhu d a b s
  | .div d a b => Sys2Proof.Machine.execDiv d a b s
  | .divu d a b => Sys2Proof.Machine.execDivu d a b s
  | .addi d a imm => Sys2Proof.Machine.execAddi d a imm s
  | .andi d a imm => Sys2Proof.Machine.execAndi d a imm s
  | .ori d a imm => Sys2Proof.Machine.execOri d a imm s
  | .xori d a imm => Sys2Proof.Machine.execXori d a imm s
  | .shli d a sh => Sys2Proof.Machine.execShli d a sh s
  | .shri d a sh => Sys2Proof.Machine.execShri d a sh s
  | .srai d a sh => Sys2Proof.Machine.execSrai d a sh s
  | .li d imm => Sys2Proof.Machine.execLi d imm s
  | .lic d imm => Sys2Proof.Machine.execLic d imm s
  | .bfxs d a b c => Sys2Proof.Machine.execBfxs d a b c s
  | .bfxu d a b c => Sys2Proof.Machine.execBfxu d a b c s
  | .bfi d a b c => Sys2Proof.Machine.execBfi d a b c s
  | .fshl d a b c => Sys2Proof.Machine.execFshl d a b c s
  | .fshr d a b c => Sys2Proof.Machine.execFshr d a b c s
  | .clz d a => Sys2Proof.Machine.execClz d a s
  | .ctz d a => Sys2Proof.Machine.execCtz d a s
  | .popc d a => Sys2Proof.Machine.execPopc d a s
  | .slt d a b => Sys2Proof.Machine.execSlt d a b s
  | .sltu d a b => Sys2Proof.Machine.execSltu d a b s
  | .pcmp d a b cc => Sys2Proof.Machine.execPcmp d a b cc s
  | .sel d a b c => Sys2Proof.Machine.execSel d a b c s
  | .qadd d a b => Sys2Proof.Machine.execQadd d a b s
  | .qaddi d a imm => Sys2Proof.Machine.execQaddi d a imm s
  | .qsub d a b => Sys2Proof.Machine.execQsub d a b s
  | .qmov d a b => Sys2Proof.Machine.execQmov d a b s
  | .qtos d a hi => Sys2Proof.Machine.execQtos d a hi s
  | .qhome d a b => Sys2Proof.Machine.execQhome d a b s
  | .beq a b off => Sys2Proof.Machine.execBeq a b off s
  | .bne a b off => Sys2Proof.Machine.execBne a b off s
  | .blt a b off => Sys2Proof.Machine.execBlt a b off s
  | .bge a b off => Sys2Proof.Machine.execBge a b off s
  | .bltu a b off => Sys2Proof.Machine.execBltu a b off s
  | .bgeu a b off => Sys2Proof.Machine.execBgeu a b off s
  | .jmp off => Sys2Proof.Machine.execJmp off s
  | .call off => Sys2Proof.Machine.execCall off s
  | .jr a => Sys2Proof.Machine.execJr a s
  | .loop a off => Sys2Proof.Machine.execLoop a off s
  | .loopi n off => Sys2Proof.Machine.execLoopi n off s
  | .endCtx => Sys2Proof.Machine.execEndCtx s
  | .yield => Sys2Proof.Machine.execYield s
  | .wait d => Sys2Proof.Machine.execWait d s
  | .warm a b c n rep => Sys2Proof.Machine.execWarm a b c n rep s
  | .tnext => Sys2Proof.Machine.execTnext s
  | .fmtset a => Sys2Proof.Machine.execFmtset a s
  | .mfsr d sr => Sys2Proof.Machine.execMfsr d sr s
  | .mtsr a sr => Sys2Proof.Machine.execMtsr a sr s
  | .trap imm => Sys2Proof.Machine.execTrap imm s
  | .tret => Sys2Proof.Machine.execTret s
  | .vadd ty d a b p => Sys2Proof.Machine.execVadd ty d a b p s
  | .vsub ty d a b p => Sys2Proof.Machine.execVsub ty d a b p s
  | .vmul ty d a b p => Sys2Proof.Machine.execVmul ty d a b p s
  | .vfma ty d a b p => Sys2Proof.Machine.execVfma ty d a b p s
  | .vfms ty d a b p => Sys2Proof.Machine.execVfms ty d a b p s
  | .vdiv ty d a b p => Sys2Proof.Machine.execVdiv ty d a b p s
  | .vmin ty d a b p => Sys2Proof.Machine.execVmin ty d a b p s
  | .vmax ty d a b p => Sys2Proof.Machine.execVmax ty d a b p s
  | .vabs ty d a p => Sys2Proof.Machine.execVabs ty d a p s
  | .vneg ty d a p => Sys2Proof.Machine.execVneg ty d a p s
  | .vadds ty d a b p => Sys2Proof.Machine.execVadds ty d a b p s
  | .vsubs ty d a b p => Sys2Proof.Machine.execVsubs ty d a b p s
  | .vmulh ty d a b p => Sys2Proof.Machine.execVmulh ty d a b p s
  | .vshl ty d a b p => Sys2Proof.Machine.execVshl ty d a b p s
  | .vshr ty d a b p => Sys2Proof.Machine.execVshr ty d a b p s
  | .vsra ty d a b p => Sys2Proof.Machine.execVsra ty d a b p s
  | .vaddi ty d a imm p => Sys2Proof.Machine.execVaddi ty d a imm p s
  | .vshli ty d a imm p => Sys2Proof.Machine.execVshli ty d a imm p s
  | .vshri ty d a imm p => Sys2Proof.Machine.execVshri ty d a imm p s
  | .vsrai ty d a imm p => Sys2Proof.Machine.execVsrai ty d a imm p s
  | .vcmpeq ty d a b p => Sys2Proof.Machine.execVcmpeq ty d a b p s
  | .vcmpne ty d a b p => Sys2Proof.Machine.execVcmpne ty d a b p s
  | .vcmplt ty d a b p => Sys2Proof.Machine.execVcmplt ty d a b p s
  | .vcmple ty d a b p => Sys2Proof.Machine.execVcmple ty d a b p s
  | .vsel ty d a b c => Sys2Proof.Machine.execVsel ty d a b c s
  | .vcvt ty src d a part p => Sys2Proof.Machine.execVcvt ty src d a part p s
  | .vbppack planes d a => Sys2Proof.Machine.execVbppack planes d a s
  | .vbpunpack planes d a => Sys2Proof.Machine.execVbpunpack planes d a s
  | .vexp2 ty d a p => Sys2Proof.Machine.execVexp2 ty d a p s
  | .vlog2 ty d a p => Sys2Proof.Machine.execVlog2 ty d a p s
  | .vrcp ty d a p => Sys2Proof.Machine.execVrcp ty d a p s
  | .vrsqrt ty d a p => Sys2Proof.Machine.execVrsqrt ty d a p s
  | .vredadd ty d a p => Sys2Proof.Machine.execVredadd ty d a p s
  | .vredmax ty d a p => Sys2Proof.Machine.execVredmax ty d a p s
  | .vredmin ty d a p => Sys2Proof.Machine.execVredmin ty d a p s
  | .vscanadd ty d a p => Sys2Proof.Machine.execVscanadd ty d a p s
  | .vscanmax ty d a p => Sys2Proof.Machine.execVscanmax ty d a p s
  | .vperm ty d a b p => Sys2Proof.Machine.execVperm ty d a b p s
  | .vbcast ty d a b p => Sys2Proof.Machine.execVbcast ty d a b p s
  | .vrot ty d a imm p => Sys2Proof.Machine.execVrot ty d a imm p s
  | .vslide ty d a imm p => Sys2Proof.Machine.execVslide ty d a imm p s
  | .vzip ty d a b half p => Sys2Proof.Machine.execVzip ty d a b half p s
  | .vunzip ty d a b half p => Sys2Proof.Machine.execVunzip ty d a b half p s
  | .vand ty d a b p => Sys2Proof.Machine.execVand ty d a b p s
  | .vor ty d a b p => Sys2Proof.Machine.execVor ty d a b p s
  | .vxor ty d a b p => Sys2Proof.Machine.execVxor ty d a b p s
  | .vandn ty d a b p => Sys2Proof.Machine.execVandn ty d a b p s
  | .vpopc ty d a p => Sys2Proof.Machine.execVpopc ty d a p s
  | .vclz ty d a p => Sys2Proof.Machine.execVclz ty d a p s
  | .vbfx ty d a b p => Sys2Proof.Machine.execVbfx ty d a b p s
  | .vbfi ty d a b p => Sys2Proof.Machine.execVbfi ty d a b p s
  | .vins ty d a b => Sys2Proof.Machine.execVins ty d a b s
  | .vext ty d a b => Sys2Proof.Machine.execVext ty d a b s
  | .vdup ty d a p => Sys2Proof.Machine.execVdup ty d a p s
  | .vmov ty d a p => Sys2Proof.Machine.execVmov ty d a p s
  | .pand d a b => Sys2Proof.Machine.execPand d a b s
  | .por d a b => Sys2Proof.Machine.execPor d a b s
  | .pxor d a b => Sys2Proof.Machine.execPxor d a b s
  | .pnot d a => Sys2Proof.Machine.execPnot d a s
  | .mand d a b => Sys2Proof.Machine.execMand d a b s
  | .mor d a b => Sys2Proof.Machine.execMor d a b s
  | .mxor d a b => Sys2Proof.Machine.execMxor d a b s
  | .mset d a => Sys2Proof.Machine.execMset d a s
  | .mget d a => Sys2Proof.Machine.execMget d a s
  | .manc a b => Sys2Proof.Machine.execManc a b s
  | .vargmax ty d a b p => Sys2Proof.Machine.execVargmax ty d a b p s
  | .vsparseadd d a b => Sys2Proof.Machine.execVsparseadd d a b s
  | .vcfhash form d a b p => Sys2Proof.Machine.execVcfhash form d a b p s
  | .vcfupd d a b p => Sys2Proof.Machine.execVcfupd d a b p s
  | .vdesc d a => Sys2Proof.Machine.execVdesc d a s
  | .vphilox d a b => Sys2Proof.Machine.execVphilox d a b s
  | .ld ty vc d q off => Sys2Proof.Machine.execLd ty vc d q off s
  | .st ty d q off => Sys2Proof.Machine.execSt ty d q off s
  | .vld ty vc d q off => Sys2Proof.Machine.execVld ty vc d q off s
  | .vst ty d q off => Sys2Proof.Machine.execVst ty d q off s
  | .ldx ty vc d q n sc => Sys2Proof.Machine.execLdx ty vc d q n sc s
  | .stx ty d q n sc => Sys2Proof.Machine.execStx ty d q n sc s
  | .vldx ty vc d q n sc => Sys2Proof.Machine.execVldx ty vc d q n sc s
  | .vstx ty d q n sc => Sys2Proof.Machine.execVstx ty d q n sc s
  | .vlds ty vc d q n sc => Sys2Proof.Machine.execVlds ty vc d q n sc s
  | .vsts ty d q n sc => Sys2Proof.Machine.execVsts ty d q n sc s
  | .vgath ty vc d q n sc => Sys2Proof.Machine.execVgath ty vc d q n sc s
  | .vscat ty d q n sc => Sys2Proof.Machine.execVscat ty d q n sc s
  | .kld vc d q off => Sys2Proof.Machine.execKld vc d q off s
  | .bgath d a b c zero => Sys2Proof.Machine.execBgath d a b c zero s
  | .amadd ty d a b ord scope => Sys2Proof.Machine.execAmadd ty d a b ord scope s
  | .ammin ty d a b ord scope => Sys2Proof.Machine.execAmmin ty d a b ord scope s
  | .ammax ty d a b ord scope => Sys2Proof.Machine.execAmmax ty d a b ord scope s
  | .amand ty d a b ord scope => Sys2Proof.Machine.execAmand ty d a b ord scope s
  | .amor ty d a b ord scope => Sys2Proof.Machine.execAmor ty d a b ord scope s
  | .amxor ty d a b ord scope => Sys2Proof.Machine.execAmxor ty d a b ord scope s
  | .amxchg ty d a b ord scope => Sys2Proof.Machine.execAmxchg ty d a b ord scope s
  | .amcas ty d a b ord scope => Sys2Proof.Machine.execAmcas ty d a b ord scope s
  | .stadd ty a b ord scope => Sys2Proof.Machine.execStadd ty a b ord scope s
  | .stmin ty a b ord scope => Sys2Proof.Machine.execStmin ty a b ord scope s
  | .stmax ty a b ord scope => Sys2Proof.Machine.execStmax ty a b ord scope s
  | .stand ty a b ord scope => Sys2Proof.Machine.execStand ty a b ord scope s
  | .stor ty a b ord scope => Sys2Proof.Machine.execStor ty a b ord scope s
  | .stxor ty a b ord scope => Sys2Proof.Machine.execStxor ty a b ord scope s
  | .lda ty vc d q scope => Sys2Proof.Machine.execLda ty vc d q scope s
  | .stl ty d q scope => Sys2Proof.Machine.execStl ty d q scope s
  | .fence scope => Sys2Proof.Machine.execFence scope s
  | .drain => Sys2Proof.Machine.execDrain s
  | .cbwait d a n => Sys2Proof.Machine.execCbwait d a n s
  | .cbspace d a n => Sys2Proof.Machine.execCbspace d a n s
  | .cbfree a n => Sys2Proof.Machine.execCbfree a n s
  | .cbadv a n => Sys2Proof.Machine.execCbadv a n s
  | .cbbind d a off => Sys2Proof.Machine.execCbbind d a off s
  | .cbpop d a vec => Sys2Proof.Machine.execCbpop d a vec s
  | .barv a b => Sys2Proof.Machine.execBarv a b s
  | .barx d a b => Sys2Proof.Machine.execBarx d a b s
  | .barw a b => Sys2Proof.Machine.execBarw a b s
  | .dsync ord scope => Sys2Proof.Machine.execDsync ord scope s
  | .pref l2 vc q off => Sys2Proof.Machine.execPref l2 vc q off s
  | .spmode a b => Sys2Proof.Machine.execSpmode a b s
  | .pld vc d q off => Sys2Proof.Machine.execPld vc d q off s
  | .pst d q off => Sys2Proof.Machine.execPst d q off s
  | .vldbc ty vc d q off => Sys2Proof.Machine.execVldbc ty vc d q off s
  | .mma t a b c arr aBuf bBuf => Sys2Proof.Machine.execMma t a b c arr aBuf bBuf s
  | .mmaa t a b c arr aBuf bBuf => Sys2Proof.Machine.execMmaa t a b c arr aBuf bBuf s
  | .mmas t a b c arr bBuf => Sys2Proof.Machine.execMmas t a b c arr bBuf s
  | .mmtr t a b c arr aBuf bBuf => Sys2Proof.Machine.execMmtr t a b c arr aBuf bBuf s
  | .mmtra t a b c arr aBuf bBuf => Sys2Proof.Machine.execMmtra t a b c arr aBuf bBuf s
  | .tld t a c => Sys2Proof.Machine.execTld t a c s
  | .tldsp t a c => Sys2Proof.Machine.execTldsp t a c s
  | .tst t a c => Sys2Proof.Machine.execTst t a c s
  | .tstsp t a c => Sys2Proof.Machine.execTstsp t a c s
  | .tzero t c => Sys2Proof.Machine.execTzero t c s
  | .attn t a b c slot bBuf => Sys2Proof.Machine.execAttn t a b c slot bBuf s
  | .attnf t a c => Sys2Proof.Machine.execAttnf t a c s
  | .mpld slot a c => Sys2Proof.Machine.execMpld slot a c s
  | .copy a b c bar => Sys2Proof.Machine.execCopy a b c bar s
  | .copy2d a b c bar => Sys2Proof.Machine.execCopy2d a b c bar s
  | .copyc b a c out => Sys2Proof.Machine.execCopyc b a c out s
  | .pmvec a c b => Sys2Proof.Machine.execPmvec a c b s
  | .pmmac t c ls => Sys2Proof.Machine.execPmmac t c ls s
  | .pmatk c ls => Sys2Proof.Machine.execPmatk c ls s
  | .pmatv c ls => Sys2Proof.Machine.execPmatv c ls s
  | .pmrd b c ls => Sys2Proof.Machine.execPmrd b c ls s
  | .pmclr c ls => Sys2Proof.Machine.execPmclr c ls s
  | .laybind a c ls => Sys2Proof.Machine.execLaybind a c ls s
  | .kvxfer a c ls => Sys2Proof.Machine.execKvxfer a c ls s
  | .kvapp a c ls => Sys2Proof.Machine.execKvapp a c ls s
  | .pmst a c ls => Sys2Proof.Machine.execPmst a c ls s
  | .pmsync d => Sys2Proof.Machine.execPmsync d s
  | .rthash d a b c => Sys2Proof.Machine.execRthash d a b c s
  | .rtfind d a b c => Sys2Proof.Machine.execRtfind d a b c s
  | .rtdep d a b c move => Sys2Proof.Machine.execRtdep d a b c move s
  | .rtref d a => Sys2Proof.Machine.execRtref d a s
  | .rtrel d a => Sys2Proof.Machine.execRtrel d a s
  | .rtpin d a op => Sys2Proof.Machine.execRtpin d a op s
  | .rtevict d c a b => Sys2Proof.Machine.execRtevict d c a b s
  | .rtrd d a b => Sys2Proof.Machine.execRtrd d a b s
  | .schsel d a => Sys2Proof.Machine.execSchsel d a s
  | .tokcommit d a b => Sys2Proof.Machine.execTokcommit d a b s
  | .specacc d a b c => Sys2Proof.Machine.execSpecacc d a b c s
  | .spawn a b c n => Sys2Proof.Machine.execSpawn a b c n s
  | .doorbell die q wridx => Sys2Proof.Machine.execDoorbell die q wridx s
  | .slotMapping die => Sys2Proof.Machine.execSlotMapping die s
  | .timeSliceExpiry q => Sys2Proof.Machine.execTimeSliceExpiry q s
  | .launch q => Sys2Proof.Machine.execLaunch q s
  | .retirement ctx => Sys2Proof.Machine.execRetirement ctx s
  | .launchAbortTimeout ctx => Sys2Proof.Machine.execLaunchAbortTimeout ctx s
  | .tnextLanding ctx => Sys2Proof.Machine.execTnextLanding ctx s
  | .fmtWriteEffect ctx => Sys2Proof.Machine.execFmtWriteEffect ctx s
  | .spawnTargetReady ctx => Sys2Proof.Machine.execSpawnTargetReady ctx s
  | .commandFire id => Sys2Proof.Machine.execCommandFire id s
  | .commandRetire id => Sys2Proof.Machine.execCommandRetire id s
  | .restartPointCommit ctx => Sys2Proof.Machine.execRestartPointCommit ctx s
  | .conflictRollback ctx => Sys2Proof.Machine.execConflictRollback ctx s
  | .faultRollback ctx cause va => Sys2Proof.Machine.execFaultRollback ctx cause va s
  | .faultBatchClose die => Sys2Proof.Machine.execFaultBatchClose die s
  | .faultResponse die v => Sys2Proof.Machine.execFaultResponse die v s
  | .preemption ctx => Sys2Proof.Machine.execPreemption ctx s
  | .preemptTimeout ctx => Sys2Proof.Machine.execPreemptTimeout ctx s
  | .writeCompletion ctx => Sys2Proof.Machine.execWriteCompletion ctx s
  | .groupStart id bge => Sys2Proof.Machine.execGroupStart id bge s
  | .groupComplete id bge => Sys2Proof.Machine.execGroupComplete id bge s
  | .readRequest core asid va view => Sys2Proof.Machine.execReadRequest core asid va view s
  | .storeHeader core asid va bytes => Sys2Proof.Machine.execStoreHeader core asid va bytes s
  | .writeThrough die asid va bytes => Sys2Proof.Machine.execWriteThrough die asid va bytes s
  | .ownershipRequest core asid va => Sys2Proof.Machine.execOwnershipRequest core asid va s
  | .upgrade core asid va => Sys2Proof.Machine.execUpgrade core asid va s
  | .precisionSnoop die lid mask data => Sys2Proof.Machine.execPrecisionSnoop die lid mask data s
  | .backInvalidation die lid => Sys2Proof.Machine.execBackInvalidation die lid s
  | .recall lid => Sys2Proof.Machine.execRecall lid s
  | .grant die asid va => Sys2Proof.Machine.execGrant die asid va s
  | .dataResponse core asid va view => Sys2Proof.Machine.execDataResponse core asid va view s
  | .ownerEviction die lid => Sys2Proof.Machine.execOwnerEviction die lid s
  | .hostRead off n => Sys2Proof.Machine.execHostRead off n s
  | .hostWrite off bytes => Sys2Proof.Machine.execHostWrite off bytes s
  | .hostSnoop pa data => Sys2Proof.Machine.execHostSnoop pa data s
  | .flitCrcFailure a b => Sys2Proof.Machine.execFlitCrcFailure a b s
  | .coherenceTimeout ctx va => Sys2Proof.Machine.execCoherenceTimeout ctx va s
  | .hostSnoopTimeout ctx va => Sys2Proof.Machine.execHostSnoopTimeout ctx va s
  | .pageMigration die asid va dst => Sys2Proof.Machine.execPageMigration die asid va dst s
  | .refresh die bge bank => Sys2Proof.Machine.execRefresh die bge bank s
  | .qbindBind die v => Sys2Proof.Machine.execQbindBind die v s
  | .qbindUnbind die v => Sys2Proof.Machine.execQbindUnbind die v s
  | .asidselWrite die v => Sys2Proof.Machine.execAsidselWrite die v s
  | .asidselLoad die v => Sys2Proof.Machine.execAsidselLoad die v s
  | .tlbinv die v => Sys2Proof.Machine.execTlbinv die v s
  | .tlbinvRead die => Sys2Proof.Machine.execTlbinvRead die s
  | .hfaultRead die => Sys2Proof.Machine.execHfaultRead die s
  | .erdropClear die => Sys2Proof.Machine.execErdropClear die s
  | .registerWrite die off v => Sys2Proof.Machine.execRegisterWrite die off v s
  | .setcap die tag => Sys2Proof.Machine.execSetcap die tag s
  | .sleep die tag => Sys2Proof.Machine.execSleep die tag s
  | .getcert die tag => Sys2Proof.Machine.execGetcert die tag s
  | .quote die tag => Sys2Proof.Machine.execQuote die tag s
  | .fwload die tag => Sys2Proof.Machine.execFwload die tag s
  | .reset die tag => Sys2Proof.Machine.execReset die tag s
  | .mailboxUnknown die v => Sys2Proof.Machine.execMailboxUnknown die v s
  | .watchdogExpired die => Sys2Proof.Machine.execWatchdogExpired die s
  | .powerCheck avg => Sys2Proof.Machine.execPowerCheck avg s
  | .coldReset => Sys2Proof.Machine.execColdReset s
  | .fullServiceEntry => Sys2Proof.Machine.execFullServiceEntry s
  | .wake v => Sys2Proof.Machine.execWake v s
  | .htrigFire die => Sys2Proof.Machine.execHtrigFire die s
  | .htrigArm die => Sys2Proof.Machine.execHtrigArm die s
  | .triggerFire ctx => Sys2Proof.Machine.execTriggerFire ctx s
  | .triggerArm ctx => Sys2Proof.Machine.execTriggerArm ctx s
  | .snapshotLatch => Sys2Proof.Machine.execSnapshotLatch s
  | .frrdWrite die v => Sys2Proof.Machine.execFrrdWrite die v s

end Sys2Proof.Machine
end

