-- ==== Sys2Proof/Machine/Issue.lean ====
section
/-! DEFINITION. Issuing a bundle (R15, R16, R83 to R85): the registers a slot names, the checks of the four slots, the order in
which they take effect, the loop rules, restart points and the fetch. -/

namespace Sys2Proof.Machine

/-! ## Registers that a slot names (R84, R15) -/

/-- A register of a bank: s 0, q 1, v 2, p 3, m 4, k 5. -/
def reg (bank n : Nat) : Nat := 64 * bank + n
/-- The registers that an instruction writes. -/
def Instr.dests (i : Instr) : List Nat :=
  match i with
  | .add d _ _ | .sub d _ _ | .and d _ _ | .or d _ _ | .xor d _ _ | .shl d _ _ | .shr d _ _ | .sra d _ _ | .min d _ _
  | .max d _ _ | .mul d _ _ | .mulh d _ _ | .mulhu d _ _ | .div d _ _ | .divu d _ _ | .addi d _ _ | .andi d _ _ | .ori d _ _
  | .xori d _ _ | .shli d _ _ | .shri d _ _ | .srai d _ _ | .li d _ | .lic d _ | .bfxs d _ _ _ | .bfxu d _ _ _ | .bfi d _ _ _
  | .fshl d _ _ _ | .fshr d _ _ _ | .clz d _ | .ctz d _ | .popc d _ | .slt d _ _ | .sltu d _ _ | .sel d _ _ _ | .qsub d _ _
  | .qtos d _ _ | .wait d | .mfsr d _ | .vext _ d _ _ | .mget d _ | .ld _ _ d _ _ | .ldx _ _ d _ _ _ | .amadd _ d _ _ _ _
  | .ammin _ d _ _ _ _ | .ammax _ d _ _ _ _ | .amand _ d _ _ _ _ | .amor _ d _ _ _ _ | .amxor _ d _ _ _ _
  | .amxchg _ d _ _ _ _ | .amcas _ d _ _ _ _ | .lda _ _ d _ _ | .cbwait d _ _ | .cbspace d _ _ | .barx d _ _ | .pmsync d
  | .rthash d _ _ _ | .rtfind d _ _ _ | .rtdep d _ _ _ _ | .rtref d _ | .rtrel d _ | .rtpin d _ _ | .rtevict d _ _ _
  | .rtrd d _ _ | .tokcommit d _ _ => [reg 0 d.toNat]
  | .pcmp d _ _ _ | .vcmpeq _ d _ _ _ | .vcmpne _ d _ _ _ | .vcmplt _ d _ _ _ | .vcmple _ d _ _ _ | .pand d _ _ | .por d _ _
  | .pxor d _ _ | .pnot d _ | .pld _ d _ _ => [reg 3 d.toNat]
  | .qadd d _ _ | .qaddi d _ _ | .qmov d _ _ | .qhome d _ _ | .schsel d _ => [reg 1 d.toNat]
  | .call .. => [reg 1 15]
  | .vadd _ d _ _ _ | .vsub _ d _ _ _ | .vmul _ d _ _ _ | .vfma _ d _ _ _ | .vfms _ d _ _ _ | .vdiv _ d _ _ _
  | .vmin _ d _ _ _ | .vmax _ d _ _ _ | .vabs _ d _ _ | .vneg _ d _ _ | .vadds _ d _ _ _ | .vsubs _ d _ _ _
  | .vmulh _ d _ _ _ | .vshl _ d _ _ _ | .vshr _ d _ _ _ | .vsra _ d _ _ _ | .vaddi _ d _ _ _ | .vshli _ d _ _ _
  | .vshri _ d _ _ _ | .vsrai _ d _ _ _ | .vsel _ d _ _ _ | .vcvt _ _ d _ _ _ | .vbppack _ d _ | .vbpunpack _ d _
  | .vexp2 _ d _ _ | .vlog2 _ d _ _ | .vrcp _ d _ _ | .vrsqrt _ d _ _ | .vredadd _ d _ _ | .vredmax _ d _ _
  | .vredmin _ d _ _ | .vscanadd _ d _ _ | .vscanmax _ d _ _ | .vperm _ d _ _ _ | .vbcast _ d _ _ _ | .vrot _ d _ _ _
  | .vslide _ d _ _ _ | .vzip _ d _ _ _ _ | .vunzip _ d _ _ _ _ | .vand _ d _ _ _ | .vor _ d _ _ _ | .vxor _ d _ _ _
  | .vandn _ d _ _ _ | .vpopc _ d _ _ | .vclz _ d _ _ | .vbfx _ d _ _ _ | .vbfi _ d _ _ _ | .vins _ d _ _ | .vdup _ d _ _
  | .vmov _ d _ _ | .vargmax _ d _ _ _ | .vcfhash _ d _ _ _ | .vcfupd d _ _ _ | .vdesc d _ | .vphilox d _ _ | .vld _ _ d _ _
  | .vldx _ _ d _ _ _ | .vlds _ _ d _ _ _ | .vgath _ _ d _ _ _ | .vldbc _ _ d _ _ | .specacc d _ _ _ => [reg 2 d.toNat]
  | .mand d _ _ | .mor d _ _ | .mxor d _ _ | .mset d _ => [reg 4 d.toNat]
  | .manc .. => (List.range 16).map (reg 4)
  | .vsparseadd d _ b => [reg 2 d.toNat, reg 0 b.toNat]
  | .kld _ d _ _ => [reg 5 d.toNat]
  | .cbpop d _ vec => [reg (if vec then 2 else 0) d.toNat]
  | _ => []
/-- The scalar, address and vector registers that an instruction reads and does not write. -/
def Instr.uses (i : Instr) : List Nat :=
  match i with
  | .add _ a b | .sub _ a b | .and _ a b | .or _ a b | .xor _ a b | .shl _ a b | .shr _ a b | .sra _ a b | .min _ a b
  | .max _ a b | .mul _ a b | .mulh _ a b | .mulhu _ a b | .div _ a b | .divu _ a b | .slt _ a b | .sltu _ a b
  | .pcmp _ a b _ | .sel _ a b _ | .qmov _ a b | .beq a b _ | .bne a b _ | .blt a b _ | .bge a b _ | .bltu a b _
  | .bgeu a b _ | .vins _ _ a b | .barv a b | .barx _ a b | .barw a b | .spmode a b | .rtevict _ _ a b | .rtrd _ a b
  | .tokcommit _ a b => [reg 0 a.toNat, reg 0 b.toNat]
  | .addi _ a _ | .andi _ a _ | .ori _ a _ | .xori _ a _ | .shli _ a _ | .shri _ a _ | .srai _ a _ | .clz _ a | .ctz _ a
  | .popc _ a | .loop a _ | .fmtset a | .mtsr a _ | .vdup _ _ a _ | .mset _ a | .rtref _ a | .rtrel _ a | .rtpin _ a _ =>
    [reg 0 a.toNat]
  | .bfxs _ a b c | .bfxu _ a b c | .bfi _ a b c | .fshl _ a b c | .fshr _ a b c | .warm a b c _ _ =>
    [reg 0 a.toNat, reg 0 b.toNat, reg 0 c.toNat]
  | .qadd _ a b | .qhome _ a b | .amadd _ _ a b _ _ | .ammin _ _ a b _ _ | .ammax _ _ a b _ _ | .amand _ _ a b _ _
  | .amor _ _ a b _ _ | .amxor _ _ a b _ _ | .amxchg _ _ a b _ _ | .amcas _ _ a b _ _ | .stadd _ a b _ _ | .stmin _ a b _ _
  | .stmax _ a b _ _ | .stand _ a b _ _ | .stor _ a b _ _ | .stxor _ a b _ _ => [reg 1 a.toNat, reg 0 b.toNat]
  | .qaddi _ a _ | .qtos _ a _ | .jr a | .cbbind _ a _ | .schsel _ a => [reg 1 a.toNat]
  | .qsub _ a b => [reg 1 a.toNat, reg 1 b.toNat]
  | .vadd _ _ a b _ | .vsub _ _ a b _ | .vmul _ _ a b _ | .vfma _ _ a b _ | .vfms _ _ a b _ | .vdiv _ _ a b _
  | .vmin _ _ a b _ | .vmax _ _ a b _ | .vadds _ _ a b _ | .vsubs _ _ a b _ | .vmulh _ _ a b _ | .vshl _ _ a b _
  | .vshr _ _ a b _ | .vsra _ _ a b _ | .vcmpeq _ _ a b _ | .vcmpne _ _ a b _ | .vcmplt _ _ a b _ | .vcmple _ _ a b _
  | .vsel _ _ a b _ | .vperm _ _ a b _ | .vzip _ _ a b _ _ | .vunzip _ _ a b _ _ | .vand _ _ a b _ | .vor _ _ a b _
  | .vxor _ _ a b _ | .vandn _ _ a b _ | .vbfx _ _ a b _ | .vbfi _ _ a b _ | .vphilox _ a b => [reg 2 a.toNat, reg 2 b.toNat]
  | .vabs _ _ a _ | .vneg _ _ a _ | .vaddi _ _ a _ _ | .vshli _ _ a _ _ | .vshri _ _ a _ _ | .vsrai _ _ a _ _
  | .vcvt _ _ _ a _ _ | .vbppack _ _ a | .vbpunpack _ _ a | .vexp2 _ _ a _ | .vlog2 _ _ a _ | .vrcp _ _ a _ | .vrsqrt _ _ a _
  | .vredadd _ _ a _ | .vredmax _ _ a _ | .vredmin _ _ a _ | .vscanadd _ _ a _ | .vscanmax _ _ a _ | .vrot _ _ a _ _
  | .vslide _ _ a _ _ | .vpopc _ _ a _ | .vclz _ _ a _ | .vmov _ _ a _ | .vdesc _ a => [reg 2 a.toNat]
  | .vbcast _ _ a b _ | .vext _ _ a b | .manc a b | .vargmax _ _ a b _ | .vsparseadd _ a b | .vcfhash _ _ a b _
  | .vcfupd _ a b _ => [reg 2 a.toNat, reg 0 b.toNat]
  | .ld _ _ _ q _ | .vld _ _ _ q _ | .kld _ _ q _ | .lda _ _ _ q _ | .pref _ _ q _ | .pld _ _ q _ | .pst _ q _
  | .vldbc _ _ _ q _ => [reg 1 q.toNat]
  | .st _ d q _ | .stl _ d q _ => [reg 0 d.toNat, reg 1 q.toNat]
  | .vst _ d q _ => [reg 2 d.toNat, reg 1 q.toNat]
  | .ldx _ _ _ q i _ | .vldx _ _ _ q i _ | .vlds _ _ _ q i _ => [reg 1 q.toNat, reg 0 i.toNat]
  | .stx _ d q i _ => [reg 0 d.toNat, reg 1 q.toNat, reg 0 i.toNat]
  | .vstx _ d q i _ | .vsts _ d q i _ => [reg 2 d.toNat, reg 1 q.toNat, reg 0 i.toNat]
  | .vgath _ _ _ q i _ => [reg 1 q.toNat, reg 2 i.toNat]
  | .vscat _ d q i _ => [reg 2 d.toNat, reg 1 q.toNat, reg 2 i.toNat]
  | .bgath _ _ b c _ => [reg 1 b.toNat, reg 0 c.toNat]
  | .mma _ a b c _ _ _ | .mmaa _ a b c _ _ _ | .mmtr _ a b c _ _ _ | .mmtra _ a b c _ _ _ | .attn _ a b c _ _ =>
    [reg 1 a.toNat, reg 1 b.toNat, reg 0 c.toNat, reg 0 (c.toNat + 1), reg 0 (c.toNat + 2)]
  | .mmas _ _ b c _ _ => [reg 1 b.toNat, reg 0 c.toNat, reg 0 (c.toNat + 1)]
  | .tzero _ c
  | .pmmac _ c _ | .pmatk c _ | .pmatv c _ | .pmrd _ c _ | .pmclr c _ =>
    [reg 0 c.toNat, reg 0 (c.toNat + 1), reg 0 (c.toNat + 2)]
  | .tld _ a c | .tst _ a c | .attnf _ a c | .mpld _ a c | .copyc _ a c _ | .pmvec a c _ | .laybind a c _
  | .kvxfer a c _ | .kvapp a c _ | .pmst a c _ => [reg 1 a.toNat, reg 0 c.toNat, reg 0 (c.toNat + 1), reg 0 (c.toNat + 2)]
  | .tldsp _ a c | .tstsp _ a c => [reg 0 a.toNat, reg 0 c.toNat, reg 0 (c.toNat + 1), reg 0 (c.toNat + 2)]
  | .copy a b c _ | .copy2d a b c _ => [reg 1 a.toNat, reg 1 b.toNat, reg 0 c.toNat, reg 0 (c.toNat + 1), reg 0 (c.toNat + 2)]
  | .rthash _ a b c | .rtfind _ a b c => [reg 1 a.toNat, reg 0 b.toNat, reg 0 c.toNat]
  | .rtdep _ a b c _ => [reg 1 a.toNat, reg 0 b.toNat, reg 0 c.toNat, reg 0 (c.toNat + 1), reg 0 (c.toNat + 2)]
  | .specacc _ a b c => [reg 2 a.toNat, reg 2 b.toNat, reg 0 c.toNat]
  | .spawn a b c n => [reg 0 a.toNat, reg 0 b.toNat, reg 1 0, reg 1 1] ++ (List.range n.toNat).map fun i => reg 0 (c.toNat + i)
  | _ => []
/-- The checks of step 6 of R83 that an instruction's own meaning makes. -/
def Instr.verdict (i : Instr) (s : State) : Verdict :=
  match i with
  | .bfxs _ _ b c => checkBf b c s
  | .bfxu _ _ b c => checkBf b c s
  | .bfi _ _ b c => checkBf b c s
  | .fshl _ _ _ c => checkFsh c s
  | .fshr _ _ _ c => checkFsh c s
  | .pcmp _ _ b cc => checkPcmp b cc s
  | .jr a => checkJr a s
  | .loop a off => checkLoop a off s
  | .loopi n off => checkLoopN n.toNat off s
  | .endCtx => checkEnd s
  | .wait .. => checkWait s
  | .warm a b _ _ _ => checkWarm a b s
  | .fmtset a => checkFmtset a s
  | .mfsr _ sr => checkMfsr sr s
  | .mtsr a sr => checkMtsr a sr s
  | .trap .. => checkTrap s
  | .tret => checkTret s
  | .vshli ty _ _ imm _ => checkVsh ty imm
  | .vshri ty _ _ imm _ => checkVsh ty imm
  | .vsrai ty _ _ imm _ => checkVsh ty imm
  | .vbcast ty _ _ b _ => checkLaneS ty b s
  | .vrot ty _ _ imm _ => checkVrot ty imm
  | .vslide ty _ _ imm _ => checkVslide ty imm
  | .vbfx ty _ _ b _ => checkVbf ty b s
  | .vbfi ty _ _ b _ => checkVbf ty b s
  | .vins ty _ _ b => checkLaneS ty b s
  | .vext ty _ _ b => checkLaneS ty b s
  | .manc a b => checkManc a b s
  | .ld ty vc _ q off => checkLd ty vc q off s
  | .st ty _ q off => checkSt ty q off s
  | .vld ty vc _ q off => checkVld ty vc q off s
  | .vst ty _ q off => checkVst ty q off s
  | .ldx ty vc _ q i sc => checkLdx ty vc q i sc s
  | .stx ty _ q i sc => checkStx ty q i sc s
  | .vldx ty vc _ q i sc => checkVldx ty vc q i sc s
  | .vstx ty _ q i sc => checkVstx ty q i sc s
  | .vlds ty vc _ q i sc => checkVlds ty vc q i sc s
  | .vsts ty _ q i sc => checkVsts ty q i sc s
  | .vgath ty vc _ q i sc => checkVgath ty vc q i sc s
  | .vscat ty _ q i sc => checkVscat ty q i sc s
  | .kld vc _ q off => checkKld vc q off s
  | .bgath d a b c zero => checkBgath d a b c zero s
  | .amadd ty _ a _ ord _ => checkAtomic ty a ord s
  | .ammin ty _ a _ ord _ => checkAtomic ty a ord s
  | .ammax ty _ a _ ord _ => checkAtomic ty a ord s
  | .amand ty _ a _ ord _ => checkAtomic ty a ord s
  | .amor ty _ a _ ord _ => checkAtomic ty a ord s
  | .amxor ty _ a _ ord _ => checkAtomic ty a ord s
  | .amxchg ty _ a _ ord _ => checkAtomic ty a ord s
  | .amcas ty _ a _ ord _ => checkAtomic ty a ord s
  | .stadd ty a _ ord _ => checkAtomic ty a ord s
  | .stmin ty a _ ord _ => checkAtomic ty a ord s
  | .stmax ty a _ ord _ => checkAtomic ty a ord s
  | .stand ty a _ ord _ => checkAtomic ty a ord s
  | .stor ty a _ ord _ => checkAtomic ty a ord s
  | .stxor ty a _ ord _ => checkAtomic ty a ord s
  | .lda ty vc _ q _ => checkLda ty vc q s
  | .stl ty _ q _ => checkStl ty q s
  | .fence .. => checkFence s
  | .drain => checkDrain s
  | .cbwait _ a n => checkCbwait a n s
  | .cbspace _ a n => checkCbspace a n s
  | .cbfree a n => checkCbfree a n s
  | .cbadv a n => checkCbadv a n s
  | .cbbind d a off => checkCbbind d a off s
  | .cbpop _ a _ => checkCbpop a s
  | .barv a b => checkBarv a b s
  | .barx _ a b => checkBarx a b s
  | .barw a b => checkBarw a b s
  | .dsync ord _ => checkDsync ord s
  | .spmode a b => checkSpmode a b s
  | .pld vc _ q off => checkPld vc q off s
  | .pst _ q off => checkPst q off s
  | .vldbc ty vc _ q off => checkVldbc ty vc q off s
  | .mma t a b c arr aBuf bBuf => s.mmCheck (.mma t a b c arr aBuf bBuf)
  | .mmaa t a b c arr aBuf bBuf => s.mmCheck (.mmaa t a b c arr aBuf bBuf)
  | .mmas t a b c arr bBuf => s.mmCheck (.mmas t a b c arr bBuf)
  | .mmtr t a b c arr aBuf bBuf => s.mmCheck (.mmtr t a b c arr aBuf bBuf)
  | .mmtra t a b c arr aBuf bBuf => s.mmCheck (.mmtra t a b c arr aBuf bBuf)
  | .tld t a c => checkTld t a c s
  | .tldsp t a c => checkTldsp t a c s
  | .tst t a c => checkTst t a c s
  | .tstsp t a c => checkTstsp t a c s
  | .tzero t c => checkTzero t c s
  | .attn t a b c slot bBuf => checkAttn t a b c slot bBuf s
  | .attnf t a c => checkAttnf t a c s
  | .mpld _ a c => checkMpld a c s
  | .copy a b c bar => checkCopy a b c bar s
  | .copy2d a b c bar => checkCopy2d a b c bar s
  | .copyc b a c out => checkCopyc b a c out s
  | .pmvec a c _ => checkPmvec a c s
  | .pmmac t c ls => checkPmmac t c ls s
  | .pmatk c ls => checkPmatk c ls s
  | .pmatv c ls => checkPmatv c ls s
  | .pmrd b c ls => checkPmrd b c ls s
  | .pmclr c ls => checkPmclr c ls s
  | .laybind a c ls => checkLaybind a c ls s
  | .kvxfer a c ls => checkKvxfer a c ls s
  | .kvapp a c ls => checkKvapp a c ls s
  | .pmst a c ls => checkPmst a c ls s
  | .pmsync .. => checkPmsync s
  | .rthash _ a b _ => checkRthash a b s
  | .rtfind _ a b _ => checkRtfind a b s
  | .rtdep _ a b c _ => checkRtdep a b c s
  | .rtref _ a => checkRtnode a s
  | .rtrel _ a => checkRtnode a s
  | .rtpin _ a op => checkRtpin a op s
  | .rtevict _ c a b => checkRtevict c a b s
  | .rtrd _ a b => checkRtrd a b s
  | .tokcommit _ a b => checkTokcommit a b s
  | .specacc _ a _ c => checkSpecacc a c s
  | .spawn a b _ _ => checkSpawn a b s
  | _ => .ok

/-! ## Kinds of instruction -/

/-- Implicit restart points (R96, R160, R312). -/
def Instr.isPoint (i : Instr) : Bool :=
  match i with
  | .endCtx | .wait .. | .warm .. | .tnext | .trap .. => true
  | .mtsr _ sr => decide (0x20 ≤ sr.toNat)
  | .amadd .. | .ammin .. | .ammax .. | .amand .. | .amor .. | .amxor .. | .amxchg .. | .amcas .. | .stadd .. | .stmin .. | .stmax ..
  | .stand .. | .stor .. | .stxor .. | .bgath .. | .cbbind .. | .cbadv .. | .cbfree .. | .cbpop .. | .barv .. | .barx .. | .dsync ..
  | .spmode .. | .fence .. | .drain => true
  | i => match Instr.cls i with | some .E => true | _ => false
/-- Loads that R205 watches, by their address register. -/
def Instr.loadBase (i : Instr) : Option QReg :=
  match i with
  | .ld _ _ _ q _ | .vld _ _ _ q _ | .ldx _ _ _ q _ _ | .vldx _ _ _ q _ _ | .vlds _ _ _ q _ _ | .vgath _ _ _ q _ _ | .kld _ _ q _
  | .lda _ _ _ q _ | .pld _ _ q _ | .vldbc _ _ _ q _ => some q
  | _ => none
/-- Slot 0 instructions that act after the bundle's other slots: end and trap. -/
def Instr.isLast (i : Instr) : Bool := match i with | .endCtx | .trap .. => true | _ => false
/-- A dsync that may make its bundle's arrival: it has not arrived, and a release's earlier accesses have performed (R177). -/
def Instr.mayArrive (i : Instr) (s : State) : Bool :=
  match i with
  | .dsync ord _ => !s.cx.joined && s.releaseReady s.cur ord
  | _ => false
/-- What a command's tiles make of its bundle (R222). -/
def Instr.tileWait (i : Instr) (s : State) : Verdict :=
  match i with
  | .attn t _ _ c _ _ => s.tilesReady (atNames t (s.rS c)) [] (!atFirst (s.rS c))
  | .attnf t _ c => s.tilesReady [] (atNames t (s.rS c)) false
  | .tld t _ _ | .tldsp t _ _ | .tst t _ _ | .tstsp t _ _ | .tzero t _ => s.tilesReady [] [t.toNat] false
  | i => match mmForm i with
    | some m => s.tilesReady [m.t.toNat] (m.src.toList.map (·.toNat)) (!m.init)
    | none => .ok
def Instr.opcode (i : Instr) : Nat := (opOf (encode i)).toNat
/-- Step 4 of R83: the combination of shape, format and sparsity. -/
def Instr.combo (i : Instr) (s : State) : Verdict :=
  match i with
  | .attn .. => require (atCombo s.lat.fmt) 6
  | i => match mmForm i with
    | some m => require (mmCombo s.lat.fmt (s.rS m.c) m.src.isSome) 6
    | none => .ok
/-- The register that a queued command still owes its context. -/
def Instr.owes (i : Instr) : List Nat := if Instr.lateWrite i then Instr.dests i else []

/-! ## Bundles -/

/-- The four slots in the order of R83. -/
def slotsOf (b : Bundle) : List (Nat × Instr) := [(0, b.i0), (1, b.i1), (2, b.i2), (3, b.i3)]
/-- The order in which the slots of an issuing bundle act: slot 0 but for end and trap, then slots 3, 2 and 1. Each reads the
registers captured at issue, so the order shows only in the state beside them (R84). -/
def actOrder (b : Bundle) : List (Nat × Instr) := (if Instr.isLast b.i0 then [] else [(0, b.i0)]) ++ [(3, b.i3), (2, b.i2), (1, b.i1)]
def pointBundle (b : Bundle) : Bool := (slotsOf b).any fun x => Instr.isPoint x.2
/-- The later slot of the first pair that writes one register (R83 step 5). -/
def destClash (b : Bundle) : Option Nat :=
  [(0, 1), (0, 2), (0, 3), (1, 2), (1, 3), (2, 3)].findSome? fun p =>
    let at_ (k : Nat) : List Nat := Instr.dests (match k with | 0 => b.i0 | 1 => b.i1 | 2 => b.i2 | _ => b.i3)
    if (at_ p.1).any (at_ p.2).contains then some p.2 else none
/-- The slots that act last: end and trap. -/
def lastSlots (b : Bundle) : List (Nat × Instr) := if Instr.isLast b.i0 then [(0, b.i0)] else []
/-- A vdiv stalls until 5 clk after its core's previous one (R127). -/
def State.divWait (s : State) (b : Bundle) : Verdict :=
  match b.i1 with
  | .vdiv .. => waitFor (decide ((s.core (coreOf s.cur)).divAt ≤ s.clk))
  | _ => .ok
def Verdict.isTrap (v : Verdict) : Bool := match v with | .trap .. | .trapAfter .. => true | _ => false
def Verdict.isFault (v : Verdict) : Bool := match v with | .fault .. => true | _ => false
/-- What follows a step that went on. -/
def andThen (o : Out) (f : State → Out) : Out := match o with | .next s => f s | .fault e => .fault e | .refused r => .refused r
/-- The state in which a slot of the bundle in issue acts or stops. -/
def State.inSlot (s : State) (x : Nat × Instr) : State := { s with issue := { s.issue with slot := x.1, opcode := Instr.opcode x.2 } }
/-- One slot of a bundle acts. -/
def State.runSlot (s : State) (x : Nat × Instr) : Out := exec x.2 (s.inSlot x)
/-- Slots act one after another. -/
def State.runSlots (s : State) : List (Nat × Instr) → Out
  | [] => .next s
  | x :: t => andThen (s.runSlot x) fun s => s.runSlots t
/-- The first slot that the slots acting before it would leave unable to act, and its verdict. -/
def State.trialFrom (s : State) : List (Nat × Instr) → Nat × Verdict
  | [] => (0, .ok)
  | x :: t =>
    match Instr.verdict x.2 s with
    | .ok => match s.runSlot x with
      | .next s => s.trialFrom t
      | _ => (0, .ok)
    | v => (x.1, v)
/-- A bundle issues whole or not at all (R15): its slots must be able to act together. -/
def State.trial (s : State) (b : Bundle) : Nat × Verdict :=
  if ((slotsOf b).filter fun x => x.2 != .nop).length < 2 then (0, .ok) else s.trialFrom (actOrder b ++ lastSlots b)
/-- The slot whose verdict decides the bundle, and the verdict: the first trap in the order of R83, else a fault, else a wait
under R16, else a stall under R15, else that of the slots together. The slot number 4 marks the bundle's own checks. -/
def State.bundleVerdict (s : State) (b : Bundle) : Nat × Verdict :=
  let own := (slotsOf b).map fun x => (x.1, Instr.verdict x.2 s)
  let clash : Nat × Verdict := match destClash b with | some _ => (4, .trap 11 0) | none => (4, .ok)
  let all := (3, Instr.combo b.i3 s) :: clash :: own
  match all.find? fun x => x.2.isTrap with
  | some x => x
  | none => match own.find? fun x => x.2.isFault with
    | some x => x
    | none => match own.find? fun (x : Nat × Verdict) => x.2 == Verdict.block with
      | some x => x
      | none => match (own ++ [(4, s.divWait b)]).find? fun (x : Nat × Verdict) => x.2 == Verdict.stall with
        | some x => x
        | none => s.trial b

/-! ## The next bundle (R104, R107, R108) -/

def LoopEnt.inside (e : LoopEnt) (a : VA) : Bool := decide (e.start.toNat ≤ a.toNat) && decide (a.toNat ≤ e.last.toNat)
/-- A taken transfer breaks the loops it leaves. -/
def breakLoops (pc t : VA) : List LoopEnt → List LoopEnt
  | [] => []
  | e :: r => if e.inside pc && !e.inside t then breakLoops pc t r else e :: r
/-- At the end of a body the loop goes back, or ends. -/
def loopBack (pc : VA) : List LoopEnt → List LoopEnt × Option VA
  | [] => ([], none)
  | e :: r =>
    if e.last = pc then
      if 1 < e.remaining then (⟨e.start, e.last, e.remaining - 1⟩ :: r, some e.start) else loopBack pc r
    else (e :: r, none)
/-- The pc and the loop stack after a bundle that took no trap. -/
def State.advance (s : State) : State :=
  let pc := s.issue.pc
  let ls := s.cx.regs.loops
  let r : List LoopEnt × VA := match s.issue.direct with
    | some t => (ls, t)
    | none => match s.issue.target with
      | some t => (breakLoops pc t ls, t)
      | none => match loopBack pc ls with
        | (ls, some t) => (ls, t)
        | (ls, none) => (ls, s.bundleAt 1)
  s.updRegs fun x => { x with loops := r.1, pc := r.2 }

/-! ## Issue -/

/-- A vdiv that issues keeps its core's next one for 5 clk (R127). -/
def State.divIssue (s : State) (b : Bundle) : State :=
  match b.i1 with
  | .vdiv .. => s.updCore (coreOf s.cur) fun k => { k with divAt := s.clk + Config.divGap }
  | _ => s
/-- What a restart point waits for comes first (R313); a wait is counted (R343 event 11). -/
def State.atPoint (s : State) (o : Out) : Out :=
  match s.recheck s.cur with
  | .ok => o
  | .stall => .next (s.bump 11 s.cur 1)
  | f => s.resolve f id
/-- A bundle that can issue: its slots act, the fmt counts go on, end and trap act last, then the pc and, at an implicit restart
point, the checkpoint after the bundle. -/
def State.issueBundle (s : State) (b : Bundle) : Out :=
  let s := s.divIssue b
  andThen ((s.bump 2 s.cur 1).runSlots (actOrder b)) fun s =>
  andThen ((s.updRegs Regs.fmtCount).runSlots (lastSlots b)) fun s =>
  if s.issue.trapped then .next s
  else
    let s := s.advance
    .next (if pointBundle b then s.commitAt s.cur s.cx.regs.pc else s)
/-- A slot that stops its bundle: its own meaning stops, or, where only the slots acting before it stop it, the verdict is what they
bring. -/
def State.stopSlot (s : State) (x : Nat × Instr) (v : Verdict) : Out :=
  if Instr.verdict x.2 s == v then s.runSlot x else (s.inSlot x).resolve v id
/-- A precise trap of the bundle: of a slot, or of step 5 (R83). The checks that a restart point waits for come first (R313). -/
def State.trapBundle (s : State) (b : Bundle) (k : Nat) (v : Verdict) : Out :=
  s.atPoint <|
    if k = 4 then
      let c := (destClash b).getD 0
      let i := match c with | 1 => b.i1 | 2 => b.i2 | _ => b.i3
      (s.inSlot (c, i)).resolve v id
    else
      match (slotsOf b)[k]? with
      | some x => s.stopSlot x v
      | none => .next s
/-- A bundle that blocks: a restart point commits the checkpoint before it, and the context waits on it (R16, R312). -/
def State.blockBundle (s : State) (b : Bundle) (k : Nat) : Out :=
  let s := if pointBundle b then s.commitAt s.cur s.issue.pc else s
  if !s.cx.live then .next s
  else andThen (match (slotsOf b)[k]? with | some x => s.stopSlot x .block | none => .next s.blockHere) fun s =>
    .next (s.upd fun c => { c with waitOn := some b })
/-- The first arrival of a domain sync, after the checkpoint before it (R177). -/
def State.arriveFirst (s : State) (b : Bundle) : State :=
  if Instr.mayArrive b.i2 s then
    let s := s.commitAt s.cur s.issue.pc
    if s.cx.live then s.arrive s.cur else s
  else s
/-- A bundle whose marks have been made. -/
def State.tryBundle (s : State) (b : Bundle) : Out :=
  match s.bundleVerdict b with
  | (k, .trap c t) => s.trapBundle b k (.trap c t)
  | (k, .trapAfter c t w) => s.trapBundle b k (.trapAfter c t w)
  | (_, .fault c va a w) => s.resolve (.fault c va a w) id
  | _ =>
    let s := s.arriveFirst b
    if !s.cx.live then .next s
    else match s.bundleVerdict b with
      | (_, .ok) => s.issueBundle b
      | (k, .block) => s.blockBundle b k
      | _ => .next (if Instr.tileWait b.i3 s == .stall then s.bump 13 s.cur 1 else s)
/-- A bundle that names a register which a queued command still owes waits (R15, R315). -/
def State.owesReg (s : State) (b : Bundle) : Bool :=
  let names := (slotsOf b).flatMap fun x => Instr.dests x.2 ++ Instr.uses x.2
  s.cmds.any fun c => c.ctx == s.cur && (Instr.owes c.ins).any names.contains
/-- The instructions of class L that access memory or the scratchpad; a prefetch is ordered against nothing (R178). -/
def Instr.accesses (i : Instr) : Bool :=
  match i with
  | .nop | .fence .. | .drain | .cbwait .. | .cbspace .. | .cbfree .. | .cbadv .. | .dsync .. | .pref .. | .spmode .. => false
  | i => Instr.cls i == some .L
/-- Behind a fence a later access of an L slot waits for the reads of the block gathers before the fence and for the stores released
by then (R171). -/
def State.fenced (s : State) (b : Bundle) : Bool :=
  let f := s.cx.fence
  Instr.accesses b.i2 &&
    ((s.cmds.any fun c => c.ctx == s.cur && decide (c.id + 1 < f) && match c.ins with | .bgath .. => true | _ => false) ||
     (s.cx.out.any fun g => decide (g.before < f)) || s.heldWrites.any fun h => h.ctx == some s.cur && decide (h.before < f))
/-- A bundle with a die-local load; barw reads the scratchpad (log 50). -/
def State.localLoad (s : State) (b : Bundle) : Bool :=
  match b.i2 with
  | .barw .. => true
  | i => match Instr.loadBase i with | some q => vaHome (s.rQ q) == dieOf s.cur | none => false
/-- In the mode of R205 such a bundle is its own mark. -/
def State.stepMark (s : State) (b : Bundle) : Bool := s.cx.stepMode && s.localLoad b
/-- A bundle whose load would pass gated stores and which commits a checkpoint after itself waits until they can perform then (R204). -/
def State.loadWait (s : State) (b : Bundle) : Bool :=
  pointBundle b && s.localLoad b && s.passWait s.cur s.cx.gate.length != .ok
/-- The mark before a bundle (R312, R205): a mark that a rollback has returned to begins no new count. -/
def State.markBefore (s : State) (b : Bundle) : State :=
  let c := s.cx
  if pointBundle b then s
  else if b.restart then
    let s := s.commitAt s.cur s.issue.pc
    if c.regs == c.ck then s.upd fun x => { x with conflicts := c.conflicts, stepMode := c.stepMode } else s
  else if s.stepMark b then (s.commitAt s.cur s.issue.pc).upd fun c => { c with stepMode := true }
  else s
/-- A bundle comes to issue. -/
def State.runBundle (s : State) (b : Bundle) : Out :=
  let n := s.cur
  let mark := pointBundle b || b.restart || s.stepMark b
  let go : Out := match (if pointBundle b || b.restart then s.cx.engFaults.head? else none) with
    -- an engine command's fault is taken before the point commits (R317)
    | some f => if s.settled n then .next (s.engTrap n f s.issue.pc) else .next s
    | none =>
      let s := s.markBefore b
      if !s.cx.live then .next s else s.tryBundle b
  if s.owesReg b || s.fenced b || s.loadWait b then .next s else if mark then s.atPoint go else go

/-! ## Fetch (R41, R69, R85) -/

def Launch.imageKey (l : Launch) : Word64 := BitVec.ofNat 64 (fld l.record 0 56)
def Launch.gen (l : Launch) : BitVec 32 := l.image.extractLsb' 32 32
/-- The line of the instruction cache that serves an address for a launch. -/
def CoreSt.icFind (k : CoreSt) (va : VA) (l : Launch) : Option ICLine :=
  k.ic.find? fun x => decide (x.va.toNat = va.toNat / 128 * 128) && x.image == l.imageKey && x.gen == l.gen
/-- A line takes the first place; the least recently used of the lines beyond the capacity goes. -/
def CoreSt.icPut (k : CoreSt) (x : ICLine) : CoreSt :=
  { k with ic := (x :: k.ic.filter fun y => !(y.va == x.va && y.image == x.image && y.gen == x.gen)).take Config.icacheLines }
def lineVA (va : VA) : VA := BitVec.ofNat 72 (va.toNat / 128 * 128)
/-- The bundle of a line at an address. -/
def bundleIn (x : Vec) (va : VA) : BitVec 128 := x.extractLsb' (8 * (fld va 4 3 * 16)) 128
/-- What stops a fetch that misses. -/
def State.fetchCheck (s : State) (n : Nat) (va : VA) : Verdict :=
  if !homeOk va then .trap 64 (tvalOf va)
  else if isSpad va || fld va 48 20 ≠ 0 then .trap 75 (tvalOf va)
  else s.reachCheck n (s.asidOf n) va 1 .fetch
/-- The line that a miss brings. -/
def State.fetchLine (s : State) (n : Nat) (va : VA) : State :=
  let a := s.asidOf n
  let s := s.translate a (lineVA va) .fetch
  match s.place a (lineVA va) .fetch with
  | .error _ => s
  | .ok r =>
    let s := if r.reg.isSome then s
      else s.noteRead (some n) 0 r.line (s.readCached (dieOf n) none r.line (tagOf a (lineVA va) r) 0)
    let data : Vec := if r.reg.isSome then ~~~0 else s.lineNow r.line
    s.updCore (coreOf n) fun k => k.icPut ⟨lineVA va, (s.launchOf n).imageKey, (s.launchOf n).gen, data⟩

/-! ## A context's turn -/

/-- The context, its registers as every slot of the bundle reads them, and pending fmt writes that are due (R65, R84). -/
def State.enter (s : State) (n : Nat) : State :=
  let s := s.updCtx n fun c => { c with regs := c.regs.fmtEffect }
  let r := (s.ctx n).regs
  { s with issue := ⟨n, r.pc, 0, 0, r, none, none, false, 0, s.nextCmd⟩ }
/-- A bundle's bits come to issue: steps 1 to 3 of R83, then the bundle. -/
def State.runBits (s : State) (x : BitVec 128) : Out :=
  match decodeBundle x with
  | .error e => s.atPoint ({ s with issue := { s.issue with slot := e.slot, opcode := e.opcode } }.resolve (.trap e.err.cause 0) id)
  | .ok b => s.runBundle b
/-- The bundle at the pc is fetched and comes to issue. -/
def State.fetchIssue (s : State) (n : Nat) : Out :=
  let c := s.ctx n
  match (s.core (coreOf n)).icFind c.regs.pc (s.launchOf n) with
  | some x => (s.updCore (coreOf n) fun k => k.icPut x).runBits (bundleIn x.data c.regs.pc)
  | none => match s.fetchCheck n c.regs.pc with
    | .ok =>
      let s := s.fetchLine n c.regs.pc
      match (s.core (coreOf n)).icFind c.regs.pc (s.launchOf n) with
      | some x => s.runBits (bundleIn x.data c.regs.pc)
      | none => .next s
    | .trap t v => s.atPoint (s.resolve (.trap t v) id)
    | v => s.resolve v id
/-- The trap that a context takes before it issues: one that it owes at its checkpoint (R317, R326), or, outside a handler, one that
gave way to another (log 38); and the context without it. -/
def Ctx.nextOwed (c : Ctx) : Option (Owed × Ctx) :=
  match c.owed with
  | o :: t => some (o, { c with owed := t })
  | [] => if c.regs.tstate.getLsbD 0 then none else match c.later with
    | o :: t => some (o, { c with later := t })
    | [] => none
/-- The Running context issues: what it owes first (R172, R205, R326), then its next bundle. -/
def State.issueCtx (s : State) (n : Nat) : Out :=
  let s := (s.drained n).enter n
  let c := s.ctx n
  if c.conflict then .next (if s.conflictDue n then s.conflictRoll n else s)
  else if c.draining then .next s
  else match c.nextOwed with
    | some (o, c') => s.atPoint (.next (if s.settled n then (s.setCtx n c').takeTrap n o true c.regs.pc else s))
    | none => s.fetchIssue n

/-! ## A core's turn (R15 to R17) -/

/-- The condition of a Blocked context has cleared. A WAIT that the overflow bit meets while it is Blocked waits no more: it is the next
WAIT of its core to issue, and traps (R34, log 71). -/
def State.unblocked (s : State) (n : Nat) : Bool :=
  match (s.ctx n).waitOn with
  | some b => ((s.enter n).bundleVerdict b).2 != .block
  | none => true
def State.wakeCtx (s : State) (n : Nat) : State :=
  if (s.ctx n).st == .blocked && (s.ctx n).live && s.unblocked n then s.updCtx n fun c => { c with st := .ready, waitOn := none } else s
/-- The next Ready context in rotation (R17). -/
def State.nextReady (s : State) (c : Nat) : Option Nat :=
  ((List.range 4).map fun i => 4 * c + ((s.core c).cur + 1 + i) % 4).find? fun n => (s.ctx n).st == .ready && (s.ctx n).live
/-- A Blocked context whose dsync has waited for its release arrives once that stands (R177). -/
def State.lateArrive (s : State) (n : Nat) : State :=
  if (s.ctx n).st == .blocked && (s.ctx n).live && (s.ctx n).waitOn.any (fun b => Instr.mayArrive b.i2 (s.enter n)) then s.arrive n else s
/-- The core selects a context, which is Running. -/
def State.pickCtx (s : State) (c n : Nat) : State :=
  let s := ((List.range 4).map (4 * c + ·)).foldl (fun (s : State) m =>
    if (s.ctx m).st == .running then s.updCtx m fun x => { x with st := .ready } else s) s
  (s.updCtx n fun x => { x with st := .running }).updCore c fun k => { k with cur := n % 4, busy := true, bubble := false }
/-- The context that the core runs can issue. -/
def State.runs (s : State) (c : Nat) : Bool := let x := s.ctx (4 * c + (s.core c).cur); x.st == .running && x.live
/-- After its context's turn the core goes on with it; or, where that has left it, selects the next that is Ready, whose first bundle
follows one bubble; or, with none Ready, idles (R17, R316). -/
def State.afterIssue (s : State) (c : Nat) : State :=
  if s.runs c then s.updCore c fun k => { k with busy := true }
  else match s.nextReady c with
    | some m => (s.pickCtx c m).updCore c fun k => { k with bubble := true }
    | none => s.updCore c fun k => { k with busy := false }
/-- One clk of a core: its Running context issues, or has its bubble; a core that has lost its context since selects another, with one
bubble; one that idles issues for the first that is Ready, or idles on (R17). -/
def State.coreTurn (s : State) (c : Nat) : Out :=
  let n := 4 * c + (s.core c).cur
  if s.runs c then
    if (s.core c).bubble then .next ((s.updCore c fun k => { k with bubble := false }).bump 3 n 1)
    else andThen (s.issueCtx n) fun t => .next (t.afterIssue c)
  else match s.nextReady c with
    | some m => if (s.core c).busy then .next ((s.pickCtx c m).bump 3 m 1)
      else andThen ((s.pickCtx c m).issueCtx m) fun t => .next (t.afterIssue c)
    | none => .next (s.updCore c fun k => { k with busy := false, bubble := false })

end Sys2Proof.Machine
end

