-- ==== Sys2Proof/Machine/Events.lean ====
section
/-! DEFINITION. The events that the machine itself makes due, in the order in which they are made within a clk (log 4), and
placing a word for the next fetch. -/

namespace Sys2Proof.Machine

/-! ## What is due -/

/-- The next record of a queue cannot be read, or, of a queue with a slot, would be placed or completed. -/
def State.launchDue (s : State) (q : Nat) : Bool :=
  let u := s.queue q
  (s.recordFault q).isSome || (u.slot.isSome && s.mayStart q &&
  match s.nextRecord q with
  | none => false
  | some r =>
    placeable (s.die u.die).svc r && (!recOk r ||
      (s.readImage u.die u.asid r).isNone || (s.shares r (if (s.die u.die).svc = 2 then 8 else 1)).isSome))
/-- A waiting queue would take a slot. -/
def State.mapDue (s : State) (d : Nat) : Bool := s.mayMap d && (s.waiting d).any fun q => (s.freeSlot d).isSome || (s.yielder d q).isSome
/-- A pre-emption that has not been made stands at a mark. -/
def State.preemptReady (s : State) (n : Nat) : Bool :=
  let c := s.ctx n
  c.preq && !c.preempted && c.st != .idle && c.st != .retiring && c.atMark && c.landings.isEmpty && s.landed n
/-- Writes that have not performed: those released, and those that a group in flight holds. -/
def State.waitingWrites (s : State) : Nat := s.heldWrites.length + 2 * (s.ctxs.map fun e => e.2.out.length).sum
/-- A write that waits at a home may perform. -/
def State.completionDue (s : State) (d : Nat) : Bool :=
  s.waitingWrites != 0 && decide ((s.completeWrites d).waitingWrites < s.waitingWrites)
/-- The first event of a context. -/
def State.ctxDue (s : State) (n : Nat) : Option Instr :=
  let c := s.ctx n
  if c.landings.any (·.over s.clk) then some (.tnextLanding n)
  else if c.st == .idle && c.launch.isSome && decide (c.readyAt ≤ s.clk) then some (.spawnTargetReady n)
  else if s.conflictDue n then some (.conflictRollback n)
  else if s.preemptReady n then some (.preemption n)
  else if s.preemptDue n then some (.preemptTimeout n)
  else if s.abortDue n then some (.launchAbortTimeout n)
  else if s.mayRetireCtx n then some (.retirement n)
  else none
/-- The first event of a command: a group that completes, one that starts, its firing, its retirement. -/
def State.cmdDue (s : State) (c : Cmd) : Option Instr :=
  match c.bges.find? fun b => c.groupEnds b with
  | some b => some (.groupComplete c.id b)
  | none => match c.bges.find? fun b => s.groupReady c b with
    | some b => some (.groupStart c.id b)
    | none => if s.mayFire c then some (.commandFire c.id)
      else if s.mayRetire c then some (.commandRetire c.id) else none
def State.dieDue (s : State) (d : Nat) : Option Instr :=
  if s.batchDue d then some (.faultBatchClose d) else if s.mapDue d then some (.slotMapping d) else none
/-- The event that is due, if any is. -/
def State.due (s : State) : Option Instr :=
  if s.sleep != .awake then none
  else if (s.die 0).boot = 0 then some .coldReset
  else if s.latchDue then some .snapshotLatch
  else match s.ctxs.findSome? fun e => s.ctxDue e.1 with
    | some i => some i
    | none => match (List.range 4).find? fun d => s.completionDue d with
      | some d => some (.writeCompletion d)
      | none => match s.cmds.findSome? fun c => s.cmdDue c with
        | some i => some i
        | none => match s.queues.find? fun e => s.sliceOver e.1 with
          | some e => some (.timeSliceExpiry e.1)
          | none => match (List.range 4).findSome? fun d => s.dieDue d with
            | some i => some i
            | none => (s.queues.find? fun e => s.launchDue e.1).map fun e => .launch e.1

/-! ## The clk -/

/-- Events 1 and 4 of R343: every counter of clk counts one, and every Blocked context counts one. -/
def State.countClk (s : State) : State :=
  let s := { s with cores := s.cores.map fun (c : Nat × CoreSt) =>
    (c.1, { c.2 with ecnt := (List.range 8).foldl (fun m i =>
      let e := sget 0 c.2.esel i
      if e.getLsbD 10 && fld e 0 8 == 1 && !c.2.setNow s.clk i then sput 0 m i (sget 0 m i + 1) else m) c.2.ecnt }) }
  (s.ctxs.filter fun e => e.2.st == .blocked).foldl (fun s e => s.bump 4 e.1 1) s
/-- The engines' and managers' move, before the cores' turns of the clk (R36): a host access that waited for its die, an event that is
due, else the cores' turns begin. -/
def State.machineTurn (s : State) : Out :=
  match s.heldAccess with
  | some s => .next s
  | none => match s.due with
    | some i => exec i s
    | none => .next { s with turn := 0 }
/-- The clk ends: its counters count, and what has cleared in it stands from the next: releases that dsyncs waited for, then the
conditions of the Blocked contexts (R17, R42, R177). -/
def State.endClk (s : State) : State :=
  let s := { s.countClk with clk := s.clk + 1, turn := Config.cores }
  let ns := s.ctxs.map (·.1)
  ns.foldl (fun s n => s.wakeCtx n) (ns.foldl (fun s n => s.lateArrive n) s)
/-- After a core's turn the next core's comes; after the last core's the clk ends. -/
def State.afterTurn (s : State) : State := if s.turn + 1 < Config.cores then { s with turn := s.turn + 1 } else s.endClk

/-! ## Placing a word (log 16) -/

/-- The word, alone in the slot that its class names, in the line of the instruction cache of core 0 from which context 0
fetches next. -/
def State.placeWord (s : State) (w : Nat) : State :=
  let w : BitVec 32 := BitVec.ofNat 32 w
  let x := bundleWith ((tableClass w).getD .S) w
  let c := s.ctx 0
  let r := { c.regs with pc := 0 }
  let s := { s with
    turn := 0, agenda := [], hostHeld := [], sleep := .awake,
    dies := sput .zero s.dies 0 { s.die 0 with boot := 4, svc := 2 },
    launches := sput .zero s.launches 0 { Launch.zero with active := true } }
  let s := s.setCtx 0 { c with
    st := .running, launch := some 0, regs := r, ck := r, held := none, preempted := false, leaving := false, owed := [], later := [],
    ckTrap := none, conflict := false, stepMode := false, waitOn := none, engFaults := [], gate := [], out := [], draining := false,
    fed := [], fence := 0, landings := [], preq := false, abortAt := none, joined := false }
  { s with cmds := [], heldWrites := [] }.updCore 0 fun k =>
    { k with cur := 0, busy := true, bubble := false, divAt := 0, ic := [⟨0, 0, 0, x.setWidth 1024⟩] }

end Sys2Proof.Machine
end

