-- ==== Sys2Proof/Machine/Step.lean ====
section
/-! DEFINITION. One step of the machine (log 4), and the placing of a word for the next fetch (log 16). -/

namespace Sys2Proof.Machine

/-- One step: an event from outside the program if one waits, else an event that the machine has made due, else a core's turn. -/
def step (s : State) : Out :=
  match s.agenda with
  | i :: rest => if (Instr.cls i).isSome || i == .nop then .next { s with agenda := rest } else exec i { s with agenda := rest }
  | [] =>
    if s.turn < Config.cores then andThen (s.coreTurn s.turn) fun t => .next t.afterTurn
    else s.machineTurn

/-- The state in which the very next step fetches and runs the word. -/
def State.withFetchWord (s : State) (nbits w : Nat) : State :=
  let _ := nbits
  s.placeWord w

end Sys2Proof.Machine
end

