-- ==== Sys2Proof/Safety.lean ====
section
/-! DEFINITION. The terms in which claims are stated: what a step leaves alone, which instructions write only a register, and what
holds of every state a run may meet. -/

namespace Sys2Proof.Machine

/-! ## What is left alone -/

/-- Every byte of memory and of the scratchpads reads as before. -/
def State.sameBytes (s t : State) : Prop :=
  (∀ a, rdByte t.mem a = rdByte s.mem a) ∧ (∀ a, rdByte t.spad a = rdByte s.spad a)
/-- Of the whole state only the registers of the context in issue, and the flags collected for its bundle, may differ. -/
def State.onlyRegs (s t : State) : Prop :=
  t = { s with ctxs := t.ctxs, issue := { s.issue with flags := t.issue.flags } } ∧
  (∀ n, n ≠ s.cur → t.ctx n = s.ctx n) ∧ t.cx = { s.cx with regs := t.cx.regs } ∧ s.sameBytes t
/-- Of the registers of the context in issue only s(d) may differ. -/
def State.onlyS (d : SReg) (s t : State) : Prop :=
  s.onlyRegs t ∧ t.issue = s.issue ∧ t.cx.regs = { s.cx.regs with s := t.cx.regs.s } ∧
  ∀ r, r ≠ d → t.cx.regs.gs r = s.cx.regs.gs r
/-- Of the registers of the context in issue only q(d) may differ. -/
def State.onlyQ (d : QReg) (s t : State) : Prop :=
  s.onlyRegs t ∧ t.issue = s.issue ∧ t.cx.regs = { s.cx.regs with q := t.cx.regs.q } ∧
  ∀ r, r ≠ d → t.cx.regs.gq r = s.cx.regs.gq r
/-- Only p(d) and the flags of fstat may differ, and a flag that was set stays set (R66, R67). -/
def State.onlyP (d : PReg) (s t : State) : Prop :=
  s.onlyRegs t ∧ t.cx.regs = { s.cx.regs with p := t.cx.regs.p, fstat := t.cx.regs.fstat } ∧
  (∀ r, r ≠ d → t.cx.regs.gp r = s.cx.regs.gp r) ∧
  (∃ f : Flg, t.cx.regs.fstat = s.cx.regs.fstat ||| f.setWidth 64)
/-- Only m(d) may differ. -/
def State.onlyM (d : MReg) (s t : State) : Prop :=
  s.onlyRegs t ∧ t.issue = s.issue ∧ t.cx.regs = { s.cx.regs with m := t.cx.regs.m } ∧
  ∀ r, r ≠ d → t.cx.regs.gm r = s.cx.regs.gm r
/-- Only v(d) and the flags of fstat may differ, and a flag that was set stays set (R66, R67). -/
def State.onlyV (d : VReg) (s t : State) : Prop :=
  s.onlyRegs t ∧ t.cx.regs = { s.cx.regs with v := t.cx.regs.v, fstat := t.cx.regs.fstat } ∧
  (∀ r, r ≠ d → t.cx.regs.gv r = s.cx.regs.gv r) ∧
  (∃ f : Flg, t.cx.regs.fstat = s.cx.regs.fstat ||| f.setWidth 64)

/-! ## Instructions by what they write -/

/-- Register-only instructions whose destination is a scalar register. -/
def Instr.sOnly (i : Instr) : Option SReg :=
  match i with
  | .add d _ _ | .sub d _ _ | .and d _ _ | .or d _ _ | .xor d _ _ | .shl d _ _ | .shr d _ _ | .sra d _ _ | .min d _ _
  | .max d _ _ | .mul d _ _ | .mulh d _ _ | .mulhu d _ _ | .div d _ _ | .divu d _ _ | .addi d _ _ | .andi d _ _ | .ori d _ _
  | .xori d _ _ | .shli d _ _ | .shri d _ _ | .srai d _ _ | .li d _ | .lic d _ | .bfxs d _ _ _ | .bfxu d _ _ _ | .bfi d _ _ _
  | .fshl d _ _ _ | .fshr d _ _ _ | .clz d _ | .ctz d _ | .popc d _ | .slt d _ _ | .sltu d _ _ | .sel d _ _ _ | .qsub d _ _
  | .qtos d _ _ | .mfsr d _ | .vext _ d _ _ | .mget d _ => some d
  | _ => none
/-- Register-only instructions whose destination is an address register. -/
def Instr.qOnly (i : Instr) : Option QReg :=
  match i with
  | .qadd d _ _ | .qaddi d _ _ | .qmov d _ _ | .qhome d _ _ => some d
  | _ => none
/-- Instructions whose destination is a predicate, but for pld. -/
def Instr.pOnly (i : Instr) : Option PReg :=
  match i with
  | .pcmp d _ _ _ | .vcmpeq _ d _ _ _ | .vcmpne _ d _ _ _ | .vcmplt _ d _ _ _ | .vcmple _ d _ _ _ | .pand d _ _ | .por d _ _
  | .pxor d _ _ | .pnot d _ => some d
  | _ => none
/-- Instructions whose destination is one mask register. -/
def Instr.mOnly (i : Instr) : Option MReg :=
  match i with
  | .mand d _ _ | .mor d _ _ | .mxor d _ _ | .mset d _ => some d
  | _ => none
/-- Register-only instructions whose destination is a vector register. -/
def Instr.vOnly (i : Instr) : Option VReg :=
  match i with
  | .vadd _ d _ _ _ | .vsub _ d _ _ _ | .vmul _ d _ _ _ | .vfma _ d _ _ _ | .vfms _ d _ _ _ | .vdiv _ d _ _ _
  | .vmin _ d _ _ _ | .vmax _ d _ _ _ | .vabs _ d _ _ | .vneg _ d _ _ | .vadds _ d _ _ _ | .vsubs _ d _ _ _
  | .vmulh _ d _ _ _ | .vshl _ d _ _ _ | .vshr _ d _ _ _ | .vsra _ d _ _ _ | .vaddi _ d _ _ _ | .vshli _ d _ _ _
  | .vshri _ d _ _ _ | .vsrai _ d _ _ _ | .vsel _ d _ _ _ | .vcvt _ _ d _ _ _ | .vbppack _ d _ | .vbpunpack _ d _
  | .vexp2 _ d _ _ | .vlog2 _ d _ _ | .vrcp _ d _ _ | .vrsqrt _ d _ _ | .vredadd _ d _ _ | .vredmax _ d _ _
  | .vredmin _ d _ _ | .vscanadd _ d _ _ | .vscanmax _ d _ _ | .vperm _ d _ _ _ | .vbcast _ d _ _ _ | .vrot _ d _ _ _
  | .vslide _ d _ _ _ | .vzip _ d _ _ _ _ | .vunzip _ d _ _ _ _ | .vand _ d _ _ _ | .vor _ d _ _ _ | .vxor _ d _ _ _
  | .vandn _ d _ _ _ | .vpopc _ d _ _ | .vclz _ d _ _ | .vbfx _ d _ _ _ | .vbfi _ d _ _ _ | .vins _ d _ _ | .vdup _ d _ _
  | .vmov _ d _ _ | .vargmax _ d _ _ _ | .vcfhash _ d _ _ _ | .vcfupd d _ _ _ | .vdesc d _ | .vphilox d _ _ => some d
  | _ => none
/-- Instructions of slot 3 that a queue takes. -/
def Instr.queued (i : Instr) : Bool := Instr.unit i != .none && (match i with | .bgath .. => false | _ => true)
/-- The field of a word that a bundle without a header extends by its sign, by its top bit's place plus one (R72, R73). -/
def Instr.signedField (i : Instr) : Option Nat :=
  match i with
  | .vaddi .. | .vslide .. => some 7
  | .ld .. | .st .. | .vld .. | .vst .. | .kld .. | .pref .. | .pld .. | .pst .. | .vldbc .. => some 9
  | .cbbind .. => some 15
  | _ => none
/-- The extension byte that a bundle without a header stands for: the sign of a signed field, else zero (R72). -/
def Instr.bareExt (i : Instr) : Byte :=
  match Instr.signedField i with
  | some n => if (encode i).getLsbD (n - 1) then 0xFF else 0
  | none => 0
/-- Instructions that stand in a slot of a bundle. -/
def Instr.inSlot (i : Instr) : Bool := (Instr.cls i).isSome || i == .nop

/-! ## Whole-state claims -/

/-- The memories hold their canonical form: addresses strictly rising, and no byte equal to what an unlisted one reads as. -/
def State.memWf (s : State) : Prop := Memory.wf s.mem ∧ Memory.wf s.spad
/-- The directory holds at most one entry of a line, in the line's own set. -/
def State.dirWf (s : State) : Prop :=
  ∀ k, (∀ e ∈ sget [] s.dir k, dirKey e.line = k) ∧ ((sget [] s.dir k).map fun (e : DirEnt) => e.line).Nodup

end Sys2Proof.Machine
end

