-- ==== Sys2Proof/Certificates/Slice0/Obligations.lean ====
section
/-! DEFINITION. The statements made about the model, for the provers. -/

open Sys2Proof Sys2Proof.Machine

/-! ## Words, bundles and steps -/

/-- Worked words of the spec decode to the instructions they stand for (R91, R143, R147, R258 notes, R277 to R281, R343, R344). -/
def Obligations.WorkedWordsDecode : Prop :=
  decodeS 0x7850C200 = .ok (.mfsr 5 0xC2) ∧ decodeS 0x7A30DD00 = .ok (.mtsr 3 0xDD) ∧ decodeS 0x78608000 = .ok (.mfsr 6 0x80) ∧
  decodeV false 0 0x82019024 = .ok (.manc 3 4) ∧ decodeV false 0 0x86A5B000 = .ok (.vsparseadd 10 11 12) ∧
  decodeV true 7 0x223184E8 = .ok (.vaddi .i32 3 3 1000 none) ∧ isHeader 0xFE000007 = true ∧
  decodeE 0 0x3A4114C0 = .ok (.rtfind 4 2 5 6) ∧ decodeE 0 0x3C71A141 = .ok (.rtdep 7 3 8 10 true) ∧
  decodeE 0 0x40920000 = .ok (.rtrel 9 4) ∧ decodeE 0 0x42920002 = .ok (.rtpin 9 4 2) ∧
  decodeE 0 0x4435B040 = .ok (.rtevict 3 2 11 12) ∧ decodeBundle 0 = .ok ⟨false, false, .nop, .nop, .nop, .nop⟩

/-- Decoding the encoding of a well-formed instruction gives it back, with every operand at every value (R72 to R82): in a bundle
that has a header always, and in one that has none exactly when its extension byte is the one such a bundle stands for, the sign
of a signed immediate, else zero. -/
def Obligations.DecodeOfEncodeIsIdentity : Prop :=
  ∀ (i : Instr) (c : SlotClass), Instr.cls i = some c → WellFormed i →
    decodeSlot c true (encodeExt i) (encode i) = .ok i ∧
    (decodeSlot c false 0 (encode i) = .ok i ↔ encodeExt i = Instr.bareExt i)

/-- A word that decodes is the encoding of the instruction it decodes to, in a bundle with a header and in one without: no two
words of a class mean one instruction, and no bit of a word is dropped; and whatever decodes passes the operand checks of steps 2
and 3 of R83 (R72 to R83). -/
def Obligations.EncodeOfDecodeIsIdentity : Prop :=
  (∀ (c : SlotClass) (ext : Byte) (w : BitVec 32) (i : Instr), decodeSlot c true ext w = .ok i → i ≠ .nop →
    Instr.cls i = some c ∧ encode i = w ∧ (c ≠ .S → encodeExt i = ext)) ∧
  (∀ (c : SlotClass) (w : BitVec 32) (i : Instr), decodeSlot c false 0 w = .ok i → i ≠ .nop →
    Instr.cls i = some c ∧ encode i = w ∧ encodeExt i = Instr.bareExt i) ∧
  (∀ (c : SlotClass) (hdr : Bool) (ext : Byte) (w : BitVec 32) (i : Instr), decodeSlot c hdr ext w = .ok i → WellFormed i)

/-- NOP (R82): in every class the opcode 0 with the other bits zero, any other word with opcode 0 and any non-zero extension byte
a reserved field, cause 3; it changes nothing. -/
def Obligations.NopChangesNothing : Prop :=
  (∀ s : State, exec .nop s = .next s) ∧
  (∀ c hdr ext, c ≠ .S → (decodeSlot c hdr ext 0 = if ext = 0 then .ok .nop else .error .reserved)) ∧
  decodeS 0 = .ok .nop ∧
  (∀ c hdr ext w, opOf w = 0 → w ≠ 0 → decodeSlot c hdr ext w = .error .reserved) ∧ DecErr.reserved.cause = 3

/-- A core's turn: when its current context is Running, has had its switch's bubble, and is neither held, pre-empted, leaving,
draining, in conflict nor owing a trap, and the line of its pc stands in the instruction cache, the sixteen bytes at the pc are decoded
and the bundle that they hold comes to issue with the context's registers captured; a bundle that does not decode traps, once the stores
before it hold passed checks (R313). Then the core goes on with the context or leaves it (State.afterIssue, of which StepRunsEvents
speaks). In the clk after a switch the core has its bubble: nothing issues (R17). -/
def Obligations.StepRunsTheBundleAtThePc : Prop :=
  ∀ (s : State) (x : ICLine),
    s.agenda = [] → s.turn < Config.cores →
    let c := s.turn
    let n := 4 * c + (s.core c).cur
    let s2 := s.enter n
    (s.ctx n).st = .running → (s.ctx n).held = none → (s.ctx n).preempted = false → (s.ctx n).leaving = false →
    ((s.core c).bubble = true →
      step s = .next ((s.updCore c fun k => { k with bubble := false }).bump 3 n 1).afterTurn) ∧
    ((s.core c).bubble = false → (s.ctx n).draining = false → (s2.ctx n).conflict = false → (s2.ctx n).nextOwed = none →
      (s2.core (coreOf n)).icFind (s2.ctx n).regs.pc (s2.launchOf n) = some x →
      let s3 := s2.updCore (coreOf n) fun k => k.icPut x
      s3.cur = n ∧ s3.lat = (s.ctx n).regs.fmtEffect ∧ s3.issue.pc = s3.lat.pc ∧
      step s = andThen (match decodeBundle (bundleIn x.data (s2.ctx n).regs.pc) with
        | .ok b => s3.runBundle b
        | .error e =>
          s3.atPoint ({ s3 with issue := { s3.issue with slot := e.slot, opcode := e.opcode } }.resolve (.trap e.err.cause 0) id))
        (fun t => .next (t.afterIssue c).afterTurn))

/-- An issuing bundle (R15, R84, R104, R108, R127, R312): every slot's instruction is performed by exec, each reading the captured
registers. That they act in the order slot 0, then 3, 2, 1, and that end and trap act last, is the model's choice (log 5): R84
gives the slots no order. Then, unless a trap has been taken, the pc moves by the loop rules and an implicit restart point
commits. -/
def Obligations.IssueRunsEverySlot : Prop :=
  ∀ (s : State) (b : Bundle) (t1 t2 t3 t4 : State),
    let s0 := (s.divIssue b).bump 2 s.cur 1
    let close (t : State) : State :=
      let u := t.advance
      if pointBundle b then u.commitAt u.cur u.cx.regs.pc else u
    (Instr.isLast b.i0 = false →
      s0.runSlot (0, b.i0) = .next t1 → t1.runSlot (3, b.i3) = .next t2 → t2.runSlot (2, b.i2) = .next t3 →
      t3.runSlot (1, b.i1) = .next t4 → t4.issue.trapped = false →
      s.issueBundle b = .next (close (t4.updRegs Regs.fmtCount))) ∧
    (Instr.isLast b.i0 = true →
      s0.runSlot (3, b.i3) = .next t1 → t1.runSlot (2, b.i2) = .next t2 → t2.runSlot (1, b.i1) = .next t3 →
      (t3.updRegs Regs.fmtCount).runSlot (0, b.i0) = .next t4 →
      s.issueBundle b = .next (if t4.issue.trapped then t4 else close t4))

/-- The events of the agenda happen first, one for each step; with none waiting, the engines' and managers' move comes before the
cores' turns of the clk (R36), and makes a host access that waited for its die, else the event that is due, else the cores' turns begin
(log 4, the model's order). After its context's turn a core goes on with it while it is Running and live; else it selects the next Ready
one in the order current+1, current+2, current+3, current, whose first bundle follows one bubble, or, with none Ready, idles (R17). After
the last core's turn the clk ends: a Blocked context whose condition has cleared is Ready from the next clk on (R17, R42), and nothing of a
context's registers, gate or checkpoint changes. -/
def Obligations.StepRunsEvents : Prop :=
  (∀ (s : State) (i : Instr) (rest : List Instr), s.agenda = i :: rest →
    (Instr.inSlot i = false → step s = exec i { s with agenda := rest }) ∧
    (Instr.inSlot i = true → step s = .next { s with agenda := rest })) ∧
  (∀ s : State, s.agenda = [] → s.turn = Config.cores →
    (∀ t, s.heldAccess = some t → step s = .next t) ∧
    (s.heldAccess = none → (∀ i, s.due = some i → step s = exec i s) ∧
      (s.due = none → step s = .next { s with turn := 0 }))) ∧
  (∀ (s : State) (c : Nat),
    let n := 4 * c + (s.core c).cur
    let t := s.afterIssue c
    let ready (i : Nat) : Prop := (s.ctx (4 * c + ((s.core c).cur + i) % 4)).st = .ready ∧ (s.ctx (4 * c + ((s.core c).cur + i) % 4)).live = true
    ((s.ctx n).st = .running → (s.ctx n).live = true → t.ctx n = s.ctx n ∧ (t.core c).cur = (s.core c).cur ∧ (t.core c).busy = true ∧
      (t.core c).bubble = (s.core c).bubble) ∧
    (¬ ((s.ctx n).st = .running ∧ (s.ctx n).live = true) →
      (∀ i, 1 ≤ i → i ≤ 4 → ready i → (∀ j, 1 ≤ j → j < i → ¬ ready j) →
        let m := 4 * c + ((s.core c).cur + i) % 4
        (t.ctx m).st = .running ∧ (t.ctx m).regs = (s.ctx m).regs ∧ (t.core c).cur = ((s.core c).cur + i) % 4 ∧
          (t.core c).busy = true ∧ (t.core c).bubble = true) ∧
      ((∀ i, 1 ≤ i → i ≤ 4 → ¬ ready i) → (t.core c).busy = false ∧ t.ctxs = s.ctxs))) ∧
  (∀ s : State, (s.turn + 1 < Config.cores → s.afterTurn = { s with turn := s.turn + 1 }) ∧
    (Config.cores ≤ s.turn + 1 → s.afterTurn = s.endClk)) ∧
  (∀ s : State, s.endClk.clk = s.clk + 1 ∧ s.endClk.turn = Config.cores ∧ s.endClk.mem = s.mem ∧ s.endClk.spad = s.spad ∧
    ∀ n, (s.endClk.ctx n).regs = (s.ctx n).regs ∧ (s.endClk.ctx n).ck = (s.ctx n).ck ∧ (s.endClk.ctx n).gate = (s.ctx n).gate ∧
      ((s.ctx n).st ≠ .blocked → (s.endClk.ctx n).st = (s.ctx n).st)) ∧
  (∀ (s : State) (n : Nat), (s.ctx n).st = .blocked → (s.ctx n).live = true →
    (s.unblocked n = true → (s.wakeCtx n).ctx n = { s.ctx n with st := .ready, waitOn := none }) ∧
    (s.unblocked n = false → s.wakeCtx n = s))

/-! ## Class S: results -/

/-- The register-register instructions of R97, the compares of R101 and the immediate instructions of R98. -/
def Obligations.ScalarArithmeticResults : Prop :=
  ∀ (s : State) (d a b : SReg) (imm : BitVec 15) (sh : BitVec 6) (x : BitVec 20),
    exec (.add d a b) s = .next (s.wS d (s.rS a + s.rS b)) ∧
    exec (.sub d a b) s = .next (s.wS d (s.rS a - s.rS b)) ∧
    exec (.and d a b) s = .next (s.wS d (s.rS a &&& s.rS b)) ∧
    exec (.or d a b) s = .next (s.wS d (s.rS a ||| s.rS b)) ∧
    exec (.xor d a b) s = .next (s.wS d (s.rS a ^^^ s.rS b)) ∧
    exec (.shl d a b) s = .next (s.wS d (BitVec.ofNat 64 ((s.rS a).toNat * 2 ^ ((s.rS b).toNat % 64)))) ∧
    exec (.shr d a b) s = .next (s.wS d (BitVec.ofNat 64 ((s.rS a).toNat / 2 ^ ((s.rS b).toNat % 64)))) ∧
    exec (.sra d a b) s = .next (s.wS d (BitVec.ofInt 64 ((s.rS a).toInt / (2 ^ ((s.rS b).toNat % 64) : Nat)))) ∧
    exec (.min d a b) s = .next (s.wS d (if (s.rS a).toInt ≤ (s.rS b).toInt then s.rS a else s.rS b)) ∧
    exec (.max d a b) s = .next (s.wS d (if (s.rS a).toInt ≥ (s.rS b).toInt then s.rS a else s.rS b)) ∧
    exec (.mul d a b) s = .next (s.wS d (BitVec.ofNat 64 ((s.rS a).toNat * (s.rS b).toNat))) ∧
    exec (.mulh d a b) s = .next (s.wS d (BitVec.ofInt 64 ((s.rS a).toInt * (s.rS b).toInt / 2 ^ 64))) ∧
    exec (.mulhu d a b) s = .next (s.wS d (BitVec.ofNat 64 ((s.rS a).toNat * (s.rS b).toNat / 2 ^ 64))) ∧
    exec (.slt d a b) s = .next (s.wS d (if (s.rS a).toInt < (s.rS b).toInt then 1 else 0)) ∧
    exec (.sltu d a b) s = .next (s.wS d (if (s.rS a).toNat < (s.rS b).toNat then 1 else 0)) ∧
    exec (.addi d a imm) s = .next (s.wS d (s.rS a + BitVec.ofInt 64 imm.toInt)) ∧
    exec (.andi d a imm) s = .next (s.wS d (s.rS a &&& BitVec.ofInt 64 imm.toInt)) ∧
    exec (.ori d a imm) s = .next (s.wS d (s.rS a ||| BitVec.ofInt 64 imm.toInt)) ∧
    exec (.xori d a imm) s = .next (s.wS d (s.rS a ^^^ BitVec.ofInt 64 imm.toInt)) ∧
    exec (.shli d a sh) s = .next (s.wS d (BitVec.ofNat 64 ((s.rS a).toNat * 2 ^ sh.toNat))) ∧
    exec (.shri d a sh) s = .next (s.wS d (BitVec.ofNat 64 ((s.rS a).toNat / 2 ^ sh.toNat))) ∧
    exec (.srai d a sh) s = .next (s.wS d (BitVec.ofInt 64 ((s.rS a).toInt / (2 ^ sh.toNat : Nat)))) ∧
    exec (.li d x) s = .next (s.wS d (BitVec.ofInt 64 x.toInt)) ∧
    exec (.lic d x) s = .next (s.wS d (BitVec.ofNat 64 ((s.rS d).toNat * 2 ^ 20 + x.toNat)))

/-- Division (R99): it never traps, truncates toward zero, gives all ones for a zero divisor, and −2^63 by −1 gives −2^63; a
remainder is sA − sB × quotient. -/
def Obligations.DivisionTruncatesAndNeverTraps : Prop :=
  ∀ (s : State) (d a b : SReg),
    exec (.div d a b) s = .next (s.wS d (if s.rS b = 0 then BitVec.ofNat 64 (2 ^ 64 - 1)
      else BitVec.ofInt 64 (Int.tdiv (s.rS a).toInt (s.rS b).toInt))) ∧
    exec (.divu d a b) s = .next (s.wS d (if s.rS b = 0 then BitVec.ofNat 64 (2 ^ 64 - 1)
      else BitVec.ofNat 64 ((s.rS a).toNat / (s.rS b).toNat))) ∧
    ((s.rS a).toInt = -(2 ^ 63) → (s.rS b).toInt = -1 → exec (.div d a b) s = .next (s.wS d (s.rS a))) ∧
    (s.rS b ≠ 0 → s.rS a - s.rS b * BitVec.ofInt 64 (Int.tdiv (s.rS a).toInt (s.rS b).toInt) =
      BitVec.ofInt 64 (Int.tmod (s.rS a).toInt (s.rS b).toInt))

/-- Bit fields and funnel shifts (R100): with a field inside the register, or a count up to 64, the result; else cause 15. -/
def Obligations.BitFieldResults : Prop :=
  ∀ (s : State) (d a b c : SReg),
    let x := (s.rS a).toNat
    let o := (s.rS b).toNat
    let w := (s.rS c).toNat
    let f := x / 2 ^ o % 2 ^ w
    let y := x * 2 ^ 64 + o
    (o ≤ 63 → 1 ≤ w → o + w ≤ 64 →
      exec (.bfxu d a b c) s = .next (s.wS d (BitVec.ofNat 64 f)) ∧
      exec (.bfxs d a b c) s = .next (s.wS d (BitVec.ofInt 64 (if 2 ^ (w - 1) ≤ f then (f : Int) - (2 ^ w : Nat) else f))) ∧
      ∃ r : Word64, exec (.bfi d a b c) s = .next (s.wS d r) ∧
        ∀ i < 64, r.getLsbD i = if o ≤ i ∧ i < o + w then (s.rS a).getLsbD (i - o) else (s.rS d).getLsbD i) ∧
    (w ≤ 64 →
      exec (.fshl d a b c) s = .next (s.wS d (BitVec.ofNat 64 (y * 2 ^ w % 2 ^ 128 / 2 ^ 64))) ∧
      exec (.fshr d a b c) s = .next (s.wS d (BitVec.ofNat 64 (y / 2 ^ w % 2 ^ 64)))) ∧
    (¬ (o ≤ 63 ∧ 1 ≤ w ∧ o + w ≤ 64) → s.settled s.cur = true →
      exec (.bfxu d a b c) s = .next (s.trapHere 15 0) ∧ exec (.bfxs d a b c) s = .next (s.trapHere 15 0) ∧
      exec (.bfi d a b c) s = .next (s.trapHere 15 0)) ∧
    (64 < w → s.settled s.cur = true →
      exec (.fshl d a b c) s = .next (s.trapHere 15 0) ∧ exec (.fshr d a b c) s = .next (s.trapHere 15 0))

/-- Counts and select (R101), and pcmp (R102): conditions 0 to 5 set all bits or none; lanes enables the first sA elements of
width sB; a width that is no element width is cause 16. -/
def Obligations.CountAndSelectResults : Prop :=
  ∀ (s : State) (d a b : SReg) (c : PReg),
    let all (x : Bool) : BitVec 128 := if x then ~~~0 else 0
    let wide : Prop := s.rS b = 1 ∨ s.rS b = 2 ∨ s.rS b = 4 ∨ s.rS b = 8
    (∃ n : Nat, exec (.clz d a) s = .next (s.wS d (BitVec.ofNat 64 n)) ∧ n ≤ 64 ∧
      (∀ i < 64, 64 - n ≤ i → (s.rS a).getLsbD i = false) ∧ (n < 64 → (s.rS a).getLsbD (63 - n) = true)) ∧
    (∃ n : Nat, exec (.ctz d a) s = .next (s.wS d (BitVec.ofNat 64 n)) ∧ n ≤ 64 ∧
      (∀ i < n, (s.rS a).getLsbD i = false) ∧ (n < 64 → (s.rS a).getLsbD n = true)) ∧
    exec (.popc d a) s = .next (s.wS d (BitVec.ofNat 64 ((List.range 64).filter fun i => (s.rS a).getLsbD i).length)) ∧
    exec (.sel d a b c) s = .next (s.wS d (if (s.rP c).getLsbD 0 then s.rS a else s.rS b)) ∧
    exec (.pcmp c a b 0) s = .next (s.wP c (all (s.rS a == s.rS b))) ∧
    exec (.pcmp c a b 1) s = .next (s.wP c (all (s.rS a != s.rS b))) ∧
    exec (.pcmp c a b 2) s = .next (s.wP c (all (decide ((s.rS a).toInt < (s.rS b).toInt)))) ∧
    exec (.pcmp c a b 3) s = .next (s.wP c (all (decide ((s.rS a).toInt ≥ (s.rS b).toInt)))) ∧
    exec (.pcmp c a b 4) s = .next (s.wP c (all (decide ((s.rS a).toNat < (s.rS b).toNat)))) ∧
    exec (.pcmp c a b 5) s = .next (s.wP c (all (decide ((s.rS a).toNat ≥ (s.rS b).toNat)))) ∧
    (wide → ∃ p : BitVec 128, exec (.pcmp c a b 6) s = .next (s.wP c p) ∧
      ∀ i < 128, p.getLsbD i = decide (i / (s.rS b).toNat < (s.rS a).toNat)) ∧
    (¬ wide → s.settled s.cur = true → exec (.pcmp c a b 6) s = .next (s.trapHere 16 0))

/-- Address registers (R103): the offset wraps modulo 2^68 and the home field is kept. -/
def Obligations.AddressRegisterResults : Prop :=
  ∀ (s : State) (d a e : QReg) (x y : SReg) (imm : BitVec 15),
    let home (q : VA) : Nat := q.toNat / 2 ^ 68
    let off (q : VA) : Nat := q.toNat % 2 ^ 68
    (∃ q : VA, exec (.qadd d a y) s = .next (s.wQ d q) ∧ home q = home (s.rQ a) ∧
      (off q : Int) = ((off (s.rQ a) : Int) + (s.rS y).toInt) % 2 ^ 68) ∧
    (∃ q : VA, exec (.qaddi d a imm) s = .next (s.wQ d q) ∧ home q = home (s.rQ a) ∧
      (off q : Int) = ((off (s.rQ a) : Int) + imm.toInt) % 2 ^ 68) ∧
    exec (.qsub x a e) s = .next (s.wS x (BitVec.ofInt 64 ((off (s.rQ a) : Int) - off (s.rQ e)))) ∧
    exec (.qmov d x y) s = .next (s.wQ d ((s.rS y).extractLsb' 0 8 ++ s.rS x)) ∧
    exec (.qtos x a false) s = .next (s.wS x (BitVec.ofNat 64 (s.rQ a).toNat)) ∧
    exec (.qtos x a true) s = .next (s.wS x (BitVec.ofNat 64 ((s.rQ a).toNat / 2 ^ 64))) ∧
    (∃ q : VA, exec (.qhome d a y) s = .next (s.wQ d q) ∧ home q = (s.rS y).toNat % 16 ∧ off q = off (s.rQ a))

/-- Branches and transfers (R104, R105): a taken transfer sends fetch to the bundle OFF bundles on, or to qA; call writes the
address of the next bundle to q15; a misaligned jr is cause 2. -/
def Obligations.TransferResults : Prop :=
  ∀ (s : State) (a b : SReg) (q : QReg) (off : BitVec 15) (far : BitVec 25),
    let go (taken : Bool) : Host.Outcome State Fault Refusal :=
      .next (if taken then s.transfer (qoff s.issue.pc (16 * off.toInt)) else s)
    exec (.beq a b off) s = go (s.rS a == s.rS b) ∧
    exec (.bne a b off) s = go (s.rS a != s.rS b) ∧
    exec (.blt a b off) s = go (decide ((s.rS a).toInt < (s.rS b).toInt)) ∧
    exec (.bge a b off) s = go (decide ((s.rS a).toInt ≥ (s.rS b).toInt)) ∧
    exec (.bltu a b off) s = go (decide ((s.rS a).toNat < (s.rS b).toNat)) ∧
    exec (.bgeu a b off) s = go (decide ((s.rS a).toNat ≥ (s.rS b).toNat)) ∧
    exec (.jmp far) s = .next (s.transfer (qoff s.issue.pc (16 * far.toInt))) ∧
    exec (.call far) s = .next ((s.wQ 15 (qoff s.issue.pc 16)).direct (qoff s.issue.pc (16 * far.toInt))) ∧
    ((s.rQ q).toNat % 16 = 0 → exec (.jr q) s = .next (s.transfer (s.rQ q))) ∧
    ((s.rQ q).toNat % 16 ≠ 0 → s.settled s.cur = true → exec (.jr q) s = .next (s.trapHere 2 0)) ∧
    (∀ t : VA, (s.transfer t).cx.regs = { s.cx.regs with pc := t } ∧ (s.direct t).cx.regs = { s.cx.regs with pc := t })

/-- Hardware loops (R107, R108): a body after the bundle, a depth below four and a count below 2^32 open the loop; a count of zero
skips the body; a body that ends no later than the loop bundle, or a loop at the end of the innermost body, is cause 14, a
fifth loop cause 13, a count of 2^32 or more cause 16. After a bundle (R108): at the innermost body's end a loop with passes
left goes back and counts one down, a loop without leaves the stack and the next one is asked; a taken transfer from inside a body
to outside it breaks that loop, and to a target inside it leaves every loop standing. Where several of these causes hold, 14 comes
first, then 16, then 13: the order is the model's choice (log 64), as R108's pseudocode names no limit of the count. -/
def Obligations.LoopOpens : Prop :=
  (∀ (s : State) (a : SReg) (n : BitVec 10) (off : BitVec 15),
    let ls := s.lat.loops
    let shape := 1 ≤ off.toInt ∧ ∀ e, ls.head? = some e → e.last ≠ s.issue.pc
    let opened (k : Nat) : State := (s.updRegs fun r =>
      { r with loops := ⟨qoff s.issue.pc 16, qoff s.issue.pc (16 * off.toInt), k⟩ :: r.loops }).direct (qoff s.issue.pc 16)
    let skipped : State := s.direct (qoff s.issue.pc (16 * (off.toInt + 1)))
    let k := (s.rS a).toNat
    (shape → ls.length < 4 →
      (1 ≤ k → k < 2 ^ 32 → exec (.loop a off) s = .next (opened k)) ∧
      (n ≠ 0 → exec (.loopi n off) s = .next (opened n.toNat))) ∧
    (shape → (k = 0 → exec (.loop a off) s = .next skipped) ∧ (n = 0 → exec (.loopi n off) s = .next skipped)) ∧
    (s.settled s.cur = true →
      (¬ shape → exec (.loop a off) s = .next (s.trapHere 14 0) ∧ exec (.loopi n off) s = .next (s.trapHere 14 0)) ∧
      (shape → 4 ≤ ls.length →
        (1 ≤ k → k < 2 ^ 32 → exec (.loop a off) s = .next (s.trapHere 13 0)) ∧
        (n ≠ 0 → exec (.loopi n off) s = .next (s.trapHere 13 0))) ∧
      (shape → 2 ^ 32 ≤ k → exec (.loop a off) s = .next (s.trapHere 16 0)))) ∧
  (∀ (pc : VA) (e : LoopEnt) (r : List LoopEnt),
    (e.last = pc → 1 < e.remaining → loopBack pc (e :: r) = ({ e with remaining := e.remaining - 1 } :: r, some e.start)) ∧
    (e.last = pc → e.remaining ≤ 1 → loopBack pc (e :: r) = loopBack pc r) ∧
    (e.last ≠ pc → loopBack pc (e :: r) = (e :: r, none))) ∧
  (∀ (pc t : VA) (ls : List LoopEnt), ∃ k, breakLoops pc t ls = ls.drop k ∧
    (∀ e ∈ ls.take k, e.inside pc = true ∧ e.inside t = false) ∧
    (∀ e, (ls.drop k).head? = some e → e.inside pc = false ∨ e.inside t = true))

/-- end, yield, tnext and wait (R109 to R111, R113): end retires the context once its gated stores hold passed checks; yield makes
it Ready; tnext takes the next register in rotation and lands the next grant of the die 24 clk on; wait pops the oldest token of
the context that stands since an earlier clk, blocks with none, and traps with cause 132 on overflow. -/
def Obligations.ContextControlResults : Prop :=
  ∀ (s : State) (d : SReg),
    (s.recheck s.cur = .ok → exec .endCtx s =
      .next ((s.upd fun c => { c with st := .retiring, landings := [], regs := { c.regs with loops := [] } }).domainCheck s.cur)) ∧
    exec .yield s = .next (s.upd fun c => { c with st := .ready }) ∧
    (∃ t, exec .tnext s = .next t ∧ t.cx.rot = (s.cx.rot + 1) % 4 ∧ t.cx.regs = s.cx.regs ∧
      t.cx.landings = s.cx.landings ++
        [⟨s.clk + 24, s.cx.rot, (s.launchOf s.cur).tileValue (dieOf s.cur) (sget 0 (s.launchOf s.cur).granted (dieOf s.cur))⟩]) ∧
    ((s.core (coreOf s.cur)).overflow = false →
      (∀ tok rest, takeToken s.cur s.clk (s.core (coreOf s.cur)).wakeQ = some (tok, rest) →
        ∃ t, exec (.wait d) s = .next t ∧ t.cx.regs = s.cx.regs.ws d (BitVec.ofNat 64 (tok.value.toNat + 65536 * tok.cmp)) ∧
          (t.core (coreOf s.cur)).wakeQ = rest) ∧
      (takeToken s.cur s.clk (s.core (coreOf s.cur)).wakeQ = none →
        ∃ t, exec (.wait d) s = .next t ∧ t.cx = { s.cx with st := .blocked })) ∧
    ((s.core (coreOf s.cur)).overflow = true → s.settled s.cur = true →
      exec (.wait d) s = .next ((s.updCore (coreOf s.cur) fun k => { k with overflow := false }).trapHere 132 0))

/-- warm (R112): lengths and offsets in whole lines within the scratchpad arm the comparator with the context's tag and a count of
zero, to count the bytes that perform from the next clk on; a length of zero disarms it, anything else is cause 16. -/
def Obligations.WarmArmsTheComparator : Prop :=
  ∀ (s : State) (a b c : SReg) (n : BitVec 3) (rep : Bool),
    let lo := (s.rS a).toNat
    let len := (s.rS b).toNat
    (len = 0 → ∃ t, exec (.warm a b c n rep) s = .next t ∧ (sget Cmp.zero (t.core (coreOf s.cur)).cmps n.toNat).on = false) ∧
    (lo % 128 = 0 → len % 128 = 0 → 128 ≤ len → len ≤ 2 ^ 20 → lo + len ≤ 2 ^ 22 →
      ∃ t, exec (.warm a b c n rep) s = .next t ∧ t.ctxs = s.ctxs ∧ t.mem = s.mem ∧ t.spad = s.spad ∧
        sget Cmp.zero (t.core (coreOf s.cur)).cmps n.toNat =
          ⟨true, lo, len, (s.rS c).extractLsb' 0 16, rep, s.cur, 0, s.clk + 1⟩ ∧
        ∀ k : BitVec 3, k ≠ n → sget Cmp.zero (t.core (coreOf s.cur)).cmps k.toNat =
          sget Cmp.zero (s.core (coreOf s.cur)).cmps k.toNat) ∧
    (¬ (len = 0 ∨ (lo % 128 = 0 ∧ len % 128 = 0 ∧ 128 ≤ len ∧ len ≤ 2 ^ 20 ∧ lo + len ≤ 2 ^ 22)) → s.settled s.cur = true →
      exec (.warm a b c n rep) s = .next (s.trapHere 16 0))

/-- fmt (R64, R65, R116): an accepted value is pending for five bundles of the context, the writing one and the four after it,
and then stands; a rejected one is cause 7. -/
def Obligations.FmtWriteTakesEffectAfterFourBundles : Prop :=
  ∀ (s : State) (a : SReg),
    (fmtOk (s.rS a) = true → exec (.fmtset a) s = .next (s.updRegs fun r => { r with fmtPend := r.fmtPend ++ [(s.rS a, 5)] })) ∧
    (fmtOk (s.rS a) = false → s.settled s.cur = true → exec (.fmtset a) s = .next (s.trapHere 7 0)) ∧
    (∀ (r : Regs) (x : Word64) (k : Nat), r.fmtPend = [(x, 5)] →
      let next (r : Regs) : Regs := r.fmtCount.fmtEffect
      (k < 5 → (next^[k] r).fmt = r.fmt) ∧ (5 ≤ k → (next^[k] r).fmt = x))

/-- trap and tret (R96, R118, R119, R312, R319): trap, an implicit restart point, enters with its immediate and the next bundle as
return address, after its bundle's checkpoint has committed; that this checkpoint comes first also where no handler is installed
is the model's reading (log 44). tret in a handler returns to the address that TPC holds and clears INTRAP, outside a handler it
is cause 10; an address that TPC can hold is decoded as it was. -/
def Obligations.TrapAndReturn : Prop :=
  ∀ (s : State) (imm : BitVec 20),
    (s.cx.landings = [] → s.landedBefore s.cur = true →
      let t := (s.markAt s.cur (qoff s.issue.pc 16)).takeTrap s.cur ⟨9, imm.setWidth 64, s.issue.slot, s.issue.opcode, false⟩ true
        (qoff s.issue.pc 16)
      exec (.trap imm) s = .next { t with issue := { t.issue with trapped := true } }) ∧
    (s.lat.tstate.getLsbD 0 = true → ∃ t, exec .tret s = .next t ∧ t.issue.direct = some (pcDec s.lat.tpc) ∧
      t.cx.regs = { s.cx.regs with tstate := 0, pc := pcDec s.lat.tpc } ∧ t.mem = s.mem ∧ t.spad = s.spad) ∧
    (s.lat.tstate.getLsbD 0 = false → s.settled s.cur = true → exec .tret s = .next (s.trapHere 10 0)) ∧
    (∀ x : VA, x.toNat % 16 = 0 → x.toNat / 2 ^ 48 % 2 ^ 20 = 0 → pcDec (pcEnc x) = x)

/-- Trap entry (R317 to R319): with a handler and outside one, a checkpoint is committed at the trap's boundary, with the return bundle
as its address, and then the cause word, the value, the return address and INTRAP are written and fetch goes to the handler's
bundle. With none, or in one, the context retires at its last checkpoint and its launch, where no trap has ended it before, ends
with the cause, or with 327 in a handler. The last clause is the model's reading (log 38): an engine command's fault that is owed
is taken in place of the trap, with the trap's return address, and a trap that issuing again would not raise waits behind it. -/
def Obligations.TrapEntry : Prop :=
  ∀ (s : State) (n : Nat) (o : Owed) (once : Bool) (ret : VA),
    let r := (s.ctx n).regs
    let t := s.takeTrap n o once ret
    let entry := qoff (s.launchOf n).code (16 * (r.tvec.toNat % 2 ^ 32))
    ((s.ctx n).engFaults = [] → r.tvec.getLsbD 63 = true → r.tstate.getLsbD 0 = false → (s.ctx n).gate = [] →
      (s.ctx n).abortAt = none → (s.ctx n).preq = false → (s.ctx n).st ≠ .retiring →
      (t.ctx n).ck = { r with pc := ret } ∧
      (t.ctx n).regs = { r with
        tcause := BitVec.ofNat 64 (o.cause + 2 ^ 9 * o.slot + 2 ^ 11 * o.opcode + if o.fault then 2 ^ 18 else 0)
        tval := o.tval, tpc := pcEnc ret, tstate := 1, pc := entry } ∧
      (t.ctx n).gate = [] ∧ t.mem = s.mem ∧ t.spad = s.spad ∧ ∀ m, m ≠ n → t.ctx m = s.ctx m) ∧
    ((s.ctx n).engFaults = [] → (r.tvec.getLsbD 63 = false ∨ r.tstate.getLsbD 0 = true) →
      (t.ctx n).st = .retiring ∧ (t.ctx n).regs = (s.ctx n).ck ∧ (t.ctx n).gate = [] ∧
      ∀ l, (s.ctx n).launch = some l → (s.launchRec l).status = 0 →
        (t.launchRec l).status = if r.tstate.getLsbD 0 then 327 else o.cause) ∧
    (∀ f rest, (s.ctx n).engFaults = f :: rest →
      t = (s.updCtx n fun c => { c with owed := if once then o :: c.owed else c.owed, engFaults := rest }).enterTrap n
        ⟨f.1, tvalOf f.2, 0, 0, true⟩ true ret)

/-- mfsr and mtsr (R10, R76, R115, R117): a listed register with no landing or command that owes it reads its value; a listed
writable one takes an accepted value, which then reads back, its ignored bits as zero; all else is the cause the register's rule
names. That GITER is writable is the model's reading (log 42), and so is the wait of the generation registers for the commands
that write them (log 27). -/
def Obligations.SystemRegisterAccess : Prop :=
  ∀ (s : State) (d a : SReg) (sr : BitVec 12),
    (∀ x, s.readSR sr.toNat = some x → s.genQuiet sr.toNat = .ok →
      ¬ (4 ≤ sr.toNat ∧ sr.toNat ≤ 7 ∧ s.cx.landings.any (fun l => l.reg == sr.toNat - 4) = true) →
      exec (.mfsr d sr) s = .next (s.wS d x)) ∧
    (s.readSR sr.toNat = none → s.settled s.cur = true → exec (.mfsr d sr) s = .next (s.trapHere 12 0)) ∧
    (mtsrCause sr.toNat (s.rS a) = 0 → s.genQuiet sr.toNat = .ok → exec (.mtsr a sr) s = .next (s.writeSR sr.toNat (s.rS a))) ∧
    (mtsrCause sr.toNat (s.rS a) ≠ 0 → s.settled s.cur = true →
      exec (.mtsr a sr) s = .next (s.trapHere (mtsrCause sr.toNat (s.rS a)) 0)) ∧
    (sr.toNat = 2 ∨ (4 ≤ sr.toNat ∧ sr.toNat ≤ 7) → mtsrCause sr.toNat (s.rS a) = 12) ∧
    ∀ x : Word64,
      let n := sr.toNat
      let t := s.writeSR n x
      let back := { t with issue := { t.issue with lat := t.cx.regs } }.readSR n
      let low (k : Nat) : Option Word64 := some (BitVec.ofNat 64 (x.toNat % 2 ^ k))
      (n = 1 → s.issue.flags = 0 → back = low 6) ∧ (0x10 ≤ n ∧ n ≤ 0x17 → back = low 6) ∧
      (n = 0x20 ∨ n = 0x22 ∨ n = 0x25 ∨ (0x68 ≤ n ∧ n ≤ 0x6F) ∨ (0xC0 ≤ n ∧ n ≤ 0xCF) → back = some x) ∧
      (n = 0x60 → back = low 16) ∧ (n = 0x61 → back = low 4) ∧ (n = 0x63 → back = low 32)

/-! ## Class V: results -/

/-- Element-wise arithmetic, shifts and special functions complete in every state with the map of the operation (R128 to R130, R135);
an immediate shift count at or above the element's width is cause 16. -/
def Obligations.VectorArithmeticResults : Prop :=
  ∀ (s : State) (ty : Ty) (d a b : VReg) (p : Pred) (imm : BitVec 15),
    exec (.vadd ty d a b p) s = .next (s.vmap2 ty d a b p (elem2 ty fpAdd (· + ·))) ∧
    exec (.vsub ty d a b p) s = .next (s.vmap2 ty d a b p (elem2 ty fpSub (· - ·))) ∧
    exec (.vmul ty d a b p) s = .next (s.vmap2 ty d a b p (elem2 ty fpMul (· * ·))) ∧
    exec (.vfma ty d a b p) s = .next (s.vfused ty d a b p false) ∧
    exec (.vfms ty d a b p) s = .next (s.vfused ty d a b p true) ∧
    exec (.vdiv ty d a b p) s = .next (s.vmap2 ty d a b p (fpDiv (tyFmt ty))) ∧
    exec (.vmin ty d a b p) s = .next (s.vmap2 ty d a b p (elem2 ty fpMin min)) ∧
    exec (.vmax ty d a b p) s = .next (s.vmap2 ty d a b p (elem2 ty fpMax max)) ∧
    exec (.vabs ty d a p) s = .next (s.vmap1 ty d a p fun x =>
      if ty.isFp then fpAbs (tyFmt ty) x else intRes ty (elemInt ty x).natAbs) ∧
    exec (.vneg ty d a p) s = .next (s.vmap1 ty d a p fun x =>
      if ty.isFp then fpNeg (tyFmt ty) x else intRes ty (-(elemInt ty x))) ∧
    exec (.vadds ty d a b p) s = .next (s.vmap2 ty d a b p fun x y => intRes ty (clampTy ty (elemInt ty x + elemInt ty y))) ∧
    exec (.vsubs ty d a b p) s = .next (s.vmap2 ty d a b p fun x y => intRes ty (clampTy ty (elemInt ty x - elemInt ty y))) ∧
    exec (.vmulh ty d a b p) s =
      .next (s.vmap2 ty d a b p fun x y => intRes ty (elemInt ty x * elemInt ty y / (2 ^ (8 * ty.width) : Nat))) ∧
    exec (.vshl ty d a b p) s = .next (s.vmap2 ty d a b p (vShl ty)) ∧
    exec (.vshr ty d a b p) s = .next (s.vmap2 ty d a b p (vShr ty)) ∧
    exec (.vsra ty d a b p) s = .next (s.vmap2 ty d a b p (vSra ty)) ∧
    exec (.vaddi ty d a imm p) s = .next (s.vmap1 ty d a p fun x => intRes ty (elemInt ty x + imm.toInt)) ∧
    (imm.toNat < 8 * ty.width →
      exec (.vshli ty d a imm p) s = .next (s.vmap1 ty d a p fun x => (x * 2 ^ imm.toNat % 2 ^ (8 * ty.width), 0)) ∧
      exec (.vshri ty d a imm p) s = .next (s.vmap1 ty d a p fun x => (x / 2 ^ imm.toNat, 0)) ∧
      exec (.vsrai ty d a imm p) s = .next (s.vmap1 ty d a p fun x => vSra ty x imm.toNat)) ∧
    (8 * ty.width ≤ imm.toNat → s.settled s.cur = true →
      exec (.vshli ty d a imm p) s = .next (s.trapHere 16 0) ∧ exec (.vshri ty d a imm p) s = .next (s.trapHere 16 0) ∧
      exec (.vsrai ty d a imm p) s = .next (s.trapHere 16 0)) ∧
    exec (.vexp2 ty d a p) s = .next (s.vmap1 ty d a p (fpExp2 (tyFmt ty))) ∧
    exec (.vlog2 ty d a p) s = .next (s.vmap1 ty d a p (fpLog2 (tyFmt ty))) ∧
    exec (.vrcp ty d a p) s = .next (s.vmap1 ty d a p (fpRcp (tyFmt ty))) ∧
    exec (.vrsqrt ty d a p) s = .next (s.vmap1 ty d a p (fpRsqrt (tyFmt ty)))

/-- Compares, select, conversions, reductions and scans complete in every state (R131 to R136). A reduction is the pairwise tree over all
elements, in element 0, and zero in the others; a scan runs steps of distance 1, 2, 4 and on, each element of a step from the values of
the step before; disabled elements enter as the identity, −0 and 0 of add, the least of max and the greatest of min (R60). That every op
of a scan raises its flags is the model's choice (log 74). vcvt writes the elements of its part, or
widens the elements of its part, converted as R56 gives it for each pair of kinds, with the flags of the enabled ones; the others
keep vD's. That a floating-point value clamped to an integer raises NX beside NV is the model's reading (log 34). -/
def Obligations.VectorCompareAndReduceResults : Prop :=
  ∀ (s : State) (ty src : Ty) (d a b : VReg) (q c : PReg) (p : Pred) (part : BitVec 2) (planes : BitVec 3),
    exec (.vcmpeq ty q a b p) s = .next (s.vcompare ty q a b p false (elemEq ty)) ∧
    exec (.vcmpne ty q a b p) s = .next (s.vcompare ty q a b p false fun x y => !elemEq ty x y) ∧
    exec (.vcmplt ty q a b p) s = .next (s.vcompare ty q a b p true (elemLt ty)) ∧
    exec (.vcmple ty q a b p) s = .next (s.vcompare ty q a b p true fun x y => elemLt ty x y || elemEq ty x y) ∧
    (∃ v, exec (.vsel ty d a b c) s = .next (s.wV d v) ∧ ∀ i < 128 / ty.width,
      lane ty.width v i = if (s.rP c).getLsbD (i * ty.width) then lane ty.width (s.rV a) i else lane ty.width (s.rV b) i) ∧
    (part.toNat < max (src.width / ty.width) (ty.width / src.width) →
      let n := 128 / max src.width ty.width
      let narrow := ty.width ≤ src.width
      let place (i : Nat) : Nat := if narrow then part.toNat * (128 / src.width) + i else i
      let value (i : Nat) : Nat × Flg := convert (fmtRnd s.lat.fmt) (fmtSat s.lat.fmt) src ty
        (lane src.width (s.rV a) (if narrow then i else part.toNat * (128 / ty.width) + i))
      ∃ v fl, exec (.vcvt ty src d a part p) s = .next (s.wVF d (v, fl)) ∧
        (∀ i < n, lane ty.width v (place i) = if enabled ty.width (s.lat.pred p) (place i) then (value i).1 % 2 ^ (8 * ty.width)
          else lane ty.width (s.rV d) (place i)) ∧
        (∀ j < 128 / ty.width, (∀ i < n, place i ≠ j) → lane ty.width v j = lane ty.width (s.rV d) j) ∧
        ∀ k, fl.getLsbD k = (List.range n).any fun i => enabled ty.width (s.lat.pred p) (place i) && (value i).2.getLsbD k) ∧
    (∀ (m : Rnd) (sat : Bool) (x : Nat),
      let fp (t : Ty) : Bool := t.isFp || t.isF8
      let z := elemInt src x
      let y := decodeFP (tyFmt src) x
      let word (i : Int) : Nat := (i % (2 ^ (8 * ty.width) : Nat)).toNat
      let r := convert m sat src ty x
      (fp src = true → fp ty = true → r = cvtToFP (tyFmt ty) m (sat && decide (ty.width ≤ src.width)) y) ∧
      (fp src = false → fp ty = true → r = cvtToFP (tyFmt ty) m sat (.ofInt z 0)) ∧
      (fp src = true → fp ty = false → (y = .nan → r = (0, fNV)) ∧
        (∀ neg, y = .inf neg → r = (word (if neg then tyLo ty else tyHi ty), fNV ||| fNX)) ∧
        ∀ neg mag e, y = .fin neg mag e →
          let i := (roundInt m neg mag e).1
          (i < tyLo ty → r = (word (tyLo ty), fNV ||| fNX)) ∧ (tyHi ty < i → r = (word (tyHi ty), fNV ||| fNX)) ∧
          (tyLo ty ≤ i → i ≤ tyHi ty → r = (word i, if (roundInt m neg mag e).2 then fNX else 0))) ∧
      (fp src = false → fp ty = false → (src.width < ty.width ∨ sat = false → r = (word z, 0)) ∧
        (ty.width ≤ src.width → sat = true → (z < tyLo ty → r = (word (tyLo ty), fSF)) ∧ (tyHi ty < z → r = (word (tyHi ty), fSF)) ∧
          (tyLo ty ≤ z → z ≤ tyHi ty → r = (word z, 0))))) ∧
    exec (.vbppack planes d a) s = .next (s.wV d (bpPack (planes.toNat + 2) (s.rV a))) ∧
    exec (.vbpunpack planes d a) s = .next (s.wV d (bpUnpack (planes.toNat + 2) (s.rV a))) ∧
    (let w := ty.width
     let n := 128 / w
     let depth := Nat.log2 n
     let el (id i : Nat) : Nat := if enabled w (s.lat.pred p) i then lane w (s.rV a) i else id
     let level (op : Nat → Nat → Nat × Flg) (id l : Nat) : Nat → Nat :=
       (List.range l).foldl (fun x _ j => (op (x (2 * j)) (x (2 * j + 1))).1) (el id)
     let steps (op : Nat → Nat → Nat × Flg) (id l : Nat) : Nat → Nat :=
       (List.range l).foldl (fun x k i => if i < 2 ^ k then x i else (op (x (i - 2 ^ k)) (x i)).1) (el id)
     let reduces (i : Instr) (op : Nat → Nat → Nat × Flg) (id : Nat) : Prop := ∃ v fl, exec i s = .next (s.wVF d (v, fl)) ∧
       lane w v 0 = level op id depth 0 % 2 ^ (8 * w) ∧ (∀ j, 1 ≤ j → j < n → lane w v j = 0) ∧
       ∀ b, fl.getLsbD b = (List.range depth).any fun l => (List.range (n / 2 ^ (l + 1))).any fun j =>
         (op (level op id l (2 * j)) (level op id l (2 * j + 1))).2.getLsbD b
     let scans (i : Instr) (op : Nat → Nat → Nat × Flg) (id : Nat) : Prop := ∃ v fl, exec i s = .next (s.wVF d (v, fl)) ∧
       (∀ j < n, lane w v j = steps op id depth j % 2 ^ (8 * w)) ∧
       ∀ b, fl.getLsbD b = (List.range depth).any fun l => (List.range n).any fun j =>
         decide (2 ^ l ≤ j) && (op (steps op id l (j - 2 ^ l)) (steps op id l j)).2.getLsbD b
     let sign := 2 ^ (8 * w - 1)
     let inf := match ty with | .f32 => 0x7F800000 | .bf16 => 0x7F80 | _ => 0x7C00
     let null := if ty.isFp then sign else 0
     let least := if ty.isFp then sign + inf else if ty.isSigned then sign else 0
     let greatest := if ty.isFp then inf else if ty.isSigned then sign - 1 else 2 ^ (8 * w) - 1
     reduces (.vredadd ty d a p) (elem2 ty fpAdd (· + ·)) null ∧ reduces (.vredmax ty d a p) (elem2 ty fpMax max) least ∧
     reduces (.vredmin ty d a p) (elem2 ty fpMin min) greatest ∧
     scans (.vscanadd ty d a p) (elem2 ty fpAdd (· + ·)) null ∧ scans (.vscanmax ty d a p) (elem2 ty fpMax max) least)

/-- Permutes, logic, bit fields and moves (R137 to R142): each completes with the element map that its rule gives; an element
number, a rotation or a slide out of range is cause 16, a field of no bits or beyond its element cause 15. -/
def Obligations.VectorMoveResults : Prop :=
  ∀ (s : State) (ty : Ty) (d a b : VReg) (x y : SReg) (p : Pred) (imm : BitVec 15) (half : Bool),
    let w := ty.width
    let n := 128 / ty.width
    let el (r : VReg) (i : Nat) : Nat := lane ty.width (s.rV r) i
    let put (f : Nat → Nat) : Host.Outcome State Fault Refusal :=
      .next (s.wVF d (laneMap w (s.lat.pred p) (s.rV d) fun i => (f i, 0)))
    exec (.vperm ty d a b p) s = put (fun i => if el b i < n then el a (el b i) else 0) ∧
    ((s.rS y).toNat < n → exec (.vbcast ty d a y p) s = put (fun _ => el a (s.rS y).toNat)) ∧
    (imm.toNat < n → exec (.vrot ty d a imm p) s = put (fun i => el a ((i + imm.toNat) % n))) ∧
    (imm.toInt.natAbs ≤ n → exec (.vslide ty d a imm p) s =
      put (fun i => if 0 ≤ (i : Int) + imm.toInt ∧ (i : Int) + imm.toInt < n then el a ((i : Int) + imm.toInt).toNat else 0)) ∧
    exec (.vzip ty d a b half p) s =
      put (fun i => if i % 2 = 0 then el a ((if half then 1 else 0) * (n / 2) + i / 2)
        else el b ((if half then 1 else 0) * (n / 2) + i / 2)) ∧
    exec (.vunzip ty d a b half p) s =
      put (fun i => if 2 * i + (if half then 1 else 0) < n then el a (2 * i + (if half then 1 else 0))
        else el b (2 * i + (if half then 1 else 0) - n)) ∧
    exec (.vand ty d a b p) s = put (fun i => el a i &&& el b i) ∧
    exec (.vor ty d a b p) s = put (fun i => el a i ||| el b i) ∧
    exec (.vxor ty d a b p) s = put (fun i => el a i ^^^ el b i) ∧
    exec (.vandn ty d a b p) s = put (fun i => el a i &&& (2 ^ (8 * w) - 1 - el b i)) ∧
    exec (.vpopc ty d a p) s = put (fun i => popCount (8 * w) (el a i)) ∧
    exec (.vclz ty d a p) s = put (fun i => leadZeros (8 * w) (el a i)) ∧
    (1 ≤ lane 1 (s.rV b) 1 → lane 1 (s.rV b) 0 + lane 1 (s.rV b) 1 ≤ 8 * w →
      exec (.vbfx ty d a b p) s = put (fun i =>
        let x := el a i / 2 ^ lane 1 (s.rV b) 0 % 2 ^ lane 1 (s.rV b) 1
        ((if ty.isSigned ∧ 2 ^ (lane 1 (s.rV b) 1 - 1) ≤ x then (x : Int) - (2 ^ lane 1 (s.rV b) 1 : Nat) else x) %
          (2 ^ (8 * w) : Nat)).toNat) ∧
      ∃ f : Nat → Nat, exec (.vbfi ty d a b p) s = put f ∧ ∀ i k,
        (f i).testBit k = if lane 1 (s.rV b) 0 ≤ k ∧ k < lane 1 (s.rV b) 0 + lane 1 (s.rV b) 1
          then (el a i).testBit (k - lane 1 (s.rV b) 0) else (el d i).testBit k) ∧
    ((s.rS y).toNat < n → exec (.vins ty d x y) s = .next (s.wV d (setLane w (s.rV d) (s.rS y).toNat (s.rS x).toNat)) ∧
      exec (.vext ty x a y) s = .next (s.wS x (BitVec.ofInt 64 (elemInt ty (el a (s.rS y).toNat))))) ∧
    exec (.vdup ty d x p) s = put (fun _ => (s.rS x).toNat % 2 ^ (8 * w)) ∧
    exec (.vmov ty d a p) s = put (fun i => el a i) ∧
    (s.settled s.cur = true →
      (n ≤ (s.rS y).toNat → exec (.vbcast ty d a y p) s = .next (s.trapHere 16 0) ∧
        exec (.vins ty d x y) s = .next (s.trapHere 16 0) ∧ exec (.vext ty x a y) s = .next (s.trapHere 16 0)) ∧
      (n ≤ imm.toNat → exec (.vrot ty d a imm p) s = .next (s.trapHere 16 0)) ∧
      (n < imm.toInt.natAbs → exec (.vslide ty d a imm p) s = .next (s.trapHere 16 0)) ∧
      (lane 1 (s.rV b) 1 = 0 ∨ 8 * w < lane 1 (s.rV b) 0 + lane 1 (s.rV b) 1 → exec (.vbfx ty d a b p) s = .next (s.trapHere 15 0) ∧
        exec (.vbfi ty d a b p) s = .next (s.trapHere 15 0)))

/-- Predicates, masks and the sampler's instructions (R143 to R151) complete with the results of their rules. manc sets bit i of mj where
node i is node j or one of its ancestors, and refuses with cause 16 a node count that is not 1 to 16 and a parent that is neither −1
nor an earlier node (R145). vargmax takes the first of the greatest enabled elements; vsparseadd adds the leading pairs whose index
lies below the chunk's end, in order; vcfupd counts each hash once for each token and saturates; vdesc goes to the first child whose
sum exceeds the target, else to the last with weight, else to none. That a node of all ones leaves the flags as they are is the
model's reading (log 62). -/
def Obligations.PredicateMaskAndSamplerResults : Prop :=
  ∀ (s : State) (ty : Ty) (d a b : VReg) (x : SReg) (pd pa pb : PReg) (md ma mb : MReg) (p : Pred) (form : BitVec 2),
    exec (.pand pd pa pb) s = .next (s.wP pd (s.rP pa &&& s.rP pb)) ∧
    exec (.por pd pa pb) s = .next (s.wP pd (s.rP pa ||| s.rP pb)) ∧
    exec (.pxor pd pa pb) s = .next (s.wP pd (s.rP pa ^^^ s.rP pb)) ∧
    exec (.pnot pd pa) s = .next (s.wP pd (~~~s.rP pa)) ∧
    exec (.mand md ma mb) s = .next (s.wM md (s.lat.gm ma &&& s.lat.gm mb)) ∧
    exec (.mor md ma mb) s = .next (s.wM md (s.lat.gm ma ||| s.lat.gm mb)) ∧
    exec (.mxor md ma mb) s = .next (s.wM md (s.lat.gm ma ^^^ s.lat.gm mb)) ∧
    exec (.mset md x) s = .next (s.wM md (BitVec.ofNat 16 (s.rS x).toNat)) ∧
    exec (.mget x ma) s = .next (s.wS x (BitVec.ofNat 64 (s.lat.gm ma).toNat)) ∧
    (let count := (s.rS x).toNat
     let parent (j : Nat) : Int := (BitVec.ofNat 32 (lane 4 (s.rV a) j)).toInt
     let tree : Prop := 1 ≤ count ∧ count ≤ 16 ∧ ∀ j : Nat, j < count → parent j = -1 ∨ (0 ≤ parent j ∧ parent j < j)
     let up (y z : Nat) : Prop := parent y = (z : Int)
     (tree → ∃ t, exec (.manc a x) s = .next t ∧ t.mem = s.mem ∧ t.spad = s.spad ∧ ∀ (j : MReg) (i : Nat), i < 16 →
       ((t.cx.regs.gm j).getLsbD i = true ↔ j.toNat < count ∧ Relation.ReflTransGen up j.toNat i)) ∧
     (¬ tree → s.settled s.cur = true → exec (.manc a x) s = .next (s.trapHere 16 0))) ∧
    (ty.width ≤ 4 →
      let n := 128 / ty.width
      let el (i : Nat) : Nat := lane ty.width (s.rV a) i
      let on (i : Nat) : Bool := enabled ty.width (s.lat.pred p) i
      ∃ v, exec (.vargmax ty d a x p) s = .next (s.wVF d (v, nvIf ((List.range n).any fun i => on i && elemNan ty (el i)))) ∧
        (∀ k, 2 ≤ k → k < 32 → lane 4 v k = 0) ∧
        ((∀ i < n, on i = false) → lane 4 v 0 = 0 ∧ lane 4 v 1 = 2 ^ 32 - 1) ∧
        ((∃ i < n, on i = true) → ∃ i < n, on i = true ∧ lane 4 v 0 = el i ∧ lane 4 v 1 = ((s.rS x).toNat + i) % 2 ^ 32 ∧
          (∀ j < n, on j = true → argGreater ty (el j) (el i) = false) ∧
          ∀ j < i, on j = true → argGreater ty (el i) (el j) = true)) ∧
    (let base := (s.rS x).toNat % 2 ^ 32
     let idx (j : Nat) : Nat := lane 4 (s.rV a) (2 * j)
     let sum (j e : Nat) : Nat := ((List.range j).filter fun i => idx i == base + e).foldl
       (fun acc i => (fpAdd .f32 acc (lane 4 (s.rV a) (2 * i + 1))).1 % 2 ^ 32) (lane 4 (s.rV d) e)
     ∃ v fl k, exec (.vsparseadd d a x) s = .next ((s.wVF d (v, fl)).wS x (BitVec.ofNat 64 (k * 2 ^ 32 + base))) ∧ k ≤ 16 ∧
       (∀ j < k, idx j < base + 32) ∧ (k < 16 → base + 32 ≤ idx k) ∧ (∀ e < 32, lane 4 v e = sum k e) ∧
       ∀ b, fl.getLsbD b = (List.range k).any fun j => decide (base ≤ idx j) &&
         (fpAdd .f32 (sum j (idx j - base)) (lane 4 (s.rV a) (2 * j + 1))).2.getLsbD b) ∧
    (form ≠ 3 →
      let hash (t seed : Nat) : Nat := (t ^^^ seed) * 0x9E3779B1 % 2 ^ 32 / 2 ^ 20
      let h0 (i : Nat) : Nat := hash (lane 4 (s.rV a) i) ((s.rS x).toNat % 2 ^ 32)
      let h1 (i : Nat) : Nat := hash (lane 4 (s.rV a) i) ((s.rS x).toNat / 2 ^ 32)
      exec (.vcfhash form d a x p) s = .next (s.wVF d (laneMap 4 (s.lat.pred p) (s.rV d) fun i =>
        (if form = 0 then h0 i else if form = 1 then h1 i else h1 i * 2 ^ 16 + h0 i, 0)))) ∧
    (let hits (e : Nat) : Nat := ((List.range 32).filter fun i => enabled 4 (s.lat.pred p) i &&
       (lane 4 (s.rV a) i % 2 ^ 12 == 128 * ((s.rS x).toNat % 32) + e ||
        lane 4 (s.rV a) i / 2 ^ 16 % 2 ^ 12 == 128 * ((s.rS x).toNat % 32) + e)).length
     ∃ v, exec (.vcfupd d a x p) s = .next (s.wV d v) ∧ ∀ e < 128, lane 1 v e = min 255 (lane 1 (s.rV d) e + hits e)) ∧
    (let el (i : Nat) : Nat := lane 4 (s.rV a) i
     let u := lane 4 (s.rV d) 0
     let node := lane 4 (s.rV d) 1
     let none_ := 2 ^ 32 - 1
     let before (i : Nat) : Nat := if i = 0 then 0 else el (i - 1)
     let exceeds (i : Nat) : Bool := elemLt .f32 u (el i)
     let weighs (i : Nat) : Bool := elemLt .f32 (before i) (el i)
     let nan := nvIf (elemNan .f32 u || (List.range 32).any fun i => elemNan .f32 (el i))
     let holds (v : Vec) (e0 e1 e2 : Nat) : Prop := lane 4 v 0 = e0 ∧ lane 4 v 1 = e1 ∧ lane 4 v 2 = e2 ∧
       ∀ k, 3 ≤ k → k < 32 → lane 4 v k = lane 4 (s.rV d) k
     let goes (j : Nat) : Prop := ∃ v, holds v ((fpSub .f32 u (before j)).1 % 2 ^ 32) ((node * 32 + j) % 2 ^ 32) j ∧
       exec (.vdesc d a) s = .next (s.wVF d (v, nan ||| (fpSub .f32 u (before j)).2))
     (node = none_ → ∃ v, holds v u node none_ ∧ exec (.vdesc d a) s = .next (s.wV d v)) ∧
     (node ≠ none_ →
       (∀ j < 32, exceeds j = true → (∀ i < j, exceeds i = false) → goes j) ∧
       ((∀ i < 32, exceeds i = false) →
         (∀ j < 32, weighs j = true → (∀ i < 32, j < i → weighs i = false) → goes j) ∧
         ((∀ i < 32, weighs i = false) →
           ∃ v, holds v u none_ none_ ∧ exec (.vdesc d a) s = .next (s.wVF d (v, nan)))))) ∧
    (let k0 := lane 4 (s.rV b) 0
     let k1 := lane 4 (s.rV b) 1
     let round (c : Nat × Nat × Nat × Nat) (r : Nat) : Nat × Nat × Nat × Nat :=
       let p := 0xD2511F53 * c.1
       let o := 0xCD9E8D57 * c.2.2.1
       ((o / 2 ^ 32) ^^^ c.2.1 ^^^ ((k0 + r * 0x9E3779B9) % 2 ^ 32), o % 2 ^ 32,
        (p / 2 ^ 32) ^^^ c.2.2.2 ^^^ ((k1 + r * 0xBB67AE85) % 2 ^ 32), p % 2 ^ 32)
     ∃ v, exec (.vphilox d a b) s = .next (s.wV d v) ∧ ∀ g < 8,
       let el (i : Nat) : Nat := lane 4 (s.rV a) (4 * g + i)
       let out := (List.range 10).foldl round (el 0, el 1, el 2, el 3)
       lane 4 v (4 * g) = out.1 % 2 ^ 32 ∧ lane 4 v (4 * g + 1) = out.2.1 % 2 ^ 32 ∧
         lane 4 v (4 * g + 2) = out.2.2.1 % 2 ^ 32 ∧ lane 4 v (4 * g + 3) = out.2.2.2 % 2 ^ 32)

/-- The lanes of an element map (R125, R127): an enabled element takes the operation's value, any other keeps vD's; the flags
are those of the enabled elements, ORed into fstat. -/
def Obligations.EnabledLanesTakeTheResult : Prop :=
  ∀ (s : State) (ty : Ty) (d a b : VReg) (p : Pred) (f : Nat → Nat → Nat × Flg),
    let w := ty.width
    let t := s.vmap2 ty d a b p f
    let on (i : Nat) : Bool := match p with | none => true | some q => (s.rP q).getLsbD (i * w)
    let r (i : Nat) : Nat × Flg := f (lane w (s.rV a) i) (lane w (s.rV b) i)
    (∀ i < 128 / w, lane w (t.cx.regs.gv d) i = if on i then (r i).1 % 2 ^ (8 * w) else lane w (s.rV d) i) ∧
    (∀ k < 6, t.cx.regs.fstat.getLsbD k =
      (s.cx.regs.fstat.getLsbD k || (List.range (128 / w)).any fun i => on i && (r i).2.getLsbD k)) ∧
    (∀ k, 6 ≤ k → t.cx.regs.fstat.getLsbD k = s.cx.regs.fstat.getLsbD k)

/-- Rounding is exact on what a format holds (R46, R54): the value of any pattern but a NaN's rounds back to the pattern and raises
no flag; a NaN becomes the canonical NaN. -/
def Obligations.RoundingKeepsRepresentableValues : Prop :=
  ∀ (F : Fmt) (m : Rnd) (x : Nat), x < 2 ^ F.bits →
    (decodeFP F x = .nan → roundFP F m (decodeFP F x) = (F.nan, 0)) ∧
    (decodeFP F x ≠ .nan → roundFP F m (decodeFP F x) = (x, 0))

/-! ## Frames of register instructions -/

/-- An instruction that writes one scalar register and completes changes nothing else: no other register, flag, special register,
context, or byte of memory; and the same for the instructions that write one address register, predicate or mask, but that the vector
compares may raise flags of fstat, and clear none (R131). pcmp, pand, por, pxor and pnot raise no flag. -/
def Obligations.ScalarWritersChangeOneRegister : Prop :=
  (∀ (i : Instr) (d : SReg) (s t : State), Instr.sOnly i = some d → Instr.verdict i s = .ok → exec i s = .next t → s.onlyS d t) ∧
  (∀ (i : Instr) (d : QReg) (s t : State), Instr.qOnly i = some d → exec i s = .next t → s.onlyQ d t) ∧
  (∀ (i : Instr) (d : PReg) (s t : State), Instr.pOnly i = some d → Instr.verdict i s = .ok → exec i s = .next t → s.onlyP d t ∧
    ((∃ a b c, i = .pcmp d a b c) ∨ (∃ a b, i = .pand d a b ∨ i = .por d a b ∨ i = .pxor d a b) ∨ (∃ a, i = .pnot d a) →
      t.issue = s.issue ∧ t.cx.regs = { s.cx.regs with p := t.cx.regs.p })) ∧
  (∀ (i : Instr) (d : MReg) (s t : State), Instr.mOnly i = some d → exec i s = .next t → s.onlyM d t)

/-- Vector results: only the destination and fstat change, and no flag that was set is cleared (R67). -/
def Obligations.VectorWritersChangeOneRegister : Prop :=
  ∀ (i : Instr) (d : VReg) (s t : State), Instr.vOnly i = some d → Instr.verdict i s = .ok → exec i s = .next t → s.onlyV d t

/-- A failed check traps and does nothing else (R83): for every instruction of a bundle but wait, whose trap also clears the wake
queue's overflow bit. Where a translation shows the trap (R157, R169), the walks made up to it have left their marks (R310). -/
def Obligations.AFailedCheckOnlyTraps : Prop :=
  ∀ (i : Instr) (s : State) (c : Nat) (v : Word64), Instr.inSlot i = true → (∀ d, i ≠ .wait d) →
    (Instr.verdict i s = .trap c v → s.settled s.cur = true → exec i s = .next (s.trapHere c v)) ∧
    ∀ w, Instr.verdict i s = .trapAfter c v w → s.settled s.cur = true →
      exec i s = .next ((w.foldl (fun t x => t.translateFor (dieOf s.cur) (t.asidOf s.cur) x.1 x.2) s).trapHere c v)

/-- No instruction of a bundle stops the model: each answers a next state in every state; no step is refused, and a core's turn
does not fault. -/
def Obligations.SlotsAlwaysGoOn : Prop :=
  (∀ (i : Instr) (s : State), Instr.inSlot i = true → ∃ t, exec i s = .next t) ∧
  (∀ (s : State) (r : Refusal), step s ≠ .refused r) ∧ (∀ (s : State) (e : Fault), s.agenda = [] → s.turn < Config.cores → step s ≠ .fault e)

/-! ## Class L -/

/-- Loads (R153, R157, R162 to R164, R170): with every check passed, the destination takes the bytes that the context reads at
the address under the view class, a scalar extended as its type says, a null index of a gather giving zero. -/
def Obligations.LoadsComplete : Prop :=
  ∀ (s : State) (ty : Ty) (vc : BitVec 3) (d i : SReg) (v iv : VReg) (p : PReg) (k : KReg) (q : QReg) (off : BitVec 17)
    (sc : BitVec 2) (scope : BitVec 3),
    let w := ty.width
    let n := 128 / w
    let c := s.vcOf vc
    let rd (va : VA) (len : Nat) : Nat := leNat (s.loadHere va len c)
    let a := s.eaOff q off
    let x := s.eaIdx q i sc
    let okay (vas : List VA) (align len : Nat) : Prop := s.loadCheck s.cur vas align len c = .ok
    (okay [a] w w → exec (.ld ty vc d q off) s = .next ((s.loadDone a w c).wS d (extend ty (rd a w)))) ∧
    (okay [x] w w → exec (.ldx ty vc d q i sc) s = .next ((s.loadDone x w c).wS d (extend ty (rd x w)))) ∧
    (okay [s.rQ q] w w → exec (.lda ty vc d q scope) s = .next ((s.loadDone (s.rQ q) w c).wS d (extend ty (rd (s.rQ q) w)))) ∧
    (okay [a] w 128 → exec (.vld ty vc v q off) s = .next ((s.loadDone a 128 c).wV v (BitVec.ofNat 1024 (rd a 128)))) ∧
    (okay [x] w 128 → exec (.vldx ty vc v q i sc) s = .next ((s.loadDone x 128 c).wV v (BitVec.ofNat 1024 (rd x 128)))) ∧
    (okay [a] w w →
      exec (.vldbc ty vc v q off) s = .next ((s.loadDone a w c).wV v (ofLanes w (List.replicate n (rd a w))))) ∧
    (okay (s.strides ty q i sc) w w → exec (.vlds ty vc v q i sc) s =
      .next ((s.loadsDone (s.strides ty q i sc) w c).wV v (ofLanes w ((s.strides ty q i sc).map fun a => rd a w)))) ∧
    (okay ((s.live ty iv).map (s.eaVec ty q iv sc)) w w → exec (.vgath ty vc v q iv sc) s =
      .next ((s.loadsDone ((s.live ty iv).map (s.eaVec ty q iv sc)) w c).wV v (ofLanes w ((List.range n).map fun e =>
        if lane w (s.rV iv) e = 2 ^ (8 * w) - 1 then 0 else rd (s.eaVec ty q iv sc e) w)))) ∧
    (okay [a] 4 256 → exec (.kld vc k q off) s = .next ((s.loadDone a 256 c).wK k (BitVec.ofNat 2048 (rd a 256)))) ∧
    (okay [a] 16 16 → exec (.pld vc p q off) s = .next ((s.loadDone a 16 c).wP p (BitVec.ofNat 128 (rd a 16))))

/-- Loads from the context's own scratchpad with an empty gate (R153 to R156, R162 to R164): aligned, they complete, read
the cluster's bytes, and change one register, the whole access lying in the scratchpad, where no released die-local store of the
context still waits behind a group in flight (R204, R263, log 24). -/
def Obligations.ScratchpadLoadsReadTheCluster : Prop :=
  ∀ (s : State) (ty : Ty) (vc : BitVec 3) (d i : SReg) (v iv : VReg) (p : PReg) (k : KReg) (q : QReg) (off : BitVec 17)
    (sc : BitVec 2) (scope : BitVec 3),
    let w := ty.width
    let n := 128 / w
    let rd (va : VA) (len : Nat) : Nat := leNat (s.spadBytes (clusterOf s.cur) (spadOff va) len)
    let a := s.eaOff q off
    let x := s.eaIdx q i sc
    let here (va : VA) (align len : Nat) : Prop :=
      isSpad va = true ∧ vaHome va = dieOf s.cur ∧ va.toNat % align = 0 ∧ spadOff va + len ≤ 2 ^ 22
    s.cx.gate = [] → s.outLocal s.cur = false →
    (here a w w → exec (.ld ty vc d q off) s = .next (s.wS d (extend ty (rd a w)))) ∧
    (here x w w → exec (.ldx ty vc d q i sc) s = .next (s.wS d (extend ty (rd x w)))) ∧
    (here (s.rQ q) w w → exec (.lda ty vc d q scope) s = .next (s.wS d (extend ty (rd (s.rQ q) w)))) ∧
    (here a w 128 → exec (.vld ty vc v q off) s = .next (s.wV v (BitVec.ofNat 1024 (rd a 128)))) ∧
    (here x w 128 → exec (.vldx ty vc v q i sc) s = .next (s.wV v (BitVec.ofNat 1024 (rd x 128)))) ∧
    (here a w w → exec (.vldbc ty vc v q off) s = .next (s.wV v (ofLanes w (List.replicate n (rd a w))))) ∧
    ((∀ e < n, here (s.eaStride q i sc e) w w) → exec (.vlds ty vc v q i sc) s =
      .next (s.wV v (ofLanes w ((List.range n).map fun e => rd (s.eaStride q i sc e) w)))) ∧
    ((∀ e < n, lane w (s.rV iv) e ≠ 2 ^ (8 * w) - 1 → here (s.eaVec ty q iv sc e) w w) → exec (.vgath ty vc v q iv sc) s =
      .next (s.wV v (ofLanes w ((List.range n).map fun e =>
        if lane w (s.rV iv) e = 2 ^ (8 * w) - 1 then 0 else rd (s.eaVec ty q iv sc e) w)))) ∧
    (here a 4 256 → exec (.kld vc k q off) s = .next (s.wK k (BitVec.ofNat 2048 (rd a 256)))) ∧
    (here a 16 16 → exec (.pld vc p q off) s = .next (s.wP p (BitVec.ofNat 128 (rd a 16))))

/-- Stores (R156, R160, R162 to R164, R170, R310, R314): with every check passed, the bytes go to the gate: every entry lies on the
line that its bytes' addresses reach, every byte it holds is one of the store's, and every byte of the store whose line is reached
stands in an entry. Beside the gate of its context a store changes only what the walks of its lines do, over links that are up, and
nothing where its lines are translated already: every register and every byte of memory and scratchpad is as before. A store to
the scratchpad changes nothing but the gate. What a walk does (R306 to R310): from the ASID table it goes down the levels, and gives the
leaf or the cause of R308 and R309 at the entry it meets; a table that cannot be read is cause 79; a walk that reaches a leaf sets A,
and D for a write, in the leaf and in no other byte; one that faults writes nothing. -/
def Obligations.StoresGoToTheGate : Prop :=
  (∀ (s : State) (ty : Ty) (d i : SReg) (v iv : VReg) (p : PReg) (q : QReg) (off : BitVec 17) (sc : BitVec 2) (scope : BitVec 3),
    let w := ty.width
    let a := s.eaOff q off
    let x := s.eaIdx q i sc
    let okay (vas : List VA) (align len : Nat) : Prop := s.storeCheck s.cur vas align len = .ok
    let put (va : VA) (bs : List Byte) (width : Nat) (rel : Bool) : Host.Outcome State Fault Refusal :=
      .next (s.storeHere (vaBytes va bs) width rel)
    (okay [a] w w → exec (.st ty d q off) s = put a (toLE w (s.rS d).toNat) w false) ∧
    (okay [x] w w → exec (.stx ty d q i sc) s = put x (toLE w (s.rS d).toNat) w false) ∧
    (okay [s.rQ q] w w → exec (.stl ty d q scope) s = put (s.rQ q) (toLE w (s.rS d).toNat) w true) ∧
    (okay [a] w 128 → exec (.vst ty v q off) s = put a (bytesOf (s.rV v)) 128 false) ∧
    (okay [x] w 128 → exec (.vstx ty v q i sc) s = put x (bytesOf (s.rV v)) 128 false) ∧
    (okay (s.strides ty q i sc) w w → exec (.vsts ty v q i sc) s = .next (s.storeHere
      ((List.range (128 / w)).flatMap fun e => vaBytes (s.eaStride q i sc e) (toLE w (lane w (s.rV v) e))) w false)) ∧
    (okay ((s.live ty iv).map (s.eaVec ty q iv sc)) w w → exec (.vscat ty v q iv sc) s = .next (s.storeHere
      ((s.live ty iv).flatMap fun e => vaBytes (s.eaVec ty q iv sc e) (toLE w (lane w (s.rV v) e))) w false)) ∧
    (okay [a] 16 16 → exec (.pst p q off) s = put a (toLE 16 (s.rP p).toNat) 16 false) ∧
    ∀ (bs : List (VA × Byte)) (width : Nat) (rel : Bool),
      let t := s.storeHere bs width rel
      let asid := s.asidOf s.cur
      let u := ((bs.map fun b => lineVA b.1).dedup).foldl (fun s a => if isSpad a then s else s.translateFor (dieOf s.cur) asid a .write) s
      let reached (b : VA) : Prop := ∀ x ∈ bs, lineVA x.1 = lineVA b → ∃ r, u.place asid x.1 .write = .ok r
      (∃ es : List GateEnt,
        t = { u with ctxs := t.ctxs } ∧ (∀ n, n ≠ s.cur → t.ctx n = u.ctx n) ∧ t.cx = { u.cx with gate := u.cx.gate ++ es } ∧
        (∀ g ∈ es, g.release = rel ∧ g.width = width ∧ g.asid = asid ∧ g.checked = true ∧ g.before = s.nextCmd ∧
          (∃ b ∈ bs, g.va = lineVA b.1 ∧
            if isSpad b.1 then g.spad = true ∧ g.line = spadOff b.1 / 128
            else g.spad = false ∧ ∃ r, u.place asid b.1 .write = .ok r ∧ g.line = r.gateLine) ∧
          ∀ y ∈ g.bytes, ∃ b ∈ bs, lineVA b.1 = g.va ∧ fld b.1 0 7 = y.1 ∧ b.2 = y.2) ∧
        ∀ b ∈ bs, isSpad b.1 = true ∨ reached b.1 → ∃ g ∈ es, g.va = lineVA b.1 ∧ (fld b.1 0 7, b.2) ∈ g.bytes) ∧
      ((∀ b ∈ bs, isSpad b.1 = true ∨ (s.tlbFind asid (lineVA b.1) .write).isSome = true) → u = s) ∧
      ((∀ b ∈ bs, isSpad b.1 = true) →
        t = { s with ctxs := t.ctxs } ∧ (∀ n, n ≠ s.cur → t.ctx n = s.ctx n) ∧
        ∃ es : List GateEnt, t.cx = { s.cx with gate := s.cx.gate ++ es } ∧
          (∀ g ∈ es, g.spad = true ∧ g.release = rel ∧
            ∀ y ∈ g.bytes, ∃ b ∈ bs, spadOff b.1 = g.line * 128 + y.1 ∧ b.2 = y.2) ∧
          ∀ b ∈ bs, ∃ g ∈ es, ∃ y ∈ g.bytes, spadOff b.1 = g.line * 128 + y.1 ∧ b.2 = y.2)) ∧
  (∀ (s : State) (asid : BitVec 16) (va : VA) (a : Acc),
    let host := vaHome va == 8
    let d := if vaHome va = 8 then 0 else vaHome va
    let addr := 0x1FE0000000 + 16 * asid.toNat + (if host then 8 else 0)
    let root : Word64 := BitVec.ofNat 64 (leNat (rdBytes s.mem (Config.dieKey d addr) 8))
    let w := s.walk asid va a
    let t := s.translate asid va a
    (s.tableUE d addr = true → w = .error 79) ∧
    (s.tableUE d addr = false → (root.getLsbD 0 = false → w = .error 76) ∧
      (root.getLsbD 0 = true → fld root 1 9 ≠ 0 ∨ fld root 48 16 ≠ 0 → w = .error 77) ∧
      (root.getLsbD 0 = true → fld root 1 9 = 0 → fld root 48 16 = 0 →
        w = s.walkFrom d (fld va 7 4) host (fld va 0 48) a 5 0 (1024 * fld root 10 38) [] [])) ∧
    (∀ x, s.translateFor x asid va a = if s.linkIsDown x d then s else t) ∧
    ((s.tlbFind asid va a).isSome = true ∨ (∃ k, w = .error k) → t = s) ∧
    ∀ f, w = .ok f → s.tlbFind asid va a = none → s.markDown asid va a = false →
      let l := Config.dieKey d f.addr / 128
      let e := f.pte ||| 0x10 ||| (if a = .write then 0x20 else 0)
      let here (i : Nat) : Nat := s.backKey (l * 128 + (f.addr % 128 + i))
      (e = f.pte → t.mem = s.mem ∧ t.spad = s.spad ∧ t.cores = s.cores ∧ t.dir = s.dir) ∧
      (e ≠ f.pte → lineDie l = d → isWin l = false → isHost l = false → f.addr % 8 = 0 → s.dirFind l = none →
        (∀ c ∈ s.cores, ∀ y ∈ c.2.l1, y.line ≠ l) → s.lineHeld l ((List.range 8).map (f.addr % 128 + ·)) = false →
        ((s.die d).l2.filter fun x => x != l && x % 16 == l % 16).length < Config.l2Lines →
        t.spad = s.spad ∧ (∀ m, (t.ctx m).regs = (s.ctx m).regs) ∧ (∀ i < 8, rdByte t.mem (here i) = e.extractLsb' (8 * i) 8) ∧
        ∀ k, (∀ i < 8, k ≠ here i) → rdByte t.mem k = rdByte s.mem k)) ∧
  (∀ (s : State) (d slice off : Nat) (host : Bool) (a : Acc) (fuel n tbl : Nat) (seen : List Nat) (path : List (Nat × Word64)), n ≤ 4 →
    let shift := [41, 32, 27, 21, 16].getD n 16
    let entries (k : Nat) : Nat := [128, 512, 32, 64, 32].getD k 32
    let addr := tbl + 8 * (off / 2 ^ shift % entries n)
    let l := Config.dieKey d addr / 128
    let hit := s.walkHit d slice addr
    let e := hit.getD (s.word64 d addr)
    let w := s.walkFrom d slice host off a (fuel + 1) n tbl seen path
    let pa := 65536 * fld e 16 36
    let malformed : Prop := fld e 9 7 ≠ 0 ∨ fld e 58 6 ≠ 0 ∨ (e.getLsbD 8 = false ∧ (fld e 52 6 ≠ 0 ∨ pa % 2 ^ shift ≠ 0))
    let allowed : Prop := (a = .write → e.getLsbD 2 = true) ∧ (a = .fetch → e.getLsbD 3 = true)
    let next := 256 * fld e 8 44
    let size := 8 * entries (n + 1)
    let broken : Prop := fld e 2 6 ≠ 0 ∨ fld e 52 12 ≠ 0 ∨ next % size ≠ 0 ∨ 0x2000000000 < next + size
    (hit = none → s.backDown l = false → s.tableUE d addr = true → w = .error 79) ∧
    (hit.isSome = true ∨ (s.backDown l = false ∧ s.tableUE d addr = false) →
      (e.getLsbD 0 = false → w = .error 72) ∧
      (e.getLsbD 0 = true → e.getLsbD 1 = true →
        (n = 0 → w = .error 77) ∧
        (n ≠ 0 → malformed → allowed → w = .error 77) ∧
        (n ≠ 0 → ¬ malformed →
          (a = .write → e.getLsbD 2 = false → w = .error 73) ∧ (a = .fetch → e.getLsbD 3 = false → w = .error 74) ∧
          (allowed → e.getLsbD 8 = true ∨ host = true ∨ pa + 2 ^ shift ≤ 0x1FE0000000 →
            w = .ok ⟨e, addr, off / 2 ^ shift * 2 ^ shift, shift, l :: seen, path⟩) ∧
          (allowed → e.getLsbD 8 = false → host = false → 0x1FE0000000 ≤ pa → pa < 0x800000000000 ∨ 0x1000000000000 ≤ pa → w = .error 78))) ∧
      (e.getLsbD 0 = true → e.getLsbD 1 = false →
        (n = 4 ∨ broken → w = .error 77) ∧
        (n < 4 → ¬ broken → w = s.walkFrom d slice host off a fuel (n + 1) next (l :: seen) ((addr, e) :: path)))))

/-- A gated store of the scratchpad performs at its cluster's bytes (R313): each byte it lists holds the last value listed for
it, every other byte of scratchpad and every byte of memory is as before, and so is every register. Until then only its own
context reads it, and reads exactly what it stored (R205). -/
def Obligations.GatedScratchpadStores : Prop :=
  (∀ (s : State) (n : Nat) (g : GateEnt), g.spad = true →
    let t := s.perform n g
    let key (o : Nat) : Nat := s.spadKey (clusterOf n) (g.line * 128 + o)
    t.mem = s.mem ∧ (∀ m, (t.ctx m).regs = (s.ctx m).regs) ∧
    (∀ k, (∀ b ∈ g.bytes, key b.1 ≠ k) → rdByte t.spad k = rdByte s.spad k) ∧
    (∀ pre b post, g.bytes = pre ++ b :: post → (∀ x ∈ post, key x.1 ≠ key b.1) → rdByte t.spad (key b.1) = b.2)) ∧
  (∀ (s : State) (ty : Ty) (a : VA) (x : Nat) (rel : Bool), isSpad a = true → a.toNat % ty.width = 0 →
    let t := s.storeHere (vaBytes a (toLE ty.width x)) ty.width rel
    t.loadHere a ty.width 0 = toLE ty.width x ∧ ∀ m o, m ≠ s.cur → t.spadFor m o = s.spadFor m o)

/-- Atomics (R166 to R169): with every check passed, a form with return and one without perform. In a scratchpad without skew the
location takes the operation's value and no other byte changes; a form with return gives sD the old value, extended, and ORs the
operation's flags into fstat, and one without keeps its flags for a drain; no other register changes. The operation's value is
stated for each type (for f32 by the FP32 operations of R50 to R55). Atomics on a line of memory: OrdinaryMemoryAccesses. -/
def Obligations.AtomicsComplete : Prop :=
  (∀ (s : State) (ty : Ty) (d b : SReg) (a : QReg) (ord : BitVec 2) (scope : BitVec 3), checkAtomic ty a ord s = .ok →
    exec (.amadd ty d a b ord scope) s = .next (s.atomicRet .add ty d a b) ∧
    exec (.ammin ty d a b ord scope) s = .next (s.atomicRet .min ty d a b) ∧
    exec (.ammax ty d a b ord scope) s = .next (s.atomicRet .max ty d a b) ∧
    exec (.amand ty d a b ord scope) s = .next (s.atomicRet .and ty d a b) ∧
    exec (.amor ty d a b ord scope) s = .next (s.atomicRet .or ty d a b) ∧
    exec (.amxor ty d a b ord scope) s = .next (s.atomicRet .xor ty d a b) ∧
    exec (.amxchg ty d a b ord scope) s = .next (s.atomicRet .xchg ty d a b) ∧
    exec (.amcas ty d a b ord scope) s = .next (s.atomicRet .cas ty d a b) ∧
    exec (.stadd ty a b ord scope) s = .next (s.atomicNo .add ty a b) ∧
    exec (.stmin ty a b ord scope) s = .next (s.atomicNo .min ty a b) ∧
    exec (.stmax ty a b ord scope) s = .next (s.atomicNo .max ty a b) ∧
    exec (.stand ty a b ord scope) s = .next (s.atomicNo .and ty a b) ∧
    exec (.stor ty a b ord scope) s = .next (s.atomicNo .or ty a b) ∧
    exec (.stxor ty a b ord scope) s = .next (s.atomicNo .xor ty a b)) ∧
  (∀ (s : State) (ty : Ty) (va : VA) (f : Nat → Option Nat),
    isSpad va = true → va.toNat % ty.width = 0 → sget [] s.skews (clusterOf s.cur) = [] → s.cx.gate = [] →
    let k := clusterOf s.cur
    let o := spadOff va
    let t := s.atomicAt ty va f
    t.mem = s.mem ∧ (∀ m, (t.ctx m).regs = (s.ctx m).regs) ∧
    s.atomicOld ty va = leNat (s.spadBytes k o ty.width) ∧
    (∀ x, f (s.atomicOld ty va) = some x → t.spadBytes k o ty.width = toLE ty.width x) ∧
    (∀ a, (f (s.atomicOld ty va) = none ∨ ∀ i < ty.width, a ≠ k * 2 ^ 22 + (o + i)) → rdByte t.spad a = rdByte s.spad a)) ∧
  (∀ (s : State) (op : AtomOp) (ty : Ty) (d b : SReg) (a : QReg),
    isSpad (s.rQ a) = true → (s.rQ a).toNat % ty.width = 0 → sget [] s.skews (clusterOf s.cur) = [] → s.cx.gate = [] →
    let k := clusterOf s.cur
    let o := spadOff (s.rQ a)
    let old := leNat (s.spadBytes k o ty.width)
    let r (e : Nat) : Option Nat × Flg := op.apply ty old ((s.rS b).toNat % 2 ^ (8 * ty.width)) (e % 2 ^ (8 * ty.width))
    let lands (t : State) (v : Option Nat) : Prop :=
      t.mem = s.mem ∧ t.spadBytes k o ty.width = toLE ty.width (v.getD old) ∧
      (∀ x, (∀ i < ty.width, x ≠ k * 2 ^ 22 + (o + i)) → rdByte t.spad x = rdByte s.spad x) ∧
      ∀ n, n ≠ s.cur → (t.ctx n).regs = (s.ctx n).regs
    let ext : Word64 := BitVec.ofInt 64 (if ty = .i32 ∧ 2 ^ 31 ≤ old then (old : Int) - 2 ^ 32 else old)
    (let t := s.atomicRet op ty d a b
     lands t (r (s.rS d).toNat).1 ∧
     t.cx.regs = { s.cx.regs.ws d ext with fstat := s.cx.regs.fstat ||| (r (s.rS d).toNat).2.setWidth 64 }) ∧
    (let t := s.atomicNo op ty a b
     lands t (r 0).1 ∧ t.cx.regs = { s.cx.regs with aflags := s.cx.regs.aflags ||| (r 0).2 })) ∧
  (∀ (old x e : Nat),
    let v (op : AtomOp) : Option Nat × Flg := op.apply .f32 old x e
    v .add = (some (fpAdd .f32 old x).1, (fpAdd .f32 old x).2) ∧ v .min = (some (fpMin .f32 old x).1, (fpMin .f32 old x).2) ∧
    v .max = (some (fpMax .f32 old x).1, (fpMax .f32 old x).2) ∧ v .xchg = (some x, 0) ∧
    v .cas = (if old = e then some x else none, 0)) ∧
  (∀ (ty : Ty) (old x e : Nat), ty = .i32 ∨ ty = .i64 ∨ ty = .n32 ∨ ty = .n64 →
    old < 2 ^ (8 * ty.width) → x < 2 ^ (8 * ty.width) →
    let v (op : AtomOp) : Option Nat := (op.apply ty old x e).1
    (∀ op : AtomOp, (op.apply ty old x e).2 = 0) ∧
    v .add = some ((old + x) % 2 ^ (8 * ty.width)) ∧
    v .min = some (if elemInt ty old ≤ elemInt ty x then old else x) ∧
    v .max = some (if elemInt ty old ≤ elemInt ty x then x else old) ∧
    v .and = some (old &&& x) ∧ v .or = some (old ||| x) ∧ v .xor = some (old ^^^ x) ∧ v .xchg = some x ∧
    v .cas = if old = e then some x else none)

/-- Ordinary memory (R57, R156, R157, R167, R169, R189, R191, R205, R313). A gated store that performs where the core's own L1 holds
the line in E or M writes that copy and nothing of memory; one to a line of the die's own memory that nothing else holds writes
exactly its bytes there; either way the line then reads as the last value listed for each byte. A load takes its bytes from the line
as the context sees it, the gate's bytes over memory's, each element rounded to the view and widened again where the view is
served. An atomic on a line that the core's L1 holds exclusively reads the line and merges its result into that copy. The L2's
use of a line and its capacity are log 46's; that no other message interferes is log 7's one order. -/
def Obligations.OrdinaryMemoryAccesses : Prop :=
  (∀ (v : Vec) (bs : List (Nat × Byte)) (o : Nat), o < 128 →
    lineByte (mergeLine v bs) o = match bs.reverse.find? (fun b => b.1 == o) with | some b => b.2 | none => lineByte v o) ∧
  (∀ (s : State) (n : Nat) (g : GateEnt) (x : Copy), g.spad = false → g.isReg = false → s.lineHeld g.line (g.bytes.map (·.1)) = false →
    s.l1Find (coreOf n) g.line = some x → x.st ≠ .S → x.tagged g.asid g.va = true →
    let new := mergeLine (s.lineNow g.line) (s.kept g.line g.bytes)
    let t := s.perform n g
    t.l1Find (coreOf n) g.line = some { x with st := .M, data := new } ∧
    t = { s with cores := t.cores, ctxs := t.ctxs, dies := t.dies, tlb := t.tlb } ∧
    (∀ c, c ≠ coreOf n → t.core c = s.core c) ∧ (∀ m, (t.ctx m).regs = (s.ctx m).regs) ∧
    ((∀ c ∈ s.cores, c.1 ≠ coreOf n → ∀ y ∈ c.2.l1, y.line = g.line → y.st ≠ .M) → t.lineNow g.line = new)) ∧
  (∀ (s : State) (n : Nat) (g : GateEnt), g.spad = false → g.isReg = false → isWin g.line = false → isHost g.line = false →
    lineDie g.line = dieOf n → (∀ b ∈ g.bytes, b.1 < 128) → s.lineHeld g.line (g.bytes.map (·.1)) = false → s.badUnits = [] →
    s.dirFind g.line = none → (∀ c ∈ s.cores, ∀ y ∈ c.2.l1, y.line ≠ g.line) →
    ((s.die (dieOf n)).l2.filter fun x => x != g.line && x % 16 == g.line % 16).length < Config.l2Lines →
    let here (o : Nat) : Nat := s.backKey (g.line * 128 + o)
    let value (o : Nat) (old : Byte) : Byte := match g.bytes.reverse.find? (fun b => b.1 == o) with | some b => b.2 | none => old
    let t := s.perform n g
    (∀ o < 128, rdByte t.mem (here o) = value o (rdByte s.mem (here o))) ∧
    (∀ a, (∀ o < 128, a ≠ here o) → rdByte t.mem a = rdByte s.mem a) ∧
    (sget none s.cxl g.line = none → ∀ o < 128, lineByte (t.lineNow g.line) o = value o (lineByte (s.lineNow g.line) o)) ∧
    t.spad = s.spad ∧ t.cores = s.cores ∧ ∀ m, (t.ctx m).regs = (s.ctx m).regs) ∧
  (∀ (s : State) (n : Nat) (asid : BitVec 16) (va : VA) (len : Nat) (v : BitVec 3) (r : Reach), isSpad va = false → 1 ≤ len →
    fld va 0 7 + len ≤ 128 → s.place asid va .read = .ok r → r.reg = none →
    s.readVia n asid va len v = (List.range len).map fun i => lineByte (loadLine r.hf v (s.lineFor n r.line)) (fld va 0 7 + i)) ∧
  (∀ (s : State) (n l o : Nat), o < 128 →
    lineByte (s.lineFor n l) o = match (((s.ctx n).gateOn l).flatMap (·.bytes)).reverse.find? (fun b => b.1 == o) with
      | some b => b.2 | none => lineByte (s.lineNow l) o) ∧
  (∀ (hf : BitVec 2) (v : BitVec 3) (x : Vec), (served hf v = none → loadLine hf v x = x) ∧
    ∀ h f i, served hf v = some (h, f) → i < 128 / (h.bits / 8) →
      lane (h.bits / 8) (loadLine hf v x) i =
        viewWiden h f (viewRound h f (lane (h.bits / 8) x i) % 2 ^ h.bits) % 2 ^ h.bits) ∧
  (∀ (s : State) (ty : Ty) (va : VA) (f : Nat → Option Nat) (r : Reach) (e : Tlb) (x : Copy), isSpad va = false →
    s.cx.gate = [] → s.tlbFind (s.asidOf s.cur) va .write = some e → s.place (s.asidOf s.cur) va .write = .ok r → r.reg = none →
    s.l1Find (coreOf s.cur) r.line = some x → x.st ≠ .S →
    x.tagged (s.asidOf s.cur) (BitVec.ofNat 72 (va.toNat / 128 * 128)) = true →
    let o := fld va 0 7
    let old := leNat ((List.range ty.width).map fun i => lineByte (s.lineNow r.line) (o + i))
    let t := s.atomicAt ty va f
    (s.place (s.asidOf s.cur) va .read = .ok r → o + ty.width ≤ 128 → s.atomicOld ty va = old) ∧
    t.mem = s.mem ∧ t.spad = s.spad ∧ (∀ m, (t.ctx m).regs = (s.ctx m).regs) ∧
    (f old = none → t.cores = s.cores) ∧
    ∀ y, f old = some y → s.lineHeld r.line ((List.range ty.width).map (o + ·)) = false →
      let new := mergeLine (s.lineNow r.line) (s.kept r.line ((toLE ty.width y).zipIdx.map fun b => (o + b.2, b.1)))
      t.l1Find (coreOf s.cur) r.line = some { x with st := .M, data := new })

/-- fence, drain, pref and dsync (R171, R172, R177, R178): fence and drain complete once the gate's checks hold and leave the gate empty;
a fence keeps later L slots behind the block gathers issued before it. Behind a drain the context's next bundle does not issue while a
store of the context or a read of its block gathers has not performed; then the pending atomic flags join fstat. dsync completes when its
domain sync has, and blocks until then; under a release order it arrives once those accesses have performed, and until then it blocks
without having arrived; pref completes in every state, and a dropped one changes nothing. That the scope and the orders ask nothing more
is the model's reading, with one order of whole transactions (log 7). -/
def Obligations.OrderingCompletes : Prop :=
  ∀ (s : State) (q : QReg) (off : BitVec 17) (l2 : Bool) (vc scope : BitVec 3) (ord : BitVec 2),
    (s.recheck s.cur = .ok →
      exec (.fence scope) s = .next ((s.releaseGate s.cur).upd fun c => { c with fence := s.nextCmd + 1 }) ∧
      exec .drain s = .next ((s.releaseGate s.cur).upd fun c => { c with draining := true }) ∧
      (((s.releaseGate s.cur).ctx s.cur).gate = [] ∧ ((s.releaseGate s.cur).ctx s.cur).watch = []) ∧
      (s.cx.gate = [] → (s.releaseGate s.cur).mem = s.mem ∧ (s.releaseGate s.cur).spad = s.spad) ∧
      ((∃ c ∈ s.cmds, c.ctx = s.cur ∧ ∃ d a b k z, c.ins = .bgath d a b k z) →
        s.cx.joined = false → ord.getLsbD 1 = true → exec (.dsync ord scope) s = .next s.blockHere) ∧
      (s.cx.joined = false → s.releaseReady s.cur ord = false → exec (.dsync ord scope) s = .next s.blockHere) ∧
      (s.cx.joined = true ∨ s.releaseReady s.cur ord = true →
        (s.dsyncArrive.dsyncDone = true →
          ∃ t, exec (.dsync ord scope) s = .next t ∧ t.cx.joined = false ∧ t.cx.st = s.dsyncArrive.cx.st) ∧
        (s.dsyncArrive.dsyncDone = false → ∃ t, exec (.dsync ord scope) s = .next t ∧ t.cx.st = .blocked))) ∧
    (∀ n : Nat, (s.ctx n).draining = true →
      (s.readsDone n = true → s.outs n = [] →
        let folded (r : Regs) : Regs := { r with aflags := 0, fstat := r.fstat ||| r.aflags.setWidth 64 }
        (s.drained n).ctx n = { s.ctx n with draining := false, regs := folded (s.ctx n).regs, ck := folded (s.ctx n).ck } ∧
          ∀ m, m ≠ n → (s.drained n).ctx m = s.ctx m) ∧
      (s.readsDone n = false ∨ s.outs n ≠ [] → (s.ctx n).conflict = false → s.issueCtx n = .next (s.enter n))) ∧
    (∃ t, exec (.pref l2 vc q off) s = .next t ∧
      (s.prefLine (s.eaOff q off) l2 (if l2 then 0 else vcView (s.vcOf vc)) = none → t = s)) ∧
    (isSpad (s.eaOff q off) = true → exec (.pref l2 vc q off) s = .next s)

/-- Domain syncs (R21): when every live member has arrived more often than it has synced, each member's count goes up and its
PHASE inverts, and no other context changes; else nothing happens. -/
def Obligations.DomainSyncCompletesForAll : Prop :=
  ∀ (s : State) (n : Nat), (s.domain n).Nodup →
    let t := s.domainCheck n
    let all := s.domain n ≠ [] ∧ ∀ m ∈ s.domain n, (s.ctx m).synced < (s.ctx m).arrived
    (all → ∀ m, t.ctx m = if m ∈ s.domain n then
      { s.ctx m with synced := (s.ctx m).synced + 1, dom := (s.ctx m).dom ^^^ (1#64 <<< 30) } else s.ctx m) ∧
    (¬ all → t = s)

/-- Circular buffers (R31, R32, R173 to R175): the waits give the slot's offset when enough slots are filled or free and block
otherwise; free, advance and pop move the pointers, an advance once the context's earlier scratchpad stores have performed and a pop
once its die-local ones have (R174, R204); bind leaves the handle bound, to the descriptor's buffer where its base has no entry yet,
or unbound for an invalid descriptor. The pointers: an advance over free slots and a release of filled ones keep FILLED within the
slots, the pointers below them, and WP = RP + FILLED modulo the slots. -/
def Obligations.CircularBufferInstructions : Prop :=
  (∀ (b : CBuf) (k : Nat), b.pointersOk = true →
    (k ≤ b.free → (b.advance k).pointersOk = true ∧ (b.advance k).filled = b.filled + k ∧ (b.advance k).n = b.n) ∧
    (k ≤ b.filled → (b.release k).pointersOk = true ∧ (b.release k).filled = b.filled - k ∧ (b.release k).n = b.n)) ∧
  ∀ (s : State) (d : SReg) (r : BitVec 5) (h : CReg) (n : BitVec 23) (q : QReg) (off : BitVec 23) (vec : Bool) (e : Nat),
    let b := s.cbuf e
    let k := n.toNat
    (s.bound s.cur h = some e → k ≠ 0 → k ≤ b.n →
      (b.cons = partyOf s.cur →
        (k ≤ b.filled → exec (.cbwait d h n) s = .next (s.wS d (BitVec.ofNat 64 (b.base + b.rp * b.size)))) ∧
        (b.filled < k → exec (.cbwait d h n) s = .next s.blockHere) ∧
        (k ≤ b.filled → s.recheck s.cur = .ok →
          exec (.cbfree h n) s = .next ((s.releaseGate s.cur).updCbuf e fun b => b.release k)) ∧
        (b.filled < k → s.settled s.cur = true → exec (.cbfree h n) s = .next (s.trapHere 131 0))) ∧
      (b.prod = partyOf s.cur →
        (k ≤ b.free → exec (.cbspace d h n) s = .next (s.wS d (BitVec.ofNat 64 (b.base + b.wp * b.size)))) ∧
        (b.free < k → exec (.cbspace d h n) s = .next s.blockHere) ∧
        (k ≤ b.free → s.recheck s.cur = .ok → (s.released s.cur).outSpad s.cur = false →
          exec (.cbadv h n) s = .next ((s.releaseGate s.cur).updCbuf e fun b => b.advance k)) ∧
        (b.free < k → s.settled s.cur = true → exec (.cbadv h n) s = .next (s.trapHere 131 0)))) ∧
    (s.bound s.cur h = some e → b.stream = true → b.cons = partyOf s.cur → b.filled ≠ 0 → s.recheck s.cur = .ok →
      (s.released s.cur).outLocal s.cur = false →
      let t := (s.releaseGate s.cur).updCbuf e fun b => b.release 1
      let bs (m : Nat) : List Byte := (s.releaseGate s.cur).cbBytes e ((s.releaseGate s.cur).cbuf e).rp 0 m
      exec (.cbpop r h vec) s = .next (if vec then t.wV r (lineOf (bs 128)) else t.wS r (BitVec.ofNat 64 (leNat (bs 8))))) ∧
    (s.bound s.cur h = none → s.settled s.cur = true →
      exec (.cbwait d h n) s = .next (s.trapHere 128 0) ∧ exec (.cbspace d h n) s = .next (s.trapHere 128 0) ∧
      exec (.cbfree h n) s = .next (s.trapHere 128 0) ∧ exec (.cbadv h n) s = .next (s.trapHere 128 0) ∧
      exec (.cbpop r h vec) s = .next (s.trapHere 128 0)) ∧
    (checkCbbind h q off s = .ok → ∃ t, exec (.cbbind h q off) s = .next t ∧
      ((s.cbDesc q off).testBit 74 = false → t.bound s.cur h = none) ∧
      ((s.cbDesc q off).testBit 74 = true → ∃ e, t.bound s.cur h = some e ∧
        ((s.unbind s.cur h).entryAt (clusterOf s.cur) (cbufOfDesc (s.cbDesc q off)).base = none →
          t.cbuf e = cbufOfDesc (s.cbDesc q off))))

/-- Barriers (R35, R36, R176): arrivals and expectations, once the context's earlier die-local stores have performed, are counted and
the completion check follows; barx gives the phase before it; barw goes on once the phase differs, and blocks while it is the same.
That barw reads the phase as a scratchpad load does, through the context's own gated stores and watching it behind them, is the
model's reading (log 50). A barrier that is written is read back. -/
def Obligations.BarrierInstructions : Prop :=
  (∀ (s : State) (d a b : SReg), (s.rS a).toNat % 16 = 0 → (s.rS a).toNat < 2 ^ 22 →
    let o := (s.rS a).toNat
    let k := clusterOf s.cur
    let u := s.releaseGate s.cur
    let x := u.barrier k o
    let m := (s.rS b).toNat
    (m < 2 ^ 31 → s.bankReady = .ok → (x.arrive m).inRange = true →
      exec (.barv a b) s = .next (u.putBarrier (some s.cur) k o (x.arrive m).settle)) ∧
    (1 ≤ m → m < 2 ^ 31 → s.bankReady = .ok → (x.expect m).inRange = true →
      exec (.barx d a b) s = .next ((u.putBarrier (some s.cur) k o (x.expect m).settle).wS d (BitVec.ofNat 64 x.phase))) ∧
    (s.outLocal s.cur = false →
      (s.phaseFor o ≠ m % 65536 → exec (.barw a b) s = .next (s.loadDone (spadVA s.cur (o + 4)) 2 0)) ∧
      (s.phaseFor o = m % 65536 → exec (.barw a b) s = .next s.blockHere)) ∧
    (s.cx.gate = [] → s.phaseFor o = (s.barrier k o).phase ∧ s.loadDone (spadVA s.cur (o + 4)) 2 0 = s)) ∧
  (∀ (s : State) (by_ : Option Nat) (k o : Nat) (b : Barrier), sget [] s.skews k = [] → o % 16 = 0 → o < 2 ^ 22 →
    b.inRange = true → b.phase < 65536 → (s.putBarrier by_ k o b).barrier k o = b) ∧
  (∀ b : Barrier, (b.exp = true → b.count = 0 → b.settle = ⟨0, (b.phase + 1) % 65536, false⟩) ∧
    (b.exp = false ∨ b.count ≠ 0 → b.settle = b))

/-- spmode and the block gather (R165, R179): spmode enters or removes a tile when its checks hold; an entered tile permutes the
bytes of each of its rows and leaves every other offset; bgath is taken by the copy queue with its registers. -/
def Obligations.SkewAndBlockGather : Prop :=
  (∀ (s : State) (a b : SReg), checkSpmode a b s = .ok →
    let x := (s.rS a).toNat
    let k := clusterOf s.cur
    let es := sget [] (s.releaseGate s.cur).skews k
    ∃ t, exec (.spmode a b) s = .next t ∧
      ((s.rS b).toNat = 0 → sget [] t.skews k = es.filter fun e => e.offset != x % 2 ^ 22) ∧
      ((s.rS b).toNat = 1 → ∃ l, sget [] t.skews k = es ++ [⟨x % 2 ^ 22, tileRows x, tileRb x, l⟩])) ∧
  (∀ (e : Skew), 0 < e.rb →
    (∀ o, o < e.offset ∨ e.offset + e.rows * e.rb ≤ o → skewOff [e] o = o) ∧
    (∀ o, e.offset ≤ o → o < e.offset + e.rows * e.rb →
      (skewOff [e] o - e.offset) / e.rb = (o - e.offset) / e.rb ∧ e.offset ≤ skewOff [e] o ∧
      ((skewOff [e] o - e.offset) % e.rb = ((o - e.offset) % e.rb + 4 * ((o - e.offset) / e.rb)) % e.rb)) ∧
    (∀ o p, skewOff [e] o = skewOff [e] p → o = p)) ∧
  (∀ (s : State) (d : CReg) (a : KReg) (b : QReg) (c : SReg) (zero : Bool), checkBgath d a b c zero s = .ok →
    ∃ t x, exec (.bgath d a b c zero) s = .next t ∧ t.cmds = (s.releaseGate s.cur).cmds ++ [x] ∧
      x.ins = .bgath d a b c zero ∧ x.lat = s.lat ∧ x.ctx = s.cur ∧ x.outCount = bgCnt (s.rS c))

/-! ## Class E -/

/-- Issue of a command (R217, R220, R251, R274): with every check passed, each instruction that a queue takes completes by adding one
command behind those that wait, with the registers it captured and the next number; nothing else of the machine changes but the tiles
it binds, which the command names, their names in the issuing context (a name that is bound keeps its tile), the note that the context
has fed the command's queue (R37), and, for a pmvec alone, the descriptors of its die. The instructions (Instr.queued): mma, mmaa,
mmas, mmtr, mmtra, tzero, tld, tldsp, tst, tstsp, attn, attnf, mpld, copy, copy2d, copyc, pmvec, pmmac, pmatk, pmatv, pmrd, pmclr,
laybind, kvxfer, kvapp, pmst, rthash, rtfind, rtdep, rtref, rtrel, rtpin, rtevict, rtrd, schsel, tokcommit, specacc. -/
def Obligations.CommandsEnterTheirQueue : Prop :=
  ∀ (i : Instr) (s : State), Instr.queued i = true → Instr.verdict i s = .ok →
    ∃ t c, exec i s = .next t ∧ t.cmds = s.cmds ++ [c] ∧ t.nextCmd = s.nextCmd + 1 ∧
      c.id = s.nextCmd ∧ c.ins = i ∧ c.ctx = s.cur ∧ c.lat = s.lat ∧ c.asid = s.asidOf s.cur ∧ c.st = .queued ∧ c.prog = 0 ∧
      t = { s with cmds := t.cmds, nextCmd := t.nextCmd, tiles := t.tiles, ctxs := t.ctxs, dies := t.dies } ∧
      (∀ y, y ∉ c.tiles → t.tile y = s.tile y) ∧
      (∀ n, n ≠ s.cur → t.ctx n = s.ctx n) ∧ t.cx = { s.cx with tiles := t.cx.tiles, fed := t.cx.fed } ∧
      Instr.unit i ∈ t.cx.fed ∧
      (∀ k, sget 0 s.cx.tiles k ≠ 0 → sget 0 t.cx.tiles k = sget 0 s.cx.tiles k) ∧
      (∀ d, d ≠ s.myDie → t.die d = s.die d) ∧ t.die s.myDie = { s.die s.myDie with pmDesc := (t.die s.myDie).pmDesc } ∧
      ((∀ a k b, i ≠ .pmvec a k b) → t.dies = s.dies)

/-- pmsync and spawn (R120 to R122, R262): pmsync waits for the context's processing-memory commands, then gives PMERR and clears
it; spawn starts a free context of the cluster 8 clk on with the registers named and those it inherits, and is cause 48 for a
context that is not free. That the context stays Idle until then, with the launch set, is the model's choice (log 51); spawned
while the launch's queue has no slot, it is pre-empted with the launch. -/
def Obligations.PmsyncAndSpawn : Prop :=
  ∀ (s : State) (d a b c : SReg) (n : BitVec 5),
    ((∀ x ∈ s.cmds, x.ctx = s.cur → Instr.unit x.ins ≠ .pm) →
      ∃ t, exec (.pmsync d) s = .next t ∧ t.cx = { s.cx with regs := s.cx.regs.ws d s.cx.pmerr, pmerr := 0 }) ∧
    ((∃ x ∈ s.cmds, x.ctx = s.cur ∧ Instr.unit x.ins = .pm) → exec (.pmsync d) s = .next s) ∧
    ((s.rS a).toNat ≤ 15 → (s.rS b).toNat < (s.launchOf s.cur).nbundle →
      let g := clusterOf s.cur * 16 + (s.rS a).toNat
      ((s.ctx g).free = true → ∃ t, exec (.spawn a b c n) s = .next t ∧
        (∀ m, m ≠ g → t.ctx m = s.ctx m) ∧ t.mem = s.mem ∧ t.spad = s.spad ∧
        (t.ctx g).launch = s.cx.launch ∧ (t.ctx g).st = .idle ∧ (t.ctx g).readyAt = s.clk + 8 ∧
        (t.ctx g).preq = !s.slotHeld s.cur ∧
        (t.ctx g).ck = (t.ctx g).regs ∧ (t.ctx g).regs.pc = qoff (s.launchOf s.cur).code (16 * (s.rS b).toNat : Nat) ∧
        (t.ctx g).regs.gq 0 = s.rQ 0 ∧ (t.ctx g).regs.gq 1 = s.rQ 1 ∧ (t.ctx g).regs.view = s.lat.view ∧
        ∀ i : SReg, (t.ctx g).regs.gs i = if i.toNat < n.toNat then s.lat.gsn (c.toNat + i.toNat) else 0) ∧
      ((s.ctx g).free = false → s.settled s.cur = true → exec (.spawn a b c n) s = .next (s.trapHere 48 0)))

/-- Firing and retirement (R33, R217, R223): a command fires when it may; a fired tzero clears its tile; a retired command is gone
from its queue. That the event changes nothing where the command may not fire or retire, or where there is none, is the model's
reading (log 25). What the other commands do when they fire is stated in CopyAndTileMoves, MatrixAndAttentionResults,
ProcessingMemoryResults and TreeAndGenerationResults. -/
def Obligations.CommandsFireAndRetire : Prop :=
  ∀ (s : State) (id : Nat),
    (s.cmd id = none → exec (.commandFire id) s = .next s ∧ exec (.commandRetire id) s = .next s) ∧
    ∀ c, s.cmd id = some c →
      (s.mayFire c = true → exec (.commandFire id) s = .next ((s.bump 12 c.ctx 1).fire c)) ∧
      (s.mayFire c = false → exec (.commandFire id) s = .next s) ∧
      (s.mayRetire c = false → exec (.commandRetire id) s = .next s) ∧
      (s.mayRetire c = true → ∃ t, exec (.commandRetire id) s = .next t ∧ t.cmd id = none ∧ t.mem = s.mem ∧ t.spad = s.spad ∧
        ∀ j, j ≠ id → t.cmd j = s.cmd j) ∧
      (∀ t k x, c.ins = .tzero t k → c.tiles = [x] → s.mayFire c = true →
        ∃ u, exec (.commandFire id) s = .next u ∧ u.tile x = .zero ∧ u.mem = s.mem ∧ u.spad = s.spad ∧
          ∀ y, y ≠ x → u.tile y = s.tile y)

/-- The copy engine and the tile moves (R33, R36, R165, R231 to R233, R239), on operands that do not overlap, from the command's first
byte on: the firing of a copy, a copy2d, a copyc either way, a bgath, a tld, tldsp, tst, tstsp or mpld completes; it moves every
byte, element or slot to its place and nothing else of the scratchpads, leaves memory and the registers of every context as they
are, and moves the buffer's pointers by the slots. A copy with a barrier arrives there with the bytes of each destination line as
the line is written. A source in memory, of any number of lines, gives what the command reads there, each line's latest bytes. A copy,
copy2d, copyc or tst to memory writes its lines one after another, each from what stands at its source then; a line of the die's own
memory that nothing else holds is written exactly there. -/
def Obligations.CopyAndTileMoves : Prop :=
  ∀ (s : State) (id : Nat) (c : Cmd), s.cmd id = some c → s.mayFire c = true → c.prog = 0 → sget [] s.skews (clusterOf c.ctx) = [] →
    let K := clusterOf c.ctx * 2 ^ 22
    let at_ (t : State) (o : Nat) : Byte := rdByte t.spad (K + o)
    let fires (p : State → Prop) : Prop := ∃ t, exec (.commandFire id) s = .next t ∧ t.mem = s.mem ∧
      (∀ m, (t.ctx m).regs = (s.ctx m).regs) ∧ p t
    let only (t : State) (p : Nat → Prop) : Prop := ∀ x, (∀ o, p o → x ≠ K + o) → rdByte t.spad x = rdByte s.spad x
    let cl := clusterOf c.ctx
    let quiet (src : VA) (off len : Nat) : Prop := s.devFaults = [] ∧
      ∀ x ∈ segs (qoff src (off : Int)) len, isSpad x.1 = false ∧ (s.tlbFind c.asid x.1 .read).isSome = true
    let arrivals (parts : List (Nat × Nat)) (x : Barrier) : Barrier := parts.foldl (fun x g => (x.arrive g.2).settle) x
    (∀ a b r bar, c.ins = .copy a b r bar → isSpad (c.lat.gq b) = true →
      let from_ := spadOff (c.lat.gq a)
      let dst := spadOff (c.lat.gq b)
      let n := fld (c.w r 0) 32 32
      let bo := fld (c.w r 1) 0 22
      let parts := segOffs (c.lat.gq b) n
      let clear (lo : Nat) : Prop := bo + 16 ≤ lo ∨ lo + n ≤ bo
      let rest (t : State) : Prop := (bar = true → t.barrier cl bo = arrivals parts (s.barrier cl bo)) ∧
        only t fun o => (dst ≤ o ∧ o < dst + n) ∨ (bar = true ∧ bo ≤ o ∧ o < bo + 16)
      dst + n ≤ 2 ^ 22 → (bar = true → bo % 16 = 0 ∧ clear dst ∧ (n : Int) ≤ 2 ^ 31 + (s.barrier cl bo).count) →
      (isSpad (c.lat.gq a) = true → from_ + n ≤ 2 ^ 22 → from_ + n ≤ dst ∨ dst + n ≤ from_ → (bar = true → clear from_) →
        fires fun t => (∀ j < n, at_ t (dst + j) = at_ s (from_ + j)) ∧ rest t) ∧
      (∀ bytes : Nat × Nat → List Byte, (∀ g ∈ parts, quiet (c.lat.gq a) g.1 g.2 ∧ s.engRead c (.at (c.lat.gq a)) g.1 g.2 = .ok (bytes g)) →
        fires fun t => (∀ g ∈ parts, ∀ j < g.2, at_ t (dst + g.1 + j) = (bytes g).getD j 0) ∧ rest t)) ∧
    (let begun := (s.bump 12 c.ctx 1).begin_ c
     let ends (u : State) (k : Nat) : Prop :=
       exec (.commandFire id) s = .next (u.setCmd { begun.2 with st := .fired, prog := k, ranges := [] })
     let line (src dst : VA) (g : Nat × Nat) (t : State) : Except Hit State :=
       match t.engRead begun.2 (.at src) g.1 g.2 with
       | .error h => .error h
       | .ok bs => (t.engMarks begun.2 (.at src) g.1 g.2).engWriteLine begun.2 (qoff dst (g.1 : Int)) bs
     (∀ a b r, c.ins = .copy a b r false →
       let parts := segOffs (c.lat.gq b) (fld (c.w r 0) 32 32)
       ∀ u, parts.foldlM (fun t g => line (c.lat.gq a) (c.lat.gq b) g t) begun.1 = .ok u → ends u parts.length) ∧
     (∀ a b r, c.ins = .copy2d a b r false →
       let row (q : QReg) (o i : Nat) : VA := qoff (c.lat.gq q) (i * fld (c.w r 1) o 32 : Nat)
       let parts := (List.range (fld (c.w r 0) 48 16)).flatMap fun i => (segOffs (row b 32 i) (fld (c.w r 0) 32 16)).map fun g => (i, g)
       ∀ u, parts.foldlM (fun t x => line (row a 0 x.1) (row b 32 x.1) x.2 t) begun.1 = .ok u → ends u parts.length) ∧
     (∀ h a r e, c.ins = .copyc h a r true → c.inBuf = some e →
       let size := (s.cbuf e).size
       let parts := segOffs (c.lat.gq a) (fld (c.w r 0) 32 8 * size)
       ∀ u, parts.foldlM (fun t g => (t.engWriteLine begun.2 (qoff (c.lat.gq a) (g.1 : Int))
           (t.cbBytes e (t.cbuf e).rp (g.1 % size) g.2)).map fun t => t.updCbuf e fun b => b.release ((g.1 + g.2) / size - g.1 / size))
         begun.1 = .ok u → ends u parts.length) ∧
     (∀ x n a r, c.tiles = [x] → c.ins = .tst n a r → canon 0 (s.tile x).data = true → mvM (c.w r 0) ≤ 64 → mvN (c.w r 0) ≤ 64 →
       let w := c.w r 0
       let wd := efWidth (mvElf w)
       let row (i : Nat) : VA := qoff (c.lat.gq a) (i * fld (c.w r 1) 0 32 : Nat)
       let value (i j : Nat) : Nat × Byte := narrowElf (mvElf w) c.lat.fmt ((s.tile x).get i j)
       let bytes (i : Nat) : List Byte := (List.range (mvN w)).flatMap fun j => toLE wd (value i j).1
       let flags (i : Nat) (g : Nat × Nat) : Byte := ((List.range (mvN w)).filter fun j =>
         decide (j * wd < g.1 + g.2) && decide (g.1 < (j + 1) * wd)).foldl (fun f j => f ||| (value i j).2) 0
       let parts := (List.range (mvM w)).flatMap fun i => (segOffs (row i) (mvN w * wd)).map fun g => (i, g)
       (mvFlags w = false → ∀ u, parts.foldlM (fun (t : State) y => (t.updTile x fun z => z.orFlag y.1 (flags y.1 y.2)).engWriteLine begun.2
           (qoff (row y.1) (y.2.1 : Int)) (((bytes y.1).drop y.2.1).take y.2.2)) begun.1 = .ok u → ends u parts.length) ∧
       (mvFlags w = true → ∀ u, (segOffs (c.lat.gq a) 64).foldlM (fun (t : State) g => t.engWriteLine begun.2 (qoff (c.lat.gq a) (g.1 : Int))
           ((((List.range 64).map fun i => sget 0 (s.tile x).flags i).drop g.1).take g.2)) begun.1 = .ok u →
         ends u (segOffs (c.lat.gq a) 64).length))) ∧
    (∀ (e cnt : Nat) (src : Nat → Option VA) (bytes : Nat → Nat → List Byte), c.outBuf = some e → e / 64 = clusterOf c.ctx →
      c.started = [] → c.outCount = cnt → c.inBuf = none → c.inBuf2 = none →
      let b := s.cbuf e
      (∃ h a r, c.ins = .copyc h a r false ∧ cnt = fld (c.w r 0) 32 8 ∧ ∀ j < cnt, src j = some (qoff (c.lat.gq a) (j * b.size : Nat))) ∨
      (∃ d a q r z, c.ins = .bgath d a q r z ∧ cnt = bgCnt (c.w r 0) ∧
        ∀ j < cnt, let x := (bgIdx (c.lat.gk a) (c.w r 0)).getD j 0
          src j = if bgBound (c.w r 0) ≤ x then none else some (qoff (c.lat.gq q) (x * b.size : Nat))) →
      b.wp < b.n → b.base + b.n * b.size ≤ 2 ^ 22 →
      (∀ j < cnt, ∀ va, src j = some va → ∀ i < b.size / 128,
        quiet va (128 * i) 128 ∧ s.engRead c (.at va) (128 * i) 128 = .ok (bytes j i)) →
      let slot (j : Nat) : Nat := b.base + (b.wp + j) % b.n * b.size
      fires fun t => t.cbuf e = { b with wp := (b.wp + cnt) % b.n, filled := b.filled + cnt } ∧
        (∀ j < cnt, ∀ x < b.size, at_ t (slot j + x) = if (src j).isNone then 0 else (bytes j (x / 128)).getD (x % 128) 0) ∧
        only t fun o => ∃ j < cnt, slot j ≤ o ∧ o < slot j + b.size) ∧
    (∀ slot a r bs, c.ins = .mpld slot a r → quiet (c.lat.gq a) 0 64 → s.engRead c (.at (c.lat.gq a)) 0 64 = .ok bs →
      let b : BitVec 512 := BitVec.ofNat 512 (leNat bs)
      ∃ t, exec (.commandFire id) s = .next t ∧ t.masks = sput none s.masks (maskKey c.ctx slot) (if maskOk b then some b else none) ∧
        (maskOk b = true → t.mem = s.mem ∧ t.spad = s.spad)) ∧
    (∀ a b r, c.ins = .copy a b r false → isSpad (c.lat.gq a) = true →
      let n := fld (c.w r 0) 32 32
      let parts := segOffs (c.lat.gq b) n
      let begun := (s.bump 12 c.ctx 1).begin_ c
      spadOff (c.lat.gq a) + n ≤ 2 ^ 22 →
      ∀ u, parts.foldlM (fun (t : State) g => t.engWriteLine begun.2 (qoff (c.lat.gq b) (g.1 : Int))
          (t.spadBytes cl (spadOff (c.lat.gq a) + g.1) g.2)) begun.1 = .ok u →
        exec (.commandFire id) s = .next (u.setCmd { begun.2 with st := .fired, prog := parts.length, ranges := [] })) ∧
    (∀ a b r bar, c.ins = .copy2d a b r bar → isSpad (c.lat.gq b) = true →
      let rows := fld (c.w r 0) 48 16
      let n := fld (c.w r 0) 32 16
      let src (i : Nat) : VA := qoff (c.lat.gq a) (i * fld (c.w r 1) 0 32 : Nat)
      let parts (i : Nat) : List (Nat × Nat) := segOffs (qoff (c.lat.gq b) (i * fld (c.w r 1) 32 32 : Nat)) n
      let from_ (i : Nat) : Nat := spadOff (c.lat.gq a) + i * fld (c.w r 1) 0 32
      let dst (i : Nat) : Nat := spadOff (c.lat.gq b) + i * fld (c.w r 1) 32 32
      let bo := fld (c.w r 2) 0 22
      let clear (lo : Nat) : Prop := bo + 16 ≤ lo ∨ lo + n ≤ bo
      let rest (t : State) : Prop :=
        (bar = true → t.barrier cl bo = arrivals ((List.range rows).flatMap parts) (s.barrier cl bo)) ∧
        only t fun o => (∃ i < rows, dst i ≤ o ∧ o < dst i + n) ∨ (bar = true ∧ bo ≤ o ∧ o < bo + 16)
      1 ≤ n → n ≤ fld (c.w r 1) 32 32 → (∀ i < rows, dst i + n ≤ 2 ^ 22) →
      (bar = true → bo % 16 = 0 ∧ (∀ i < rows, clear (dst i)) ∧ (rows * n : Int) ≤ 2 ^ 31 + (s.barrier cl bo).count) →
      (isSpad (c.lat.gq a) = true → (∀ i < rows, from_ i + n ≤ 2 ^ 22 ∧ (bar = true → clear (from_ i))) →
        (∀ i < rows, ∀ k < rows, from_ i + n ≤ dst k ∨ dst k + n ≤ from_ i) →
        fires fun t => (∀ i < rows, ∀ j < n, at_ t (dst i + j) = at_ s (from_ i + j)) ∧ rest t) ∧
      (∀ bytes : Nat → Nat × Nat → List Byte, (∀ i < rows, ∀ g ∈ parts i, quiet (src i) g.1 g.2 ∧
        s.engRead c (.at (src i)) g.1 g.2 = .ok (bytes i g)) →
        fires fun t => (∀ i < rows, ∀ g ∈ parts i, ∀ j < g.2, at_ t (dst i + g.1 + j) = (bytes i g).getD j 0) ∧ rest t)) ∧
    (∀ (src : VA) (off len : Nat) (bytes : VA × Nat → List Byte),
      (∀ x ∈ segs (qoff src (off : Int)) len, s.engReadLine (dieOf c.ctx) cl c.asid x.1 x.2 = .ok (bytes x)) →
      s.engRead c (.at src) off len = .ok ((segs (qoff src (off : Int)) len).flatMap bytes)) ∧
    (∀ (va : VA) (len : Nat) (r : Reach), isSpad va = false → s.access (dieOf c.ctx) none c.asid va .read 0 = .ok r → r.reg = none →
      s.engReadLine (dieOf c.ctx) cl c.asid va len = .ok ((List.range len).map fun j => lineByte (s.lineNow r.line) (fld va 0 7 + j))) ∧
    (∀ (va : VA) (bs : List Byte) (r : Reach), isSpad va = false → s.links = [] → s.badUnits = [] →
      s.access (dieOf c.ctx) none c.asid va .write 0 = .ok r → r.reg = none → (s.tlbFind c.asid va .write).isSome = true →
      isWin r.line = false → isHost r.line = false → lineDie r.line = dieOf c.ctx → fld va 0 7 + bs.length ≤ 128 →
      s.lineHeld r.line ((List.range bs.length).map (fld va 0 7 + ·)) = false →
      s.dirFind r.line = none → (∀ k ∈ s.cores, ∀ y ∈ k.2.l1, y.line ≠ r.line) →
      ((s.die (dieOf c.ctx)).l2.filter fun x => x != r.line && x % 16 == r.line % 16).length < Config.l2Lines →
      let here (j : Nat) : Nat := s.backKey (r.line * 128 + (fld va 0 7 + j))
      ∃ u, s.engWriteLine c va bs = .ok u ∧ u.spad = s.spad ∧ (∀ j < bs.length, rdByte u.mem (here j) = bs.getD j 0) ∧
        ∀ k, (∀ j < bs.length, k ≠ here j) → rdByte u.mem k = rdByte s.mem k) ∧
    (∀ (x : Nat) (r : SReg) (n : TileName) (a : QReg) (bytes : Nat → List Byte), c.tiles = [x] → c.ins = .tld n a r →
      canon 0 (s.tile x).data = true → mvM (c.w r 0) ≤ 64 → mvN (c.w r 0) ≤ 64 →
      let w := c.w r 0
      let wd := efWidth (mvElf w)
      let st := fld (c.w r 1) 0 32
      (∀ i < mvM w, quiet (c.lat.gq a) (i * st) (mvN w * wd) ∧ s.engRead c (.at (c.lat.gq a)) (i * st) (mvN w * wd) = .ok (bytes i)) →
      fires fun t => t.spad = s.spad ∧ (∀ y, y ≠ x → t.tile y = s.tile y) ∧
        (∀ i < 64, ∀ j < 64, (t.tile x).get i j =
          if i < mvM w ∧ j < mvN w then widenElf (mvElf w) (leNat (((bytes i).drop (j * wd)).take wd)) % 2 ^ 32 else (s.tile x).get i j) ∧
        ∀ i, sget 0 (t.tile x).flags i = if i < mvM w then 0 else sget 0 (s.tile x).flags i) ∧
    (∀ (e cnt : Nat) (src : Nat → Option Nat), c.outBuf = some e → e / 64 = clusterOf c.ctx → c.started = [] → c.outCount = cnt →
      c.inBuf = none → c.inBuf2 = none →
      let b := s.cbuf e
      (∃ h a r, c.ins = .copyc h a r false ∧ isSpad (c.lat.gq a) = true ∧ cnt = fld (c.w r 0) 32 8 ∧
        ∀ j < cnt, src j = some (spadOff (c.lat.gq a) + j * b.size)) ∨
      (∃ d a q r z, c.ins = .bgath d a q r z ∧ isSpad (c.lat.gq q) = true ∧ cnt = bgCnt (c.w r 0) ∧
        ∀ j < cnt, let x := (bgIdx (c.lat.gk a) (c.w r 0)).getD j 0
          src j = if bgBound (c.w r 0) ≤ x then none else some (spadOff (c.lat.gq q) + x * b.size)) →
      b.wp < b.n → b.base + b.n * b.size ≤ 2 ^ 22 →
      (∀ j < cnt, ∀ o, src j = some o → o + b.size ≤ 2 ^ 22 ∧ (o + b.size ≤ b.base ∨ b.base + b.n * b.size ≤ o)) →
      let slot (j : Nat) : Nat := b.base + (b.wp + j) % b.n * b.size
      fires fun t => t.cbuf e = { b with wp := (b.wp + cnt) % b.n, filled := b.filled + cnt } ∧
        (∀ j < cnt, ∀ x < b.size, at_ t (slot j + x) = match src j with | some o => at_ s (o + x) | none => 0) ∧
        only t fun o => ∃ j < cnt, slot j ≤ o ∧ o < slot j + b.size) ∧
    (∀ h a r e, c.ins = .copyc h a r true → c.inBuf = some e → c.outBuf = none → e / 64 = clusterOf c.ctx → isSpad (c.lat.gq a) = true →
      let b := s.cbuf e
      let cnt := fld (c.w r 0) 32 8
      let dst := spadOff (c.lat.gq a)
      b.rp < b.n → b.base + b.n * b.size ≤ 2 ^ 22 → dst + cnt * b.size ≤ 2 ^ 22 →
      dst + cnt * b.size ≤ b.base ∨ b.base + b.n * b.size ≤ dst →
      fires fun t => t.cbuf e = { b with rp := (b.rp + cnt) % b.n, filled := b.filled - cnt } ∧
        (∀ y < cnt * b.size, at_ t (dst + y) = at_ s (b.at b.rp y)) ∧ only t fun o => dst ≤ o ∧ o < dst + cnt * b.size) ∧
    (∀ (x : Nat) (va : VA) (r : SReg), c.tiles = [x] → isSpad va = true → canon 0 (s.tile x).data = true →
      let w := c.w r 0
      let elf := mvElf w
      let wd := efWidth elf
      let st := fld (c.w r 1) 0 32
      let o (i j : Nat) : Nat := spadOff va + i * st + j * wd
      mvM w ≤ 64 → mvN w ≤ 64 → (∀ i < mvM w, o i (mvN w) ≤ 2 ^ 22) →
      ((∃ n a, c.ins = .tld n a r ∧ va = c.lat.gq a) ∨ (∃ n a, c.ins = .tldsp n a r ∧ va = spadVA c.ctx (c.lat.gs a).toNat) →
        fires fun t => t.spad = s.spad ∧ (∀ y, y ≠ x → t.tile y = s.tile y) ∧
          (∀ i < 64, ∀ j < 64, (t.tile x).get i j =
            if i < mvM w ∧ j < mvN w then widenElf elf (leNat (s.spadBytes (clusterOf c.ctx) (o i j) wd)) % 2 ^ 32
            else (s.tile x).get i j) ∧
          ∀ i, sget 0 (t.tile x).flags i = if i < mvM w then 0 else sget 0 (s.tile x).flags i) ∧
      ((∃ n a, c.ins = .tst n a r ∧ va = c.lat.gq a) ∨ (∃ n a, c.ins = .tstsp n a r ∧ va = spadVA c.ctx (c.lat.gs a).toNat) →
        (mvFlags w = false → mvN w * wd ≤ st → fires fun t => (∀ y, y ≠ x → t.tile y = s.tile y) ∧ (t.tile x).data = (s.tile x).data ∧
          (∀ i < mvM w, sget 0 (t.tile x).flags i = (List.range (mvN w)).foldl
            (fun f j => f ||| (narrowElf elf c.lat.fmt ((s.tile x).get i j)).2) (sget 0 (s.tile x).flags i)) ∧
          (∀ i < mvM w, ∀ j < mvN w, ∀ b < wd, at_ t (o i j + b) =
            (toLE wd (narrowElf elf c.lat.fmt ((s.tile x).get i j)).1).getD b 0) ∧
          only t fun p => ∃ i < mvM w, o i 0 ≤ p ∧ p < o i (mvN w)) ∧
        (mvFlags w = true → spadOff va + 64 ≤ 2 ^ 22 → fires fun t => t.tiles = s.tiles ∧
          (∀ i < 64, at_ t (spadOff va + i) = sget 0 (s.tile x).flags i) ∧
          only t fun p => spadOff va ≤ p ∧ p < spadOff va + 64))) ∧
    (∀ slot a r, c.ins = .mpld slot a r → isSpad (c.lat.gq a) = true → spadOff (c.lat.gq a) + 64 ≤ 2 ^ 22 →
      let b : BitVec 512 := BitVec.ofNat 512 (leNat (s.spadBytes (clusterOf c.ctx) (spadOff (c.lat.gq a)) 64))
      ∃ t, exec (.commandFire id) s = .next t ∧ t.masks = sput none s.masks (maskKey c.ctx slot) (if maskOk b then some b else none) ∧
        (maskOk b = true → t.mem = s.mem ∧ t.spad = s.spad))

/-- The matrix and attention commands (R33, R50 to R61, R219, R226 to R229, R232 to R237), from their first block on. Operands lie in
the scratchpad, in circular buffers, or in memory whose pages are known and whose devices report nothing. mma, mmaa, mmas, mmtr and
mmtra: element (i, j) is the old accumulator, or zero where the form initialises, with the products of the K blocks of row i of A and
row j of B accumulated in order, and MVAL where the form masks it; mmas takes A from the source tile, converted to AFMT. attn: each
row takes what one row's rule gives of its queries, keys, values and used positions, and FIRST begins from zero sums and m of minus
infinity. attnf: each element divided by its row's l, narrowed, at its place in the scratchpad, or in memory as its lines are written
one by one. The slots of an input buffer are freed. Nothing else changes: not the rows and columns that the command does not name, the
other tiles, memory, the scratchpads but attnf's rows, or any register. The model's readings: which row flags attn and attnf set (log
19); where both operands of the mma family name one buffer, B's slots are those behind A's (log 40). -/
def Obligations.MatrixAndAttentionResults : Prop :=
  ∀ (s : State) (id : Nat) (c : Cmd), s.cmd id = some c → s.mayFire c = true → c.prog = 0 →
    let f := c.lat.fmt
    let fires (p : State → Prop) : Prop := ∃ t, exec (.commandFire id) s = .next t ∧ t.mem = s.mem ∧
      (∀ m, (t.ctx m).regs = (s.ctx m).regs) ∧ (∀ y, y ∉ c.tiles → t.tile y = s.tile y) ∧ p t
    let quiet (src : Src) (off len : Nat) : Prop :=
      ∀ x ∈ src.segs off len, isSpad x.1 = true ∨ (s.devFaults = [] ∧ (s.tlbFind c.asid x.1 .read).isSome = true)
    let buffers (t : State) (n m : Nat) : Prop := c.outBuf = none → ∀ e, t.cbuf e =
      if c.inBuf = some e ∨ c.inBuf2 = some e then
        (s.cbuf e).release ((if c.inBuf = some e then n else 0) + if c.inBuf2 = some e then m else 0)
      else s.cbuf e
    (∀ (m : MmForm) (x : Nat) (A B : Nat → Nat → List XR × Nat), mmForm c.ins = some m →
      let w := c.w m.c 0
      let w1 := c.w m.c 1
      let a := mmOpdA f w (s.srcOf c m.a c.inBuf) (fld w1 0 32)
      let b := mmOpdB f w (match c.inBuf2 with
        | some e => .buf e ((s.cbuf e).rp + if c.inBuf = some e then c.inCount else 0)
        | none => .at (c.lat.gq m.b)) (fld w1 32 32)
      let reads (o : Opd) (rows : List Nat) (X : Nat → Nat → List XR × Nat) : Prop := ∀ k < mmK w / 32, ∀ i ∈ rows,
        s.readBlock c o i k = .ok (X k i) ∧ ∀ g ∈ o.reads k, quiet o.src (i * o.stride + g.1) g.2
      mmM w ≤ 64 → mmN w ≤ 64 → canon 0 (s.tile x).data = true →
      reads b ((List.range (mmN w)).filter (mmNeedB m.tri w)) B →
      (m.src = none ∧ c.tiles = [x] ∧ reads a ((List.range (mmM w)).filter (mmNeedA m.tri w)) A) ∨
      (m.src ≠ none ∧ mmK w ≤ 64 ∧ ∃ y, c.tiles = [x, y] ∧ y ≠ x ∧ canon 0 (s.tile y).data = true ∧ ∀ b i, A b i =
        ((List.range 32).map fun z => decodeFP (efFmt (fmtA f))
          (cvtToFP (efFmt (fmtA f)) (fmtRnd f) (fmtSat f) (decodeFP .f32 ((s.tile y).get i (32 * b + z)))).1,
         if fmtScale f = 1 then 0x78 else 0x7F)) →
      let masked (i j : Nat) : Bool := m.tri && decide (mmDiag w < (j : Int) - i)
      fires fun t => t.spad = s.spad ∧ (∀ y, y ≠ x → t.tile y = s.tile y) ∧
        (∀ i < 64, ∀ j < 64, (t.tile x).get i j =
          if i < mmM w ∧ j < mmN w then
            if masked i j then mmVal w % 2 ^ 32
            else (List.range (mmK w / 32)).foldl (fun acc b => accBlock (fmtC f == 8) acc (A b i) (B b j) (fmtScale f) % 2 ^ 32)
              (if m.init then 0 else (s.tile x).get i j)
          else (s.tile x).get i j) ∧
        (m.src = none → ∀ i < mmM w, sget 0 (t.tile x).flags i =
          (if m.init then 0 else sget 0 (s.tile x).flags i) |||
          if fmtC f = 8 then 0 else (List.range (mmN w)).foldl (fun g j => g ||| nanInf ((t.tile x).get i j)) 0) ∧
        (∀ i, mmM w ≤ i → sget 0 (t.tile x).flags i = sget 0 (s.tile x).flags i) ∧ buffers t c.inCount c.inCount2) ∧
    (∀ t a b r slot bBuf, c.ins = .attn t a b r slot bBuf → c.inBuf2 = none →
      (∀ e, c.inBuf = some e → atCount s c slot r ≤ (s.cbuf e).n) →
      let w := c.w r 0
      let w1 := c.w r 1
      let w2 := c.w r 2
      let m := s.maskSlot c.ctx slot
      let top := c.tiles.headD 0
      let tk := c.tiles.getD (atH w) 0
      c.tiles.length = atH w + 1 → c.tiles.Nodup → (∀ y ∈ c.tiles, canon 0 (s.tile y).data = true) → atQN w ≤ 64 →
      ((∀ i < atQN w, ∀ j < atKN w, maskedPlain m w w2 i j = true) → fires fun u => u.tiles = s.tiles ∧ u.spad = s.spad ∧
        buffers u (atCount s c slot r) 0) ∧
      ∀ rd, (∃ i < atQN w, ∃ j < atKN w, maskedPlain m w w2 i j = false) →
        atReads s c f w w1 w2 (.at (c.lat.gq a)) (s.srcOf c b c.inBuf) m = .ok rd → (∀ x ∈ rd.made, quiet x.1 x.2.1 x.2.2) →
        let o0 (i : Nat) : List Nat := if atFirst w then List.replicate (atDH w) 0 else s.getO c.tiles i (atDH w)
        let m0 (i : Nat) : Nat := if atFirst w then 0xFF800000 else (s.tile tk).get i 0
        let l0 (i : Nat) : Nat := if atFirst w then 0 else (s.tile tk).get i 1
        let g0 (y i : Nat) : Byte := if atFirst w then 0 else sget 0 (s.tile y).flags i
        let is (u : State) (i : Nat) (o : List Nat) (mx l : Nat) (g : Byte) : Prop := u.getO c.tiles i (atDH w) = o ∧
          (u.tile tk).get i 0 = mx ∧ (u.tile tk).get i 1 = l ∧ sget 0 (u.tile top).flags i = g0 top i ||| g
        let named (y j : Nat) : Prop := (y = tk ∧ j < 2) ∨ ∃ z < atH w, c.tiles[z]? = some y ∧ 64 * z + j < atDH w
        fires fun u => u.spad = s.spad ∧ buffers u (atCount s c slot r) 0 ∧
          (∀ i < atQN w,
            match atRow f (match m with | some x => mkWord x 1 | none => 0) m.isSome (rd.q.getD i []) rd.k rd.v (rd.used.getD i [])
              (atDH w) (m0 i) (l0 i) (o0 i) with
            | none => is u i (o0 i) (m0 i) (l0 i) 0
            | some (o, mx, l, g) => is u i (o.map (· % 2 ^ 32)) (mx % 2 ^ 32) (l % 2 ^ 32) g) ∧
          ∀ y ∈ c.tiles, (∀ i < 64, ∀ j < 64, atQN w ≤ i ∨ ¬ named y j → (u.tile y).get i j = (s.tile y).get i j) ∧
            (∀ i < atQN w, y ≠ top → sget 0 (u.tile y).flags i = g0 y i) ∧
            ∀ i, atQN w ≤ i → sget 0 (u.tile y).flags i = sget 0 (s.tile y).flags i) ∧
    (∀ n a r, c.ins = .attnf n a r → sget [] s.skews (clusterOf c.ctx) = [] →
      let w := c.w r 0
      let elf := fld w 35 4
      let wd := efWidth elf
      let rows := fld w 39 7 + 1
      let top := c.tiles.headD 0
      let row (i : Nat) : VA := qoff (c.lat.gq a) (i * fld (c.w r 1) 0 32 : Nat)
      let o (i j : Nat) : Nat := spadOff (c.lat.gq a) + i * fld (c.w r 1) 0 32 + j * wd
      let st := s.tile (c.tiles.getD (atH w) 0)
      let value (i j : Nat) : Nat × Byte := narrowElf elf f
        (if (decodeFP .f32 (st.get i 0)).isNan then Fmt.nan .f32 else if st.get i 1 = 0 then 0
         else (fpDiv .f32 ((s.getO c.tiles i (atDH w)).getD j 0) (st.get i 1)).1)
      let bytes (i : Nat) : List Byte := (List.range (atDH w)).flatMap fun j => toLE wd (value i j).1
      let begun := (s.bump 12 c.ctx 1).begin_ c
      c.tiles.length = atH w + 1 → c.tiles.Nodup →
      (isSpad (c.lat.gq a) = true → rows ≤ 64 → atDH w * wd ≤ fld (c.w r 1) 0 32 → (∀ i < rows, o i (atDH w) ≤ 2 ^ 22) →
        fires fun t => (∀ y, (t.tile y).data = (s.tile y).data) ∧
          (∀ i < rows, ∀ j < atDH w, ∀ b < wd,
            rdByte t.spad (clusterOf c.ctx * 2 ^ 22 + (o i j + b)) = (toLE wd (value i j).1).getD b 0) ∧
          (∀ p, (∀ i < rows, ∀ q, o i 0 ≤ q → q < o i (atDH w) → p ≠ clusterOf c.ctx * 2 ^ 22 + q) → rdByte t.spad p = rdByte s.spad p) ∧
          (∀ y i, y ≠ top ∨ rows ≤ i → sget 0 (t.tile y).flags i = sget 0 (s.tile y).flags i) ∧
          ∀ i < rows, sget 0 (t.tile top).flags i = (List.range (atDH w)).foldl (fun g j => g ||| (value i j).2)
            (sget 0 (s.tile top).flags i ||| if !(decodeFP .f32 (st.get i 0)).isNan && st.get i 1 == 0 then rfALLMASK else 0)) ∧
      ∀ u, ((List.range rows).flatMap fun i => (segOffs (row i) (atDH w * wd)).map fun g => (i, g)).foldlM
          (fun (t : State) x => t.engWriteLine begun.2 (qoff (row x.1) (x.2.1 : Int)) (((bytes x.1).drop x.2.1).take x.2.2)) begun.1 = .ok u →
        ∃ t, exec (.commandFire id) s = .next t ∧ t.mem = u.mem ∧ t.spad = u.spad ∧ t.dies = u.dies ∧ t.cores = u.cores ∧
          t.dir = u.dir ∧ t.heldWrites = u.heldWrites ∧ ∀ y, (t.tile y).data = (s.tile y).data)

/-- Processing memory (R244 to R249, R253 to R261, R265), where the devices report no fault and no unit is bad. Firing: a pmvec reads its
elements and scales, a laybind binds, unbinds or rejects its record. A group's start, on what the devices hold once copies of its rows
have returned to them, those of step words first and over links that are up (log 52): pmvec fills its slot and descriptor; pmmac adds to
each accumulator of its rows and slots the blocks of the stored row with those of the slot; pmatk writes the product of the query with
each token's head, or minus infinity for a masked one; pmatv adds each column's products over the tokens it may see; pmrd and pmst put the
BGE's record at its ordinal; kvxfer and kvapp write each converted row of the BGE through the window, and then its step words, over links
that are up. A row that a fault or a bad unit keeps a pmmac from reading is poisoned and its accumulators stay. A record holds each
accumulator, NaN for a poisoned row. -/
def Obligations.ProcessingMemoryResults : Prop :=
  (∀ (s : State) (id : Nat) (c : Cmd), s.cmd id = some c → s.mayFire c = true →
    let cl := clusterOf c.ctx
    let d := dieOf c.ctx
    (∀ a k v, c.ins = .pmvec a k v → isSpad (c.lat.gq a) = true → c.data = [] →
      spadOff (c.lat.gq a) + pvBytes (c.w k 0) ≤ 2 ^ 22 →
      ∃ t x, exec (.commandFire id) s = .next t ∧ t.cmd id = some x ∧ x.st = .fired ∧
        x.data = s.spadBytes cl (spadOff (c.lat.gq a)) (pvBytes (c.w k 0)) ∧ t.mem = s.mem ∧ t.spad = s.spad) ∧
    (∀ a k ls, c.ins = .laybind a k ls → isSpad (c.lat.gq a) = true → spadOff (c.lat.gq a) + 64 ≤ 2 ^ 22 →
      let r : BitVec 512 := BitVec.ofNat 512 (leNat (s.spadBytes cl (spadOff (c.lat.gq a)) 64))
      let free := ∀ e ∈ (s.die d).layouts, e.1 ≠ ls.toNat → e.2.valid = true → lrOverlap r e.2.record = false
      s.flushDown (s.bindLines d ls.toNat r) = false → ∃ t, exec (.commandFire id) s = .next t ∧
        (r.getLsbD 12 = false → t.layout d ls.toNat = .zero) ∧
        (r.getLsbD 12 = true → lrOk r d = true → free → t.layout d ls.toNat = ⟨true, r, false⟩) ∧
        (r.getLsbD 12 = true → lrOk r d = false ∨ ¬ free → t.layout d ls.toNat = .zero) ∧
        ∀ j, j ≠ ls.toNat → t.layout d j = s.layout d j)) ∧
  (∀ (s : State) (id bge : Nat) (c : Cmd), bge < 128 → s.cmd id = some c → s.groupReady c bge = true →
    let d := dieOf c.ctx
    let s0 := s.bump 14 c.ctx 1
    let s1 := s0.settleRows d (s0.stepRows c bge)
    let u := s1.settleRows d (s1.groupRows c bge)
    let g := u.bge d bge
    let r := c.lay
    let starts (p : State → Bge → Prop) : Prop := ∃ t, exec (.groupStart id bge) s = .next t ∧
      (∀ e b, e ≠ d ∨ b ≠ bge → t.bge e b = u.bge e b) ∧ p t (t.bge d bge)
    s0.settleDown d (s0.stepRows c bge) = none → s1.settleDown d (s1.groupRows c bge) = none →
    (∀ a k v, c.ins = .pmvec a k v → c.data.length ≤ pvLen (c.w k 0) + 64 → starts fun t x => t.mem = s.mem ∧ t.spad = s.spad ∧
      sget .zero x.desc v.toNat = pvDesc (c.w k 0) ∧ x.acc = g.acc ∧ x.poison = g.poison ∧
      (∀ i < 2048, sget 0 x.act (2048 * v.toNat + i) = if i < pvLen (c.w k 0) then c.data.getD i 0 else 0) ∧
      (∀ i < 64, sget 0 x.scales (64 * v.toNat + i) = c.data.getD (pvLen (c.w k 0) + i) 0) ∧
      ∀ b, b ≠ v.toNat → sget .zero x.desc b = sget .zero g.desc b ∧
        (∀ i < 2048, sget 0 x.act (2048 * b + i) = sget 0 g.act (2048 * b + i)) ∧
        ∀ i < 64, sget 0 x.scales (64 * b + i) = sget 0 g.scales (64 * b + i)) ∧
    (u.devFaults = [] → u.badUnits = [] →
      (∀ ty k ls, c.ins = .pmmac ty k ls → (u.layout d ls.toNat).bad = false →
        let rows := macRows c k bge g
        let slots := pmSlots (c.w k 0)
        let term (i b q : Nat) : Nat → Nat := fun acc =>
          let a := sget .zero g.desc b
          let m := u.macBlock d r bge (fld (c.w k 1) 0 32 + i) (pmPlanes ty r) q
          accFP acc (blockTerm (dotProducts (List.zipWith XR.mul m.1 ((List.range 32).map fun j => g.elem b a.af (32 * q - a.koff + j))))
            m.2 (g.scale b ((32 * q - a.koff) / 32)) (lrScale r))
        starts fun t x => t.mem = u.mem ∧ x.act = g.act ∧ x.desc = g.desc ∧ x.poison = g.poison ∧
          ∀ i, ∀ b < 8, x.accAt i b = if i ∈ rows ∧ b ∈ slots then
              let a := sget .zero g.desc b
              (List.range ((a.koff + a.kc) / 32 - a.koff / 32)).foldl (fun acc q => term i b (a.koff / 32 + q) acc % 2 ^ 32) (g.accAt i b)
            else g.accAt i b) ∧
      (∀ k ls, (u.layout d ls.toNat).bad = false →
        let w := c.w k 0
        let t0 := fld (c.w k 1) 0 32
        let toks := stripeTokens r ((lrBges r).findIdx (· == bge)) t0 (fld (c.w k 1) 32 32)
        let hidden (tok : Nat) : Bool := paStep w && decide (fld (c.w k 2) 0 32 < u.devWord d r bge (lrStep r (lrLocal r tok)))
        let a := sget .zero g.desc (paB w)
        (c.ins = .pmatk k ls → starts fun t x => t.mem = u.mem ∧ x.act = g.act ∧ x.desc = g.desc ∧ x.poison = g.poison ∧
          (∀ tok ∈ toks, x.accAt ((tok - t0) / lrS r) (paAcol w) = if hidden tok then 0xFF800000 else
            dotBlocks 0 (groups 32 (paDH w / 32) (List.zipWith XR.mul ((List.range (paDH w)).map fun i => g.elem (paB w) a.af i)
              (u.headElems c k bge tok))) % 2 ^ 32) ∧
          ∀ i, ∀ b < 8, (b ≠ paAcol w ∨ ∀ tok ∈ toks, i ≠ (tok - t0) / lrS r) → x.accAt i b = g.accAt i b) ∧
        (c.ins = .pmatv k ls → paAcol w + ceilDiv (paDH w) 64 ≤ 8 → starts fun t x => t.mem = u.mem ∧ x.act = g.act ∧ x.desc = g.desc ∧
          x.poison = g.poison ∧
          (∀ col < paDH w, x.accAt (col % 64) (paAcol w + col / 64) =
            dotBlocks (g.accAt (col % 64) (paAcol w + col / 64)) ((groups 32 (ceilDiv toks.length 32) toks).map fun ts =>
              ts.filterMap fun tok => if hidden tok then none else
                some ((g.elem (paB w) a.af (tok - a.koff)).mul ((u.headElems c k bge tok).getD col (.fin false 0 0)))) % 2 ^ 32) ∧
          ∀ i, ∀ b < 8, (∀ col < paDH w, i ≠ col % 64 ∨ b ≠ paAcol w + col / 64) → x.accAt i b = g.accAt i b))) ∧
    (∀ b k ls e, c.ins = .pmrd b k ls → c.outBuf = some e → sget [] s.skews (e / 64) = [] →
      let o := (s.cbuf e).at (c.outFrom + c.bges.findIdx (· == bge)) 0
      o + recBytes (prElf (c.w k 0)) ≤ 2 ^ 22 → starts fun t x => t.mem = s.mem ∧ x = g ∧
        (∀ y < recBytes (prElf (c.w k 0)), rdByte t.spad (e / 64 * 2 ^ 22 + (o + y)) = (g.record bge (prElf (c.w k 0)) c.lat.fmt).getD y 0) ∧
        ∀ p, p < e / 64 * 2 ^ 22 + o ∨ e / 64 * 2 ^ 22 + (o + recBytes (prElf (c.w k 0))) ≤ p → rdByte t.spad p = rdByte s.spad p) ∧
    (∀ a k ls, c.ins = .pmst a k ls → c.parts = [] → isSpad (c.lat.gq a) = true → sget [] s.skews (clusterOf c.ctx) = [] →
      let n := recBytes (prElf (c.w k 0))
      let o := spadOff (c.lat.gq a) + c.bges.findIdx (· == bge) * n
      o + n ≤ 2 ^ 22 → starts fun t x => t.mem = s.mem ∧ x = g ∧
        (∀ y < n, rdByte t.spad (clusterOf c.ctx * 2 ^ 22 + (o + y)) = (g.record bge (prElf (c.w k 0)) c.lat.fmt).getD y 0) ∧
        ∀ p, p < clusterOf c.ctx * 2 ^ 22 + o ∨ clusterOf c.ctx * 2 ^ 22 + (o + n) ≤ p → rdByte t.spad p = rdByte s.spad p) ∧
    (∀ a k ls i, c.ins = .pmmac a k ls → macRows c k bge g = [i] →
      let q := macSpan g r (pmSlots (c.w k 0))
      let errs := (macReads r (pmPlanes a r) (fld (c.w k 1) 0 32 + i) q.1 q.2).flatMap fun x =>
        u.devErrs d r (u.layout d ls.toNat).bad bge x.1 x.2
      (∃ e ∈ errs, e.cause ≠ 205) → starts fun _ x => x.acc = g.acc ∧ x.poison = g.poison ||| (1#64 <<< i) ∧ x.act = g.act ∧ x.desc = g.desc) ∧
    (Instr.unit c.ins = .pm → c.parts = [] → c.got = [] →
      let bytes (p : KvPiece) : Nat := lrCols p.lay * kvWidth (c.w c.kvReg 0)
      (∃ a k ls, c.ins = .kvxfer a k ls ∨ c.ins = .kvapp a k ls) →
      (∀ p ∈ c.kvPieces bge, isSpad p.src = true ∧ spadOff p.src + bytes p ≤ 2 ^ 22) →
      let row (p : KvPiece) : List Byte × Bool := kvRow c (c.w c.kvReg 0) (s.spadBytes (clusterOf c.ctx) (spadOff p.src) (bytes p))
      let parts (p : KvPiece) : List WinPart := ⟨p.ls, p.tok * lrRW p.lay, (row p).1⟩ ::
        p.steps.map fun y => ⟨y.1, lrRows y.2 * lrRW y.2 + 4 * p.tok, toLE 4 c.kvStep⟩
      let after (k : Nat) : State := ((c.kvPieces bge).take k).foldl (fun v p =>
        ((parts p).foldl (fun z y => z.winWrite d y) v).kvNote c p.ls (row p).2) s0
      (∀ k p, (c.kvPieces bge)[k]? = some p → ∀ y ∈ parts p, (after k).winDown d y = false) →
      let v := after (c.kvPieces bge).length
      ∃ t, exec (.groupStart id bge) s = .next t ∧ t.mem = v.mem ∧ t.spad = v.spad ∧ t.dies = v.dies ∧ t.cores = v.cores ∧ t.dir = v.dir)) ∧
  (∀ (c : Cmd) (w : Word64) (bs : List Byte) (j : Nat), j < bs.length / kvWidth w →
    leNat (((kvRow c w bs).1.drop (2 * j)).take 2) = (cvtToFP .f16 (fmtRnd c.lat.fmt) (fmtSat c.lat.fmt)
      (decodeFP (if kvWidth w = 4 then .f32 else .f16) (leNat ((bs.drop (j * kvWidth w)).take (kvWidth w))))).1 % 2 ^ 16) ∧
  (∀ (s : State) (d ls off : Nat) (bs : List Byte), d < 4 → ls < 64 → off < 2 ^ 48 → off % 128 + bs.length ≤ 128 → 1 ≤ bs.length →
    let l := winLine d ls off
    s.badUnits = [] → s.dirFind l = none → (∀ c ∈ s.cores, ∀ y ∈ c.2.l1, y.line ≠ l) →
    ((s.die d).l2.filter fun x => x != l && x % 16 == l % 16).length < Config.l2Lines →
    (∀ i j k, i < 128 → j < 128 → s.byteKey l i = some k → s.byteKey l j = some k → i = j) →
    let t := s.winWrite d ⟨ls, off, bs⟩
    t.spad = s.spad ∧
    (∀ i < bs.length, ∀ k, s.byteKey l (off % 128 + i) = some k → rdByte t.mem k = bs.getD i 0) ∧
    ∀ k, (∀ i < bs.length, s.byteKey l (off % 128 + i) ≠ some k) → rdByte t.mem k = rdByte s.mem k) ∧
  (∀ (b : Bge) (bge : Nat) (f : Word64), bge < 128 → b.cause < 512 →
    leNat (((b.record bge 0 f).drop 8).take 8) = b.poison.toNat ∧
    leNat ((b.record bge 0 f).take 2) % 2 ^ 8 = bge ∧
    ∀ r < 64, ∀ col < 8, leNat (((b.record bge 0 f).drop (128 + 4 * (8 * r + col))).take 4) =
      if b.poisoned r then 0x7FC00000 else b.accAt r col)

/-- The resume tree and the generation loop (R268 to R297). RTNOW goes up by one at the start of each command of the tree, whether or
not its tokens can be read. A command whose tables read without error takes one step, and the tables and the result are as its rule
says: rthash rolls the tokens; rtref and rtrel count REF and stamp the node, or give NO_NODE or the limit's status; rtpin has its
table of operations; rtrd reads a word; rtfind follows the chunks from the root as far as each is a node under the one before, stamps
them and takes a reference of the last; rtdep finds the chunk, or makes a node for it, and with MOVE the parent gives up a reference;
rtevict takes the oldest eligible nodes and marks or removes them. schsel flushes a slot that is held, as far as its ring has room,
forms GSEL from the lanes then free and chooses the bucket's schedule; tokcommit, of a token or of none, on a record and ring in the
scratchpad, delivers to the ring, or holds in PEND; specacc gives the path accepted. The register of each is written when the command
retires, in the checkpoint as well. The model's reading (log 26): a reference at its limit answers status 5 and leaves the node, STAMP
included, as it was. -/
def Obligations.TreeAndGenerationResults : Prop :=
  (∀ (s : State) (id : Nat) (c : Cmd), s.cmd id = some c → s.mayFire c = true →
    let d := dieOf c.ctx
    let cl := clusterOf c.ctx
    let now := (s.die d).rtNow + 1
    let k : DieSt := { s.die d with rtNow := now }
    let gives (res : Word64) (p : DieSt → Prop) : Prop := ∃ t x, exec (.commandFire id) s = .next t ∧ t.cmd id = some x ∧
      x.st = .fired ∧ x.data = toLE 8 res.toNat ∧ t.mem = s.mem ∧ (t.die d).rtNow = now ∧ p (t.die d)
    let same (x y : RtNode) : Prop := y.hash = x.hash ∧ y.parent = x.parent ∧ y.proot = x.proot ∧ y.valid = x.valid ∧
      y.snap = x.snap ∧ y.children = x.children ∧ y.tok = x.tok
    (Instr.unit c.ins = .rt → ∃ t, exec (.commandFire id) s = .next t ∧
      (t.die d).rtNow = if c.started = [] then now else (s.die d).rtNow) ∧
    (c.started = [] → (s.die d).rtBad = [] →
    (∀ r a b q, c.ins = .rthash r a b q → isSpad (c.lat.gq a) = true → spadOff (c.lat.gq a) + 4 * (c.lat.gs b).toNat ≤ 2 ^ 22 →
      gives (rollAll (c.lat.gs q) (tokensOf (s.spadBytes cl (spadOff (c.lat.gq a)) (4 * (c.lat.gs b).toNat)))) fun z =>
        z.rtNodes = k.rtNodes ∧ z.rtBuckets = k.rtBuckets) ∧
    (∀ (r a : SReg) (up : Bool), c.ins = (if up then .rtref r a else .rtrel r a) →
      let n := (c.lat.gs a).toNat
      let x := k.rt n
      (x.valid = false → gives (rtNoNode n) fun z => z = k) ∧
      (x.valid = true → x.ref = (if up then maxRef else 0) → gives (rtWord 5 (some (n, x)) false 0 x.ref) fun z => z = k) ∧
      (x.valid = true → x.ref ≠ (if up then maxRef else 0) → ∃ y, same x y ∧ y.tier = x.tier ∧ y.pin = x.pin ∧ y.busy = x.busy ∧
        y.ref = (if up then x.ref + 1 else x.ref - 1) ∧ y.stamp = now ∧
        gives (rtWord 0 (some (n, y)) false 0 y.ref) fun z => z = k.setRt n y)) ∧
    (∀ r a op, c.ins = .rtpin r a op → op.toNat ≤ 4 →
      let n := (c.lat.gs a).toNat
      let x := k.rt n
      let may := match op.toNat with
        | 2 => x.busy && x.ref == 0 && !x.pin | 3 => x.busy | 4 => !x.busy | _ => true
      (x.valid = false → gives (rtNoNode n) fun z => z = k) ∧
      (x.valid = true → ∃ y, same x y ∧ y.ref = x.ref ∧ y.stamp = x.stamp ∧
        y.pin = (if op = 0 then true else if op = 1 then false else x.pin) ∧
        y.busy = (if op = 2 ∨ op = 3 then false else x.busy) ∧
        y.tier = (if may = true ∧ op = 2 then (x.tier + 1) % 4 else if may = true ∧ op = 4 then 0 else x.tier) ∧
        gives (rtWord (if may then 0 else 6) (some (n, y)) false 0 0) fun z => z = k.setRt n y)) ∧
    (∀ r a b, c.ins = .rtrd r a b → (c.lat.gs b).toNat ≤ 35 →
      let w := (c.lat.gs b).toNat
      let x := k.rt (c.lat.gs a).toNat
      gives (BitVec.ofNat 64 ((x.hdr.toNat + 2 ^ 256 * x.tok.toNat) / 2 ^ (64 * w))) fun z => z = k) ∧
    (∀ r a b q, c.ins = .rtfind r a b q → isSpad (c.lat.gq a) = true → spadOff (c.lat.gq a) + 256 * (c.lat.gs b).toNat ≤ 2 ^ 22 →
      let chunks := chunksOf (s.spadBytes cl (spadOff (c.lat.gq a)) (256 * (c.lat.gs b).toNat))
      let coll := (k.search chunks none (c.lat.gs q) ([], 0, [])).2.1
      ∃ path : List Nat, path.length ≤ chunks.length ∧
        (∀ i < path.length, ∀ y, chunks[i]? = some y →
          let h := rollAll (c.lat.gs q) ((chunks.take (i + 1)).flatMap (·.2))
          path.getD i 0 ∈ k.candidates (bucketOf h) ∧
          k.isChunk (path.getD i 0) h (if i = 0 then none else some (path.getD (i - 1) 0)) y.1 = true) ∧
        (∀ y, chunks[path.length]? = some y →
          let h := rollAll (c.lat.gs q) ((chunks.take (path.length + 1)).flatMap (·.2))
          ∀ n ∈ k.candidates (bucketOf h), k.isChunk n h path.getLast? y.1 = false) ∧
        (path = [] → gives (rtWord 0 none true coll 0) fun z => z.rtNodes = k.rtNodes) ∧
        ∀ n, path.getLast? = some n →
          ∃ y, same (k.rt n) y ∧ y.stamp = now ∧ y.ref = (if (k.rt n).ref = maxRef then maxRef else (k.rt n).ref + 1) ∧
          gives (rtWord (if (k.rt n).ref = maxRef then 5 else 0) (some (n, y)) false coll path.length) fun z => z.rt n = y ∧
            (∀ m ∈ path, (z.rt m).stamp = now ∧ same (k.rt m) (z.rt m)) ∧ ∀ m, m ∉ path → z.rt m = k.rt m) ∧
    (∀ r a b q move, c.ins = .rtdep r a b q move → isSpad (c.lat.gq a) = true → spadOff (c.lat.gq a) + 256 ≤ 2 ^ 22 →
      canon .zero k.rtNodes = true →
      let bs := s.spadBytes cl (spadOff (c.lat.gq a)) 256
      let tok : BitVec 2048 := BitVec.ofNat 2048 (leNat bs)
      let p : Option Nat := if (c.lat.gs b).getLsbD 63 then none else some (fld (c.lat.gs b) 0 20)
      let h := rollAll (match p with | some n => (k.rt n).hash | none => c.w q 1) (tokensOf bs)
      let cs := k.candidates (bucketOf h)
      let coll := (cs.filter fun n => k.isCollision n h p tok).length
      let kept (z : DieSt) : Prop := z.rtNodes = k.rtNodes ∧ z.rtBuckets = k.rtBuckets
      let passes (x y : RtNode) : Prop := same x y ∧ y.tier = x.tier ∧ y.pin = x.pin ∧ y.busy = x.busy ∧ y.stamp = x.stamp ∧
        y.ref = x.ref - 1
      ((∃ n, p = some n ∧ (k.rt n).valid = false) → gives (rtWord 4 none false 0 0) kept) ∧
      ((∀ n, p = some n → (k.rt n).valid = true) →
        (∀ n, cs.find? (fun n => k.isChunk n h p tok) = some n → (k.rt n).ref ≠ maxRef →
          ∃ y, same (k.rt n) y ∧ y.ref = (if move = true ∧ p = some n then (k.rt n).ref else (k.rt n).ref + 1) ∧ y.stamp = now ∧
            gives (rtWord 1 (some (n, y)) false coll 0) fun z => z.rt n = y ∧
              (∀ m, m ≠ n → ¬ (move = true ∧ p = some m) → z.rt m = k.rt m) ∧
              ∀ m, m ≠ n → move = true → p = some m → passes (k.rt m) (z.rt m)) ∧
        ((∀ n ∈ cs, k.isChunk n h p tok = false) →
          (k.openSlot (bucketOf h) = none → gives (rtWord 2 none false coll 0) kept) ∧
          (∀ j, k.openSlot (bucketOf h) = some j → 2 ^ 20 ≤ freeNode 0 k.rtNodes → gives (rtWord 3 none false coll 0) kept) ∧
          (∀ j, k.openSlot (bucketOf h) = some j → freeNode 0 k.rtNodes < 2 ^ 20 →
            let n := freeNode 0 k.rtNodes
            ∃ y : RtNode, y.valid = true ∧ y.hash = h ∧ y.ref = 1 ∧ y.proot = p.isNone ∧ y.parent = p.getD 0 ∧ y.stamp = now ∧
              y.snap = (c.w q 0).toNat ∧ y.tok = tok ∧ y.tier = 0 ∧ y.pin = false ∧ y.busy = false ∧
              gives (rtWord 0 (some (n, y)) false coll 0) fun z => z.rt n = y ∧ n ∈ z.candidates (bucketOf h) ∧
                (∀ m, m ≠ n → some m ≠ p → z.rt m = k.rt m) ∧
                ∀ m, p = some m → m ≠ n → (z.rt m).children = ((k.rt m).children + 1) % 2 ^ 32 ∧
                  (z.rt m).hash = (k.rt m).hash ∧ (z.rt m).ref = (k.rt m).ref - boolN move)))) ∧
    (∀ r e a b, c.ins = .rtevict r e a b → canon .zero k.rtNodes = true →
      let tier := (c.lat.gs b).toNat
      let may (m : Nat) : Prop := (k.rt m).valid = true ∧ (k.rt m).tier = tier ∧ (k.rt m).ref = 0 ∧ (k.rt m).pin = false ∧
        (k.rt m).busy = false ∧ (k.rt m).children = 0
      let age (m : Nat) : Nat := (now - (k.rt m).stamp).toNat
      ∃ vs : List Nat, vs.Nodup ∧ vs.length ≤ (c.lat.gs a).toNat ∧ (∀ m ∈ vs, may m) ∧
        (∀ m, may m → m ∉ vs → vs.length = (c.lat.gs a).toNat ∧ ∀ v ∈ vs, age m < age v ∨ (age m = age v ∧ v < m)) ∧
        gives (rtWord 0 none false 0 vs.length) fun z =>
          (tier ≠ 2 → (∀ m ∈ vs, (z.rt m).busy = true ∧ same (k.rt m) (z.rt m)) ∧ ∀ m, m ∉ vs → z.rt m = k.rt m) ∧
          (tier = 2 → ∀ m ∈ vs, (z.rt m).valid = false)))) ∧
  (∀ (s : State) (id : Nat) (c : Cmd), s.cmd id = some c → s.mayFire c = true →
    let n := c.ctx
    let g := (s.ctx n).regs.gocc
    let fires (p : State → Cmd → Prop) : Prop := ∃ t x, exec (.commandFire id) s = .next t ∧ t.cmd id = some x ∧ x.st = .fired ∧ p t x
    let read (t : State) (p len : Nat) : Nat := leNat (t.spadBytes (clusterOf n) p len)
    let record (slot : Nat) : Req := reqOf (s.reqVA n slot) (s.spadBytes (clusterOf n) (spadOff (s.reqVA n slot)) 96)
    let placed (slot : Nat) : Prop := isSpad (s.reqVA n slot) = true ∧ vaHome (s.reqVA n slot) = dieOf n ∧
      spadOff (s.reqVA n slot) + 512 ≤ 2 ^ 22 ∧ sget [] s.skews (clusterOf n) = []
    let ringed (slot : Nat) : Prop :=
      let q := record slot
      let o := spadOff (s.reqVA n slot)
      isSpad q.ring = true ∧ vaHome q.ring = dieOf n ∧ spadOff q.ring + 8 * 2 ^ q.rsz ≤ 2 ^ 22 ∧
        (spadOff q.ring + 8 * 2 ^ q.rsz ≤ o ∨ o + 512 ≤ spadOff q.ring)
    (∀ r a, c.ins = .schsel r a →
      let chosen (g : Word64) (t : State) (x : Cmd) : Prop :=
        let lanes := (List.range 8).filter fun i => occ g i && !hold g i
        let dl := fld (s.ctx n).regs.gdraft 0 4
        let e := fld (s.launchOf n).buckets (64 * (4 * bucketCode lanes.length + draftCode dl)) 64
        let z := (t.ctx n).regs.gsel
        (t.ctx n).regs.gocc = g ∧ fld z 32 4 = lanes.length ∧ fld z 36 2 = (if lanes = [] then 0 else bucketCode lanes.length) ∧
        fld z 38 2 = (if lanes = [] then 0 else draftCode dl) ∧ (∀ i < 8, fld z (4 * i) 4 = lanes.getD i 15) ∧
        (t.ctx n).ck.gsel = z ∧
        (lanes = [] → (t.ctx n).regs.giter = (s.ctx n).regs.giter ∧ x.data = toLE 16 (c.lat.gq a).toNat) ∧
        (lanes ≠ [] → (t.ctx n).regs.giter = BitVec.ofNat 64 ((fld (s.ctx n).regs.giter 0 32 + 1) % 2 ^ 32) ∧
          x.data = toLE 16 (if bit e 63 then qoff (s.launchOf n).code (16 * (e % 2 ^ 32) : Nat) else c.lat.gq a).toNat)
      ((∀ i < 8, hold g i = false) → fires fun t x => t.mem = s.mem ∧ t.spad = s.spad ∧ chosen g t x) ∧
      ∀ h < 8, (∀ i < 8, hold g i = decide (i = h)) → placed h →
        let q := record h
        let o := spadOff (s.reqVA n h)
        (q.ok = false → fires fun t x => t.spad = s.spad ∧ chosen (clearBit (clearBit g h) (8 + h)) t x) ∧
        (q.ok = true → ringed h →
          let k := min q.room q.pendn
          let left := q.pendn - k
          let ended := boolN (q.plast && q.pendn != 0 && q.pend.getD (q.pendn - 1) 0 == noToken)
          fires fun t x => t.mem = s.mem ∧ chosen (if left = 0 then clearBit g (8 + h) else g) t x ∧
            (∀ j < k, read t (spadOff q.ring + 8 * ((q.wr + BitVec.ofNat 32 j).toNat % 2 ^ q.rsz)) 8 = (q.pend.getD j 0).toNat +
              2 ^ 32 * ((q.pos - BitVec.ofNat 32 (q.pendn - ended) + BitVec.ofNat 32 j).toNat % 2 ^ 31) +
              2 ^ 63 * boolN (q.plast && j + 1 == q.pendn)) ∧
            read t (o + 12) 4 = (q.wr + BitVec.ofNat 32 k).toNat ∧ read t (o + 20) 4 = q.pos.toNat ∧
            read t (o + 24) 1 % 64 = left + 32 * boolN (q.plast && left != 0) ∧
            ∀ j < left, read t (o + 32 + 4 * j) 4 = (q.pend.getD (k + j) 0).toNat)) ∧
    (∀ r a b, c.ins = .tokcommit r a b →
      let slot := fld (c.lat.gs a) 0 3
      let last := (c.lat.gs a).getLsbD 32
      let tok : BitVec 32 := (c.lat.gs b).extractLsb' 0 32
      let o := spadOff (s.reqVA n slot)
      let q := record slot
      (occ g slot = false → fires fun t x => x.data = toLE 8 2 ∧ t.mem = s.mem ∧ t.spad = s.spad ∧ t.ctx n = s.ctx n) ∧
      (occ g slot = true → placed slot →
        (q.ok = false → fires fun t x => x.data = toLE 8 (tokResult 2 false true q.pos).toNat ∧
          (t.ctx n).regs.gocc = clearBit (clearBit g slot) (8 + slot)) ∧
        (q.ok = true → tok = noToken →
          (hold g slot = false → 0 < q.room → ringed slot → fires fun t x => x.data = toLE 8 (tokResult 0 false true q.pos).toNat ∧
            (t.ctx n).regs.gocc = clearBit g slot ∧ read t (o + 12) 4 = (q.wr + 1).toNat ∧ read t (o + 20) 4 = q.pos.toNat ∧
            read t (spadOff q.ring + 8 * (q.wr.toNat % 2 ^ q.rsz)) 8 = noToken.toNat + 2 ^ 32 * (q.pos.toNat % 2 ^ 31) + 2 ^ 63) ∧
          (hold g slot = true ∨ q.room = 0 → q.pendn < 16 →
            fires fun t x => x.data = toLE 8 (tokResult 1 false true q.pos).toNat ∧
              (t.ctx n).regs.gocc = clearBit (g ||| (1#64 <<< (8 + slot))) slot ∧ read t (o + 20) 4 = q.pos.toNat ∧
              read t (o + 32 + 4 * q.pendn) 4 = noToken.toNat ∧ read t (o + 24) 1 % 64 = q.pendn + 1 + 32)) ∧
        (q.ok = true → hold g slot = true ∨ q.room = 0 → 16 ≤ q.pendn →
          fires fun t x => x.data = toLE 8 (tokResult 2 false false q.pos).toNat ∧ t.mem = s.mem ∧ t.spad = s.spad) ∧
        (q.ok = true → tok ≠ noToken →
          (hold g slot = false → 0 < q.room → ringed slot →
            fires fun t x => x.data = toLE 8 (tokResult 0 ((q.pos + 1).toNat % 64 == 0) last (q.pos + 1)).toNat ∧ t.mem = s.mem ∧
              (t.ctx n).regs.gocc = (if last then clearBit g slot else g) ∧
              read t (spadOff q.ring + 8 * (q.wr.toNat % 2 ^ q.rsz)) 8 = tok.toNat + 2 ^ 32 * (q.pos.toNat % 2 ^ 31) + 2 ^ 63 * boolN last ∧
              read t (o + 12) 4 = (q.wr + 1).toNat ∧ read t (o + 20) 4 = (q.pos + 1).toNat ∧
              read t (o + 256 + 4 * (q.pos.toNat % 64)) 4 = tok.toNat) ∧
          (hold g slot = true ∨ q.room = 0 → q.pendn < 16 →
            fires fun t x => x.data = toLE 8 (tokResult 1 ((q.pos + 1).toNat % 64 == 0) last (q.pos + 1)).toNat ∧ t.mem = s.mem ∧
              (t.ctx n).regs.gocc = (if last then clearBit (g ||| (1#64 <<< (8 + slot))) slot else g ||| (1#64 <<< (8 + slot))) ∧
              read t (o + 32 + 4 * q.pendn) 4 = tok.toNat ∧ read t (o + 24) 1 % 64 = q.pendn + 1 + 32 * boolN last ∧
              read t (o + 20) 4 = (q.pos + 1).toNat ∧ read t (o + 256 + 4 * (q.pos.toNat % 64)) 4 = tok.toNat)))) ∧
    (∀ r a b m, c.ins = .specacc r a b m → fires fun t x => t.mem = s.mem ∧ t.spad = s.spad ∧
      x.data = bytesOf (specResult (c.lat.gs m).toNat (c.lat.gv a) (c.lat.gv b) (c.lat.gv r)))) ∧
  (∀ (n : Nat) (ps ds ts : Vec), n ≤ 16 →
    let p := lane 4 ps
    let draft := lane 4 ds
    let want := lane 4 ts
    let r := lane 4 (specResult n ps ds ts)
    ∃ path : List Nat, (∀ i < path.length, let j := path.getD i 0
        let before := if i = 0 then 0 else path.getD (i - 1) 0
        0 < j ∧ j < n ∧ p j = before ∧ draft j = want before ∧ want before ≠ 2 ^ 32 - 1) ∧
      (path.length ≤ 15 →
        let end_ := path.getLastD 0
        (∀ j, 0 < j → j < n → p j = end_ → draft j = want end_ → want end_ = 2 ^ 32 - 1) ∧
        (∀ i < path.length, r i = draft (path.getD i 0)) ∧ r path.length = want end_ ∧
        (∀ i < 16, path.length < i → r i = 2 ^ 32 - 1) ∧ r 16 = path.length + 1 ∧ r 18 = end_)) ∧
  (∀ (s : State) (id : Nat) (c : Cmd), s.cmd id = some c → c.st = .fired → c.abandoned = false →
    (∀ h ∈ s.heldWrites, h.cmd ≠ some c.id) →
    let late (f : Regs → Regs) : Prop := ∃ t, exec (.commandRetire id) s = .next t ∧ t.cmd id = none ∧ t.mem = s.mem ∧
      (t.ctx c.ctx).regs = f (s.ctx c.ctx).regs ∧ (t.ctx c.ctx).ck = f (s.ctx c.ctx).ck
    (∀ (r : SReg) (a : QReg) (b q : SReg) (e : CReg) (op : BitVec 5) (move : Bool) (x : Word64), c.data = toLE 8 x.toNat →
      c.ins ∈ [.rthash r a b q, .rtfind r a b q, .rtdep r a b q move, .rtref r b, .rtrel r b, .rtpin r b op, .rtevict r e b q, .rtrd r b q,
        .tokcommit r b q] → late fun z => z.ws r x) ∧
    (∀ (r a : QReg) (x : VA), c.ins = .schsel r a → c.data = toLE 16 x.toNat → late fun z => z.wq r x) ∧
    (∀ (r a b : VReg) (m : SReg) (x : Vec), c.ins = .specacc r a b m → c.data = bytesOf x → late fun z => z.wv r x))

/-! ## Events of queues, launches and contexts -/

/-- The scheduler's events (R22 to R28, R332): a doorbell within the ring sets WRIDX and, beyond it, disables the queue; a free slot goes
to the queue that waits alone; the scheduler makes its decisions once in a clk, after every slice that ends in it has ended; a slice that
has run out marks its holder; a record that reduced service does not place is held, one that breaks R24 completes with cause 320, one
whose image cannot be read with 321, and a share that is granted starts its contexts; the walks of what is read leave their marks. The
model's readings: a record that cannot be read holds its queue and joins the die's batch (log 28), a queue number that does not exist is
no party (log 25), EN is read from the descriptor in memory (log 15), and the marks of an image's reads are left when the launch starts or
is rejected, not while its share waits (log 28). -/
def Obligations.QueueEvents : Prop :=
  ∀ (s : State) (d q : Nat) (w : BitVec 32),
    let u := s.queue q
    (q < 8192 → d < 4 → exec (.doorbell d q w) s = .next (if s.windowOpen d then s.ring d q w else s)) ∧
    (u.bound = true → u.unbinding = false → u.die = d → s.queueOn q = true →
      ((w - u.rd).toNat ≤ 16 * 2 ^ fld u.desc 56 4 → ∃ v : State, (v.queue q).wr = w ∧ v.mem = s.mem ∧
        s.ring d q w = v.unitWrite d (Config.dieKey d (u.descPA + 12)) (toLE 4 w.toNat)) ∧
      (16 * 2 ^ fld u.desc 56 4 < (w - u.rd).toNat → ∃ v : State, (v.queue q).enabled = false ∧ (v.queue q).wr = u.wr ∧
        s.ring d q w = v.postError d (errRec 325 0 0 0))) ∧
    (d < 4 →
      (s.clk < (s.die d).mapAt → exec (.slotMapping d) s = .next s) ∧
      ((s.die d).mapAt ≤ s.clk → exec (.slotMapping d) s = .next ((s.mapSlots d).updDie d fun k => { k with mapAt := s.clk + 1 })) ∧
      (s.due = some (.slotMapping d) → (s.die d).mapAt ≤ s.clk ∧ ∀ e ∈ s.queues, s.sliceOver e.1 = false) ∧
      ∀ k, s.waiting d = [q] → s.freeSlot d = some k → ((s.mapSlots d).queue q).slot = some k) ∧
    (q < 8192 → exec (.timeSliceExpiry q) s = .next (if s.sliceOver q then s.updQueue q fun u => { u with expired := true } else s) ∧
      exec (.launch q) s = .next (s.launchNext q) ∧
      (∀ f, s.recordFault q = some f → s.launchNext q =
        ((s.schedMarks u.die u.asid [(u.ringVA u.next, 64)]).updQueue q fun u => { u with held := some f }).batchAdd f) ∧
      (u.slot = none → s.recordFault q = none → s.launchNext q = s) ∧
      ∀ r, u.slot.isSome = true → s.nextRecord q = some r → s.mayStart q = true →
        let v := s.schedMarks u.die u.asid [(u.ringVA u.next, 64)]
        let reject (v : State) (cause : Nat) : State := (v.updQueue q fun u => { u with next := u.next + 1 }).completeRecord q u.next r cause
        (placeable (s.die u.die).svc r = false → s.launchNext q = s) ∧
        (placeable (s.die u.die).svc r = true →
          (recOk r = false → s.launchNext q = reject v 320) ∧
          (recOk r = true → v.readImage u.die u.asid r = none → s.launchNext q =
            reject (v.schedMarks u.die u.asid (v.imageReads u.die u.asid r)) 321) ∧
          ∀ m b w, recOk r = true → v.readImage u.die u.asid r = some (m, b, w) →
            (v.shares r (if (s.die u.die).svc = 2 then 8 else 1) = none → s.launchNext q = v) ∧
            ∀ ns, v.shares r (if (s.die u.die).svc = 2 then 8 else 1) = some ns → ∃ l, ∀ n ∈ ns,
              let c := (s.launchNext q).ctx n
              c.st = .ready ∧ c.launch = some l ∧ c.ck = c.regs ∧ c.regs.pc = qoff (va8 (fld m 64 64)) (16 * recEntry r : Nat) ∧
              c.regs.gq 0 = va8 (fld r 128 64) ∧ c.regs.gq 1 = u.ringVA u.next ∧ c.regs.view = w)) ∧
    (8192 ≤ q → exec (.doorbell d q w) s = .fault .noSuchParty ∧ exec (.timeSliceExpiry q) s = .fault .noSuchParty ∧
      exec (.launch q) s = .fault .noSuchParty)

/-- The events of a context (R37, R40, R65, R113, R121, R203, R205, R312 to R317, R325, R326, R344) act when they are due. The model's
readings: they change nothing when they are not due, and a context number that does not exist is no party (log 25); the kind of
access of a FAULT_ROLLBACK is a read (log 41). WRITE_COMPLETION
is an event of a home die (log 24). A restart point with a conflict pending rolls back and commits nothing (R205); cause 324 is owed
behind what a context owes already, and the trap of a rollback's checkpoint before it (log 48). -/
def Obligations.ContextEvents : Prop :=
  ∀ (s : State) (n cause : Nat) (va : VA),
    let c := s.ctx n
    (n < 512 →
      exec (.retirement n) s = .next (if s.mayRetireCtx n then s.retireCtx n else s) ∧
      exec (.launchAbortTimeout n) s = .next (if s.abortDue n then s.retireNow n else s) ∧
      exec (.tnextLanding n) s = .next (s.land n) ∧
      exec (.fmtWriteEffect n) s = .next (s.updCtx n fun c => { c with regs := c.regs.fmtEffect }) ∧
      exec (.spawnTargetReady n) s = .next (s.spawnReady n) ∧
      (c.st = .idle → c.launch ≠ none → c.readyAt ≤ s.clk → c.preq = false → s.spawnReady n = s.updCtx n fun c => { c with st := .ready }) ∧
      (c.st ≠ .idle ∨ c.launch = none ∨ s.clk < c.readyAt → s.spawnReady n = s) ∧
      exec (.restartPointCommit n) s = .next (if !c.live then s
        else if c.conflict then if s.landed n then s.conflictRoll n else s
        else if s.recheck n == .ok then s.commitAt n c.regs.pc else s) ∧
      exec (.conflictRollback n) s = .next (if c.live && c.conflict && s.landed n then s.conflictRoll n else s) ∧
      exec (.faultRollback n cause va) s = .next (s.faultReturn n cause va .read) ∧
      exec (.coherenceTimeout n va) s = .next (s.faultReturn n 257 va .read) ∧
      exec (.hostSnoopTimeout n va) s = .next (s.faultReturn n 258 va .read) ∧
      exec (.preemption n) s = .next (s.tryPreempt n) ∧
      exec (.preemptTimeout n) s = .next (if s.preemptDue n
        then ((s.rollback n).updCtx n fun c => { c with owed := c.owed ++ [⟨324, 0, 0, 0, false⟩] }).preemptNow n else s) ∧
      exec (.triggerFire n) s = .next (if s.armed && s.latchAt.isNone then { s with latchAt := some (s.clk + 256) } else s) ∧
      exec (.triggerArm n) s = .next { s with armed := true }) ∧
    ((s.releaseCtx n).ctx n = .zero ∧ (s.retireNow n).ctx n =
      { c with st := .retiring, regs := c.ck, gate := [], watch := [], conflict := false, waitOn := none, held := none,
               abortAt := none, preempted := false, leaving := false, preq := false, landings := [],
               owed := c.ckTrap.toList ++ c.owed, ckTrap := none }) ∧
    (∀ l, c.landings = [l] → l.due ≤ s.clk → ((s.land n).ctx n).landings = [] ∧ sget 0 ((s.land n).ctx n).tc l.reg = l.value ∧
      ∀ r, r ≠ l.reg → sget 0 ((s.land n).ctx n).tc r = sget 0 c.tc r) ∧
    (n < 4 → exec (.writeCompletion n) s = .next (s.completeWrites n)) ∧ (4 ≤ n → exec (.writeCompletion n) s = .fault .noSuchParty) ∧
    ((∀ m, (s.ctx m).out = []) →
      (s.heldWrites = [] → s.completeWrites n = s) ∧
      ∀ h : HeldWrite, s.heldWrites = [h] → lineDie h.line = n →
        let z : State := { s with heldWrites := [] }
        (h.waits z = false → s.completeWrites n = z.performHeld h) ∧ (h.waits z = true → s.completeWrites n = s)) ∧
    (s.heldWrites = [] → (∀ e ∈ s.ctxs, e.2.out = [] ∨ ∃ g t, e.2.out = g :: t ∧ g.home e.1 ≠ n) → s.completeWrites n = s) ∧
    (512 ≤ n → ∀ i ∈ [Instr.retirement n, .launchAbortTimeout n, .tnextLanding n, .fmtWriteEffect n, .spawnTargetReady n,
      .restartPointCommit n, .conflictRollback n, .faultRollback n cause va, .coherenceTimeout n va, .hostSnoopTimeout n va,
      .preemption n, .preemptTimeout n, .triggerFire n, .triggerArm n], exec i s = .fault .noSuchParty)

/-- Checkpoints and rollbacks (R312 to R316): a commit over an empty gate records the registers and leaves memory and every other context
as they are; one over a gate whose checks hold performs its stores in program order, behind those released before, up to the first that
has to wait, which waits with those after it (R263, R313); a rollback brings the recorded registers back with the gate and the watches
empty, and touches nothing else; a conflict rollback counts itself. The model's reading (log 48): a trap that issuing again from its
boundary would not raise is owed again after a rollback to it. -/
def Obligations.CommitAndRollback : Prop :=
  ∀ (s : State) (n : Nat) (pc : VA),
    let c := s.ctx n
    (c.gate = [] → c.abortAt = none → c.preq = false →
      let t := s.commitAt n pc
      t.ctx n = { c with ck := { c.regs with pc := pc }, ckTrap := none, watch := [], conflict := false, conflicts := 0,
                           stepMode := false } ∧
      t = { s with ctxs := t.ctxs } ∧ ∀ m, m ≠ n → t.ctx m = s.ctx m) ∧
    (let all := c.out ++ c.gate
      let after (k : Nat) : State :=
        (all.take k).foldl (fun u g => u.perform n g) (s.updCtx n fun c => { c with gate := [], watch := [], out := all })
      let t := s.markAt n pc
      c.gate ≠ [] → (∀ g ∈ c.gate, g.checked = true) → ∀ k, k ≤ all.length →
      (∀ j g, j < k → all[j]? = some g → (after j).outReady n g = true ∧ (after j).storeDown n g = false) →
      (∀ g, all[k]? = some g → (after k).outReady n g = false) →
      t = { after k with ctxs := t.ctxs } ∧ (∀ m, m ≠ n → t.ctx m = (after k).ctx m) ∧
      t.ctx n = { (after k).ctx n with out := all.drop k, ck := { ((after k).ctx n).regs with pc := pc }, ckTrap := none, conflict := false,
                                       conflicts := 0, stepMode := false } ∧
      ((t.ctx n).abortAt = none → (t.ctx n).preq = false → s.commitAt n pc = t)) ∧
    (let t := s.rollback n;
      (t.ctx n).regs = c.ck ∧ (t.ctx n).ck = c.ck ∧ (t.ctx n).gate = [] ∧ (t.ctx n).watch = [] ∧ (t.ctx n).conflict = false ∧
      (t.ctx n).owed = c.ckTrap.toList ++ c.owed ∧ (t.ctx n).ckTrap = none ∧ t = { s with ctxs := t.ctxs } ∧ ∀ m, m ≠ n → t.ctx m = s.ctx m) ∧
    (let t := s.conflictRoll n;
      (t.ctx n).regs = c.ck ∧ (t.ctx n).conflicts = c.conflicts + 1 ∧ t.mem = s.mem ∧ t.spad = s.spad ∧
      ((t.ctx n).stepMode = true ↔ c.stepMode = true ∨ 4 ≤ c.conflicts + 1))

/-- The fault batcher (R320 to R323): a batch that is due closes into ranges that count every fault; an answer that does not fail
lets a context held on one of its ranges go on from its checkpoint. -/
def Obligations.FaultBatches : Prop :=
  (∀ (s : State) (d : Nat) (v : BitVec 64), d < 4 →
    exec (.faultBatchClose d) s = .next (if s.batchDue d then s.batchClose d else s) ∧
    (s.windowOpen d = true → exec (.faultResponse d v) s = .next (s.answer d v) ∧ exec (.frrdWrite d v) s = .next (s.frrd d v))) ∧
  (∀ (k : Nat) (fs : List FaultRec), fs.length ≤ 65535 → ((mergeFaults k fs []).map (·.count)).sum = fs.length) ∧
  (∀ (s : State) (d n : Nat) (v : BitVec 64) (r : FRange) (f : FaultRec), (s.die d).ranges = [r] →
    r.batch % 2 ^ 32 = fld v 0 32 → (v.getLsbD 41 = true ∨ r.index = fld v 32 8) → v.getLsbD 40 = false →
    (s.ctx n).held = some f → r.covers f = true →
    let t := s.answer d v
    t.ctx n = { s.ctx n with held := none } ∧ (t.die d).ranges = [] ∧ t.mem = s.mem ∧ t.spad = s.spad)

/-! ## Coherence, the host and the engines' groups -/

/-- Coherence messages, host accesses and page migrations (R186 to R201, R215, R330, R345) complete, for the parties that exist, over
links that are up; a host access to a die that has not come up is held and made later. What they leave: a read request and a data
response place the line at the request's view, and an upgrade, or a read under another view, at FULL, as the line stands then; under a
store header, which a store and a precision snoop bring, each copy compares at its view, and stays, takes the new line or view elements,
or goes (R188); a proxy takes the line that a precision snoop carries, and a die without a copy is no sharer any more; after a
back-invalidation or an owner's eviction the die holds no copy, its data has been written back, and the other sharers stand; a
migration brings a page's bytes to their new place, where the page's lines are then found, with its copies and its directory entry.
DirectoryHasOneOwner says what the home's transactions leave. The model's readings: where the line has no entry or no copy, a recall, a
back-invalidation and an eviction change nothing (log 25); a copy from a message is in invalidate mode with PRIO 0 (log 68); the way in
which a host access is held is the model's choice (log 30); a host snoop that would need a link that is down is dropped (log 69); what a
migration names and how a page goes to host memory (log 29). -/
def Obligations.CoherenceEvents : Prop :=
  (∀ (s : State) (c d lid pa : Nat) (asid : BitVec 16) (va : VA) (view : BitVec 3) (bs : List Byte) (mask : BitVec 128)
    (data : BitVec 1024) (off : BitVec 39) (n a b : Nat),
    (c < 128 →
      exec (.readRequest c asid va view) s =
        .next (if view.toNat ≤ 4 then s.onLine (c / 32) (some c) asid va .read view fun s l t => s.readAt c l t view else s) ∧
      exec (.dataResponse c asid va view) s =
        .next (if view.toNat ≤ 4 then s.onLine (c / 32) (some c) asid va .read view fun s l t => s.respond c l t view else s) ∧
      exec (.upgrade c asid va) s = .next (s.onLine (c / 32) (some c) asid va .read 0 fun s l t => s.upgradeAt c l t) ∧
      exec (.ownershipRequest c asid va) s = .next (s.onLine (c / 32) (some c) asid va .write 0 fun s l t =>
        if s.writeDown (c / 32) (some c) l t none then s else s.ownRequest none c l t) ∧
      exec (.storeHeader c asid va bs) s = .next (s.onLine (c / 32) (some c) asid va .write 0 fun s l t =>
        if s.writeDown (c / 32) (some c) l t (some (lineBytes va bs)) then s
        else s.behind .unit (some (c / 32)) l t (lineBytes va bs)
          ((s.storeLine none (some c) (c / 32) l t (lineBytes va bs)).shootdown l))) ∧
    (d < 4 →
      exec (.writeThrough d asid va bs) s = .next (s.onLine d none asid va .write 0 fun s l t =>
        if s.writeDown d none l t (some (lineBytes va bs)) then s else (s.lineStore d l t (lineBytes va bs)).shootdown l) ∧
      exec (.precisionSnoop d lid mask data) s = .next (s.onLink lid d fun s => s.snooped d lid mask data) ∧
      exec (.ownerEviction d lid) s = .next (s.onLink lid d fun s => s.evictOwner d lid) ∧
      exec (.grant d asid va) s = .next (s.onLine d none asid va .write 0 fun s l t =>
        if s.passDown d l || s.msgDown d l false fun _ _ => true then s
        else if lineDie l = d then s else ((s.synonym none l t).l2Pass d l).homeOwn none l d t) ∧
      exec (.pageMigration d asid va pa) s = .next (s.migrate d asid va pa)) ∧
    (d ≤ 4 → exec (.backInvalidation d lid) s = .next (s.onLink lid (d % 4) fun s => s.backInv d lid)) ∧
    (s.dirFind lid = none → exec (.recall lid) s = .next s ∧ s.backInv d lid = s ∧ s.evictOwner d lid = s) ∧
    (∀ e, s.dirFind lid = some e → exec (.recall lid) s = .next (s.onLink lid e.owner fun s => (s.recallOwner e).1)) ∧
    (a < 4 → b < 4 → a ≠ b → exec (.flitCrcFailure a b) s = .next (s.flitFails a b)) ∧
    ((s.sleep ≠ .awake → exec (.hostRead off n) s = .next { s with hostData := [], hostPoison := true } ∧
        exec (.hostWrite off bs) s = .next s) ∧
      (s.sleep = .awake → s.hostReady off = false →
        exec (.hostRead off n) s = .next { s with hostHeld := s.hostHeld ++ [.read off n] } ∧
        exec (.hostWrite off bs) s = .next { s with hostHeld := s.hostHeld ++ [.write off bs] }) ∧
      (s.sleep = .awake → s.hostReady off = true →
        (∀ t xs, s.hostReadSegs (segs (hdmVA off) n) [] = (t, .ok xs) →
          exec (.hostRead off n) s = .next { t with hostData := xs, hostPoison := false }) ∧
        (∀ t k, s.hostReadSegs (segs (hdmVA off) n) [] = (t, .error k) →
          exec (.hostRead off n) s = .next { t.hostFault off k with hostData := [], hostPoison := true }) ∧
        (∀ k, s.hostWriteCause (hdmVA off) bs = some k → fld (hdmVA off) 0 7 + bs.length ≤ 128 → bs ≠ [] →
          exec (.hostWrite off bs) s = .next (((if s.linkIsDown 0 (homeDie (hdmVA off)) then s else s.translate 0 (hdmVA off) .write).noteFault
            none 0 0 (hdmVA off) .write k).hostFault off k)) ∧
        (s.hostWriteCause (hdmVA off) bs = none → fld (hdmVA off) 0 7 + bs.length ≤ 128 → bs ≠ [] →
          exec (.hostWrite off bs) s = .next (s.hostWriteLine (hdmVA off) bs))) ∧
      exec (.hostRead off n) s = .next (s.hostRead off n) ∧ exec (.hostWrite off bs) s = .next (s.hostWrite off bs) ∧
      exec (.hostSnoop pa data) s = .next (s.hostSnoop pa data))) ∧
  (∀ (s : State) (c l : Nat) (t : Tag) (v : BitVec 3), c < 128 → lineDie l = c / 32 → isHost l = false → s.dirFind l = none →
    (∀ k ∈ s.cores, ∀ y ∈ k.2.l1, y.line = l → y.st = .S ∧ y.tagged t.asid t.va = true) →
    ((s.die (c / 32)).l2.filter fun x => x != l && x % 16 == l % 16).length < Config.l2Lines →
    framesOf ((s.core c).l1.filter fun x => x.line != l && l1SetNo x.va == l1SetNo t.va) ≤ 7 →
    let w := effView t.hf v
    let copy (view : BitVec 3) (update : Bool) (prio : Nat) : Copy :=
      ⟨l, t.asid, t.va, .S, t.hf, view, update, prio, viewLine t.hf view (s.lineNow l)⟩
    (s.l1Find c l = none → (s.readAt c l t v).l1Find c l = some (copy w false 0) ∧ (s.upgradeAt c l t).l1Find c l = some (copy 0 false 0) ∧
      ((∀ e ∈ s.dies, ∀ y ∈ e.2.proxies, y.line ≠ l) → (s.respond c l t v).l1Find c l = some (copy w false 0))) ∧
    (∀ x, s.l1Find c l = some x → s.respond c l t v = s ∧ (x.view = 0 → s.upgradeAt c l t = s) ∧
      (x.view = 0 ∨ x.view = w → s.readAt c l t v = s) ∧
      (x.view ≠ 0 → (s.upgradeAt c l t).l1Find c l = some (copy 0 x.update x.prio)) ∧
      (x.view ≠ 0 → x.view ≠ w → (s.readAt c l t v).l1Find c l = some (copy 0 x.update x.prio))) ∧
    ∀ u ∈ [s.readAt c l t v, s.upgradeAt c l t, s.respond c l t v], u.mem = s.mem ∧ ∀ k, k ≠ c → u.l1Find k l = s.l1Find k l) ∧
  (∀ (s : State) (d l k : Nat) (x : Copy), k / 32 = d → s.l1Find k l = some x → x.st = .S →
    let takes (hf : BitVec 2) (offs : List Nat) (old new : Vec) (t : State) : Prop :=
      let w : Nat := match served hf x.view with | none => 1 | some (h, _) => h.bits / 8
      let touched (e : Nat) : Prop := ∃ b < w, e * w + b ∈ offs
      let whole : Prop := ∀ e < 128 / w, touched e → ∀ b < w, e * w + b ∈ offs
      let same (e : Nat) : Prop := match served hf x.view with
        | none => lineByte new e = lineByte old e
        | some (h, f) => viewRound h f (lane w new e) = viewRound h f (lane w old e)
      let unchanged : Prop := whole ∧ ∀ e < 128 / w, touched e → same e
      (unchanged → t.l1Find k l = some x) ∧
      (¬ unchanged → (served hf x.view = none → t.l1Find k l = some { x with data := new }) ∧
        (served hf x.view ≠ none →
          (x.update = true → whole → t.l1Find k l = some { x with data := viewLine hf x.view new }) ∧
          (x.update = false ∨ ¬ whole → t.l1Find k l = none)))
    (∀ (hf : BitVec 2) (offs : List Nat) (old new : Vec), (∀ i ∈ offs, i < 128) → takes hf offs old new (s.storeHeader d l hf offs old new)) ∧
    (∀ (c : Nat) (t : Tag) (bs : List (Nat × Byte)), c / 32 = d → lineDie l = d → isHost l = false → s.dirFind l = none →
      (∀ k ∈ s.cores, ∀ y ∈ k.2.l1, y.line = l → y.st = .S ∧ y.tagged t.asid t.va = true) →
      ((s.die d).l2.filter fun x => x != l && x % 16 == l % 16).length < Config.l2Lines → (∀ b ∈ bs, b.1 < 128) →
      takes t.hf ((s.kept l bs).map (·.1)) (s.lineNow l) (mergeLine (s.lineNow l) (s.kept l bs)) (s.storeLine none (some c) d l t bs)) ∧
    ∀ (mask : BitVec 128) (data : BitVec 1024) (p : Copy), s.prFind d l = some p → p.st = .S →
      takes p.hf ((List.range 128).filter fun i => mask.getLsbD i) (widenLine p.hf p.view p.data) data (s.snooped d l mask data)) ∧
  (∀ (s : State) (d l : Nat) (mask : BitVec 128) (data : BitVec 1024) (p : Copy), s.prFind d l = some p → p.st = .S →
    (∀ k ∈ s.cores, ∀ y ∈ k.2.l1, y.line = l → y.st = .S) →
    (s.snooped d l mask data).prFind d l = some { p with data := viewLine p.hf p.view data }) ∧
  (∀ (s : State) (d l : Nat) (e : DirEnt), s.dirFind l = some e →
    (∀ mask data, s.prFind d l = none → (s.snooped d l mask data).dirFind l = some (e.drop d)) ∧
    (d < 4 → (e.owned = true → e.has e.owner = true) →
      let owns : Prop := e.owned = true ∧ e.owner = d
      let gone (t : State) (st : DState) : Prop := t.prFind d l = none ∧ (∀ k, k / 32 = d → t.l1Find k l = none) ∧
        (owns → ∀ p, s.prFind d l = some p → (∀ k ∈ s.cores, ∀ y ∈ k.2.l1, y.line = l → y.st ≠ .M) →
          isWin l = false → isHost l = false → sget none s.cxl l = none → t.lineNow l = p.data) ∧
        ∃ f, t.dirFind l = some f ∧ f.st = st ∧ f.has d = false ∧ ∀ x < 5, x ≠ d → f.has x = e.has x
      (e.has d = true → gone (s.backInv d l) (if e.sharers = 1#5 <<< d then .I else if owns then .S else e.st)) ∧
      (owns → gone (s.evictOwner d l) (if e.st = .O then .S else .I)) ∧ (¬ owns → s.evictOwner d l = s))) ∧
  (∀ (s : State) (d dst : Nat) (asid : BitVec 16) (va : VA) (f : Leaf), s.memWf → d < 4 → vaHome va = d → isSpad va = false →
    s.walk asid va .read = .ok f → 16 ≤ f.size →
    let n := 2 ^ f.size
    let src := fld f.pte 16 36 * 65536
    let a := Config.dieKey d src
    let away := decide (Config.hostKey ≤ dst)
    let b := if away then dst else Config.dieKey d dst
    let t := s.migrate d asid va dst
    let there (l : Nat) : Bool := pageHas b n l && !pageHas a n l
    (s.mayMove d f.pte f.size dst = false ∨ s.moveDown d f dst = true → t = s) ∧
    (s.mayMove d f.pte f.size dst = true → s.moveDown d f dst = false → src % n = 0 →
      (∀ k ∈ s.cores, ∀ y ∈ k.2.l1, there y.line = false) → (∀ x ∈ s.dir, ∀ e ∈ x.2, there e.line = false) →
      (∀ x ∈ s.cxl, there x.1 = false) →
      (∀ i j, i < n / 65536 → j < n / 65536 → i ≠ j → s.backKey (a + 65536 * i) ≠ b + 65536 * j) →
      (away = true ∨ src = dst →
        (∀ i < n, rdByte t.mem (b + i) = rdByte s.mem (s.backKey (a + i)) ∧ t.backKey (a + i) = b + i) ∧
        (∀ k, k < b ∨ b + n ≤ k → rdByte t.mem k = rdByte s.mem k) ∧ t.dir = s.dir ∧ t.cores = s.cores) ∧
      (away = false → src ≠ dst →
        let key := Config.dieKey d f.addr
        let l := key / 128
        let new (x : Nat) : Nat := if pageHas a n x then x - a / 128 + b / 128 else x
        lineDie l = d → isWin l = false → isHost l = false → f.addr % 8 = 0 → pageHas a n l = false → pageHas b n l = false →
        s.dirFind l = none → (∀ k ∈ s.cores, ∀ y ∈ k.2.l1, y.line ≠ l) → s.heldWrites = [] → (∀ x ∈ s.cmds, x.rows = []) →
        (s.die d).l2 = [] → sget none s.cxl l = none → (s.dir.flatMap (·.2)).length < 16 →
        (∀ i < n, rdByte t.mem (b + i) = rdByte s.mem (s.backKey (a + i))) ∧
        (∀ i < 8, rdByte t.mem (s.backKey (key + i)) = (toLE 8 (setFld f.pte 16 36 (dst / 65536)).toNat).getD i 0) ∧
        (∀ k, (k < b ∨ b + n ≤ k) → (∀ i < 8, k ≠ s.backKey (key + i)) → rdByte t.mem k = rdByte s.mem k) ∧
        (∀ c, (t.core c).l1 = (s.core c).l1.map fun x => { x with line := new x.line }) ∧
        ∀ e, s.dir = [(dirKey e.line, [e])] → t.dir = [(dirKey (new e.line), [{ e with line := new e.line }])])))

/-- One owner of a line (R189, R192 to R195). Every step keeps the directory to one entry of a line, in the line's own set, so that
a line has one owner at most; reset has it. A grant leaves the requester the only sharer, in E, with its proxy's copy; a recall ends
ownership and keeps the owner as a sharer; a read makes the reader a sharer, whose proxy holds the line at the recorded format (R193):
the view asked for, or FULL where another is recorded; a write-through makes the writer the owner and only
sharer, in M, or leaves no owner. After an ownership request the core's L1 holds the line in E at FULL, and no other L1 of its die
holds it. -/
def Obligations.DirectoryHasOneOwner : Prop :=
  (∀ s t : State, s.dirWf → step s = .next t → t.dirWf) ∧ State.reset.dirWf ∧
  (∀ (s : State) (j k : Nat) (e f : DirEnt), s.dirWf → e ∈ sget [] s.dir j → f ∈ sget [] s.dir k → e.line = f.line → e = f) ∧
  (∀ (s : State) (by_ : Option Nat) (l y : Nat) (t : Tag), y < 4 → ∃ e, (s.homeOwn by_ l y t).dirFind l = some e ∧
    e.st = .E ∧ e.owner = y ∧ e.sharers = 1#5 <<< y ∧ e.loc = false ∧
    ((s.homeOwn by_ l y t).prFind y l).map (fun x => (x.st, x.view)) = some (.E, 0)) ∧
  (∀ (s : State) (e : DirEnt), e.owned = true → (s.recallOwner e).2.owned = false ∧ (e.owner < 5 → (s.recallOwner e).2.has e.owner = true) ∧
    (s.recallOwner e).1.dirFind e.line = some (s.recallOwner e).2) ∧
  (∀ (s : State) (by_ : Option Nat) (l y : Nat) (t : Tag) (v : BitVec 3), y < 4 → ∃ e, (s.homeRead by_ l y t v).dirFind l = some e ∧
    e.has y = true ∧ (e.st = .S ∨ e.st = .O) ∧ ((s.homeRead by_ l y t v).prFind y l).map (fun x => (x.st, x.view)) = some (.S, e.fmtOf y) ∧
    (s.dirFind l = none → e.fmtOf y = v) ∧
    ∀ f, s.dirFind l = some f → f.owned = false → f.tagged = true → f.asid = t.asid → f.va = t.va →
      e.fmtOf y = if f.has y = false ∨ f.fmtOf y = v then v else 0) ∧
  (∀ (s : State) (by_ : Option Nat) (l y : Nat) (t : Tag) (bs : List (Nat × Byte)) (old new : Vec), y < 4 →
    ∃ e, (s.homeWrite by_ l y t bs old new).dirFind l = some e ∧
      ((e.st = .M ∧ e.owner = y ∧ e.sharers = 1#5 <<< y) ∨ e.owned = false)) ∧
  (∀ (s : State) (c l : Nat) (t : Tag), (s.l1Find c l).filter (fun x => x.st != .S && x.tagged t.asid t.va) = none →
    let u := s.ownRequest none c l t
    (u.l1Find c l).map (fun x => (x.st, x.view)) = some (.E, 0) ∧ ∀ k, k / 32 = c / 32 → k ≠ c → u.l1Find k l = none) ∧
  (∀ (s : State) (c : Nat) (asid : BitVec 16) (va : VA), c < 128 →
    exec (.ownershipRequest c asid va) s = .next (s.onLine (c / 32) (some c) asid va .write 0 fun s l t =>
      if s.writeDown (c / 32) (some c) l t none then s else s.ownRequest none c l t))

/-- Groups of bank-group engines (R253, R264): a group starts when its command may and completes once, after which it holds no
operand row; a refresh is postponed while a group holds the bank, eight times at most, counted for each bank. The model's readings:
what is not due changes nothing, and a BGE that does not exist is no party (log 25); a group waits for a held write of its operand
rows that it does not precede (log 24). -/
def Obligations.GroupEvents : Prop :=
  ∀ (s : State) (id bge : Nat),
    (bge < 128 → s.cmd id = none → exec (.groupStart id bge) s = .next s ∧ exec (.groupComplete id bge) s = .next s) ∧
    (∀ c, bge < 128 → s.cmd id = some c →
      exec (.groupStart id bge) s = .next (if s.groupReady c bge then (s.bump 14 c.ctx 1).groupStart c bge else s) ∧
      exec (.groupComplete id bge) s =
        .next (if c.groupEnds bge then s.groupComplete c bge else s) ∧
      (c.id = id → c.groupEnds bge = true → ∃ x, (s.groupComplete c bge).cmd id = some x ∧ bge ∈ x.done ∧ ∀ r ∈ x.rows, r.1 ≠ bge) ∧
      (∀ k ls, c.ins = .pmclr k ls → s.groupReady c bge = true → ∃ t, exec (.groupStart id bge) s = .next t ∧
        (t.bge (dieOf c.ctx) bge).acc = [] ∧ (t.bge (dieOf c.ctx) bge).poison = 0 ∧ (t.bge (dieOf c.ctx) bge).cause = 0 ∧
        t.mem = s.mem ∧ t.spad = s.spad)) ∧
    (128 ≤ bge → exec (.groupStart id bge) s = .fault .noSuchParty ∧ exec (.groupComplete id bge) s = .fault .noSuchParty) ∧
    (∀ d bank, d < 4 → bge < 128 → bank < 4 → ∃ t, exec (.refresh d bge bank) s = .next t ∧
      let busy := s.cmds.any fun c => dieOf c.ctx == d && Instr.unit c.ins == .pm && c.holdsBank bge bank
      let n := sget 0 (s.bge d bge).postponed bank
      sget 0 (t.bge d bge).postponed bank = (if busy ∧ n < 8 then n + 1 else 0) ∧
      (∀ b, b ≠ bank → sget 0 (t.bge d bge).postponed b = sget 0 (s.bge d bge).postponed b) ∧
      ∀ b e, b ≠ bge ∨ e ≠ d → t.bge e b = s.bge e b)

/-! ## Windows and management -/

/-- Writes and reads of a die's window (R331 to R335, R337, R344): every one completes; while the window answers, each acts on its
register; a read of HFAULT clears it. In FAILED the mailbox's arguments are written still, for FWLOAD to take. The model's
reading (log 36): what a closed window does, which is nothing on a write and all ones on a read, and which registers answer in FAILED. -/
def Obligations.WindowEvents : Prop :=
  ∀ (s : State) (d : Nat) (v : BitVec 64) (off : BitVec 24), d < 4 →
    let w (t : State) : State := if s.windowOpen d then t else s
    (exec (.qbindBind d v) s = .next (w (if v.getLsbD 63 then s.qbind d v else s)) ∧
      exec (.qbindUnbind d v) s = .next (w (if v.getLsbD 63 then s else s.qbind d v)) ∧
      exec (.asidselWrite d v) s = .next (w (if v.getLsbD 63 then s.asidsel d v else s)) ∧
      exec (.asidselLoad d v) s = .next (w (if v.getLsbD 63 then s else s.asidsel d v)) ∧
      exec (.tlbinv d v) s = .next (w (s.tlbInv d v)) ∧
      exec (.erdropClear d) s = .next (w (s.updDie d fun k => { k with erdrop := 0 })) ∧
      exec (.htrigFire d) s = .next (w s.fireTrigger) ∧ exec (.htrigArm d) s = .next (w { s with armed := true })) ∧
    (∃ t, exec (.tlbinvRead d) s = .next t ∧ t.hostPoison = false ∧
      t.hostData = if s.windowOpen d then toLE 8 (s.die d).tlbinv.toNat else List.replicate 8 0xFF) ∧
    (∃ t, exec (.hfaultRead d) s = .next t ∧ t.hostPoison = false ∧
      t.hostData = (if s.windowOpen d then toLE 8 (s.die d).hfault.toNat else List.replicate 8 0xFF) ∧
      (t.die d).hfault = if s.windowOpen d then 0 else (s.die d).hfault) ∧
    exec (.registerWrite d off v) s = .next (if s.answers d off.toNat true then s.windowReg_ d off.toNat v else s) ∧
    (∀ n, n < 4 → s.sleep = .awake → off.toNat = 0x210 + 8 * n → ∃ t, exec (.registerWrite d off v) s = .next t ∧
      (t.die d).mbarg = sput 0 (s.die d).mbarg n v ∧ (t.die d).arg n = v.toNat) ∧
    (s.windowOpen d = true →
      ((s.windowReg_ d 0x50 v).die d = { s.die d with asidlo := v } ∧ (s.windowReg_ d 0x58 v).die d = { s.die d with asidhi := v } ∧
        (s.windowReg_ d 0x130 v).die d = { s.die d with errd := v })) ∧
    (s.windowOpen d = false → off.toNat < 0x210 ∨ 0x228 < off.toNat → exec (.registerWrite d off v) s = .next s) ∧
    (s.tlbInv d v).mem = s.mem ∧
    (v.getLsbD 63 = true → ∀ t ∈ (s.tlbInv d v).tlb, t.die ≠ d) ∧
    exec .snapshotLatch s = .next (if s.latchDue then s.latch else s) ∧
    (s.latch.snapValid = true ∧ s.latch.armed = false ∧ s.latch.latches = s.latches + 1 ∧ s.latch.latchAt = none ∧ s.latch.mem = s.mem)

/-- The power cap (R9): a request below 250 W is applied as 250 W, one above the grade's maximum as that maximum, any other rounded
down to a multiple of 5 W, and the management core reports the value it applied. -/
def Obligations.CapIsApplied : Prop :=
  ∀ (s : State) (tag : Byte), s.sleep = .awake → 2 ≤ (s.die 0).boot → (s.die 0).boot ≠ 6 → (s.die 0).mbstat.getLsbD 0 = false →
    let w := (s.die 0).arg 0
    let top := if s.grade = 0 then 550 else 300
    ∃ t, exec (.setcap 0 tag) s = .next t ∧
      t.cap = (if w < 250 then 250 else if top < w then top else w / 5 * 5) ∧
      250 ≤ t.cap ∧ t.cap ≤ top ∧ t.cap % 5 = 0 ∧ (t.die 0).arg 0 = t.cap ∧ t.mem = s.mem ∧ t.ctxs = s.ctxs

/-- Management (R335 to R342): the power check steps the clock by 95 MHz within its range; a cold reset empties every table; with an
image that VERIFY accepts and a grade that exists it clears the reserved areas in TRAIN and brings die 0 to reduced service, else
every die to FAILED with cause 331 or 330, which an error record carries; the mailbox refuses what it does not take; the other
commands complete; a watchdog that expires posts cause 332, and ends a command in progress with result 5. The model's readings: the
rest of memory keeps its bytes (log 36), and a record for a ring that is not set up, as after a reset, is counted as dropped, so that
ERDROP is 1 (log 36); bring-up and a command end at once (log 35); a die that does not exist is no party (log 25). -/
def Obligations.ManagementEvents : Prop :=
  ∀ (s : State) (d : Nat) (tag : Byte) (v : BitVec 64) (avg : BitVec 16),
    (∃ t, exec (.powerCheck avg) s = .next t ∧ (s.sleep ≠ .awake → t = s) ∧
      (s.sleep = .awake → (s.die 0).svc = 2 →
        (s.cap < avg.toNat → t.mhz = max 950 (s.mhz - 95) ∧ t.under = 0) ∧
        (avg.toNat ≤ s.cap → 9 * s.cap < 10 * avg.toNat → t.mhz = s.mhz ∧ t.under = 0) ∧
        (10 * avg.toNat ≤ 9 * s.cap → s.under < 9 → t.mhz = s.mhz ∧ t.under = s.under + 1) ∧
        (10 * avg.toNat ≤ 9 * s.cap → 9 ≤ s.under → t.mhz = min 1900 (s.mhz + 95) ∧ t.under = 0))) ∧
    (s.sleep = .awake → ∃ t, exec .coldReset s = .next t ∧ t.ctxs = [] ∧ t.queues = [] ∧ t.launches = [] ∧ t.cmds = [] ∧ t.tlb = [] ∧
      t.dir = [] ∧ t.spad = [] ∧
      let img := if s.fwNext = [] then s.fw else s.fwNext
      (s.fwOk img = false → t.mem = s.mem ∧ ∀ k < 4, (t.die k).boot = 6 ∧ (t.die k).bootCause = 331 ∧ (t.die k).svc = 0 ∧ (t.die k).erdrop = 1) ∧
      (s.fwOk img = true → 2 ≤ s.grade → t.mem = s.mem ∧
        ∀ k < 4, (t.die k).boot = 6 ∧ (t.die k).bootCause = 330 ∧ (t.die k).svc = 0 ∧ (t.die k).erdrop = 1) ∧
      (s.fwOk img = true → s.grade < 2 → t.fw = img ∧ t.mhz = 950 ∧ (t.die 0).boot = 3 ∧ (t.die 0).svc = 1 ∧
        (∀ k < 4, k ≠ 0 → (t.die k).boot = 2 ∧ (t.die k).svc = 0) ∧
        ∀ a, rdByte t.mem a = if a < 2 ^ 60 ∧ 0x1FE0000000 ≤ a % 2 ^ 48 ∧ a % 2 ^ 48 < 0x2000000000 then 0 else rdByte s.mem a)) ∧
    (∃ t, exec .fullServiceEntry s = .next t ∧ (s.sleep = .awake → (s.die 0).boot = 3 →
      t.mhz = 1900 ∧ ∀ k < 4, (t.die k).boot = 4 ∧ (t.die k).svc = 2)) ∧
    (s.sleep = .awake → exec (.wake v) s = .next s) ∧ (s.sleep ≠ .awake → ∃ t, exec (.wake v) s = .next t ∧ t.sleep = .awake) ∧
    (d < 4 → s.windowReached d = true → 2 ≤ (s.die d).boot → (s.die d).mbstat.getLsbD 0 = false →
      (d = 0 → exec (.fwload d tag) s = .next (s.doFwload tag.toNat) ∧
        exec (.reset d tag) s = .next (s.mbDone 0 tag.toNat 0).coldReset) ∧
      ((s.die d).boot ≠ 6 →
        (d = 0 → exec (.sleep d tag) s = .next (s.doSleep tag.toNat)) ∧
        exec (.getcert d tag) s = .next (s.doGetcert d tag.toNat) ∧ exec (.quote d tag) s = .next (s.doQuote d tag.toNat) ∧
        (fld v 0 8 = 7 → fld v 16 48 = 0 → ∃ t, exec (.mailboxUnknown d v) s = .next t ∧
          (t.die d).mbstat = BitVec.ofNat 64 (2 ^ 8 * fld v 8 8 + 2 ^ 16 * 4) ∧ t.mem = s.mem))) ∧
    (d < 4 → ∃ t, exec (.watchdogExpired d) s = .next t ∧ (s.sleep ≠ .awake → t = s) ∧ (s.sleep = .awake →
      let k := s.die d
      let busy := k.mbstat.getLsbD 0
      let v := s.postError d (errRec 332 0 0 0)
      t = (if busy then v.mbDone d (fld k.mbstat 8 8) 5 else v) ∧
      (t.die d).mbstat = (if busy then BitVec.ofNat 64 (2 ^ 8 * fld k.mbstat 8 8 + 2 ^ 16 * 5) else k.mbstat) ∧
      (k.ering.getLsbD 63 = true → s.postDown d (ringKey k.ering k.erwr) 332 = false → ((k.erwr - k.errd).toNat) < ringSize k.ering →
        (t.die d).erwr = k.erwr + 1 ∧ ∃ x : State, (∃ y : State, y.mem = s.mem ∧ x = y.unitWrite 0
          (Config.hostKey + ringBase k.ering + 32 * (k.erwr.toNat % ringSize k.ering)) (toLE 32 332)) ∧ t.mem = x.mem) ∧
      (k.ering.getLsbD 63 = false → t.mem = s.mem ∧
        (t.die d).erdrop = if k.erdrop.toNat < 2 ^ 32 - 1 then k.erdrop + 1 else k.erdrop))) ∧
    (4 ≤ d → exec (.setcap d tag) s = .fault .noSuchParty ∧ exec (.watchdogExpired d) s = .fault .noSuchParty)

/-! ## Reset and what every step keeps -/

/-- Reset (R14, R335): every context is idle, nothing is bound, listed or in flight, the dies stand in their boot ROM; the memories
are canonical; and the first step, with the fuses and the empty firmware store of log 3, ends bring-up with cause 331. That SVC is 0
before bring-up is the model's choice (log 2). -/
def Obligations.ResetState : Prop :=
  State.reset.memWf ∧ (∀ n, (State.reset.ctx n).st = .idle ∧ (State.reset.ctx n).launch = none) ∧
  (∀ q, (State.reset.queue q).bound = false) ∧ (∀ d, (State.reset.die d).boot = 0 ∧ (State.reset.die d).svc = 0) ∧
  State.reset.cmds = [] ∧ State.reset.tlb = [] ∧ State.reset.sleep = .awake ∧
  ∃ t, step State.reset = .next t ∧ ∀ d < 4, (t.die d).boot = 6 ∧ (t.die d).bootCause = 331

/-- Every step keeps both memories in their canonical form: addresses strictly rising, no byte listed at the value an unlisted one
reads as. -/
def Obligations.MemoriesStayCanonical : Prop :=
  ∀ s t : State, s.memWf → step s = .next t → t.memWf
end

