-- ==== Sys2Proof/Laws/Exec.lean ====
section
/-! SUPPORT. The shape of every meaning: what the check answers decides, and a passed check performs the effect. -/

namespace Sys2Proof.Machine

/-- An outcome that a verdict of the state decides, or a next state of an instruction that has nothing to check. -/
def Answers (o : Out) (s : State) (v : Verdict) : Prop := (∃ f : State → State, o = s.resolve v f) ∨ (v = .ok ∧ ∃ t, o = .next t)

theorem answers_resolve (s : State) (v : Verdict) (f : State → State) : Answers (s.resolve v f) s v := .inl ⟨f, rfl⟩
theorem answers_next (s t : State) : Answers (.next t) s .ok := .inr ⟨rfl, t, rfl⟩
theorem Answers.next {o : Out} {s : State} {v : Verdict} (h : Answers o s v) : ∃ t, o = .next t := by
  obtain ⟨f, rfl⟩ | ⟨-, h⟩ := h
  · unfold State.resolve
    split <;> exact ⟨_, rfl⟩
  · exact h

theorem resolve_ok (s : State) (f : State → State) : s.resolve .ok f = .next (f s) := rfl
theorem resolve_trap (s : State) (c : Nat) (x : Word64) (f : State → State) (h : s.settled s.cur = true) :
    s.resolve (.trap c x) f = .next (s.trapHere c x) := by
  unfold State.resolve
  dsimp only
  rw [if_pos h]

theorem resolve_trapAfter (s : State) (c : Nat) (x : Word64) (w : List (VA × Acc)) (f : State → State) (h : s.settled s.cur = true) :
    s.resolve (.trapAfter c x w) f = .next ((s.walkedBy s.cur w).trapHere c x) := by
  unfold State.resolve
  dsimp only
  rw [if_pos h]

/-! What a core does around its contexts' bundles, once for each operation. -/

theorem wakeCtx_cases (s : State) (n : Nat) : s.wakeCtx n = s ∨ ((s.ctx n).st = .blocked ∧ (s.ctx n).live = true ∧ s.unblocked n = true ∧
    s.wakeCtx n = s.updCtx n fun c => { c with st := .ready, waitOn := none }) := by
  unfold State.wakeCtx
  split
  · rename_i h
    simp only [Bool.and_eq_true, beq_iff_eq] at h
    exact .inr ⟨h.1.1, h.1.2, h.2, rfl⟩
  · exact .inl rfl
theorem lateArrive_cases (s : State) (n : Nat) : s.lateArrive n = s ∨
    ((s.ctx n).st = .blocked ∧ (s.ctx n).live = true ∧ s.lateArrive n = s.arrive n) := by
  unfold State.lateArrive
  split
  · rename_i h
    simp only [Bool.and_eq_true, beq_iff_eq] at h
    exact .inr ⟨h.1.1, h.1.2, rfl⟩
  · exact .inl rfl
theorem afterIssue_cases (s : State) (c : Nat) :
    (s.runs c = true ∧ s.afterIssue c = s.updCore c fun k => { k with busy := true }) ∨
    (s.runs c = false ∧ ((s.nextReady c = none ∧ s.afterIssue c = s.updCore c fun k => { k with busy := false }) ∨
      ∃ m, s.nextReady c = some m ∧ s.afterIssue c = (s.pickCtx c m).updCore c fun k => { k with bubble := true })) := by
  unfold State.afterIssue
  cases h : s.runs c
  · refine .inr ⟨rfl, ?_⟩
    cases hm : s.nextReady c
    · exact .inl ⟨rfl, rfl⟩
    · exact .inr ⟨_, rfl, rfl⟩
  · exact .inl ⟨rfl, rfl⟩
theorem translateFor_cases (s : State) (d : Nat) (asid : BitVec 16) (va : VA) (a : Acc) :
    s.translateFor d asid va a = s ∨ (s.linkDown d va = false ∧ s.translateFor d asid va a = s.translate asid va a) := by
  unfold State.translateFor
  cases h : s.linkDown d va
  · exact .inr ⟨rfl, rfl⟩
  · exact .inl rfl

/-- Every instruction of a bundle but wait and dsync answers as its check decides. -/
theorem exec_answers (i : Instr) (s : State) (h : Instr.inSlot i = true) (hw : ∀ d, i ≠ .wait d) (hd : ∀ o c, i ≠ .dsync o c) :
    Answers (exec i s) s (Instr.verdict i s) := by
  cases i with
  | nop => exact answers_next _ _
  | add _ _ _ => exact answers_next _ _
  | sub _ _ _ => exact answers_next _ _
  | and _ _ _ => exact answers_next _ _
  | or _ _ _ => exact answers_next _ _
  | xor _ _ _ => exact answers_next _ _
  | shl _ _ _ => exact answers_next _ _
  | shr _ _ _ => exact answers_next _ _
  | sra _ _ _ => exact answers_next _ _
  | min _ _ _ => exact answers_next _ _
  | max _ _ _ => exact answers_next _ _
  | mul _ _ _ => exact answers_next _ _
  | mulh _ _ _ => exact answers_next _ _
  | mulhu _ _ _ => exact answers_next _ _
  | div _ _ _ => exact answers_next _ _
  | divu _ _ _ => exact answers_next _ _
  | addi _ _ _ => exact answers_next _ _
  | andi _ _ _ => exact answers_next _ _
  | ori _ _ _ => exact answers_next _ _
  | xori _ _ _ => exact answers_next _ _
  | shli _ _ _ => exact answers_next _ _
  | shri _ _ _ => exact answers_next _ _
  | srai _ _ _ => exact answers_next _ _
  | li _ _ => exact answers_next _ _
  | lic _ _ => exact answers_next _ _
  | bfxs a b c d => show Answers (execBfxs a b c d s) s _; unfold execBfxs; exact answers_resolve _ _ _
  | bfxu a b c d => show Answers (execBfxu a b c d s) s _; unfold execBfxu; exact answers_resolve _ _ _
  | bfi a b c d => show Answers (execBfi a b c d s) s _; unfold execBfi; exact answers_resolve _ _ _
  | fshl a b c d => show Answers (execFshl a b c d s) s _; unfold execFshl; exact answers_resolve _ _ _
  | fshr a b c d => show Answers (execFshr a b c d s) s _; unfold execFshr; exact answers_resolve _ _ _
  | clz _ _ => exact answers_next _ _
  | ctz _ _ => exact answers_next _ _
  | popc _ _ => exact answers_next _ _
  | slt _ _ _ => exact answers_next _ _
  | sltu _ _ _ => exact answers_next _ _
  | pcmp a b c d => show Answers (execPcmp a b c d s) s _; unfold execPcmp; exact answers_resolve _ _ _
  | sel _ _ _ _ => exact answers_next _ _
  | qadd _ _ _ => exact answers_next _ _
  | qaddi _ _ _ => exact answers_next _ _
  | qsub _ _ _ => exact answers_next _ _
  | qmov _ _ _ => exact answers_next _ _
  | qtos _ _ _ => exact answers_next _ _
  | qhome _ _ _ => exact answers_next _ _
  | beq _ _ _ => exact answers_next _ _
  | bne _ _ _ => exact answers_next _ _
  | blt _ _ _ => exact answers_next _ _
  | bge _ _ _ => exact answers_next _ _
  | bltu _ _ _ => exact answers_next _ _
  | bgeu _ _ _ => exact answers_next _ _
  | jmp _ => exact answers_next _ _
  | call _ => exact answers_next _ _
  | jr a => show Answers (execJr a s) s _; unfold execJr; exact answers_resolve _ _ _
  | loop a b => show Answers (execLoop a b s) s _; unfold execLoop; exact answers_resolve _ _ _
  | loopi a b => show Answers (execLoopi a b s) s _; unfold execLoopi; exact answers_resolve _ _ _
  | endCtx => show Answers (execEndCtx  s) s _; unfold execEndCtx; exact answers_resolve _ _ _
  | yield => exact answers_next _ _
  | wait d => exact absurd rfl (hw d)
  | warm a b c d e => show Answers (execWarm a b c d e s) s _; unfold execWarm; exact answers_resolve _ _ _
  | tnext => exact answers_next _ _
  | fmtset a => show Answers (execFmtset a s) s _; unfold execFmtset; exact answers_resolve _ _ _
  | mfsr a b => show Answers (execMfsr a b s) s _; unfold execMfsr; exact answers_resolve _ _ _
  | mtsr a b => show Answers (execMtsr a b s) s _; unfold execMtsr; exact answers_resolve _ _ _
  | trap a => show Answers (execTrap a s) s _; unfold execTrap; exact answers_resolve _ _ _
  | tret => show Answers (execTret  s) s _; unfold execTret; exact answers_resolve _ _ _
  | vadd _ _ _ _ _ => exact answers_next _ _
  | vsub _ _ _ _ _ => exact answers_next _ _
  | vmul _ _ _ _ _ => exact answers_next _ _
  | vfma _ _ _ _ _ => exact answers_next _ _
  | vfms _ _ _ _ _ => exact answers_next _ _
  | vdiv _ _ _ _ _ => exact answers_next _ _
  | vmin _ _ _ _ _ => exact answers_next _ _
  | vmax _ _ _ _ _ => exact answers_next _ _
  | vabs _ _ _ _ => exact answers_next _ _
  | vneg _ _ _ _ => exact answers_next _ _
  | vadds _ _ _ _ _ => exact answers_next _ _
  | vsubs _ _ _ _ _ => exact answers_next _ _
  | vmulh _ _ _ _ _ => exact answers_next _ _
  | vshl _ _ _ _ _ => exact answers_next _ _
  | vshr _ _ _ _ _ => exact answers_next _ _
  | vsra _ _ _ _ _ => exact answers_next _ _
  | vaddi _ _ _ _ _ => exact answers_next _ _
  | vshli a b c d e => show Answers (execVshli a b c d e s) s _; unfold execVshli; exact answers_resolve _ _ _
  | vshri a b c d e => show Answers (execVshri a b c d e s) s _; unfold execVshri; exact answers_resolve _ _ _
  | vsrai a b c d e => show Answers (execVsrai a b c d e s) s _; unfold execVsrai; exact answers_resolve _ _ _
  | vcmpeq _ _ _ _ _ => exact answers_next _ _
  | vcmpne _ _ _ _ _ => exact answers_next _ _
  | vcmplt _ _ _ _ _ => exact answers_next _ _
  | vcmple _ _ _ _ _ => exact answers_next _ _
  | vsel _ _ _ _ _ => exact answers_next _ _
  | vcvt _ _ _ _ _ _ => exact answers_next _ _
  | vbppack _ _ _ => exact answers_next _ _
  | vbpunpack _ _ _ => exact answers_next _ _
  | vexp2 _ _ _ _ => exact answers_next _ _
  | vlog2 _ _ _ _ => exact answers_next _ _
  | vrcp _ _ _ _ => exact answers_next _ _
  | vrsqrt _ _ _ _ => exact answers_next _ _
  | vredadd _ _ _ _ => exact answers_next _ _
  | vredmax _ _ _ _ => exact answers_next _ _
  | vredmin _ _ _ _ => exact answers_next _ _
  | vscanadd _ _ _ _ => exact answers_next _ _
  | vscanmax _ _ _ _ => exact answers_next _ _
  | vperm _ _ _ _ _ => exact answers_next _ _
  | vbcast a b c d e => show Answers (execVbcast a b c d e s) s _; unfold execVbcast; exact answers_resolve _ _ _
  | vrot a b c d e => show Answers (execVrot a b c d e s) s _; unfold execVrot; exact answers_resolve _ _ _
  | vslide a b c d e => show Answers (execVslide a b c d e s) s _; unfold execVslide; exact answers_resolve _ _ _
  | vzip _ _ _ _ _ _ => exact answers_next _ _
  | vunzip _ _ _ _ _ _ => exact answers_next _ _
  | vand _ _ _ _ _ => exact answers_next _ _
  | vor _ _ _ _ _ => exact answers_next _ _
  | vxor _ _ _ _ _ => exact answers_next _ _
  | vandn _ _ _ _ _ => exact answers_next _ _
  | vpopc _ _ _ _ => exact answers_next _ _
  | vclz _ _ _ _ => exact answers_next _ _
  | vbfx a b c d e => show Answers (execVbfx a b c d e s) s _; unfold execVbfx; exact answers_resolve _ _ _
  | vbfi a b c d e => show Answers (execVbfi a b c d e s) s _; unfold execVbfi; exact answers_resolve _ _ _
  | vins a b c d => show Answers (execVins a b c d s) s _; unfold execVins; exact answers_resolve _ _ _
  | vext a b c d => show Answers (execVext a b c d s) s _; unfold execVext; exact answers_resolve _ _ _
  | vdup _ _ _ _ => exact answers_next _ _
  | vmov _ _ _ _ => exact answers_next _ _
  | pand _ _ _ => exact answers_next _ _
  | por _ _ _ => exact answers_next _ _
  | pxor _ _ _ => exact answers_next _ _
  | pnot _ _ => exact answers_next _ _
  | mand _ _ _ => exact answers_next _ _
  | mor _ _ _ => exact answers_next _ _
  | mxor _ _ _ => exact answers_next _ _
  | mset _ _ => exact answers_next _ _
  | mget _ _ => exact answers_next _ _
  | manc a b => show Answers (execManc a b s) s _; unfold execManc; exact answers_resolve _ _ _
  | vargmax _ _ _ _ _ => exact answers_next _ _
  | vsparseadd _ _ _ => exact answers_next _ _
  | vcfhash _ _ _ _ _ => exact answers_next _ _
  | vcfupd _ _ _ _ => exact answers_next _ _
  | vdesc a b =>
    refine .inr ⟨rfl, ?_⟩
    show ∃ t, execVdesc a b s = .next t
    unfold execVdesc
    dsimp only
    split
    · exact ⟨_, rfl⟩
    · split
      all_goals (try split) <;> exact ⟨_, rfl⟩
  | vphilox _ _ _ => exact answers_next _ _
  | ld a b c d e => show Answers (execLd a b c d e s) s _; unfold execLd; exact answers_resolve _ _ _
  | st a b c d => show Answers (execSt a b c d s) s _; unfold execSt; exact answers_resolve _ _ _
  | vld a b c d e => show Answers (execVld a b c d e s) s _; unfold execVld; exact answers_resolve _ _ _
  | vst a b c d => show Answers (execVst a b c d s) s _; unfold execVst; exact answers_resolve _ _ _
  | ldx a b c d e f => show Answers (execLdx a b c d e f s) s _; unfold execLdx; exact answers_resolve _ _ _
  | stx a b c d e => show Answers (execStx a b c d e s) s _; unfold execStx; exact answers_resolve _ _ _
  | vldx a b c d e f => show Answers (execVldx a b c d e f s) s _; unfold execVldx; exact answers_resolve _ _ _
  | vstx a b c d e => show Answers (execVstx a b c d e s) s _; unfold execVstx; exact answers_resolve _ _ _
  | vlds a b c d e f => show Answers (execVlds a b c d e f s) s _; unfold execVlds; exact answers_resolve _ _ _
  | vsts a b c d e => show Answers (execVsts a b c d e s) s _; unfold execVsts; exact answers_resolve _ _ _
  | vgath a b c d e f => show Answers (execVgath a b c d e f s) s _; unfold execVgath; exact answers_resolve _ _ _
  | vscat a b c d e => show Answers (execVscat a b c d e s) s _; unfold execVscat; exact answers_resolve _ _ _
  | kld a b c d => show Answers (execKld a b c d s) s _; unfold execKld; exact answers_resolve _ _ _
  | bgath a b c d e => show Answers (execBgath a b c d e s) s _; unfold execBgath; exact answers_resolve _ _ _
  | amadd a b c d e f => show Answers (execAmadd a b c d e f s) s _; unfold execAmadd; exact answers_resolve _ _ _
  | ammin a b c d e f => show Answers (execAmmin a b c d e f s) s _; unfold execAmmin; exact answers_resolve _ _ _
  | ammax a b c d e f => show Answers (execAmmax a b c d e f s) s _; unfold execAmmax; exact answers_resolve _ _ _
  | amand a b c d e f => show Answers (execAmand a b c d e f s) s _; unfold execAmand; exact answers_resolve _ _ _
  | amor a b c d e f => show Answers (execAmor a b c d e f s) s _; unfold execAmor; exact answers_resolve _ _ _
  | amxor a b c d e f => show Answers (execAmxor a b c d e f s) s _; unfold execAmxor; exact answers_resolve _ _ _
  | amxchg a b c d e f => show Answers (execAmxchg a b c d e f s) s _; unfold execAmxchg; exact answers_resolve _ _ _
  | amcas a b c d e f => show Answers (execAmcas a b c d e f s) s _; unfold execAmcas; exact answers_resolve _ _ _
  | stadd a b c d e => show Answers (execStadd a b c d e s) s _; unfold execStadd; exact answers_resolve _ _ _
  | stmin a b c d e => show Answers (execStmin a b c d e s) s _; unfold execStmin; exact answers_resolve _ _ _
  | stmax a b c d e => show Answers (execStmax a b c d e s) s _; unfold execStmax; exact answers_resolve _ _ _
  | stand a b c d e => show Answers (execStand a b c d e s) s _; unfold execStand; exact answers_resolve _ _ _
  | stor a b c d e => show Answers (execStor a b c d e s) s _; unfold execStor; exact answers_resolve _ _ _
  | stxor a b c d e => show Answers (execStxor a b c d e s) s _; unfold execStxor; exact answers_resolve _ _ _
  | lda a b c d e => show Answers (execLda a b c d e s) s _; unfold execLda; exact answers_resolve _ _ _
  | stl a b c d => show Answers (execStl a b c d s) s _; unfold execStl; exact answers_resolve _ _ _
  | fence a => show Answers (execFence a s) s _; unfold execFence; exact answers_resolve _ _ _
  | drain => show Answers (execDrain  s) s _; unfold execDrain; exact answers_resolve _ _ _
  | cbwait a b c => show Answers (execCbwait a b c s) s _; unfold execCbwait; exact answers_resolve _ _ _
  | cbspace a b c => show Answers (execCbspace a b c s) s _; unfold execCbspace; exact answers_resolve _ _ _
  | cbfree a b => show Answers (execCbfree a b s) s _; unfold execCbfree; exact answers_resolve _ _ _
  | cbadv a b => show Answers (execCbadv a b s) s _; unfold execCbadv; exact answers_resolve _ _ _
  | cbbind a b c => show Answers (execCbbind a b c s) s _; unfold execCbbind; exact answers_resolve _ _ _
  | cbpop a b c => show Answers (execCbpop a b c s) s _; unfold execCbpop; exact answers_resolve _ _ _
  | barv a b => show Answers (execBarv a b s) s _; unfold execBarv; exact answers_resolve _ _ _
  | barx a b c => show Answers (execBarx a b c s) s _; unfold execBarx; exact answers_resolve _ _ _
  | barw a b => show Answers (execBarw a b s) s _; unfold execBarw; exact answers_resolve _ _ _
  | dsync o c => exact absurd rfl (hd o c)
  | pref _ _ _ _ => exact answers_next _ _
  | spmode a b => show Answers (execSpmode a b s) s _; unfold execSpmode; exact answers_resolve _ _ _
  | pld a b c d => show Answers (execPld a b c d s) s _; unfold execPld; exact answers_resolve _ _ _
  | pst a b c => show Answers (execPst a b c s) s _; unfold execPst; exact answers_resolve _ _ _
  | vldbc a b c d e => show Answers (execVldbc a b c d e s) s _; unfold execVldbc; exact answers_resolve _ _ _
  | mma a b c d e f g => show Answers (execMma a b c d e f g s) s _; unfold execMma; exact answers_resolve _ _ _
  | mmaa a b c d e f g => show Answers (execMmaa a b c d e f g s) s _; unfold execMmaa; exact answers_resolve _ _ _
  | mmas a b c d e f => show Answers (execMmas a b c d e f s) s _; unfold execMmas; exact answers_resolve _ _ _
  | mmtr a b c d e f g => show Answers (execMmtr a b c d e f g s) s _; unfold execMmtr; exact answers_resolve _ _ _
  | mmtra a b c d e f g => show Answers (execMmtra a b c d e f g s) s _; unfold execMmtra; exact answers_resolve _ _ _
  | tld a b c => show Answers (execTld a b c s) s _; unfold execTld; exact answers_resolve _ _ _
  | tldsp a b c => show Answers (execTldsp a b c s) s _; unfold execTldsp; exact answers_resolve _ _ _
  | tst a b c => show Answers (execTst a b c s) s _; unfold execTst; exact answers_resolve _ _ _
  | tstsp a b c => show Answers (execTstsp a b c s) s _; unfold execTstsp; exact answers_resolve _ _ _
  | tzero a b => show Answers (execTzero a b s) s _; unfold execTzero; exact answers_resolve _ _ _
  | attn a b c d e f => show Answers (execAttn a b c d e f s) s _; unfold execAttn; exact answers_resolve _ _ _
  | attnf a b c => show Answers (execAttnf a b c s) s _; unfold execAttnf; exact answers_resolve _ _ _
  | mpld a b c => show Answers (execMpld a b c s) s _; unfold execMpld; exact answers_resolve _ _ _
  | copy a b c d => show Answers (execCopy a b c d s) s _; unfold execCopy; exact answers_resolve _ _ _
  | copy2d a b c d => show Answers (execCopy2d a b c d s) s _; unfold execCopy2d; exact answers_resolve _ _ _
  | copyc a b c d => show Answers (execCopyc a b c d s) s _; unfold execCopyc; exact answers_resolve _ _ _
  | pmvec a b c => show Answers (execPmvec a b c s) s _; unfold execPmvec; exact answers_resolve _ _ _
  | pmmac a b c => show Answers (execPmmac a b c s) s _; unfold execPmmac; exact answers_resolve _ _ _
  | pmatk a b => show Answers (execPmatk a b s) s _; unfold execPmatk; exact answers_resolve _ _ _
  | pmatv a b => show Answers (execPmatv a b s) s _; unfold execPmatv; exact answers_resolve _ _ _
  | pmrd a b c => show Answers (execPmrd a b c s) s _; unfold execPmrd; exact answers_resolve _ _ _
  | pmclr a b => show Answers (execPmclr a b s) s _; unfold execPmclr; exact answers_resolve _ _ _
  | laybind a b c => show Answers (execLaybind a b c s) s _; unfold execLaybind; exact answers_resolve _ _ _
  | kvxfer a b c => show Answers (execKvxfer a b c s) s _; unfold execKvxfer; exact answers_resolve _ _ _
  | kvapp a b c => show Answers (execKvapp a b c s) s _; unfold execKvapp; exact answers_resolve _ _ _
  | pmst a b c => show Answers (execPmst a b c s) s _; unfold execPmst; exact answers_resolve _ _ _
  | pmsync a => show Answers (execPmsync a s) s _; unfold execPmsync; exact answers_resolve _ _ _
  | rthash a b c d => show Answers (execRthash a b c d s) s _; unfold execRthash; exact answers_resolve _ _ _
  | rtfind a b c d => show Answers (execRtfind a b c d s) s _; unfold execRtfind; exact answers_resolve _ _ _
  | rtdep a b c d e => show Answers (execRtdep a b c d e s) s _; unfold execRtdep; exact answers_resolve _ _ _
  | rtref a b => show Answers (execRtref a b s) s _; unfold execRtref; exact answers_resolve _ _ _
  | rtrel a b => show Answers (execRtrel a b s) s _; unfold execRtrel; exact answers_resolve _ _ _
  | rtpin a b c => show Answers (execRtpin a b c s) s _; unfold execRtpin; exact answers_resolve _ _ _
  | rtevict a b c d => show Answers (execRtevict a b c d s) s _; unfold execRtevict; exact answers_resolve _ _ _
  | rtrd a b c => show Answers (execRtrd a b c s) s _; unfold execRtrd; exact answers_resolve _ _ _
  | schsel _ _ => exact answers_next _ _
  | tokcommit a b c => show Answers (execTokcommit a b c s) s _; unfold execTokcommit; exact answers_resolve _ _ _
  | specacc a b c d => show Answers (execSpecacc a b c d s) s _; unfold execSpecacc; exact answers_resolve _ _ _
  | spawn a b c d => show Answers (execSpawn a b c d s) s _; unfold execSpawn; exact answers_resolve _ _ _
  | _ => exact Bool.noConfusion h

end Sys2Proof.Machine
end

