-- ==== Sys2Proof/Laws/Store.lean ====
section
/-! SUPPORT. Laws of the sparse stores: a read after a write, writes that leave every other index alone, and the canonical form. -/

namespace Sys2Proof.Machine

variable {α : Type} (d : α)

theorem sget_sdel_self (m : SMap α) (k : Nat) : sget d (sdel k m) k = d := by
  induction m with
  | nil => rfl
  | cons e t ih =>
    unfold sdel
    split
    · exact ih
    · simp [sget, *]

theorem sget_sdel_ne (m : SMap α) {k j : Nat} (h : j ≠ k) : sget d (sdel k m) j = sget d m j := by
  induction m with
  | nil => rfl
  | cons e t ih =>
    unfold sdel
    split
    · next e1 => rw [ih]; simp [sget, e1, Ne.symm h]
    · simp [sget, ih]

theorem sget_sins_self (m : SMap α) (k : Nat) (v : α) (h : ∀ e ∈ m, e.1 ≠ k) : sget d (sins k v m) k = v := by
  induction m with
  | nil => simp [sins, sget]
  | cons e t ih =>
    unfold sins
    split
    · simp [sget]
    · simp [sget, h e (by simp), ih fun x hx => h x (by simp [hx])]

theorem sget_sins_ne (m : SMap α) {k j : Nat} (v : α) (h : j ≠ k) : sget d (sins k v m) j = sget d m j := by
  induction m with
  | nil => simp [sins, sget, Ne.symm h]
  | cons e t ih =>
    unfold sins
    split
    · simp [sget, Ne.symm h]
    · simp [sget, ih]

theorem sdel_ne (m : SMap α) (k : Nat) : ∀ e ∈ sdel k m, e.1 ≠ k := by
  induction m with
  | nil => simp [sdel]
  | cons e t ih =>
    unfold sdel
    split
    · exact ih
    · intro x hx
      rcases List.mem_cons.mp hx with rfl | hx
      · assumption
      · exact ih x hx

variable [DecidableEq α]

/-- A read after a write to the same index gives the value written. -/
@[simp] theorem sget_sput_self (m : SMap α) (k : Nat) (v : α) : sget d (sput d m k v) k = v := by
  unfold sput
  split
  · next h => rw [sget_sdel_self, h]
  · exact sget_sins_self d _ _ _ (sdel_ne m k)

/-- A write leaves every other index alone. -/
theorem sget_sput_ne (m : SMap α) {k j : Nat} (v : α) (h : j ≠ k) : sget d (sput d m k v) j = sget d m j := by
  unfold sput
  split
  · exact sget_sdel_ne d m h
  · rw [sget_sins_ne d _ v h, sget_sdel_ne d m h]

/-! ## The canonical form -/

/-- The canonical form as two facts: no entry at the default, and indexes strictly rising. -/
theorem canon_iff (m : SMap α) : canon d m = true ↔ (∀ e ∈ m, e.2 ≠ d) ∧ m.Pairwise (fun a b => a.1 < b.1) := by
  induction m with
  | nil => simp [canon]
  | cons e t ih =>
    cases t with
    | nil => simp [canon]
    | cons f u =>
      simp only [canon, Bool.and_eq_true, decide_eq_true_eq, ih]
      constructor
      · rintro ⟨⟨h1, h2⟩, h3, h4⟩
        refine ⟨?_, ?_⟩
        · intro x hx
          rcases List.mem_cons.mp hx with rfl | hx
          · exact h1
          · exact h3 x hx
        · rw [List.pairwise_cons]
          refine ⟨?_, h4⟩
          intro x hx
          rcases List.mem_cons.mp hx with rfl | hx
          · exact h2
          · exact lt_trans h2 ((List.pairwise_cons.mp h4).1 x hx)
      · rintro ⟨h1, h2⟩
        rw [List.pairwise_cons] at h2
        exact ⟨⟨h1 e (by simp), h2.1 f (by simp)⟩, fun x hx => h1 x (List.mem_cons_of_mem _ hx), h2.2⟩

omit [DecidableEq α] in
theorem sdel_eq_filter (m : SMap α) (k : Nat) : sdel k m = m.filter fun e => decide (e.1 ≠ k) := by
  induction m with
  | nil => rfl
  | cons e t ih => unfold sdel; by_cases h : e.1 = k <;> simp [h, ih]

/-- A filter of a canonical store is canonical. -/
theorem canon_filter {m : SMap α} (p : Nat × α → Bool) (h : canon d m = true) : canon d (m.filter p) = true := by
  rw [canon_iff] at *
  exact ⟨fun e he => h.1 e (List.mem_of_mem_filter he), h.2.filter p⟩

omit [DecidableEq α] in
theorem mem_sins {m : SMap α} {k : Nat} {v : α} {e : Nat × α} (h : e ∈ sins k v m) : e = (k, v) ∨ e ∈ m := by
  induction m with
  | nil => simpa [sins] using h
  | cons f t ih =>
    unfold sins at h
    split at h
    · simpa using h
    · rcases List.mem_cons.mp h with rfl | h
      · simp
      · rcases ih h with h | h <;> simp [h]

theorem canon_sins {m : SMap α} {k : Nat} {v : α} (hv : v ≠ d) (hk : ∀ e ∈ m, e.1 ≠ k) (h : canon d m = true) :
    canon d (sins k v m) = true := by
  rw [canon_iff] at *
  refine ⟨fun e he => ?_, ?_⟩
  · rcases mem_sins he with rfl | he
    · exact hv
    · exact h.1 e he
  · obtain ⟨-, h⟩ := h
    induction m with
    | nil => simp [sins]
    | cons f t ih =>
      rw [List.pairwise_cons] at h
      unfold sins
      split
      · next hlt =>
        rw [List.pairwise_cons, List.pairwise_cons]
        refine ⟨fun x hx => ?_, h⟩
        rcases List.mem_cons.mp hx with rfl | hx
        · exact hlt
        · exact lt_trans hlt (h.1 x hx)
      · next hge =>
        rw [List.pairwise_cons]
        refine ⟨fun x hx => ?_, ih (fun e he => hk e (List.mem_cons_of_mem _ he)) h.2⟩
        rcases mem_sins hx with rfl | hx
        · have := hk f (by simp); simp only; omega
        · exact h.1 x hx

/-- A write keeps the canonical form. -/
theorem canon_sput {m : SMap α} (k : Nat) (v : α) (h : canon d m = true) : canon d (sput d m k v) = true := by
  unfold sput
  split
  · rw [sdel_eq_filter]; exact canon_filter d _ h
  · next hv => exact canon_sins d hv (sdel_ne m k) (by rw [sdel_eq_filter]; exact canon_filter d _ h)

/-! ## Byte strings -/

/-- A byte written reads back. -/
@[simp] theorem rdByte_wrByte_self (m : List Host.Cell) (a : Nat) (b : Byte) : rdByte (wrByte m a b) a = b := sget_sput_self 0 m a b
/-- A byte written leaves every other byte alone. -/
theorem rdByte_wrByte_ne (m : List Host.Cell) {a x : Nat} (b : Byte) (h : x ≠ a) : rdByte (wrByte m a b) x = rdByte m x :=
  sget_sput_ne 0 m b h
/-- Writing a byte keeps the canonical form. -/
theorem wrByte_wf {m : List Host.Cell} (a : Nat) (b : Byte) (h : Memory.wf m) : Memory.wf (wrByte m a b) := canon_sput 0 a b h

/-- Bytes outside a string written are left alone. -/
theorem rdByte_wrBytes_out (bs : List Byte) (m : List Host.Cell) {a x : Nat} (h : x < a ∨ a + bs.length ≤ x) :
    rdByte (wrBytes m a bs) x = rdByte m x := by
  induction bs generalizing m a with
  | nil => rfl
  | cons b t ih =>
    simp only [List.length_cons] at h
    rw [wrBytes, ih _ (by omega), rdByte_wrByte_ne _ _ (by omega)]
/-- A byte string written reads back. -/
theorem rdByte_wrBytes_in (bs : List Byte) (m : List Host.Cell) (a i : Nat) (h : i < bs.length) :
    rdByte (wrBytes m a bs) (a + i) = bs[i] := by
  induction bs generalizing m a i with
  | nil => simp at h
  | cons b t ih =>
    cases i with
    | zero => rw [wrBytes, rdByte_wrBytes_out _ _ (by omega)]; simp
    | succ i =>
      have := ih (wrByte m a b) (a + 1) i (by simpa using h)
      rw [wrBytes, show a + (i + 1) = a + 1 + i by omega, this]; simp
/-- Writing a byte string keeps the canonical form. -/
theorem wrBytes_wf (bs : List Byte) {m : List Host.Cell} (a : Nat) (h : Memory.wf m) : Memory.wf (wrBytes m a bs) := by
  induction bs generalizing m a with
  | nil => exact h
  | cons b t ih => exact ih (a + 1) (wrByte_wf a b h)
/-- Writing a list of cells keeps the canonical form. -/
theorem wrCells_wf (cs : List Host.Cell) {m : List Host.Cell} (h : Memory.wf m) :
    Memory.wf (cs.foldl (fun (m : List Host.Cell) (c : Host.Cell) => wrByte m c.1 c.2) m) := by
  induction cs generalizing m with
  | nil => exact h
  | cons c t ih => exact ih (wrByte_wf c.1 c.2 h)
/-- A filter keeps the canonical form. -/
theorem filter_wf {m : List Host.Cell} (p : Host.Cell → Bool) (h : Memory.wf m) : Memory.wf (m.filter p) := canon_filter 0 p h

theorem length_toLE (n x : Nat) : (toLE n x).length = n := by
  induction n generalizing x with
  | zero => rfl
  | succ n ih => simp [toLE, ih]
/-- The bytes of a number give it back modulo its width. -/
theorem leNat_toLE (n x : Nat) : leNat (toLE n x) = x % 256 ^ n := by
  induction n generalizing x with
  | zero => simp [toLE, leNat, Nat.mod_one]
  | succ n ih =>
    simp only [toLE, leNat, BitVec.toNat_ofNat, ih]
    rw [show (2 : Nat) ^ 8 = 256 from rfl, Nat.pow_succ', Nat.mod_mul]

end Sys2Proof.Machine
end

