-- ==== Sys2Proof/Laws/State.lean ====
section
/-! SUPPORT. What each update of a part of the state leaves, field by field, and the part it writes. -/

namespace Sys2Proof.Machine

variable (s : State)

/-! ## setCtx -/

@[simp] theorem State.setCtx_clk (n : Nat) (c : Ctx) : (s.setCtx n c).clk = s.clk := rfl
@[simp] theorem State.setCtx_turn (n : Nat) (c : Ctx) : (s.setCtx n c).turn = s.turn := rfl
@[simp] theorem State.setCtx_agenda (n : Nat) (c : Ctx) : (s.setCtx n c).agenda = s.agenda := rfl
@[simp] theorem State.setCtx_issue (n : Nat) (c : Ctx) : (s.setCtx n c).issue = s.issue := rfl
@[simp] theorem State.setCtx_cores (n : Nat) (c : Ctx) : (s.setCtx n c).cores = s.cores := rfl
@[simp] theorem State.setCtx_dies (n : Nat) (c : Ctx) : (s.setCtx n c).dies = s.dies := rfl
@[simp] theorem State.setCtx_mem (n : Nat) (c : Ctx) : (s.setCtx n c).mem = s.mem := rfl
@[simp] theorem State.setCtx_spad (n : Nat) (c : Ctx) : (s.setCtx n c).spad = s.spad := rfl
@[simp] theorem State.setCtx_tiles (n : Nat) (c : Ctx) : (s.setCtx n c).tiles = s.tiles := rfl
@[simp] theorem State.setCtx_cbufs (n : Nat) (c : Ctx) : (s.setCtx n c).cbufs = s.cbufs := rfl
@[simp] theorem State.setCtx_skews (n : Nat) (c : Ctx) : (s.setCtx n c).skews = s.skews := rfl
@[simp] theorem State.setCtx_masks (n : Nat) (c : Ctx) : (s.setCtx n c).masks = s.masks := rfl
@[simp] theorem State.setCtx_dir (n : Nat) (c : Ctx) : (s.setCtx n c).dir = s.dir := rfl
@[simp] theorem State.setCtx_cxl (n : Nat) (c : Ctx) : (s.setCtx n c).cxl = s.cxl := rfl
@[simp] theorem State.setCtx_backing (n : Nat) (c : Ctx) : (s.setCtx n c).backing = s.backing := rfl
@[simp] theorem State.setCtx_tlb (n : Nat) (c : Ctx) : (s.setCtx n c).tlb = s.tlb := rfl
@[simp] theorem State.setCtx_cmds (n : Nat) (c : Ctx) : (s.setCtx n c).cmds = s.cmds := rfl
@[simp] theorem State.setCtx_nextCmd (n : Nat) (c : Ctx) : (s.setCtx n c).nextCmd = s.nextCmd := rfl
@[simp] theorem State.setCtx_launches (n : Nat) (c : Ctx) : (s.setCtx n c).launches = s.launches := rfl
@[simp] theorem State.setCtx_nextLaunch (n : Nat) (c : Ctx) : (s.setCtx n c).nextLaunch = s.nextLaunch := rfl
@[simp] theorem State.setCtx_queues (n : Nat) (c : Ctx) : (s.setCtx n c).queues = s.queues := rfl
@[simp] theorem State.setCtx_badUnits (n : Nat) (c : Ctx) : (s.setCtx n c).badUnits = s.badUnits := rfl
@[simp] theorem State.setCtx_devFaults (n : Nat) (c : Ctx) : (s.setCtx n c).devFaults = s.devFaults := rfl
@[simp] theorem State.setCtx_heldWrites (n : Nat) (c : Ctx) : (s.setCtx n c).heldWrites = s.heldWrites := rfl
@[simp] theorem State.setCtx_links (n : Nat) (c : Ctx) : (s.setCtx n c).links = s.links := rfl
@[simp] theorem State.setCtx_armed (n : Nat) (c : Ctx) : (s.setCtx n c).armed = s.armed := rfl
@[simp] theorem State.setCtx_snapValid (n : Nat) (c : Ctx) : (s.setCtx n c).snapValid = s.snapValid := rfl
@[simp] theorem State.setCtx_latches (n : Nat) (c : Ctx) : (s.setCtx n c).latches = s.latches := rfl
@[simp] theorem State.setCtx_latchAt (n : Nat) (c : Ctx) : (s.setCtx n c).latchAt = s.latchAt := rfl
@[simp] theorem State.setCtx_snapPC (n : Nat) (c : Ctx) : (s.setCtx n c).snapPC = s.snapPC := rfl
@[simp] theorem State.setCtx_cap (n : Nat) (c : Ctx) : (s.setCtx n c).cap = s.cap := rfl
@[simp] theorem State.setCtx_mhz (n : Nat) (c : Ctx) : (s.setCtx n c).mhz = s.mhz := rfl
@[simp] theorem State.setCtx_avg (n : Nat) (c : Ctx) : (s.setCtx n c).avg = s.avg := rfl
@[simp] theorem State.setCtx_under (n : Nat) (c : Ctx) : (s.setCtx n c).under = s.under := rfl
@[simp] theorem State.setCtx_sleep (n : Nat) (c : Ctx) : (s.setCtx n c).sleep = s.sleep := rfl
@[simp] theorem State.setCtx_wakes (n : Nat) (c : Ctx) : (s.setCtx n c).wakes = s.wakes := rfl
@[simp] theorem State.setCtx_fw (n : Nat) (c : Ctx) : (s.setCtx n c).fw = s.fw := rfl
@[simp] theorem State.setCtx_fwNext (n : Nat) (c : Ctx) : (s.setCtx n c).fwNext = s.fwNext := rfl
@[simp] theorem State.setCtx_minSV (n : Nat) (c : Ctx) : (s.setCtx n c).minSV = s.minSV := rfl
@[simp] theorem State.setCtx_keyDigest (n : Nat) (c : Ctx) : (s.setCtx n c).keyDigest = s.keyDigest := rfl
@[simp] theorem State.setCtx_grade (n : Nat) (c : Ctx) : (s.setCtx n c).grade = s.grade := rfl
@[simp] theorem State.setCtx_msi (n : Nat) (c : Ctx) : (s.setCtx n c).msi = s.msi := rfl
@[simp] theorem State.setCtx_hostHeld (n : Nat) (c : Ctx) : (s.setCtx n c).hostHeld = s.hostHeld := rfl
@[simp] theorem State.setCtx_hostData (n : Nat) (c : Ctx) : (s.setCtx n c).hostData = s.hostData := rfl
@[simp] theorem State.setCtx_hostPoison (n : Nat) (c : Ctx) : (s.setCtx n c).hostPoison = s.hostPoison := rfl
theorem State.setCtx_ctxs (n : Nat) (c : Ctx) : (s.setCtx n c).ctxs = sput .zero s.ctxs n c := rfl

/-! ## updCtx -/

@[simp] theorem State.updCtx_clk (n : Nat) (f : Ctx → Ctx) : (s.updCtx n f).clk = s.clk := rfl
@[simp] theorem State.updCtx_turn (n : Nat) (f : Ctx → Ctx) : (s.updCtx n f).turn = s.turn := rfl
@[simp] theorem State.updCtx_agenda (n : Nat) (f : Ctx → Ctx) : (s.updCtx n f).agenda = s.agenda := rfl
@[simp] theorem State.updCtx_issue (n : Nat) (f : Ctx → Ctx) : (s.updCtx n f).issue = s.issue := rfl
@[simp] theorem State.updCtx_cores (n : Nat) (f : Ctx → Ctx) : (s.updCtx n f).cores = s.cores := rfl
@[simp] theorem State.updCtx_dies (n : Nat) (f : Ctx → Ctx) : (s.updCtx n f).dies = s.dies := rfl
@[simp] theorem State.updCtx_mem (n : Nat) (f : Ctx → Ctx) : (s.updCtx n f).mem = s.mem := rfl
@[simp] theorem State.updCtx_spad (n : Nat) (f : Ctx → Ctx) : (s.updCtx n f).spad = s.spad := rfl
@[simp] theorem State.updCtx_tiles (n : Nat) (f : Ctx → Ctx) : (s.updCtx n f).tiles = s.tiles := rfl
@[simp] theorem State.updCtx_cbufs (n : Nat) (f : Ctx → Ctx) : (s.updCtx n f).cbufs = s.cbufs := rfl
@[simp] theorem State.updCtx_skews (n : Nat) (f : Ctx → Ctx) : (s.updCtx n f).skews = s.skews := rfl
@[simp] theorem State.updCtx_masks (n : Nat) (f : Ctx → Ctx) : (s.updCtx n f).masks = s.masks := rfl
@[simp] theorem State.updCtx_dir (n : Nat) (f : Ctx → Ctx) : (s.updCtx n f).dir = s.dir := rfl
@[simp] theorem State.updCtx_cxl (n : Nat) (f : Ctx → Ctx) : (s.updCtx n f).cxl = s.cxl := rfl
@[simp] theorem State.updCtx_backing (n : Nat) (f : Ctx → Ctx) : (s.updCtx n f).backing = s.backing := rfl
@[simp] theorem State.updCtx_tlb (n : Nat) (f : Ctx → Ctx) : (s.updCtx n f).tlb = s.tlb := rfl
@[simp] theorem State.updCtx_cmds (n : Nat) (f : Ctx → Ctx) : (s.updCtx n f).cmds = s.cmds := rfl
@[simp] theorem State.updCtx_nextCmd (n : Nat) (f : Ctx → Ctx) : (s.updCtx n f).nextCmd = s.nextCmd := rfl
@[simp] theorem State.updCtx_launches (n : Nat) (f : Ctx → Ctx) : (s.updCtx n f).launches = s.launches := rfl
@[simp] theorem State.updCtx_nextLaunch (n : Nat) (f : Ctx → Ctx) : (s.updCtx n f).nextLaunch = s.nextLaunch := rfl
@[simp] theorem State.updCtx_queues (n : Nat) (f : Ctx → Ctx) : (s.updCtx n f).queues = s.queues := rfl
@[simp] theorem State.updCtx_badUnits (n : Nat) (f : Ctx → Ctx) : (s.updCtx n f).badUnits = s.badUnits := rfl
@[simp] theorem State.updCtx_devFaults (n : Nat) (f : Ctx → Ctx) : (s.updCtx n f).devFaults = s.devFaults := rfl
@[simp] theorem State.updCtx_heldWrites (n : Nat) (f : Ctx → Ctx) : (s.updCtx n f).heldWrites = s.heldWrites := rfl
@[simp] theorem State.updCtx_links (n : Nat) (f : Ctx → Ctx) : (s.updCtx n f).links = s.links := rfl
@[simp] theorem State.updCtx_armed (n : Nat) (f : Ctx → Ctx) : (s.updCtx n f).armed = s.armed := rfl
@[simp] theorem State.updCtx_snapValid (n : Nat) (f : Ctx → Ctx) : (s.updCtx n f).snapValid = s.snapValid := rfl
@[simp] theorem State.updCtx_latches (n : Nat) (f : Ctx → Ctx) : (s.updCtx n f).latches = s.latches := rfl
@[simp] theorem State.updCtx_latchAt (n : Nat) (f : Ctx → Ctx) : (s.updCtx n f).latchAt = s.latchAt := rfl
@[simp] theorem State.updCtx_snapPC (n : Nat) (f : Ctx → Ctx) : (s.updCtx n f).snapPC = s.snapPC := rfl
@[simp] theorem State.updCtx_cap (n : Nat) (f : Ctx → Ctx) : (s.updCtx n f).cap = s.cap := rfl
@[simp] theorem State.updCtx_mhz (n : Nat) (f : Ctx → Ctx) : (s.updCtx n f).mhz = s.mhz := rfl
@[simp] theorem State.updCtx_avg (n : Nat) (f : Ctx → Ctx) : (s.updCtx n f).avg = s.avg := rfl
@[simp] theorem State.updCtx_under (n : Nat) (f : Ctx → Ctx) : (s.updCtx n f).under = s.under := rfl
@[simp] theorem State.updCtx_sleep (n : Nat) (f : Ctx → Ctx) : (s.updCtx n f).sleep = s.sleep := rfl
@[simp] theorem State.updCtx_wakes (n : Nat) (f : Ctx → Ctx) : (s.updCtx n f).wakes = s.wakes := rfl
@[simp] theorem State.updCtx_fw (n : Nat) (f : Ctx → Ctx) : (s.updCtx n f).fw = s.fw := rfl
@[simp] theorem State.updCtx_fwNext (n : Nat) (f : Ctx → Ctx) : (s.updCtx n f).fwNext = s.fwNext := rfl
@[simp] theorem State.updCtx_minSV (n : Nat) (f : Ctx → Ctx) : (s.updCtx n f).minSV = s.minSV := rfl
@[simp] theorem State.updCtx_keyDigest (n : Nat) (f : Ctx → Ctx) : (s.updCtx n f).keyDigest = s.keyDigest := rfl
@[simp] theorem State.updCtx_grade (n : Nat) (f : Ctx → Ctx) : (s.updCtx n f).grade = s.grade := rfl
@[simp] theorem State.updCtx_msi (n : Nat) (f : Ctx → Ctx) : (s.updCtx n f).msi = s.msi := rfl
@[simp] theorem State.updCtx_hostHeld (n : Nat) (f : Ctx → Ctx) : (s.updCtx n f).hostHeld = s.hostHeld := rfl
@[simp] theorem State.updCtx_hostData (n : Nat) (f : Ctx → Ctx) : (s.updCtx n f).hostData = s.hostData := rfl
@[simp] theorem State.updCtx_hostPoison (n : Nat) (f : Ctx → Ctx) : (s.updCtx n f).hostPoison = s.hostPoison := rfl
theorem State.updCtx_ctxs (n : Nat) (f : Ctx → Ctx) : (s.updCtx n f).ctxs = sput .zero s.ctxs n (f (s.ctx n)) := rfl

/-! ## upd -/

@[simp] theorem State.upd_clk (f : Ctx → Ctx) : (s.upd f).clk = s.clk := rfl
@[simp] theorem State.upd_turn (f : Ctx → Ctx) : (s.upd f).turn = s.turn := rfl
@[simp] theorem State.upd_agenda (f : Ctx → Ctx) : (s.upd f).agenda = s.agenda := rfl
@[simp] theorem State.upd_issue (f : Ctx → Ctx) : (s.upd f).issue = s.issue := rfl
@[simp] theorem State.upd_cores (f : Ctx → Ctx) : (s.upd f).cores = s.cores := rfl
@[simp] theorem State.upd_dies (f : Ctx → Ctx) : (s.upd f).dies = s.dies := rfl
@[simp] theorem State.upd_mem (f : Ctx → Ctx) : (s.upd f).mem = s.mem := rfl
@[simp] theorem State.upd_spad (f : Ctx → Ctx) : (s.upd f).spad = s.spad := rfl
@[simp] theorem State.upd_tiles (f : Ctx → Ctx) : (s.upd f).tiles = s.tiles := rfl
@[simp] theorem State.upd_cbufs (f : Ctx → Ctx) : (s.upd f).cbufs = s.cbufs := rfl
@[simp] theorem State.upd_skews (f : Ctx → Ctx) : (s.upd f).skews = s.skews := rfl
@[simp] theorem State.upd_masks (f : Ctx → Ctx) : (s.upd f).masks = s.masks := rfl
@[simp] theorem State.upd_dir (f : Ctx → Ctx) : (s.upd f).dir = s.dir := rfl
@[simp] theorem State.upd_cxl (f : Ctx → Ctx) : (s.upd f).cxl = s.cxl := rfl
@[simp] theorem State.upd_backing (f : Ctx → Ctx) : (s.upd f).backing = s.backing := rfl
@[simp] theorem State.upd_tlb (f : Ctx → Ctx) : (s.upd f).tlb = s.tlb := rfl
@[simp] theorem State.upd_cmds (f : Ctx → Ctx) : (s.upd f).cmds = s.cmds := rfl
@[simp] theorem State.upd_nextCmd (f : Ctx → Ctx) : (s.upd f).nextCmd = s.nextCmd := rfl
@[simp] theorem State.upd_launches (f : Ctx → Ctx) : (s.upd f).launches = s.launches := rfl
@[simp] theorem State.upd_nextLaunch (f : Ctx → Ctx) : (s.upd f).nextLaunch = s.nextLaunch := rfl
@[simp] theorem State.upd_queues (f : Ctx → Ctx) : (s.upd f).queues = s.queues := rfl
@[simp] theorem State.upd_badUnits (f : Ctx → Ctx) : (s.upd f).badUnits = s.badUnits := rfl
@[simp] theorem State.upd_devFaults (f : Ctx → Ctx) : (s.upd f).devFaults = s.devFaults := rfl
@[simp] theorem State.upd_heldWrites (f : Ctx → Ctx) : (s.upd f).heldWrites = s.heldWrites := rfl
@[simp] theorem State.upd_links (f : Ctx → Ctx) : (s.upd f).links = s.links := rfl
@[simp] theorem State.upd_armed (f : Ctx → Ctx) : (s.upd f).armed = s.armed := rfl
@[simp] theorem State.upd_snapValid (f : Ctx → Ctx) : (s.upd f).snapValid = s.snapValid := rfl
@[simp] theorem State.upd_latches (f : Ctx → Ctx) : (s.upd f).latches = s.latches := rfl
@[simp] theorem State.upd_latchAt (f : Ctx → Ctx) : (s.upd f).latchAt = s.latchAt := rfl
@[simp] theorem State.upd_snapPC (f : Ctx → Ctx) : (s.upd f).snapPC = s.snapPC := rfl
@[simp] theorem State.upd_cap (f : Ctx → Ctx) : (s.upd f).cap = s.cap := rfl
@[simp] theorem State.upd_mhz (f : Ctx → Ctx) : (s.upd f).mhz = s.mhz := rfl
@[simp] theorem State.upd_avg (f : Ctx → Ctx) : (s.upd f).avg = s.avg := rfl
@[simp] theorem State.upd_under (f : Ctx → Ctx) : (s.upd f).under = s.under := rfl
@[simp] theorem State.upd_sleep (f : Ctx → Ctx) : (s.upd f).sleep = s.sleep := rfl
@[simp] theorem State.upd_wakes (f : Ctx → Ctx) : (s.upd f).wakes = s.wakes := rfl
@[simp] theorem State.upd_fw (f : Ctx → Ctx) : (s.upd f).fw = s.fw := rfl
@[simp] theorem State.upd_fwNext (f : Ctx → Ctx) : (s.upd f).fwNext = s.fwNext := rfl
@[simp] theorem State.upd_minSV (f : Ctx → Ctx) : (s.upd f).minSV = s.minSV := rfl
@[simp] theorem State.upd_keyDigest (f : Ctx → Ctx) : (s.upd f).keyDigest = s.keyDigest := rfl
@[simp] theorem State.upd_grade (f : Ctx → Ctx) : (s.upd f).grade = s.grade := rfl
@[simp] theorem State.upd_msi (f : Ctx → Ctx) : (s.upd f).msi = s.msi := rfl
@[simp] theorem State.upd_hostHeld (f : Ctx → Ctx) : (s.upd f).hostHeld = s.hostHeld := rfl
@[simp] theorem State.upd_hostData (f : Ctx → Ctx) : (s.upd f).hostData = s.hostData := rfl
@[simp] theorem State.upd_hostPoison (f : Ctx → Ctx) : (s.upd f).hostPoison = s.hostPoison := rfl
theorem State.upd_ctxs (f : Ctx → Ctx) : (s.upd f).ctxs = sput .zero s.ctxs s.cur (f s.cx) := rfl

/-! ## updRegs -/

@[simp] theorem State.updRegs_clk (f : Regs → Regs) : (s.updRegs f).clk = s.clk := rfl
@[simp] theorem State.updRegs_turn (f : Regs → Regs) : (s.updRegs f).turn = s.turn := rfl
@[simp] theorem State.updRegs_agenda (f : Regs → Regs) : (s.updRegs f).agenda = s.agenda := rfl
@[simp] theorem State.updRegs_issue (f : Regs → Regs) : (s.updRegs f).issue = s.issue := rfl
@[simp] theorem State.updRegs_cores (f : Regs → Regs) : (s.updRegs f).cores = s.cores := rfl
@[simp] theorem State.updRegs_dies (f : Regs → Regs) : (s.updRegs f).dies = s.dies := rfl
@[simp] theorem State.updRegs_mem (f : Regs → Regs) : (s.updRegs f).mem = s.mem := rfl
@[simp] theorem State.updRegs_spad (f : Regs → Regs) : (s.updRegs f).spad = s.spad := rfl
@[simp] theorem State.updRegs_tiles (f : Regs → Regs) : (s.updRegs f).tiles = s.tiles := rfl
@[simp] theorem State.updRegs_cbufs (f : Regs → Regs) : (s.updRegs f).cbufs = s.cbufs := rfl
@[simp] theorem State.updRegs_skews (f : Regs → Regs) : (s.updRegs f).skews = s.skews := rfl
@[simp] theorem State.updRegs_masks (f : Regs → Regs) : (s.updRegs f).masks = s.masks := rfl
@[simp] theorem State.updRegs_dir (f : Regs → Regs) : (s.updRegs f).dir = s.dir := rfl
@[simp] theorem State.updRegs_cxl (f : Regs → Regs) : (s.updRegs f).cxl = s.cxl := rfl
@[simp] theorem State.updRegs_backing (f : Regs → Regs) : (s.updRegs f).backing = s.backing := rfl
@[simp] theorem State.updRegs_tlb (f : Regs → Regs) : (s.updRegs f).tlb = s.tlb := rfl
@[simp] theorem State.updRegs_cmds (f : Regs → Regs) : (s.updRegs f).cmds = s.cmds := rfl
@[simp] theorem State.updRegs_nextCmd (f : Regs → Regs) : (s.updRegs f).nextCmd = s.nextCmd := rfl
@[simp] theorem State.updRegs_launches (f : Regs → Regs) : (s.updRegs f).launches = s.launches := rfl
@[simp] theorem State.updRegs_nextLaunch (f : Regs → Regs) : (s.updRegs f).nextLaunch = s.nextLaunch := rfl
@[simp] theorem State.updRegs_queues (f : Regs → Regs) : (s.updRegs f).queues = s.queues := rfl
@[simp] theorem State.updRegs_badUnits (f : Regs → Regs) : (s.updRegs f).badUnits = s.badUnits := rfl
@[simp] theorem State.updRegs_devFaults (f : Regs → Regs) : (s.updRegs f).devFaults = s.devFaults := rfl
@[simp] theorem State.updRegs_heldWrites (f : Regs → Regs) : (s.updRegs f).heldWrites = s.heldWrites := rfl
@[simp] theorem State.updRegs_links (f : Regs → Regs) : (s.updRegs f).links = s.links := rfl
@[simp] theorem State.updRegs_armed (f : Regs → Regs) : (s.updRegs f).armed = s.armed := rfl
@[simp] theorem State.updRegs_snapValid (f : Regs → Regs) : (s.updRegs f).snapValid = s.snapValid := rfl
@[simp] theorem State.updRegs_latches (f : Regs → Regs) : (s.updRegs f).latches = s.latches := rfl
@[simp] theorem State.updRegs_latchAt (f : Regs → Regs) : (s.updRegs f).latchAt = s.latchAt := rfl
@[simp] theorem State.updRegs_snapPC (f : Regs → Regs) : (s.updRegs f).snapPC = s.snapPC := rfl
@[simp] theorem State.updRegs_cap (f : Regs → Regs) : (s.updRegs f).cap = s.cap := rfl
@[simp] theorem State.updRegs_mhz (f : Regs → Regs) : (s.updRegs f).mhz = s.mhz := rfl
@[simp] theorem State.updRegs_avg (f : Regs → Regs) : (s.updRegs f).avg = s.avg := rfl
@[simp] theorem State.updRegs_under (f : Regs → Regs) : (s.updRegs f).under = s.under := rfl
@[simp] theorem State.updRegs_sleep (f : Regs → Regs) : (s.updRegs f).sleep = s.sleep := rfl
@[simp] theorem State.updRegs_wakes (f : Regs → Regs) : (s.updRegs f).wakes = s.wakes := rfl
@[simp] theorem State.updRegs_fw (f : Regs → Regs) : (s.updRegs f).fw = s.fw := rfl
@[simp] theorem State.updRegs_fwNext (f : Regs → Regs) : (s.updRegs f).fwNext = s.fwNext := rfl
@[simp] theorem State.updRegs_minSV (f : Regs → Regs) : (s.updRegs f).minSV = s.minSV := rfl
@[simp] theorem State.updRegs_keyDigest (f : Regs → Regs) : (s.updRegs f).keyDigest = s.keyDigest := rfl
@[simp] theorem State.updRegs_grade (f : Regs → Regs) : (s.updRegs f).grade = s.grade := rfl
@[simp] theorem State.updRegs_msi (f : Regs → Regs) : (s.updRegs f).msi = s.msi := rfl
@[simp] theorem State.updRegs_hostHeld (f : Regs → Regs) : (s.updRegs f).hostHeld = s.hostHeld := rfl
@[simp] theorem State.updRegs_hostData (f : Regs → Regs) : (s.updRegs f).hostData = s.hostData := rfl
@[simp] theorem State.updRegs_hostPoison (f : Regs → Regs) : (s.updRegs f).hostPoison = s.hostPoison := rfl
theorem State.updRegs_ctxs (f : Regs → Regs) : (s.updRegs f).ctxs = sput .zero s.ctxs s.cur { s.cx with regs := f s.cx.regs } := rfl

/-! ## updCore -/

@[simp] theorem State.updCore_clk (n : Nat) (f : CoreSt → CoreSt) : (s.updCore n f).clk = s.clk := rfl
@[simp] theorem State.updCore_turn (n : Nat) (f : CoreSt → CoreSt) : (s.updCore n f).turn = s.turn := rfl
@[simp] theorem State.updCore_agenda (n : Nat) (f : CoreSt → CoreSt) : (s.updCore n f).agenda = s.agenda := rfl
@[simp] theorem State.updCore_issue (n : Nat) (f : CoreSt → CoreSt) : (s.updCore n f).issue = s.issue := rfl
@[simp] theorem State.updCore_ctxs (n : Nat) (f : CoreSt → CoreSt) : (s.updCore n f).ctxs = s.ctxs := rfl
@[simp] theorem State.updCore_dies (n : Nat) (f : CoreSt → CoreSt) : (s.updCore n f).dies = s.dies := rfl
@[simp] theorem State.updCore_mem (n : Nat) (f : CoreSt → CoreSt) : (s.updCore n f).mem = s.mem := rfl
@[simp] theorem State.updCore_spad (n : Nat) (f : CoreSt → CoreSt) : (s.updCore n f).spad = s.spad := rfl
@[simp] theorem State.updCore_tiles (n : Nat) (f : CoreSt → CoreSt) : (s.updCore n f).tiles = s.tiles := rfl
@[simp] theorem State.updCore_cbufs (n : Nat) (f : CoreSt → CoreSt) : (s.updCore n f).cbufs = s.cbufs := rfl
@[simp] theorem State.updCore_skews (n : Nat) (f : CoreSt → CoreSt) : (s.updCore n f).skews = s.skews := rfl
@[simp] theorem State.updCore_masks (n : Nat) (f : CoreSt → CoreSt) : (s.updCore n f).masks = s.masks := rfl
@[simp] theorem State.updCore_dir (n : Nat) (f : CoreSt → CoreSt) : (s.updCore n f).dir = s.dir := rfl
@[simp] theorem State.updCore_cxl (n : Nat) (f : CoreSt → CoreSt) : (s.updCore n f).cxl = s.cxl := rfl
@[simp] theorem State.updCore_backing (n : Nat) (f : CoreSt → CoreSt) : (s.updCore n f).backing = s.backing := rfl
@[simp] theorem State.updCore_tlb (n : Nat) (f : CoreSt → CoreSt) : (s.updCore n f).tlb = s.tlb := rfl
@[simp] theorem State.updCore_cmds (n : Nat) (f : CoreSt → CoreSt) : (s.updCore n f).cmds = s.cmds := rfl
@[simp] theorem State.updCore_nextCmd (n : Nat) (f : CoreSt → CoreSt) : (s.updCore n f).nextCmd = s.nextCmd := rfl
@[simp] theorem State.updCore_launches (n : Nat) (f : CoreSt → CoreSt) : (s.updCore n f).launches = s.launches := rfl
@[simp] theorem State.updCore_nextLaunch (n : Nat) (f : CoreSt → CoreSt) : (s.updCore n f).nextLaunch = s.nextLaunch := rfl
@[simp] theorem State.updCore_queues (n : Nat) (f : CoreSt → CoreSt) : (s.updCore n f).queues = s.queues := rfl
@[simp] theorem State.updCore_badUnits (n : Nat) (f : CoreSt → CoreSt) : (s.updCore n f).badUnits = s.badUnits := rfl
@[simp] theorem State.updCore_devFaults (n : Nat) (f : CoreSt → CoreSt) : (s.updCore n f).devFaults = s.devFaults := rfl
@[simp] theorem State.updCore_heldWrites (n : Nat) (f : CoreSt → CoreSt) : (s.updCore n f).heldWrites = s.heldWrites := rfl
@[simp] theorem State.updCore_links (n : Nat) (f : CoreSt → CoreSt) : (s.updCore n f).links = s.links := rfl
@[simp] theorem State.updCore_armed (n : Nat) (f : CoreSt → CoreSt) : (s.updCore n f).armed = s.armed := rfl
@[simp] theorem State.updCore_snapValid (n : Nat) (f : CoreSt → CoreSt) : (s.updCore n f).snapValid = s.snapValid := rfl
@[simp] theorem State.updCore_latches (n : Nat) (f : CoreSt → CoreSt) : (s.updCore n f).latches = s.latches := rfl
@[simp] theorem State.updCore_latchAt (n : Nat) (f : CoreSt → CoreSt) : (s.updCore n f).latchAt = s.latchAt := rfl
@[simp] theorem State.updCore_snapPC (n : Nat) (f : CoreSt → CoreSt) : (s.updCore n f).snapPC = s.snapPC := rfl
@[simp] theorem State.updCore_cap (n : Nat) (f : CoreSt → CoreSt) : (s.updCore n f).cap = s.cap := rfl
@[simp] theorem State.updCore_mhz (n : Nat) (f : CoreSt → CoreSt) : (s.updCore n f).mhz = s.mhz := rfl
@[simp] theorem State.updCore_avg (n : Nat) (f : CoreSt → CoreSt) : (s.updCore n f).avg = s.avg := rfl
@[simp] theorem State.updCore_under (n : Nat) (f : CoreSt → CoreSt) : (s.updCore n f).under = s.under := rfl
@[simp] theorem State.updCore_sleep (n : Nat) (f : CoreSt → CoreSt) : (s.updCore n f).sleep = s.sleep := rfl
@[simp] theorem State.updCore_wakes (n : Nat) (f : CoreSt → CoreSt) : (s.updCore n f).wakes = s.wakes := rfl
@[simp] theorem State.updCore_fw (n : Nat) (f : CoreSt → CoreSt) : (s.updCore n f).fw = s.fw := rfl
@[simp] theorem State.updCore_fwNext (n : Nat) (f : CoreSt → CoreSt) : (s.updCore n f).fwNext = s.fwNext := rfl
@[simp] theorem State.updCore_minSV (n : Nat) (f : CoreSt → CoreSt) : (s.updCore n f).minSV = s.minSV := rfl
@[simp] theorem State.updCore_keyDigest (n : Nat) (f : CoreSt → CoreSt) : (s.updCore n f).keyDigest = s.keyDigest := rfl
@[simp] theorem State.updCore_grade (n : Nat) (f : CoreSt → CoreSt) : (s.updCore n f).grade = s.grade := rfl
@[simp] theorem State.updCore_msi (n : Nat) (f : CoreSt → CoreSt) : (s.updCore n f).msi = s.msi := rfl
@[simp] theorem State.updCore_hostHeld (n : Nat) (f : CoreSt → CoreSt) : (s.updCore n f).hostHeld = s.hostHeld := rfl
@[simp] theorem State.updCore_hostData (n : Nat) (f : CoreSt → CoreSt) : (s.updCore n f).hostData = s.hostData := rfl
@[simp] theorem State.updCore_hostPoison (n : Nat) (f : CoreSt → CoreSt) : (s.updCore n f).hostPoison = s.hostPoison := rfl
theorem State.updCore_cores (n : Nat) (f : CoreSt → CoreSt) : (s.updCore n f).cores = sput .zero s.cores n (f (s.core n)) := rfl

/-! ## updDie -/

@[simp] theorem State.updDie_clk (n : Nat) (f : DieSt → DieSt) : (s.updDie n f).clk = s.clk := rfl
@[simp] theorem State.updDie_turn (n : Nat) (f : DieSt → DieSt) : (s.updDie n f).turn = s.turn := rfl
@[simp] theorem State.updDie_agenda (n : Nat) (f : DieSt → DieSt) : (s.updDie n f).agenda = s.agenda := rfl
@[simp] theorem State.updDie_issue (n : Nat) (f : DieSt → DieSt) : (s.updDie n f).issue = s.issue := rfl
@[simp] theorem State.updDie_ctxs (n : Nat) (f : DieSt → DieSt) : (s.updDie n f).ctxs = s.ctxs := rfl
@[simp] theorem State.updDie_cores (n : Nat) (f : DieSt → DieSt) : (s.updDie n f).cores = s.cores := rfl
@[simp] theorem State.updDie_mem (n : Nat) (f : DieSt → DieSt) : (s.updDie n f).mem = s.mem := rfl
@[simp] theorem State.updDie_spad (n : Nat) (f : DieSt → DieSt) : (s.updDie n f).spad = s.spad := rfl
@[simp] theorem State.updDie_tiles (n : Nat) (f : DieSt → DieSt) : (s.updDie n f).tiles = s.tiles := rfl
@[simp] theorem State.updDie_cbufs (n : Nat) (f : DieSt → DieSt) : (s.updDie n f).cbufs = s.cbufs := rfl
@[simp] theorem State.updDie_skews (n : Nat) (f : DieSt → DieSt) : (s.updDie n f).skews = s.skews := rfl
@[simp] theorem State.updDie_masks (n : Nat) (f : DieSt → DieSt) : (s.updDie n f).masks = s.masks := rfl
@[simp] theorem State.updDie_dir (n : Nat) (f : DieSt → DieSt) : (s.updDie n f).dir = s.dir := rfl
@[simp] theorem State.updDie_cxl (n : Nat) (f : DieSt → DieSt) : (s.updDie n f).cxl = s.cxl := rfl
@[simp] theorem State.updDie_backing (n : Nat) (f : DieSt → DieSt) : (s.updDie n f).backing = s.backing := rfl
@[simp] theorem State.updDie_tlb (n : Nat) (f : DieSt → DieSt) : (s.updDie n f).tlb = s.tlb := rfl
@[simp] theorem State.updDie_cmds (n : Nat) (f : DieSt → DieSt) : (s.updDie n f).cmds = s.cmds := rfl
@[simp] theorem State.updDie_nextCmd (n : Nat) (f : DieSt → DieSt) : (s.updDie n f).nextCmd = s.nextCmd := rfl
@[simp] theorem State.updDie_launches (n : Nat) (f : DieSt → DieSt) : (s.updDie n f).launches = s.launches := rfl
@[simp] theorem State.updDie_nextLaunch (n : Nat) (f : DieSt → DieSt) : (s.updDie n f).nextLaunch = s.nextLaunch := rfl
@[simp] theorem State.updDie_queues (n : Nat) (f : DieSt → DieSt) : (s.updDie n f).queues = s.queues := rfl
@[simp] theorem State.updDie_badUnits (n : Nat) (f : DieSt → DieSt) : (s.updDie n f).badUnits = s.badUnits := rfl
@[simp] theorem State.updDie_devFaults (n : Nat) (f : DieSt → DieSt) : (s.updDie n f).devFaults = s.devFaults := rfl
@[simp] theorem State.updDie_heldWrites (n : Nat) (f : DieSt → DieSt) : (s.updDie n f).heldWrites = s.heldWrites := rfl
@[simp] theorem State.updDie_links (n : Nat) (f : DieSt → DieSt) : (s.updDie n f).links = s.links := rfl
@[simp] theorem State.updDie_armed (n : Nat) (f : DieSt → DieSt) : (s.updDie n f).armed = s.armed := rfl
@[simp] theorem State.updDie_snapValid (n : Nat) (f : DieSt → DieSt) : (s.updDie n f).snapValid = s.snapValid := rfl
@[simp] theorem State.updDie_latches (n : Nat) (f : DieSt → DieSt) : (s.updDie n f).latches = s.latches := rfl
@[simp] theorem State.updDie_latchAt (n : Nat) (f : DieSt → DieSt) : (s.updDie n f).latchAt = s.latchAt := rfl
@[simp] theorem State.updDie_snapPC (n : Nat) (f : DieSt → DieSt) : (s.updDie n f).snapPC = s.snapPC := rfl
@[simp] theorem State.updDie_cap (n : Nat) (f : DieSt → DieSt) : (s.updDie n f).cap = s.cap := rfl
@[simp] theorem State.updDie_mhz (n : Nat) (f : DieSt → DieSt) : (s.updDie n f).mhz = s.mhz := rfl
@[simp] theorem State.updDie_avg (n : Nat) (f : DieSt → DieSt) : (s.updDie n f).avg = s.avg := rfl
@[simp] theorem State.updDie_under (n : Nat) (f : DieSt → DieSt) : (s.updDie n f).under = s.under := rfl
@[simp] theorem State.updDie_sleep (n : Nat) (f : DieSt → DieSt) : (s.updDie n f).sleep = s.sleep := rfl
@[simp] theorem State.updDie_wakes (n : Nat) (f : DieSt → DieSt) : (s.updDie n f).wakes = s.wakes := rfl
@[simp] theorem State.updDie_fw (n : Nat) (f : DieSt → DieSt) : (s.updDie n f).fw = s.fw := rfl
@[simp] theorem State.updDie_fwNext (n : Nat) (f : DieSt → DieSt) : (s.updDie n f).fwNext = s.fwNext := rfl
@[simp] theorem State.updDie_minSV (n : Nat) (f : DieSt → DieSt) : (s.updDie n f).minSV = s.minSV := rfl
@[simp] theorem State.updDie_keyDigest (n : Nat) (f : DieSt → DieSt) : (s.updDie n f).keyDigest = s.keyDigest := rfl
@[simp] theorem State.updDie_grade (n : Nat) (f : DieSt → DieSt) : (s.updDie n f).grade = s.grade := rfl
@[simp] theorem State.updDie_msi (n : Nat) (f : DieSt → DieSt) : (s.updDie n f).msi = s.msi := rfl
@[simp] theorem State.updDie_hostHeld (n : Nat) (f : DieSt → DieSt) : (s.updDie n f).hostHeld = s.hostHeld := rfl
@[simp] theorem State.updDie_hostData (n : Nat) (f : DieSt → DieSt) : (s.updDie n f).hostData = s.hostData := rfl
@[simp] theorem State.updDie_hostPoison (n : Nat) (f : DieSt → DieSt) : (s.updDie n f).hostPoison = s.hostPoison := rfl
theorem State.updDie_dies (n : Nat) (f : DieSt → DieSt) : (s.updDie n f).dies = sput .zero s.dies n (f (s.die n)) := rfl

/-! ## updLaunch -/

@[simp] theorem State.updLaunch_clk (n : Nat) (f : Launch → Launch) : (s.updLaunch n f).clk = s.clk := rfl
@[simp] theorem State.updLaunch_turn (n : Nat) (f : Launch → Launch) : (s.updLaunch n f).turn = s.turn := rfl
@[simp] theorem State.updLaunch_agenda (n : Nat) (f : Launch → Launch) : (s.updLaunch n f).agenda = s.agenda := rfl
@[simp] theorem State.updLaunch_issue (n : Nat) (f : Launch → Launch) : (s.updLaunch n f).issue = s.issue := rfl
@[simp] theorem State.updLaunch_ctxs (n : Nat) (f : Launch → Launch) : (s.updLaunch n f).ctxs = s.ctxs := rfl
@[simp] theorem State.updLaunch_cores (n : Nat) (f : Launch → Launch) : (s.updLaunch n f).cores = s.cores := rfl
@[simp] theorem State.updLaunch_dies (n : Nat) (f : Launch → Launch) : (s.updLaunch n f).dies = s.dies := rfl
@[simp] theorem State.updLaunch_mem (n : Nat) (f : Launch → Launch) : (s.updLaunch n f).mem = s.mem := rfl
@[simp] theorem State.updLaunch_spad (n : Nat) (f : Launch → Launch) : (s.updLaunch n f).spad = s.spad := rfl
@[simp] theorem State.updLaunch_tiles (n : Nat) (f : Launch → Launch) : (s.updLaunch n f).tiles = s.tiles := rfl
@[simp] theorem State.updLaunch_cbufs (n : Nat) (f : Launch → Launch) : (s.updLaunch n f).cbufs = s.cbufs := rfl
@[simp] theorem State.updLaunch_skews (n : Nat) (f : Launch → Launch) : (s.updLaunch n f).skews = s.skews := rfl
@[simp] theorem State.updLaunch_masks (n : Nat) (f : Launch → Launch) : (s.updLaunch n f).masks = s.masks := rfl
@[simp] theorem State.updLaunch_dir (n : Nat) (f : Launch → Launch) : (s.updLaunch n f).dir = s.dir := rfl
@[simp] theorem State.updLaunch_cxl (n : Nat) (f : Launch → Launch) : (s.updLaunch n f).cxl = s.cxl := rfl
@[simp] theorem State.updLaunch_backing (n : Nat) (f : Launch → Launch) : (s.updLaunch n f).backing = s.backing := rfl
@[simp] theorem State.updLaunch_tlb (n : Nat) (f : Launch → Launch) : (s.updLaunch n f).tlb = s.tlb := rfl
@[simp] theorem State.updLaunch_cmds (n : Nat) (f : Launch → Launch) : (s.updLaunch n f).cmds = s.cmds := rfl
@[simp] theorem State.updLaunch_nextCmd (n : Nat) (f : Launch → Launch) : (s.updLaunch n f).nextCmd = s.nextCmd := rfl
@[simp] theorem State.updLaunch_nextLaunch (n : Nat) (f : Launch → Launch) : (s.updLaunch n f).nextLaunch = s.nextLaunch := rfl
@[simp] theorem State.updLaunch_queues (n : Nat) (f : Launch → Launch) : (s.updLaunch n f).queues = s.queues := rfl
@[simp] theorem State.updLaunch_badUnits (n : Nat) (f : Launch → Launch) : (s.updLaunch n f).badUnits = s.badUnits := rfl
@[simp] theorem State.updLaunch_devFaults (n : Nat) (f : Launch → Launch) : (s.updLaunch n f).devFaults = s.devFaults := rfl
@[simp] theorem State.updLaunch_heldWrites (n : Nat) (f : Launch → Launch) : (s.updLaunch n f).heldWrites = s.heldWrites := rfl
@[simp] theorem State.updLaunch_links (n : Nat) (f : Launch → Launch) : (s.updLaunch n f).links = s.links := rfl
@[simp] theorem State.updLaunch_armed (n : Nat) (f : Launch → Launch) : (s.updLaunch n f).armed = s.armed := rfl
@[simp] theorem State.updLaunch_snapValid (n : Nat) (f : Launch → Launch) : (s.updLaunch n f).snapValid = s.snapValid := rfl
@[simp] theorem State.updLaunch_latches (n : Nat) (f : Launch → Launch) : (s.updLaunch n f).latches = s.latches := rfl
@[simp] theorem State.updLaunch_latchAt (n : Nat) (f : Launch → Launch) : (s.updLaunch n f).latchAt = s.latchAt := rfl
@[simp] theorem State.updLaunch_snapPC (n : Nat) (f : Launch → Launch) : (s.updLaunch n f).snapPC = s.snapPC := rfl
@[simp] theorem State.updLaunch_cap (n : Nat) (f : Launch → Launch) : (s.updLaunch n f).cap = s.cap := rfl
@[simp] theorem State.updLaunch_mhz (n : Nat) (f : Launch → Launch) : (s.updLaunch n f).mhz = s.mhz := rfl
@[simp] theorem State.updLaunch_avg (n : Nat) (f : Launch → Launch) : (s.updLaunch n f).avg = s.avg := rfl
@[simp] theorem State.updLaunch_under (n : Nat) (f : Launch → Launch) : (s.updLaunch n f).under = s.under := rfl
@[simp] theorem State.updLaunch_sleep (n : Nat) (f : Launch → Launch) : (s.updLaunch n f).sleep = s.sleep := rfl
@[simp] theorem State.updLaunch_wakes (n : Nat) (f : Launch → Launch) : (s.updLaunch n f).wakes = s.wakes := rfl
@[simp] theorem State.updLaunch_fw (n : Nat) (f : Launch → Launch) : (s.updLaunch n f).fw = s.fw := rfl
@[simp] theorem State.updLaunch_fwNext (n : Nat) (f : Launch → Launch) : (s.updLaunch n f).fwNext = s.fwNext := rfl
@[simp] theorem State.updLaunch_minSV (n : Nat) (f : Launch → Launch) : (s.updLaunch n f).minSV = s.minSV := rfl
@[simp] theorem State.updLaunch_keyDigest (n : Nat) (f : Launch → Launch) : (s.updLaunch n f).keyDigest = s.keyDigest := rfl
@[simp] theorem State.updLaunch_grade (n : Nat) (f : Launch → Launch) : (s.updLaunch n f).grade = s.grade := rfl
@[simp] theorem State.updLaunch_msi (n : Nat) (f : Launch → Launch) : (s.updLaunch n f).msi = s.msi := rfl
@[simp] theorem State.updLaunch_hostHeld (n : Nat) (f : Launch → Launch) : (s.updLaunch n f).hostHeld = s.hostHeld := rfl
@[simp] theorem State.updLaunch_hostData (n : Nat) (f : Launch → Launch) : (s.updLaunch n f).hostData = s.hostData := rfl
@[simp] theorem State.updLaunch_hostPoison (n : Nat) (f : Launch → Launch) : (s.updLaunch n f).hostPoison = s.hostPoison := rfl
theorem State.updLaunch_launches (n : Nat) (f : Launch → Launch) : (s.updLaunch n f).launches = sput .zero s.launches n (f (s.launchRec n)) := rfl

/-! ## updQueue -/

@[simp] theorem State.updQueue_clk (n : Nat) (f : Queue → Queue) : (s.updQueue n f).clk = s.clk := rfl
@[simp] theorem State.updQueue_turn (n : Nat) (f : Queue → Queue) : (s.updQueue n f).turn = s.turn := rfl
@[simp] theorem State.updQueue_agenda (n : Nat) (f : Queue → Queue) : (s.updQueue n f).agenda = s.agenda := rfl
@[simp] theorem State.updQueue_issue (n : Nat) (f : Queue → Queue) : (s.updQueue n f).issue = s.issue := rfl
@[simp] theorem State.updQueue_ctxs (n : Nat) (f : Queue → Queue) : (s.updQueue n f).ctxs = s.ctxs := rfl
@[simp] theorem State.updQueue_cores (n : Nat) (f : Queue → Queue) : (s.updQueue n f).cores = s.cores := rfl
@[simp] theorem State.updQueue_dies (n : Nat) (f : Queue → Queue) : (s.updQueue n f).dies = s.dies := rfl
@[simp] theorem State.updQueue_mem (n : Nat) (f : Queue → Queue) : (s.updQueue n f).mem = s.mem := rfl
@[simp] theorem State.updQueue_spad (n : Nat) (f : Queue → Queue) : (s.updQueue n f).spad = s.spad := rfl
@[simp] theorem State.updQueue_tiles (n : Nat) (f : Queue → Queue) : (s.updQueue n f).tiles = s.tiles := rfl
@[simp] theorem State.updQueue_cbufs (n : Nat) (f : Queue → Queue) : (s.updQueue n f).cbufs = s.cbufs := rfl
@[simp] theorem State.updQueue_skews (n : Nat) (f : Queue → Queue) : (s.updQueue n f).skews = s.skews := rfl
@[simp] theorem State.updQueue_masks (n : Nat) (f : Queue → Queue) : (s.updQueue n f).masks = s.masks := rfl
@[simp] theorem State.updQueue_dir (n : Nat) (f : Queue → Queue) : (s.updQueue n f).dir = s.dir := rfl
@[simp] theorem State.updQueue_cxl (n : Nat) (f : Queue → Queue) : (s.updQueue n f).cxl = s.cxl := rfl
@[simp] theorem State.updQueue_backing (n : Nat) (f : Queue → Queue) : (s.updQueue n f).backing = s.backing := rfl
@[simp] theorem State.updQueue_tlb (n : Nat) (f : Queue → Queue) : (s.updQueue n f).tlb = s.tlb := rfl
@[simp] theorem State.updQueue_cmds (n : Nat) (f : Queue → Queue) : (s.updQueue n f).cmds = s.cmds := rfl
@[simp] theorem State.updQueue_nextCmd (n : Nat) (f : Queue → Queue) : (s.updQueue n f).nextCmd = s.nextCmd := rfl
@[simp] theorem State.updQueue_launches (n : Nat) (f : Queue → Queue) : (s.updQueue n f).launches = s.launches := rfl
@[simp] theorem State.updQueue_nextLaunch (n : Nat) (f : Queue → Queue) : (s.updQueue n f).nextLaunch = s.nextLaunch := rfl
@[simp] theorem State.updQueue_badUnits (n : Nat) (f : Queue → Queue) : (s.updQueue n f).badUnits = s.badUnits := rfl
@[simp] theorem State.updQueue_devFaults (n : Nat) (f : Queue → Queue) : (s.updQueue n f).devFaults = s.devFaults := rfl
@[simp] theorem State.updQueue_heldWrites (n : Nat) (f : Queue → Queue) : (s.updQueue n f).heldWrites = s.heldWrites := rfl
@[simp] theorem State.updQueue_links (n : Nat) (f : Queue → Queue) : (s.updQueue n f).links = s.links := rfl
@[simp] theorem State.updQueue_armed (n : Nat) (f : Queue → Queue) : (s.updQueue n f).armed = s.armed := rfl
@[simp] theorem State.updQueue_snapValid (n : Nat) (f : Queue → Queue) : (s.updQueue n f).snapValid = s.snapValid := rfl
@[simp] theorem State.updQueue_latches (n : Nat) (f : Queue → Queue) : (s.updQueue n f).latches = s.latches := rfl
@[simp] theorem State.updQueue_latchAt (n : Nat) (f : Queue → Queue) : (s.updQueue n f).latchAt = s.latchAt := rfl
@[simp] theorem State.updQueue_snapPC (n : Nat) (f : Queue → Queue) : (s.updQueue n f).snapPC = s.snapPC := rfl
@[simp] theorem State.updQueue_cap (n : Nat) (f : Queue → Queue) : (s.updQueue n f).cap = s.cap := rfl
@[simp] theorem State.updQueue_mhz (n : Nat) (f : Queue → Queue) : (s.updQueue n f).mhz = s.mhz := rfl
@[simp] theorem State.updQueue_avg (n : Nat) (f : Queue → Queue) : (s.updQueue n f).avg = s.avg := rfl
@[simp] theorem State.updQueue_under (n : Nat) (f : Queue → Queue) : (s.updQueue n f).under = s.under := rfl
@[simp] theorem State.updQueue_sleep (n : Nat) (f : Queue → Queue) : (s.updQueue n f).sleep = s.sleep := rfl
@[simp] theorem State.updQueue_wakes (n : Nat) (f : Queue → Queue) : (s.updQueue n f).wakes = s.wakes := rfl
@[simp] theorem State.updQueue_fw (n : Nat) (f : Queue → Queue) : (s.updQueue n f).fw = s.fw := rfl
@[simp] theorem State.updQueue_fwNext (n : Nat) (f : Queue → Queue) : (s.updQueue n f).fwNext = s.fwNext := rfl
@[simp] theorem State.updQueue_minSV (n : Nat) (f : Queue → Queue) : (s.updQueue n f).minSV = s.minSV := rfl
@[simp] theorem State.updQueue_keyDigest (n : Nat) (f : Queue → Queue) : (s.updQueue n f).keyDigest = s.keyDigest := rfl
@[simp] theorem State.updQueue_grade (n : Nat) (f : Queue → Queue) : (s.updQueue n f).grade = s.grade := rfl
@[simp] theorem State.updQueue_msi (n : Nat) (f : Queue → Queue) : (s.updQueue n f).msi = s.msi := rfl
@[simp] theorem State.updQueue_hostHeld (n : Nat) (f : Queue → Queue) : (s.updQueue n f).hostHeld = s.hostHeld := rfl
@[simp] theorem State.updQueue_hostData (n : Nat) (f : Queue → Queue) : (s.updQueue n f).hostData = s.hostData := rfl
@[simp] theorem State.updQueue_hostPoison (n : Nat) (f : Queue → Queue) : (s.updQueue n f).hostPoison = s.hostPoison := rfl
theorem State.updQueue_queues (n : Nat) (f : Queue → Queue) : (s.updQueue n f).queues = sput .zero s.queues n (f (s.queue n)) := rfl

/-! ## updTile -/

@[simp] theorem State.updTile_clk (n : Nat) (f : Tile → Tile) : (s.updTile n f).clk = s.clk := rfl
@[simp] theorem State.updTile_turn (n : Nat) (f : Tile → Tile) : (s.updTile n f).turn = s.turn := rfl
@[simp] theorem State.updTile_agenda (n : Nat) (f : Tile → Tile) : (s.updTile n f).agenda = s.agenda := rfl
@[simp] theorem State.updTile_issue (n : Nat) (f : Tile → Tile) : (s.updTile n f).issue = s.issue := rfl
@[simp] theorem State.updTile_ctxs (n : Nat) (f : Tile → Tile) : (s.updTile n f).ctxs = s.ctxs := rfl
@[simp] theorem State.updTile_cores (n : Nat) (f : Tile → Tile) : (s.updTile n f).cores = s.cores := rfl
@[simp] theorem State.updTile_dies (n : Nat) (f : Tile → Tile) : (s.updTile n f).dies = s.dies := rfl
@[simp] theorem State.updTile_mem (n : Nat) (f : Tile → Tile) : (s.updTile n f).mem = s.mem := rfl
@[simp] theorem State.updTile_spad (n : Nat) (f : Tile → Tile) : (s.updTile n f).spad = s.spad := rfl
@[simp] theorem State.updTile_cbufs (n : Nat) (f : Tile → Tile) : (s.updTile n f).cbufs = s.cbufs := rfl
@[simp] theorem State.updTile_skews (n : Nat) (f : Tile → Tile) : (s.updTile n f).skews = s.skews := rfl
@[simp] theorem State.updTile_masks (n : Nat) (f : Tile → Tile) : (s.updTile n f).masks = s.masks := rfl
@[simp] theorem State.updTile_dir (n : Nat) (f : Tile → Tile) : (s.updTile n f).dir = s.dir := rfl
@[simp] theorem State.updTile_cxl (n : Nat) (f : Tile → Tile) : (s.updTile n f).cxl = s.cxl := rfl
@[simp] theorem State.updTile_backing (n : Nat) (f : Tile → Tile) : (s.updTile n f).backing = s.backing := rfl
@[simp] theorem State.updTile_tlb (n : Nat) (f : Tile → Tile) : (s.updTile n f).tlb = s.tlb := rfl
@[simp] theorem State.updTile_cmds (n : Nat) (f : Tile → Tile) : (s.updTile n f).cmds = s.cmds := rfl
@[simp] theorem State.updTile_nextCmd (n : Nat) (f : Tile → Tile) : (s.updTile n f).nextCmd = s.nextCmd := rfl
@[simp] theorem State.updTile_launches (n : Nat) (f : Tile → Tile) : (s.updTile n f).launches = s.launches := rfl
@[simp] theorem State.updTile_nextLaunch (n : Nat) (f : Tile → Tile) : (s.updTile n f).nextLaunch = s.nextLaunch := rfl
@[simp] theorem State.updTile_queues (n : Nat) (f : Tile → Tile) : (s.updTile n f).queues = s.queues := rfl
@[simp] theorem State.updTile_badUnits (n : Nat) (f : Tile → Tile) : (s.updTile n f).badUnits = s.badUnits := rfl
@[simp] theorem State.updTile_devFaults (n : Nat) (f : Tile → Tile) : (s.updTile n f).devFaults = s.devFaults := rfl
@[simp] theorem State.updTile_heldWrites (n : Nat) (f : Tile → Tile) : (s.updTile n f).heldWrites = s.heldWrites := rfl
@[simp] theorem State.updTile_links (n : Nat) (f : Tile → Tile) : (s.updTile n f).links = s.links := rfl
@[simp] theorem State.updTile_armed (n : Nat) (f : Tile → Tile) : (s.updTile n f).armed = s.armed := rfl
@[simp] theorem State.updTile_snapValid (n : Nat) (f : Tile → Tile) : (s.updTile n f).snapValid = s.snapValid := rfl
@[simp] theorem State.updTile_latches (n : Nat) (f : Tile → Tile) : (s.updTile n f).latches = s.latches := rfl
@[simp] theorem State.updTile_latchAt (n : Nat) (f : Tile → Tile) : (s.updTile n f).latchAt = s.latchAt := rfl
@[simp] theorem State.updTile_snapPC (n : Nat) (f : Tile → Tile) : (s.updTile n f).snapPC = s.snapPC := rfl
@[simp] theorem State.updTile_cap (n : Nat) (f : Tile → Tile) : (s.updTile n f).cap = s.cap := rfl
@[simp] theorem State.updTile_mhz (n : Nat) (f : Tile → Tile) : (s.updTile n f).mhz = s.mhz := rfl
@[simp] theorem State.updTile_avg (n : Nat) (f : Tile → Tile) : (s.updTile n f).avg = s.avg := rfl
@[simp] theorem State.updTile_under (n : Nat) (f : Tile → Tile) : (s.updTile n f).under = s.under := rfl
@[simp] theorem State.updTile_sleep (n : Nat) (f : Tile → Tile) : (s.updTile n f).sleep = s.sleep := rfl
@[simp] theorem State.updTile_wakes (n : Nat) (f : Tile → Tile) : (s.updTile n f).wakes = s.wakes := rfl
@[simp] theorem State.updTile_fw (n : Nat) (f : Tile → Tile) : (s.updTile n f).fw = s.fw := rfl
@[simp] theorem State.updTile_fwNext (n : Nat) (f : Tile → Tile) : (s.updTile n f).fwNext = s.fwNext := rfl
@[simp] theorem State.updTile_minSV (n : Nat) (f : Tile → Tile) : (s.updTile n f).minSV = s.minSV := rfl
@[simp] theorem State.updTile_keyDigest (n : Nat) (f : Tile → Tile) : (s.updTile n f).keyDigest = s.keyDigest := rfl
@[simp] theorem State.updTile_grade (n : Nat) (f : Tile → Tile) : (s.updTile n f).grade = s.grade := rfl
@[simp] theorem State.updTile_msi (n : Nat) (f : Tile → Tile) : (s.updTile n f).msi = s.msi := rfl
@[simp] theorem State.updTile_hostHeld (n : Nat) (f : Tile → Tile) : (s.updTile n f).hostHeld = s.hostHeld := rfl
@[simp] theorem State.updTile_hostData (n : Nat) (f : Tile → Tile) : (s.updTile n f).hostData = s.hostData := rfl
@[simp] theorem State.updTile_hostPoison (n : Nat) (f : Tile → Tile) : (s.updTile n f).hostPoison = s.hostPoison := rfl
theorem State.updTile_tiles (n : Nat) (f : Tile → Tile) : (s.updTile n f).tiles = sput .zero s.tiles n (f (s.tile n)) := rfl

/-! ## updCbuf -/

@[simp] theorem State.updCbuf_clk (n : Nat) (f : CBuf → CBuf) : (s.updCbuf n f).clk = s.clk := rfl
@[simp] theorem State.updCbuf_turn (n : Nat) (f : CBuf → CBuf) : (s.updCbuf n f).turn = s.turn := rfl
@[simp] theorem State.updCbuf_agenda (n : Nat) (f : CBuf → CBuf) : (s.updCbuf n f).agenda = s.agenda := rfl
@[simp] theorem State.updCbuf_issue (n : Nat) (f : CBuf → CBuf) : (s.updCbuf n f).issue = s.issue := rfl
@[simp] theorem State.updCbuf_ctxs (n : Nat) (f : CBuf → CBuf) : (s.updCbuf n f).ctxs = s.ctxs := rfl
@[simp] theorem State.updCbuf_cores (n : Nat) (f : CBuf → CBuf) : (s.updCbuf n f).cores = s.cores := rfl
@[simp] theorem State.updCbuf_dies (n : Nat) (f : CBuf → CBuf) : (s.updCbuf n f).dies = s.dies := rfl
@[simp] theorem State.updCbuf_mem (n : Nat) (f : CBuf → CBuf) : (s.updCbuf n f).mem = s.mem := rfl
@[simp] theorem State.updCbuf_spad (n : Nat) (f : CBuf → CBuf) : (s.updCbuf n f).spad = s.spad := rfl
@[simp] theorem State.updCbuf_tiles (n : Nat) (f : CBuf → CBuf) : (s.updCbuf n f).tiles = s.tiles := rfl
@[simp] theorem State.updCbuf_skews (n : Nat) (f : CBuf → CBuf) : (s.updCbuf n f).skews = s.skews := rfl
@[simp] theorem State.updCbuf_masks (n : Nat) (f : CBuf → CBuf) : (s.updCbuf n f).masks = s.masks := rfl
@[simp] theorem State.updCbuf_dir (n : Nat) (f : CBuf → CBuf) : (s.updCbuf n f).dir = s.dir := rfl
@[simp] theorem State.updCbuf_cxl (n : Nat) (f : CBuf → CBuf) : (s.updCbuf n f).cxl = s.cxl := rfl
@[simp] theorem State.updCbuf_backing (n : Nat) (f : CBuf → CBuf) : (s.updCbuf n f).backing = s.backing := rfl
@[simp] theorem State.updCbuf_tlb (n : Nat) (f : CBuf → CBuf) : (s.updCbuf n f).tlb = s.tlb := rfl
@[simp] theorem State.updCbuf_cmds (n : Nat) (f : CBuf → CBuf) : (s.updCbuf n f).cmds = s.cmds := rfl
@[simp] theorem State.updCbuf_nextCmd (n : Nat) (f : CBuf → CBuf) : (s.updCbuf n f).nextCmd = s.nextCmd := rfl
@[simp] theorem State.updCbuf_launches (n : Nat) (f : CBuf → CBuf) : (s.updCbuf n f).launches = s.launches := rfl
@[simp] theorem State.updCbuf_nextLaunch (n : Nat) (f : CBuf → CBuf) : (s.updCbuf n f).nextLaunch = s.nextLaunch := rfl
@[simp] theorem State.updCbuf_queues (n : Nat) (f : CBuf → CBuf) : (s.updCbuf n f).queues = s.queues := rfl
@[simp] theorem State.updCbuf_badUnits (n : Nat) (f : CBuf → CBuf) : (s.updCbuf n f).badUnits = s.badUnits := rfl
@[simp] theorem State.updCbuf_devFaults (n : Nat) (f : CBuf → CBuf) : (s.updCbuf n f).devFaults = s.devFaults := rfl
@[simp] theorem State.updCbuf_heldWrites (n : Nat) (f : CBuf → CBuf) : (s.updCbuf n f).heldWrites = s.heldWrites := rfl
@[simp] theorem State.updCbuf_links (n : Nat) (f : CBuf → CBuf) : (s.updCbuf n f).links = s.links := rfl
@[simp] theorem State.updCbuf_armed (n : Nat) (f : CBuf → CBuf) : (s.updCbuf n f).armed = s.armed := rfl
@[simp] theorem State.updCbuf_snapValid (n : Nat) (f : CBuf → CBuf) : (s.updCbuf n f).snapValid = s.snapValid := rfl
@[simp] theorem State.updCbuf_latches (n : Nat) (f : CBuf → CBuf) : (s.updCbuf n f).latches = s.latches := rfl
@[simp] theorem State.updCbuf_latchAt (n : Nat) (f : CBuf → CBuf) : (s.updCbuf n f).latchAt = s.latchAt := rfl
@[simp] theorem State.updCbuf_snapPC (n : Nat) (f : CBuf → CBuf) : (s.updCbuf n f).snapPC = s.snapPC := rfl
@[simp] theorem State.updCbuf_cap (n : Nat) (f : CBuf → CBuf) : (s.updCbuf n f).cap = s.cap := rfl
@[simp] theorem State.updCbuf_mhz (n : Nat) (f : CBuf → CBuf) : (s.updCbuf n f).mhz = s.mhz := rfl
@[simp] theorem State.updCbuf_avg (n : Nat) (f : CBuf → CBuf) : (s.updCbuf n f).avg = s.avg := rfl
@[simp] theorem State.updCbuf_under (n : Nat) (f : CBuf → CBuf) : (s.updCbuf n f).under = s.under := rfl
@[simp] theorem State.updCbuf_sleep (n : Nat) (f : CBuf → CBuf) : (s.updCbuf n f).sleep = s.sleep := rfl
@[simp] theorem State.updCbuf_wakes (n : Nat) (f : CBuf → CBuf) : (s.updCbuf n f).wakes = s.wakes := rfl
@[simp] theorem State.updCbuf_fw (n : Nat) (f : CBuf → CBuf) : (s.updCbuf n f).fw = s.fw := rfl
@[simp] theorem State.updCbuf_fwNext (n : Nat) (f : CBuf → CBuf) : (s.updCbuf n f).fwNext = s.fwNext := rfl
@[simp] theorem State.updCbuf_minSV (n : Nat) (f : CBuf → CBuf) : (s.updCbuf n f).minSV = s.minSV := rfl
@[simp] theorem State.updCbuf_keyDigest (n : Nat) (f : CBuf → CBuf) : (s.updCbuf n f).keyDigest = s.keyDigest := rfl
@[simp] theorem State.updCbuf_grade (n : Nat) (f : CBuf → CBuf) : (s.updCbuf n f).grade = s.grade := rfl
@[simp] theorem State.updCbuf_msi (n : Nat) (f : CBuf → CBuf) : (s.updCbuf n f).msi = s.msi := rfl
@[simp] theorem State.updCbuf_hostHeld (n : Nat) (f : CBuf → CBuf) : (s.updCbuf n f).hostHeld = s.hostHeld := rfl
@[simp] theorem State.updCbuf_hostData (n : Nat) (f : CBuf → CBuf) : (s.updCbuf n f).hostData = s.hostData := rfl
@[simp] theorem State.updCbuf_hostPoison (n : Nat) (f : CBuf → CBuf) : (s.updCbuf n f).hostPoison = s.hostPoison := rfl
theorem State.updCbuf_cbufs (n : Nat) (f : CBuf → CBuf) : (s.updCbuf n f).cbufs = sput .zero s.cbufs n (f (s.cbuf n)) := rfl

/-! ## wS -/

@[simp] theorem State.wS_clk (n : SReg) (x : Word64) : (s.wS n x).clk = s.clk := rfl
@[simp] theorem State.wS_turn (n : SReg) (x : Word64) : (s.wS n x).turn = s.turn := rfl
@[simp] theorem State.wS_agenda (n : SReg) (x : Word64) : (s.wS n x).agenda = s.agenda := rfl
@[simp] theorem State.wS_issue (n : SReg) (x : Word64) : (s.wS n x).issue = s.issue := rfl
@[simp] theorem State.wS_cores (n : SReg) (x : Word64) : (s.wS n x).cores = s.cores := rfl
@[simp] theorem State.wS_dies (n : SReg) (x : Word64) : (s.wS n x).dies = s.dies := rfl
@[simp] theorem State.wS_mem (n : SReg) (x : Word64) : (s.wS n x).mem = s.mem := rfl
@[simp] theorem State.wS_spad (n : SReg) (x : Word64) : (s.wS n x).spad = s.spad := rfl
@[simp] theorem State.wS_tiles (n : SReg) (x : Word64) : (s.wS n x).tiles = s.tiles := rfl
@[simp] theorem State.wS_cbufs (n : SReg) (x : Word64) : (s.wS n x).cbufs = s.cbufs := rfl
@[simp] theorem State.wS_skews (n : SReg) (x : Word64) : (s.wS n x).skews = s.skews := rfl
@[simp] theorem State.wS_masks (n : SReg) (x : Word64) : (s.wS n x).masks = s.masks := rfl
@[simp] theorem State.wS_dir (n : SReg) (x : Word64) : (s.wS n x).dir = s.dir := rfl
@[simp] theorem State.wS_cxl (n : SReg) (x : Word64) : (s.wS n x).cxl = s.cxl := rfl
@[simp] theorem State.wS_backing (n : SReg) (x : Word64) : (s.wS n x).backing = s.backing := rfl
@[simp] theorem State.wS_tlb (n : SReg) (x : Word64) : (s.wS n x).tlb = s.tlb := rfl
@[simp] theorem State.wS_cmds (n : SReg) (x : Word64) : (s.wS n x).cmds = s.cmds := rfl
@[simp] theorem State.wS_nextCmd (n : SReg) (x : Word64) : (s.wS n x).nextCmd = s.nextCmd := rfl
@[simp] theorem State.wS_launches (n : SReg) (x : Word64) : (s.wS n x).launches = s.launches := rfl
@[simp] theorem State.wS_nextLaunch (n : SReg) (x : Word64) : (s.wS n x).nextLaunch = s.nextLaunch := rfl
@[simp] theorem State.wS_queues (n : SReg) (x : Word64) : (s.wS n x).queues = s.queues := rfl
@[simp] theorem State.wS_badUnits (n : SReg) (x : Word64) : (s.wS n x).badUnits = s.badUnits := rfl
@[simp] theorem State.wS_devFaults (n : SReg) (x : Word64) : (s.wS n x).devFaults = s.devFaults := rfl
@[simp] theorem State.wS_heldWrites (n : SReg) (x : Word64) : (s.wS n x).heldWrites = s.heldWrites := rfl
@[simp] theorem State.wS_links (n : SReg) (x : Word64) : (s.wS n x).links = s.links := rfl
@[simp] theorem State.wS_armed (n : SReg) (x : Word64) : (s.wS n x).armed = s.armed := rfl
@[simp] theorem State.wS_snapValid (n : SReg) (x : Word64) : (s.wS n x).snapValid = s.snapValid := rfl
@[simp] theorem State.wS_latches (n : SReg) (x : Word64) : (s.wS n x).latches = s.latches := rfl
@[simp] theorem State.wS_latchAt (n : SReg) (x : Word64) : (s.wS n x).latchAt = s.latchAt := rfl
@[simp] theorem State.wS_snapPC (n : SReg) (x : Word64) : (s.wS n x).snapPC = s.snapPC := rfl
@[simp] theorem State.wS_cap (n : SReg) (x : Word64) : (s.wS n x).cap = s.cap := rfl
@[simp] theorem State.wS_mhz (n : SReg) (x : Word64) : (s.wS n x).mhz = s.mhz := rfl
@[simp] theorem State.wS_avg (n : SReg) (x : Word64) : (s.wS n x).avg = s.avg := rfl
@[simp] theorem State.wS_under (n : SReg) (x : Word64) : (s.wS n x).under = s.under := rfl
@[simp] theorem State.wS_sleep (n : SReg) (x : Word64) : (s.wS n x).sleep = s.sleep := rfl
@[simp] theorem State.wS_wakes (n : SReg) (x : Word64) : (s.wS n x).wakes = s.wakes := rfl
@[simp] theorem State.wS_fw (n : SReg) (x : Word64) : (s.wS n x).fw = s.fw := rfl
@[simp] theorem State.wS_fwNext (n : SReg) (x : Word64) : (s.wS n x).fwNext = s.fwNext := rfl
@[simp] theorem State.wS_minSV (n : SReg) (x : Word64) : (s.wS n x).minSV = s.minSV := rfl
@[simp] theorem State.wS_keyDigest (n : SReg) (x : Word64) : (s.wS n x).keyDigest = s.keyDigest := rfl
@[simp] theorem State.wS_grade (n : SReg) (x : Word64) : (s.wS n x).grade = s.grade := rfl
@[simp] theorem State.wS_msi (n : SReg) (x : Word64) : (s.wS n x).msi = s.msi := rfl
@[simp] theorem State.wS_hostHeld (n : SReg) (x : Word64) : (s.wS n x).hostHeld = s.hostHeld := rfl
@[simp] theorem State.wS_hostData (n : SReg) (x : Word64) : (s.wS n x).hostData = s.hostData := rfl
@[simp] theorem State.wS_hostPoison (n : SReg) (x : Word64) : (s.wS n x).hostPoison = s.hostPoison := rfl

/-! ## wQ -/

@[simp] theorem State.wQ_clk (n : QReg) (x : VA) : (s.wQ n x).clk = s.clk := rfl
@[simp] theorem State.wQ_turn (n : QReg) (x : VA) : (s.wQ n x).turn = s.turn := rfl
@[simp] theorem State.wQ_agenda (n : QReg) (x : VA) : (s.wQ n x).agenda = s.agenda := rfl
@[simp] theorem State.wQ_issue (n : QReg) (x : VA) : (s.wQ n x).issue = s.issue := rfl
@[simp] theorem State.wQ_cores (n : QReg) (x : VA) : (s.wQ n x).cores = s.cores := rfl
@[simp] theorem State.wQ_dies (n : QReg) (x : VA) : (s.wQ n x).dies = s.dies := rfl
@[simp] theorem State.wQ_mem (n : QReg) (x : VA) : (s.wQ n x).mem = s.mem := rfl
@[simp] theorem State.wQ_spad (n : QReg) (x : VA) : (s.wQ n x).spad = s.spad := rfl
@[simp] theorem State.wQ_tiles (n : QReg) (x : VA) : (s.wQ n x).tiles = s.tiles := rfl
@[simp] theorem State.wQ_cbufs (n : QReg) (x : VA) : (s.wQ n x).cbufs = s.cbufs := rfl
@[simp] theorem State.wQ_skews (n : QReg) (x : VA) : (s.wQ n x).skews = s.skews := rfl
@[simp] theorem State.wQ_masks (n : QReg) (x : VA) : (s.wQ n x).masks = s.masks := rfl
@[simp] theorem State.wQ_dir (n : QReg) (x : VA) : (s.wQ n x).dir = s.dir := rfl
@[simp] theorem State.wQ_cxl (n : QReg) (x : VA) : (s.wQ n x).cxl = s.cxl := rfl
@[simp] theorem State.wQ_backing (n : QReg) (x : VA) : (s.wQ n x).backing = s.backing := rfl
@[simp] theorem State.wQ_tlb (n : QReg) (x : VA) : (s.wQ n x).tlb = s.tlb := rfl
@[simp] theorem State.wQ_cmds (n : QReg) (x : VA) : (s.wQ n x).cmds = s.cmds := rfl
@[simp] theorem State.wQ_nextCmd (n : QReg) (x : VA) : (s.wQ n x).nextCmd = s.nextCmd := rfl
@[simp] theorem State.wQ_launches (n : QReg) (x : VA) : (s.wQ n x).launches = s.launches := rfl
@[simp] theorem State.wQ_nextLaunch (n : QReg) (x : VA) : (s.wQ n x).nextLaunch = s.nextLaunch := rfl
@[simp] theorem State.wQ_queues (n : QReg) (x : VA) : (s.wQ n x).queues = s.queues := rfl
@[simp] theorem State.wQ_badUnits (n : QReg) (x : VA) : (s.wQ n x).badUnits = s.badUnits := rfl
@[simp] theorem State.wQ_devFaults (n : QReg) (x : VA) : (s.wQ n x).devFaults = s.devFaults := rfl
@[simp] theorem State.wQ_heldWrites (n : QReg) (x : VA) : (s.wQ n x).heldWrites = s.heldWrites := rfl
@[simp] theorem State.wQ_links (n : QReg) (x : VA) : (s.wQ n x).links = s.links := rfl
@[simp] theorem State.wQ_armed (n : QReg) (x : VA) : (s.wQ n x).armed = s.armed := rfl
@[simp] theorem State.wQ_snapValid (n : QReg) (x : VA) : (s.wQ n x).snapValid = s.snapValid := rfl
@[simp] theorem State.wQ_latches (n : QReg) (x : VA) : (s.wQ n x).latches = s.latches := rfl
@[simp] theorem State.wQ_latchAt (n : QReg) (x : VA) : (s.wQ n x).latchAt = s.latchAt := rfl
@[simp] theorem State.wQ_snapPC (n : QReg) (x : VA) : (s.wQ n x).snapPC = s.snapPC := rfl
@[simp] theorem State.wQ_cap (n : QReg) (x : VA) : (s.wQ n x).cap = s.cap := rfl
@[simp] theorem State.wQ_mhz (n : QReg) (x : VA) : (s.wQ n x).mhz = s.mhz := rfl
@[simp] theorem State.wQ_avg (n : QReg) (x : VA) : (s.wQ n x).avg = s.avg := rfl
@[simp] theorem State.wQ_under (n : QReg) (x : VA) : (s.wQ n x).under = s.under := rfl
@[simp] theorem State.wQ_sleep (n : QReg) (x : VA) : (s.wQ n x).sleep = s.sleep := rfl
@[simp] theorem State.wQ_wakes (n : QReg) (x : VA) : (s.wQ n x).wakes = s.wakes := rfl
@[simp] theorem State.wQ_fw (n : QReg) (x : VA) : (s.wQ n x).fw = s.fw := rfl
@[simp] theorem State.wQ_fwNext (n : QReg) (x : VA) : (s.wQ n x).fwNext = s.fwNext := rfl
@[simp] theorem State.wQ_minSV (n : QReg) (x : VA) : (s.wQ n x).minSV = s.minSV := rfl
@[simp] theorem State.wQ_keyDigest (n : QReg) (x : VA) : (s.wQ n x).keyDigest = s.keyDigest := rfl
@[simp] theorem State.wQ_grade (n : QReg) (x : VA) : (s.wQ n x).grade = s.grade := rfl
@[simp] theorem State.wQ_msi (n : QReg) (x : VA) : (s.wQ n x).msi = s.msi := rfl
@[simp] theorem State.wQ_hostHeld (n : QReg) (x : VA) : (s.wQ n x).hostHeld = s.hostHeld := rfl
@[simp] theorem State.wQ_hostData (n : QReg) (x : VA) : (s.wQ n x).hostData = s.hostData := rfl
@[simp] theorem State.wQ_hostPoison (n : QReg) (x : VA) : (s.wQ n x).hostPoison = s.hostPoison := rfl

/-! ## wV -/

@[simp] theorem State.wV_clk (n : VReg) (x : Vec) : (s.wV n x).clk = s.clk := rfl
@[simp] theorem State.wV_turn (n : VReg) (x : Vec) : (s.wV n x).turn = s.turn := rfl
@[simp] theorem State.wV_agenda (n : VReg) (x : Vec) : (s.wV n x).agenda = s.agenda := rfl
@[simp] theorem State.wV_issue (n : VReg) (x : Vec) : (s.wV n x).issue = s.issue := rfl
@[simp] theorem State.wV_cores (n : VReg) (x : Vec) : (s.wV n x).cores = s.cores := rfl
@[simp] theorem State.wV_dies (n : VReg) (x : Vec) : (s.wV n x).dies = s.dies := rfl
@[simp] theorem State.wV_mem (n : VReg) (x : Vec) : (s.wV n x).mem = s.mem := rfl
@[simp] theorem State.wV_spad (n : VReg) (x : Vec) : (s.wV n x).spad = s.spad := rfl
@[simp] theorem State.wV_tiles (n : VReg) (x : Vec) : (s.wV n x).tiles = s.tiles := rfl
@[simp] theorem State.wV_cbufs (n : VReg) (x : Vec) : (s.wV n x).cbufs = s.cbufs := rfl
@[simp] theorem State.wV_skews (n : VReg) (x : Vec) : (s.wV n x).skews = s.skews := rfl
@[simp] theorem State.wV_masks (n : VReg) (x : Vec) : (s.wV n x).masks = s.masks := rfl
@[simp] theorem State.wV_dir (n : VReg) (x : Vec) : (s.wV n x).dir = s.dir := rfl
@[simp] theorem State.wV_cxl (n : VReg) (x : Vec) : (s.wV n x).cxl = s.cxl := rfl
@[simp] theorem State.wV_backing (n : VReg) (x : Vec) : (s.wV n x).backing = s.backing := rfl
@[simp] theorem State.wV_tlb (n : VReg) (x : Vec) : (s.wV n x).tlb = s.tlb := rfl
@[simp] theorem State.wV_cmds (n : VReg) (x : Vec) : (s.wV n x).cmds = s.cmds := rfl
@[simp] theorem State.wV_nextCmd (n : VReg) (x : Vec) : (s.wV n x).nextCmd = s.nextCmd := rfl
@[simp] theorem State.wV_launches (n : VReg) (x : Vec) : (s.wV n x).launches = s.launches := rfl
@[simp] theorem State.wV_nextLaunch (n : VReg) (x : Vec) : (s.wV n x).nextLaunch = s.nextLaunch := rfl
@[simp] theorem State.wV_queues (n : VReg) (x : Vec) : (s.wV n x).queues = s.queues := rfl
@[simp] theorem State.wV_badUnits (n : VReg) (x : Vec) : (s.wV n x).badUnits = s.badUnits := rfl
@[simp] theorem State.wV_devFaults (n : VReg) (x : Vec) : (s.wV n x).devFaults = s.devFaults := rfl
@[simp] theorem State.wV_heldWrites (n : VReg) (x : Vec) : (s.wV n x).heldWrites = s.heldWrites := rfl
@[simp] theorem State.wV_links (n : VReg) (x : Vec) : (s.wV n x).links = s.links := rfl
@[simp] theorem State.wV_armed (n : VReg) (x : Vec) : (s.wV n x).armed = s.armed := rfl
@[simp] theorem State.wV_snapValid (n : VReg) (x : Vec) : (s.wV n x).snapValid = s.snapValid := rfl
@[simp] theorem State.wV_latches (n : VReg) (x : Vec) : (s.wV n x).latches = s.latches := rfl
@[simp] theorem State.wV_latchAt (n : VReg) (x : Vec) : (s.wV n x).latchAt = s.latchAt := rfl
@[simp] theorem State.wV_snapPC (n : VReg) (x : Vec) : (s.wV n x).snapPC = s.snapPC := rfl
@[simp] theorem State.wV_cap (n : VReg) (x : Vec) : (s.wV n x).cap = s.cap := rfl
@[simp] theorem State.wV_mhz (n : VReg) (x : Vec) : (s.wV n x).mhz = s.mhz := rfl
@[simp] theorem State.wV_avg (n : VReg) (x : Vec) : (s.wV n x).avg = s.avg := rfl
@[simp] theorem State.wV_under (n : VReg) (x : Vec) : (s.wV n x).under = s.under := rfl
@[simp] theorem State.wV_sleep (n : VReg) (x : Vec) : (s.wV n x).sleep = s.sleep := rfl
@[simp] theorem State.wV_wakes (n : VReg) (x : Vec) : (s.wV n x).wakes = s.wakes := rfl
@[simp] theorem State.wV_fw (n : VReg) (x : Vec) : (s.wV n x).fw = s.fw := rfl
@[simp] theorem State.wV_fwNext (n : VReg) (x : Vec) : (s.wV n x).fwNext = s.fwNext := rfl
@[simp] theorem State.wV_minSV (n : VReg) (x : Vec) : (s.wV n x).minSV = s.minSV := rfl
@[simp] theorem State.wV_keyDigest (n : VReg) (x : Vec) : (s.wV n x).keyDigest = s.keyDigest := rfl
@[simp] theorem State.wV_grade (n : VReg) (x : Vec) : (s.wV n x).grade = s.grade := rfl
@[simp] theorem State.wV_msi (n : VReg) (x : Vec) : (s.wV n x).msi = s.msi := rfl
@[simp] theorem State.wV_hostHeld (n : VReg) (x : Vec) : (s.wV n x).hostHeld = s.hostHeld := rfl
@[simp] theorem State.wV_hostData (n : VReg) (x : Vec) : (s.wV n x).hostData = s.hostData := rfl
@[simp] theorem State.wV_hostPoison (n : VReg) (x : Vec) : (s.wV n x).hostPoison = s.hostPoison := rfl

/-! ## wP -/

@[simp] theorem State.wP_clk (n : PReg) (x : BitVec 128) : (s.wP n x).clk = s.clk := rfl
@[simp] theorem State.wP_turn (n : PReg) (x : BitVec 128) : (s.wP n x).turn = s.turn := rfl
@[simp] theorem State.wP_agenda (n : PReg) (x : BitVec 128) : (s.wP n x).agenda = s.agenda := rfl
@[simp] theorem State.wP_issue (n : PReg) (x : BitVec 128) : (s.wP n x).issue = s.issue := rfl
@[simp] theorem State.wP_cores (n : PReg) (x : BitVec 128) : (s.wP n x).cores = s.cores := rfl
@[simp] theorem State.wP_dies (n : PReg) (x : BitVec 128) : (s.wP n x).dies = s.dies := rfl
@[simp] theorem State.wP_mem (n : PReg) (x : BitVec 128) : (s.wP n x).mem = s.mem := rfl
@[simp] theorem State.wP_spad (n : PReg) (x : BitVec 128) : (s.wP n x).spad = s.spad := rfl
@[simp] theorem State.wP_tiles (n : PReg) (x : BitVec 128) : (s.wP n x).tiles = s.tiles := rfl
@[simp] theorem State.wP_cbufs (n : PReg) (x : BitVec 128) : (s.wP n x).cbufs = s.cbufs := rfl
@[simp] theorem State.wP_skews (n : PReg) (x : BitVec 128) : (s.wP n x).skews = s.skews := rfl
@[simp] theorem State.wP_masks (n : PReg) (x : BitVec 128) : (s.wP n x).masks = s.masks := rfl
@[simp] theorem State.wP_dir (n : PReg) (x : BitVec 128) : (s.wP n x).dir = s.dir := rfl
@[simp] theorem State.wP_cxl (n : PReg) (x : BitVec 128) : (s.wP n x).cxl = s.cxl := rfl
@[simp] theorem State.wP_backing (n : PReg) (x : BitVec 128) : (s.wP n x).backing = s.backing := rfl
@[simp] theorem State.wP_tlb (n : PReg) (x : BitVec 128) : (s.wP n x).tlb = s.tlb := rfl
@[simp] theorem State.wP_cmds (n : PReg) (x : BitVec 128) : (s.wP n x).cmds = s.cmds := rfl
@[simp] theorem State.wP_nextCmd (n : PReg) (x : BitVec 128) : (s.wP n x).nextCmd = s.nextCmd := rfl
@[simp] theorem State.wP_launches (n : PReg) (x : BitVec 128) : (s.wP n x).launches = s.launches := rfl
@[simp] theorem State.wP_nextLaunch (n : PReg) (x : BitVec 128) : (s.wP n x).nextLaunch = s.nextLaunch := rfl
@[simp] theorem State.wP_queues (n : PReg) (x : BitVec 128) : (s.wP n x).queues = s.queues := rfl
@[simp] theorem State.wP_badUnits (n : PReg) (x : BitVec 128) : (s.wP n x).badUnits = s.badUnits := rfl
@[simp] theorem State.wP_devFaults (n : PReg) (x : BitVec 128) : (s.wP n x).devFaults = s.devFaults := rfl
@[simp] theorem State.wP_heldWrites (n : PReg) (x : BitVec 128) : (s.wP n x).heldWrites = s.heldWrites := rfl
@[simp] theorem State.wP_links (n : PReg) (x : BitVec 128) : (s.wP n x).links = s.links := rfl
@[simp] theorem State.wP_armed (n : PReg) (x : BitVec 128) : (s.wP n x).armed = s.armed := rfl
@[simp] theorem State.wP_snapValid (n : PReg) (x : BitVec 128) : (s.wP n x).snapValid = s.snapValid := rfl
@[simp] theorem State.wP_latches (n : PReg) (x : BitVec 128) : (s.wP n x).latches = s.latches := rfl
@[simp] theorem State.wP_latchAt (n : PReg) (x : BitVec 128) : (s.wP n x).latchAt = s.latchAt := rfl
@[simp] theorem State.wP_snapPC (n : PReg) (x : BitVec 128) : (s.wP n x).snapPC = s.snapPC := rfl
@[simp] theorem State.wP_cap (n : PReg) (x : BitVec 128) : (s.wP n x).cap = s.cap := rfl
@[simp] theorem State.wP_mhz (n : PReg) (x : BitVec 128) : (s.wP n x).mhz = s.mhz := rfl
@[simp] theorem State.wP_avg (n : PReg) (x : BitVec 128) : (s.wP n x).avg = s.avg := rfl
@[simp] theorem State.wP_under (n : PReg) (x : BitVec 128) : (s.wP n x).under = s.under := rfl
@[simp] theorem State.wP_sleep (n : PReg) (x : BitVec 128) : (s.wP n x).sleep = s.sleep := rfl
@[simp] theorem State.wP_wakes (n : PReg) (x : BitVec 128) : (s.wP n x).wakes = s.wakes := rfl
@[simp] theorem State.wP_fw (n : PReg) (x : BitVec 128) : (s.wP n x).fw = s.fw := rfl
@[simp] theorem State.wP_fwNext (n : PReg) (x : BitVec 128) : (s.wP n x).fwNext = s.fwNext := rfl
@[simp] theorem State.wP_minSV (n : PReg) (x : BitVec 128) : (s.wP n x).minSV = s.minSV := rfl
@[simp] theorem State.wP_keyDigest (n : PReg) (x : BitVec 128) : (s.wP n x).keyDigest = s.keyDigest := rfl
@[simp] theorem State.wP_grade (n : PReg) (x : BitVec 128) : (s.wP n x).grade = s.grade := rfl
@[simp] theorem State.wP_msi (n : PReg) (x : BitVec 128) : (s.wP n x).msi = s.msi := rfl
@[simp] theorem State.wP_hostHeld (n : PReg) (x : BitVec 128) : (s.wP n x).hostHeld = s.hostHeld := rfl
@[simp] theorem State.wP_hostData (n : PReg) (x : BitVec 128) : (s.wP n x).hostData = s.hostData := rfl
@[simp] theorem State.wP_hostPoison (n : PReg) (x : BitVec 128) : (s.wP n x).hostPoison = s.hostPoison := rfl

/-! ## wM -/

@[simp] theorem State.wM_clk (n : MReg) (x : BitVec 16) : (s.wM n x).clk = s.clk := rfl
@[simp] theorem State.wM_turn (n : MReg) (x : BitVec 16) : (s.wM n x).turn = s.turn := rfl
@[simp] theorem State.wM_agenda (n : MReg) (x : BitVec 16) : (s.wM n x).agenda = s.agenda := rfl
@[simp] theorem State.wM_issue (n : MReg) (x : BitVec 16) : (s.wM n x).issue = s.issue := rfl
@[simp] theorem State.wM_cores (n : MReg) (x : BitVec 16) : (s.wM n x).cores = s.cores := rfl
@[simp] theorem State.wM_dies (n : MReg) (x : BitVec 16) : (s.wM n x).dies = s.dies := rfl
@[simp] theorem State.wM_mem (n : MReg) (x : BitVec 16) : (s.wM n x).mem = s.mem := rfl
@[simp] theorem State.wM_spad (n : MReg) (x : BitVec 16) : (s.wM n x).spad = s.spad := rfl
@[simp] theorem State.wM_tiles (n : MReg) (x : BitVec 16) : (s.wM n x).tiles = s.tiles := rfl
@[simp] theorem State.wM_cbufs (n : MReg) (x : BitVec 16) : (s.wM n x).cbufs = s.cbufs := rfl
@[simp] theorem State.wM_skews (n : MReg) (x : BitVec 16) : (s.wM n x).skews = s.skews := rfl
@[simp] theorem State.wM_masks (n : MReg) (x : BitVec 16) : (s.wM n x).masks = s.masks := rfl
@[simp] theorem State.wM_dir (n : MReg) (x : BitVec 16) : (s.wM n x).dir = s.dir := rfl
@[simp] theorem State.wM_cxl (n : MReg) (x : BitVec 16) : (s.wM n x).cxl = s.cxl := rfl
@[simp] theorem State.wM_backing (n : MReg) (x : BitVec 16) : (s.wM n x).backing = s.backing := rfl
@[simp] theorem State.wM_tlb (n : MReg) (x : BitVec 16) : (s.wM n x).tlb = s.tlb := rfl
@[simp] theorem State.wM_cmds (n : MReg) (x : BitVec 16) : (s.wM n x).cmds = s.cmds := rfl
@[simp] theorem State.wM_nextCmd (n : MReg) (x : BitVec 16) : (s.wM n x).nextCmd = s.nextCmd := rfl
@[simp] theorem State.wM_launches (n : MReg) (x : BitVec 16) : (s.wM n x).launches = s.launches := rfl
@[simp] theorem State.wM_nextLaunch (n : MReg) (x : BitVec 16) : (s.wM n x).nextLaunch = s.nextLaunch := rfl
@[simp] theorem State.wM_queues (n : MReg) (x : BitVec 16) : (s.wM n x).queues = s.queues := rfl
@[simp] theorem State.wM_badUnits (n : MReg) (x : BitVec 16) : (s.wM n x).badUnits = s.badUnits := rfl
@[simp] theorem State.wM_devFaults (n : MReg) (x : BitVec 16) : (s.wM n x).devFaults = s.devFaults := rfl
@[simp] theorem State.wM_heldWrites (n : MReg) (x : BitVec 16) : (s.wM n x).heldWrites = s.heldWrites := rfl
@[simp] theorem State.wM_links (n : MReg) (x : BitVec 16) : (s.wM n x).links = s.links := rfl
@[simp] theorem State.wM_armed (n : MReg) (x : BitVec 16) : (s.wM n x).armed = s.armed := rfl
@[simp] theorem State.wM_snapValid (n : MReg) (x : BitVec 16) : (s.wM n x).snapValid = s.snapValid := rfl
@[simp] theorem State.wM_latches (n : MReg) (x : BitVec 16) : (s.wM n x).latches = s.latches := rfl
@[simp] theorem State.wM_latchAt (n : MReg) (x : BitVec 16) : (s.wM n x).latchAt = s.latchAt := rfl
@[simp] theorem State.wM_snapPC (n : MReg) (x : BitVec 16) : (s.wM n x).snapPC = s.snapPC := rfl
@[simp] theorem State.wM_cap (n : MReg) (x : BitVec 16) : (s.wM n x).cap = s.cap := rfl
@[simp] theorem State.wM_mhz (n : MReg) (x : BitVec 16) : (s.wM n x).mhz = s.mhz := rfl
@[simp] theorem State.wM_avg (n : MReg) (x : BitVec 16) : (s.wM n x).avg = s.avg := rfl
@[simp] theorem State.wM_under (n : MReg) (x : BitVec 16) : (s.wM n x).under = s.under := rfl
@[simp] theorem State.wM_sleep (n : MReg) (x : BitVec 16) : (s.wM n x).sleep = s.sleep := rfl
@[simp] theorem State.wM_wakes (n : MReg) (x : BitVec 16) : (s.wM n x).wakes = s.wakes := rfl
@[simp] theorem State.wM_fw (n : MReg) (x : BitVec 16) : (s.wM n x).fw = s.fw := rfl
@[simp] theorem State.wM_fwNext (n : MReg) (x : BitVec 16) : (s.wM n x).fwNext = s.fwNext := rfl
@[simp] theorem State.wM_minSV (n : MReg) (x : BitVec 16) : (s.wM n x).minSV = s.minSV := rfl
@[simp] theorem State.wM_keyDigest (n : MReg) (x : BitVec 16) : (s.wM n x).keyDigest = s.keyDigest := rfl
@[simp] theorem State.wM_grade (n : MReg) (x : BitVec 16) : (s.wM n x).grade = s.grade := rfl
@[simp] theorem State.wM_msi (n : MReg) (x : BitVec 16) : (s.wM n x).msi = s.msi := rfl
@[simp] theorem State.wM_hostHeld (n : MReg) (x : BitVec 16) : (s.wM n x).hostHeld = s.hostHeld := rfl
@[simp] theorem State.wM_hostData (n : MReg) (x : BitVec 16) : (s.wM n x).hostData = s.hostData := rfl
@[simp] theorem State.wM_hostPoison (n : MReg) (x : BitVec 16) : (s.wM n x).hostPoison = s.hostPoison := rfl

/-! ## wK -/

@[simp] theorem State.wK_clk (n : KReg) (x : BitVec 2048) : (s.wK n x).clk = s.clk := rfl
@[simp] theorem State.wK_turn (n : KReg) (x : BitVec 2048) : (s.wK n x).turn = s.turn := rfl
@[simp] theorem State.wK_agenda (n : KReg) (x : BitVec 2048) : (s.wK n x).agenda = s.agenda := rfl
@[simp] theorem State.wK_issue (n : KReg) (x : BitVec 2048) : (s.wK n x).issue = s.issue := rfl
@[simp] theorem State.wK_cores (n : KReg) (x : BitVec 2048) : (s.wK n x).cores = s.cores := rfl
@[simp] theorem State.wK_dies (n : KReg) (x : BitVec 2048) : (s.wK n x).dies = s.dies := rfl
@[simp] theorem State.wK_mem (n : KReg) (x : BitVec 2048) : (s.wK n x).mem = s.mem := rfl
@[simp] theorem State.wK_spad (n : KReg) (x : BitVec 2048) : (s.wK n x).spad = s.spad := rfl
@[simp] theorem State.wK_tiles (n : KReg) (x : BitVec 2048) : (s.wK n x).tiles = s.tiles := rfl
@[simp] theorem State.wK_cbufs (n : KReg) (x : BitVec 2048) : (s.wK n x).cbufs = s.cbufs := rfl
@[simp] theorem State.wK_skews (n : KReg) (x : BitVec 2048) : (s.wK n x).skews = s.skews := rfl
@[simp] theorem State.wK_masks (n : KReg) (x : BitVec 2048) : (s.wK n x).masks = s.masks := rfl
@[simp] theorem State.wK_dir (n : KReg) (x : BitVec 2048) : (s.wK n x).dir = s.dir := rfl
@[simp] theorem State.wK_cxl (n : KReg) (x : BitVec 2048) : (s.wK n x).cxl = s.cxl := rfl
@[simp] theorem State.wK_backing (n : KReg) (x : BitVec 2048) : (s.wK n x).backing = s.backing := rfl
@[simp] theorem State.wK_tlb (n : KReg) (x : BitVec 2048) : (s.wK n x).tlb = s.tlb := rfl
@[simp] theorem State.wK_cmds (n : KReg) (x : BitVec 2048) : (s.wK n x).cmds = s.cmds := rfl
@[simp] theorem State.wK_nextCmd (n : KReg) (x : BitVec 2048) : (s.wK n x).nextCmd = s.nextCmd := rfl
@[simp] theorem State.wK_launches (n : KReg) (x : BitVec 2048) : (s.wK n x).launches = s.launches := rfl
@[simp] theorem State.wK_nextLaunch (n : KReg) (x : BitVec 2048) : (s.wK n x).nextLaunch = s.nextLaunch := rfl
@[simp] theorem State.wK_queues (n : KReg) (x : BitVec 2048) : (s.wK n x).queues = s.queues := rfl
@[simp] theorem State.wK_badUnits (n : KReg) (x : BitVec 2048) : (s.wK n x).badUnits = s.badUnits := rfl
@[simp] theorem State.wK_devFaults (n : KReg) (x : BitVec 2048) : (s.wK n x).devFaults = s.devFaults := rfl
@[simp] theorem State.wK_heldWrites (n : KReg) (x : BitVec 2048) : (s.wK n x).heldWrites = s.heldWrites := rfl
@[simp] theorem State.wK_links (n : KReg) (x : BitVec 2048) : (s.wK n x).links = s.links := rfl
@[simp] theorem State.wK_armed (n : KReg) (x : BitVec 2048) : (s.wK n x).armed = s.armed := rfl
@[simp] theorem State.wK_snapValid (n : KReg) (x : BitVec 2048) : (s.wK n x).snapValid = s.snapValid := rfl
@[simp] theorem State.wK_latches (n : KReg) (x : BitVec 2048) : (s.wK n x).latches = s.latches := rfl
@[simp] theorem State.wK_latchAt (n : KReg) (x : BitVec 2048) : (s.wK n x).latchAt = s.latchAt := rfl
@[simp] theorem State.wK_snapPC (n : KReg) (x : BitVec 2048) : (s.wK n x).snapPC = s.snapPC := rfl
@[simp] theorem State.wK_cap (n : KReg) (x : BitVec 2048) : (s.wK n x).cap = s.cap := rfl
@[simp] theorem State.wK_mhz (n : KReg) (x : BitVec 2048) : (s.wK n x).mhz = s.mhz := rfl
@[simp] theorem State.wK_avg (n : KReg) (x : BitVec 2048) : (s.wK n x).avg = s.avg := rfl
@[simp] theorem State.wK_under (n : KReg) (x : BitVec 2048) : (s.wK n x).under = s.under := rfl
@[simp] theorem State.wK_sleep (n : KReg) (x : BitVec 2048) : (s.wK n x).sleep = s.sleep := rfl
@[simp] theorem State.wK_wakes (n : KReg) (x : BitVec 2048) : (s.wK n x).wakes = s.wakes := rfl
@[simp] theorem State.wK_fw (n : KReg) (x : BitVec 2048) : (s.wK n x).fw = s.fw := rfl
@[simp] theorem State.wK_fwNext (n : KReg) (x : BitVec 2048) : (s.wK n x).fwNext = s.fwNext := rfl
@[simp] theorem State.wK_minSV (n : KReg) (x : BitVec 2048) : (s.wK n x).minSV = s.minSV := rfl
@[simp] theorem State.wK_keyDigest (n : KReg) (x : BitVec 2048) : (s.wK n x).keyDigest = s.keyDigest := rfl
@[simp] theorem State.wK_grade (n : KReg) (x : BitVec 2048) : (s.wK n x).grade = s.grade := rfl
@[simp] theorem State.wK_msi (n : KReg) (x : BitVec 2048) : (s.wK n x).msi = s.msi := rfl
@[simp] theorem State.wK_hostHeld (n : KReg) (x : BitVec 2048) : (s.wK n x).hostHeld = s.hostHeld := rfl
@[simp] theorem State.wK_hostData (n : KReg) (x : BitVec 2048) : (s.wK n x).hostData = s.hostData := rfl
@[simp] theorem State.wK_hostPoison (n : KReg) (x : BitVec 2048) : (s.wK n x).hostPoison = s.hostPoison := rfl

/-! ## raiseFlags -/

@[simp] theorem State.raiseFlags_clk (f : Flg) : (s.raiseFlags f).clk = s.clk := rfl
@[simp] theorem State.raiseFlags_turn (f : Flg) : (s.raiseFlags f).turn = s.turn := rfl
@[simp] theorem State.raiseFlags_agenda (f : Flg) : (s.raiseFlags f).agenda = s.agenda := rfl
@[simp] theorem State.raiseFlags_cores (f : Flg) : (s.raiseFlags f).cores = s.cores := rfl
@[simp] theorem State.raiseFlags_dies (f : Flg) : (s.raiseFlags f).dies = s.dies := rfl
@[simp] theorem State.raiseFlags_mem (f : Flg) : (s.raiseFlags f).mem = s.mem := rfl
@[simp] theorem State.raiseFlags_spad (f : Flg) : (s.raiseFlags f).spad = s.spad := rfl
@[simp] theorem State.raiseFlags_tiles (f : Flg) : (s.raiseFlags f).tiles = s.tiles := rfl
@[simp] theorem State.raiseFlags_cbufs (f : Flg) : (s.raiseFlags f).cbufs = s.cbufs := rfl
@[simp] theorem State.raiseFlags_skews (f : Flg) : (s.raiseFlags f).skews = s.skews := rfl
@[simp] theorem State.raiseFlags_masks (f : Flg) : (s.raiseFlags f).masks = s.masks := rfl
@[simp] theorem State.raiseFlags_dir (f : Flg) : (s.raiseFlags f).dir = s.dir := rfl
@[simp] theorem State.raiseFlags_cxl (f : Flg) : (s.raiseFlags f).cxl = s.cxl := rfl
@[simp] theorem State.raiseFlags_backing (f : Flg) : (s.raiseFlags f).backing = s.backing := rfl
@[simp] theorem State.raiseFlags_tlb (f : Flg) : (s.raiseFlags f).tlb = s.tlb := rfl
@[simp] theorem State.raiseFlags_cmds (f : Flg) : (s.raiseFlags f).cmds = s.cmds := rfl
@[simp] theorem State.raiseFlags_nextCmd (f : Flg) : (s.raiseFlags f).nextCmd = s.nextCmd := rfl
@[simp] theorem State.raiseFlags_launches (f : Flg) : (s.raiseFlags f).launches = s.launches := rfl
@[simp] theorem State.raiseFlags_nextLaunch (f : Flg) : (s.raiseFlags f).nextLaunch = s.nextLaunch := rfl
@[simp] theorem State.raiseFlags_queues (f : Flg) : (s.raiseFlags f).queues = s.queues := rfl
@[simp] theorem State.raiseFlags_badUnits (f : Flg) : (s.raiseFlags f).badUnits = s.badUnits := rfl
@[simp] theorem State.raiseFlags_devFaults (f : Flg) : (s.raiseFlags f).devFaults = s.devFaults := rfl
@[simp] theorem State.raiseFlags_heldWrites (f : Flg) : (s.raiseFlags f).heldWrites = s.heldWrites := rfl
@[simp] theorem State.raiseFlags_links (f : Flg) : (s.raiseFlags f).links = s.links := rfl
@[simp] theorem State.raiseFlags_armed (f : Flg) : (s.raiseFlags f).armed = s.armed := rfl
@[simp] theorem State.raiseFlags_snapValid (f : Flg) : (s.raiseFlags f).snapValid = s.snapValid := rfl
@[simp] theorem State.raiseFlags_latches (f : Flg) : (s.raiseFlags f).latches = s.latches := rfl
@[simp] theorem State.raiseFlags_latchAt (f : Flg) : (s.raiseFlags f).latchAt = s.latchAt := rfl
@[simp] theorem State.raiseFlags_snapPC (f : Flg) : (s.raiseFlags f).snapPC = s.snapPC := rfl
@[simp] theorem State.raiseFlags_cap (f : Flg) : (s.raiseFlags f).cap = s.cap := rfl
@[simp] theorem State.raiseFlags_mhz (f : Flg) : (s.raiseFlags f).mhz = s.mhz := rfl
@[simp] theorem State.raiseFlags_avg (f : Flg) : (s.raiseFlags f).avg = s.avg := rfl
@[simp] theorem State.raiseFlags_under (f : Flg) : (s.raiseFlags f).under = s.under := rfl
@[simp] theorem State.raiseFlags_sleep (f : Flg) : (s.raiseFlags f).sleep = s.sleep := rfl
@[simp] theorem State.raiseFlags_wakes (f : Flg) : (s.raiseFlags f).wakes = s.wakes := rfl
@[simp] theorem State.raiseFlags_fw (f : Flg) : (s.raiseFlags f).fw = s.fw := rfl
@[simp] theorem State.raiseFlags_fwNext (f : Flg) : (s.raiseFlags f).fwNext = s.fwNext := rfl
@[simp] theorem State.raiseFlags_minSV (f : Flg) : (s.raiseFlags f).minSV = s.minSV := rfl
@[simp] theorem State.raiseFlags_keyDigest (f : Flg) : (s.raiseFlags f).keyDigest = s.keyDigest := rfl
@[simp] theorem State.raiseFlags_grade (f : Flg) : (s.raiseFlags f).grade = s.grade := rfl
@[simp] theorem State.raiseFlags_msi (f : Flg) : (s.raiseFlags f).msi = s.msi := rfl
@[simp] theorem State.raiseFlags_hostHeld (f : Flg) : (s.raiseFlags f).hostHeld = s.hostHeld := rfl
@[simp] theorem State.raiseFlags_hostData (f : Flg) : (s.raiseFlags f).hostData = s.hostData := rfl
@[simp] theorem State.raiseFlags_hostPoison (f : Flg) : (s.raiseFlags f).hostPoison = s.hostPoison := rfl

/-! ## The part written, and the others -/

@[simp] theorem State.core_updCore_self (n : Nat) (f : CoreSt → CoreSt) : (s.updCore n f).core n = f (s.core n) := sget_sput_self ..
theorem State.core_updCore_ne {n m : Nat} (f : CoreSt → CoreSt) (h : m ≠ n) : (s.updCore n f).core m = s.core m := sget_sput_ne _ _ _ h
@[simp] theorem State.die_updCore (n m : Nat) (f : CoreSt → CoreSt) : (s.updCore n f).die m = s.die m := rfl
@[simp] theorem State.launchRec_updCore (n m : Nat) (f : CoreSt → CoreSt) : (s.updCore n f).launchRec m = s.launchRec m := rfl
@[simp] theorem State.queue_updCore (n m : Nat) (f : CoreSt → CoreSt) : (s.updCore n f).queue m = s.queue m := rfl
@[simp] theorem State.tile_updCore (n m : Nat) (f : CoreSt → CoreSt) : (s.updCore n f).tile m = s.tile m := rfl
@[simp] theorem State.cbuf_updCore (n m : Nat) (f : CoreSt → CoreSt) : (s.updCore n f).cbuf m = s.cbuf m := rfl
@[simp] theorem State.ctx_updCore (n m : Nat) (f : CoreSt → CoreSt) : (s.updCore n f).ctx m = s.ctx m := rfl
@[simp] theorem State.die_updDie_self (n : Nat) (f : DieSt → DieSt) : (s.updDie n f).die n = f (s.die n) := sget_sput_self ..
theorem State.die_updDie_ne {n m : Nat} (f : DieSt → DieSt) (h : m ≠ n) : (s.updDie n f).die m = s.die m := sget_sput_ne _ _ _ h
@[simp] theorem State.core_updDie (n m : Nat) (f : DieSt → DieSt) : (s.updDie n f).core m = s.core m := rfl
@[simp] theorem State.launchRec_updDie (n m : Nat) (f : DieSt → DieSt) : (s.updDie n f).launchRec m = s.launchRec m := rfl
@[simp] theorem State.queue_updDie (n m : Nat) (f : DieSt → DieSt) : (s.updDie n f).queue m = s.queue m := rfl
@[simp] theorem State.tile_updDie (n m : Nat) (f : DieSt → DieSt) : (s.updDie n f).tile m = s.tile m := rfl
@[simp] theorem State.cbuf_updDie (n m : Nat) (f : DieSt → DieSt) : (s.updDie n f).cbuf m = s.cbuf m := rfl
@[simp] theorem State.ctx_updDie (n m : Nat) (f : DieSt → DieSt) : (s.updDie n f).ctx m = s.ctx m := rfl
@[simp] theorem State.launchRec_updLaunch_self (n : Nat) (f : Launch → Launch) : (s.updLaunch n f).launchRec n = f (s.launchRec n) := sget_sput_self ..
theorem State.launchRec_updLaunch_ne {n m : Nat} (f : Launch → Launch) (h : m ≠ n) : (s.updLaunch n f).launchRec m = s.launchRec m := sget_sput_ne _ _ _ h
@[simp] theorem State.core_updLaunch (n m : Nat) (f : Launch → Launch) : (s.updLaunch n f).core m = s.core m := rfl
@[simp] theorem State.die_updLaunch (n m : Nat) (f : Launch → Launch) : (s.updLaunch n f).die m = s.die m := rfl
@[simp] theorem State.queue_updLaunch (n m : Nat) (f : Launch → Launch) : (s.updLaunch n f).queue m = s.queue m := rfl
@[simp] theorem State.tile_updLaunch (n m : Nat) (f : Launch → Launch) : (s.updLaunch n f).tile m = s.tile m := rfl
@[simp] theorem State.cbuf_updLaunch (n m : Nat) (f : Launch → Launch) : (s.updLaunch n f).cbuf m = s.cbuf m := rfl
@[simp] theorem State.ctx_updLaunch (n m : Nat) (f : Launch → Launch) : (s.updLaunch n f).ctx m = s.ctx m := rfl
@[simp] theorem State.queue_updQueue_self (n : Nat) (f : Queue → Queue) : (s.updQueue n f).queue n = f (s.queue n) := sget_sput_self ..
theorem State.queue_updQueue_ne {n m : Nat} (f : Queue → Queue) (h : m ≠ n) : (s.updQueue n f).queue m = s.queue m := sget_sput_ne _ _ _ h
@[simp] theorem State.core_updQueue (n m : Nat) (f : Queue → Queue) : (s.updQueue n f).core m = s.core m := rfl
@[simp] theorem State.die_updQueue (n m : Nat) (f : Queue → Queue) : (s.updQueue n f).die m = s.die m := rfl
@[simp] theorem State.launchRec_updQueue (n m : Nat) (f : Queue → Queue) : (s.updQueue n f).launchRec m = s.launchRec m := rfl
@[simp] theorem State.tile_updQueue (n m : Nat) (f : Queue → Queue) : (s.updQueue n f).tile m = s.tile m := rfl
@[simp] theorem State.cbuf_updQueue (n m : Nat) (f : Queue → Queue) : (s.updQueue n f).cbuf m = s.cbuf m := rfl
@[simp] theorem State.ctx_updQueue (n m : Nat) (f : Queue → Queue) : (s.updQueue n f).ctx m = s.ctx m := rfl
@[simp] theorem State.tile_updTile_self (n : Nat) (f : Tile → Tile) : (s.updTile n f).tile n = f (s.tile n) := sget_sput_self ..
theorem State.tile_updTile_ne {n m : Nat} (f : Tile → Tile) (h : m ≠ n) : (s.updTile n f).tile m = s.tile m := sget_sput_ne _ _ _ h
@[simp] theorem State.core_updTile (n m : Nat) (f : Tile → Tile) : (s.updTile n f).core m = s.core m := rfl
@[simp] theorem State.die_updTile (n m : Nat) (f : Tile → Tile) : (s.updTile n f).die m = s.die m := rfl
@[simp] theorem State.launchRec_updTile (n m : Nat) (f : Tile → Tile) : (s.updTile n f).launchRec m = s.launchRec m := rfl
@[simp] theorem State.queue_updTile (n m : Nat) (f : Tile → Tile) : (s.updTile n f).queue m = s.queue m := rfl
@[simp] theorem State.cbuf_updTile (n m : Nat) (f : Tile → Tile) : (s.updTile n f).cbuf m = s.cbuf m := rfl
@[simp] theorem State.ctx_updTile (n m : Nat) (f : Tile → Tile) : (s.updTile n f).ctx m = s.ctx m := rfl
@[simp] theorem State.cbuf_updCbuf_self (n : Nat) (f : CBuf → CBuf) : (s.updCbuf n f).cbuf n = f (s.cbuf n) := sget_sput_self ..
theorem State.cbuf_updCbuf_ne {n m : Nat} (f : CBuf → CBuf) (h : m ≠ n) : (s.updCbuf n f).cbuf m = s.cbuf m := sget_sput_ne _ _ _ h
@[simp] theorem State.core_updCbuf (n m : Nat) (f : CBuf → CBuf) : (s.updCbuf n f).core m = s.core m := rfl
@[simp] theorem State.die_updCbuf (n m : Nat) (f : CBuf → CBuf) : (s.updCbuf n f).die m = s.die m := rfl
@[simp] theorem State.launchRec_updCbuf (n m : Nat) (f : CBuf → CBuf) : (s.updCbuf n f).launchRec m = s.launchRec m := rfl
@[simp] theorem State.queue_updCbuf (n m : Nat) (f : CBuf → CBuf) : (s.updCbuf n f).queue m = s.queue m := rfl
@[simp] theorem State.tile_updCbuf (n m : Nat) (f : CBuf → CBuf) : (s.updCbuf n f).tile m = s.tile m := rfl
@[simp] theorem State.ctx_updCbuf (n m : Nat) (f : CBuf → CBuf) : (s.updCbuf n f).ctx m = s.ctx m := rfl
@[simp] theorem State.ctx_updCtx_self (n : Nat) (f : Ctx → Ctx) : (s.updCtx n f).ctx n = f (s.ctx n) := sget_sput_self ..
theorem State.ctx_updCtx_ne {n m : Nat} (f : Ctx → Ctx) (h : m ≠ n) : (s.updCtx n f).ctx m = s.ctx m := sget_sput_ne _ _ _ h
@[simp] theorem State.core_updCtx (n m : Nat) (f : Ctx → Ctx) : (s.updCtx n f).core m = s.core m := rfl
@[simp] theorem State.die_updCtx (n m : Nat) (f : Ctx → Ctx) : (s.updCtx n f).die m = s.die m := rfl
@[simp] theorem State.launchRec_updCtx (n m : Nat) (f : Ctx → Ctx) : (s.updCtx n f).launchRec m = s.launchRec m := rfl
@[simp] theorem State.queue_updCtx (n m : Nat) (f : Ctx → Ctx) : (s.updCtx n f).queue m = s.queue m := rfl
@[simp] theorem State.tile_updCtx (n m : Nat) (f : Ctx → Ctx) : (s.updCtx n f).tile m = s.tile m := rfl
@[simp] theorem State.cbuf_updCtx (n m : Nat) (f : Ctx → Ctx) : (s.updCtx n f).cbuf m = s.cbuf m := rfl
@[simp] theorem State.ctx_setCtx_self (n : Nat) (c : Ctx) : (s.setCtx n c).ctx n = c := sget_sput_self ..
theorem State.ctx_setCtx_ne {n m : Nat} (c : Ctx) (h : m ≠ n) : (s.setCtx n c).ctx m = s.ctx m := sget_sput_ne _ _ _ h

/-! ## The context in issue -/

@[simp] theorem State.upd_cur (f : Ctx → Ctx) : (s.upd f).cur = s.cur := rfl
@[simp] theorem State.upd_lat (f : Ctx → Ctx) : (s.upd f).lat = s.lat := rfl
@[simp] theorem State.updRegs_cur (f : Regs → Regs) : (s.updRegs f).cur = s.cur := rfl
@[simp] theorem State.updRegs_lat (f : Regs → Regs) : (s.updRegs f).lat = s.lat := rfl
@[simp] theorem State.updCore_cur (n : Nat) (f : CoreSt → CoreSt) : (s.updCore n f).cur = s.cur := rfl
@[simp] theorem State.updCore_lat (n : Nat) (f : CoreSt → CoreSt) : (s.updCore n f).lat = s.lat := rfl
@[simp] theorem State.updDie_cur (n : Nat) (f : DieSt → DieSt) : (s.updDie n f).cur = s.cur := rfl
@[simp] theorem State.updDie_lat (n : Nat) (f : DieSt → DieSt) : (s.updDie n f).lat = s.lat := rfl
@[simp] theorem State.updLaunch_cur (n : Nat) (f : Launch → Launch) : (s.updLaunch n f).cur = s.cur := rfl
@[simp] theorem State.updLaunch_lat (n : Nat) (f : Launch → Launch) : (s.updLaunch n f).lat = s.lat := rfl
@[simp] theorem State.updQueue_cur (n : Nat) (f : Queue → Queue) : (s.updQueue n f).cur = s.cur := rfl
@[simp] theorem State.updQueue_lat (n : Nat) (f : Queue → Queue) : (s.updQueue n f).lat = s.lat := rfl
@[simp] theorem State.updTile_cur (n : Nat) (f : Tile → Tile) : (s.updTile n f).cur = s.cur := rfl
@[simp] theorem State.updTile_lat (n : Nat) (f : Tile → Tile) : (s.updTile n f).lat = s.lat := rfl
@[simp] theorem State.updCbuf_cur (n : Nat) (f : CBuf → CBuf) : (s.updCbuf n f).cur = s.cur := rfl
@[simp] theorem State.updCbuf_lat (n : Nat) (f : CBuf → CBuf) : (s.updCbuf n f).lat = s.lat := rfl
@[simp] theorem State.wS_cur (n : SReg) (x : Word64) : (s.wS n x).cur = s.cur := rfl
@[simp] theorem State.wS_lat (n : SReg) (x : Word64) : (s.wS n x).lat = s.lat := rfl
@[simp] theorem State.wQ_cur (n : QReg) (x : VA) : (s.wQ n x).cur = s.cur := rfl
@[simp] theorem State.wQ_lat (n : QReg) (x : VA) : (s.wQ n x).lat = s.lat := rfl
@[simp] theorem State.wV_cur (n : VReg) (x : Vec) : (s.wV n x).cur = s.cur := rfl
@[simp] theorem State.wV_lat (n : VReg) (x : Vec) : (s.wV n x).lat = s.lat := rfl
@[simp] theorem State.wP_cur (n : PReg) (x : BitVec 128) : (s.wP n x).cur = s.cur := rfl
@[simp] theorem State.wP_lat (n : PReg) (x : BitVec 128) : (s.wP n x).lat = s.lat := rfl
@[simp] theorem State.wM_cur (n : MReg) (x : BitVec 16) : (s.wM n x).cur = s.cur := rfl
@[simp] theorem State.wM_lat (n : MReg) (x : BitVec 16) : (s.wM n x).lat = s.lat := rfl
@[simp] theorem State.wK_cur (n : KReg) (x : BitVec 2048) : (s.wK n x).cur = s.cur := rfl
@[simp] theorem State.wK_lat (n : KReg) (x : BitVec 2048) : (s.wK n x).lat = s.lat := rfl
@[simp] theorem State.setCtx_cur (n : Nat) (c : Ctx) : (s.setCtx n c).cur = s.cur := rfl
@[simp] theorem State.setCtx_lat (n : Nat) (c : Ctx) : (s.setCtx n c).lat = s.lat := rfl
@[simp] theorem State.updCtx_cur (n : Nat) (f : Ctx → Ctx) : (s.updCtx n f).cur = s.cur := rfl
@[simp] theorem State.updCtx_lat (n : Nat) (f : Ctx → Ctx) : (s.updCtx n f).lat = s.lat := rfl
@[simp] theorem State.raiseFlags_cur (f : Flg) : (s.raiseFlags f).cur = s.cur := rfl
@[simp] theorem State.raiseFlags_lat (f : Flg) : (s.raiseFlags f).lat = s.lat := rfl
/-- The context in issue after an update of it, and every other context. -/
@[simp] theorem State.cx_upd (f : Ctx → Ctx) : (s.upd f).cx = f s.cx := sget_sput_self ..
theorem State.ctx_upd_ne (f : Ctx → Ctx) {n : Nat} (h : n ≠ s.cur) : (s.upd f).ctx n = s.ctx n := sget_sput_ne _ _ _ h
@[simp] theorem State.cx_updRegs (f : Regs → Regs) : (s.updRegs f).cx = { s.cx with regs := f s.cx.regs } := sget_sput_self ..
theorem State.ctx_updRegs_ne (f : Regs → Regs) {n : Nat} (h : n ≠ s.cur) : (s.updRegs f).ctx n = s.ctx n := sget_sput_ne _ _ _ h
@[simp] theorem State.cx_wS (n : SReg) (x : Word64) : (s.wS n x).cx = { s.cx with regs := s.cx.regs.ws n x } := sget_sput_self ..
theorem State.ctx_wS_ne (n : SReg) (x : Word64) {m : Nat} (h : m ≠ s.cur) : (s.wS n x).ctx m = s.ctx m := sget_sput_ne _ _ _ h
@[simp] theorem State.cx_wQ (n : QReg) (x : VA) : (s.wQ n x).cx = { s.cx with regs := s.cx.regs.wq n x } := sget_sput_self ..
theorem State.ctx_wQ_ne (n : QReg) (x : VA) {m : Nat} (h : m ≠ s.cur) : (s.wQ n x).ctx m = s.ctx m := sget_sput_ne _ _ _ h
@[simp] theorem State.cx_wV (n : VReg) (x : Vec) : (s.wV n x).cx = { s.cx with regs := s.cx.regs.wv n x } := sget_sput_self ..
theorem State.ctx_wV_ne (n : VReg) (x : Vec) {m : Nat} (h : m ≠ s.cur) : (s.wV n x).ctx m = s.ctx m := sget_sput_ne _ _ _ h
@[simp] theorem State.cx_wP (n : PReg) (x : BitVec 128) : (s.wP n x).cx = { s.cx with regs := s.cx.regs.wp n x } := sget_sput_self ..
theorem State.ctx_wP_ne (n : PReg) (x : BitVec 128) {m : Nat} (h : m ≠ s.cur) : (s.wP n x).ctx m = s.ctx m := sget_sput_ne _ _ _ h
@[simp] theorem State.cx_wM (n : MReg) (x : BitVec 16) : (s.wM n x).cx = { s.cx with regs := s.cx.regs.wm n x } := sget_sput_self ..
theorem State.ctx_wM_ne (n : MReg) (x : BitVec 16) {m : Nat} (h : m ≠ s.cur) : (s.wM n x).ctx m = s.ctx m := sget_sput_ne _ _ _ h
@[simp] theorem State.cx_wK (n : KReg) (x : BitVec 2048) : (s.wK n x).cx = { s.cx with regs := s.cx.regs.wk n x } := sget_sput_self ..
theorem State.ctx_wK_ne (n : KReg) (x : BitVec 2048) {m : Nat} (h : m ≠ s.cur) : (s.wK n x).ctx m = s.ctx m := sget_sput_ne _ _ _ h
@[simp] theorem State.cx_raiseFlags (f : Flg) :
    (s.raiseFlags f).cx = { s.cx with regs := { s.cx.regs with fstat := s.cx.regs.fstat ||| f.setWidth 64 } } := sget_sput_self ..
theorem State.ctx_raiseFlags_ne (f : Flg) {m : Nat} (h : m ≠ s.cur) : (s.raiseFlags f).ctx m = s.ctx m := sget_sput_ne _ _ _ h

/-! ## Registers of a bank -/

variable (r : Regs)

@[simp] theorem Regs.gs_ws_self (n : SReg) (x : Word64) : (r.ws n x).gs n = x := sget_sput_self ..
theorem Regs.gs_ws_ne {n m : SReg} (x : Word64) (h : m ≠ n) : (r.ws n x).gs m = r.gs m :=
  sget_sput_ne _ _ _ fun e => h (BitVec.eq_of_toNat_eq e)
@[simp] theorem Regs.gq_wq_self (n : QReg) (x : VA) : (r.wq n x).gq n = x := sget_sput_self ..
theorem Regs.gq_wq_ne {n m : QReg} (x : VA) (h : m ≠ n) : (r.wq n x).gq m = r.gq m :=
  sget_sput_ne _ _ _ fun e => h (BitVec.eq_of_toNat_eq e)
@[simp] theorem Regs.gv_wv_self (n : VReg) (x : Vec) : (r.wv n x).gv n = x := sget_sput_self ..
theorem Regs.gv_wv_ne {n m : VReg} (x : Vec) (h : m ≠ n) : (r.wv n x).gv m = r.gv m :=
  sget_sput_ne _ _ _ fun e => h (BitVec.eq_of_toNat_eq e)
@[simp] theorem Regs.gp_wp_self (n : PReg) (x : BitVec 128) : (r.wp n x).gp n = x := sget_sput_self ..
theorem Regs.gp_wp_ne {n m : PReg} (x : BitVec 128) (h : m ≠ n) : (r.wp n x).gp m = r.gp m :=
  sget_sput_ne _ _ _ fun e => h (BitVec.eq_of_toNat_eq e)
@[simp] theorem Regs.gm_wm_self (n : MReg) (x : BitVec 16) : (r.wm n x).gm n = x := sget_sput_self ..
theorem Regs.gm_wm_ne {n m : MReg} (x : BitVec 16) (h : m ≠ n) : (r.wm n x).gm m = r.gm m :=
  sget_sput_ne _ _ _ fun e => h (BitVec.eq_of_toNat_eq e)
@[simp] theorem Regs.gk_wk_self (n : KReg) (x : BitVec 2048) : (r.wk n x).gk n = x := sget_sput_self ..
theorem Regs.gk_wk_ne {n m : KReg} (x : BitVec 2048) (h : m ≠ n) : (r.wk n x).gk m = r.gk m :=
  sget_sput_ne _ _ _ fun e => h (BitVec.eq_of_toNat_eq e)

end Sys2Proof.Machine
end

