-- ==== Sys2Proof/Laws/Memory.lean ====
section
/-! SUPPORT. Every operation that writes a byte of memory or of a scratchpad keeps the canonical form of both. All other
operations write the two only through these. -/

namespace Sys2Proof.Machine

theorem memWf_congr {s t : State} (hm : t.mem = s.mem) (hs : t.spad = s.spad) (h : s.memWf) : t.memWf := by
  unfold State.memWf at *
  rw [hm, hs]
  exact h

theorem memWf_of_mem {s t : State} (hm : Memory.wf s.mem → Memory.wf t.mem) (hs : t.spad = s.spad) (h : s.memWf) : t.memWf :=
  ⟨hm h.1, hs ▸ h.2⟩

/-- A fold of operations that keep the form keeps it. -/
theorem foldl_memWf {β : Type} {f : State → β → State} (hf : ∀ s x, s.memWf → (f s x).memWf) (xs : List β) {s : State}
    (h : s.memWf) : (xs.foldl f s).memWf := by
  induction xs generalizing s with
  | nil => exact h
  | cons x xs ih => exact ih (hf s x h)

theorem reset_memWf : State.reset.memWf := ⟨rfl, rfl⟩

theorem devWrite_memWf (cs : List Host.Cell) {s : State} (h : s.memWf) : (s.devWrite cs).memWf := by
  refine memWf_of_mem (fun hm => ?_) ?_ h
  · unfold State.devWrite
    dsimp only
    split <;> exact wrCells_wf cs hm
  · unfold State.devWrite
    dsimp only
    split <;> rfl

theorem homeMerge_memWf (l : Nat) (bs : List (Nat × Byte)) {s : State} (h : s.memWf) : (s.homeMerge l bs).memWf := by
  unfold State.homeMerge
  split
  · exact memWf_congr rfl rfl h
  · exact devWrite_memWf _ h

theorem cxlFill_memWf (l : Nat) {s : State} (h : s.memWf) : (s.cxlFill l).memWf := by
  unfold State.cxlFill
  split
  · exact memWf_congr rfl rfl h
  · exact h

theorem cxlClean_memWf (l : Nat) {s : State} (h : s.memWf) : (s.cxlClean l).memWf := by
  unfold State.cxlClean
  split
  · exact memWf_congr rfl rfl (devWrite_memWf _ h)
  · exact h

theorem cxlDrop_memWf (l : Nat) {s : State} (h : s.memWf) : (s.cxlDrop l).memWf := memWf_congr rfl rfl (cxlClean_memWf l h)

theorem updCore_memWf (c : Nat) (f : CoreSt → CoreSt) {s : State} (h : s.memWf) : (s.updCore c f).memWf := memWf_congr rfl rfl h
theorem updCtx_memWf (n : Nat) (f : Ctx → Ctx) {s : State} (h : s.memWf) : (s.updCtx n f).memWf := memWf_congr rfl rfl h
theorem updDie_memWf (d : Nat) (f : DieSt → DieSt) {s : State} (h : s.memWf) : (s.updDie d f).memWf := memWf_congr rfl rfl h

theorem pairs_wf {g : Nat → Nat} (bs : List (Nat × Byte)) {m : List Host.Cell} (h : Memory.wf m) :
    Memory.wf (bs.foldl (fun (m : List Host.Cell) (b : Nat × Byte) => wrByte m (g b.1) b.2) m) := by
  induction bs generalizing m with
  | nil => exact h
  | cons b bs ih => exact ih (wrByte_wf _ _ h)

theorem spadWrite_memWf (o : Option Nat) (k : Nat) (bs : List (Nat × Byte)) {s : State} (h : s.memWf) :
    (s.spadWrite o k bs).memWf := by
  unfold State.spadWrite
  have : ({ s with
    spad := bs.foldl (fun (m : List Host.Cell) (b : Nat × Byte) => wrByte m (s.spadKey k b.1) b.2) s.spad,
    ctxs := s.ctxs.map fun (e : Nat × Ctx) =>
      if some e.1 != o && e.2.watch.any (fun w => w.spad && w.offs.any fun x => (bs.map fun b => s.spadKey k b.1).contains x)
      then (e.1, { e.2 with conflict := true }) else e } : State).memWf := ⟨h.1, pairs_wf bs h.2⟩
  dsimp only
  split
  · exact foldl_memWf (fun s i hs => updCore_memWf _ _ hs) _ this
  · exact this

theorem spadPut_memWf (o : Option Nat) (k : Nat) (bs : List (Nat × Byte)) {s : State} (h : s.memWf) :
    (s.spadPut o k bs).memWf :=
  foldl_memWf (fun _ _ hs => spadWrite_memWf o k _ hs) _ h

theorem putBarrier_memWf (o : Option Nat) (k off : Nat) (b : Barrier) {s : State} (h : s.memWf) : (s.putBarrier o k off b).memWf :=
  spadWrite_memWf o k _ h

theorem saveBlock_memWf (n : Nat) {s : State} (h : s.memWf) : (s.saveBlock n).memWf := by
  unfold State.saveBlock
  generalize saveBytes (s.ctx n) = bs
  exact ⟨wrBytes_wf _ _ h.1, h.2⟩

theorem preemptNow_memWf (n : Nat) {s : State} (h : s.memWf) : (s.preemptNow n).memWf :=
  saveBlock_memWf n (updCtx_memWf n _ h)

theorem clearReserved_wf {m : List Host.Cell} (h : Memory.wf m) : Memory.wf (clearReserved m) := filter_wf _ h

theorem moveCells_wf (src dst n : Nat) {m : List Host.Cell} (h : Memory.wf m) : Memory.wf (moveCells m src dst n) := by
  unfold moveCells
  generalize m.filter (fun (c : Host.Cell) => decide (src ≤ c.1) && decide (c.1 < src + n)) = here
  have hm := filter_wf (fun (c : Host.Cell) => !(decide (dst ≤ c.1) && decide (c.1 < dst + n))) h
  revert hm
  generalize m.filter (fun (c : Host.Cell) => !(decide (dst ≤ c.1) && decide (c.1 < dst + n))) = m'
  intro hm
  dsimp only
  induction here generalizing m' with
  | nil => exact hm
  | cons c cs ih => exact ih _ (wrByte_wf _ _ hm)

theorem asidStore_memWf (d : Nat) (v : Word64) {s : State} (h : s.memWf) : (s.asidStore d v).memWf :=
  memWf_of_mem (fun hm => wrBytes_wf _ _ hm) rfl h

theorem eachDie_memWf (f : Nat → DieSt → DieSt) {s : State} (h : s.memWf) : (s.eachDie f).memWf :=
  foldl_memWf (fun _ _ hs => updDie_memWf _ _ hs) _ h

theorem unpowered_memWf {s : State} (h : s.memWf) : s.unpowered.memWf := ⟨h.1, rfl⟩

end Sys2Proof.Machine
end

