-- ==== Sys2Proof/Laws/Ops.lean ====
section
/-! SUPPORT. What the shared operations do: elements of a vector, the gate and the scratchpad, checkpoints and traps, a turn that
comes to issue. -/

namespace Sys2Proof.Machine

/-! ## Elements of a vector -/

theorem lane_eq (w : Nat) (v : Vec) (i : Nat) : lane w v i = v.toNat / 2 ^ (8 * w * i) % 2 ^ (8 * w) := by
  simp [lane, Nat.shiftRight_eq_div_pow]
theorem lane_lt (w : Nat) (v : Vec) (i : Nat) : lane w v i < 2 ^ (8 * w) := by
  rw [lane_eq]
  exact Nat.mod_lt _ (Nat.two_pow_pos _)
theorem packed_element (w : Nat) (xs : List Nat) (i : Nat) :
    xs.foldr (fun x acc => x % 2 ^ (8 * w) + 2 ^ (8 * w) * acc) 0 / 2 ^ (8 * w * i) % 2 ^ (8 * w) = xs.getD i 0 % 2 ^ (8 * w) := by
  induction xs generalizing i with
  | nil => simp
  | cons x xs ih =>
    have hp : 0 < 2 ^ (8 * w) := Nat.two_pow_pos _
    cases i with
    | zero => simp [Nat.add_mul_mod_self_left]
    | succ i =>
      rw [List.foldr_cons, show 8 * w * (i + 1) = 8 * w + 8 * w * i by ring, pow_add, ← Nat.div_div_eq_div_mul,
        Nat.add_mul_div_left _ _ hp, Nat.div_eq_of_lt (Nat.mod_lt _ hp), Nat.zero_add, ih]
      simp
/-- The vector of a list of elements holds them. -/
theorem lane_ofLanes (w : Nat) (xs : List Nat) (i : Nat) (h : 8 * w * i + 8 * w ≤ 1024) :
    lane w (ofLanes w xs) i = xs.getD i 0 % 2 ^ (8 * w) := by
  rw [lane_eq, ← packed_element, ofLanes, BitVec.toNat_ofNat]
  apply Nat.eq_of_testBit_eq
  intro j
  simp only [Nat.testBit_mod_two_pow, Nat.testBit_div_two_pow]
  by_cases hj : j < 8 * w
  · simp only [hj, decide_true, Bool.true_and]
    rw [show decide (j + 8 * w * i < 1024) = true from decide_eq_true (by omega), Bool.true_and]
  · simp [hj]
theorem width_lanes (ty : Ty) (i : Nat) (h : i < 128 / ty.width) : 8 * ty.width * i + 8 * ty.width ≤ 1024 := by
  cases ty <;> simp only [Ty.width] at h ⊢ <;> omega
/-- An element map (R125): enabled elements take the function's value, the others keep theirs. -/
theorem lane_laneMap (ty : Ty) (p : Option (BitVec 128)) (old : Vec) (f : Nat → Nat × Flg) (i : Nat) (h : i < 128 / ty.width) :
    lane ty.width (laneMap ty.width p old f).1 i =
      if enabled ty.width p i then (f i).1 % 2 ^ (8 * ty.width) else lane ty.width old i := by
  unfold laneMap
  dsimp only
  rw [lane_ofLanes _ _ _ (width_lanes ty i h)]
  simp only [List.map_map, List.getD_eq_getElem?_getD, List.getElem?_map, List.getElem?_range h, Option.map_some, Option.getD_some,
    Function.comp_apply]
  split
  · rfl
  · exact Nat.mod_eq_of_lt (lane_lt ..)
theorem foldl_or_bit {β : Type} (g : β → Flg) (xs : List β) (fl : Flg) (k : Nat) :
    (xs.foldl (fun fl r => fl ||| g r) fl).getLsbD k = (fl.getLsbD k || xs.any fun r => (g r).getLsbD k) := by
  induction xs generalizing fl with
  | nil => simp
  | cons x xs ih => simp [ih, Bool.or_assoc]
/-- The flags of an element map are those of its enabled elements. -/
theorem flags_laneMap (w : Nat) (p : Option (BitVec 128)) (old : Vec) (f : Nat → Nat × Flg) (k : Nat) :
    (laneMap w p old f).2.getLsbD k = (List.range (128 / w)).any fun i => enabled w p i && (f i).2.getLsbD k := by
  unfold laneMap
  dsimp only
  rw [foldl_or_bit, List.any_map]
  simp only [BitVec.ofNat_eq_ofNat, BitVec.getLsbD_zero, Bool.false_or]
  congr 1
  funext i
  simp only [Function.comp_apply]
  split <;> simp_all

/-! ## Parts of an access -/

/-- Where the i-th part of an access begins, from its first byte, and its length; `f` is the first byte's place in its line. -/
theorem parts_cover (f len M : Nat) (hf : f < 128) (h : M ≤ (f + len + 127) / 128) :
    ((List.range M).flatMap fun i => (List.range (if i = 0 then min len (128 - f) else min 128 (len - (128 * i - f)))).map
      fun j => (if i = 0 then 0 else 128 * i - f) + j) = List.range (if M = 0 then 0 else min len (128 * M - f)) := by
  induction M with
  | zero => rfl
  | succ M ih =>
    rw [List.range_succ, List.flatMap_append, ih (by omega), List.flatMap_singleton]
    by_cases hM : M = 0
    · subst hM; simp
    · simp only [hM, if_false, Nat.succ_ne_zero]
      rw [show min len (128 * (M + 1) - f) = min len (128 * M - f) + min 128 (len - (128 * M - f)) by omega, List.range_add,
        show min len (128 * M - f) = 128 * M - f by omega]
theorem spad_toNat (va : VA) : isSpad va = true ↔ va.toNat / 2 ^ 22 % 2 ^ 46 = 2 ^ 46 - 1 := by
  simp [isSpad, Nat.shiftRight_eq_div_pow]
theorem spadOff_toNat (va : VA) : spadOff va = va.toNat % 2 ^ 22 := by simp [spadOff]
theorem qoff_toNat (va : VA) (k : Nat) : (qoff va k).toNat = va.toNat / 2 ^ 68 * 2 ^ 68 + (va.toNat + k) % 2 ^ 68 := by
  have : va.toNat < 2 ^ 72 := va.isLt
  unfold qoff wrap
  rw [BitVec.toNat_append, ← Nat.shiftLeft_add_eq_or_of_lt (BitVec.isLt _), Nat.shiftLeft_eq]
  simp only [BitVec.extractLsb'_toNat, BitVec.toNat_ofNat, Nat.shiftRight_eq_div_pow]
  omega
/-- Bytes on from a scratchpad address, inside the scratchpad. -/
theorem qoff_spad {va : VA} {k : Nat} (h : isSpad va = true) (hk : spadOff va + k < 2 ^ 22) :
    isSpad (qoff va k) = true ∧ spadOff (qoff va k) = spadOff va + k := by
  rw [spad_toNat] at *
  simp only [spadOff_toNat, qoff_toNat] at *
  omega
/-- The parts of an access that stays in the scratchpad lie there, one after another. -/
theorem segs_spad {va : VA} {len : Nat} (h : isSpad va = true) (hl : spadOff va + len ≤ 2 ^ 22) :
    (∀ g ∈ segs va len, isSpad g.1 = true) ∧
    ((segs va len).flatMap fun g => (List.range g.2).map fun i => spadOff g.1 + i) = (List.range len).map fun i => spadOff va + i := by
  have hf : fld va 0 7 < 128 := BitVec.isLt _
  have start {i : Nat} (hi : i < (fld va 0 7 + len + 127) / 128) (h0 : i ≠ 0) :=
    qoff_spad (k := 128 * i - fld va 0 7) h (by omega)
  unfold segs
  dsimp only
  constructor
  · intro g hg
    obtain ⟨i, hi, rfl⟩ := List.mem_map.mp hg
    split
    · exact h
    · exact (start (List.mem_range.mp hi) ‹_›).1
  · rw [List.flatMap_map]
    have hc := congrArg (List.map (spadOff va + ·)) (parts_cover (fld va 0 7) len _ hf le_rfl)
    rw [List.map_flatMap, show (if (fld va 0 7 + len + 127) / 128 = 0 then 0 else
      min len (128 * ((fld va 0 7 + len + 127) / 128) - fld va 0 7)) = len by split <;> omega] at hc
    rw [← hc]
    apply List.flatMap_congr
    intro i hi
    rw [List.map_map]
    split
    · simp
    · rw [(start (List.mem_range.mp hi) ‹_›).2]
      apply List.map_congr_left
      intro j _
      simp only [Function.comp_apply, Nat.add_assoc]

variable (s : State)

/-! ## A vector with flags -/

@[simp] theorem wVF_gv_self (d : VReg) (r : Vec × Flg) : (s.wVF d r).cx.regs.gv d = r.1 := by
  show Regs.gv ((s.wV d r.1).raiseFlags r.2).cx.regs d = r.1
  rw [State.cx_raiseFlags, State.cx_wV]
  exact Regs.gv_wv_self _ _ _
theorem wVF_gv_ne {d m : VReg} (r : Vec × Flg) (h : m ≠ d) : (s.wVF d r).cx.regs.gv m = s.cx.regs.gv m := by
  show Regs.gv ((s.wV d r.1).raiseFlags r.2).cx.regs m = _
  rw [State.cx_raiseFlags, State.cx_wV]
  exact Regs.gv_wv_ne _ _ h
@[simp] theorem wVF_fstat (d : VReg) (r : Vec × Flg) :
    (s.wVF d r).cx.regs.fstat = s.cx.regs.fstat ||| r.2.setWidth 64 := by
  show ((s.wV d r.1).raiseFlags r.2).cx.regs.fstat = _
  rw [State.cx_raiseFlags, State.cx_wV]
  rfl

/-! ## Counters and rollbacks -/

theorem bump_eq (ev n k : Nat) : s.bump ev n k = { s with cores := (s.bump ev n k).cores } := rfl
@[simp] theorem bump_ctx (ev n k m : Nat) : (s.bump ev n k).ctx m = s.ctx m := rfl
@[simp] theorem bump_mem (ev n k : Nat) : (s.bump ev n k).mem = s.mem := rfl
@[simp] theorem bump_spad (ev n k : Nat) : (s.bump ev n k).spad = s.spad := rfl
@[simp] theorem rollback_ctx (n : Nat) : (s.rollback n).ctx n = { s.ctx n with
    regs := (s.ctx n).ck, gate := [], watch := [], conflict := false, waitOn := none,
    owed := (s.ctx n).ckTrap.toList ++ (s.ctx n).owed, ckTrap := none,
    st := if (s.ctx n).st == .blocked then .ready else (s.ctx n).st } := by simp [State.rollback]
theorem rollback_ctx_ne {n m : Nat} (h : m ≠ n) : (s.rollback n).ctx m = s.ctx m := by
  rw [State.rollback, State.ctx_updCtx_ne _ _ h]
theorem rollback_eq (n : Nat) : s.rollback n = { s with ctxs := (s.rollback n).ctxs } := rfl
@[simp] theorem retireNow_ctx (n : Nat) : (s.retireNow n).ctx n = { s.ctx n with
    regs := (s.ctx n).ck, gate := [], watch := [], conflict := false, waitOn := none,
    owed := (s.ctx n).ckTrap.toList ++ (s.ctx n).owed, ckTrap := none, st := .retiring, held := none,
    abortAt := none, preempted := false, leaving := false, preq := false, landings := [] } := by simp [State.retireNow]
theorem saveBlock_ctx (n m : Nat) : (s.saveBlock n).ctx m = s.ctx m := by
  unfold State.saveBlock State.ctx
  rfl

/-! ## The gate and checkpoints -/

theorem releaseGate_of_empty {n : Nat} (h : (s.ctx n).gate = []) :
    s.releaseGate n = s.updCtx n fun c => { c with gate := [], watch := [] } := by
  unfold State.releaseGate
  rw [h]
theorem passWait_of_empty {n : Nat} (k : Nat) (h : (s.ctx n).gate = []) : s.passWait n k = .ok := by
  simp [State.passWait, waitFor, h]
theorem recheck_of_empty {n : Nat} (h : (s.ctx n).gate = []) : s.recheck n = .ok := by
  unfold State.recheck
  rw [h, passWait_of_empty s _ h]
  rfl
/-- A checkpoint over an empty gate changes the context alone. -/
theorem markAt_of_empty {n : Nat} (pc : VA) (h : (s.ctx n).gate = []) :
    (s.markAt n pc).ctx n = { s.ctx n with
      gate := [], watch := [], ck := { (s.ctx n).regs with pc := pc }, ckTrap := none, conflict := false, conflicts := 0, stepMode := false } ∧
    (∀ m, m ≠ n → (s.markAt n pc).ctx m = s.ctx m) ∧ s.markAt n pc = { s with ctxs := (s.markAt n pc).ctxs } := by
  unfold State.markAt
  rw [releaseGate_of_empty s h]
  refine ⟨by simp, fun m hm => ?_, rfl⟩
  rw [State.ctx_updCtx_ne _ _ hm, State.ctx_updCtx_ne _ _ hm]
/-- With no abort and no pre-emption requested, a commit is the checkpoint alone. -/
theorem commitAt_eq_markAt {n : Nat} (pc : VA) (ha : ((s.markAt n pc).ctx n).abortAt = none)
    (hp : ((s.markAt n pc).ctx n).preq = false) : s.commitAt n pc = s.markAt n pc := by
  unfold State.commitAt
  simp [ha, hp]

/-! ## The scratchpad -/

theorem foldl_updCore_eq (g : Nat → Nat) (f : State → Nat → CoreSt → CoreSt) (xs : List Nat) (s : State) :
    ∃ cs, xs.foldl (fun s i => s.updCore (g i) (f s i)) s = { s with cores := cs } := by
  induction xs generalizing s with
  | nil => exact ⟨s.cores, rfl⟩
  | cons x xs ih =>
    obtain ⟨cs, h⟩ := ih (s.updCore (g x) (f s x))
    exact ⟨cs, h⟩
/-- A write at the banks changes their bytes, the conflict marks of contexts that watch them, and the comparators' cores. -/
theorem spadWrite_eq (o : Option Nat) (k : Nat) (bs : List (Nat × Byte)) :
    ∃ (cs : SMap CoreSt) (fs : Nat × Ctx → Bool), s.spadWrite o k bs = { s with
      spad := bs.foldl (fun (m : List Host.Cell) (b : Nat × Byte) => wrByte m (s.spadKey k b.1) b.2) s.spad
      ctxs := s.ctxs.map fun e => (e.1, { e.2 with conflict := fs e })
      cores := cs } := by
  let hit (e : Nat × Ctx) : Bool := some e.1 != o &&
    e.2.watch.any (fun w => w.spad && w.offs.any fun o => (bs.map fun b => s.spadKey k b.1).contains o)
  have hm : (s.ctxs.map fun (e : Nat × Ctx) => if hit e then (e.1, { e.2 with conflict := true }) else e) =
      s.ctxs.map fun e => (e.1, { e.2 with conflict := if hit e then true else e.2.conflict }) := by
    apply List.map_congr_left
    intro e _
    split <;> simp_all
  unfold State.spadWrite
  dsimp only
  split
  · obtain ⟨cs, h⟩ := foldl_updCore_eq (fun i => 4 * k + i) (fun s _ c => c.sees s.clk (bs.map (·.1))) (List.range 4)
      { s with
        spad := bs.foldl (fun (m : List Host.Cell) (b : Nat × Byte) => wrByte m (s.spadKey k b.1) b.2) s.spad
        ctxs := s.ctxs.map fun (e : Nat × Ctx) => if hit e then (e.1, { e.2 with conflict := true }) else e }
    exact ⟨cs, _, by rw [← hm]; exact h⟩
  · exact ⟨s.cores, _, by rw [← hm]⟩
theorem sget_mapEntries {α γ : Type} (d : α) (f : Nat × α → α) (m : SMap α) (k : Nat) (g : α → γ) (h : ∀ e, g (f e) = g e.2) :
    g (sget d (m.map fun e => (e.1, f e)) k) = g (sget d m k) := by
  induction m with
  | nil => rfl
  | cons e m ih =>
    simp only [List.map_cons, sget]
    split
    · exact h e
    · exact ih
theorem spadWrite_mem (o : Option Nat) (k : Nat) (bs : List (Nat × Byte)) : (s.spadWrite o k bs).mem = s.mem := by
  obtain ⟨cs, fs, h⟩ := spadWrite_eq s o k bs
  rw [h]
theorem spadWrite_skews (o : Option Nat) (k : Nat) (bs : List (Nat × Byte)) : (s.spadWrite o k bs).skews = s.skews := by
  obtain ⟨cs, fs, h⟩ := spadWrite_eq s o k bs
  rw [h]
theorem spadWrite_spad (o : Option Nat) (k : Nat) (bs : List (Nat × Byte)) : (s.spadWrite o k bs).spad =
    bs.foldl (fun (m : List Host.Cell) (b : Nat × Byte) => wrByte m (s.spadKey k b.1) b.2) s.spad := by
  obtain ⟨cs, fs, h⟩ := spadWrite_eq s o k bs
  rw [h]
theorem spadWrite_regs (o : Option Nat) (k : Nat) (bs : List (Nat × Byte)) (m : Nat) :
    ((s.spadWrite o k bs).ctx m).regs = (s.ctx m).regs := by
  obtain ⟨cs, fs, h⟩ := spadWrite_eq s o k bs
  rw [h]
  exact sget_mapEntries Ctx.zero (fun e : Nat × Ctx => { e.2 with conflict := fs e }) s.ctxs m (fun c : Ctx => c.regs) fun _ => rfl
/-- Bytes written one after another: an address that none names keeps its byte. -/
theorem rdByte_writes_out {β : Type} (key : β → Nat) (v : β → Byte) (bs : List β) (m : List Host.Cell) (a : Nat)
    (h : ∀ b ∈ bs, key b ≠ a) : rdByte (bs.foldl (fun m b => wrByte m (key b) (v b)) m) a = rdByte m a := by
  induction bs generalizing m with
  | nil => rfl
  | cons b bs ih =>
    rw [List.foldl_cons, ih _ fun x hx => h x (List.mem_cons_of_mem _ hx),
      rdByte_wrByte_ne _ _ fun e => h b List.mem_cons_self e.symm]
/-- The last byte written at an address stands. -/
theorem rdByte_writes_last {β : Type} (key : β → Nat) (v : β → Byte) (pre post : List β) (b : β) (m : List Host.Cell)
    (h : ∀ x ∈ post, key x ≠ key b) :
    rdByte ((pre ++ b :: post).foldl (fun m b => wrByte m (key b) (v b)) m) (key b) = v b := by
  rw [List.foldl_append, List.foldl_cons, rdByte_writes_out _ _ _ _ _ h, rdByte_wrByte_self]
theorem spadKey_of_noSkew {k : Nat} (o : Nat) (h : sget [] s.skews k = []) : s.spadKey k o = k * 2 ^ 22 + o % 2 ^ 22 := by
  unfold State.spadKey
  rw [h]
  rfl
theorem spadFor_of_empty {n : Nat} (o : Nat) (h : (s.ctx n).gate = []) : s.spadFor n o = s.spadByte (clusterOf n) o := by
  unfold State.spadFor
  rw [h]
  simp [State.spadByte, State.spadKey]
theorem readVia_spad (n : Nat) (asid : BitVec 16) {va : VA} {len : Nat} (v : BitVec 3) (h : isSpad va = true)
    (hl : spadOff va + len ≤ 2 ^ 22) : s.readVia n asid va len v = (List.range len).map fun i => s.spadFor n (spadOff va + i) := by
  have hs := segs_spad h hl
  rw [show (List.range len).map (fun i => s.spadFor n (spadOff va + i)) =
    ((List.range len).map fun i => spadOff va + i).map (s.spadFor n) by simp, ← hs.2, List.map_flatMap]
  apply List.flatMap_congr
  intro g hg
  rw [if_pos (hs.1 g hg), List.map_map]
  rfl
/-- A context with an empty gate reads its cluster's bytes. -/
theorem readVia_spad_of_empty {n : Nat} (asid : BitVec 16) {va : VA} {len : Nat} (v : BitVec 3) (h : isSpad va = true)
    (hl : spadOff va + len ≤ 2 ^ 22) (hg : (s.ctx n).gate = []) :
    s.readVia n asid va len v = s.spadBytes (clusterOf n) (spadOff va) len := by
  rw [readVia_spad s n asid v h hl]
  exact List.map_congr_left fun i _ => spadFor_of_empty s _ hg
/-- A load of the scratchpad by a context with an empty gate leaves nothing beside its value. -/
theorem loadEffect_spad_of_empty {n : Nat} (asid : BitVec 16) {va : VA} {len : Nat} (vc : Word64) (h : isSpad va = true)
    (hl : spadOff va + len ≤ 2 ^ 22) (hg : (s.ctx n).gate = []) : s.loadEffect n asid va len vc = s := by
  have hs := (segs_spad h hl).1
  unfold State.loadEffect
  dsimp only
  generalize segs va len = gs at hs ⊢
  induction gs with
  | nil => rfl
  | cons g gs ih =>
    rw [List.foldl_cons, if_pos (hs g List.mem_cons_self), hg]
    exact ih fun x hx => hs x (List.mem_cons_of_mem _ hx)

/-! ## A turn that comes to issue -/

theorem andThen_next (t : State) (f : State → Out) : andThen (.next t) f = f t := rfl
@[simp] theorem enter_ctx (n : Nat) : (s.enter n).ctx n = { s.ctx n with regs := (s.ctx n).regs.fmtEffect } := by
  show (s.updCtx n fun c => { c with regs := c.regs.fmtEffect }).ctx n = _
  simp
theorem drained_of_not {n : Nat} (h : (s.ctx n).draining = false) : s.drained n = s := by simp [State.drained, h]
/-- A context that owes no trap and whose line the instruction cache holds brings its bundle to issue. -/
theorem issueCtx_hit {n : Nat} {x : ICLine} (hd : (s.ctx n).draining = false)
    (hc : ((s.enter n).ctx n).conflict = false) (ho : ((s.enter n).ctx n).nextOwed = none)
    (hx : ((s.enter n).core (coreOf n)).icFind ((s.enter n).ctx n).regs.pc ((s.enter n).launchOf n) = some x) :
    s.issueCtx n =
      ((s.enter n).updCore (coreOf n) fun k => k.icPut x).runBits (bundleIn x.data ((s.enter n).ctx n).regs.pc) := by
  unfold State.issueCtx State.fetchIssue
  have he : ((s.enter n).ctx n).draining = false := by simp [hd]
  simp only [drained_of_not s hd, he, hc, ho, hx, Bool.false_eq_true, if_false]

end Sys2Proof.Machine
end

