-- ==== Sys2Proof/Tests/Slice0.lean ====
section
/-! SUPPORT. Tests of one decode or one step, and witnesses for the hypotheses of the statements. Words stand as the opcode map
of the spec (R73, R78 to R81) gives them; expected results are the spec's examples or worked by hand from its rules. -/

open Sys2Proof Sys2Proof.Machine

set_option Elab.async false

/-! ## Well-formed operands -/

theorem test_wf_type : Instr.wf (.vfma .i8 1 2 3 none) = false ∧ Instr.wf (.vfma .f32 1 2 3 none) = true := by decide
theorem test_wf_shift_type : Instr.wf (.vshl .f32 1 2 3 none) = false := by decide
theorem test_wf_abs_unsigned : Instr.wf (.vabs .n16 1 2 none) = false ∧ Instr.wf (.vabs .i16 1 2 none) = true := by decide
theorem test_wf_convert_part : Instr.wf (.vcvt .f32 .i8 1 2 3 none) = true ∧ Instr.wf (.vcvt .f32 .f16 1 2 2 none) = false ∧
  Instr.wf (.vcvt .i64 .f32 1 2 0 none) = false := by decide
theorem test_wf_planes : Instr.wf (.vbppack 7 1 2) = false ∧ Instr.wf (.vbppack 6 1 2) = true := by decide
theorem test_wf_fuse_form : Instr.wf (.vcfhash 3 1 2 3 none) = false := by decide
theorem test_wf_condition : Instr.wf (.pcmp 1 2 3 7) = false ∧ Instr.wf (.pcmp 1 2 3 6) = true := by decide
theorem test_wf_load_type : Instr.wf (.ld .f32 0 1 2 0) = false ∧ Instr.wf (.vld .i64 0 1 2 0) = false ∧
  Instr.wf (.vgath .i8 0 1 2 3 0) = false := by decide
theorem test_wf_atomic : Instr.wf (.amand .f32 1 2 3 0 0) = false ∧ Instr.wf (.amadd .f32 1 2 3 0 0) = true ∧
  Instr.wf (.amadd .f32 1 2 3 0 1) = false ∧ Instr.wf (.amadd .f32 1 2 3 1 6) = false := by decide
theorem test_wf_scope : Instr.wf (.fence 6) = false ∧ Instr.wf (.fence 5) = true ∧ Instr.wf (.dsync 0 1) = false ∧
  Instr.wf (.lda .i32 0 1 2 7) = false ∧ Instr.wf (.stl .f32 1 2 0) = false := by decide
theorem test_wf_pm_type : Instr.wf (.pmmac 7 1 2) = false ∧ Instr.wf (.pmmac 0 1 2) = false ∧ Instr.wf (.pmmac 8 1 2) = true := by decide
theorem test_wf_pin : Instr.wf (.rtpin 1 2 5) = false ∧ Instr.wf (.rtpin 1 2 4) = true := by decide
theorem test_wf_spawn : Instr.wf (.spawn 1 2 20 13) = false ∧ Instr.wf (.spawn 1 2 16 16) = true ∧ Instr.wf (.spawn 1 2 0 17) = false ∧
  Instr.wf (.spawn 1 2 3 0) = false := by decide

/-! ## Decoding -/

/-- A word, without a header, reads as the instruction, and is its encoding. -/
def reads (c : SlotClass) (x : BitVec 32 × Instr) : Bool :=
  match decodeSlot c false 0 x.1 with
  | .ok i => decide (i = x.2) && encode x.2 == x.1
  | .error _ => false

theorem test_words_S1 : [
    (0x00000000, .nop),
    (0x02331400, .add 3 6 5),
    (0x04331400, .sub 3 6 5),
    (0x06331400, .and 3 6 5),
    (0x08331400, .or 3 6 5),
    (0x0A331400, .xor 3 6 5),
    (0x0C331400, .shl 3 6 5),
    (0x0E331400, .shr 3 6 5),
    (0x10331400, .sra 3 6 5),
    (0x12331400, .min 3 6 5),
    (0x14331400, .max 3 6 5),
    (0x16331400, .mul 3 6 5)].all
    (reads .S) = true := by decide
theorem test_words_S2 : [
    (0x18331400, .mulh 3 6 5),
    (0x1A331400, .mulhu 3 6 5),
    (0x1C331400, .div 3 6 5),
    (0x1E331400, .divu 3 6 5),
    (0x20333FFB, .addi 3 6 16379),
    (0x22333FFB, .andi 3 6 16379),
    (0x24333FFB, .ori 3 6 16379),
    (0x26333FFB, .xori 3 6 16379),
    (0x28330025, .shli 3 6 37),
    (0x2A330025, .shri 3 6 37),
    (0x2C330025, .srai 3 6 37),
    (0x2E37FFFB, .li 3 524283)].all
    (reads .S) = true := by decide
theorem test_words_S3 : [
    (0x3037FFFB, .lic 3 524283),
    (0x32331480, .bfxs 3 6 5 4),
    (0x34331480, .bfxu 3 6 5 4),
    (0x36331480, .bfi 3 6 5 4),
    (0x38331480, .fshl 3 6 5 4),
    (0x3A331480, .fshr 3 6 5 4),
    (0x3C330000, .clz 3 6),
    (0x3E330000, .ctz 3 6),
    (0x40330000, .popc 3 6),
    (0x42331400, .slt 3 6 5),
    (0x44331400, .sltu 3 6 5),
    (0x46331480, .pcmp 3 6 5 4)].all
    (reads .S) = true := by decide
theorem test_words_S4 : [
    (0x48331480, .sel 3 6 5 4),
    (0x4A331400, .qadd 3 6 5),
    (0x4C333FFB, .qaddi 3 6 16379),
    (0x4E331400, .qsub 3 6 5),
    (0x50331400, .qmov 3 6 5),
    (0x52330400, .qtos 3 6 true),
    (0x54331400, .qhome 3 6 5),
    (0x5662BFFB, .beq 6 5 16379),
    (0x5862BFFB, .bne 6 5 16379),
    (0x5A62BFFB, .blt 6 5 16379),
    (0x5C62BFFB, .bge 6 5 16379),
    (0x5E62BFFB, .bltu 6 5 16379)].all
    (reads .S) = true := by decide
theorem test_words_S5 : [
    (0x6062BFFB, .bgeu 6 5 16379),
    (0x62FFFFFB, .jmp 16777211),
    (0x64FFFFFB, .call 16777211),
    (0x66030000, .jr 6),
    (0x68603FFB, .loop 6 16379),
    (0x6A26BFFB, .loopi 77 16379),
    (0x6C000000, .endCtx),
    (0x6E000000, .yield),
    (0x70300000, .wait 3),
    (0x7203148D, .warm 6 5 4 5 true),
    (0x74000000, .tnext),
    (0x76030000, .fmtset 6)].all
    (reads .S) = true := by decide
theorem test_words_S6 : [
    (0x7830C500, .mfsr 3 197),
    (0x7A602000, .mtsr 6 32),
    (0x7C07FFFB, .trap 524283),
    (0x7E000000, .tret)].all
    (reads .S) = true := by decide
theorem test_words_V1 : [
    (0x02331744, .vadd .bf16 3 6 5 (some 5)),
    (0x04331760, .vsub .n16 3 6 5 (some 5)),
    (0x06331760, .vmul .n16 3 6 5 (some 5)),
    (0x08331748, .vfma .f16 3 6 5 (some 5)),
    (0x0A331748, .vfms .f16 3 6 5 (some 5)),
    (0x0C331748, .vdiv .f16 3 6 5 (some 5)),
    (0x0E331760, .vmin .n16 3 6 5 (some 5)),
    (0x10331760, .vmax .n16 3 6 5 (some 5)),
    (0x1233035C, .vabs .i16 3 6 (some 5)),
    (0x1433035C, .vneg .i16 3 6 (some 5)),
    (0x16331760, .vadds .n16 3 6 5 (some 5)),
    (0x18331760, .vsubs .n16 3 6 5 (some 5))].all
    (reads .V) = true := by decide
theorem test_words_V2 : [
    (0x1A331760, .vmulh .n16 3 6 5 (some 5)),
    (0x1C331760, .vshl .n16 3 6 5 (some 5)),
    (0x1E331760, .vshr .n16 3 6 5 (some 5)),
    (0x20331760, .vsra .n16 3 6 5 (some 5)),
    (0x22336C3B, .vaddi .n16 3 6 59 (some 5)),
    (0x24336C3B, .vshli .n16 3 6 59 (some 5)),
    (0x26336C3B, .vshri .n16 3 6 59 (some 5)),
    (0x28336C3B, .vsrai .n16 3 6 59 (some 5)),
    (0x2A331760, .vcmpeq .n16 3 6 5 (some 5)),
    (0x2C331760, .vcmpne .n16 3 6 5 (some 5)),
    (0x2E331744, .vcmplt .bf16 3 6 5 (some 5)),
    (0x30331760, .vcmple .n16 3 6 5 (some 5))].all
    (reads .V) = true := by decide
theorem test_words_V3 : [
    (0x32331704, .vsel .bf16 3 6 5 4),
    (0x34331742, .vcvt .f32 .i8 3 6 2 (some 5)),
    (0x36331034, .vbppack 4 3 6),
    (0x38331034, .vbpunpack 4 3 6),
    (0x3A330348, .vexp2 .f16 3 6 (some 5)),
    (0x3C330348, .vlog2 .f16 3 6 (some 5)),
    (0x3E330348, .vrcp .f16 3 6 (some 5)),
    (0x40330348, .vrsqrt .f16 3 6 (some 5)),
    (0x42330360, .vredadd .n16 3 6 (some 5)),
    (0x44330360, .vredmax .n16 3 6 (some 5)),
    (0x46330360, .vredmin .n16 3 6 (some 5)),
    (0x48330360, .vscanadd .n16 3 6 (some 5))].all
    (reads .V) = true := by decide
theorem test_words_V4 : [
    (0x4A330360, .vscanmax .n16 3 6 (some 5)),
    (0x4C331760, .vperm .n16 3 6 5 (some 5)),
    (0x4E331760, .vbcast .n16 3 6 5 (some 5)),
    (0x50336C3B, .vrot .n16 3 6 59 (some 5)),
    (0x52336C3B, .vslide .n16 3 6 59 (some 5)),
    (0x54331761, .vzip .n16 3 6 5 true (some 5)),
    (0x56331761, .vunzip .n16 3 6 5 true (some 5)),
    (0x58331760, .vand .n16 3 6 5 (some 5)),
    (0x5A331760, .vor .n16 3 6 5 (some 5)),
    (0x5C331760, .vxor .n16 3 6 5 (some 5)),
    (0x5E331760, .vandn .n16 3 6 5 (some 5)),
    (0x60330360, .vpopc .n16 3 6 (some 5))].all
    (reads .V) = true := by decide
theorem test_words_V5 : [
    (0x62330360, .vclz .n16 3 6 (some 5)),
    (0x64331760, .vbfx .n16 3 6 5 (some 5)),
    (0x66331760, .vbfi .n16 3 6 5 (some 5)),
    (0x68331420, .vins .n16 3 6 5),
    (0x6A331420, .vext .n16 3 6 5),
    (0x6C330360, .vdup .n16 3 6 (some 5)),
    (0x6E330360, .vmov .n16 3 6 (some 5)),
    (0x70331400, .pand 3 6 5),
    (0x72331400, .por 3 6 5),
    (0x74331400, .pxor 3 6 5),
    (0x76330000, .pnot 3 6),
    (0x78331400, .mand 3 6 5)].all
    (reads .V) = true := by decide
theorem test_words_V6 : [
    (0x7A331400, .mor 3 6 5),
    (0x7C331400, .mxor 3 6 5),
    (0x7E330000, .mset 3 6),
    (0x80330000, .mget 3 6),
    (0x82031424, .manc 6 5),
    (0x84331760, .vargmax .n16 3 6 5 (some 5)),
    (0x86331400, .vsparseadd 3 6 5),
    (0x8833176A, .vcfhash 2 3 6 5 (some 5)),
    (0x8A331758, .vcfupd 3 6 5 (some 5)),
    (0x8C330000, .vdesc 3 6),
    (0x8E331428, .vphilox 3 6 5)].all
    (reads .V) = true := by decide
theorem test_words_L1 : [
    (0x023BD0FB, .ld .n16 6 3 11 251),
    (0x043B10FB, .st .n16 3 11 251),
    (0x063BD0FB, .vld .n16 6 3 11 251),
    (0x083B10FB, .vst .n16 3 11 251),
    (0x0A3BD158, .ldx .n16 6 3 11 21 2),
    (0x0C3B1158, .stx .n16 3 11 21 2),
    (0x0E3BD158, .vldx .n16 6 3 11 21 2),
    (0x103B1158, .vstx .n16 3 11 21 2),
    (0x123BD158, .vlds .n16 6 3 11 21 2),
    (0x143B1158, .vsts .n16 3 11 21 2),
    (0x163BD558, .vgath .n32 6 3 11 21 2),
    (0x183B1558, .vscat .n32 3 11 21 2)].all
    (reads .L) = true := by decide
theorem test_words_L2 : [
    (0x1A3BD4FB, .kld 6 3 11 251),
    (0x1C331481, .bgath 3 6 5 4 true),
    (0x1E33164A, .amadd .n32 3 6 5 2 4),
    (0x2033164A, .ammin .n32 3 6 5 2 4),
    (0x2233164A, .ammax .n32 3 6 5 2 4),
    (0x2433164B, .amand .i64 3 6 5 2 4),
    (0x2633164B, .amor .i64 3 6 5 2 4),
    (0x2833164B, .amxor .i64 3 6 5 2 4),
    (0x2A33164A, .amxchg .n32 3 6 5 2 4),
    (0x2C33164A, .amcas .n32 3 6 5 2 4),
    (0x2E03164A, .stadd .n32 6 5 2 4),
    (0x3003164A, .stmin .n32 6 5 2 4)].all
    (reads .L) = true := by decide
theorem test_words_L3 : [
    (0x3203164A, .stmax .n32 6 5 2 4),
    (0x3403164B, .stand .i64 6 5 2 4),
    (0x3603164B, .stor .i64 6 5 2 4),
    (0x3803164B, .stxor .i64 6 5 2 4),
    (0x3A3BD004, .lda .n16 6 3 11 4),
    (0x3C3B1004, .stl .n16 3 11 4),
    (0x3E000004, .fence 4),
    (0x40000000, .drain),
    (0x4233004D, .cbwait 3 6 77),
    (0x4433004D, .cbspace 3 6 77),
    (0x4603004D, .cbfree 6 77),
    (0x4803004D, .cbadv 6 77)].all
    (reads .L) = true := by decide
theorem test_words_L4 : [
    (0x4A333FFB, .cbbind 3 6 16379),
    (0x4C330001, .cbpop 3 6 true),
    (0x4E031400, .barv 6 5),
    (0x50331400, .barx 3 6 5),
    (0x52031400, .barw 6 5),
    (0x54000240, .dsync 2 4),
    (0x561B00FB, .pref true 0 11 251),
    (0x58031400, .spmode 6 5),
    (0x5A3BC0FB, .pld 6 3 11 251),
    (0x5C3B00FB, .pst 3 11 251),
    (0x5E3BD0FB, .vldbc .n16 6 3 11 251)].all
    (reads .L) = true := by decide
theorem test_words_E1 : [
    (0x03A62907, .mma 13 6 5 4 true true true),
    (0x05A62907, .mmaa 13 6 5 4 true true true),
    (0x07A62905, .mmas 13 6 5 4 true true),
    (0x09A62907, .mmtr 13 6 5 4 true true true),
    (0x0BA62907, .mmtra 13 6 5 4 true true true),
    (0x0DA60100, .tld 13 6 4),
    (0x0FA60100, .tldsp 13 6 4),
    (0x11A60100, .tst 13 6 4),
    (0x13A60100, .tstsp 13 6 4),
    (0x15A00100, .tzero 13 4),
    (0x17A62919, .attn 13 6 5 4 9 true),
    (0x19A60100, .attnf 13 6 4)].all
    (reads .E) = true := by decide
theorem test_words_E2 : [
    (0x1A060109, .mpld 9 6 4),
    (0x1C062901, .copy 6 5 4 true),
    (0x1E062901, .copy2d 6 5 4 true),
    (0x20062901, .copyc 5 6 4 true),
    (0x22060105, .pmvec 6 4 5),
    (0x24A00129, .pmmac 5 4 41),
    (0x26000129, .pmatk 4 41),
    (0x28000129, .pmatv 4 41),
    (0x2A002929, .pmrd 5 4 41),
    (0x2C000129, .pmclr 4 41),
    (0x2E060129, .laybind 6 4 41),
    (0x30060129, .kvxfer 6 4 41)].all
    (reads .E) = true := by decide
theorem test_words_E3 : [
    (0x32060129, .kvapp 6 4 41),
    (0x34060129, .pmst 6 4 41),
    (0x36300000, .pmsync 3),
    (0x38331480, .rthash 3 6 5 4),
    (0x3A331480, .rtfind 3 6 5 4),
    (0x3C331481, .rtdep 3 6 5 4 true),
    (0x3E330000, .rtref 3 6),
    (0x40330000, .rtrel 3 6),
    (0x42330003, .rtpin 3 6 3),
    (0x44331480, .rtevict 3 4 6 5),
    (0x46331400, .rtrd 3 6 5),
    (0x48330000, .schsel 3 6)].all
    (reads .E) = true := by decide
theorem test_words_E4 : [
    (0x4A331400, .tokcommit 3 6 5),
    (0x4C331480, .specacc 3 6 5 4),
    (0x4E049887, .spawn 9 6 4 7)].all
    (reads .E) = true := by decide

/-! ## Steps -/

/-- Context 0 runs, with registers set, before a word of its class alone in its bundle. -/
def before (k : SlotClass) (f : Regs → Regs) (w : BitVec 32) : State :=
  ((State.reset.withFetchWord 32 0).updCtx 0 fun c => { c with regs := f c.regs, ck := f c.regs }).updCore 0 fun c =>
    { c with ic := [⟨0, 0, 0, (bundleWith k w).setWidth 1024⟩] }
/-- What one step leaves, seen through a function of the state. -/
def after {α : Type} (k : SlotClass) (f : Regs → Regs) (w : BitVec 32) (g : State → α) : Option α :=
  match step (before k f w) with
  | .next t => some (g t)
  | _ => none
def scalars (xs : List (Nat × Word64)) (r : Regs) : Regs := { r with s := xs }
def gs (n : SReg) (t : State) : Word64 := (t.ctx 0).regs.gs n

theorem test_add_wraps : after .S (scalars [(6, 0xFFFFFFFFFFFFFFFF), (9, 2)]) 0x02332400 (gs 3) = some (1) := by decide +kernel
theorem test_add_destination_is_source : after .S (scalars [(6, 5), (9, 2)]) 0x02631800 (gs 6) = some (10) := by decide +kernel
theorem test_sub : after .S (scalars [(6, 1), (9, 2)]) 0x04332400 (gs 3) = some (0xFFFFFFFFFFFFFFFF) := by decide +kernel
theorem test_shl_ignores_high_count_bits : after .S (scalars [(6, 3), (9, 65)]) 0x0C332400 (gs 3) = some (6) := by decide +kernel
theorem test_sra_rounds_down : after .S (scalars [(6, 0xFFFFFFFFFFFFFFFD), (9, 1)]) 0x10332400 (gs 3) = some (0xFFFFFFFFFFFFFFFE) := by decide +kernel
theorem test_min_is_signed : after .S (scalars [(6, 0xFFFFFFFFFFFFFFFF), (9, 2)]) 0x12332400 (gs 3) = some (0xFFFFFFFFFFFFFFFF) := by decide +kernel
theorem test_mulh_signed : after .S (scalars [(6, 0xFFFFFFFFFFFFFFFF), (9, 2)]) 0x18332400 (gs 3) = some (0xFFFFFFFFFFFFFFFF) := by decide +kernel
theorem test_mulhu_unsigned : after .S (scalars [(6, 0xFFFFFFFFFFFFFFFF), (9, 2)]) 0x1A332400 (gs 3) = some (1) := by decide +kernel
theorem test_div_by_zero : after .S (scalars [(6, 7)]) 0x1C332400 (gs 3) = some (0xFFFFFFFFFFFFFFFF) := by decide +kernel
/-- −7 by 2 is −3 (R99). -/
theorem test_div_truncates : after .S (scalars [(6, 0xFFFFFFFFFFFFFFF9), (9, 2)]) 0x1C332400 (gs 3) = some (0xFFFFFFFFFFFFFFFD) := by decide +kernel
theorem test_div_most_negative : after .S (scalars [(6, 0x8000000000000000), (9, 0xFFFFFFFFFFFFFFFF)]) 0x1C332400 (gs 3) = some (0x8000000000000000) := by decide +kernel
theorem test_addi_sign_extends : after .S (scalars [(6, 5)]) 0x20337FF8 (gs 3) = some (0xFFFFFFFFFFFFFFFD) := by decide +kernel
theorem test_lic_shifts_in : after .S (scalars [(3, 0xF000000000000001)]) 0x303ABCDE (gs 3) = some (0x1ABCDE) := by decide +kernel
theorem test_bfxs_sign : after .S (scalars [(6, 0xF0), (9, 4), (5, 4)]) 0x323324A0 (gs 3) = some (0xFFFFFFFFFFFFFFFF) := by decide +kernel
theorem test_bfi : after .S (scalars [(3, 0xFFFFFFFFFFFFFFFF), (6, 0), (9, 8), (5, 8)]) 0x363324A0 (gs 3) = some (0xFFFFFFFFFFFF00FF) := by decide +kernel
/-- fshl by 64 returns sB (R100). -/
theorem test_fshl_by_64 : after .S (scalars [(6, 1), (9, 7), (5, 64)]) 0x383324A0 (gs 3) = some (7) := by decide +kernel
theorem test_clz_zero : after .S (scalars [(6, 0)]) 0x3C330000 (gs 3) = some (64) := by decide +kernel
theorem test_ctz : after .S (scalars [(6, 8)]) 0x3E330000 (gs 3) = some (3) := by decide +kernel
theorem test_sltu : after .S (scalars [(6, 1), (9, 0xFFFFFFFFFFFFFFFF)]) 0x44332400 (gs 3) = some (1) := by decide +kernel
/-- The first s6 FP32 elements (R102). -/
theorem test_pcmp_lanes : after .S (scalars [(6, 3), (9, 4)]) 0x461324C0 (fun t => (t.ctx 0).regs.gp 1) = some (0xFFF) := by decide +kernel
theorem test_qadd_keeps_home : after .S (fun r => { r with q := [(2, 0x3FFFFFFFFFFFFFFFFF)], s := [(6, 1)] }) 0x4A111800 (fun t => (t.ctx 0).regs.gq 1) = some (0x300000000000000000) := by decide +kernel
theorem test_qsub_ignores_home : after .S (fun r => { r with q := [(1, 0x800000000000000010), (2, 0x4)] }) 0x4E308800 (gs 3) = some (0xC) := by decide +kernel
theorem test_qmov : after .S (scalars [(6, 0x10), (9, 0x12F)]) 0x50132400 (fun t => (t.ctx 0).regs.gq 1) = some (0x2F0000000000000010) := by decide +kernel
theorem test_beq_taken : after .S (scalars [(6, 4), (9, 4)]) 0x56648003 (fun t => (t.ctx 0).regs.pc) = some (48) := by decide +kernel
theorem test_bne_not_taken : after .S (scalars [(6, 4), (9, 4)]) 0x58648003 (fun t => (t.ctx 0).regs.pc) = some (16) := by decide +kernel
theorem test_blt_back : after .S (scalars [(6, 0xFFFFFFFFFFFFFFFF), (9, 0)]) 0x5A64FFFF (fun t => (t.ctx 0).regs.pc) = some (0x0FFFFFFFFFFFFFFFF0) := by decide +kernel
theorem test_call_links : after .S (scalars []) 0x64000002 (fun t => ((t.ctx 0).regs.gq 15, (t.ctx 0).regs.pc)) = some ((16, 32)) := by decide +kernel
theorem test_jr_misaligned_ends_the_launch : after .S (fun r => { r with q := [(1, 8)] }) 0x66008000 (fun t => (t.ctx 0).st) = some (CtxState.retiring) := by decide +kernel
/-- Cause 2 in slot 0, opcode 0x33, to bundle 5 of the code (R318, R319). -/
theorem test_jr_misaligned_traps : after .S (fun r => { r with q := [(1, 8)], tvec := 0x8000000000000005 }) 0x66008000 (fun t => ((t.ctx 0).regs.tcause, (t.ctx 0).regs.pc, (t.ctx 0).regs.tstate)) = some ((BitVec.ofNat 64 (2 + 0x33 * 2 ^ 11), 80, 1)) := by decide +kernel
theorem test_loop_opens : after .S (scalars [(6, 3)]) 0x68600002 (fun t => (t.ctx 0).regs.loops) = some ([⟨16, 32, 3⟩]) := by decide +kernel
theorem test_loopi_zero_skips : after .S (scalars []) 0x6A000002 (fun t => ((t.ctx 0).regs.pc, (t.ctx 0).regs.loops)) = some ((48, [])) := by decide +kernel
theorem test_loop_back : after .S (fun r => { r with loops := [⟨0, 0, 2⟩] }) 0x00000000 (fun t => (t.ctx 0).regs.loops) = some ([⟨0, 0, 1⟩]) := by decide +kernel
theorem test_loop_ends : after .S (fun r => { r with loops := [⟨0, 0, 1⟩] }) 0x00000000 (fun t => ((t.ctx 0).regs.pc, (t.ctx 0).regs.loops)) = some ((16, [])) := by decide +kernel
theorem test_end_retires : after .S (scalars []) 0x6C000000 (fun t => (t.ctx 0).st) = some (CtxState.retiring) := by decide +kernel
/-- The core has no other context: it selects the one that yielded again, behind one bubble (R17, R110). -/
theorem test_yield_is_selected_again : after .S (scalars []) 0x6E000000 (fun t => ((t.ctx 0).st, (t.ctx 0).regs.pc, (t.core 0).bubble)) =
  some ((CtxState.running, 16, true)) := by decide +kernel
theorem test_wait_blocks : after .S (scalars []) 0x70300000 (fun t => ((t.ctx 0).st, (t.ctx 0).regs.pc)) = some ((CtxState.blocked, 0)) := by decide +kernel
theorem test_warm_arms : after .S (scalars [(6, 256), (9, 128), (5, 7)]) 0x720324AA (fun t => sget Cmp.zero (t.core 0).cmps 2) = some (⟨true, 256, 128, 7, true, 0, 0, 1⟩) := by decide +kernel
/-- With TILEY = 0 every tnext lands the null flag, 24 clk on (R113, R114). -/
theorem test_tnext_null_lands_at_24 : after .S (scalars []) 0x74000000 (fun t => ((t.ctx 0).rot, (t.ctx 0).landings)) = some ((1, [⟨24, 0, 0x8000000000000000⟩])) := by decide +kernel
theorem test_fmtset_pends : after .S (scalars [(6, 0x10000)]) 0x76030000 (fun t => ((t.ctx 0).regs.fmt, (t.ctx 0).regs.fmtPend)) = some ((0, [(0x10000, 4)])) := by decide +kernel
theorem test_fmtset_rejects : after .S (scalars [(6, 9)]) 0x76030000 (fun t => (t.ctx 0).st) = some (CtxState.retiring) := by decide +kernel
theorem test_mfsr_fstat : after .S (fun r => { r with fstat := 5 }) 0x78300100 (gs 3) = some (5) := by decide +kernel
theorem test_mtsr_view_class : after .S (scalars [(3, 0x2A)]) 0x7A301500 (fun t => sget 0 (t.ctx 0).regs.view 5) = some (0x2A) := by decide +kernel
theorem test_mtsr_read_only : after .S (scalars [(3, 0x2A)]) 0x7A300400 (fun t => (t.ctx 0).st) = some (CtxState.retiring) := by decide +kernel
theorem test_trap_saves_next_bundle : after .S (fun r => { r with tvec := 0x8000000000000000 }) 0x7C000077 (fun t => ((t.ctx 0).regs.tcause.toNat % 512, (t.ctx 0).regs.tval, (t.ctx 0).regs.tpc)) = some ((9, 0x77, 1)) := by decide +kernel
theorem test_tret_returns : after .S (fun r => { r with tstate := 1, tpc := 0x20 }) 0x7E000000 (fun t => ((t.ctx 0).regs.pc, (t.ctx 0).regs.tstate)) = some ((0x200, 0)) := by decide +kernel
/-- 1 + 2 = 3. -/
theorem test_vadd_f32 : after .V (fun r => { r with v := [(6, 0x3F800000), (9, 0x40000000)] }) 0x02332400 (fun t => lane 4 ((t.ctx 0).regs.gv 3) 0) = some (0x40400000) := by decide +kernel
theorem test_vadd_wraps_i8 : after .V (fun r => { r with v := [(6, 0x7F), (9, 1)] }) 0x02332414 (fun t => lane 1 ((t.ctx 0).regs.gv 3) 0) = some (0x80) := by decide +kernel
theorem test_vadds_clamps_i8 : after .V (fun r => { r with v := [(6, 0x7F), (9, 1)] }) 0x16332414 (fun t => lane 1 ((t.ctx 0).regs.gv 3) 0) = some (0x7F) := by decide +kernel
/-- Bit 1 of p2 enables byte 1 only (R125). -/
theorem test_vsub_keeps_disabled : after .V (fun r => { r with v := [(3, 0x0505), (6, 0x0303), (9, 0x0101)], p := [(2, 2)] }) 0x04332698 (fun t => (t.ctx 0).regs.gv 3 &&& 0xFFFF) = some (0x0205) := by decide +kernel
theorem test_vmul_overflow_flags : after .V (fun r => { r with v := [(6, 0x7F7FFFFF), (9, 0x40000000)] }) 0x06332400 (fun t => (lane 4 ((t.ctx 0).regs.gv 3) 0, (t.ctx 0).regs.fstat)) = some ((0x7F800000, 0x14)) := by decide +kernel
theorem test_vdiv_by_zero : after .V (fun r => { r with v := [(6, 0x3F800000)] }) 0x0C332400 (fun t => lane 4 ((t.ctx 0).regs.gv 3) 0) = some (0x7F800000) := by decide +kernel
theorem test_vmin_bf16 : after .V (fun r => { r with v := [(6, 0xBF80), (9, 0x3F80)] }) 0x0E332404 (fun t => lane 2 ((t.ctx 0).regs.gv 3) 0) = some (0xBF80) := by decide +kernel
theorem test_vabs_most_negative : after .V (fun r => { r with v := [(6, 0x80)] }) 0x12330014 (fun t => lane 1 ((t.ctx 0).regs.gv 3) 0) = some (0x80) := by decide +kernel
theorem test_vmulh_i8 : after .V (fun r => { r with v := [(6, 0x80), (9, 0x02)] }) 0x1A332414 (fun t => lane 1 ((t.ctx 0).regs.gv 3) 0) = some (0xFF) := by decide +kernel
theorem test_vaddi_negative : after .V (fun r => { r with v := [(6, 0x05)] }) 0x223303FA (fun t => lane 2 ((t.ctx 0).regs.gv 3) 0) = some (0xFFFF) := by decide +kernel
theorem test_vcmplt_signed : after .V (fun r => { r with v := [(6, 0xFF), (9, 0x00)] }) 0x2E132414 (fun t => (t.ctx 0).regs.gp 1) = some (1) := by decide +kernel
theorem test_vsel : after .V (fun r => { r with v := [(6, 0x1111), (9, 0x2222)], p := [(2, 1)] }) 0x32332698 (fun t => (t.ctx 0).regs.gv 3) = some (0x2211) := by decide +kernel
theorem test_vredadd_i32 : after .V (fun r => { r with v := [(6, 0x0000000300000004)] }) 0x42330024 (fun t => lane 4 ((t.ctx 0).regs.gv 3) 0) = some (7) := by decide +kernel
theorem test_vscanadd_i32 : after .V (fun r => { r with v := [(6, 0x0000000300000004)] }) 0x48330024 (fun t => lane 4 ((t.ctx 0).regs.gv 3) 31) = some (7) := by decide +kernel
theorem test_vperm_out_of_range : after .V (fun r => { r with v := [(6, 0x0807), (9, 0xFF01)] }) 0x4C332418 (fun t => (t.ctx 0).regs.gv 3 &&& 0xFFFF) = some (0x0008) := by decide +kernel
theorem test_vclz : after .V (fun r => { r with v := [(6, 0x01)] }) 0x62330018 (fun t => lane 1 ((t.ctx 0).regs.gv 3) 0) = some (7) := by decide +kernel
theorem test_vslide : after .V (fun r => { r with v := [(6, 0x030201)] }) 0x52330301 (fun t => (t.ctx 0).regs.gv 3) = some (0x0302) := by decide +kernel
theorem test_vandn : after .V (fun r => { r with v := [(6, 0xFF), (9, 0x0F)] }) 0x5E332418 (fun t => lane 1 ((t.ctx 0).regs.gv 3) 0) = some (0xF0) := by decide +kernel
theorem test_pnot : after .V (fun r => { r with p := [(1, 1)] }) 0x76208000 (fun t => (t.ctx 0).regs.gp 2) = some (0xFFFFFFFFFFFFFFFFFFFFFFFFFFFFFFFE) := by decide +kernel
theorem test_mset : after .V (scalars [(6, 0x1F00F)]) 0x7E230000 (fun t => (t.ctx 0).regs.gm 2) = some (0xF00F) := by decide +kernel
theorem test_st_waits_in_the_gate : after .L (fun r => { r with q := [(1, 0x0FFFFFFFFFFFC00000)], s := [(6, 0xFF1234)] }) 0x04610E02 (fun t => (((t.ctx 0).gate.map (·.bytes)), t.spad)) = some (([[(2, 0x34), (3, 0x12)]], [])) := by decide +kernel
theorem test_ld_sign_extends : after .L (fun r => { r with q := [(1, 0x0FFFFFFFFFFFC00000)] }) 0x02310E00 (gs 3) = some (0) := by decide +kernel
theorem test_ld_misaligned : after .L (fun r => { r with q := [(1, 0x0FFFFFFFFFFFC00000)], tvec := 0x8000000000000000 }) 0x02310E01 (fun t => ((t.ctx 0).regs.tcause.toNat % 512, (t.ctx 0).regs.tval)) = some ((65, 0xFFFFFFC00001)) := by decide +kernel
theorem test_amadd_scratchpad : after .L (fun r => { r with q := [(1, 0x0FFFFFFFFFFFC00000)], s := [(6, 5)] }) 0x1E30980A (fun t => (gs 3 t, rdBytes t.spad 0 4)) = some ((0, [5, 0, 0, 0])) := by decide +kernel
theorem test_stmax_signed : after .L (fun r => { r with q := [(1, 0x0FFFFFFFFFFFC00000)], s := [(6, 0xFFFFFFFF)] }) 0x32009809 (fun t => t.spad) = some ([]) := by decide +kernel
theorem test_barv_counts : after .L (fun r => { r with q := [(1, 0x0FFFFFFFFFFFC00000)], s := [(6, 16), (9, 3)] }) 0x4E032400 (fun t => (t.barrier 0 16).count) = some (-3) := by decide +kernel
theorem test_barx_phase_before : after .L (fun r => { r with q := [(1, 0x0FFFFFFFFFFFC00000)], s := [(6, 16), (9, 4)] }) 0x50332400 (fun t => ((t.barrier 0 16).count, (t.barrier 0 16).exp, gs 3 t)) = some ((4, true, 0)) := by decide +kernel
theorem test_fence_is_a_restart_point : after .L (fun r => { r with q := [(1, 0x0FFFFFFFFFFFC00000)] }) 0x3E000001 (fun t => ((t.ctx 0).ck.pc, (t.ctx 0).regs.pc)) = some ((16, 16)) := by decide +kernel
theorem test_unbound_handle : after .L (fun r => { r with q := [(1, 0x0FFFFFFFFFFFC00000)], tvec := 0x8000000000000000 }) 0x42310001 (fun t => (t.ctx 0).regs.tcause.toNat % 512) = some (128) := by decide +kernel
theorem test_tzero_queued : after .E (scalars [(5, 0x4000001)]) 0x14600140 (fun t => t.cmds.map fun c => (c.cid, c.tiles.length)) = some ([(1, 1)]) := by decide +kernel
theorem test_pmsync_reads_pmerr : after .E (scalars []) 0x36300000 (gs 3) = some (0) := by decide +kernel
theorem test_spawn_out_of_image : after .E (scalars [(6, 1), (9, 0)]) 0x4E032400 (fun t => (t.ctx 0).st) = some (CtxState.retiring) := by decide +kernel
theorem test_rtrd_queued : after .E (scalars [(6, 0), (9, 0)]) 0x46332400 (fun t => t.cmds.length) = some (1) := by decide +kernel

/-! ## Witnesses: states and operands that meet the hypotheses of the statements, clause by clause -/

/-- Context 0 with registers captured for issue and standing. -/
def withRegs (r : Regs) : State := { (State.reset.updCtx 0 fun c => { c with regs := r }) with issue := { Issue.zero with lat := r } }
def sregs (xs : List (Nat × Word64)) : State := withRegs (scalars xs .zero)

theorem wit_decodeOfEncode : Instr.cls (.vadd .f32 1 2 31 none) = some .V ∧ WellFormed (.vadd .f32 1 2 31 none) := by decide
theorem wit_encodeOfDecode : decodeSlot .E true 0x80 0x02000000 = .ok (.mma 16 0 0 0 false false false) ∧
  (Instr.mma 16 0 0 0 false false false) ≠ .nop := by decide
theorem wit_nop : SlotClass.V ≠ .S ∧ opOf 1 = 0 ∧ (1 : BitVec 32) ≠ 0 := by decide

/-- A context whose line stands in the instruction cache; and the same core in the clk after a switch. -/
theorem wit_stepRuns : let s := State.reset.withFetchWord 32 0x02000000
    let s2 := s.enter 0
    s.agenda = [] ∧ s.turn < Config.cores ∧ (s.ctx 0).st = .running ∧ (s.ctx 0).held = none ∧ (s.ctx 0).preempted = false ∧
    (s.ctx 0).leaving = false ∧ (s.core 0).bubble = false ∧ (s.ctx 0).draining = false ∧ (s2.ctx 0).conflict = false ∧
    (s2.ctx 0).nextOwed = none ∧ ((s2.core (coreOf 0)).icFind (s2.ctx 0).regs.pc (s2.launchOf 0)).isSome = true ∧
    ((s.updCore 0 fun k => { k with bubble := true }).core 0).bubble = true := by decide +kernel
theorem wit_issueRuns : Instr.isLast .nop = false ∧ ∃ t1 t2 t3 t4 : State,
    ((State.reset.divIssue ⟨false, false, .nop, .nop, .nop, .nop⟩).bump 2 State.reset.cur 1).runSlot (0, .nop) = .next t1 ∧ t1.runSlot (3, .nop) = .next t2 ∧
    t2.runSlot (2, .nop) = .next t3 ∧ t3.runSlot (1, .nop) = .next t4 ∧ t4.issue.trapped = false :=
  ⟨rfl, _, _, _, _, rfl, rfl, rfl, rfl, rfl⟩
theorem wit_issueEnds : Instr.isLast .endCtx = true ∧ ∃ t1 t2 t3 t4 : State,
    ((State.reset.divIssue ⟨false, false, .endCtx, .nop, .nop, .nop⟩).bump 2 State.reset.cur 1).runSlot (3, .nop) = .next t1 ∧
    t1.runSlot (2, .nop) = .next t2 ∧ t2.runSlot (1, .nop) = .next t3 ∧ (t3.updRegs Regs.fmtCount).runSlot (0, .endCtx) = .next t4 :=
  ⟨rfl, _, _, _, _, rfl, rfl, rfl, rfl⟩
theorem wit_stepEvents : Instr.inSlot (.slotMapping 0) = false ∧ State.reset.agenda = [] ∧ State.reset.turn = Config.cores ∧
  State.reset.due = some .coldReset ∧ { State.reset with dies := [(0, { DieSt.zero with boot := 6 })] }.due = none ∧
  Instr.inSlot .nop = true ∧ ({ State.reset with agenda := [.nop] }).agenda = [.nop] ∧ State.reset.heldAccess = none := by decide +kernel
/-- The last core's contexts: one that runs, then one that left it, with the next Ready or none; and one that is Blocked with and without
its condition. -/
def lastCore (a b : CtxState) (w : Option Bundle) : State :=
  let c (x : CtxState) (w : Option Bundle) : Ctx := { Ctx.zero with st := x, waitOn := w }
  { State.reset with ctxs := [(508, c a none), (511, c b w)], turn := 127 }
def waits3 : Bundle := ⟨false, false, .wait 3, .nop, .nop, .nop⟩
theorem wit_coreSelects : (((lastCore .running .ready none).ctx 508).st = .running ∧ ((lastCore .running .ready none).ctx 508).live = true) ∧
  (let s := lastCore .blocked .ready none; (s.ctx 508).st ≠ .running ∧ (s.core 127).cur = 0 ∧ (s.ctx 511).st = .ready ∧
    (s.ctx 511).live = true ∧ ∀ j, 1 ≤ j → j < 3 → (s.ctx (4 * 127 + (0 + j) % 4)).st ≠ .ready) ∧
  (let s := lastCore .blocked .blocked none; ∀ j, 1 ≤ j → j ≤ 4 → (s.ctx (4 * 127 + (0 + j) % 4)).st ≠ .ready) ∧
  (127 + 1 ≥ Config.cores ∧ 126 + 1 < Config.cores) ∧
  (let s := lastCore .running .blocked (some waits3); (s.ctx 511).st = .blocked ∧ (s.ctx 511).live = true ∧ s.unblocked 511 = false) ∧
  (lastCore .running .blocked none).unblocked 511 = true := by
  refine ⟨by decide +kernel, ⟨by decide +kernel, by decide +kernel, by decide +kernel, by decide +kernel, ?_⟩, ?_, by decide,
    by decide +kernel, by decide +kernel⟩
  · intro j h1 h2
    obtain rfl | rfl : j = 1 ∨ j = 2 := by omega
    all_goals decide +kernel
  · intro s j h1 h2
    obtain rfl | rfl | rfl | rfl : j = 1 ∨ j = 2 ∨ j = 3 ∨ j = 4 := by omega
    all_goals decide +kernel

theorem wit_division : (withRegs (scalars [(1, 0x8000000000000000), (2, 0xFFFFFFFFFFFFFFFF)] .zero)).rS 2 ≠ 0 ∧
  ((sregs [(1, 0x8000000000000000), (2, 0xFFFFFFFFFFFFFFFF)]).rS 1).toInt = -(2 ^ 63) ∧
  ((sregs [(1, 0x8000000000000000), (2, 0xFFFFFFFFFFFFFFFF)]).rS 2).toInt = -1 := by decide +kernel
/-- A field of one bit at the top, one of 64 bits, one that ends beyond bit 63, and counts of 64 and 65. -/
theorem wit_bitFields : (let o := ((sregs [(2, 63), (3, 1)]).rS 2).toNat; let w := ((sregs [(2, 63), (3, 1)]).rS 3).toNat
    o ≤ 63 ∧ 1 ≤ w ∧ o + w ≤ 64) ∧ (((sregs [(3, 64)]).rS 2).toNat ≤ 63 ∧ ((sregs [(3, 64)]).rS 3).toNat ≤ 64) ∧
  ¬ (((sregs [(2, 63), (3, 2)]).rS 2).toNat + ((sregs [(2, 63), (3, 2)]).rS 3).toNat ≤ 64) ∧
  64 < ((sregs [(3, 65)]).rS 3).toNat ∧ (sregs [(3, 65)]).settled (sregs [(3, 65)]).cur = true := by decide +kernel
theorem wit_predicateCompare : (sregs [(2, 8)]).rS 2 = 8 ∧ (sregs [(2, 1)]).rS 2 = 1 ∧
  (let s := sregs [(2, 3)]; ¬ (s.rS 2 = 1 ∨ s.rS 2 = 2 ∨ s.rS 2 = 4 ∨ s.rS 2 = 8) ∧ s.settled s.cur = true) := by decide +kernel
theorem wit_transfer : ((withRegs { Regs.zero with q := [(1, 16)] }).rQ 1).toNat % 16 = 0 ∧
  (let s := withRegs { Regs.zero with q := [(1, 15)] }; (s.rQ 1).toNat % 16 ≠ 0 ∧ s.settled s.cur = true) := by decide +kernel
/-- Three loops open around the bundle, none of which ends on it; then four. -/
theorem wit_loops : let three : List LoopEnt := [⟨0, 48, 2⟩, ⟨0, 64, 2⟩, ⟨0, 80, 2⟩]
    let s := withRegs { Regs.zero with loops := three, s := [(1, 0xFFFFFFFF), (2, 0x100000000)] }
    let full := withRegs { Regs.zero with loops := ⟨0, 32, 1⟩ :: three, s := [(1, 1)] }
    (1 : Int) ≤ (1#15).toInt ∧ (∀ e, s.lat.loops.head? = some e → e.last ≠ s.issue.pc) ∧ s.lat.loops.length < 4 ∧
    (s.rS 1).toNat < 2 ^ 32 ∧ 2 ^ 32 ≤ (s.rS 2).toNat ∧ (s.rS 3).toNat = 0 ∧ s.settled s.cur = true ∧
    ¬ (1 : Int) ≤ (0#15).toInt ∧ 4 ≤ full.lat.loops.length ∧ (∀ e, full.lat.loops.head? = some e → e.last ≠ full.issue.pc) ∧
    full.settled full.cur = true := by
  refine ⟨by decide, ?_, by decide +kernel, by decide +kernel, by decide +kernel, by decide +kernel, by decide +kernel,
    by decide, by decide +kernel, ?_, by decide +kernel⟩ <;>
  · intro e he
    cases he
    decide
theorem wit_loopRules : (LoopEnt.mk 0 32 2).last = 32 ∧ 1 < (LoopEnt.mk 0 32 2).remaining ∧ (LoopEnt.mk 0 32 1).remaining ≤ 1 ∧
  (LoopEnt.mk 0 48 1).last ≠ 32 := by decide
def tok : Token := ⟨0, 3, 7, 0⟩
theorem wit_contextControl : State.reset.recheck State.reset.cur = .ok ∧ (State.reset.core 0).overflow = false ∧
  takeToken 0 0 (State.reset.core 0).wakeQ = none ∧ takeToken 0 0 [tok] = none ∧
  takeToken 0 1 (({ State.reset with clk := 1 }.updCore 0 fun k => { k with wakeQ := [tok] }).core 0).wakeQ = some (tok, []) ∧
  ((State.reset.updCore 0 fun k => { k with overflow := true }).core 0).overflow = true ∧
  State.reset.settled State.reset.cur = true := by decide +kernel
theorem wit_warm : (let s := sregs [(1, 0x300000), (2, 0x100000)]; (s.rS 1).toNat % 128 = 0 ∧ (s.rS 2).toNat % 128 = 0 ∧
    (s.rS 2).toNat ≤ 2 ^ 20 ∧ (s.rS 1).toNat + (s.rS 2).toNat ≤ 2 ^ 22) ∧ ((sregs []).rS 2).toNat = 0 ∧
  (let s := sregs [(1, 0x3FFF80), (2, 0x100)]; ¬ (s.rS 1).toNat + (s.rS 2).toNat ≤ 2 ^ 22 ∧ (s.rS 2).toNat ≠ 0 ∧
    s.settled s.cur = true) := by decide +kernel
theorem wit_fmt : fmtOk ((sregs [(1, 0xFE888)]).rS 1) = true ∧ fmtOk ((sregs [(1, 0xFE488)]).rS 1) = false ∧
  ({ Regs.zero with fmtPend := [(8, 5)] }).fmtPend = [(8, 5)] ∧ (sregs []).settled (sregs []).cur = true := by decide +kernel
theorem wit_trapAndReturn : State.reset.cx.landings = [] ∧ State.reset.landedBefore State.reset.cur = true ∧
  (withRegs { Regs.zero with tstate := 1 }).lat.tstate.getLsbD 0 = true ∧ State.reset.lat.tstate.getLsbD 0 = false ∧
  State.reset.settled State.reset.cur = true ∧ (0xF00000FFFFFFFFFFF0 : VA).toNat % 16 = 0 ∧
  (0xF00000FFFFFFFFFFF0 : VA).toNat / 2 ^ 48 % 2 ^ 20 = 0 := by decide +kernel
theorem wit_trapEntry : (let s := withRegs { Regs.zero with tvec := 0x8000000000000000 }
    (s.ctx 0).regs.tvec.getLsbD 63 = true ∧ (s.ctx 0).regs.tstate.getLsbD 0 = false ∧ (s.ctx 0).gate = [] ∧
    (s.ctx 0).abortAt = none ∧ (s.ctx 0).preq = false ∧ (s.ctx 0).st ≠ .retiring ∧ (s.ctx 0).engFaults = []) ∧
  (State.reset.ctx 0).regs.tvec.getLsbD 63 = false ∧ (State.reset.ctx 0).launch = none ∧
  ((withRegs { Regs.zero with tstate := 1 }).ctx 0).regs.tstate.getLsbD 0 = true := by decide +kernel
theorem wit_systemRegisters : State.reset.readSR (0xDD : BitVec 12).toNat = State.reset.readSR 0xDD ∧
  (State.reset.readSR 0).isSome = true ∧ (State.reset.readSR 7).isSome = true ∧ State.reset.readSR 3 = none ∧
  State.reset.genQuiet 7 = .ok ∧ State.reset.cx.landings.any (fun l => l.reg == 7 - 4) = false ∧
  mtsrCause 0x25 0 = 0 ∧ mtsrCause 0x17 5 ≠ 0 ∧ mtsrCause 2 0 = 12 ∧ State.reset.settled State.reset.cur = true := by decide +kernel

theorem wit_vectorShift : (31 : BitVec 15).toNat < 8 * Ty.width .i32 ∧ 8 * Ty.width .i32 ≤ (32 : BitVec 15).toNat ∧
  (sregs []).settled (sregs []).cur = true := by decide +kernel
/-- Every pair of kinds of a conversion, and integers below, in and above the range of i8. -/
theorem wit_convert : (3 : BitVec 2).toNat < max (Ty.width .f32 / Ty.width .i8) (Ty.width .i8 / Ty.width .f32) ∧
  (Ty.isFp .f32 || Ty.isF8 .f32) = true ∧ (Ty.isFp .i8 || Ty.isF8 .i8) = false ∧ decodeFP .f32 0x7FC00000 = .nan ∧
  decodeFP .f32 0xFF800000 = .inf true ∧
  (match decodeFP .f32 0x43480000, decodeFP .f32 0xC3480000, decodeFP .f32 0x3F800000 with
   | .fin n1 m1 e1, .fin n2 m2 e2, .fin n3 m3 e3 => let i (n : Bool) (m : Nat) (e : Int) : Int := (roundInt (fmtRnd 0) n m e).1
     decide (tyHi .i8 < i n1 m1 e1) && decide (i n2 m2 e2 < tyLo .i8) && decide (i n3 m3 e3 = 1)
   | _, _, _ => false) = true ∧
  elemInt .i16 0x8000 < tyLo .i8 ∧ tyHi .i8 < elemInt .i16 128 ∧ tyLo .i8 ≤ elemInt .i16 127 ∧ elemInt .i16 127 ≤ tyHi .i8 := by
  decide +kernel
/-- vargmax with every element enabled and with none; vdesc at a node of all ones, with a child that exceeds the target, with one that
only weighs, and with none. -/
theorem wit_sampler : Ty.width .f32 ≤ 4 ∧ (∃ i < 32, enabled 4 ((sregs []).lat.pred none) i = true) ∧
  (∀ i < 32, enabled 4 ((sregs []).lat.pred (some 0)) i = false) ∧ (2 : BitVec 2) ≠ 3 ∧
  lane 4 ((withRegs { Regs.zero with v := [(1, 0xFFFFFFFF00000000)] }).rV 1) 1 = 2 ^ 32 - 1 ∧
  (let el (x : Nat) (i : Nat) := if i < 7 then 0 else x
   let exceeds (u x i : Nat) := elemLt .f32 u (el x i)
   let weighs (x i : Nat) := elemLt .f32 (if i = 0 then 0 else el x (i - 1)) (el x i)
   let one := 0x3F800000
   (exceeds 0 one 7 = true ∧ ∀ i < 7, exceeds 0 one i = false) ∧ (∀ i < 32, exceeds one one i = false) ∧
   (weighs one 7 = true ∧ ∀ i < 32, 7 < i → weighs one i = false) ∧ ∀ i < 32, weighs 0 i = false) := by decide +kernel
theorem wit_vectorMove : (let s := sregs [(1, 31)]; (s.rS 1).toNat < 128 / Ty.width .f32) ∧ (127 : BitVec 15).toNat < 128 / Ty.width .i8 ∧
  ((32640 : BitVec 15).toInt.natAbs ≤ 128 / Ty.width .i8) ∧
  (let s := withRegs { Regs.zero with v := [(1, 0x0100)] }; 1 ≤ lane 1 (s.rV 1) 1 ∧ lane 1 (s.rV 1) 0 + lane 1 (s.rV 1) 1 ≤ 8 * Ty.width .i8) ∧
  (let s := withRegs { Regs.zero with v := [(1, 0x0801)], s := [(1, 32)] }; 8 * Ty.width .i8 < lane 1 (s.rV 1) 0 + lane 1 (s.rV 1) 1 ∧
    128 / Ty.width .f32 ≤ (s.rS 1).toNat ∧ s.settled s.cur = true) ∧ 128 / Ty.width .f32 ≤ (32 : BitVec 15).toNat := by decide +kernel
/-- A root and one child; a child that names itself; no node, and seventeen. -/
theorem wit_masks : let tree (s : State) : Prop := let count := (s.rS 1).toNat
      let parent (j : Nat) : Int := (BitVec.ofNat 32 (lane 4 (s.rV 1) j)).toInt
      1 ≤ count ∧ count ≤ 16 ∧ ∀ j : Nat, j < count → parent j = -1 ∨ (0 ≤ parent j ∧ parent j < j)
    let s (v : Vec) (n : Word64) : State := withRegs { Regs.zero with v := [(1, v)], s := [(1, n)] }
    tree (s 0xFFFFFFFF 2) ∧ ¬ tree (s 0x1FFFFFFFF 2) ∧ ¬ tree (s 0 0) ∧ ¬ tree (s 0 17) ∧ (s 0x1FFFFFFFF 2).settled (s 0 0).cur = true := by
  decide +kernel
theorem wit_rounding : decodeFP .f32 0x7FC00000 = .nan ∧ decodeFP .e4m3 0x7E ≠ .nan ∧ 0x7F800000 < 2 ^ Fmt.bits .f32 := by decide +kernel

theorem wit_scalarFrame : Instr.sOnly (.add 3 1 2) = some 3 ∧ Instr.verdict (.add 3 1 2) State.reset = .ok ∧
  ∃ t, exec (.add 3 1 2) State.reset = .next t := ⟨rfl, rfl, _, rfl⟩
theorem wit_otherFrames : (Instr.qOnly (.qadd 3 1 2) = some 3 ∧ ∃ t, exec (.qadd 3 1 2) State.reset = .next t) ∧
  (Instr.pOnly (.pand 3 1 2) = some 3 ∧ Instr.verdict (.pand 3 1 2) State.reset = .ok ∧
    ∃ t, exec (.pand 3 1 2) State.reset = .next t) ∧
  (Instr.mOnly (.mand 3 1 2) = some 3 ∧ ∃ t, exec (.mand 3 1 2) State.reset = .next t) :=
  ⟨⟨rfl, _, rfl⟩, ⟨rfl, rfl, _, rfl⟩, ⟨rfl, _, rfl⟩⟩
theorem wit_vectorFrame : Instr.vOnly (.vmov .f32 3 1 none) = some 3 ∧ Instr.verdict (.vmov .f32 3 1 none) State.reset = .ok ∧
  ∃ t, exec (.vmov .f32 3 1 none) State.reset = .next t := ⟨rfl, rfl, _, rfl⟩
theorem wit_failedCheck : Instr.inSlot (.tret) = true ∧ Instr.verdict .tret State.reset = .trap 10 0 ∧
  State.reset.settled State.reset.cur = true := by decide +kernel
/-- Half an FP32 element of a page of FP32 elements, under an FP16 view: the walk has reached its leaf before the trap. -/
theorem wit_failedWalk : let s : State := { (withRegs { Regs.zero with q := [(1, 0x7E)], view := [(0, 2)] }) with
      tlb := (List.range 16).map fun k => ⟨0, k, 0, 0, 16, 0x27, []⟩ }
    Instr.verdict (.ld .n16 0 3 1 0) s = .trapAfter 67 0x7E [(0x7E, .read)] ∧ s.settled s.cur = true := by decide +kernel
theorem wit_inSlot : Instr.inSlot .drain = true ∧ Instr.inSlot .nop = true ∧ Instr.inSlot .coldReset = false := by decide
theorem wit_coreTurn : (State.reset.withFetchWord 32 0).agenda = [] ∧ (State.reset.withFetchWord 32 0).turn < Config.cores := by
  decide +kernel

/-- The last byte of the context's scratchpad is 0x0F…FF; q1 to q6 lie 8, 16, 128 and 256 bytes before its end and at its start. -/
def padRegs : Regs := { Regs.zero with
  q := [(1, 0x0FFFFFFFFFFFFFFFF8), (2, 0x0FFFFFFFFFFFFFFFF0), (3, 0x0FFFFFFFFFFFFFFF80), (4, 0x0FFFFFFFFFFFFFFF00),
    (5, 0x0FFFFFFFFFFFC00000)], s := [(1, 16)], v := [(1, ~~~0)] }
def pad : State := withRegs padRegs
theorem wit_loads : pad.loadCheck 0 [pad.eaOff 1 0] 8 8 (pad.vcOf 0) = .ok ∧ pad.loadCheck 0 [pad.eaIdx 5 1 3] 8 8 (pad.vcOf 0) = .ok ∧
  pad.loadCheck 0 [pad.rQ 1] 8 8 (pad.vcOf 0) = .ok ∧ pad.loadCheck 0 [pad.eaOff 3 0] 4 128 (pad.vcOf 0) = .ok ∧
  pad.loadCheck 0 [pad.eaIdx 5 1 3] 4 128 (pad.vcOf 0) = .ok ∧ pad.loadCheck 0 [pad.eaOff 2 0] 4 4 (pad.vcOf 0) = .ok ∧
  pad.loadCheck 0 (pad.strides .f32 5 1 2) 4 4 (pad.vcOf 0) = .ok ∧
  pad.loadCheck 0 ((pad.live .f32 2).map (pad.eaVec .f32 5 2 2)) 4 4 (pad.vcOf 0) = .ok ∧
  pad.loadCheck 0 ((pad.live .f32 1).map (pad.eaVec .f32 5 1 2)) 4 4 (pad.vcOf 0) = .ok ∧
  pad.loadCheck 0 [pad.eaOff 4 0] 4 256 (pad.vcOf 0) = .ok ∧ pad.loadCheck 0 [pad.eaOff 2 0] 16 16 (pad.vcOf 0) = .ok := by decide +kernel
theorem wit_scratchpadLoads : pad.cx.gate = [] ∧ pad.outLocal pad.cur = false ∧
  (∀ va ∈ [(pad.eaOff 1 0, 8), (pad.eaIdx 5 1 3, 8), (pad.rQ 1, 8), (pad.eaOff 3 0, 4), (pad.eaOff 4 0, 4), (pad.eaOff 2 0, 16)],
    isSpad va.1 = true ∧ vaHome va.1 = dieOf pad.cur ∧ va.1.toNat % va.2 = 0 ∧ spadOff va.1 + va.2 ≤ 2 ^ 22) ∧
  (∀ va ∈ [(pad.eaOff 3 0, 128), (pad.eaOff 4 0, 256)], spadOff va.1 + va.2 = 2 ^ 22) ∧
  (∀ e < 32, isSpad (pad.eaStride 5 1 2 e) = true ∧ vaHome (pad.eaStride 5 1 2 e) = dieOf pad.cur ∧
    (pad.eaStride 5 1 2 e).toNat % 4 = 0 ∧ spadOff (pad.eaStride 5 1 2 e) + 4 ≤ 2 ^ 22) ∧
  (∀ e < 32, lane 4 (pad.rV 2) e ≠ 2 ^ 32 - 1 → isSpad (pad.eaVec .f32 5 2 2 e) = true ∧
    vaHome (pad.eaVec .f32 5 2 2 e) = dieOf pad.cur ∧ (pad.eaVec .f32 5 2 2 e).toNat % 4 = 0 ∧
    spadOff (pad.eaVec .f32 5 2 2 e) + 4 ≤ 2 ^ 22) := by decide +kernel
theorem wit_stores : pad.storeCheck 0 [pad.eaOff 1 0] 8 8 = .ok ∧ pad.storeCheck 0 [pad.eaIdx 5 1 3] 8 8 = .ok ∧
  pad.storeCheck 0 [pad.rQ 1] 8 8 = .ok ∧ pad.storeCheck 0 [pad.eaOff 3 0] 4 128 = .ok ∧ pad.storeCheck 0 [pad.eaIdx 5 1 3] 4 128 = .ok ∧
  pad.storeCheck 0 (pad.strides .f32 5 1 2) 4 4 = .ok ∧ pad.storeCheck 0 ((pad.live .f32 2).map (pad.eaVec .f32 5 2 2)) 4 4 = .ok ∧
  pad.storeCheck 0 [pad.eaOff 2 0] 16 16 = .ok := by decide +kernel
theorem wit_storedBytes : ∀ b ∈ vaBytes (pad.eaOff 1 0) (toLE 8 7), isSpad b.1 = true :=
  fun b hb => List.all_eq_true.mp (by decide +kernel : (vaBytes (pad.eaOff 1 0) (toLE 8 7)).all (fun b => isSpad b.1) = true) b hb
theorem wit_gatedStores : (GateEnt.mk true 32767 0 0 3 [(127, 5), (127, 6)] 2 true false 0).spad = true ∧
  isSpad (0x0FFFFFFFFFFFFFFFF8 : VA) = true ∧ (0x0FFFFFFFFFFFFFFFF8 : VA).toNat % Ty.width .i64 = 0 ∧
  ((GateEnt.mk true 32767 0 0 3 [(127, 5), (127, 6)] 2 true false 0).bytes = [(127, 5)] ++ (127, 6) :: [] ∧
    ∀ x ∈ ([] : List (Nat × Byte)), pad.spadKey 0 x.1 ≠ pad.spadKey 0 127) := by
  refine ⟨by decide, by decide, by decide, rfl, ?_⟩
  simp
theorem wit_atomics : checkAtomic .i64 1 0 pad = .ok ∧ isSpad (pad.rQ 1) = true ∧ (pad.rQ 1).toNat % Ty.width .i64 = 0 ∧
  sget [] pad.skews (clusterOf pad.cur) = [] ∧ pad.cx.gate = [] ∧ (2 : Nat) ^ 64 - 1 < 2 ^ (8 * Ty.width .i64) := by decide +kernel
theorem wit_ordering : pad.recheck pad.cur = .ok ∧ pad.cmds = [] ∧ pad.cx.gate = [] ∧
  pad.prefLine (pad.eaOff 1 0) false 0 = none ∧ isSpad (pad.eaOff 1 0) = true := by decide +kernel
/-- A context at LEVEL 0 is its own domain. -/
theorem wit_dsyncDone : (let s := { State.reset with ctxs := [(0, { Ctx.zero with st := .running, launch := some 0 })] }
    s.recheck s.cur = .ok ∧ s.dsyncArrive.dsyncDone = true) := by decide +kernel
/-- Two contexts of a launch in one core's domain: the first waits for the second, then both have arrived. -/
def twoOf (a b : Nat) : State :=
  let c (k : Nat) : Ctx := { Ctx.zero with st := .running, launch := some 0, dom := domWord 1 0 1 0, arrived := k }
  { State.reset with ctxs := [(0, c a), (1, c b)], launches := [(0, { Launch.zero with active := true })] }
theorem wit_dsyncBlocks : (twoOf 0 0).recheck 0 = .ok ∧ (twoOf 0 0).dsyncArrive.dsyncDone = false := by decide +kernel
theorem wit_domain : ((twoOf 1 1).domain 0).Nodup ∧ (twoOf 1 1).domain 0 ≠ [] ∧
  (∀ m ∈ (twoOf 1 1).domain 0, ((twoOf 1 1).ctx m).synced < ((twoOf 1 1).ctx m).arrived) ∧
  ¬ (∀ m ∈ (twoOf 1 0).domain 0, ((twoOf 1 0).ctx m).synced < ((twoOf 1 0).ctx m).arrived) := by decide +kernel

/-- A buffer of two slots, one filled, whose consumer and producer is context 0. -/
def buf (filled : Nat) (stream : Bool) : State :=
  { (pad.upd fun c => { c with cb := [(3, 1)] }) with cbufs := [(0, ⟨true, 0, 0, 1, 0, 1, filled, 0, stream, 0, 0⟩)] }
theorem wit_buffers : (buf 1 false).bound (buf 1 false).cur 3 = some 0 ∧ (2 : BitVec 23).toNat ≠ 0 ∧
  (2 : BitVec 23).toNat ≤ ((buf 1 false).cbuf 0).n ∧ ((buf 1 false).cbuf 0).cons = partyOf (buf 1 false).cur ∧
  ((buf 1 false).cbuf 0).prod = partyOf (buf 1 false).cur ∧ (1 : BitVec 23).toNat ≤ ((buf 1 false).cbuf 0).filled ∧
  ((buf 1 false).cbuf 0).filled < (2 : BitVec 23).toNat ∧ (1 : BitVec 23).toNat ≤ ((buf 1 false).cbuf 0).free ∧
  ((buf 1 false).cbuf 0).free < (2 : BitVec 23).toNat ∧ (buf 1 false).recheck (buf 1 false).cur = .ok ∧
  (buf 1 false).settled (buf 1 false).cur = true ∧ ((buf 1 true).cbuf 0).stream = true ∧ ((buf 1 true).cbuf 0).filled ≠ 0 ∧
  (buf 1 false).bound (buf 1 false).cur 4 = none ∧ ((buf 1 false).released (buf 1 false).cur).outSpad (buf 1 false).cur = false ∧
  ((buf 1 true).released (buf 1 true).cur).outLocal (buf 1 true).cur = false := by decide +kernel
/-- An invalid descriptor, then a valid one of a free entry. -/
theorem wit_bind : checkCbbind 2 5 0 pad = .ok ∧ (pad.cbDesc 5 0).testBit 74 = false ∧
  (let s := { pad with spad := [(9, 4)] }; checkCbbind 2 5 0 s = .ok ∧ (s.cbDesc 5 0).testBit 74 = true ∧
    (s.unbind s.cur 2).entryAt (clusterOf s.cur) (cbufOfDesc (s.cbDesc 5 0)).base = none) := by decide +kernel
theorem wit_pointers : (CBuf.mk true 0 0 1 0 1 1 0 false 0 0).pointersOk = true ∧ 1 ≤ (CBuf.mk true 0 0 1 0 1 1 0 false 0 0).free ∧
  1 ≤ (CBuf.mk true 0 0 1 0 1 1 0 false 0 0).filled := by decide
theorem wit_barriers : (let s := sregs [(1, 0x3FFFF0), (2, 0x7FFFFFFF)]; (s.rS 1).toNat % 16 = 0 ∧ (s.rS 1).toNat < 2 ^ 22 ∧
    (s.rS 2).toNat < 2 ^ 31 ∧ 1 ≤ (s.rS 2).toNat ∧ s.bankReady = .ok ∧ s.outLocal s.cur = false ∧ s.cx.gate = [] ∧
    (((s.releaseGate s.cur).barrier 0 0x3FFFF0).arrive 0x7FFFFFFF).inRange = true ∧
    (((s.releaseGate s.cur).barrier 0 0x3FFFF0).expect 0x7FFFFFFF).inRange = true ∧
    s.phaseFor 0x3FFFF0 ≠ (s.rS 2).toNat % 65536 ∧ s.phaseFor 0x3FFFF0 = (s.rS 3).toNat % 65536 ∧
    sget [] s.skews 0 = []) ∧ (Barrier.mk (-(2 ^ 31)) 65535 true).inRange = true ∧ (Barrier.mk 0 65535 true).count = 0 := by decide +kernel
/-- Two rows of 32 FP32 elements at offset 128, entered, then removed. -/
theorem wit_skew : checkSpmode 1 2 (sregs [(1, 128 + 2 ^ 22 + 31 * 2 ^ 30), (2, 1)]) = .ok ∧
  checkSpmode 1 3 (sregs [(1, 128 + 2 ^ 22 + 31 * 2 ^ 30), (2, 1)]) = .ok ∧ 0 < (Skew.mk 128 2 128 none).rb ∧
  (let e := Skew.mk 128 2 128 none; e.offset ≤ 383 ∧ 383 < e.offset + e.rows * e.rb ∧ 127 < e.offset ∧ e.offset + e.rows * e.rb ≤ 384) := by
  decide +kernel
theorem wit_blockGather : checkBgath 3 1 5 1 false
  { (buf 0 false) with
      cbufs := [(0, ⟨true, 0, 0, 1, 0, 0, 0, 0, false, 16, 0⟩)],
      issue := { (buf 0 false).issue with lat := { padRegs with s := [(1, 63 + 2 ^ 6 + 2 ^ 32)] } } } = .ok := by decide +kernel

/-! Engine commands -/

theorem wit_commands : (let s := withRegs { padRegs with s := [(1, 7), (2, 0)] };
    Instr.queued (.tzero 4 1) = true ∧ Instr.verdict (.tzero 4 1) s = .ok ∧
    Instr.queued (.tokcommit 3 2 2) = true ∧ Instr.verdict (.tokcommit 3 2 2) s = .ok ∧
    Instr.queued (.rtrd 3 1 2) = true ∧ Instr.verdict (.rtrd 3 1 2) s = .ok) ∧
  Instr.queued (.pmvec 5 1 0) = true ∧
  (let s := withRegs { padRegs with s := [(1, 9 + 16 * 2 ^ 32)] };
    Instr.queued (.copy 5 5 1 false) = true ∧ Instr.verdict (.copy 5 5 1 false) s = .ok) := by decide +kernel
/-- A tzero of tile 5 that waits to fire, and the same command fired. -/
def tz : State :=
  let s := (withRegs { Regs.zero with s := [(1, 7)] })
  match exec (.tzero 4 1) s with
  | .next t => t
  | _ => s
theorem wit_fire : ∃ c, tz.cmd 0 = some c ∧ tz.mayFire c = true ∧ tz.mayRetire c = false ∧ (∃ x, c.tiles = [x]) ∧
    tz.cmd 1 = none ∧ tz.mayRetire { c with st := .fired } = true ∧ tz.mayFire { c with st := .fired } = false :=
  ⟨_, rfl, by decide +kernel, by decide +kernel, ⟨_, rfl⟩, by decide +kernel, by decide +kernel, by decide +kernel⟩
theorem wit_pmsync : (∀ x ∈ tz.cmds, x.ctx = tz.cur → Instr.unit x.ins ≠ .pm) ∧
  (let s := (State.reset.enqueue (State.reset.newCmd (.pmclr 1 2) 0 [])); ∃ x ∈ s.cmds, x.ctx = s.cur ∧ Instr.unit x.ins = .pm) := by
  decide +kernel
/-- A launch of two bundles; context 15 of the cluster is free, context 0 is not. -/
def spawner : State :=
  { (sregs [(1, 15), (2, 1), (3, 0)]).updCtx 0 fun c => { c with launch := some 0, st := .running } with
    launches := [(0, { Launch.zero with active := true, image := 2 <<< 128 })] }
theorem wit_spawn : (spawner.rS 1).toNat ≤ 15 ∧ (spawner.rS 2).toNat < (spawner.launchOf spawner.cur).nbundle ∧
  (spawner.ctx (clusterOf spawner.cur * 16 + 15)).free = true ∧ (spawner.ctx (clusterOf spawner.cur * 16 + 0)).free = false ∧
  spawner.settled spawner.cur = true := by decide +kernel

/-! Events -/

/-- Queue 8191 of die 3, enabled, with a ring of 16 records in a page whose translation slice 0 of die 0 holds. -/
def queued : State := { State.reset with
  mem := [(3 * 2 ^ 48 + 7, 0x80)],
  tlb := [⟨0, 0, 0, 0, 16, 0xE7, []⟩],
  dies := [(3, { DieSt.zero with boot := 4, svc := 2 })],
  queues := [(8191, { Queue.zero with bound := true, enabled := true, die := 3, desc := 1 <<< 63 })] }
theorem wit_queueOn : queued.queueOn 8191 = true ∧ (8191 : Nat) < 8192 ∧ queued.sleep = .awake ∧ (queued.die 3).boot ≠ 6 ∧
  (queued.queue 8191).bound = true ∧ (queued.queue 8191).unbinding = false ∧ (queued.queue 8191).die = 3 ∧
  ((16 : BitVec 32) - (queued.queue 8191).rd).toNat ≤ 16 * 2 ^ fld (queued.queue 8191).desc 56 4 ∧
  16 * 2 ^ fld (queued.queue 8191).desc 56 4 < ((17 : BitVec 32) - (queued.queue 8191).rd).toNat := by decide +kernel
/-- A queue that waits alone for a slot of its die with a record to start, and the slot that is free. -/
def waiter : State := queued.updQueue 8191 fun u => { u with wr := 1 }
theorem wit_slotMapping : waiter.waiting 3 = [8191] ∧ waiter.freeSlot 3 = some 0 ∧ (waiter.die 3).mapAt ≤ waiter.clk ∧
  waiter.clk < ((waiter.updDie 3 fun k => { k with mapAt := 1 }).die 3).mapAt ∧
  { waiter with dies := (0, { DieSt.zero with boot := 4 }) :: waiter.dies }.due = some (.slotMapping 3) := by decide +kernel
/-- The queue with its slot; the zero record breaks R24, since it names no die. -/
def holder : State := waiter.updQueue 8191 fun u => { u with slot := some 0 }
theorem wit_launch : (holder.queue 8191).slot.isSome = true ∧ holder.nextRecord 8191 = some 0 ∧ holder.mayStart 8191 = true ∧
  recOk 0 = false ∧ (waiter.queue 8191).slot = none := by decide +kernel
theorem wit_noQueue : (8192 : Nat) ≤ 8192 := by decide

theorem wit_contextEvents : (511 : Nat) < 512 ∧ (512 : Nat) ≤ 512 ∧
  (let c := { Ctx.zero with landings := [⟨24, 3, 65537⟩] }; c.landings = [⟨24, 3, 65537⟩] ∧
    (Landing.mk 24 3 65537).due ≤ ({ State.reset with clk := 24 }).clk) ∧ State.reset.heldWrites = [] := by decide +kernel
theorem wit_commit : (State.reset.ctx 511).gate = [] ∧ (State.reset.ctx 511).abortAt = none ∧ (State.reset.ctx 511).preq = false := by
  decide +kernel
/-- A context held on the one range of its die's closed batch. -/
def fault : FaultRec := ⟨96, 5, 0x10000, 0, false⟩
def range : FRange := ⟨96, 0, false, 5, 0, 0x10000, 1, 1, 7, 0, true, true⟩
def heldState : State :=
  (State.reset.updCtx 9 fun c => { c with held := some fault }).updDie 0 fun k => { k with ranges := [range], boot := 4 }
theorem wit_answer : (heldState.die 0).ranges = [range] ∧ range.batch % 2 ^ 32 = fld (7 : BitVec 64) 0 32 ∧
  range.index = fld (7 : BitVec 64) 32 8 ∧ (7 : BitVec 64).getLsbD 40 = false ∧ (heldState.ctx 9).held = some fault ∧
  range.covers fault = true ∧ heldState.windowOpen 0 = true ∧ ([fault, fault] : List FaultRec).length ≤ 65535 := by decide +kernel

theorem wit_coherence : (127 : Nat) < 128 ∧ (3 : Nat) < 4 ∧ (4 : Nat) ≤ 4 ∧ State.reset.dirFind 5 = none ∧
  ((State.reset.dirPut ⟨5, .S, 2, 0, 0, false, true, 0, 0⟩).dirFind 5).isSome = true ∧ (2 : Nat) ≠ 3 ∧
  ({ State.reset with sleep := .deep }).sleep ≠ .awake := by decide +kernel
/-- A pmclr that has fired and whose group on BGE 127 may start. -/
def clearing : State :=
  { State.reset with cmds := [{ State.reset.newCmd (.pmclr 1 2) 0 [] with st := .fired, lay := (1 : BitVec 512) <<< (160 + 127), lat := { Regs.zero with s := [(1, 0x8000 <<< 32)] } }] }
theorem wit_groups : (127 : Nat) < 128 ∧ (128 : Nat) ≤ 128 ∧ State.reset.cmd 0 = none ∧
  ∃ c, clearing.cmd 0 = some c ∧ c.ins = .pmclr 1 2 ∧ clearing.groupReady c 127 = true := by
  refine ⟨by decide, by decide, rfl, _, rfl, rfl, by decide +kernel⟩
theorem wit_windows : (heldState.windowOpen 0 = true) ∧ ({ State.reset with sleep := .deep }).windowOpen 3 = false ∧
  (0x8000000000000000 : BitVec 64).getLsbD 63 = true := by decide +kernel
theorem wit_cap : (let s := State.reset.updDie 0 fun k => { k with boot := 3 }
    s.sleep = .awake ∧ 2 ≤ (s.die 0).boot ∧ (s.die 0).boot ≠ 6 ∧ (s.die 0).mbstat.getLsbD 0 = false) := by decide +kernel
def full : State := { (State.reset.updDie 0 fun k => { k with boot := 4, svc := 2 }) with cap := 500 }
theorem wit_management : full.sleep = .awake ∧ (full.die 0).svc = 2 ∧ full.cap < (501 : BitVec 16).toNat ∧
  ((500 : BitVec 16).toNat ≤ full.cap ∧ 9 * full.cap < 10 * (451 : BitVec 16).toNat) ∧ 10 * (450 : BitVec 16).toNat ≤ 9 * full.cap ∧
  full.under < 9 ∧ 9 ≤ { full with under := 9 }.under ∧ State.reset.fwOk State.reset.fw = false ∧
  ((State.reset.updDie 0 fun k => { k with boot := 3 }).die 0).boot = 3 ∧ ({ State.reset with sleep := .deep }).sleep ≠ .awake ∧
  2 ≤ (full.die 0).boot ∧ (full.die 0).mbstat.getLsbD 0 = false ∧ (full.die 0).boot ≠ 6 ∧ full.windowReached 0 = true ∧
  (full.die 0).ering.getLsbD 63 = false ∧ (let k : DieSt := { DieSt.zero with ering := 1 <<< 63 }
    k.ering.getLsbD 63 = true ∧ full.postDown 0 (ringKey k.ering k.erwr) 332 = false ∧ (k.erwr - k.errd).toNat < ringSize k.ering) ∧ fld (0x0507 : BitVec 64) 0 8 = 7 ∧
  fld (0x0507 : BitVec 64) 16 48 = 0 ∧ (4 : Nat) ≤ 4 := by decide +kernel
theorem wit_memory : State.reset.memWf ∧ ∃ t, step State.reset = .next t := ⟨reset_memWf, _, rfl⟩

/-! Ordinary memory -/

/-- The first page of die 0's memory, at VA 0 of address space 0; core 0's L1 holds its first line in E. -/
def mapped : State :=
  { withRegs { padRegs with q := padRegs.q ++ [(6, 0x7C)] } with tlb := (List.range 16).map fun k => ⟨0, k, 0, 0, 16, 0xE7, []⟩ }
def line0 : Copy := ⟨0, 0, 0, .E, 3, 0, false, 0, 7⟩
def cached : State := mapped.updCore 0 fun k => { k with l1 := [line0] }
/-- A store of the line's last four bytes. -/
def gated : GateEnt := ⟨false, 0, 0, 0, 3, [(124, 5), (125, 6), (126, 7), (127, 8)], 4, true, false, 0⟩
theorem wit_ownedStore : gated.spad = false ∧ gated.isReg = false ∧ cached.lineHeld gated.line (gated.bytes.map (·.1)) = false ∧
  cached.l1Find (coreOf 0) gated.line = some line0 ∧ line0.st ≠ .S ∧ line0.tagged gated.asid gated.va = true ∧
  (∀ c ∈ cached.cores, c.1 ≠ coreOf 0 → ∀ y ∈ c.2.l1, y.line = gated.line → y.st ≠ .M) := by
  refine ⟨by decide, by decide, by decide +kernel, by decide +kernel, by decide, by decide +kernel, ?_⟩
  intro c hc
  cases (List.mem_singleton.mp hc)
  exact fun h => absurd rfl h
theorem wit_plainStore : isWin gated.line = false ∧ isHost gated.line = false ∧ lineDie gated.line = dieOf 0 ∧ (∀ b ∈ gated.bytes, b.1 < 128) ∧
  mapped.lineHeld gated.line (gated.bytes.map (·.1)) = false ∧ mapped.badUnits = [] ∧ mapped.dirFind gated.line = none ∧
  (∀ c ∈ mapped.cores, ∀ y ∈ c.2.l1, y.line ≠ gated.line) ∧
  ((mapped.die (dieOf 0)).l2.filter fun x => x != gated.line && x % 16 == gated.line % 16).length < Config.l2Lines ∧
  sget none mapped.cxl gated.line = none := by decide +kernel
theorem wit_memoryLoad : isSpad (0x7C : VA) = false ∧ fld (0x7C : VA) 0 7 + 4 ≤ 128 ∧ mapped.place 0 0x7C .read = .ok ⟨0, 3, false, none⟩ ∧
  mapped.loadCheck 0 [mapped.rQ 6] 4 4 (mapped.vcOf 0) = .ok ∧ mapped.storeCheck 0 [mapped.rQ 6] 4 4 = .ok ∧
  (mapped.tlbFind (mapped.asidOf mapped.cur) (lineVA 0x7C) .write).isSome = true ∧
  (served 0 2).isSome = true ∧ served 3 2 = none ∧ (0 : Nat) < 128 / (4 : Nat) := by decide +kernel
theorem wit_memoryAtomic : cached.cx.gate = [] ∧ cached.tlbFind (cached.asidOf cached.cur) 0x7C .write = some ⟨0, 0, 0, 0, 16, 0xE7, []⟩ ∧
  cached.place (cached.asidOf cached.cur) 0x7C .write = .ok ⟨0, 3, false, none⟩ ∧
  cached.l1Find (coreOf cached.cur) 0 = some line0 ∧ line0.tagged (cached.asidOf cached.cur) (BitVec.ofNat 72 ((0x7C : VA).toNat / 128 * 128)) = true ∧
  cached.place (cached.asidOf cached.cur) 0x7C .read = .ok ⟨0, 3, false, none⟩ ∧
  cached.lineHeld 0 ((List.range 4).map (fld (0x7C : VA) 0 7 + ·)) = false := by decide +kernel

/-! Clauses of the statements above that came later -/
theorem wit_bareBundle : decodeSlot .V false 0 0x02331744 = .ok (.vadd .bf16 3 6 5 (some 5)) ∧
  (Instr.vadd .bf16 3 6 5 (some 5)) ≠ .nop := by decide
/-- A trap in a launch with no status, and with a command's fault owed. -/
theorem wit_trapOwed : (State.reset.ctx 0).engFaults = [] ∧
  (let s := { State.reset with launches := [(0, { Launch.zero with active := true })],
                               ctxs := [(0, { Ctx.zero with launch := some 0 })] };
    (s.ctx 0).launch = some 0 ∧ (s.launchRec 0).status = 0 ∧ (s.ctx 0).regs.tvec.getLsbD 63 = false) ∧
  (let s := State.reset.updCtx 0 fun c => { c with engFaults := [(96, 0x1000)] }; (s.ctx 0).engFaults = [(96, 0x1000)]) := by
  decide +kernel
theorem wit_readBack : State.reset.issue.flags = 0 ∧ 0x10 ≤ (0x17 : BitVec 12).toNat ∧ (0x17 : BitVec 12).toNat ≤ 0x17 ∧
  0xC0 ≤ (0xCF : BitVec 12).toNat ∧ (0x6F : BitVec 12).toNat ≤ 0x6F := by decide
/-- A slide by −17 of sixteen elements, and a field of no bits. -/
theorem wit_vectorMoveTraps : 128 / Ty.width .i64 < (0x7FEF : BitVec 15).toInt.natAbs ∧ lane 1 ((sregs []).rV 1) 1 = 0 ∧
  (sregs []).settled (sregs []).cur = true := by decide +kernel
/-- A block gather waits in the queue, before a fence and a drain of its context. -/
def gathering : State := pad.enqueue (pad.newCmd (.bgath 1 2 5 1 false) 0 [])
theorem wit_orderingWaits : gathering.recheck gathering.cur = .ok ∧ (∃ c ∈ gathering.cmds, c.ctx = gathering.cur ∧ c.ins = .bgath 1 2 5 1 false) ∧
  gathering.cx.joined = false ∧ (2 : BitVec 2).getLsbD 1 = true ∧ pad.releaseReady pad.cur 3 = true ∧
  gathering.releaseReady gathering.cur 1 = true ∧ gathering.releaseReady gathering.cur 2 = false ∧
  (let d (s : State) := s.upd fun c => { c with draining := true }
   ((d pad).ctx 0).draining = true ∧ (d pad).readsDone 0 = true ∧ (d pad).outs 0 = [] ∧
   ((d gathering).ctx 0).draining = true ∧ (d gathering).readsDone 0 = false ∧ ((d gathering).ctx 0).conflict = false) := by
  refine ⟨by decide +kernel, ⟨_, .head _, by decide +kernel, rfl⟩, by decide +kernel, by decide, by decide +kernel, by decide +kernel,
    by decide +kernel, by decide +kernel⟩
/-! Commands that fire: operands at both ends of the scratchpad -/

/-- One command, queued, with registers of its own. -/
def withCmd (s : State) (f : Regs → Regs) (i : Instr) (g : Cmd → Cmd) : State :=
  let c := g (s.newCmd i 0 [])
  s.enqueue { c with lat := f c.lat }
def oneCmd (s : State) : Cmd := s.cmds.headD (s.newCmd .nop 0 [])
/-- q7 to q10: 200, 4, 16384 and 64 bytes before the scratchpad's end. -/
def padCmd (ws : List (Nat × Word64)) (i : Instr) (g : Cmd → Cmd) : State :=
  withCmd mapped (fun r => { r with s := ws, q := r.q ++ [(7, 0x0FFFFFFFFFFFFFFF38), (8, 0x0FFFFFFFFFFFFFFFFC),
    (9, 0x0FFFFFFFFFFFFFC000), (10, 0x0FFFFFFFFFFFFFFFC0)] }) i g
/-- The command may fire, from its first byte, in a cluster without skew. -/
def firing (s : State) : Bool :=
  s.cmd 0 == some (oneCmd s) && s.mayFire (oneCmd s) && (oneCmd s).prog == 0 && (sget [] s.skews (clusterOf (oneCmd s).ctx)).isEmpty &&
    (oneCmd s).inBuf2.isNone
def cp (bar : Bool) : State := padCmd [(1, 200 <<< 32), (2, 256)] (.copy 5 7 1 bar) id
theorem wit_copy : firing (cp true) = true ∧ (let cp := cp false; firing cp = true ∧ isSpad ((oneCmd cp).lat.gq 5) = true ∧ isSpad ((oneCmd cp).lat.gq 7) = true ∧
  spadOff ((oneCmd cp).lat.gq 7) + fld ((oneCmd cp).w 1 0) 32 32 = 2 ^ 22 ∧
  spadOff ((oneCmd cp).lat.gq 5) + fld ((oneCmd cp).w 1 0) 32 32 ≤ fld ((oneCmd cp).w 1 1) 0 22 ∧
  fld ((oneCmd cp).w 1 1) 0 22 + 16 ≤ spadOff ((oneCmd cp).lat.gq 7)) := by decide +kernel
/-- Pages of a command's source are known, and their reads are quiet. -/
def still (s : State) (src : VA) (off len : Nat) : Bool :=
  s.devFaults.isEmpty && (segs (qoff src (off : Int)) len).all fun x =>
    !isSpad x.1 && (s.tlbFind (oneCmd s).asid x.1 .read).isSome
/-- Eight bytes of two memory lines, with a barrier that the copy arrives at. -/
def cpm : State := padCmd [(1, 8 <<< 32), (2, 256)] (.copy 6 1 1 true) id
theorem wit_copyFromMemory : firing cpm = true ∧ (let c := oneCmd cpm
    fld (c.w 1 0) 32 32 = 8 ∧ spadOff (c.lat.gq 1) + 8 = 2 ^ 22 ∧ fld (c.w 1 1) 0 22 = 256 ∧ (cpm.barrier 0 256).count = 0 ∧
    ((segOffs (c.lat.gq 1) 8).all fun g => still cpm (c.lat.gq 6) g.1 g.2 && (cpm.engRead c (.at (c.lat.gq 6)) g.1 g.2).isOk) = true ∧
    ((segs (c.lat.gq 6) 8).map fun x => (x.2, (cpm.engReadLine 0 0 c.asid x.1 x.2).isOk)) = [(4, true), (4, true)] ∧
    cpm.access 0 none c.asid (c.lat.gq 6) .read 0 = .ok ⟨0, 3, false, none⟩) := by decide +kernel
/-- Eight bytes of the scratchpad to the two lines. -/
def cpw : State := padCmd [(1, 8 <<< 32)] (.copy 1 6 1 false) id
theorem wit_copyToMemory : firing cpw = true ∧ (let c := oneCmd cpw
    let begun := (cpw.bump 12 c.ctx 1).begin_ c
    ((segOffs (c.lat.gq 6) 8).foldlM (fun (t : State) g => t.engWriteLine begun.2 (qoff (c.lat.gq 6) (g.1 : Int))
      (t.spadBytes 0 (spadOff (c.lat.gq 1) + g.1) g.2)) begun.1).isOk = true ∧
    cpw.links = [] ∧ cpw.badUnits = [] ∧ cpw.access 0 none c.asid (c.lat.gq 6) .write 0 = .ok ⟨0, 3, false, none⟩ ∧
    (cpw.tlbFind c.asid (c.lat.gq 6) .write).isSome = true ∧ fld (c.lat.gq 6) 0 7 + 4 = 128 ∧
    cpw.lineHeld 0 ((List.range 4).map (124 + ·)) = false ∧ cpw.dirFind 0 = none ∧ (cpw.die 0).l2 = [] ∧ cpw.cores = []) := by decide +kernel
/-- From the two lines to the two lines, in one row and in two. -/
theorem wit_copyMemoryToMemory : (let s := padCmd [(1, 8 <<< 32)] (.copy 6 6 1 false) id; let c := oneCmd s
    let begun := (s.bump 12 c.ctx 1).begin_ c
    firing s = true ∧ ((segOffs (c.lat.gq 6) 8).foldlM (fun (t : State) (g : Nat × Nat) => match t.engRead begun.2 (.at (c.lat.gq 6)) g.1 g.2 with
      | .error h => Except.error h
      | .ok bs => (t.engMarks begun.2 (.at (c.lat.gq 6)) g.1 g.2).engWriteLine begun.2 (qoff (c.lat.gq 6) (g.1 : Int)) bs) begun.1).isOk = true) ∧
  (let s := padCmd [(1, 2 <<< 48 + 8 <<< 32), (2, 8 <<< 32 + 8)] (.copy2d 6 6 1 false) id; let c := oneCmd s
    let begun := (s.bump 12 c.ctx 1).begin_ c
    let row (i : Nat) : VA := qoff (c.lat.gq 6) (i * 8 : Nat)
    firing s = true ∧ (((List.range 2).flatMap fun i => (segOffs (row i) 8).map fun g => (i, g)).foldlM (fun (t : State) (x : Nat × Nat × Nat) =>
      match t.engRead begun.2 (.at (row x.1)) x.2.1 x.2.2 with
      | .error h => Except.error h
      | .ok bs => (t.engMarks begun.2 (.at (row x.1)) x.2.1 x.2.2).engWriteLine begun.2 (qoff (row x.1) (x.2.1 : Int)) bs) begun.1).isOk = true) := by
  decide +kernel
/-- Two rows of eight bytes, one behind the other, to the end. -/
def cp2 (i : Instr) : State := padCmd [(1, 2 <<< 48 + 8 <<< 32), (2, 8 <<< 32 + 8), (3, 256)] i id
theorem wit_copy2d : firing (cp2 (.copy2d 5 2 1 true)) = true ∧ fld ((oneCmd (cp2 (.copy2d 5 2 1 true))).w 1 2) 0 22 = 256 ∧
  (let s := cp2 (.copy2d 6 2 1 true); let c := oneCmd s; firing s = true ∧
    ∀ i < 2, let src := qoff (c.lat.gq 6) (i * fld (c.w 1 1) 0 32 : Nat)
      ((segOffs (qoff (c.lat.gq 2) (i * fld (c.w 1 1) 32 32 : Nat)) 8).all fun g =>
        still s src g.1 g.2 && (s.engRead c (.at src) g.1 g.2).isOk) = true) ∧
  let cp2 := cp2 (.copy2d 5 2 1 false)
  firing cp2 = true ∧ isSpad ((oneCmd cp2).lat.gq 5) = true ∧ isSpad ((oneCmd cp2).lat.gq 2) = true ∧
  fld ((oneCmd cp2).w 1 0) 48 16 = 2 ∧ fld ((oneCmd cp2).w 1 0) 32 16 = 8 ∧ 8 ≤ fld ((oneCmd cp2).w 1 1) 32 32 ∧
  (∀ i < 2, spadOff ((oneCmd cp2).lat.gq 5) + i * fld ((oneCmd cp2).w 1 1) 0 32 + 8 ≤ 2 ^ 22 ∧
    spadOff ((oneCmd cp2).lat.gq 2) + i * fld ((oneCmd cp2).w 1 1) 32 32 + 8 ≤ 2 ^ 22) ∧
  (∀ i < 2, ∀ k < 2, spadOff ((oneCmd cp2).lat.gq 5) + i * fld ((oneCmd cp2).w 1 1) 0 32 + 8 ≤
    spadOff ((oneCmd cp2).lat.gq 2) + k * fld ((oneCmd cp2).w 1 1) 32 32) := by decide +kernel
/-- A buffer of two slots at the start, its pointers at the second: filled by copyc and by bgath, or drained. -/
def slots2 (filled : Nat) (s : State) : State := { s with cbufs := [(0, ⟨true, 0, 0, 1, 1, 1, filled, 0, false, 0, 0⟩)] }
def cpc : State := slots2 0 (padCmd [(1, 2 <<< 32)] (.copyc 1 4 1 false) fun c => { c with outBuf := some 0, outCount := 2 })
theorem wit_copyc : firing cpc = true ∧ (oneCmd cpc).outBuf = some 0 ∧ (0 : Nat) / 64 = clusterOf (oneCmd cpc).ctx ∧
  (oneCmd cpc).started = [] ∧ (oneCmd cpc).outCount = 2 ∧ (oneCmd cpc).inBuf = none ∧ (oneCmd cpc).inBuf2 = none ∧
  isSpad ((oneCmd cpc).lat.gq 4) = true ∧ fld ((oneCmd cpc).w 1 0) 32 8 = 2 ∧ (cpc.cbuf 0).wp < (cpc.cbuf 0).n ∧
  (cpc.cbuf 0).base + (cpc.cbuf 0).n * (cpc.cbuf 0).size ≤ spadOff ((oneCmd cpc).lat.gq 4) ∧
  (∀ j < 2, spadOff ((oneCmd cpc).lat.gq 4) + j * (cpc.cbuf 0).size + (cpc.cbuf 0).size ≤ 2 ^ 22) := by decide +kernel
/-- Two blocks: the first element in bounds, the second not. -/
def bg : State := slots2 0 (padCmd [(1, 1 <<< 32 + 2 <<< 6)] (.bgath 1 1 4 1 true) fun c =>
  { c with outBuf := some 0, outCount := 2, lat := { c.lat with k := [(1, 1 <<< 32)] } })
theorem wit_bgath : firing bg = true ∧ (oneCmd bg).outCount = bgCnt ((oneCmd bg).w 1 0) ∧ isSpad ((oneCmd bg).lat.gq 4) = true ∧
  bgBound ((oneCmd bg).w 1 0) = 1 ∧ bgIdx ((oneCmd bg).lat.gk 1) ((oneCmd bg).w 1 0) = [0, 1] ∧
  spadOff ((oneCmd bg).lat.gq 4) + (bg.cbuf 0).size ≤ 2 ^ 22 := by decide +kernel
def cpo : State := slots2 2 (padCmd [(1, 2 <<< 32)] (.copyc 1 4 1 true) fun c => { c with inBuf := some 0, inCount := 2 })
theorem wit_copycOut : firing cpo = true ∧ (oneCmd cpo).inBuf = some 0 ∧ (oneCmd cpo).outBuf = none ∧
  isSpad ((oneCmd cpo).lat.gq 4) = true ∧ (cpo.cbuf 0).rp < (cpo.cbuf 0).n ∧
  (cpo.cbuf 0).base + (cpo.cbuf 0).n * (cpo.cbuf 0).size ≤ spadOff ((oneCmd cpo).lat.gq 4) ∧
  spadOff ((oneCmd cpo).lat.gq 4) + fld ((oneCmd cpo).w 1 0) 32 8 * (cpo.cbuf 0).size = 2 ^ 22 := by decide +kernel
/-- The buffer filled from memory, by copyc and by bgath, and drained to it. -/
theorem wit_buffersAndMemory :
  (let s := slots2 0 (padCmd [(1, 2 <<< 32)] (.copyc 1 6 1 false) fun c => { c with outBuf := some 0, outCount := 2 }); let c := oneCmd s
    firing s = true ∧ c.outBuf = some 0 ∧ c.started = [] ∧ c.outCount = fld (c.w 1 0) 32 8 ∧ c.inBuf = none ∧ (s.cbuf 0).wp < (s.cbuf 0).n ∧
    (s.cbuf 0).base + (s.cbuf 0).n * (s.cbuf 0).size ≤ 2 ^ 22 ∧
    ((List.range 2).all fun j => (List.range ((s.cbuf 0).size / 128)).all fun i => let va := qoff (c.lat.gq 6) (j * (s.cbuf 0).size : Nat)
      still s va (128 * i) 128 && (s.engRead c (.at va) (128 * i) 128).isOk) = true) ∧
  (let s := slots2 0 (padCmd [(1, 1 <<< 32 + 2 <<< 6)] (.bgath 1 1 6 1 true) fun c =>
      { c with outBuf := some 0, outCount := 2, lat := { c.lat with k := [(1, 1 <<< 32)] } }); let c := oneCmd s
    firing s = true ∧ c.outCount = bgCnt (c.w 1 0) ∧ bgIdx (c.lat.gk 1) (c.w 1 0) = [0, 1] ∧ bgBound (c.w 1 0) = 1 ∧
    ((List.range ((s.cbuf 0).size / 128)).all fun i =>
      still s (qoff (c.lat.gq 6) 0) (128 * i) 128 && (s.engRead c (.at (qoff (c.lat.gq 6) 0)) (128 * i) 128).isOk) = true) ∧
  (let s := slots2 2 (padCmd [(1, 2 <<< 32)] (.copyc 1 6 1 true) fun c => { c with inBuf := some 0, inCount := 2 }); let c := oneCmd s
    let begun := (s.bump 12 c.ctx 1).begin_ c
    let size := (s.cbuf 0).size
    firing s = true ∧ ((segOffs (c.lat.gq 6) (fld (c.w 1 0) 32 8 * size)).foldlM (fun (t : State) (g : Nat × Nat) =>
      (t.engWriteLine begun.2 (qoff (c.lat.gq 6) (g.1 : Int)) (t.cbBytes 0 (t.cbuf 0).rp (g.1 % size) g.2)).map fun t =>
        t.updCbuf 0 fun b => b.release ((g.1 + g.2) / size - g.1 / size)) begun.1).isOk = true) := by decide +kernel
/-- The largest sub-tile of FP32 elements at the end of the scratchpad. -/
def mv (i : Instr) (w : Word64) : State := padCmd [(1, w), (2, 256), (3, 0x3FC000)] i fun c => { c with tiles := [5] }
def whole : Word64 := 2 <<< 36 + 2 <<< 38
theorem wit_tileMoves : (∀ i ∈ [Instr.tld 4 9 1, .tldsp 4 3 1, .tst 4 9 1, .tstsp 4 3 1], firing (mv i whole) = true) ∧
  firing (mv (.tst 4 10 1) (1 <<< 40)) = true ∧
  (let s := mv (.tld 4 9 1) whole; let c := oneCmd s
    isSpad (c.lat.gq 9) = true ∧ spadVA c.ctx (c.lat.gs 3).toNat = c.lat.gq 9 ∧ canon 0 (s.tile 5).data = true ∧
    mvM (c.w 1 0) = 64 ∧ mvN (c.w 1 0) = 64 ∧ mvFlags (c.w 1 0) = false ∧
    mvN (c.w 1 0) * efWidth (mvElf (c.w 1 0)) ≤ fld (c.w 1 1) 0 32 ∧
    (∀ i < 64, spadOff (c.lat.gq 9) + i * 256 + 64 * efWidth (mvElf (c.w 1 0)) ≤ 2 ^ 22) ∧ spadOff (c.lat.gq 10) + 64 ≤ 2 ^ 22) ∧
  (let s := mv (.tld 4 6 1) whole; let c := oneCmd s; firing s = true ∧
    ∀ i < 64, (still s (c.lat.gq 6) (i * 256) 256 && (s.engRead c (.at (c.lat.gq 6)) (i * 256) 256).isOk) = true) ∧
  mvFlags (1 <<< 40) = true ∧ firing (padCmd [] (.mpld 3 10 1) id) = true ∧ maskOk 0 = true ∧ maskOk 6 = false := by decide +kernel

/-- Sixteen rows of sixteen elements to memory; a tile's flags; a mask read from memory. -/
theorem wit_tileToMemory :
  (let s := mv (.tst 4 6 1) 0; let c := oneCmd s; let w := c.w 1 0
    let begun := (s.bump 12 c.ctx 1).begin_ c
    let row (i : Nat) : VA := qoff (c.lat.gq 6) (i * 256 : Nat)
    firing s = true ∧ mvM w = 16 ∧ mvN w = 16 ∧ mvFlags w = false ∧ canon 0 (s.tile 5).data = true ∧
    (((List.range 16).flatMap fun i => (segOffs (row i) 64).map fun g => (i, g)).foldlM (fun (t : State) (y : Nat × Nat × Nat) =>
      (t.updTile 5 fun z => z.orFlag y.1 0).engWriteLine begun.2 (qoff (row y.1) (y.2.1 : Int)) (List.replicate y.2.2 0)) begun.1).isOk = true) ∧
  (let s := mv (.tst 4 6 1) (1 <<< 40); let c := oneCmd s
    let begun := (s.bump 12 c.ctx 1).begin_ c
    firing s = true ∧ mvFlags (c.w 1 0) = true ∧ ((segOffs (c.lat.gq 6) 64).foldlM (fun (t : State) (g : Nat × Nat) =>
      t.engWriteLine begun.2 (qoff (c.lat.gq 6) (g.1 : Int)) (List.replicate g.2 0)) begun.1).isOk = true) ∧
  (let s := padCmd [] (.mpld 3 6 1) id; let c := oneCmd s
    firing s = true ∧ still s (c.lat.gq 6) 0 64 = true ∧ (s.engRead c (.at (c.lat.gq 6)) 0 64).isOk = true) := by decide +kernel

/-! The matrix and attention commands -/

/-- M, N and K at 64, operands at the two ends of the scratchpad; the source tile of mmas is another one. -/
def mm (i : Instr) (tiles : List Nat) : State := padCmd [(1, 2 <<< 42 + 2 <<< 40 + 1 <<< 32), (2, 64 <<< 32 + 64)] i fun c => { c with tiles := tiles }
theorem wit_matrix : (∀ i ∈ [Instr.mma 4 5 9 1 true false false, .mmaa 4 5 9 1 true false false, .mmtr 4 5 9 1 true false false,
    .mmtra 4 5 9 1 false false false], firing (mm i [5]) = true ∧ (mmForm i).isSome = true) ∧
  firing (mm (.mmas 4 6 9 1 true false) [5, 6]) = true ∧
  (let s := mm (.mma 4 5 9 1 true false false) [5]; let c := oneCmd s
    mmM (c.w 1 0) = 64 ∧ mmN (c.w 1 0) = 64 ∧ mmK (c.w 1 0) = 64 ∧ canon 0 (s.tile 5).data = true ∧ canon 0 (s.tile 6).data = true ∧
    isSpad (c.lat.gq 5) = true ∧ isSpad (c.lat.gq 9) = true) := by decide +kernel
/-- The blocks of an operand are read, each of its bytes in the scratchpad or on a page that is known. -/
def readable (s : State) (o : Opd) : Bool :=
  (List.range (mmK ((oneCmd s).w 1 0) / 32)).all fun k => (List.range (mmM ((oneCmd s).w 1 0))).all fun i =>
    (s.readBlock (oneCmd s) o i k).isOk && (o.reads k).all fun g => (o.src.segs (i * o.stride + g.1) g.2).all fun x =>
      isSpad x.1 || (s.devFaults.isEmpty && (s.tlbFind (oneCmd s).asid x.1 .read).isSome)
/-- A in a buffer's two slots, B on a page of memory: sixteen rows, columns and one block. -/
def mmBuf : State := slots2 2 (padCmd [(1, 0), (2, 64 <<< 32 + 64)] (.mma 4 5 6 1 true true false) fun c =>
  { c with tiles := [5], inBuf := some 0, inCount := 2 })
theorem wit_matrixReads :
    (let s := mm (.mma 4 5 9 1 true false false) [5]; let c := oneCmd s; let f := c.lat.fmt
      readable s (mmOpdA f (c.w 1 0) (.at (c.lat.gq 5)) (fld (c.w 1 1) 0 32)) = true ∧
      readable s (mmOpdB f (c.w 1 0) (.at (c.lat.gq 9)) (fld (c.w 1 1) 32 32)) = true) ∧
    (let s := mmBuf; let c := oneCmd s; let f := c.lat.fmt
      firing s = true ∧ c.outBuf = none ∧ readable s (mmOpdA f (c.w 1 0) (s.srcOf c 5 c.inBuf) (fld (c.w 1 1) 0 32)) = true ∧
      readable s (mmOpdB f (c.w 1 0) (.at (c.lat.gq 6)) (fld (c.w 1 1) 32 32)) = true) := by decide +kernel
/-- One query against one key, no mask; and a causal mask that hides the key. -/
def at1 (masks : SMap (Option (BitVec 512))) (w2 : Word64) : State :=
  { padCmd [(1, 1 <<< 35), (2, 128 <<< 32 + 128), (3, w2)] (.attn 4 5 9 1 3 false) fun c => { c with tiles := [5, 6] } with masks := masks }
theorem wit_attn : firing (at1 [] 0) = true ∧ firing (at1 [(3, some 1)] (1 <<< 32)) = true ∧
  (let c := oneCmd (at1 [] 0);
    isSpad (c.lat.gq 5) = true ∧ isSpad (c.lat.gq 9) = true ∧ c.tiles.length = atH (c.w 1 0) + 1 ∧ c.tiles.Nodup ∧ atQN (c.w 1 0) ≤ 64 ∧
    atKN (c.w 1 0) = 1 ∧ maskedPlain none (c.w 1 0) (c.w 1 2) 0 0 = false ∧
    (atReads (at1 [] 0) c c.lat.fmt (c.w 1 0) (c.w 1 1) (c.w 1 2) (.at (c.lat.gq 5)) (.at (c.lat.gq 9)) none).isOk = true) ∧
  (let s := { (at1 [(3, some (2 ^ 128))] 0) with
       cbufs := [(0, ⟨true, 0, 63, 1, 0, 0, 2, 0, false, 0, 0⟩)]
       cmds := (at1 [(3, some (2 ^ 128))] 0).cmds.map fun c => { c with ins := .attn 4 6 9 1 3 true, inBuf := some 0, inCount := 2 } }
   let c := oneCmd s; let m := s.maskSlot c.ctx 3
   firing s = true ∧ c.outBuf = none ∧ c.inBuf2 = none ∧ atCount s c 3 1 ≤ (s.cbuf 0).n ∧ (∀ y ∈ c.tiles, canon 0 (s.tile y).data = true) ∧
   (match atReads s c c.lat.fmt (c.w 1 0) (c.w 1 1) (c.w 1 2) (.at (c.lat.gq 6)) (s.srcOf c 9 c.inBuf) m with
    | .ok rd => !rd.made.isEmpty && rd.made.all fun x => (x.1.segs x.2.1 x.2.2).all fun y =>
       isSpad y.1 || (s.devFaults.isEmpty && (s.tlbFind c.asid y.1 .read).isSome)
    | .error _ => false) = true) ∧
  (let s := at1 [(3, some (1 + 2 ^ 128))] (1 <<< 32); let c := oneCmd s;
    ∀ i < atQN (c.w 1 0), ∀ j < atKN (c.w 1 0), maskedPlain (s.maskSlot c.ctx 3) (c.w 1 0) (c.w 1 2) i j = true) := by decide +kernel
/-- Sixty-four rows of thirty-two FP32 elements, the last of them at the end of the scratchpad. -/
def af : State := padCmd [(1, 63 <<< 39), (2, 256)] (.attnf 4 9 1) fun c => { c with tiles := [5, 6] }
theorem wit_attnf : firing af = true ∧ (let c := oneCmd af;
  isSpad (c.lat.gq 9) = true ∧ c.tiles.length = atH (c.w 1 0) + 1 ∧ c.tiles.Nodup ∧ fld (c.w 1 0) 39 7 + 1 = 64 ∧
  atDH (c.w 1 0) * efWidth (fld (c.w 1 0) 35 4) ≤ fld (c.w 1 1) 0 32 ∧
  ∀ i < 64, spadOff (c.lat.gq 9) + i * fld (c.w 1 1) 0 32 + atDH (c.w 1 0) * efWidth (fld (c.w 1 0) 35 4) ≤ 2 ^ 22) ∧
  (let s := padCmd [(1, 1 <<< 39), (2, 256)] (.attnf 4 6 1) fun c => { c with tiles := [5, 6] }; let c := oneCmd s
   let begun := (s.bump 12 c.ctx 1).begin_ c
   let row (i : Nat) : VA := qoff (c.lat.gq 6) (i * 256 : Nat)
   firing s = true ∧ (((List.range 2).flatMap fun i => (segOffs (row i) 128).map fun g => (i, g)).foldlM
     (fun (t : State) x => t.engWriteLine begun.2 (qoff (row x.1) (x.2.1 : Int)) (List.replicate x.2.2 0)) begun.1).isOk = true) := by
  decide +kernel

/-! Processing memory -/

/-- A record of one row, or one token, of 64 FP16 elements on BGE 127. -/
def lay1 (kind : Nat) : BitVec 512 :=
  BitVec.ofNat 512 (2 + kind * 2 ^ 10 + 2 ^ 12 + 2 ^ 32 + 64 * 2 ^ 64 + 2 ^ 128 + 2 ^ (160 + 127))
/-- A command that has fired, on the record, with an activation slot of 64 FP16 elements on its BGE and an output buffer at the end
of the scratchpad. -/
def pmc (kind : Nat) (i : Instr) (w w1 w2 : Word64) : State :=
  { padCmd [(1, w), (2, w1), (3, w2)] i fun c =>
      { c with st := .fired, lay := lay1 kind, outBuf := some 0, outCount := 1 } with
    dies := [(0, { DieSt.zero with layouts := [(5, ⟨true, lay1 kind, false⟩)],
                                   bges := [(127, { Bge.zero with desc := [(0, ⟨true, 2, 0, 64, false⟩)] })] })],
    cbufs := [(0, ⟨true, 0x3FF000, 5, 0, 0, 0, 0, 1, false, 0, 0⟩)] }
/-- The group of the command may start on BGE 127. -/
def starting (s : State) : Bool :=
  let c := oneCmd s
  let s0 := s.bump 14 c.ctx 1
  let s1 := s0.settleRows 0 (s0.stepRows c 127)
  s.cmd 0 == some c && s.groupReady c 127 && s.devFaults.isEmpty && s.badUnits.isEmpty && !(s.layout 0 5).bad &&
    s0.settleDown 0 (s0.stepRows c 127) == none && s1.settleDown 0 (s1.groupRows c 127) == none
/-- The parts that each piece of the group writes through the window meet no link that is down. -/
def windowsUp (s : State) : Bool :=
  let c := oneCmd s
  let row (p : KvPiece) : List Byte × Bool :=
    kvRow c (c.w c.kvReg 0) (s.spadBytes (clusterOf c.ctx) (spadOff p.src) (lrCols p.lay * kvWidth (c.w c.kvReg 0)))
  let parts (p : KvPiece) : List WinPart := ⟨p.ls, p.tok * lrRW p.lay, (row p).1⟩ ::
    p.steps.map fun y => ⟨y.1, lrRows y.2 * lrRW y.2 + 4 * p.tok, toLE 4 c.kvStep⟩
  let after (k : Nat) : State := ((c.kvPieces 127).take k).foldl (fun v p =>
    ((parts p).foldl (fun z y => z.winWrite 0 y) v).kvNote c p.ls (row p).2) (s.bump 14 c.ctx 1)
  (c.kvPieces 127).zipIdx.all fun x => (parts x.1).all fun y => !(after x.2).winDown 0 y
theorem wit_pmFire : (let s := padCmd [(1, 0)] (.pmvec 5 1 7) id
    firing s = true ∧ isSpad ((oneCmd s).lat.gq 5) = true ∧ (oneCmd s).data = []) ∧
  (let s := padCmd [] (.laybind 10 0 63) id; let bound := { s with spad := wrBytes [] 0x3FFFC0 (toLE 64 (lay1 1).toNat) }
    firing s = true ∧ isSpad ((oneCmd s).lat.gq 10) = true ∧ firing bound = true ∧
    BitVec.ofNat 512 (leNat (bound.spadBytes 0 0x3FFFC0 64)) = lay1 1 ∧ s.flushDown (s.bindLines 0 63 0) = false ∧
    bound.flushDown (bound.bindLines 0 63 (lay1 1)) = false ∧ (lay1 1).getLsbD 12 = true ∧ lrOk (lay1 1) 0 = true ∧
    lrOk (lay1 1) 1 = false ∧ (bound.die 0).layouts = [] ∧ lrOverlap (lay1 1) (lay1 0) = true) := by decide +kernel
theorem wit_pmGroups : starting (pmc 0 (.pmvec 5 1 7) 0 (1 <<< 15) 0) = true ∧
  (let s := pmc 0 (.pmmac 2 1 5) (1 <<< 32 + 1 <<< 61) 0 0; starting s = true ∧ macRows (oneCmd s) 1 127 (s.bge 0 127) = [0]) ∧
  (∀ i ∈ [Instr.pmatk 1 5, .pmatv 1 5], let s := pmc 1 i (1 <<< 38 + 1 <<< 41) (1 <<< 32) 0
    starting s = true ∧ paAcol ((oneCmd s).w 1 0) + ceilDiv (paDH ((oneCmd s).w 1 0)) 64 ≤ 8 ∧
      stripeTokens (oneCmd s).lay 0 0 1 = [0]) ∧
  (let s := pmc 0 (.pmrd 1 1 5) (1 <<< 51) 0 0; starting s = true ∧ (s.cbuf 0).at 0 0 + recBytes (prElf ((oneCmd s).w 1 0)) ≤ 2 ^ 22) ∧
  (let s := pmc 0 (.pmst 9 1 5) (1 <<< 51) 0 0; starting s = true ∧ isSpad ((oneCmd s).lat.gq 9) = true ∧
    spadOff ((oneCmd s).lat.gq 9) + recBytes (prElf ((oneCmd s).w 1 0)) ≤ 2 ^ 22 ∧ (oneCmd s).parts = []) ∧
  (∀ i ∈ [Instr.kvxfer 9 1 5, .kvapp 9 1 5], let s := pmc 1 i 0 (1 <<< 32) 0
    starting s = true ∧ Instr.unit (oneCmd s).ins = .pm ∧ (oneCmd s).parts = [] ∧ (oneCmd s).got = [] ∧ ((oneCmd s).kvPieces 127).length = 1 ∧
    windowsUp s = true ∧
      ((oneCmd s).kvPieces 127).all (fun p => isSpad p.src && spadOff p.src + lrCols p.lay * kvWidth ((oneCmd s).w 1 0) ≤ 2 ^ 22) = true) ∧
  (let s := pmc 1 (.kvxfer 9 1 5) 0 (2 <<< 32) 128; starting s = true ∧ ((oneCmd s).kvPieces 127).length = 2) ∧
  (let s := { pmc 0 (.pmmac 2 1 5) (1 <<< 32 + 1 <<< 61) 0 0 with devFaults := [⟨0, 127, 0, 0, 0, .ecc, true⟩] }
   let c := oneCmd s; let s0 := s.bump 14 c.ctx 1; let s1 := s0.settleRows 0 (s0.stepRows c 127)
   let u := s1.settleRows 0 (s1.groupRows c 127)
   let g := u.bge 0 127; let q := macSpan g c.lay (pmSlots (c.w 1 0))
   s.groupReady c 127 = true ∧ s0.settleDown 0 (s0.stepRows c 127) = none ∧ s1.settleDown 0 (s1.groupRows c 127) = none ∧
   macRows c 1 127 g = [0] ∧ ∃ e ∈ (macReads c.lay (pmPlanes 2 c.lay) (fld (c.w 1 1) 0 32 + 0) q.1 q.2).flatMap
     fun x => u.devErrs 0 c.lay (u.layout 0 5).bad 127 x.1 x.2, e.cause ≠ 205) := by decide +kernel
theorem risesOver {f : Nat → Nat} {n : Nat} (h : ∀ i < n, f i < f (i + 1)) (i k : Nat) (hk : i + k + 1 ≤ n) : f i < f (i + k + 1) := by
  induction k with
  | zero => exact h i (by omega)
  | succ k ih => exact (ih (by omega)).trans (h _ (by omega))
/-- The one row of slot 5's window is its first line; each of its bytes has a place of its own. -/
theorem wit_window : let s := pmc 1 (.kvxfer 9 1 5) 0 0 0; let l := winLine 0 5 0
    s.badUnits = [] ∧ s.dirFind l = none ∧ (∀ c ∈ s.cores, ∀ y ∈ c.2.l1, y.line ≠ l) ∧
    ((s.die 0).l2.filter fun x => x != l && x % 16 == l % 16).length < Config.l2Lines ∧ (s.byteKey l 127).isSome = true ∧
    (∀ i j k, i < 128 → j < 128 → s.byteKey l i = some k → s.byteKey l j = some k → i = j) := by
  intro s l
  refine ⟨by decide +kernel, by decide +kernel, by decide +kernel, by decide +kernel, by decide +kernel, fun i j k hi hj hi' hj' => ?_⟩
  have rise : ∀ i < 127, (s.byteKey l i).getD 0 < (s.byteKey l (i + 1)).getD 0 := by decide +kernel
  have ei : (s.byteKey l i).getD 0 = k := by rw [hi']; rfl
  have ej : (s.byteKey l j).getD 0 = k := by rw [hj']; rfl
  rcases Nat.lt_trichotomy i j with h | h | h
  · have := risesOver rise i (j - i - 1) (by omega)
    rw [show i + (j - i - 1) + 1 = j by omega] at this
    omega
  · exact h
  · have := risesOver rise j (i - j - 1) (by omega)
    rw [show j + (i - j - 1) + 1 = i by omega] at this
    omega

/-! The resume tree and the generation loop -/

/-- A command with tables of die 0 before it. -/
def rtc (nodes : SMap RtNode) (buckets : SMap (BitVec 128)) (ws : List (Nat × Word64)) (i : Instr) : State :=
  { padCmd ws i id with dies := [(0, { DieSt.zero with rtNodes := nodes, rtBuckets := buckets })] }
def nodeRef (r : Nat) : RtNode := ⟨BitVec.ofNat 256 (2 ^ 84 + 2 ^ 85 + r * 2 ^ 96), 0⟩
theorem wit_tree : (∀ i ∈ [Instr.rthash 1 5 2 3, .rtref 1 2, .rtrel 1 2, .rtpin 1 2 4, .rtrd 1 2 3, .rtfind 1 5 2 3, .rtdep 1 5 2 3 false,
      .rtevict 1 2 2 3], firing (rtc [] [] [(3, 35)] i) = true) ∧ (oneCmd (rtc [] [] [] (.rtref 1 2))).started = [] ∧
  firing (withCmd mapped id (.rtref 1 2) fun c => { c with started := [0] }) = true ∧
  isSpad ((oneCmd (rtc [] [] [] .drain)).lat.gq 5) = true ∧ spadOff ((oneCmd (rtc [] [] [] .drain)).lat.gq 5) + 256 * 35 ≤ 2 ^ 22 ∧
  ((rtc [] [] [] .drain).die 0).rtBad = [] ∧ (nodeRef 0).valid = true ∧ (nodeRef 5).ref = 5 ∧ (nodeRef maxRef).ref = maxRef ∧
  (DieSt.zero.rt 7).valid = false ∧ (4 : BitVec 5).toNat ≤ 4 ∧ ((oneCmd (rtc [] [] [(3, 35)] .drain)).lat.gs 3).toNat ≤ 35 ∧
  canon .zero [(0, nodeRef 0), (2 ^ 20 - 1, nodeRef 3)] = true := by decide +kernel
/-- A chunk of zeros under seed 0 has hash 0; node 0 is that chunk, a full bucket of others does not hold it. -/
theorem wit_deposit : let d := rtc [(0, nodeRef 0)] [(0, 2 ^ 31)] [(2, 1 <<< 63)] (.rtdep 1 5 2 3 false)
    let c := oneCmd d
    let tok : BitVec 2048 := BitVec.ofNat 2048 (leNat (d.spadBytes 0 (spadOff (c.lat.gq 5)) 256))
    let h := rollAll (c.w 3 1) (tokensOf (d.spadBytes 0 (spadOff (c.lat.gq 5)) 256))
    (c.lat.gs 2).getLsbD 63 = true ∧ h = 0 ∧ (d.die 0).candidates (bucketOf h) = [0] ∧ (d.die 0).isChunk 0 h none tok = true ∧
    ((d.die 0).rt 0).ref ≠ maxRef ∧ (c.lat.gs 4).getLsbD 63 = false ∧
    (let k := ((rtc [(0, nodeRef 0)] [(0, 0x80000001800000018000000180000001)] [(2, 1 <<< 63)] (.rtdep 1 5 2 3 false)).die 0);
      k.candidates 0 = [1, 1, 1, 1] ∧ k.isChunk 1 0 none 0 = false ∧ k.openSlot 0 = none) ∧
    (let parent : RtNode := nodeRef 1
     let child : RtNode := ⟨BitVec.ofNat 256 (5 * 2 ^ 64 + 2 ^ 85 + 2 ^ 96), 0⟩
     let m := rtc [(0, child), (5, parent)] [(0, 2 ^ 31)] [(2, 5)] (.rtdep 1 5 2 3 true)
     let k := m.die 0
     firing m = true ∧ ((oneCmd m).lat.gs 2).getLsbD 63 = false ∧ fld ((oneCmd m).lat.gs 2) 0 20 = 5 ∧ (k.rt 5).valid = true ∧
      canon .zero k.rtNodes = true ∧ rollAll (k.rt 5).hash (tokensOf (m.spadBytes 0 0 256)) = 0 ∧
      (k.candidates (bucketOf 0)).find? (fun n => k.isChunk n 0 (some 5) 0) = some 0 ∧ (k.rt 0).ref ≠ maxRef) ∧
    (DieSt.zero.candidates 0 = [] ∧ DieSt.zero.openSlot 0 = some 0 ∧ freeNode 0 DieSt.zero.rtNodes < 2 ^ 20) := by decide +kernel
theorem freeNode_full (n m : Nat) : freeNode n ((List.range' n m).map fun i => (i, nodeRef 1)) = n + m := by
  induction m generalizing n with
  | zero => rfl
  | succ m ih =>
    have v : (nodeRef 1).valid = true := by decide +kernel
    simp only [List.range'_succ, List.map_cons, freeNode, Nat.lt_irrefl, if_false, v, and_self, if_true, ih]
    omega
/-- Every node in use, the chunk's bucket empty. -/
theorem wit_depositNoNode : ∃ nodes, let d := rtc nodes [] [(2, 1 <<< 63)] (.rtdep 1 5 2 3 false)
    2 ^ 20 ≤ freeNode 0 (d.die 0).rtNodes ∧ (d.die 0).rtBuckets = [] := by
  have same (nodes : SMap RtNode) : let d := rtc nodes [] [(2, 1 <<< 63)] (.rtdep 1 5 2 3 false)
      (d.die 0).rtNodes = nodes ∧ (d.die 0).rtBuckets = [] := ⟨rfl, rfl⟩
  refine ⟨(List.range' 0 (2 ^ 20)).map fun i => (i, nodeRef 1), ?_⟩
  obtain ⟨h, r⟩ := same ((List.range' 0 (2 ^ 20)).map fun i => (i, nodeRef 1))
  exact ⟨by rw [h, freeNode_full]; omega, r⟩

/-- Context 0 with OCC, HOLD and the record of slot 7 at the scratchpad's start, its ring of sixteen entries near the end. -/
def gen (g : Word64) (rec_ : Nat) (i : Instr) (tok : Word64 := 42) : State :=
  { (padCmd [(1, 7), (2, tok)] i id).updCtx 0 fun c => { c with regs := { c.regs with gocc := g, greq := [(7, 0x0FFFFFFFFFFFC000)] } } with
    spad := wrBytes [] 0 (toLE 96 rec_) }
def goodReq : Nat := 0x0FFFFFFFFFFFFFFF + 4 * 2 ^ 64
theorem wit_generation : firing (gen 0 goodReq (.tokcommit 3 1 2)) = true ∧ firing (gen 0x80 goodReq (.tokcommit 3 1 2)) = true ∧
  firing (gen 0x8080 goodReq (.tokcommit 3 1 2)) = true ∧ firing (gen 0 0 (.schsel 3 4)) = true ∧ firing (gen 0x81 0 (.schsel 3 4)) = true ∧
  (∀ i < 8, hold 0 i = false ∧ hold 0x81 i = false) ∧
  firing (gen 0x8080 goodReq (.schsel 3 4)) = true ∧ (∀ i < 8, hold 0x8080 i = decide (i = 7)) ∧
  (let s := gen 0x80 goodReq (.tokcommit 3 1 2) 0xFFFFFFFF; firing s = true ∧ ((oneCmd s).lat.gs 2).extractLsb' 0 32 = noToken) ∧
  ((List.range 8).filter fun i => occ 0x81 i) = [0, 7] ∧ firing (gen 0 0 (.specacc 3 4 5 1)) = true ∧
  (let s := gen 0x80 goodReq (.tokcommit 3 1 2); let va := s.reqVA 0 7; let q := reqOf va (s.spadBytes 0 (spadOff va) 96)
    fld ((oneCmd s).lat.gs 1) 0 3 = 7 ∧ isSpad va = true ∧ vaHome va = dieOf 0 ∧ spadOff va + 512 ≤ 2 ^ 22 ∧ q.ok = true ∧
    occ 0x80 7 = true ∧ hold 0x80 7 = false ∧ hold 0x8080 7 = true ∧ 0 < q.room ∧ isSpad q.ring = true ∧ vaHome q.ring = dieOf 0 ∧
    spadOff q.ring + 8 * 2 ^ q.rsz ≤ 2 ^ 22 ∧ spadOff va + 512 ≤ spadOff q.ring ∧ q.pendn < 16 ∧
    ((oneCmd s).lat.gs 2).extractLsb' 0 32 ≠ noToken) ∧ (reqOf 0 (toLE 96 0)).ok = false ∧
  16 ≤ (reqOf 0 (toLE 96 (goodReq + 16 * 2 ^ 192))).pendn ∧ (reqOf 0 (toLE 96 (goodReq + 16 * 2 ^ 192))).ok = true ∧
  (reqOf 0 (toLE 96 (goodReq + 16 * 2 ^ 96))).room = 0 := by decide +kernel
/-- Results that wait for their registers. -/
theorem wit_lateResults : (∀ x ∈ [(Instr.rtrd 1 2 3, toLE 8 7), (.schsel 1 2, toLE 16 7), (.specacc 1 2 3 4, bytesOf 7)],
    let s := padCmd [] x.1 fun c => { c with st := .fired, data := x.2 }
    s.cmd 0 = some (oneCmd s) ∧ (oneCmd s).st = .fired ∧ (oneCmd s).abandoned = false ∧ (oneCmd s).data = x.2 ∧ s.heldWrites = []) := by
  decide +kernel

/-! Events -/

/-- The queue with its slot, a record for die 0 in its ring and the descriptor of an image of one bundle, in a 2 MiB page. -/
def startRec : Nat := 1 + 2 ^ 204
def startable (r m : Nat) : State :=
  { holder with
    tlb := [⟨0, 0, 0, 0, 21, 0xE7, []⟩]
    mem := wrBytes (wrBytes [(3 * 2 ^ 48 + 7, 0x80)] 0x10000 (toLE 64 m)) 0 (toLE 64 r) }
def start : State := startable startRec (0x4358 + 2 ^ 128)
theorem wit_launchStarts : (start.queue 8191).slot.isSome = true ∧ start.nextRecord 8191 = some (BitVec.ofNat 512 startRec) ∧
  start.mayStart 8191 = true ∧ start.recordFault 8191 = none ∧
  placeable (start.die (start.queue 8191).die).svc (BitVec.ofNat 512 startRec) = true ∧ recOk (BitVec.ofNat 512 startRec) = true ∧
  placeable 1 (BitVec.ofNat 512 startRec) = false ∧
  (let v := start.schedMarks 3 (start.queue 8191).asid [((start.queue 8191).ringVA (start.queue 8191).next, 64)]
   (v.readImage 3 (start.queue 8191).asid (BitVec.ofNat 512 startRec)).isSome = true ∧
   (v.shares (BitVec.ofNat 512 startRec) 8).isSome = true ∧
   ({ v with ctxs := (List.range 128).map fun n => (n, { Ctx.zero with st := .running, launch := some 9 }) }.shares
     (BitVec.ofNat 512 startRec) 8) = none) ∧
  (let s := startable startRec 0
   (s.schedMarks 3 (s.queue 8191).asid [((s.queue 8191).ringVA (s.queue 8191).next, 64)]).readImage 3 (s.queue 8191).asid
     (BitVec.ofNat 512 startRec) = none) := by decide +kernel
/-- With no translation the record cannot be read. -/
theorem wit_recordFault : ({ holder with tlb := [] }.recordFault 8191).isSome = true ∧ (waiter.queue 8191).slot = none ∧
  waiter.recordFault 8191 = none := by decide +kernel
/-- A spawned context at its time, and at the clk before; a write held for die 3, with no group before it, and with one. -/
def heldWrite (groups : List Nat) : HeldWrite := ⟨some 3, 3 * 2 ^ 41, 0, 0, 3, [(0, 1)], none, none, 0, groups⟩
def grouped : State :=
  { State.reset with cmds := [{ State.reset.newCmd (.pmatk 1 2) 0 [] with lay := BitVec.ofNat 512 ((2 ^ 128 - 1) * 2 ^ 160) }] }
theorem wit_contextEvents2 : (let c := { Ctx.zero with launch := some 0, readyAt := 8 }; let s := { State.reset with ctxs := [(9, c)], clk := 8 }
    (s.ctx 9).st = .idle ∧ (s.ctx 9).launch ≠ none ∧ (s.ctx 9).readyAt ≤ s.clk ∧ (s.ctx 9).preq = false ∧
    ({ s with clk := 7 }).clk < (s.ctx 9).readyAt) ∧
  lineDie (heldWrite []).line = 3 ∧ (heldWrite []).waits grouped = false ∧ (heldWrite [0]).waits grouped = true ∧
  (gated.home 0 = 0 ∧ (0 : Nat) ≠ 3) := by decide +kernel
theorem wit_noStoresOut : ∀ m, ({ grouped with heldWrites := [heldWrite [0]] }.ctx m).out = [] := fun _ => rfl
/-- A host access to memory that is up, to one that is not, and one that its rules refuse. -/
def hosted : State := { State.reset.updDie 0 fun k => { k with boot := 4, svc := 2 } with tlb := [⟨0, 0, 0, 0, 16, 0xE7, []⟩] }
theorem wit_hostAccesses : State.reset.hostReady 0 = false ∧ hosted.hostReady 0 = true ∧ hosted.sleep = .awake ∧
  (match (hosted.hostReadSegs (segs (hdmVA 0) 8) []).2 with | .ok xs => xs.length == 8 | .error _ => false) = true ∧
  (match (hosted.hostReadSegs (segs (hdmVA 0x1FE0000000) 8) []).2 with | .ok _ => false | .error _ => true) = true ∧
  (hosted.hostWriteCause (hdmVA 0x1FE0000000) [1]).isSome = true ∧ hosted.hostWriteCause (hdmVA 120) (toLE 8 7) = none ∧
  fld (hdmVA 120) 0 7 + 8 ≤ 128 := by decide +kernel
/-- A directory with one entry, owned by die 2. -/
def owned : DirEnt := ⟨5, .M, 4, 2, 0, false, true, 0, 0⟩
theorem wit_directory : (State.reset.dirPut owned).dirWf ∧ owned ∈ sget [] (State.reset.dirPut owned).dir (dirKey 5) ∧
    owned.owned = true ∧ owned.owner < 5 ∧ (State.reset.l1Find 7 5).filter (fun x => x.st != .S && x.tagged 0 0) = none := by
  refine ⟨fun k => ?_, by decide +kernel, by decide, by decide, rfl⟩
  have h : sget [] (State.reset.dirPut owned).dir k = if k = dirKey 5 then [owned] else [] := by
    change sget [] (sput [] [] (dirKey 5) [owned]) k = _
    by_cases e : k = dirKey 5
    · rw [if_pos e, e, sget_sput_self]
    · rw [if_neg e, sget_sput_ne _ _ _ e]
      rfl
  rw [h]
  split
  · rename_i e
    exact ⟨fun x hx => by rw [List.mem_singleton.mp hx, e]; rfl, by decide⟩
  · exact ⟨fun x hx => absurd hx (by simp), by simp⟩
/-- The group that has started on BGE 127, a refresh of a bank that it holds. -/
def cleared : State := { clearing with cmds := clearing.cmds.map fun c => { c with started := [127], rows := [(127, 3)] } }
theorem wit_groupEnds : ∃ c, cleared.cmd 0 = some c ∧ c.id = 0 ∧ c.groupEnds 127 = true ∧ c.holdsBank 127 3 = true ∧
    c.holdsBank 127 2 = false ∧ ∃ d, clearing.cmd 0 = some d ∧ clearing.groupReady d 127 = true :=
  ⟨_, rfl, by decide +kernel, by decide +kernel, by decide +kernel, by decide +kernel, _, rfl, by decide +kernel⟩
/-- The mailbox arguments lie at 0x210 to 0x228; a die in FAILED answers there and nowhere else. -/
theorem wit_failedWindow : (let s := State.reset.updDie 0 fun k => { k with boot := 6 }
    s.windowOpen 0 = false ∧ s.sleep = .awake ∧ s.answers 0 0x210 true = true ∧ s.answers 0 0x50 true = false) ∧
  (0x210 : BitVec 24).toNat = 0x210 + 8 * 0 ∧ (0x228 : BitVec 24).toNat = 0x210 + 8 * 3 ∧ (0x22F : BitVec 24).toNat > 0x228 ∧
  hosted.windowOpen 0 = true := by decide +kernel
/-- An image whose shape VERIFY takes is accepted when its key is the fused one and its signature verifies, which is the maker's
function (log 9). -/
def image : List Byte := toLE 64 (0x4657 + 16 * 2 ^ 64) ++ List.replicate (7283 + 16 - 64) 0
theorem wit_image : ({ State.reset with keyDigest := Config.sha3 (fwKey image) }).fwOk image =
    Config.verify (fwKey image) (Config.sha3 (image.take (64 + fwPlen image))) (image.drop (2656 + fwPlen image)) ∧
  ({ State.reset with grade := 2 }).grade ≥ 2 ∧ State.reset.grade < 2 := by
  have h1 : fwShape image = true := by decide +kernel
  have h2 : fwSV image = 0 := by decide +kernel
  refine ⟨?_, by decide, by decide⟩
  simp [State.fwOk, h1, h2, State.reset]

/-- Two gated stores of context 0: both perform; or the second waits for the context's block gather. -/
def outGate (waits : Bool) : State :=
  let g (release : Bool) (off : Nat) : GateEnt := ⟨true, off / 128, 0, 0, 3, [(off % 128, 5)], 1, true, release, 1⟩
  (if waits then gathering else pad).updCtx 0 fun c => { c with gate := [g false 0, g true 200] }
def outAfter (s : State) (k : Nat) : State :=
  let c := s.ctx 0
  let all := c.out ++ c.gate
  (all.take k).foldl (fun u g => u.perform 0 g) (s.updCtx 0 fun c => { c with gate := [], watch := [], out := all })
theorem wit_commitPerforms : ∀ w ∈ [false, true], let s := outGate w; let all := (s.ctx 0).out ++ (s.ctx 0).gate
    (s.ctx 0).gate ≠ [] ∧ (∀ g ∈ (s.ctx 0).gate, g.checked = true) ∧ all.length = 2 ∧ ((s.markAt 0 16).ctx 0).abortAt = none ∧
    ((s.markAt 0 16).ctx 0).preq = false ∧
    (let k := if w then 1 else 2
     (all.zipIdx.all fun x => decide (k ≤ x.2) || ((outAfter s x.2).outReady 0 x.1 && !(outAfter s x.2).storeDown 0 x.1)) = true ∧
      ∀ g, all[k]? = some g → (outAfter s k).outReady 0 g = false) := by
  intro w hw
  clear hw
  cases w
  all_goals
    refine ⟨by decide +kernel, by decide +kernel, by decide +kernel, by decide +kernel, by decide +kernel, by decide +kernel, fun g hg => ?_⟩
    cases hg
  decide +kernel

/-! Translation: page tables in die 0's memory -/

/-- Address space 0 at die 0: the five tables and a leaf for page 1 of processing memory, with the leaf bits given. -/
def tables (leaf : Word64) : SMap Byte :=
  [(0x2400, leaf), (0x2200, 0x2401), (0x2000, 0x2201), (0x1000, 0x2001), (0x400, 0x1001), (0x1FE0000000, 1 + 1 <<< 10)].foldl
    (fun m x => wrBytes m x.1 (toLE 8 x.2.toNat)) []
def walked (leaf : Word64) : State := { State.reset with mem := tables leaf }
def walksTo (leaf : Word64) : Prop :=
  let s := walked leaf
  s.tableUE 0 0x1FE0000000 = false ∧ s.tlbFind 0 0x80 .write = none ∧ s.markDown 0 0x80 .write = false ∧
    (match s.walk 0 0x80 .write with
      | .ok f => decide (f.pte = leaf) && decide (f.addr = 0x2400) && decide (f.size = 16)
      | .error _ => false) = true ∧
    lineDie 72 = 0 ∧ isWin 72 = false ∧ isHost 72 = false ∧ s.dirFind 72 = none ∧ s.cores = [] ∧
    s.lineHeld 72 ((List.range 8).map (0 + ·)) = false ∧ (s.die 0).l2 = []
theorem wit_walks : walksTo 0x100C7 ∧ walksTo 0x100F7 := by
  unfold walksTo
  decide +kernel
theorem wit_walk : ((0x100F7 : Word64) ||| 0x30 = 0x100F7 ∧ (0x100C7 : Word64) ||| 0x30 ≠ 0x100C7) ∧
  (mapped.tlbFind 0 0x7C .write).isSome = true ∧
  (let s := State.reset; s.tableUE 0 0x1FE0000000 = false ∧ (match s.walk 0 0x80 .write with | .error k => k == 76 | .ok _ => false) = true) ∧
  { State.reset with mem := wrBytes [] 0x1FE0000000 [3] }.tableUE 0 0x1FE0000000 = false ∧ fld (3 : Word64) 1 9 ≠ 0 ∧
  (let a := 0x1FE0000000
   { State.reset with devFaults := [⟨0, paBge a, paBank a, paRow a, paCol a / 32, .ecc, true⟩] }.tableUE 0 a = true) := by decide +kernel
/-- An entry by itself, at 0x2000. -/
def entryState (e : Word64) : State := { State.reset with mem := wrBytes [] 0x2000 (toLE 8 e.toNat) }
def entryReads (e : Word64) : Prop :=
  let s := entryState e
  s.walkHit 0 0 0x2000 = none ∧ s.backDown 64 = false ∧ s.tableUE 0 0x2000 = false ∧ s.word64 0 0x2000 = e
theorem wit_entries : entryReads 0 ∧ entryReads 3 ∧ entryReads 0x203 ∧ entryReads 0x103 ∧ entryReads 0x1FE0000003 ∧
    entryReads 0x1000000000003 ∧ entryReads 1 ∧ entryReads 5 ∧ entryReads 0x2000000001 ∧ entryReads 0x2001 := by
  unfold entryReads
  decide +kernel
theorem wit_walkEntry :
  ({ State.reset with dies := [(0, { DieSt.zero with walks := [⟨0, 0x2000, 7⟩] })] }.walkHit 0 0 0x2000).isSome = true ∧
  { State.reset with devFaults := [⟨0, paBge 0x2000, paBank 0x2000, paRow 0x2000, paCol 0x2000 / 32, .ecc, true⟩] }.tableUE 0 0x2000 = true ∧
  (fld (0x203 : Word64) 9 7 ≠ 0 ∧ fld (3 : Word64) 9 7 = 0 ∧ fld (3 : Word64) 58 6 = 0 ∧ fld (3 : Word64) 52 6 = 0 ∧
    65536 * fld (3 : Word64) 16 36 % 2 ^ 32 = 0 ∧ (3 : Word64).getLsbD 2 = false ∧ (3 : Word64).getLsbD 3 = false ∧
    (0x103 : Word64).getLsbD 8 = true ∧ 65536 * fld (3 : Word64) 16 36 + 2 ^ 32 ≤ 0x1FE0000000 ∧
    65536 * fld (0x1FE0000003 : Word64) 16 36 = 0x1FE0000000 ∧ 65536 * fld (0x1000000000003 : Word64) 16 36 = 0x1000000000000) ∧
  (fld (5 : Word64) 2 6 ≠ 0 ∧ 256 * fld (0x2000000001 : Word64) 8 44 = 0x2000000000 ∧ fld (0x2001 : Word64) 2 6 = 0 ∧
    fld (0x2001 : Word64) 52 12 = 0 ∧ 256 * fld (0x2001 : Word64) 8 44 % (8 * 32) = 0 ∧
    256 * fld (0x2001 : Word64) 8 44 + 8 * 32 ≤ 0x2000000000) := by decide +kernel

/-! Copies at their views -/

/-- Core 7's copy of line 5 at a view, in update mode or not; the entry of the line and die 2's proxy of it. -/
def copyAt (view : BitVec 3) (update : Bool) : Copy := ⟨5, 0, 640, .S, 0, view, update, 0, 0⟩
def copied (view : BitVec 3) (update : Bool) : State := State.reset.updCore 7 fun k => { k with l1 := [copyAt view update] }
theorem wit_views : (7 < 128 ∧ lineDie 5 = 7 / 32 ∧ isHost 5 = false ∧ State.reset.dirFind 5 = none ∧ State.reset.l1Find 7 5 = none ∧
    State.reset.dies = [] ∧ effView 0 2 = 2 ∧ effView 0 1 = 1) ∧
  (∀ v ∈ [(0 : BitVec 3), 1, 2], let s := copied v true
    s.l1Find 7 5 = some (copyAt v true) ∧ (copyAt v true).tagged 0 640 = true ∧ (copyAt v true).st = .S ∧ s.dirFind 5 = none ∧
    ((s.die 0).l2.filter fun x => x != 5 && x % 16 == 5 % 16).length < Config.l2Lines ∧
    framesOf ((s.core 7).l1.filter fun x => x.line != 5 && l1SetNo x.va == l1SetNo 640) ≤ 7) := by decide +kernel
/-- A store to bytes 0 to 3 of the line, to its first byte alone, and of the value that stands there. -/
theorem wit_storeHeader : served 0 0 = none ∧ served 0 1 = some (.f32, .bf16) ∧
  (∀ i ∈ [0, 1, 2, 3], i < 128) ∧ lineByte (0x3F800000 : Vec) 3 ≠ lineByte (0 : Vec) 3 ∧
  viewRound .f32 .bf16 (lane 4 (0x3F800000 : Vec) 0) ≠ viewRound .f32 .bf16 (lane 4 (0 : Vec) 0) ∧
  (copied 1 true).l1Find 7 5 = some (copyAt 1 true) ∧ (copied 1 false).l1Find 7 5 = some (copyAt 1 false) ∧
  (copied 1 true).kept 5 [(0, 1)] = [(0, 1)] ∧ (1 : Nat) ∉ [0] := by decide +kernel
/-- Die 2's proxy of line 5, whose entry names die 2; it is the owner, in M or O, or a sharer. -/
def shared (st : DState) (sharers : BitVec 5) : State :=
  { (State.reset.dirPut ⟨5, st, sharers, 2, 0, false, true, 0, 640⟩) with
    dies := [(2, { DieSt.zero with proxies := [⟨5, 0, 640, if st = .S then .S else .M, 0, 0, true, 0, 7⟩], l2 := [5] })] }
theorem wit_snoopAndEvict : ((shared .S 4).prFind 2 5).map (·.st) = some .S ∧ (shared .S 4).cores = [] ∧
  (shared .S 4).prFind 1 5 = none ∧
  (∀ x ∈ [(DState.S, (4 : BitVec 5), false), (.S, 6, false), (.M, 4, true), (.O, 6, true)], (match (shared x.1 x.2.1).dirFind 5 with
    | some e => e.has 2 && (e.owned == x.2.2) && (!e.owned || (e.owner == 2 && e.has e.owner)) && decide (e.st = x.1) &&
        (e.sharers == 1#5 <<< 2) == (x.2.1 == 4)
    | none => false) = true) ∧
  ((shared .M 4).prFind 2 5).isSome = true ∧ isWin 5 = false ∧ isHost 5 = false ∧ sget none (shared .M 4).cxl 5 = none := by decide +kernel
/-- Page 1 of die 0, with a line of it in the directory, to page 2 or to host memory; and to a place that is no page's. -/
def moving : State := (walked 0x100C7).dirPut ⟨520, .S, 4, 2, 0, false, true, 0, 1024⟩
theorem wit_movingMem : moving.memWf := ⟨by decide +kernel, by decide +kernel⟩
theorem wit_migrate : moving.dir.length = 1 ∧
  (match moving.walk 0 0x80 .read with
    | .ok f => decide (f.size = 16) && decide (f.pte = 0x100C7) && decide (f.addr = 0x2400) && decide (fld f.pte 16 36 * 65536 = 0x10000) &&
        !moving.mayMove 0 f.pte f.size 0x20001 &&
        [0x20000, Config.hostKey].all (fun dst => moving.mayMove 0 f.pte f.size dst && !moving.moveDown 0 f dst)
    | .error _ => false) = true ∧ vaHome 0x80 = 0 ∧ isSpad 0x80 = false ∧
  moving.cores = [] ∧ moving.cxl = [] ∧ (moving.dir.flatMap (·.2)).length < 16 ∧ moving.dirFind 72 = none ∧ moving.heldWrites = [] ∧
  moving.cmds = [] ∧ (moving.die 0).l2 = [] ∧ moving.backKey 0x10000 ≠ 0x20000 ∧ moving.backKey 0x10000 ≠ Config.hostKey ∧
  (∀ b ∈ [0x20000, Config.hostKey], pageHas b 65536 520 = false) ∧ pageHas 0x10000 65536 520 = true ∧ pageHas 0x10000 65536 72 = false ∧
  pageHas 0x20000 65536 72 = false := by decide +kernel
/-- A line that no die shares under another tag; read before at the view asked for, and at another. -/
theorem wit_homeRead : State.reset.dirFind 5 = none ∧ (match (shared .S 4).dirFind 5 with
    | some f => !f.owned && f.tagged && f.asid == 0 && f.va == 640 && f.has 2 && !f.has 1 && f.fmtOf 2 == 0 && f.fmtOf 2 != 1
    | none => false) = true := by decide +kernel
/-- A host access that waited for its die, which has come up. -/
theorem wit_heldAccess : { hosted with hostHeld := [.read 0 8] }.heldAccess.isSome = true := by decide +kernel

/-! ## Events of the machine -/

theorem test_no_such_context : exec (.retirement 512) State.reset = .fault .noSuchParty := rfl
theorem test_no_such_die : exec (.slotMapping 4) State.reset = .fault .noSuchParty := rfl
/-- A request of 299 W is rounded down to 295 W (R9). -/
theorem test_setcap_rounds : (match exec (.setcap 0 5) (full.updDie 0 fun k => { k with mbarg := [(0, 299)] }) with
    | .next t => some t.cap
    | _ => none) = some 295 := by decide +kernel
theorem test_power_step_down : (match exec (.powerCheck 501) full with | .next t => some t.mhz | _ => none) = some 1805 := by
  decide +kernel
/-- The first step after reset: no firmware, cause 331. -/
theorem test_reset_fails : (match step State.reset with | .next t => some ((t.die 3).boot, (t.die 3).bootCause) | _ => none) =
  some (6, 331) := by decide +kernel
/-- A doorbell beyond the ring disables the queue (R23). -/
theorem test_doorbell_overrun : (match exec (.doorbell 3 8191 17) queued with
    | .next t => some ((t.queue 8191).enabled, (t.queue 8191).wr)
    | _ => none) = some (false, 0) := by decide +kernel
theorem test_tile_command_fires : (match exec (.commandFire 0) tz with | .next t => some (t.cmds.map (·.st)) | _ => none) =
  some [CmdState.fired] := by decide +kernel
end

section
/-! PROOFS. The power cap: the mailbox's SETCAP applies a request within the grade's range and reports it (R9, R337). -/

namespace Sys2Proof.Machine

/-! ## What the completion of a mailbox command leaves -/

@[simp] theorem State.linkIsDown_self (s : State) (d : Nat) : s.linkIsDown d d = false := by simp [State.linkIsDown]

/-- A completion writes the die's status register, and beside it at most raises an interrupt. -/
theorem State.mbDone_eq (s : State) (d tag result : Nat) :
    ∃ msi, s.mbDone d tag result =
      { s.updDie d fun k => { k with mbstat := BitVec.ofNat 64 (2 ^ 8 * (tag % 256) + 2 ^ 16 * result) } with msi := msi } := by
  unfold State.mbDone
  dsimp only
  split
  · exact ⟨s.msi, rfl⟩
  · exact ⟨_, rfl⟩

section
variable (s : State) (d tag result : Nat)

@[simp] theorem State.mbDone_cap : (s.mbDone d tag result).cap = s.cap := by
  obtain ⟨msi, h⟩ := s.mbDone_eq d tag result
  rw [h]; rfl
@[simp] theorem State.mbDone_mem : (s.mbDone d tag result).mem = s.mem := by
  obtain ⟨msi, h⟩ := s.mbDone_eq d tag result
  rw [h]; rfl
@[simp] theorem State.mbDone_ctxs : (s.mbDone d tag result).ctxs = s.ctxs := by
  obtain ⟨msi, h⟩ := s.mbDone_eq d tag result
  rw [h]; rfl
@[simp] theorem State.mbDone_die_self : (s.mbDone d tag result).die d =
    { s.die d with mbstat := BitVec.ofNat 64 (2 ^ 8 * (tag % 256) + 2 ^ 16 * result) } := by
  obtain ⟨msi, h⟩ := s.mbDone_eq d tag result
  rw [h]
  exact sget_sput_self ..

end

/-- A result stands in its argument register, as far as 64 bits hold it. -/
@[simp] theorem State.mbResult_arg_self (s : State) (d n x : Nat) : ((s.mbResult d n x).die d).arg n = x % 2 ^ 64 := by
  simp [State.mbResult, DieSt.arg]

/-! ## The cap -/

theorem gradeCap_cases (g : Nat) : gradeCap g = 550 ∨ gradeCap g = 300 := by
  unfold gradeCap
  split
  · exact .inl rfl
  · exact .inr rfl

/-- The cap applied lies within the grade's range and is a multiple of 5 W. -/
theorem capOf_bounds (g w : Nat) : 250 ≤ capOf g w ∧ capOf g w ≤ gradeCap g ∧ capOf g w % 5 = 0 := by
  have hg := gradeCap_cases g
  unfold capOf
  split
  · omega
  · split
    · omega
    · omega

/-- Die 0's mailbox takes SETCAP where the host reaches it, its core runs and no command is in progress. -/
theorem State.mailbox_setcap (s : State) (tag : Nat) (hs : s.sleep = .awake) (hb : 2 ≤ (s.die 0).boot) (hf : (s.die 0).boot ≠ 6)
    (hm : (s.die 0).mbstat.getLsbD 0 = false) : s.mailbox 0 1 tag 0 = s.doSetcap tag := by
  have hreach : s.windowReached 0 = true := by simp [State.windowReached, hs]
  have hidle : (s.die 0).mbstat[0] = false := by simpa using hm
  simp [State.mailbox, hreach, hidle, hf, Nat.not_lt.mpr hb]

section
variable (s : State) (tag : Nat)

@[simp] theorem State.doSetcap_cap : (s.doSetcap tag).cap = capOf s.grade ((s.die 0).arg 0) := by simp [State.doSetcap, State.mbResult]
@[simp] theorem State.doSetcap_mem : (s.doSetcap tag).mem = s.mem := by simp [State.doSetcap, State.mbResult]
@[simp] theorem State.doSetcap_ctxs : (s.doSetcap tag).ctxs = s.ctxs := by simp [State.doSetcap, State.mbResult]
/-- The argument register reports the cap applied, which 64 bits hold. -/
theorem State.doSetcap_arg : ((s.doSetcap tag).die 0).arg 0 = capOf s.grade ((s.die 0).arg 0) := by
  have hle := (capOf_bounds s.grade ((s.die 0).arg 0)).2.1
  have hg := gradeCap_cases s.grade
  unfold State.doSetcap
  rw [State.mbDone_die_self]
  show (State.die (State.mbResult _ 0 0 _) 0).arg 0 = _
  rw [State.mbResult_arg_self]
  exact Nat.mod_eq_of_lt (by omega)

end

/-- Settles O57: the mailbox takes the command, and SETCAP applies and reports `capOf` of the request. -/
theorem capIsApplied : Obligations.CapIsApplied := by
  intro s tag hs hb hf hm w top
  obtain ⟨hlo, hhi, hfive⟩ := capOf_bounds s.grade w
  have hexec : exec (.setcap 0 tag) s = .next (s.doSetcap tag.toNat) := by
    show Host.Outcome.next (s.mailbox 0 1 tag.toNat 0) = _
    rw [s.mailbox_setcap tag.toNat hs hb hf hm]
  refine ⟨s.doSetcap tag.toNat, hexec, ?_⟩
  rw [State.doSetcap_cap, State.doSetcap_mem, State.doSetcap_ctxs, State.doSetcap_arg]
  exact ⟨rfl, hlo, hhi, hfive, rfl, rfl, rfl⟩

end Sys2Proof.Machine
end

section
/-! PROOFS. System registers: what mfsr and mtsr check, and what a register reads as after a write (R10, R76, R117). -/

namespace Sys2Proof.Machine

/-! ## Verdicts in sequence -/

@[simp] theorem Verdict.ok_andThen (v : Verdict) : Verdict.andThen .ok v = v := rfl
@[simp] theorem Verdict.trap_andThen (c : Nat) (x : Word64) (v : Verdict) : (Verdict.trap c x).andThen v = .trap c x := rfl
@[simp] theorem require_true (c : Nat) : require true c = .ok := rfl
@[simp] theorem require_false (c : Nat) : require false c = .trap c 0 := rfl

/-! ## The checks (R76, R115) -/

section
variable (s : State)

theorem checkMfsr_of_listed {sr : BitVec 12} {x : Word64} (hx : s.readSR sr.toNat = some x) (hq : s.genQuiet sr.toNat = .ok)
    (hl : ¬ (4 ≤ sr.toNat ∧ sr.toNat ≤ 7 ∧ s.cx.landings.any (fun l => l.reg == sr.toNat - 4) = true)) :
    checkMfsr sr s = .ok := by
  have hland : (!(decide (4 ≤ sr.toNat) && decide (sr.toNat ≤ 7) && s.cx.landings.any fun l => l.reg == sr.toNat - 4)) = true := by
    rw [Bool.not_eq_true', ← Bool.not_eq_true]
    simpa only [Bool.and_eq_true, decide_eq_true_eq, and_assoc] using hl
  unfold checkMfsr
  dsimp only
  rw [hx, hland, hq]
  rfl

theorem checkMfsr_of_unlisted {sr : BitVec 12} (hx : s.readSR sr.toNat = none) : checkMfsr sr s = .trap 12 0 := by
  simp [checkMfsr, hx]

theorem checkMtsr_of_accepted {a : SReg} {sr : BitVec 12} (hc : mtsrCause sr.toNat (s.rS a) = 0) (hq : s.genQuiet sr.toNat = .ok) :
    checkMtsr a sr s = .ok := by
  simp [checkMtsr, hc, hq]

theorem checkMtsr_of_rejected {a : SReg} {sr : BitVec 12} (hc : mtsrCause sr.toNat (s.rS a) ≠ 0) :
    checkMtsr a sr s = .trap (mtsrCause sr.toNat (s.rS a)) 0 := by
  simp [checkMtsr, beq_eq_false_iff_ne.mpr hc]

/-- dom and tc are not writable (R76). -/
theorem mtsrCause_of_readOnly {n : Nat} (x : Word64) (h : n = 2 ∨ (4 ≤ n ∧ n ≤ 7)) : mtsrCause n x = 12 := by
  simp (disch := omega) only [mtsrCause, if_neg]

/-! ## Registers that stand in ranges -/

section
variable {n : Nat}

theorem readSR_view (h : 0x10 ≤ n ∧ n ≤ 0x17) : s.readSR n = some (sget 0 s.lat.view (n - 0x10)) := by
  simp (disch := omega) only [State.readSR, if_neg, if_pos]
theorem readSR_greq (h : 0x68 ≤ n ∧ n ≤ 0x6F) : s.readSR n = some (sget 0 s.lat.greq (n - 0x68)) := by
  simp (disch := omega) only [State.readSR, if_neg, if_pos]
theorem readSR_ecnt (h : 0xC0 ≤ n ∧ n ≤ 0xC7) : s.readSR n = some (sget 0 (s.core (coreOf s.cur)).ecnt (n - 0xC0)) := by
  simp (disch := omega) only [State.readSR, if_neg, if_pos]
theorem readSR_esel (h : 0xC8 ≤ n ∧ n ≤ 0xCF) : s.readSR n = some (sget 0 (s.core (coreOf s.cur)).esel (n - 0xC8)) := by
  simp (disch := omega) only [State.readSR, if_neg, if_pos]

variable (x : Word64)

theorem writeSR_view (h : 0x10 ≤ n ∧ n ≤ 0x17) :
    s.writeSR n x = s.updRegs fun r => { r with view := sput 0 r.view (n - 0x10) (BitVec.ofNat 64 (fld x 0 6)) } := by
  simp (disch := omega) only [State.writeSR, if_neg, if_pos]
theorem writeSR_greq (h : 0x68 ≤ n ∧ n ≤ 0x6F) :
    s.writeSR n x = s.updRegs fun r => { r with greq := sput 0 r.greq (n - 0x68) x } := by
  simp (disch := omega) only [State.writeSR, if_neg, if_pos]
theorem writeSR_ecnt (h : 0xC0 ≤ n ∧ n ≤ 0xC7) : s.writeSR n x = s.updCore (coreOf s.cur) fun k =>
    { k with ecnt := sput 0 k.ecnt (n - 0xC0) x, ecntAt := s.clk,
             ecntSet := (n - 0xC0) :: (if k.ecntAt = s.clk then k.ecntSet else []) } := by
  simp (disch := omega) only [State.writeSR, if_neg, if_pos]
theorem writeSR_esel (h : 0xC8 ≤ n ∧ n ≤ 0xCF) :
    s.writeSR n x = s.updCore (coreOf s.cur) fun k => { k with esel := sput 0 k.esel (n - 0xC8) x } := by
  simp (disch := omega) only [State.writeSR, if_neg, if_pos]

end

/-! ## A value read back -/

theorem fld_zero {n : Nat} (x : BitVec n) (w : Nat) : fld x 0 w = x.toNat % 2 ^ w := by simp [fld]

/-- The state as a later bundle of the context reads its registers: the latch holds what they hold now (R84). -/
def State.relatched : State := { s with issue := { s.issue with lat := s.cx.regs } }

@[simp] theorem State.relatched_lat : s.relatched.lat = s.cx.regs := rfl
@[simp] theorem State.relatched_cur : s.relatched.cur = s.cur := rfl
@[simp] theorem State.relatched_core (c : Nat) : s.relatched.core c = s.core c := rfl

/-- What system register n reads as in a later bundle, after a write of x. -/
def State.readBack (n : Nat) (x : Word64) : Option Word64 := (s.writeSR n x).relatched.readSR n

section
variable (x : Word64) {n : Nat}

/-- A register of the context's bank: what the write makes of the bank is what a later bundle reads. -/
theorem readBack_of_updRegs (f : Regs → Regs) (g : Regs → Word64) (hw : s.writeSR n x = s.updRegs f)
    (hr : ∀ t : State, t.readSR n = some (g t.lat)) : s.readBack n x = some (g (f s.cx.regs)) := by
  rw [State.readBack, hr, hw, State.relatched_lat, State.cx_updRegs]
/-- A register of the core, likewise. -/
theorem readBack_of_updCore (f : CoreSt → CoreSt) (g : CoreSt → Word64) (hw : s.writeSR n x = s.updCore (coreOf s.cur) f)
    (hr : ∀ t : State, t.readSR n = some (g (t.core (coreOf t.cur)))) :
    s.readBack n x = some (g (f (s.core (coreOf s.cur)))) := by
  rw [State.readBack, hr, hw, State.relatched_core, State.relatched_cur, State.updCore_cur, State.core_updCore_self]

/-- The low bits of a write to fstat come back where the bundle has raised no flag (R67). -/
theorem readBack_fstat (hf : s.issue.flags = 0) : s.readBack 1 x = some (BitVec.ofNat 64 (x.toNat % 2 ^ 6)) := by
  have h : s.readBack 1 x = some (BitVec.ofNat 64 (fld x 0 6) ||| s.issue.flags.setWidth 64) :=
    readBack_of_updRegs s x (fun r => { r with fstat := BitVec.ofNat 64 (fld x 0 6) ||| s.issue.flags.setWidth 64 })
      Regs.fstat rfl fun _ => rfl
  rw [h, hf, fld_zero]
  simp
theorem readBack_view (h : 0x10 ≤ n ∧ n ≤ 0x17) : s.readBack n x = some (BitVec.ofNat 64 (x.toNat % 2 ^ 6)) := by
  rw [readBack_of_updRegs s x _ (fun r => sget 0 r.view (n - 0x10)) (writeSR_view s x h) fun t => readSR_view t h,
    sget_sput_self, fld_zero]
theorem readBack_tvec : s.readBack 0x20 x = some x :=
  readBack_of_updRegs s x (fun r => { r with tvec := x }) Regs.tvec rfl fun _ => rfl
theorem readBack_tpc : s.readBack 0x22 x = some x :=
  readBack_of_updRegs s x (fun r => { r with tpc := x }) Regs.tpc rfl fun _ => rfl
theorem readBack_tscr : s.readBack 0x25 x = some x :=
  readBack_of_updRegs s x (fun r => { r with tscr := x }) Regs.tscr rfl fun _ => rfl
theorem readBack_gocc : s.readBack 0x60 x = some (BitVec.ofNat 64 (x.toNat % 2 ^ 16)) := by
  rw [← fld_zero]
  exact readBack_of_updRegs s x (fun r => { r with gocc := BitVec.ofNat 64 (fld x 0 16) }) Regs.gocc rfl fun _ => rfl
theorem readBack_gdraft : s.readBack 0x61 x = some (BitVec.ofNat 64 (x.toNat % 2 ^ 4)) := by
  rw [← fld_zero]
  exact readBack_of_updRegs s x (fun r => { r with gdraft := BitVec.ofNat 64 (fld x 0 4) }) Regs.gdraft rfl fun _ => rfl
theorem readBack_giter : s.readBack 0x63 x = some (BitVec.ofNat 64 (x.toNat % 2 ^ 32)) := by
  rw [← fld_zero]
  exact readBack_of_updRegs s x (fun r => { r with giter := BitVec.ofNat 64 (fld x 0 32) }) Regs.giter rfl fun _ => rfl
theorem readBack_greq (h : 0x68 ≤ n ∧ n ≤ 0x6F) : s.readBack n x = some x := by
  rw [readBack_of_updRegs s x _ (fun r => sget 0 r.greq (n - 0x68)) (writeSR_greq s x h) fun t => readSR_greq t h, sget_sput_self]
theorem readBack_ecnt (h : 0xC0 ≤ n ∧ n ≤ 0xC7) : s.readBack n x = some x := by
  rw [readBack_of_updCore s x _ (fun k => sget 0 k.ecnt (n - 0xC0)) (writeSR_ecnt s x h) fun t => readSR_ecnt t h, sget_sput_self]
theorem readBack_esel (h : 0xC8 ≤ n ∧ n ≤ 0xCF) : s.readBack n x = some x := by
  rw [readBack_of_updCore s x _ (fun k => sget 0 k.esel (n - 0xC8)) (writeSR_esel s x h) fun t => readSR_esel t h, sget_sput_self]

/-- The registers that keep all 64 bits of an accepted value. -/
theorem readBack_whole (h : n = 0x20 ∨ n = 0x22 ∨ n = 0x25 ∨ (0x68 ≤ n ∧ n ≤ 0x6F) ∨ (0xC0 ≤ n ∧ n ≤ 0xCF)) :
    s.readBack n x = some x := by
  obtain rfl | rfl | rfl | hgreq | hcount := h
  · exact readBack_tvec s x
  · exact readBack_tpc s x
  · exact readBack_tscr s x
  · exact readBack_greq s x hgreq
  · obtain hecnt | hesel : n ≤ 0xC7 ∨ 0xC8 ≤ n := by omega
    · exact readBack_ecnt s x ⟨hcount.1, hecnt⟩
    · exact readBack_esel s x ⟨hesel, hcount.2⟩

end
end

/-- Settles O20: the verdict of each check decides the outcome, and every writable register reads back by its own rule. -/
theorem systemRegisterAccess : Obligations.SystemRegisterAccess := by
  intro s d a sr
  have hmfsr : exec (.mfsr d sr) s = s.resolve (checkMfsr sr s) fun s => s.wS d ((s.readSR sr.toNat).getD 0) := rfl
  have hmtsr : exec (.mtsr a sr) s = s.resolve (checkMtsr a sr s) fun s => s.writeSR sr.toNat (s.rS a) := rfl
  refine ⟨fun x hx hq hl => ?_, fun hx hset => ?_, fun hc hq => ?_, fun hc hset => ?_, mtsrCause_of_readOnly _, fun x => ?_⟩
  · rw [hmfsr, checkMfsr_of_listed s hx hq hl, resolve_ok, hx]
    rfl
  · rw [hmfsr, checkMfsr_of_unlisted s hx, resolve_trap _ _ _ _ hset]
  · rw [hmtsr, checkMtsr_of_accepted s hc hq, resolve_ok]
  · rw [hmtsr, checkMtsr_of_rejected s hc, resolve_trap _ _ _ _ hset]
  · intro n t back low
    have hback : back = s.readBack n x := rfl
    rw [hback]
    refine ⟨fun h hf => ?_, readBack_view s x, readBack_whole s x, fun h => ?_, fun h => ?_, fun h => ?_⟩
    · rw [h]; exact readBack_fstat s x hf
    · rw [h]; exact readBack_gocc s x
    · rw [h]; exact readBack_gdraft s x
    · rw [h]; exact readBack_giter s x

end Sys2Proof.Machine
end

section
/-! PROOFS. Domain syncs: every live member completes at once, or nothing happens (R20, R21). -/

namespace Sys2Proof.Machine

/-- One update made to each of several contexts changes those and no other. -/
theorem ctx_foldl_updCtx (f : Ctx → Ctx) (ms : List Nat) (h : ms.Nodup) (s : State) (m : Nat) :
    (ms.foldl (fun s m => s.updCtx m f) s).ctx m = if m ∈ ms then f (s.ctx m) else s.ctx m := by
  induction ms generalizing s with
  | nil => rfl
  | cons x xs ih =>
    obtain ⟨hx, hxs⟩ := List.nodup_cons.mp h
    rw [List.foldl_cons, ih hxs]
    by_cases e : m = x
    · subst e
      simp [hx]
    · simp [e, State.ctx_updCtx_ne s f e]

/-- The guard of a domain's completion: there are members, and each has arrived more often than it has synced. -/
theorem domainCheck_guard (s : State) (ms : List Nat) :
    (!ms.isEmpty && ms.all fun m => decide ((s.ctx m).synced < (s.ctx m).arrived)) = true ↔
      ms ≠ [] ∧ ∀ m ∈ ms, (s.ctx m).synced < (s.ctx m).arrived := by
  simp

/-- Settles O38: the fold over the members updates each of them once. -/
theorem domainSyncCompletesForAll : Obligations.DomainSyncCompletesForAll := by
  intro s n hnd t all
  have hguard := domainCheck_guard s (s.domain n)
  refine ⟨fun hall m => ?_, fun hall => ?_⟩
  · show (s.domainCheck n).ctx m = _
    unfold State.domainCheck
    rw [if_pos (hguard.mpr hall)]
    exact ctx_foldl_updCtx _ _ hnd s m
  · show s.domainCheck n = s
    unfold State.domainCheck
    rw [if_neg fun h => hall (hguard.mp h)]

end Sys2Proof.Machine
end

section
/-! PROOFS. The state after reset, and what its first step leaves (R14, R335). -/

namespace Sys2Proof.Machine

/-- The first step after reset is the cold reset. -/
theorem step_reset : step State.reset = .next State.reset.coldReset := rfl
/-- With no image in the firmware store bring-up ends in FAILED with cause 331 (log 3). -/
theorem coldReset_reset_failed : ∀ d < 4, (State.reset.coldReset.die d).boot = 6 ∧ (State.reset.coldReset.die d).bootCause = 331 := by
  decide +kernel

/-- Settles O59: every table of the state is empty, and its first step is the cold reset. -/
theorem resetState : Obligations.ResetState :=
  ⟨reset_memWf, fun _ => ⟨rfl, rfl⟩, fun _ => rfl, fun _ => ⟨rfl, rfl⟩, rfl, rfl, rfl, _, step_reset, coldReset_reset_failed⟩

end Sys2Proof.Machine
end

section
/-! PROOFS. Issue: the four slots of a bundle, the bundle at the pc, and a core's turn (R15 to R17, R69, R83, R84, R312). -/

namespace Sys2Proof.Machine

/-! ## Slots one after another -/

section
variable {s t1 t2 t3 t4 : State} {x0 x1 x2 x3 : Nat × Instr}

theorem runSlots_three (h1 : s.runSlot x1 = .next t1) (h2 : t1.runSlot x2 = .next t2) (h3 : t2.runSlot x3 = .next t3) :
    s.runSlots [x1, x2, x3] = .next t3 := by
  simp only [State.runSlots, h1, h2, h3, andThen_next]

theorem runSlots_four (h0 : s.runSlot x0 = .next t1) (h1 : t1.runSlot x1 = .next t2) (h2 : t2.runSlot x2 = .next t3)
    (h3 : t3.runSlot x3 = .next t4) : s.runSlots [x0, x1, x2, x3] = .next t4 := by
  rw [State.runSlots, h0, andThen_next, runSlots_three h1 h2 h3]

end

@[simp] theorem divIssue_cur (s : State) (b : Bundle) : (s.divIssue b).cur = s.cur := by
  unfold State.divIssue
  split <;> rfl

/-- What follows an issuing bundle's slots that act first. -/
theorem issueBundle_eq {s t : State} {b : Bundle} (h : ((s.divIssue b).bump 2 s.cur 1).runSlots (actOrder b) = .next t) :
    s.issueBundle b = andThen ((t.updRegs Regs.fmtCount).runSlots (lastSlots b)) fun u =>
      if u.issue.trapped then .next u
      else .next (if pointBundle b then u.advance.commitAt u.advance.cur u.advance.cx.regs.pc else u.advance) := by
  unfold State.issueBundle
  dsimp only
  rw [divIssue_cur, h, andThen_next]

/-- Settles O6: end and trap act after the fmt counts, every other slot 0 before the other slots. -/
theorem issueRunsEverySlot : Obligations.IssueRunsEverySlot := by
  intro s b t1 t2 t3 t4 s0 close
  refine ⟨fun hl h0 h3 h2 h1 htrap => ?_, fun hl h3 h2 h1 h0 => ?_⟩
  · have horder : actOrder b = [(0, b.i0), (3, b.i3), (2, b.i2), (1, b.i1)] := by simp [actOrder, hl]
    have hlast : lastSlots b = [] := by simp [lastSlots, hl]
    rw [issueBundle_eq (horder ▸ runSlots_four h0 h3 h2 h1), hlast]
    show (if t4.issue.trapped = true then _ else _) = _
    rw [htrap]
    rfl
  · have horder : actOrder b = [(3, b.i3), (2, b.i2), (1, b.i1)] := by simp [actOrder, hl]
    have hlast : lastSlots b = [(0, b.i0)] := by simp [lastSlots, hl]
    rw [issueBundle_eq (horder ▸ runSlots_three h3 h2 h1), hlast]
    simp only [State.runSlots, andThen_next, h0]
    split <;> rfl

/-! ## A core's turn -/

theorem step_of_turn {s : State} (ha : s.agenda = []) (ht : s.turn < Config.cores) :
    step s = andThen (s.coreTurn s.turn) fun t => .next t.afterTurn := by
  unfold step
  rw [ha]
  exact if_pos ht

/-- A Running context that is neither held, pre-empted nor leaving is the one its core runs. -/
theorem live_of_running {c : Ctx} (hr : c.st = .running) (hh : c.held = none) (hp : c.preempted = false) (hl : c.leaving = false) :
    c.live = true := by
  simp [Ctx.live, hr, hh, hp, hl]

theorem runs_iff (s : State) (c : Nat) : s.runs c = true ↔
    (s.ctx (4 * c + (s.core c).cur)).st = .running ∧ (s.ctx (4 * c + (s.core c).cur)).live = true := by
  simp [State.runs]

section
variable {s : State} {c : Nat}

theorem coreTurn_bubble (hr : s.runs c = true) (hb : (s.core c).bubble = true) : s.coreTurn c =
    .next ((s.updCore c fun k => { k with bubble := false }).bump 3 (4 * c + (s.core c).cur) 1) := by
  unfold State.coreTurn
  simp only [hr, hb, if_true]

theorem coreTurn_issue (hr : s.runs c = true) (hb : (s.core c).bubble = false) :
    s.coreTurn c = andThen (s.issueCtx (4 * c + (s.core c).cur)) fun t => .next (t.afterIssue c) := by
  unfold State.coreTurn
  simp only [hr, hb, if_true, Bool.false_eq_true, if_false]

end

theorem andThen_assoc (o : Out) (f g : State → Out) : andThen (andThen o f) g = andThen o fun s => andThen (f s) g := by
  cases o <;> rfl

/-- A bundle's bits come to issue, or trap where they do not decode. -/
theorem runBits_eq (s : State) (x : BitVec 128) : s.runBits x = match decodeBundle x with
    | .ok b => s.runBundle b
    | .error e => s.atPoint ({ s with issue := { s.issue with slot := e.slot, opcode := e.opcode } }.resolve (.trap e.err.cause 0) id) := by
  unfold State.runBits
  cases decodeBundle x <;> rfl

/-- Settles O5: a turn in which the instruction cache holds the line runs the bits at the pc (`issueCtx_hit`). -/
theorem stepRunsTheBundleAtThePc : Obligations.StepRunsTheBundleAtThePc := by
  intro s x ha ht c n s2 hr hh hp hl
  have hruns : s.runs c = true := (runs_iff s c).mpr ⟨hr, live_of_running hr hh hp hl⟩
  refine ⟨fun hb => ?_, fun hb hd hc ho hx => ⟨rfl, ?_, rfl, ?_⟩⟩
  · rw [step_of_turn ha ht, coreTurn_bubble hruns hb]
    rfl
  · show (s2.ctx n).regs = _
    rw [enter_ctx]
  · rw [step_of_turn ha ht, coreTurn_issue hruns hb, issueCtx_hit s hd hc ho hx, andThen_assoc]
    exact congrArg₂ andThen (runBits_eq _ _) rfl

end Sys2Proof.Machine
end

section
/-! PROOFS. A step outside the cores, the context a core goes on with, and the end of a clk (R14, R17, R36, R42). -/

namespace Sys2Proof.Machine

/-! ## The agenda, and the engines' and managers' move -/

theorem step_of_agenda {s : State} {i : Instr} {rest : List Instr} (h : s.agenda = i :: rest) :
    step s = if Instr.inSlot i then .next { s with agenda := rest } else exec i { s with agenda := rest } := by
  unfold step
  rw [h]
  rfl

theorem step_of_managers {s : State} (ha : s.agenda = []) (ht : s.turn = Config.cores) : step s = s.machineTurn := by
  unfold step
  rw [ha]
  exact if_neg (by rw [ht]; exact Nat.lt_irrefl _)

theorem machineTurn_of_access {s t : State} (h : s.heldAccess = some t) : s.machineTurn = .next t := by
  unfold State.machineTurn
  rw [h]

theorem machineTurn_of_due {s : State} {i : Instr} (h : s.heldAccess = none) (hi : s.due = some i) : s.machineTurn = exec i s := by
  simp only [State.machineTurn, h, hi]

theorem machineTurn_of_none {s : State} (h : s.heldAccess = none) (hn : s.due = none) : s.machineTurn = .next { s with turn := 0 } := by
  simp only [State.machineTurn, h, hn]

/-! ## The context a core goes on with -/

/-- The i-th context of a core's rotation behind its current one, and whether it can be selected. -/
def State.inRotation (s : State) (c i : Nat) : Nat := 4 * c + ((s.core c).cur + i) % 4
def State.canSelect (s : State) (n : Nat) : Bool := (s.ctx n).st == .ready && (s.ctx n).live

theorem canSelect_iff (s : State) (n : Nat) : s.canSelect n = true ↔ (s.ctx n).st = .ready ∧ (s.ctx n).live = true := by
  simp [State.canSelect]

theorem nextReady_eq (s : State) (c : Nat) :
    s.nextReady c = ((List.range 4).find? fun i => s.canSelect (s.inRotation c (i + 1))).map fun i => s.inRotation c (i + 1) := by
  have harg (i : Nat) : 4 * c + ((s.core c).cur + 1 + i) % 4 = s.inRotation c (i + 1) := by
    rw [State.inRotation, Nat.add_assoc, Nat.add_comm 1 i]
  unfold State.nextReady
  simp only [harg, List.find?_map]
  rfl

/-- The first context of the rotation that can be selected is the next. -/
theorem nextReady_of_first {s : State} {c i : Nat} (h1 : 1 ≤ i) (h4 : i ≤ 4) (hi : s.canSelect (s.inRotation c i) = true)
    (hfirst : ∀ j, 1 ≤ j → j < i → s.canSelect (s.inRotation c j) ≠ true) : s.nextReady c = some (s.inRotation c i) := by
  obtain ⟨k, rfl⟩ : ∃ k, i = k + 1 := ⟨i - 1, by omega⟩
  have hfind : (List.range 4).find? (fun i => s.canSelect (s.inRotation c (i + 1))) = some k := by
    rw [List.find?_range_eq_some]
    exact ⟨hi, List.mem_range.mpr (by omega), fun j hj => by simpa using hfirst (j + 1) (by omega) (by omega)⟩
  rw [nextReady_eq, hfind]
  rfl

theorem nextReady_of_none {s : State} {c : Nat} (h : ∀ i, 1 ≤ i → i ≤ 4 → s.canSelect (s.inRotation c i) ≠ true) :
    s.nextReady c = none := by
  have hfind : (List.range 4).find? (fun i => s.canSelect (s.inRotation c (i + 1))) = none := by
    rw [List.find?_range_eq_none]
    exact fun i hi => by simpa using h (i + 1) (by omega) (by omega)
  rw [nextReady_eq, hfind]
  rfl

/-- Taking the turn from a Running context changes states of contexts alone. -/
theorem ctx_foldl_yield (ms : List Nat) (s : State) (n : Nat) : ∃ st, (ms.foldl (fun (s : State) m =>
    if (s.ctx m).st == .running then s.updCtx m fun x => { x with st := .ready } else s) s).ctx n = { s.ctx n with st := st } := by
  induction ms generalizing s with
  | nil => exact ⟨(s.ctx n).st, rfl⟩
  | cons m ms ih =>
    rw [List.foldl_cons]
    split
    · obtain ⟨st, h⟩ := ih (s.updCtx m fun x => { x with st := .ready })
      by_cases e : n = m
      · subst e
        exact ⟨st, by rw [h, State.ctx_updCtx_self]⟩
      · exact ⟨st, by rw [h, State.ctx_updCtx_ne _ _ e]⟩
    · exact ih s

/-- The selected context is Running, and nothing else of it changes. -/
theorem pickCtx_ctx (s : State) (c n : Nat) : (s.pickCtx c n).ctx n = { s.ctx n with st := .running } := by
  obtain ⟨st, h⟩ := ctx_foldl_yield ((List.range 4).map (4 * c + ·)) s n
  unfold State.pickCtx
  dsimp only
  rw [State.ctx_updCore, State.ctx_updCtx_self, h]

@[simp] theorem pickCtx_core_cur (s : State) (c n : Nat) : ((s.pickCtx c n).core c).cur = n % 4 := by simp [State.pickCtx]
@[simp] theorem pickCtx_core_busy (s : State) (c n : Nat) : ((s.pickCtx c n).core c).busy = true := by simp [State.pickCtx]

/-- A core that goes on with its context. -/
theorem afterIssue_of_runs {s : State} {c : Nat} (h : s.runs c = true) : s.afterIssue c = s.updCore c fun k => { k with busy := true } := by
  unfold State.afterIssue
  rw [if_pos h]

/-- A core that selects another context has one bubble. -/
theorem afterIssue_of_next {s : State} {c m : Nat} (h : s.runs c = false) (hm : s.nextReady c = some m) :
    s.afterIssue c = (s.pickCtx c m).updCore c fun k => { k with bubble := true } := by
  unfold State.afterIssue
  simp only [h, hm, Bool.false_eq_true, if_false]

/-- A core that finds none Ready idles. -/
theorem afterIssue_of_none {s : State} {c : Nat} (h : s.runs c = false) (hm : s.nextReady c = none) :
    s.afterIssue c = s.updCore c fun k => { k with busy := false } := by
  unfold State.afterIssue
  simp only [h, hm, Bool.false_eq_true, if_false]

/-- The context that the core goes on with is the first of its rotation that can be selected. -/
theorem afterIssue_selects {s : State} {c i : Nat} (hr : s.runs c = false) (h1 : 1 ≤ i) (h4 : i ≤ 4)
    (hi : s.canSelect (s.inRotation c i) = true) (hfirst : ∀ j, 1 ≤ j → j < i → s.canSelect (s.inRotation c j) ≠ true) :
    (s.afterIssue c).ctx (s.inRotation c i) = { s.ctx (s.inRotation c i) with st := .running } ∧
    ((s.afterIssue c).core c).cur = ((s.core c).cur + i) % 4 ∧ ((s.afterIssue c).core c).busy = true ∧
    ((s.afterIssue c).core c).bubble = true := by
  rw [afterIssue_of_next hr (nextReady_of_first h1 h4 hi hfirst), State.ctx_updCore, pickCtx_ctx, State.core_updCore_self]
  refine ⟨rfl, ?_, pickCtx_core_busy .., rfl⟩
  show ((s.pickCtx c _).core c).cur = _
  rw [pickCtx_core_cur, State.inRotation]
  omega

/-! ## The end of a clk -/

/-- What the end of a clk leaves of a state: its memories and turn, and of every context the registers, the checkpoint, the gate and
a state other than Blocked. -/
structure ClkKeeps (s t : State) : Prop where
  clk : t.clk = s.clk
  turn : t.turn = s.turn
  mem : t.mem = s.mem
  spad : t.spad = s.spad
  regs : ∀ n, (t.ctx n).regs = (s.ctx n).regs
  ck : ∀ n, (t.ctx n).ck = (s.ctx n).ck
  gate : ∀ n, (t.ctx n).gate = (s.ctx n).gate
  st : ∀ n, (s.ctx n).st ≠ .blocked → (t.ctx n).st = (s.ctx n).st

theorem ClkKeeps.refl (s : State) : ClkKeeps s s := ⟨rfl, rfl, rfl, rfl, fun _ => rfl, fun _ => rfl, fun _ => rfl, fun _ _ => rfl⟩
theorem ClkKeeps.trans {s t u : State} (h : ClkKeeps s t) (k : ClkKeeps t u) : ClkKeeps s u where
  clk := k.clk.trans h.clk
  turn := k.turn.trans h.turn
  mem := k.mem.trans h.mem
  spad := k.spad.trans h.spad
  regs n := (k.regs n).trans (h.regs n)
  ck n := (k.ck n).trans (h.ck n)
  gate n := (k.gate n).trans (h.gate n)
  st n hn := (k.st n (by rw [h.st n hn]; exact hn)).trans (h.st n hn)
theorem ClkKeeps.foldl {β : Type} {f : State → β → State} (hf : ∀ s x, ClkKeeps s (f s x)) (xs : List β) (s : State) :
    ClkKeeps s (xs.foldl f s) := by
  induction xs generalizing s with
  | nil => exact .refl s
  | cons x xs ih => exact (hf s x).trans (ih _)

/-- An update of one context that keeps what the end of a clk keeps of it. -/
theorem ClkKeeps.updCtx (s : State) (n : Nat) (f : Ctx → Ctx) (hr : (f (s.ctx n)).regs = (s.ctx n).regs)
    (hc : (f (s.ctx n)).ck = (s.ctx n).ck) (hg : (f (s.ctx n)).gate = (s.ctx n).gate)
    (hs : (s.ctx n).st ≠ .blocked → (f (s.ctx n)).st = (s.ctx n).st) : ClkKeeps s (s.updCtx n f) := by
  have ctx {α : Type} (g : Ctx → α) (m : Nat) (h : g (f (s.ctx n)) = g (s.ctx n)) : g ((s.updCtx n f).ctx m) = g (s.ctx m) := by
    by_cases e : m = n
    · rw [e, State.ctx_updCtx_self, h]
    · rw [State.ctx_updCtx_ne s f e]
  refine ⟨rfl, rfl, rfl, rfl, fun m => ctx _ m hr, fun m => ctx _ m hc, fun m => ctx _ m hg, fun m hm => ?_⟩
  by_cases e : m = n
  · subst e
    rw [State.ctx_updCtx_self, hs hm]
  · rw [State.ctx_updCtx_ne s f e]

theorem domainCheck_clkKeeps (s : State) (n : Nat) : ClkKeeps s (s.domainCheck n) := by
  unfold State.domainCheck
  dsimp only
  split
  · exact .foldl (fun s m => .updCtx s m _ rfl rfl rfl fun _ => rfl) _ s
  · exact .refl s

theorem arrive_clkKeeps (s : State) (n : Nat) : ClkKeeps s (s.arrive n) := by
  unfold State.arrive
  split
  · exact .refl s
  · exact (ClkKeeps.updCtx s n (fun c => { c with arrived := c.arrived + 1, joined := true }) rfl rfl rfl fun _ => rfl).trans
      (domainCheck_clkKeeps _ n)

theorem lateArrive_clkKeeps (s : State) (n : Nat) : ClkKeeps s (s.lateArrive n) := by
  obtain h | ⟨-, -, h⟩ := lateArrive_cases s n <;> rw [h]
  · exact .refl s
  · exact arrive_clkKeeps s n

theorem wakeCtx_clkKeeps (s : State) (n : Nat) : ClkKeeps s (s.wakeCtx n) := by
  obtain h | ⟨hb, -, -, h⟩ := wakeCtx_cases s n <;> rw [h]
  · exact .refl s
  · exact .updCtx s n (fun c => { c with st := .ready, waitOn := none }) rfl rfl rfl fun hn => absurd hb hn

theorem bump_clkKeeps (s : State) (ev n k : Nat) : ClkKeeps s (s.bump ev n k) :=
  ⟨rfl, rfl, rfl, rfl, fun _ => rfl, fun _ => rfl, fun _ => rfl, fun _ _ => rfl⟩

theorem countClk_clkKeeps (s : State) : ClkKeeps s s.countClk :=
  have hstart (cs : SMap CoreSt) : ClkKeeps s { s with cores := cs } :=
    ⟨rfl, rfl, rfl, rfl, fun _ => rfl, fun _ => rfl, fun _ => rfl, fun _ _ => rfl⟩
  (hstart _).trans (ClkKeeps.foldl (fun s (e : Nat × Ctx) => bump_clkKeeps s 4 e.1 1) _ _)

/-- The clk ends with the counters' counts, the late arrivals and the waking of the Blocked. -/
theorem endClk_keeps (s : State) : ClkKeeps { s with clk := s.clk + 1, turn := Config.cores } s.endClk := by
  have hcount := countClk_clkKeeps s
  have hstart : ClkKeeps { s with clk := s.clk + 1, turn := Config.cores } { s.countClk with clk := s.clk + 1, turn := Config.cores } :=
    ⟨rfl, rfl, hcount.mem, hcount.spad, hcount.regs, hcount.ck, hcount.gate, hcount.st⟩
  exact hstart.trans ((ClkKeeps.foldl lateArrive_clkKeeps _ _).trans (ClkKeeps.foldl wakeCtx_clkKeeps _ _))

/-- Settles O7, clause by clause. -/
theorem stepRunsEvents : Obligations.StepRunsEvents := by
  refine ⟨fun s i rest h => ⟨fun hi => ?_, fun hi => ?_⟩, fun s ha ht => ⟨fun t h => ?_, fun h => ⟨fun i hi => ?_, fun hn => ?_⟩⟩,
    fun s c => ?_, fun s => ⟨fun h => if_pos h, fun h => if_neg (by omega)⟩, fun s => ?_, fun s n hb hl => ⟨fun h => ?_, fun h => ?_⟩⟩
  · rw [step_of_agenda h, hi]; rfl
  · rw [step_of_agenda h, hi]; rfl
  · rw [step_of_managers ha ht, machineTurn_of_access h]
  · rw [step_of_managers ha ht, machineTurn_of_due h hi]
  · rw [step_of_managers ha ht, machineTurn_of_none h hn]
  · intro n t ready
    have hready (i : Nat) : s.canSelect (s.inRotation c i) = true ↔ ready i := canSelect_iff s _
    have hruns (h : ¬ ((s.ctx n).st = .running ∧ (s.ctx n).live = true)) : s.runs c = false :=
      Bool.eq_false_iff.mpr fun hr => h ((runs_iff s c).mp hr)
    refine ⟨fun hr hl => ?_, fun hne => ⟨fun i h1 h4 hi hfirst => ?_, fun hnone => ?_⟩⟩
    · simp [t, afterIssue_of_runs ((runs_iff s c).mpr ⟨hr, hl⟩)]
    · obtain ⟨hctx, hcore⟩ := afterIssue_selects (hruns hne) h1 h4 ((hready i).mpr hi)
        fun j hj hji hsel => hfirst j hj hji ((hready j).mp hsel)
      exact ⟨(congrArg Ctx.st hctx :), (congrArg Ctx.regs hctx :), hcore⟩
    · have hnext := nextReady_of_none fun i h1 h4 hsel => hnone i h1 h4 ((hready i).mp hsel)
      have ht : t = s.updCore c fun k => { k with busy := false } := afterIssue_of_none (hruns hne) hnext
      rw [ht, State.core_updCore_self]
      exact ⟨rfl, rfl⟩
  · have h := endClk_keeps s
    exact ⟨h.clk, h.turn, h.mem, h.spad, fun n => ⟨h.regs n, h.ck n, h.gate n, h.st n⟩⟩
  · simp [State.wakeCtx, hb, hl, h]
  · simp [State.wakeCtx, h]

end Sys2Proof.Machine
end

section
/-! PROOFS. Trap entry: the checkpoint before it, the trap registers, and the end of a launch whose context has no handler
(R40, R317 to R319). -/

namespace Sys2Proof.Machine

/-! ## Two updates of one context -/

theorem sdel_sins_self {α : Type} (m : SMap α) (k : Nat) (v : α) : sdel k (sins k v m) = sdel k m := by
  induction m with
  | nil => simp [sins, sdel]
  | cons e t ih =>
    unfold sins
    split
    · rw [sdel, if_pos rfl]
    · rw [sdel, sdel, ih]

theorem sdel_sdel_self {α : Type} (m : SMap α) (k : Nat) : sdel k (sdel k m) = sdel k m := by
  induction m with
  | nil => rfl
  | cons e t ih =>
    rw [sdel]
    split
    · exact ih
    · rw [sdel, if_neg ‹_›, ih]

/-- The later of two writes to one index stands. -/
theorem sput_sput_self {α : Type} [DecidableEq α] (d : α) (m : SMap α) (k : Nat) (v w : α) : sput d (sput d m k v) k w = sput d m k w := by
  have h : sdel k (sput d m k v) = sdel k m := by
    unfold sput
    split
    · exact sdel_sdel_self m k
    · rw [sdel_sins_self, sdel_sdel_self]
  rw [sput, h, sput]

theorem updCtx_updCtx_self (s : State) (n : Nat) (f g : Ctx → Ctx) : (s.updCtx n f).updCtx n g = s.updCtx n fun c => g (f c) := by
  show (s.updCtx n f).setCtx n (g ((s.updCtx n f).ctx n)) = _
  rw [State.ctx_updCtx_self]
  show { s with ctxs := sput Ctx.zero (sput Ctx.zero s.ctxs n (f (s.ctx n))) n (g (f (s.ctx n))) } = _
  rw [sput_sput_self]
  rfl

/-! ## The end of a launch -/

theorem foldl_updCtx_eq (f : Ctx → Ctx) (ms : List Nat) (s : State) :
    ms.foldl (fun s m => s.updCtx m f) s = { s with ctxs := (ms.foldl (fun s m => s.updCtx m f) s).ctxs } := by
  induction ms generalizing s with
  | nil => rfl
  | cons m ms ih =>
    rw [List.foldl_cons, ih]
    rfl

/-- What an update keeps of a context, updates of several contexts keep. -/
theorem ctx_foldl_updCtx_keeps {f : Ctx → Ctx} {P : Ctx → Prop} (hf : ∀ c, P c → P (f c)) (ms : List Nat) (s : State) {n : Nat}
    (h : P (s.ctx n)) : P ((ms.foldl (fun s m => s.updCtx m f) s).ctx n) := by
  induction ms generalizing s with
  | nil => exact h
  | cons m ms ih =>
    refine ih (s.updCtx m f) ?_
    by_cases e : n = m
    · subst e
      rw [State.ctx_updCtx_self]
      exact hf _ h
    · rw [State.ctx_updCtx_ne _ _ e]
      exact h

/-- A domain's completion changes the syncs and the PHASE of contexts alone. -/
theorem domainCheck_eq (s : State) (n : Nat) : s.domainCheck n = { s with ctxs := (s.domainCheck n).ctxs } := by
  unfold State.domainCheck
  dsimp only
  split
  · exact foldl_updCtx_eq _ _ s
  · rfl

theorem domainCheck_ctx (s : State) (n m : Nat) : ∃ k d, (s.domainCheck n).ctx m = { s.ctx m with synced := k, dom := d } := by
  unfold State.domainCheck
  dsimp only
  split
  · refine ctx_foldl_updCtx_keeps (P := fun c => ∃ k d, c = { s.ctx m with synced := k, dom := d }) ?_ _ s ⟨_, _, rfl⟩
    rintro _ ⟨k, d, rfl⟩
    exact ⟨_, _, rfl⟩
  · exact ⟨_, _, rfl⟩

/-- Requests of an abort reach the contexts listed alone, and leave every launch record. -/
theorem foldl_requestAbort (xs : List (Nat × Ctx)) (n : Nat) (h : ∀ e ∈ xs, e.1 ≠ n) (s : State) :
    let t := xs.foldl (fun s e => if e.2.atMark then s.retireNow e.1 else s.updCtx e.1 fun c => { c with abortAt := some s.clk }) s
    t.ctx n = s.ctx n ∧ t.launches = s.launches := by
  induction xs generalizing s with
  | nil => exact ⟨rfl, rfl⟩
  | cons e xs ih =>
    have he : n ≠ e.1 := (h e List.mem_cons_self).symm
    obtain ⟨hctx, hl⟩ := ih (fun x hx => h x (List.mem_cons_of_mem _ hx))
      (if e.2.atMark then s.retireNow e.1 else s.updCtx e.1 fun c => { c with abortAt := some s.clk })
    refine ⟨hctx.trans ?_, hl.trans ?_⟩
    · split
      · rw [State.retireNow, State.ctx_updCtx_ne _ _ he, rollback_ctx_ne _ he]
      · rw [State.ctx_updCtx_ne _ _ he]
    · split <;> rfl

theorem noteStatus_status {s : State} {l n cause : Nat} (h : (s.launchRec l).status = 0) :
    ((s.noteStatus l n cause).launchRec l).status = cause := by
  unfold State.noteStatus
  rw [State.launchRec_updLaunch_self, if_pos (.inl h)]

/-- A launch that ends with a cause takes it where it has none before, and leaves the context that ends it in its place. -/
theorem endLaunch_spec (s : State) (n cause : Nat) :
    (∃ k d, (s.endLaunch n cause).ctx n = { s.ctx n with synced := k, dom := d }) ∧
    ∀ l, (s.ctx n).launch = some l → (s.launchRec l).status = 0 → ((s.endLaunch n cause).launchRec l).status = cause := by
  unfold State.endLaunch
  cases hl : (s.ctx n).launch with
  | none => exact ⟨⟨_, _, rfl⟩, fun l h => nomatch h⟩
  | some l =>
    dsimp only
    have hothers : ∀ e ∈ (((s.noteStatus l n cause).domainCheck n).ctxs.filter fun e =>
        e.2.launch == some l && e.1 != n && e.2.st != .retiring), e.1 ≠ n := by
      intro e he
      simp only [List.mem_filter, Bool.and_eq_true, bne_iff_ne] at he
      exact he.2.1.2
    obtain ⟨hctx, hlaunch⟩ := foldl_requestAbort _ n hothers ((s.noteStatus l n cause).domainCheck n)
    refine ⟨?_, fun l' e hs => ?_⟩
    · rw [hctx]
      exact domainCheck_ctx _ n n
    · cases e
      show (sget Launch.zero _ l).status = cause
      rw [hlaunch, domainCheck_eq]
      exact noteStatus_status hs

/-! ## Entry -/

section
variable {s : State} {n : Nat} {o : Owed} {once : Bool} {ret : VA}

theorem takeTrap_of_noFault (h : (s.ctx n).engFaults = []) : s.takeTrap n o once ret = s.enterTrap n o once ret := by
  unfold State.takeTrap
  rw [h]

theorem takeTrap_of_fault {f : Nat × VA} {rest : List (Nat × VA)} (h : (s.ctx n).engFaults = f :: rest) :
    s.takeTrap n o once ret = (s.updCtx n fun c => { c with owed := if once then o :: c.owed else c.owed, engFaults := rest }).enterTrap n
      ⟨f.1, tvalOf f.2, 0, 0, true⟩ true ret := by
  unfold State.takeTrap
  rw [h]
  dsimp only
  rw [State.engTrap, updCtx_updCtx_self]
  have hupd : (s.updCtx n fun c => { c with owed := if once then o :: c.owed else c.owed, engFaults := c.engFaults.drop 1 }) =
      s.updCtx n fun c => { c with owed := if once then o :: c.owed else c.owed, engFaults := rest } := by
    simp only [State.updCtx, h, List.drop_one, List.tail_cons]
  exact congrArg (State.enterTrap · n ⟨f.1, tvalOf f.2, 0, 0, true⟩ true ret) hupd

/-- Without a handler, or in one, the context retires and its launch ends. -/
theorem enterTrap_of_noHandler (h : (s.ctx n).regs.tvec.getLsbD 63 = false ∨ (s.ctx n).regs.tstate.getLsbD 0 = true) :
    s.enterTrap n o once ret =
      ((s.retireNow n).saveBlock n).endLaunch n (if (s.ctx n).regs.tstate.getLsbD 0 then 327 else o.cause) := by
  unfold State.enterTrap
  dsimp only
  rw [if_pos]
  simpa using h

/-- With a handler, outside one, over an empty gate and with nothing requested of the context, the checkpoint commits and the trap
registers are written. -/
theorem enterTrap_of_handler (hv : (s.ctx n).regs.tvec.getLsbD 63 = true) (ht : (s.ctx n).regs.tstate.getLsbD 0 = false)
    (hg : (s.ctx n).gate = []) (ha : (s.ctx n).abortAt = none) (hp : (s.ctx n).preq = false) (hr : (s.ctx n).st ≠ .retiring) :
    let t := s.enterTrap n o once ret
    (t.ctx n).ck = { (s.ctx n).regs with pc := ret } ∧
    (t.ctx n).regs = (s.ctx n).regs.trapped o ret (qoff (s.launchOf n).code (16 * fld (s.ctx n).regs.tvec 0 32)) ∧
    (t.ctx n).gate = [] ∧ t.mem = s.mem ∧ t.spad = s.spad ∧ ∀ m, m ≠ n → t.ctx m = s.ctx m := by
  let u := s.updCtx n fun c => { c with waitOn := none, st := if c.st == .blocked then .ready else c.st }
  have hu : u.ctx n = { s.ctx n with waitOn := none, st := if (s.ctx n).st == .blocked then .ready else (s.ctx n).st } := by
    simp [u]
  obtain ⟨hmark, hother, heq⟩ := markAt_of_empty u (n := n) ret (by rw [hu]; exact hg)
  rw [hu] at hmark
  have hcommit : u.commitAt n ret = u.markAt n ret := commitAt_eq_markAt u ret (by rw [hmark]; exact ha) (by rw [hmark]; exact hp)
  have hentry : s.enterTrap n o once ret = (u.markAt n ret).updCtx n fun c => { c with
      regs := c.regs.trapped o ret (qoff (s.launchOf n).code (16 * fld (s.ctx n).regs.tvec 0 32)),
      ckTrap := if once then some o else none, owed := [], later := c.owed ++ c.later } := by
    have hst : (((u.markAt n ret).ctx n).st == .retiring) = false := by
      rw [hmark]
      show ((if (s.ctx n).st == .blocked then CtxState.ready else (s.ctx n).st) == .retiring) = false
      split
      · rfl
      · simpa using hr
    unfold State.enterTrap
    simp only [hv, ht, Bool.not_true, Bool.or_self, Bool.false_eq_true, if_false]
    show (if ((u.commitAt n ret).ctx n).st == .retiring then u.commitAt n ret else _) = _
    rw [hcommit, hst]
    rfl
  intro t
  have htn : t = _ := hentry
  rw [htn, State.ctx_updCtx_self, hmark]
  refine ⟨rfl, rfl, rfl, ?_, ?_, fun m hm => ?_⟩
  · show (u.markAt n ret).mem = _; rw [heq]; rfl
  · show (u.markAt n ret).spad = _; rw [heq]; rfl
  · rw [State.ctx_updCtx_ne _ _ hm, hother m hm]
    exact State.ctx_updCtx_ne _ _ hm

end

/-- Settles O19: with a handler, without one, and behind an engine fault that is owed. -/
theorem trapEntry : Obligations.TrapEntry := by
  intro s n o once ret r t entry
  refine ⟨fun he hv hs hg ha hp hr => ?_, fun he h => ?_, fun f rest he => takeTrap_of_fault he⟩
  · have ht : t = s.enterTrap n o once ret := takeTrap_of_noFault he
    have hentry : entry = qoff (s.launchOf n).code (16 * fld r.tvec 0 32) := by simp [entry, fld]
    have htc : BitVec.ofNat 64 (o.cause + 2 ^ 9 * o.slot + 2 ^ 11 * o.opcode + if o.fault then 2 ^ 18 else 0) =
        tcauseOf o.cause o.slot o.opcode o.fault := by
      cases o.fault <;> rfl
    rw [ht, hentry, htc]
    exact enterTrap_of_handler hv hs hg ha hp hr
  · have ht : t = _ := (takeTrap_of_noFault he).trans (enterTrap_of_noHandler h)
    obtain ⟨⟨k, d, hctx⟩, hstatus⟩ := endLaunch_spec ((s.retireNow n).saveBlock n) n (if r.tstate.getLsbD 0 then 327 else o.cause)
    rw [saveBlock_ctx, retireNow_ctx] at hctx hstatus
    rw [ht, hctx]
    exact ⟨rfl, rfl, rfl, hstatus⟩

end Sys2Proof.Machine
end

section
/-! PROOFS. What an access to memory leaves of the machine. Every coherence transaction, translation and write of a line changes
the copies of lines and what memory, links and devices keep of them, and beside those only marks of contexts: a conflict, or the void
check of a gated store. -/

namespace Sys2Proof.Machine

/-- A gate entry, and a context, without the marks that other parties' accesses set. -/
def GateEnt.bare (g : GateEnt) : GateEnt := { g with checked := false }
def Ctx.bare (c : Ctx) : Ctx := { c with conflict := false, gate := c.gate.map GateEnt.bare }
/-- What an access to memory leaves of a state. -/
def State.outline (s : State) : State :=
  { s with
    ctxs := s.ctxs.map fun e => (e.1, e.2.bare)
    cores := [], dies := [], mem := [], dir := [], cxl := [], badUnits := [], devFaults := [], heldWrites := [], links := [], tlb := [] }

/-! ## Parts of the state that an access changes -/

section
variable (s : State)

theorem outline_cores (x : SMap CoreSt) : { s with cores := x }.outline = s.outline := rfl
theorem outline_dies (x : SMap DieSt) : { s with dies := x }.outline = s.outline := rfl
theorem outline_mem (x : List Host.Cell) : { s with mem := x }.outline = s.outline := rfl
theorem outline_dir (x : SMap (List DirEnt)) : { s with dir := x }.outline = s.outline := rfl
theorem outline_cxl (x : SMap (Option (Bool × Vec))) : { s with cxl := x }.outline = s.outline := rfl
theorem outline_badUnits (x : List BadUnit) : { s with badUnits := x }.outline = s.outline := rfl
theorem outline_devFaults (x : List BadCell) : { s with devFaults := x }.outline = s.outline := rfl
theorem outline_heldWrites (x : List HeldWrite) : { s with heldWrites := x }.outline = s.outline := rfl
theorem outline_links (x : SMap Link) : { s with links := x }.outline = s.outline := rfl
theorem outline_tlb (x : List Tlb) : { s with tlb := x }.outline = s.outline := rfl
@[simp] theorem outline_updCore (n : Nat) (f : CoreSt → CoreSt) : (s.updCore n f).outline = s.outline := rfl
@[simp] theorem outline_updDie (n : Nat) (f : DieSt → DieSt) : (s.updDie n f).outline = s.outline := rfl
@[simp] theorem outline_bump (ev n k : Nat) : (s.bump ev n k).outline = s.outline := rfl

/-- Marks set in every context's entry. -/
theorem outline_markCtxs (f : Nat × Ctx → Nat × Ctx) (h : ∀ e, (f e).1 = e.1 ∧ (f e).2.bare = e.2.bare) :
    { s with ctxs := s.ctxs.map f }.outline = s.outline := by
  have hm : (s.ctxs.map f).map (fun e => (e.1, e.2.bare)) = s.ctxs.map fun e => (e.1, e.2.bare) := by
    rw [List.map_map]
    refine List.map_congr_left fun e _ => ?_
    simp [(h e).1, (h e).2]
  unfold State.outline
  dsimp only
  rw [hm]

theorem outline_conflicts (p : Nat × Ctx → Bool) : { s with
    ctxs := s.ctxs.map fun e => if p e then (e.1, { e.2 with conflict := true }) else e }.outline = s.outline := by
  refine outline_markCtxs s _ fun e => ?_
  split <;> exact ⟨rfl, rfl⟩

theorem outline_voidGates (p : GateEnt → Bool) : { s with
    ctxs := s.ctxs.map fun (e : Nat × Ctx) => (e.1, { e.2 with gate := e.2.gate.map fun g => if p g then { g with checked := false } else g }) }.outline =
      s.outline := by
  refine outline_markCtxs s _ fun e => ⟨rfl, ?_⟩
  have hg : (e.2.gate.map fun g => if p g then { g with checked := false } else g).map GateEnt.bare = e.2.gate.map GateEnt.bare := by
    rw [List.map_map]
    refine List.map_congr_left fun g _ => ?_
    simp only [Function.comp_apply]
    split <;> rfl
  unfold Ctx.bare
  dsimp only
  rw [hg]

/-- Accesses one after another. -/
@[simp] theorem outline_foldl {β : Type} {f : State → β → State} (hf : ∀ s x, (f s x).outline = s.outline) (xs : List β) :
    (xs.foldl f s).outline = s.outline := by
  induction xs generalizing s with
  | nil => rfl
  | cons x xs ih => rw [List.foldl_cons, ih, hf]
@[simp] theorem outline_ite (c : Prop) [Decidable c] (t : State) :
    (if c then s else t).outline = if c then s.outline else t.outline := apply_ite ..

/-! ## Devices and host lines -/

@[simp] theorem outline_devWrite (cs : List Host.Cell) : (s.devWrite cs).outline = s.outline := by
  unfold State.devWrite
  dsimp only
  split <;> rfl
@[simp] theorem outline_homeMerge (l : Nat) (bs : List (Nat × Byte)) : (s.homeMerge l bs).outline = s.outline := by
  unfold State.homeMerge
  split
  · rfl
  · exact outline_devWrite ..
@[simp] theorem outline_cxlFill (l : Nat) : (s.cxlFill l).outline = s.outline := by
  unfold State.cxlFill
  split <;> rfl
@[simp] theorem outline_cxlClean (l : Nat) : (s.cxlClean l).outline = s.outline := by
  unfold State.cxlClean
  split
  · exact (outline_cxl _ _).trans (outline_devWrite ..)
  · rfl
@[simp] theorem outline_cxlDrop (l : Nat) : (s.cxlDrop l).outline = s.outline := outline_cxlClean s l

/-! ## Copies and the directory -/

@[simp] theorem outline_l1Del (c l : Nat) : (s.l1Del c l).outline = s.outline := rfl
@[simp] theorem outline_l1Put (c : Nat) (p : Copy) : (s.l1Put c p).outline = s.outline := rfl
@[simp] theorem outline_l1Set (c : Nat) (p : Copy) : (s.l1Set c p).outline = s.outline := rfl
@[simp] theorem outline_prDel (d l : Nat) : (s.prDel d l).outline = s.outline := rfl
@[simp] theorem outline_prPut (d : Nat) (p : Copy) : (s.prPut d p).outline = s.outline := rfl
@[simp] theorem outline_header (d : Nat) : (s.header d).outline = s.outline := rfl
@[simp] theorem outline_dirPut (e : DirEnt) : (s.dirPut e).outline = s.outline := rfl
@[simp] theorem outline_dirDel (l : Nat) : (s.dirDel l).outline = s.outline := rfl
@[simp] theorem outline_conflictIf (o : Option Nat) (l : Nat) (p : Watch → Bool) : (s.conflictIf o l p).outline = s.outline :=
  outline_conflicts s _
@[simp] theorem outline_crossed (a b : Nat) : (s.crossed a b).outline = s.outline := by
  unfold State.crossed
  split <;> rfl

/-! ## Steps at one L1 -/

@[simp] theorem outline_writeBack (c l : Nat) : (s.writeBack c l).outline = s.outline := by
  unfold State.writeBack
  split
  · split
    · split
      · simp
      · split <;> simp
    · rfl
  · rfl
@[simp] theorem outline_recallL1 (c l : Nat) : (s.recallL1 c l).outline = s.outline := by
  unfold State.recallL1
  split <;> simp
@[simp] theorem outline_invL1 (c l : Nat) : (s.invL1 c l).outline = s.outline := by simp [State.invL1]
@[simp] theorem outline_l1Fit (c set keep n : Nat) : (s.l1Fit c set keep n).outline = s.outline := by
  induction n generalizing s with
  | zero => rfl
  | succ n ih =>
    unfold State.l1Fit
    dsimp only
    split
    · rfl
    · split
      · rw [ih, outline_invL1]
      · rfl
@[simp] theorem outline_l1Place (c : Nat) (x : Copy) : (s.l1Place c x).outline = s.outline := by simp [State.l1Place]
@[simp] theorem outline_storeHeader (d l : Nat) (hf : BitVec 2) (offs : List Nat) (old new : Vec) :
    (s.storeHeader d l hf offs old new).outline = s.outline := by
  unfold State.storeHeader
  rw [outline_foldl, outline_header]
  intro s c
  split
  · rfl
  · dsimp only
    split
    · simp
    · simp
@[simp] theorem outline_invDie (o : Option Nat) (d l : Nat) : (s.invDie o d l).outline = s.outline := by
  unfold State.invDie
  rw [outline_prDel, outline_conflicts]
  simp
@[simp] theorem outline_invHomeL1s (o : Option Nat) (l : Nat) (x : Option Nat) : (s.invHomeL1s o l x).outline = s.outline := by
  simp [State.invHomeL1s]

/-! ## Steps at the home -/

@[simp] theorem outline_recallOwner (e : DirEnt) : (s.recallOwner e).1.outline = s.outline := by
  unfold State.recallOwner
  split
  · rfl
  · dsimp only
    split <;> simp
@[simp] theorem outline_hostInv (e : DirEnt) : (s.hostInv e).1.outline = s.outline := by
  unfold State.hostInv
  split <;> simp
@[simp] theorem outline_invRemote (o : Option Nat) (e : DirEnt) (d : Nat) : (s.invRemote o e d).outline = s.outline := by
  simp [State.invRemote]
@[simp] theorem outline_dropRemote (o : Option Nat) (e : DirEnt) : (s.dropRemote o e).1.outline = s.outline := by
  simp [State.dropRemote]
@[simp] theorem outline_snoop (e : DirEnt) (hf : BitVec 2) (y : Option Nat) (home : Bool) (offs : List Nat) (old new : Vec) :
    (s.snoop e hf y home offs old new).1.outline = s.outline := by
  have hfold (xs : List Nat) (a : State × DirEnt) : (xs.foldl (fun (a : State × DirEnt) d =>
      if a.2.has d && some d != y && changedAt hf (a.2.fmtOf d) offs old new then
        let s := (a.1.crossed (lineDie e.line) d).crossed d (lineDie e.line)
        match s.prFind d e.line with
        | some p =>
          let s := s.prPut d { p with data := viewLine hf p.view new }
          (s.storeHeader d e.line hf offs old new, a.2)
        | none => (s, a.2.drop d)
      else a) a).1.outline = a.1.outline := by
    induction xs generalizing a with
    | nil => rfl
    | cons x xs ih =>
      rw [List.foldl_cons, ih]
      split
      · dsimp only
        split <;> simp
      · rfl
  unfold State.snoop
  dsimp only
  split
  · rw [outline_hostInv]
    refine (hfold _ _).trans ?_
    simp
  · refine (hfold _ _).trans ?_
    simp
@[simp] theorem outline_probe (l : Nat) : (s.probe l).1.outline = s.outline := rfl
@[simp] theorem outline_dirRoom (o : Option Nat) (l : Nat) : (s.dirRoom o l).outline = s.outline := by
  unfold State.dirRoom
  split <;> simp
@[simp] theorem outline_dirAlloc (o : Option Nat) (l : Nat) : (s.dirAlloc o l).1.outline = s.outline := by
  unfold State.dirAlloc
  split
  · rfl
  · simp
@[simp] theorem outline_retag (o : Option Nat) (e : DirEnt) (asid : BitVec 16) (va : VA) : (s.retag o e asid va).1.outline = s.outline := by
  unfold State.retag
  split <;> simp
@[simp] theorem outline_recallHome (l : Nat) : (s.recallHome l).outline = s.outline := by simp [State.recallHome]
@[simp] theorem outline_supply (e : DirEnt) (y : Nat) : (s.supply e y).1.outline = s.outline := by
  unfold State.supply
  dsimp only
  split <;> simp
@[simp] theorem outline_homeRead (o : Option Nat) (l y : Nat) (t : Tag) (v : BitVec 3) : (s.homeRead o l y t v).outline = s.outline := by
  unfold State.homeRead
  dsimp only
  split <;> simp
@[simp] theorem outline_homeWrite (o : Option Nat) (l y : Nat) (t : Tag) (bs : List (Nat × Byte)) (old new : Vec) :
    (s.homeWrite o l y t bs old new).outline = s.outline := by
  unfold State.homeWrite
  dsimp only
  split
  · simp
  · split <;> simp
@[simp] theorem outline_homeReadLocal (o : Option Nat) (l : Nat) (t : Tag) : (s.homeReadLocal o l t).outline = s.outline := by
  unfold State.homeReadLocal
  split <;> simp
@[simp] theorem outline_homeStore (o : Option Nat) (l1 : Bool) (l : Nat) (t : Tag) (bs : List (Nat × Byte)) (old new : Vec) :
    (s.homeStore o l1 l t bs old new).outline = s.outline := by
  unfold State.homeStore
  split <;> simp

/-! ## Tags and the L2 -/

@[simp] theorem outline_clearHome (o : Option Nat) (l : Nat) : (s.clearHome o l).outline = s.outline := by
  unfold State.clearHome
  dsimp only
  split <;> simp
@[simp] theorem outline_synonym (o : Option Nat) (l : Nat) (t : Tag) : (s.synonym o l t).outline = s.outline := by
  unfold State.synonym
  dsimp only
  split <;> simp
@[simp] theorem outline_evictOwner (d l : Nat) : (s.evictOwner d l).outline = s.outline := by
  unfold State.evictOwner
  split
  · rfl
  · split
    · rw [outline_dirPut, outline_prDel, outline_foldl _ (f := fun s c => s.l1Del c l) fun _ _ => rfl, outline_recallOwner]
    · rfl
@[simp] theorem outline_dropProxy (d l : Nat) : (s.dropProxy d l).outline = s.outline := by
  unfold State.dropProxy
  split <;> simp
@[simp] theorem outline_dropHostCopy (l : Nat) : (s.dropHostCopy l).outline = s.outline := by
  unfold State.dropHostCopy
  dsimp only
  split <;> simp
@[simp] theorem outline_l2Evict (d l : Nat) : (s.l2Evict d l).outline = s.outline := by simp [State.l2Evict]
@[simp] theorem outline_l2Use (d l : Nat) : (s.l2Use d l).outline = s.outline := by
  unfold State.l2Use
  dsimp only
  split
  · split
    · rw [outline_cxlFill, outline_l2Evict, outline_updDie]
    · rw [outline_cxlFill, outline_updDie]
  · split
    · rw [outline_l2Evict, outline_updDie]
    · rw [outline_updDie]
@[simp] theorem outline_l2Pass (d l : Nat) : (s.l2Pass d l).outline = s.outline := by simp [State.l2Pass]
@[simp] theorem outline_l2Trim (d l : Nat) : (s.l2Trim d l).outline = s.outline := by simp [State.l2Trim]

/-! ## Whole requests -/

@[simp] theorem outline_readRequest (o : Option Nat) (c l : Nat) (t : Tag) (v : BitVec 3) (u : Bool) (p : Nat) :
    (s.readRequest o c l t v u p).outline = s.outline := by
  unfold State.readRequest
  dsimp only
  rw [outline_l1Place]
  split
  · simp
  · split <;> simp
@[simp] theorem outline_l1Fetch (o : Option Nat) (c l : Nat) (t : Tag) (v : BitVec 3) (u : Bool) (p : Nat) :
    (s.l1Fetch o c l t v u p).outline = s.outline := by
  unfold State.l1Fetch
  split <;> simp
@[simp] theorem outline_l1Load (n l : Nat) (t : Tag) (v : BitVec 3) (u : Bool) (p : Nat) :
    (s.l1Load n l t v u p).outline = s.outline := by
  unfold State.l1Load
  dsimp only
  split <;> simp
@[simp] theorem outline_storeOut (o : Option Nat) (l1 : Bool) (d l : Nat) (t : Tag) (bs : List (Nat × Byte)) (offs : List Nat)
    (old new : Vec) : (s.storeOut o l1 d l t bs offs old new).outline = s.outline := by
  unfold State.storeOut
  dsimp only
  split
  · simp
  · split <;> simp
@[simp] theorem outline_storeLine (o c : Option Nat) (d l : Nat) (t : Tag) (bs : List (Nat × Byte)) :
    (s.storeLine o c d l t bs).outline = s.outline := by
  unfold State.storeLine
  dsimp only
  split <;> simp
theorem outline_behind {t : State} (w : Writer) (die : Option Nat) (l : Nat) (tag : Tag) (bs : List (Nat × Byte))
    (h : t.outline = s.outline) : (s.behind w die l tag bs t).outline = s.outline := by
  unfold State.behind
  split
  · rfl
  · exact h
@[simp] theorem outline_lineStoreBy (w : Writer) (d l : Nat) (t : Tag) (bs : List (Nat × Byte)) :
    (s.lineStoreBy w d l t bs).outline = s.outline := outline_behind s _ _ _ _ _ (outline_storeLine ..)
@[simp] theorem outline_lineStore (d l : Nat) (t : Tag) (bs : List (Nat × Byte)) : (s.lineStore d l t bs).outline = s.outline :=
  outline_lineStoreBy ..

/-! ## Translation -/

@[simp] theorem outline_tlbForget (p : Tlb → Bool) : (s.tlbForget p).outline = s.outline := by
  unfold State.tlbForget
  dsimp only
  split
  · rfl
  · exact (outline_tlb _ _).trans (outline_voidGates s _)
@[simp] theorem outline_shareDrop (r : PtShare) : (s.shareDrop r).outline = s.outline := by simp [State.shareDrop]
@[simp] theorem outline_shootdown (l : Nat) : (s.shootdown l).outline = s.outline := by
  unfold State.shootdown
  split <;> simp
@[simp] theorem outline_shareNote (d slice l : Nat) : (s.shareNote d slice l).outline = s.outline := by
  unfold State.shareNote
  dsimp only
  split
  all_goals
    split
    · rw [outline_updDie]
    · split
      · rw [outline_shareDrop, outline_updDie]
      · rw [outline_updDie]
@[simp] theorem outline_walkNote (d slice : Nat) (f : Leaf) : (s.walkNote d slice f).outline = s.outline := rfl
/-- A slice that has walked takes the entries it has read and the translation. -/
theorem outline_holdLeaf (d slice e : Nat) (f : Leaf) (ts : List Tlb) (ls : List Nat) :
    (ls.foldl (fun (s : State) x => s.shareNote d slice x) { s.walkNote d e f with tlb := ts }).outline = s.outline := by
  rw [outline_foldl _ (fun s x => outline_shareNote s d slice x), outline_tlb, outline_walkNote]
@[simp] theorem outline_translate (asid : BitVec 16) (va : VA) (a : Acc) : (s.translate asid va a).outline = s.outline := by
  unfold State.translate
  cases s.tlbFind asid va a with
  | some _ => rfl
  | none =>
    cases s.walk asid va a with
    | error _ => rfl
    | ok f =>
      show State.outline (if _ then _ else _) = _
      by_cases hm : s.markDown asid va a
      · rw [if_pos hm]
      · rw [if_neg hm]
        refine (outline_holdLeaf ..).trans ?_
        split
        · rfl
        · exact outline_lineStore ..
@[simp] theorem outline_translateFor (d : Nat) (asid : BitVec 16) (va : VA) (a : Acc) :
    (s.translateFor d asid va a).outline = s.outline := by simp [State.translateFor]

/-! ## A context's store -/

@[simp] theorem outline_ctxStore (n before l : Nat) (t : Tag) (bs : List (Nat × Byte)) :
    (s.ctxStore n before l t bs).outline = s.outline := outline_behind s _ _ _ _ _ (by simp)
@[simp] theorem outline_unitWrite (d key : Nat) (bs : List Byte) : (s.unitWrite d key bs).outline = s.outline := by
  simp [State.unitWrite]

end

end Sys2Proof.Machine
end

section
/-! PROOFS. What a context's loads and the release of its gate leave of the circular buffers and their bindings (R173, R313). -/

namespace Sys2Proof.Machine

/-! ## The sparse store without one entry -/

section
variable {α : Type} [DecidableEq α] (d : α)

omit [DecidableEq α] in
theorem filter_sdel (m : SMap α) (k : Nat) : (sdel k m).filter (fun e => e.1 != k) = m.filter fun e => e.1 != k := by
  rw [sdel_eq_filter, List.filter_filter]
  refine List.filter_congr fun e _ => ?_
  simp

omit [DecidableEq α] in
theorem filter_sins (m : SMap α) (k : Nat) (v : α) : (sins k v m).filter (fun e => e.1 != k) = m.filter fun e => e.1 != k := by
  induction m with
  | nil => simp [sins]
  | cons e t ih =>
    unfold sins
    split
    · simp
    · rw [List.filter_cons, List.filter_cons, ih]

/-- A write leaves the entries of every other index, as a list. -/
theorem filter_sput (m : SMap α) (k : Nat) (v : α) : (sput d m k v).filter (fun e => e.1 != k) = m.filter fun e => e.1 != k := by
  unfold sput
  split
  · exact filter_sdel m k
  · rw [filter_sins, filter_sdel]

omit [DecidableEq α] in
theorem any_sins (p : Nat × α → Bool) (m : SMap α) (k : Nat) (v : α) : (sins k v m).any p = (p (k, v) || m.any p) := by
  induction m with
  | nil => simp [sins]
  | cons e t ih =>
    unfold sins
    split
    · simp
    · rw [List.any_cons, ih, List.any_cons, Bool.or_left_comm]

/-- A test that the default fails: it holds of an entry after a write where it holds of the value written, or of another entry. -/
theorem any_sput (p : Nat × α → Bool) (m : SMap α) (k : Nat) (v : α) (hp : p (k, d) = false) :
    (sput d m k v).any p = (p (k, v) || (m.filter fun e => e.1 != k).any p) := by
  have hrest : sdel k m = m.filter fun e => e.1 != k := by
    rw [sdel_eq_filter]
    refine List.filter_congr fun e _ => ?_
    by_cases h : e.1 = k <;> simp [h]
  unfold sput
  split
  · next h => rw [h, hp, hrest, Bool.false_or]
  · rw [any_sins, hrest]

end

/-! ## What binding a handle looks at -/

/-- What binding a handle of context n looks at: the buffer tables, the commands, the context in issue, and the handles that contexts
have bound. -/
def State.bindView (s : State) (n : Nat) : SMap CBuf × List Cmd × Issue × SMap Nat × List (Nat × SMap Nat) :=
  (s.cbufs, s.cmds, s.issue, (s.ctx n).cb, (s.ctxs.filter fun e => e.1 != n).map fun e => (e.1, e.2.cb))

theorem bindView_outline (s : State) (n : Nat) : s.outline.bindView n = s.bindView n := by
  have hcb : (s.outline.ctx n).cb = (s.ctx n).cb :=
    sget_mapEntries Ctx.zero (fun e : Nat × Ctx => e.2.bare) s.ctxs n Ctx.cb fun _ => rfl
  have hothers : ((s.outline.ctxs.filter fun e => e.1 != n).map fun e => (e.1, e.2.cb)) =
      (s.ctxs.filter fun e => e.1 != n).map fun e => (e.1, e.2.cb) := by
    show ((s.ctxs.map fun e => (e.1, e.2.bare)).filter _).map _ = _
    rw [List.filter_map, List.map_map]
    rfl
  unfold State.bindView
  rw [hcb, hothers]
  rfl

theorem bindView_of_outline {s t : State} (n : Nat) (h : t.outline = s.outline) : t.bindView n = s.bindView n := by
  rw [← bindView_outline, h, bindView_outline]

theorem bindView_updCtx {s : State} {n : Nat} {f : Ctx → Ctx} (h : (f (s.ctx n)).cb = (s.ctx n).cb) :
    (s.updCtx n f).bindView n = s.bindView n := by
  unfold State.bindView
  rw [State.ctx_updCtx_self, h, State.updCtx_ctxs, filter_sput]
  rfl

theorem bindView_foldl {β : Type} {f : State → β → State} {n : Nat} (hf : ∀ s x, (f s x).bindView n = s.bindView n) (xs : List β)
    (s : State) : (xs.foldl f s).bindView n = s.bindView n := by
  induction xs generalizing s with
  | nil => rfl
  | cons x xs ih => rw [List.foldl_cons, ih, hf]

section
variable (s : State) (n : Nat)

theorem bindView_updQueue (q : Nat) (f : Queue → Queue) : (s.updQueue q f).bindView n = s.bindView n := rfl
theorem bindView_msiRaise (v : Nat) : (s.msiRaise v).bindView n = s.bindView n := rfl
theorem bindView_unitWrite (d key : Nat) (bs : List Byte) : (s.unitWrite d key bs).bindView n = s.bindView n :=
  bindView_of_outline n (outline_unitWrite ..)
theorem bindView_postError (d r : Nat) : (s.postError d r).bindView n = s.bindView n := by
  unfold State.postError
  dsimp only
  split
  · rw [bindView_msiRaise]
    exact bindView_of_outline n (by simp)
  · rfl
theorem bindView_ring (d q : Nat) (w : BitVec 32) : (s.ring d q w).bindView n = s.bindView n := by
  unfold State.ring
  dsimp only
  split
  · rfl
  · split
    · rw [bindView_postError, bindView_updQueue]
    · rw [bindView_unitWrite, bindView_updQueue]
theorem bindView_windowStore (d off : Nat) (bs : List Byte) : (s.windowStore d off bs).bindView n = s.bindView n := by
  unfold State.windowStore
  dsimp only
  split
  · exact bindView_ring ..
  · rfl
theorem bindView_spadWrite (o : Option Nat) (k : Nat) (bs : List (Nat × Byte)) : (s.spadWrite o k bs).bindView n = s.bindView n := by
  obtain ⟨cs, fs, h⟩ := spadWrite_eq s o k bs
  rw [h]
  refine (bindView_of_outline (s := s) n ?_ : State.bindView { s with
    ctxs := s.ctxs.map fun e => (e.1, { e.2 with conflict := fs e }), cores := cs } n = _)
  exact (outline_cores _ cs).trans (outline_markCtxs s (fun e => (e.1, { e.2 with conflict := fs e })) fun _ => ⟨rfl, rfl⟩)

/-- A store performs. -/
theorem bindView_perform (m : Nat) (g : GateEnt) : (s.perform m g).bindView n = s.bindView n := by
  unfold State.perform
  split
  · exact bindView_spadWrite ..
  · split
    · refine bindView_foldl (fun s bs => ?_) _ _
      split
      · rfl
      · exact bindView_windowStore ..
    · exact bindView_of_outline n (outline_ctxStore ..)
theorem bindView_performOut (g : GateEnt) : (s.performOut n g).bindView n = s.bindView n := by
  unfold State.performOut
  split
  · exact bindView_updCtx rfl
  · exact bindView_perform ..
theorem bindView_drainList (gs : List GateEnt) : (s.drainList n gs).bindView n = s.bindView n := by
  induction gs generalizing s with
  | nil => exact bindView_updCtx rfl
  | cons g gs ih =>
    unfold State.drainList
    split
    · rw [ih, bindView_performOut]
    · exact bindView_updCtx rfl
/-- The gate is released. -/
theorem bindView_releaseGate : (s.releaseGate n).bindView n = s.bindView n := by
  unfold State.releaseGate
  split
  · exact bindView_updCtx rfl
  · unfold State.drainOut
    dsimp only
    rw [bindView_drainList, bindView_updCtx rfl]
    refine bindView_foldl (fun s g => ?_) _ _
    split
    · rfl
    · exact bindView_of_outline n (outline_translateFor ..)
theorem bindView_noteRead (who : Option Nat) (cid l : Nat) (cached : Bool) : (s.noteRead who cid l cached).bindView n = s.bindView n := by
  unfold State.noteRead
  dsimp only
  show State.bindView (List.foldl _ s _) n = _
  exact bindView_foldl (fun s c => bindView_postError ..) _ _
/-- A load of the context. -/
theorem bindView_loadEffect (asid : BitVec 16) (va : VA) (len : Nat) (vc : Word64) :
    (s.loadEffect n asid va len vc).bindView n = s.bindView n := by
  have hwatch (t : State) (f : Ctx → Ctx) (hf : ∀ c, (f c).cb = c.cb) :
      (if (t.ctx n).gate.isEmpty then t else t.updCtx n f).bindView n = t.bindView n := by
    split
    · rfl
    · exact bindView_updCtx (hf _)
  unfold State.loadEffect
  dsimp only
  refine bindView_foldl (fun s g => ?_) _ _
  have htranslate := bindView_of_outline n (outline_translateFor s (dieOf n) asid g.1 .read)
  split
  · exact hwatch _ _ (by intro c; rfl)
  · split
    · split
      · exact htranslate
      · split
        · refine (hwatch _ _ (by intro c; rfl)).trans ?_
          rw [bindView_of_outline n (outline_l1Load ..), bindView_noteRead, htranslate]
        · rw [bindView_of_outline n (outline_l1Load ..), bindView_noteRead, htranslate]
    · exact htranslate

end

/-- The buffer tables after a handle's old binding is released depend on what binding looks at alone. -/
theorem unbind_cbufs {s t : State} {n : Nat} (h : t.bindView n = s.bindView n) (hd : CReg) :
    (t.unbind n hd).cbufs = (s.unbind n hd).cbufs := by
  obtain ⟨hcbufs, hcmds, -, hcb, hothers⟩ : t.cbufs = s.cbufs ∧ t.cmds = s.cmds ∧ t.issue = s.issue ∧ (t.ctx n).cb = (s.ctx n).cb ∧
      ((t.ctxs.filter fun e => e.1 != n).map fun e => (e.1, e.2.cb)) = (s.ctxs.filter fun e => e.1 != n).map fun e => (e.1, e.2.cb) := by
    simpa only [State.bindView, Prod.mk.injEq] using h
  let p (e : Nat) (c : Nat × SMap Nat) : Bool := clusterOf c.1 == clusterOf n && c.2.any fun h => h.2 == e % 64 + 1
  have hany (e : Nat) (u : State) : ((u.updCtx n fun c => { c with cb := sput 0 c.cb hd.toNat 0 }).ctxs.any fun c => p e (c.1, c.2.cb)) =
      (p e (n, sput 0 (u.ctx n).cb hd.toNat 0) || ((u.ctxs.filter fun e => e.1 != n).map fun e => (e.1, e.2.cb)).any (p e)) := by
    rw [State.updCtx_ctxs, any_sput Ctx.zero (fun c : Nat × Ctx => p e (c.1, c.2.cb)) _ _ _ (by simp [p, Ctx.zero]), List.any_map]
    rfl
  show (t.cbufs.filter fun e => e.1 / 64 != clusterOf n || (((t.updCtx n _).ctxs.any fun c => p e.1 (c.1, c.2.cb)) || t.cmds.any _)) =
    s.cbufs.filter fun e => e.1 / 64 != clusterOf n || (((s.updCtx n _).ctxs.any fun c => p e.1 (c.1, c.2.cb)) || s.cmds.any _)
  simp only [hany, hcbufs, hcmds, hcb, hothers]

end Sys2Proof.Machine
end

section
/-! PROOFS. Circular buffers: the pointers of a buffer, the instructions that wait on it and move them, and binding a handle
(R31, R32, R173 to R175). -/

namespace Sys2Proof.Machine

/-! ## Pointers -/

theorem pointersOk_iff (b : CBuf) :
    b.pointersOk = true ↔ b.wp ≤ b.slots ∧ b.rp ≤ b.slots ∧ b.filled ≤ b.n ∧ (b.rp + b.filled) % b.n = b.wp := by
  simp [CBuf.pointersOk, and_assoc]

theorem mod_n_le (b : CBuf) (x : Nat) : x % b.n ≤ b.slots := Nat.le_of_lt_succ (Nat.mod_lt x (Nat.succ_pos b.slots))

/-- An advance over free slots keeps the pointers consistent. -/
theorem advance_pointersOk {b : CBuf} {k : Nat} (h : b.pointersOk = true) (hk : k ≤ b.free) : (b.advance k).pointersOk = true := by
  obtain ⟨-, hrp, hfilled, hsum⟩ := (pointersOk_iff b).mp h
  have hroom : b.filled + k ≤ b.n := by
    unfold CBuf.free at hk
    omega
  refine (pointersOk_iff _).mpr ⟨mod_n_le b _, hrp, hroom, ?_⟩
  show (b.rp + (b.filled + k)) % b.n = (b.wp + k) % b.n
  rw [← hsum, Nat.mod_add_mod, Nat.add_assoc]

/-- A release of filled slots keeps them consistent. -/
theorem release_pointersOk {b : CBuf} {k : Nat} (h : b.pointersOk = true) (hk : k ≤ b.filled) : (b.release k).pointersOk = true := by
  obtain ⟨hwp, -, hfilled, hsum⟩ := (pointersOk_iff b).mp h
  refine (pointersOk_iff _).mpr ⟨hwp, mod_n_le b _, (Nat.sub_le _ _).trans hfilled, ?_⟩
  show ((b.rp + k) % b.n + (b.filled - k)) % b.n = b.wp
  rw [Nat.mod_add_mod, Nat.add_assoc, Nat.add_sub_cancel' hk, hsum]

/-! ## The instructions as their checks and effects -/

section
variable (d : SReg) (r : BitVec 5) (h : CReg) (q : QReg) (off n : BitVec 23) (vec : Bool) (s : State)

theorem exec_cbwait : exec (.cbwait d h n) s = s.resolve (checkCbwait h n s) fun s =>
    s.wS d (BitVec.ofNat 64 ((s.cbHere h).base + (s.cbHere h).rp * (s.cbHere h).size)) := rfl
theorem exec_cbspace : exec (.cbspace d h n) s = s.resolve (checkCbspace h n s) fun s =>
    s.wS d (BitVec.ofNat 64 ((s.cbHere h).base + (s.cbHere h).wp * (s.cbHere h).size)) := rfl
theorem exec_cbfree : exec (.cbfree h n) s = s.resolve (checkCbfree h n s) fun s =>
    (s.releaseGate s.cur).updCbuf (s.cbOf h) fun b => b.release n.toNat := rfl
theorem exec_cbadv : exec (.cbadv h n) s = s.resolve (checkCbadv h n s) fun s =>
    (s.releaseGate s.cur).updCbuf (s.cbOf h) fun b => b.advance n.toNat := rfl
theorem exec_cbpop : exec (.cbpop r h vec) s = execCbpop r h vec s := rfl
theorem exec_cbbind : exec (.cbbind h q off) s = execCbbind h q off s := rfl

end

/-! ## Checks of a bound handle -/

theorem Verdict.andThen_eq_ok {a b : Verdict} : a.andThen b = .ok ↔ a = .ok ∧ b = .ok := by
  cases a <;> simp [Verdict.andThen]

theorem require_eq_ok {b : Bool} {c : Nat} : require b c = .ok ↔ b = true := by cases b <;> simp [require]

@[simp] theorem blockFor_true : blockFor true = .ok := rfl
@[simp] theorem blockFor_false : blockFor false = .block := rfl
@[simp] theorem waitFor_true : waitFor true = .ok := rfl
@[simp] theorem waitFor_false : waitFor false = .stall := rfl
@[simp] theorem Verdict.block_andThen (v : Verdict) : Verdict.andThen .block v = .block := rfl

section
variable {s : State} {h : CReg} {e : Nat}

theorem cbOf_of_bound (hb : s.bound s.cur h = some e) : s.cbOf h = e := by simp [State.cbOf, hb]
theorem cbHere_of_bound (hb : s.bound s.cur h = some e) : s.cbHere h = s.cbuf e := by rw [State.cbHere, cbOf_of_bound hb]

/-- A bound handle passes checks 1 to 4 for a count within the slots, by its party. -/
theorem cbCheck_of_bound {n : Nat} {producer : Bool} (hb : s.bound s.cur h = some e) (h0 : n ≠ 0) (hn : n ≤ (s.cbuf e).n)
    (hp : (if producer then (s.cbuf e).prod else (s.cbuf e).cons) = partyOf s.cur) : s.cbCheck h n producer = .ok := by
  simp [State.cbCheck, hb, bne_iff_ne.mpr h0, hn, hp]

theorem cbCheck_of_unbound {n : Nat} {producer : Bool} (hb : s.bound s.cur h = none) : s.cbCheck h n producer = .trap 128 0 := by
  simp [State.cbCheck, hb]

end

/-! ## What the instructions do with a bound handle -/

section
variable {s : State} {d : SReg} {h : CReg} {n : BitVec 23} {e : Nat}
variable (hb : s.bound s.cur h = some e) (h0 : n.toNat ≠ 0) (hn : n.toNat ≤ (s.cbuf e).n)
include hb h0 hn

theorem exec_cbwait_bound (hc : (s.cbuf e).cons = partyOf s.cur) :
    (n.toNat ≤ (s.cbuf e).filled →
      exec (.cbwait d h n) s = .next (s.wS d (BitVec.ofNat 64 ((s.cbuf e).base + (s.cbuf e).rp * (s.cbuf e).size)))) ∧
    ((s.cbuf e).filled < n.toNat → exec (.cbwait d h n) s = .next s.blockHere) := by
  have hcheck : checkCbwait h n s = blockFor (decide (n.toNat ≤ (s.cbuf e).filled)) := by
    rw [checkCbwait, cbCheck_of_bound (producer := false) hb h0 hn hc, Verdict.ok_andThen, cbHere_of_bound hb]
  rw [exec_cbwait, hcheck]
  refine ⟨fun hk => ?_, fun hk => ?_⟩
  · rw [decide_eq_true hk, blockFor_true, resolve_ok, cbHere_of_bound hb]
  · rw [decide_eq_false (Nat.not_le.mpr hk)]
    rfl

theorem exec_cbspace_bound (hp : (s.cbuf e).prod = partyOf s.cur) :
    (n.toNat ≤ (s.cbuf e).free →
      exec (.cbspace d h n) s = .next (s.wS d (BitVec.ofNat 64 ((s.cbuf e).base + (s.cbuf e).wp * (s.cbuf e).size)))) ∧
    ((s.cbuf e).free < n.toNat → exec (.cbspace d h n) s = .next s.blockHere) := by
  have hcheck : checkCbspace h n s = blockFor (decide (n.toNat ≤ (s.cbuf e).free)) := by
    rw [checkCbspace, cbCheck_of_bound (producer := true) hb h0 hn hp, Verdict.ok_andThen, cbHere_of_bound hb]
  rw [exec_cbspace, hcheck]
  refine ⟨fun hk => ?_, fun hk => ?_⟩
  · rw [decide_eq_true hk, blockFor_true, resolve_ok, cbHere_of_bound hb]
  · rw [decide_eq_false (Nat.not_le.mpr hk)]
    rfl

theorem exec_cbfree_bound (hc : (s.cbuf e).cons = partyOf s.cur) :
    (n.toNat ≤ (s.cbuf e).filled → s.recheck s.cur = .ok →
      exec (.cbfree h n) s = .next ((s.releaseGate s.cur).updCbuf e fun b => b.release n.toNat)) ∧
    ((s.cbuf e).filled < n.toNat → s.settled s.cur = true → exec (.cbfree h n) s = .next (s.trapHere 131 0)) := by
  have hcheck : checkCbfree h n s = (require (decide (n.toNat ≤ (s.cbuf e).filled)) 131).andThen (s.recheck s.cur) := by
    rw [checkCbfree, cbCheck_of_bound (producer := false) hb h0 hn hc, Verdict.ok_andThen, cbHere_of_bound hb]
  rw [exec_cbfree, hcheck]
  refine ⟨fun hk hr => ?_, fun hk hset => ?_⟩
  · rw [decide_eq_true hk, hr, require_true, Verdict.ok_andThen, resolve_ok, cbOf_of_bound hb]
  · rw [decide_eq_false (Nat.not_le.mpr hk), require_false, Verdict.trap_andThen, resolve_trap _ _ _ _ hset]

theorem exec_cbadv_bound (hp : (s.cbuf e).prod = partyOf s.cur) :
    (n.toNat ≤ (s.cbuf e).free → s.recheck s.cur = .ok → (s.released s.cur).outSpad s.cur = false →
      exec (.cbadv h n) s = .next ((s.releaseGate s.cur).updCbuf e fun b => b.advance n.toNat)) ∧
    ((s.cbuf e).free < n.toNat → s.settled s.cur = true → exec (.cbadv h n) s = .next (s.trapHere 131 0)) := by
  have hcheck : checkCbadv h n s = (require (decide (n.toNat ≤ (s.cbuf e).free)) 131).andThen
      ((s.recheck s.cur).andThen (waitFor (!(s.released s.cur).outSpad s.cur))) := by
    rw [checkCbadv, cbCheck_of_bound (producer := true) hb h0 hn hp, Verdict.ok_andThen, cbHere_of_bound hb]
  rw [exec_cbadv, hcheck]
  refine ⟨fun hk hr ho => ?_, fun hk hset => ?_⟩
  · rw [decide_eq_true hk, hr, ho, require_true, Verdict.ok_andThen, Verdict.ok_andThen, Bool.not_false, waitFor_true, resolve_ok,
      cbOf_of_bound hb]
  · rw [decide_eq_false (Nat.not_le.mpr hk), require_false, Verdict.trap_andThen, resolve_trap _ _ _ _ hset]

end

theorem checkCbpop_of_bound {s : State} {h : CReg} {e : Nat} (hb : s.bound s.cur h = some e) (hs : (s.cbuf e).stream = true)
    (hc : (s.cbuf e).cons = partyOf s.cur) (hf : (s.cbuf e).filled ≠ 0) (hr : s.recheck s.cur = .ok)
    (ho : (s.released s.cur).outLocal s.cur = false) : checkCbpop h s = .ok := by
  simp [checkCbpop, hb, hs, hc, bne_iff_ne.mpr hf, hr, ho]

/-- A pop reads the oldest slot behind the context's earlier stores, and releases it. -/
theorem exec_cbpop_of_ok {s : State} {r : BitVec 5} {h : CReg} {e : Nat} (vec : Bool) (hb : s.bound s.cur h = some e)
    (hok : checkCbpop h s = .ok) :
    let u := s.releaseGate s.cur
    let t := u.updCbuf e fun b => b.release 1
    let bs (m : Nat) : List Byte := u.cbBytes e (u.cbuf e).rp 0 m
    exec (.cbpop r h vec) s = .next (if vec then t.wV r (lineOf (bs 128)) else t.wS r (BitVec.ofNat 64 (leNat (bs 8)))) := by
  rw [exec_cbpop, execCbpop, hok, resolve_ok, cbOf_of_bound hb]
  cases vec <;> simp only [if_true, if_false, Bool.false_eq_true]

/-- An unbound handle traps. -/
theorem exec_unbound {s : State} {d : SReg} {r : BitVec 5} {h : CReg} {n : BitVec 23} {vec : Bool} (hb : s.bound s.cur h = none)
    (hset : s.settled s.cur = true) :
    exec (.cbwait d h n) s = .next (s.trapHere 128 0) ∧ exec (.cbspace d h n) s = .next (s.trapHere 128 0) ∧
    exec (.cbfree h n) s = .next (s.trapHere 128 0) ∧ exec (.cbadv h n) s = .next (s.trapHere 128 0) ∧
    exec (.cbpop r h vec) s = .next (s.trapHere 128 0) := by
  have hcheck (producer : Bool) (v : Verdict) : (s.cbCheck h n.toNat producer).andThen v = .trap 128 0 := by
    rw [cbCheck_of_unbound hb, Verdict.trap_andThen]
  have hpop : checkCbpop h s = .trap 128 0 := by simp [checkCbpop, hb]
  rw [exec_cbwait, exec_cbspace, exec_cbfree, exec_cbadv, exec_cbpop, checkCbwait, checkCbspace, checkCbfree, checkCbadv, execCbpop,
    hpop]
  simp only [hcheck, resolve_trap _ _ _ _ hset, and_self]

/-! ## Binding -/

theorem bit_eq_testBit (x i : Nat) : bit x i = x.testBit i := by
  rw [Nat.testBit_eq_decide_div_mod_eq, bit, Bool.beq_eq_decide_eq]

theorem bound_eq (s : State) (n : Nat) (h : CReg) : s.bound n h =
    if sget 0 (s.ctx n).cb h.toNat = 0 then none else some (clusterOf n * 64 + (sget 0 (s.ctx n).cb h.toNat - 1)) := by
  unfold State.bound
  split
  · next hz => rw [if_pos hz]
  · next k hk => rw [if_neg (by omega), hk]; rfl

/-- The entry that a new binding takes, by its number within the cluster. -/
theorem bound_upd (s : State) (h : CReg) (e : Nat) :
    (s.upd fun c => { c with cb := sput 0 c.cb h.toNat (e % 64 + 1) }).bound s.cur h = some (clusterOf s.cur * 64 + e % 64) := by
  rw [bound_eq]
  show (if sget 0 (State.cx (s.upd _)).cb h.toNat = 0 then _ else some (_ + (sget 0 (State.cx (s.upd _)).cb h.toNat - 1))) = _
  rw [State.cx_upd, sget_sput_self]
  rfl

theorem bound_unbind (s : State) (n : Nat) (h : CReg) : (s.unbind n h).bound n h = none := by
  have hctx : ((s.unbind n h).ctx n).cb = sput 0 (s.ctx n).cb h.toNat 0 := by
    show (State.ctx (s.updCtx n fun c => { c with cb := sput 0 c.cb h.toNat 0 }) n).cb = _
    rw [State.ctx_updCtx_self]
  rw [bound_eq, hctx, sget_sput_self]
  rfl

theorem freeEntry_eq_some {s : State} {k e : Nat} (h : s.freeEntry k = some e) : k * 64 + e % 64 = e := by
  obtain ⟨i, hi, rfl⟩ := List.mem_map.mp (List.mem_of_find?_eq_some h)
  have := List.mem_range.mp hi
  omega

/-- What passing the checks of a bind says of the buffer table for a descriptor that is valid. -/
theorem checkCbbind_freeEntry {h : CReg} {q : QReg} {off : BitVec 23} {s : State} (hok : checkCbbind h q off s = .ok)
    (hv : bit (s.cbDesc q off) 74 = true)
    (hnone : (s.unbind s.cur h).entryAt (clusterOf s.cur) (cbufOfDesc (s.cbDesc q off)).base = none) :
    ((s.unbind s.cur h).freeEntry (clusterOf s.cur)).isSome = true := by
  unfold checkCbbind at hok
  dsimp only at hok
  obtain ⟨-, hok⟩ := Verdict.andThen_eq_ok.mp hok
  obtain ⟨hok, -⟩ := Verdict.andThen_eq_ok.mp hok
  rw [hv, hnone] at hok
  obtain ⟨-, hok⟩ := Verdict.andThen_eq_ok.mp hok
  obtain ⟨-, hok⟩ := Verdict.andThen_eq_ok.mp hok
  obtain ⟨-, hok⟩ := Verdict.andThen_eq_ok.mp hok
  exact require_eq_ok.mp hok

/-- The state in which a bind looks for an entry: its descriptor read, the gate released, the old binding released. -/
def State.rebinding (s : State) (h : CReg) (q : QReg) (off : BitVec 23) : State :=
  ((s.loadDone (qoff (s.rQ q) off.toInt) 16 0).releaseGate s.cur).unbind s.cur h

theorem rebinding_cbufs (s : State) (h : CReg) (q : QReg) (off : BitVec 23) : (s.rebinding h q off).cbufs = (s.unbind s.cur h).cbufs :=
  unbind_cbufs ((bindView_releaseGate ..).trans (bindView_loadEffect ..)) h

theorem rebinding_cur (s : State) (h : CReg) (q : QReg) (off : BitVec 23) : (s.rebinding h q off).cur = s.cur := by
  have hview := (bindView_releaseGate (s.loadDone (qoff (s.rQ q) off.toInt) 16 0) s.cur).trans (bindView_loadEffect s s.cur ..)
  exact congrArg (fun v => v.2.2.1.ctx) hview

section
variable {h : CReg} {q : QReg} {off : BitVec 23} {s : State} {e : Nat} (hok : checkCbbind h q off s = .ok)
include hok

theorem exec_cbbind_invalid (hv : bit (s.cbDesc q off) 74 = false) : exec (.cbbind h q off) s = .next (s.rebinding h q off) := by
  rw [exec_cbbind, execCbbind, hok, resolve_ok]
  simp only [hv, Bool.not_false, if_true]
  rfl

theorem exec_cbbind_entry (hv : bit (s.cbDesc q off) 74 = true)
    (he : (s.rebinding h q off).entryAt (clusterOf s.cur) (cbufOfDesc (s.cbDesc q off)).base = some e) :
    exec (.cbbind h q off) s = .next ((s.rebinding h q off).upd fun c => { c with cb := sput 0 c.cb h.toNat (e % 64 + 1) }) := by
  unfold State.rebinding at he
  rw [exec_cbbind, execCbbind, hok, resolve_ok]
  simp only [hv, he, Bool.not_true, Bool.false_eq_true, if_false]
  rfl

theorem exec_cbbind_new (hv : bit (s.cbDesc q off) 74 = true)
    (hn : (s.rebinding h q off).entryAt (clusterOf s.cur) (cbufOfDesc (s.cbDesc q off)).base = none)
    (he : (s.rebinding h q off).freeEntry (clusterOf s.cur) = some e) :
    exec (.cbbind h q off) s = .next (((s.rebinding h q off).updCbuf e fun _ => cbufOfDesc (s.cbDesc q off)).upd fun c =>
      { c with cb := sput 0 c.cb h.toNat (e % 64 + 1) }) := by
  unfold State.rebinding at hn he
  rw [exec_cbbind, execCbbind, hok, resolve_ok]
  simp only [hv, hn, he, Bool.not_true, Bool.false_eq_true, if_false]
  rfl

/-- A bind that passes its checks leaves the handle bound to the entry of the descriptor's base, to a new one, or to none. -/
theorem exec_cbbind_of_ok : ∃ t, exec (.cbbind h q off) s = .next t ∧
    (bit (s.cbDesc q off) 74 = false → t.bound s.cur h = none) ∧
    (bit (s.cbDesc q off) 74 = true → ∃ e, t.bound s.cur h = some e ∧
      ((s.unbind s.cur h).entryAt (clusterOf s.cur) (cbufOfDesc (s.cbDesc q off)).base = none →
        t.cbuf e = cbufOfDesc (s.cbDesc q off))) := by
  have hentry (k b : Nat) : (s.rebinding h q off).entryAt k b = (s.unbind s.cur h).entryAt k b := by
    simp only [State.entryAt, rebinding_cbufs]
  have hfree (k : Nat) : (s.rebinding h q off).freeEntry k = (s.unbind s.cur h).freeEntry k := by
    simp only [State.freeEntry, State.cbuf, rebinding_cbufs]
  have hcur := rebinding_cur s h q off
  cases hv : bit (s.cbDesc q off) 74 with
  | false => exact ⟨_, exec_cbbind_invalid hok hv, fun _ => bound_unbind _ _ _, fun hf => absurd hf Bool.false_ne_true⟩
  | true =>
    cases hat : (s.unbind s.cur h).entryAt (clusterOf s.cur) (cbufOfDesc (s.cbDesc q off)).base with
    | some e =>
      have hbound := bound_upd (s.rebinding h q off) h e
      rw [hcur] at hbound
      exact ⟨_, exec_cbbind_entry hok hv ((hentry ..).trans hat), fun hf => absurd hf.symm Bool.false_ne_true,
        fun _ => ⟨_, hbound, fun hn => absurd hn (Option.some_ne_none e)⟩⟩
    | none =>
      obtain ⟨e, he⟩ := Option.isSome_iff_exists.mp (checkCbbind_freeEntry hok hv hat)
      have hbound := bound_upd ((s.rebinding h q off).updCbuf e fun _ => cbufOfDesc (s.cbDesc q off)) h e
      rw [State.updCbuf_cur, hcur, freeEntry_eq_some he] at hbound
      exact ⟨_, exec_cbbind_new hok hv ((hentry ..).trans hat) ((hfree _).trans he), fun hf => absurd hf.symm Bool.false_ne_true,
        fun _ => ⟨e, hbound, fun _ => State.cbuf_updCbuf_self (s.rebinding h q off) e fun _ => cbufOfDesc (s.cbDesc q off)⟩⟩

end

/-- Settles O39: the laws of the pointers, then each instruction by its checks. -/
theorem circularBufferInstructions : Obligations.CircularBufferInstructions := by
  refine ⟨fun b k h => ⟨fun hk => ⟨advance_pointersOk h hk, rfl, rfl⟩, fun hk => ⟨release_pointersOk h hk, rfl, rfl⟩⟩,
    fun s d r h n q off vec e => ?_⟩
  intro b k
  refine ⟨fun hb h0 hn => ⟨fun hc => ?_, fun hp => ?_⟩, fun hb hs hc hf hr ho => ?_, fun hb hset => exec_unbound hb hset, fun hok => ?_⟩
  · exact ⟨(exec_cbwait_bound hb h0 hn hc).1, (exec_cbwait_bound hb h0 hn hc).2, (exec_cbfree_bound hb h0 hn hc).1,
      (exec_cbfree_bound hb h0 hn hc).2⟩
  · exact ⟨(exec_cbspace_bound hb h0 hn hp).1, (exec_cbspace_bound hb h0 hn hp).2, (exec_cbadv_bound hb h0 hn hp).1,
      (exec_cbadv_bound hb h0 hn hp).2⟩
  · exact exec_cbpop_of_ok vec hb (checkCbpop_of_bound hb hs hc hf hr ho)
  · simpa only [bit_eq_testBit] using exec_cbbind_of_ok hok

end Sys2Proof.Machine
end

section
/-! PROOFS. Bytes at consecutive offsets of a cluster without skewed tiles, written and read back, and the barriers, which are kept
there (R35, R36, R176). -/

namespace Sys2Proof.Machine

/-- Consecutive bytes written one after another are a string written. -/
theorem foldl_offsetBytes (key : Nat → Nat) (bs : List Byte) (m : List Host.Cell) {o a : Nat}
    (h : ∀ i, i < bs.length → key (o + i) = a + i) :
    (offsetBytes o bs).foldl (fun (m : List Host.Cell) (b : Nat × Byte) => wrByte m (key b.1) b.2) m = wrBytes m a bs := by
  suffices hgen : ∀ (bs : List Byte) (j : Nat) (m : List Host.Cell), (∀ i, i < bs.length → key (o + (j + i)) = a + j + i) →
      ((bs.zipIdx j).map fun b => (o + b.2, b.1)).foldl (fun (m : List Host.Cell) (b : Nat × Byte) => wrByte m (key b.1) b.2) m =
        wrBytes m (a + j) bs from hgen bs 0 m fun i hi => by rw [Nat.zero_add, Nat.add_zero]; exact h i hi
  intro bs
  induction bs with
  | nil => intros; rfl
  | cons b t ih =>
    intro j m hk
    have hfirst := hk 0 (Nat.succ_pos _)
    rw [List.zipIdx_cons, List.map_cons, List.foldl_cons, ih (j + 1) _ fun i hi => by
      have := hk (i + 1) (by simpa using hi)
      rw [show j + 1 + i = j + (i + 1) by omega, this]; omega]
    dsimp only
    rw [show o + j = o + (j + 0) from rfl, hfirst]
    rfl

/-- The number of two strings, one above the other. -/
theorem leNat_append (xs ys : List Byte) : leNat (xs ++ ys) = leNat xs + 256 ^ xs.length * leNat ys := by
  induction xs with
  | nil => simp [leNat]
  | cons x xs ih =>
    simp only [List.cons_append, leNat, ih, List.length_cons, Nat.pow_succ']
    ring

theorem leNat_lt (bs : List Byte) : leNat bs < 256 ^ bs.length := by
  induction bs with
  | nil => exact Nat.one_pos
  | cons b bs ih =>
    have hb : b.toNat < 256 := b.isLt
    simp only [leNat, List.length_cons, Nat.pow_succ']
    omega

@[simp] theorem length_spadBytes (s : State) (k off n : Nat) : (s.spadBytes k off n).length = n := by simp [State.spadBytes]

theorem spadBytes_add (s : State) (k off n m : Nat) : s.spadBytes k off (n + m) = s.spadBytes k off n ++ s.spadBytes k (off + n) m := by
  simp [State.spadBytes, List.range_add, Nat.add_assoc]

section
variable {s : State} {k : Nat} (o : Option Nat) {off : Nat} {bs : List Byte}

/-- The scratchpad after consecutive bytes written to a cluster without skewed tiles. -/
theorem spadWrite_offsetBytes_spad (hsk : sget [] s.skews k = []) (hlen : off + bs.length ≤ 2 ^ 22) :
    (s.spadWrite o k (offsetBytes off bs)).spad = wrBytes s.spad (k * 2 ^ 22 + off) bs := by
  rw [spadWrite_spad, foldl_offsetBytes (s.spadKey k) bs s.spad (o := off) (a := k * 2 ^ 22 + off)]
  intro i hi
  rw [spadKey_of_noSkew s (off + i) hsk, Nat.mod_eq_of_lt (by omega), Nat.add_assoc]

/-- The bytes written are read back. -/
theorem spadBytes_spadWrite_offsetBytes (hsk : sget [] s.skews k = []) (hlen : off + bs.length ≤ 2 ^ 22) :
    (s.spadWrite o k (offsetBytes off bs)).spadBytes k off bs.length = bs := by
  refine List.ext_getElem (by simp [State.spadBytes]) fun i _ hi => ?_
  have hkey : (s.spadWrite o k (offsetBytes off bs)).spadKey k (off + i) = k * 2 ^ 22 + off + i := by
    rw [spadKey_of_noSkew _ (off + i) ((spadWrite_skews ..).symm ▸ hsk), Nat.mod_eq_of_lt (by omega), Nat.add_assoc]
  simp only [State.spadBytes, List.getElem_map, List.getElem_range]
  rw [State.spadByte, hkey, spadWrite_offsetBytes_spad o hsk hlen, rdByte_wrBytes_in bs s.spad (k * 2 ^ 22 + off) i hi]

end

/-! ## The barrier object -/

/-- A 32-bit signed number is the value of its low 32 bits, whatever stands above them. -/
theorem sx_of_mod {x : Nat} {i : Int} (hx : x % 2 ^ 32 = wrap 32 i) (hlo : -(2 ^ 31) ≤ i) (hhi : i < 2 ^ 31) : sx 32 x = i := by
  have hbit : bit x (32 - 1) = decide (2 ^ 31 ≤ wrap 32 i) := by
    rw [← hx, bit, beq_eq_decide]
    exact decide_eq_decide.mpr (by omega)
  unfold sx
  rw [hbit, hx]
  unfold wrap
  split <;> rename_i h <;> simp only [decide_eq_true_eq] at h <;> omega

/-- The fields of a barrier's word (R35). -/
theorem barrier_word {c p : Nat} (e : Bool) (hc : c < 2 ^ 32) (hp : p < 2 ^ 16) :
    (c + 2 ^ 32 * p + 2 ^ 48 * boolN e) % 2 ^ 32 = c ∧ bits (c + 2 ^ 32 * p + 2 ^ 48 * boolN e) 47 32 = p ∧
      bit (c + 2 ^ 32 * p + 2 ^ 48 * boolN e) 48 = e ∧ c + 2 ^ 32 * p + 2 ^ 48 * boolN e < 2 ^ 49 := by
  have he : boolN e ≤ 1 := by cases e <;> decide
  refine ⟨by omega, ?_, ?_, by omega⟩
  · unfold bits
    omega
  · have hdiv : (c + 2 ^ 32 * p + 2 ^ 48 * boolN e) / 2 ^ 48 = boolN e := by omega
    rw [bit, hdiv]
    cases e <;> rfl

theorem wrap_lt (i : Int) : wrap 32 i < 2 ^ 32 := by
  unfold wrap
  omega

/-- A barrier written where no tile is skewed is read back. -/
theorem barrier_putBarrier {s : State} {k off : Nat} {b : Barrier} (o : Option Nat) (hsk : sget [] s.skews k = [])
    (hoff : off + 16 ≤ 2 ^ 22) (hr : b.inRange = true) (hp : b.phase < 65536) : (s.putBarrier o k off b).barrier k off = b := by
  obtain ⟨c, p, e⟩ := b
  obtain ⟨hcount, hphase, hexp, hword⟩ := barrier_word e (wrap_lt c) hp
  simp only [Barrier.inRange, Bool.and_eq_true, decide_eq_true_eq] at hr
  have hlen := length_toLE 16 (wrap 32 c + 2 ^ 32 * p + 2 ^ 48 * boolN e)
  have hread := spadBytes_spadWrite_offsetBytes (bs := toLE 16 (wrap 32 c + 2 ^ 32 * p + 2 ^ 48 * boolN e)) o hsk (by rw [hlen]; exact hoff)
  rw [hlen] at hread
  unfold State.putBarrier State.barrier
  dsimp only at hcount hphase hexp hword ⊢
  rw [hread, leNat_toLE, Nat.mod_eq_of_lt (hword.trans (by norm_num)), sx_of_mod hcount hr.1 hr.2, hphase, hexp]

/-- The completion check changes a barrier only at an expected count of zero. -/
theorem settle_complete {b : Barrier} (he : b.exp = true) (hc : b.count = 0) : b.settle = ⟨0, (b.phase + 1) % 65536, false⟩ := by
  rw [Barrier.settle, he, hc]
  rfl

theorem settle_waiting {b : Barrier} (h : b.exp = false ∨ b.count ≠ 0) : b.settle = b := by
  refine if_neg ?_
  simp only [Bool.and_eq_true, beq_iff_eq, not_and]
  intro he
  exact h.resolve_left (by simp [he])

/-! ## The instructions -/


theorem exec_barv (a b : SReg) (s : State) : exec (.barv a b) s = execBarv a b s := rfl
theorem exec_barx (d a b : SReg) (s : State) : exec (.barx d a b) s = execBarx d a b s := rfl
theorem exec_barw (a b : SReg) (s : State) : exec (.barw a b) s = execBarw a b s := rfl

theorem spadVA_toNat (n off : Nat) :
    (spadVA n off).toNat = dieOf n % 2 ^ 4 * 2 ^ 68 + (2 ^ 46 - 1) * 2 ^ 22 + off % 2 ^ 22 := by
  unfold spadVA
  rw [BitVec.toNat_append, BitVec.toNat_append, ← Nat.shiftLeft_add_eq_or_of_lt (BitVec.isLt _), Nat.shiftLeft_eq,
    ← Nat.shiftLeft_add_eq_or_of_lt (BitVec.isLt _), Nat.shiftLeft_eq, BitVec.toNat_ofNat, BitVec.toNat_ofNat,
    show (~~~(0 : BitVec 46)).toNat = 2 ^ 46 - 1 from rfl]
  omega

theorem spadVA_isSpad (n off : Nat) : isSpad (spadVA n off) = true := by
  rw [spad_toNat, spadVA_toNat]
  omega

theorem spadOff_spadVA (n : Nat) {off : Nat} (h : off < 2 ^ 22) : spadOff (spadVA n off) = off := by
  rw [spadOff_toNat, spadVA_toNat]
  omega

section
variable {s : State} {a b d : SReg} (hal : (s.rS a).toNat % 16 = 0) (hlt : (s.rS a).toNat < 2 ^ 22)
include hal hlt

theorem barOffOk_of_aligned : barOffOk (s.rS a) = true := by
  rw [barOffOk, hal, Bool.and_eq_true]
  exact ⟨rfl, decide_eq_true hlt⟩

/-- barv counts the arrivals at the bank. -/
theorem exec_barv_of_inRange (hm : (s.rS b).toNat < 2 ^ 31) (hbank : s.bankReady = .ok)
    (hr : (((s.releaseGate s.cur).barrier (clusterOf s.cur) (s.rS a).toNat).arrive (s.rS b).toNat).inRange = true) :
    exec (.barv a b) s = .next ((s.releaseGate s.cur).putBarrier (some s.cur) (clusterOf s.cur) (s.rS a).toNat
      (((s.releaseGate s.cur).barrier (clusterOf s.cur) (s.rS a).toNat).arrive (s.rS b).toNat).settle) := by
  have hcheck : checkBarv a b s = .ok := by
    rw [checkBarv, barOffOk_of_aligned hal hlt, decide_eq_true hm, hbank]
    rfl
  rw [exec_barv, execBarv, hcheck, resolve_ok]
  dsimp only
  rw [if_pos hr]

/-- barx counts the expected arrivals and gives the phase that stood before. -/
theorem exec_barx_of_inRange (h1 : 1 ≤ (s.rS b).toNat) (hm : (s.rS b).toNat < 2 ^ 31) (hbank : s.bankReady = .ok)
    (hr : (((s.releaseGate s.cur).barrier (clusterOf s.cur) (s.rS a).toNat).expect (s.rS b).toNat).inRange = true) :
    exec (.barx d a b) s = .next (((s.releaseGate s.cur).putBarrier (some s.cur) (clusterOf s.cur) (s.rS a).toNat
      (((s.releaseGate s.cur).barrier (clusterOf s.cur) (s.rS a).toNat).expect (s.rS b).toNat).settle).wS d
        (BitVec.ofNat 64 ((s.releaseGate s.cur).barrier (clusterOf s.cur) (s.rS a).toNat).phase)) := by
  have hcheck : checkBarx a b s = .ok := by
    rw [checkBarx, barOffOk_of_aligned hal hlt, decide_eq_true h1, decide_eq_true hm, hbank, State.barrierFor, hr]
    rfl
  rw [exec_barx, execBarx, hcheck, resolve_ok]

/-- What is left of barw's checks once the context's die-local stores have performed. -/
theorem checkBarw_of_landed (hl : s.outLocal s.cur = false) :
    checkBarw a b s = blockFor (s.phaseFor (s.rS a).toNat != fld (s.rS b) 0 16) := by
  rw [checkBarw, barOffOk_of_aligned hal hlt, hl]
  rfl

/-- barw goes on where the phase differs from the one it names. -/
theorem exec_barw_of_ne (hl : s.outLocal s.cur = false) (hp : s.phaseFor (s.rS a).toNat ≠ (s.rS b).toNat % 65536) :
    exec (.barw a b) s = .next (s.loadDone (spadVA s.cur ((s.rS a).toNat + 4)) 2 0) := by
  rw [exec_barw, execBarw, checkBarw_of_landed hal hlt hl, fld_zero, show (_ != (s.rS b).toNat % 2 ^ 16) = true from bne_iff_ne.mpr hp]
  rfl

theorem exec_barw_of_eq (hl : s.outLocal s.cur = false) (hp : s.phaseFor (s.rS a).toNat = (s.rS b).toNat % 65536) :
    exec (.barw a b) s = .next s.blockHere := by
  rw [exec_barw, execBarw, checkBarw_of_landed hal hlt hl, fld_zero, show (_ != (s.rS b).toNat % 2 ^ 16) = false from bne_eq_false_iff_eq.mpr hp]
  rfl

end

/-- With no gated store barw reads the phase that stands in the scratchpad and watches nothing. -/
theorem phaseFor_of_empty {s : State} {o : Nat} (hlt : o + 16 ≤ 2 ^ 22) (hg : s.cx.gate = []) :
    s.phaseFor o = (s.barrier (clusterOf s.cur) o).phase ∧ s.loadDone (spadVA s.cur (o + 4)) 2 0 = s := by
  have hspad := spadVA_isSpad s.cur (o + 4)
  have hoff := spadOff_spadVA s.cur (off := o + 4) (by omega)
  refine ⟨?_, loadEffect_spad_of_empty s _ 0 hspad (by omega) hg⟩
  have hsplit : s.spadBytes (clusterOf s.cur) o 16 = s.spadBytes (clusterOf s.cur) o 4 ++
      (s.spadBytes (clusterOf s.cur) (o + 4) 2 ++ s.spadBytes (clusterOf s.cur) (o + 4 + 2) 10) := by
    rw [← spadBytes_add, ← spadBytes_add]
  have hread : s.phaseFor o = leNat (s.spadBytes (clusterOf s.cur) (o + 4) 2) :=
    congrArg leNat (List.map_congr_left fun i _ => spadFor_of_empty s _ hg)
  have hlow := leNat_lt (s.spadBytes (clusterOf s.cur) o 4)
  have hmid := leNat_lt (s.spadBytes (clusterOf s.cur) (o + 4) 2)
  rw [length_spadBytes] at hlow hmid
  show _ = bits (leNat (s.spadBytes (clusterOf s.cur) o 16)) 47 32
  rw [hread, hsplit, leNat_append, leNat_append, length_spadBytes, length_spadBytes, bits]
  omega

/-- Settles O40: the round trip of the object, and each instruction by its checks. -/
theorem barrierInstructions : Obligations.BarrierInstructions := by
  refine ⟨fun s d a b hal hlt => ?_, fun s o k off b hsk hal hlt hr hp => barrier_putBarrier o hsk (by omega) hr hp,
    fun b => ⟨settle_complete, settle_waiting⟩⟩
  intro o k u x m
  exact ⟨exec_barv_of_inRange hal hlt, exec_barx_of_inRange hal hlt, fun hl => ⟨exec_barw_of_ne hal hlt hl, exec_barw_of_eq hal hlt hl⟩,
    phaseFor_of_empty (by omega)⟩

end Sys2Proof.Machine
end

section
/-! PROOFS. Commands that fire and retire (R33, R217, R223), and what tzero does. -/

namespace Sys2Proof.Machine

variable {s : State} {id : Nat} {c : Cmd}

/-- The command of a number is that number's. -/
theorem cmd_id (h : s.cmd id = some c) : c.id = id := by
  simpa using List.find?_some h

theorem exec_commandFire_of_none (h : s.cmd id = none) : exec (.commandFire id) s = .next s := by
  rw [show exec (.commandFire id) s = execCommandFire id s from rfl, execCommandFire, h]

theorem exec_commandFire_of_some (h : s.cmd id = some c) :
    exec (.commandFire id) s = .next (if s.mayFire c then (s.bump 12 c.ctx 1).fire c else s) := by
  rw [show exec (.commandFire id) s = execCommandFire id s from rfl, execCommandFire, h]

theorem exec_commandRetire_of_none (h : s.cmd id = none) : exec (.commandRetire id) s = .next s := by
  rw [show exec (.commandRetire id) s = execCommandRetire id s from rfl, execCommandRetire, h]

theorem exec_commandRetire_of_some (h : s.cmd id = some c) :
    exec (.commandRetire id) s = .next (if s.mayRetire c then s.retireCmd c else s) := by
  rw [show exec (.commandRetire id) s = execCommandRetire id s from rfl, execCommandRetire, h]

/-- A retirement may change contexts' registers and buffers, and takes its command from the queue. -/
theorem retireCmd_eq (s : State) (c : Cmd) : ∃ cs bs, s.retireCmd c = { s with
    ctxs := cs, cbufs := bs, cmds := s.cmds.filter (·.id != c.id) } := by
  have hrel (u : State) : ∃ bs, u.releaseUnfilled c = { u with cbufs := bs } := by
    unfold State.releaseUnfilled
    split
    · exact ⟨_, rfl⟩
    · exact ⟨u.cbufs, rfl⟩
  unfold State.retireCmd
  split
  · exact ⟨s.ctxs, _, rfl⟩
  · obtain ⟨bs, hbs⟩ := hrel (s.lateRegs c.ctx c.result)
    rw [hbs]
    exact ⟨_, _, rfl⟩

theorem cmd_dropCmd_self (s : State) (id : Nat) : (s.cmds.filter (·.id != id)).find? (·.id == id) = none :=
  List.find?_eq_none.mpr fun x hx => by simpa using (List.mem_filter.mp hx).2

theorem cmd_dropCmd_ne (s : State) {id j : Nat} (h : j ≠ id) : (s.cmds.filter (·.id != id)).find? (·.id == j) = s.cmd j := by
  rw [List.find?_filter, State.cmd]
  congr 1
  funext x
  by_cases hx : x.id = j
  · simp [hx, h]
  · simp [hx]

/-- The units of a cluster run their commands by State.fireCluster. -/
theorem fire_cluster (h : Instr.unit c.ins = .score ∨ Instr.unit c.ins = .value ∨ Instr.unit c.ins = .tile ∨ Instr.unit c.ins = .copy) :
    s.fire c = s.fireCluster c := by
  unfold State.fire
  obtain h | h | h | h := h <;> rw [h]

/-- A command's beginning: its output slots reserved, and the command marked as begun. -/
theorem begin_eq (s : State) (c : Cmd) : ∃ bs cs st, s.begin_ c = ({ s with cbufs := bs, cmds := cs }, { c with started := st }) := by
  unfold State.begin_
  split
  · exact ⟨s.cbufs, s.cmds, c.started, rfl⟩
  · unfold State.reserve
    dsimp only
    split
    · exact ⟨_, _, _, rfl⟩
    · exact ⟨s.cbufs, _, _, rfl⟩

/-- A command of a cluster, no attn, that runs to its end without a fault stands fired in what its run leaves. -/
theorem fireCluster_of_runs {u : State} {p : Nat} (hattn : ∀ t a b k slot x, c.ins ≠ .attn t a b k slot x)
    (hrun : runCmd (s.begin_ c).2 (s.begin_ c).1 = (u, p, none)) :
    s.fireCluster c = u.setCmd { (s.begin_ c).2 with st := .fired, prog := p, ranges := [] } := by
  have hbad : s.countBad c = false := by
    unfold State.countBad
    split
    · exact absurd ‹_› (hattn _ _ _ _ _ _)
    · rfl
  unfold State.fireCluster
  rw [hbad, if_neg Bool.false_ne_true]
  dsimp only
  rw [hrun]
  dsimp only
  split
  · exact absurd ‹_› (hattn _ _ _ _ _ _)
  · rfl

/-- What firing a tzero does: its tile is zero, and no other tile and no memory changes. -/
theorem fire_tzero {t : TileName} {k : SReg} {x : Nat} (hins : c.ins = .tzero t k) (htile : c.tiles = [x]) :
    (s.fire c).tile x = .zero ∧ (s.fire c).mem = s.mem ∧ (s.fire c).spad = s.spad ∧ ∀ y, y ≠ x → (s.fire c).tile y = s.tile y := by
  obtain ⟨bs, cs, st, hb⟩ := begin_eq s c
  have hrun : runCmd (s.begin_ c).2 (s.begin_ c).1 = (State.updTile { s with cbufs := bs, cmds := cs } x fun _ => .zero, 1, none) := by
    rw [hb, runCmd]
    dsimp only
    rw [hins, htile]
    rfl
  have hunit : Instr.unit c.ins = .tile := by rw [hins]; rfl
  rw [fire_cluster (.inr (.inr (.inl hunit))), fireCluster_of_runs (by simp [hins]) hrun]
  exact ⟨State.tile_updTile_self { s with cbufs := bs, cmds := cs } x fun _ => .zero, rfl, rfl,
    fun y hy => State.tile_updTile_ne { s with cbufs := bs, cmds := cs } (fun _ => .zero) hy⟩

/-- Settles O44: the events by their conditions, a retirement's frame, and the step of tzero. -/
theorem commandsFireAndRetire : Obligations.CommandsFireAndRetire := by
  refine fun s id => ⟨fun h => ⟨exec_commandFire_of_none h, exec_commandRetire_of_none h⟩, fun c h => ⟨fun hm => ?_, fun hm => ?_,
    fun hm => ?_, fun hm => ?_, fun t k x hins htile hm => ?_⟩⟩
  · rw [exec_commandFire_of_some h, if_pos hm]
  · rw [exec_commandFire_of_some h, hm, if_neg Bool.false_ne_true]
  · rw [exec_commandRetire_of_some h, hm, if_neg Bool.false_ne_true]
  · rw [exec_commandRetire_of_some h, if_pos hm]
    obtain ⟨cs, bs, hret⟩ := retireCmd_eq s c
    rw [cmd_id h] at hret
    rw [hret]
    exact ⟨_, rfl, cmd_dropCmd_self s id, rfl, rfl, fun j hj => cmd_dropCmd_ne s hj⟩
  · rw [exec_commandFire_of_some h, if_pos hm]
    exact ⟨_, rfl, fire_tzero (s := s.bump 12 c.ctx 1) hins htile⟩

end Sys2Proof.Machine
end

section
/-! PROOFS. The events of a context, and the completion of held writes at a home (R203, R263). -/

namespace Sys2Proof.Machine

/-! ## What an access to memory keeps of a context -/

/-- What the marks of other parties' accesses do not touch of a context is kept where the outline is. -/
theorem ctx_of_outline {β : Type} (p : Ctx → β) (hp : ∀ c : Ctx, p c.bare = p c) {s t : State} (h : t.outline = s.outline) (m : Nat) :
    p (t.ctx m) = p (s.ctx m) := by
  have hkeep (u : State) : p (u.outline.ctx m) = p (u.ctx m) :=
    sget_mapEntries Ctx.zero (fun e : Nat × Ctx => e.2.bare) u.ctxs m p fun e => hp e.2
  rw [← hkeep t, ← hkeep s, h]

/-! ## Held writes -/

@[simp] theorem outline_hostStore (s : State) (l : Nat) (hf : BitVec 2) (bs : List (Nat × Byte)) :
    (s.hostStore l hf bs).outline = s.outline := by
  unfold State.hostStore
  dsimp only
  rw [outline_crossed, outline_shootdown]
  split <;> simp

theorem markAbort_ctx (s : State) (ts : List Nat) (c : Cmd) (m : Nat) : (s.markAbort ts c).ctx m = s.ctx m := by
  have hrow (u : State) (x : Nat) (rs : List Nat) :
      (rs.foldl (fun (u : State) r => u.updTile x fun z => z.orFlag r rfABORT) u).ctx m = u.ctx m := by
    induction rs generalizing u with
    | nil => rfl
    | cons r rs ih => exact ih _
  unfold State.markAbort
  induction ts generalizing s with
  | nil => rfl
  | cons x ts ih => exact (ih _).trans (hrow s x _)

theorem out_updCtx (s : State) (n : Nat) (f : Ctx → Ctx) (h : ∀ c : Ctx, (f c).out = c.out) (m : Nat) :
    ((s.updCtx n f).ctx m).out = (s.ctx m).out := by
  by_cases hm : m = n
  · rw [hm, State.ctx_updCtx_self, h]
  · rw [State.ctx_updCtx_ne s f hm]

theorem abandon_out (s : State) (c : Cmd) (h : Hit) (m : Nat) : ((s.abandon c h).ctx m).out = (s.ctx m).out := by
  unfold State.abandon
  dsimp only
  split <;> refine (out_updCtx _ _ (fun x => { x with engFaults := x.engFaults ++ [(h.cause, h.va)] }) (fun _ => rfl) m).trans ?_ <;>
    split <;> exact congrArg Ctx.out (markAbort_ctx ..)

/-- A held write that performs or is lost releases no store of a context. -/
theorem performHeld_out (s : State) (h : HeldWrite) (m : Nat) : ((s.performHeld h).ctx m).out = (s.ctx m).out := by
  unfold State.performHeld
  split
  · unfold State.heldLost
    split
    · exact out_updCtx s _ (fun c => { c with engFaults := c.engFaults ++ [(256, h.va)] }) (fun _ => rfl) m
    · exact abandon_out ..
    · rfl
    · rfl
  · split
    · exact ctx_of_outline Ctx.out (fun _ => rfl) (by simp) m
    · exact ctx_of_outline Ctx.out (fun _ => rfl) (outline_hostStore ..) m

/-- A pass that leaves a state as it is for each of its parties leaves it so for all. -/
theorem foldl_fixed {β : Type} {s : State} {f : State → β → State} (ns : List β) (hf : ∀ n ∈ ns, f s n = s) : ns.foldl f s = s := by
  induction ns with
  | nil => rfl
  | cons n ns ih =>
    rw [List.foldl_cons, hf n List.mem_cons_self]
    exact ih fun m hm => hf m (List.mem_cons_of_mem n hm)

/-- What stands for a key of a map is one of its entries. -/
theorem mem_of_sget {α : Type} (d : α) {m : SMap α} {k : Nat} (h : k ∈ m.map (·.1)) : (k, sget d m k) ∈ m := by
  induction m with
  | nil => simp at h
  | cons e m ih =>
    by_cases he : e.1 = k
    · rw [sget, if_pos he, ← he]
      exact List.mem_cons_self
    · rw [sget, if_neg he]
      refine List.mem_cons_of_mem _ (ih ?_)
      simpa [Ne.symm he] using h

/-- A completion with no released store of home d in front of a context's is that of the held writes alone. -/
theorem completeWrites_eq {s t : State} {d : Nat} (ht : State.completeFrom { s with heldWrites := [] } d s.heldWrites = t)
    (h : ∀ n ∈ t.ctxs.map (·.1), (t.ctx n).out = [] ∨ ∃ g r, (t.ctx n).out = g :: r ∧ g.home n ≠ d) : s.completeWrites d = t := by
  unfold State.completeWrites
  dsimp only
  rw [ht]
  refine foldl_fixed _ fun n hn => ?_
  obtain hout | ⟨g, r, hout, hhome⟩ := h n hn
  · rw [hout]
  · rw [hout]
    exact if_neg hhome

/-- Without held writes there is nothing to complete. -/
theorem completeFrom_none {s : State} (d : Nat) (hw : s.heldWrites = []) :
    State.completeFrom { s with heldWrites := [] } d s.heldWrites = s := by
  rw [hw, State.completeFrom, ← hw]

theorem completeFrom_single {s : State} {d : Nat} {h : HeldWrite} (hs : s.heldWrites = []) (hd : lineDie h.line = d) :
    s.completeFrom d [h] = if h.waits s then { s with heldWrites := [h] } else s.performHeld h := by
  rw [State.completeFrom, State.completeFrom, State.heldReady, hs, hd]
  cases h.waits s <;> simp [State.completeFrom]

section
variable {s : State} {d : Nat} (hs : ∀ m, (s.ctx m).out = [])
include hs

theorem completeWrites_of_noOuts_nil (hw : s.heldWrites = []) : s.completeWrites d = s :=
  completeWrites_eq (completeFrom_none d hw) fun n _ => .inl (hs n)

theorem completeWrites_of_noOuts_single {h : HeldWrite} (hw : s.heldWrites = [h]) (hd : lineDie h.line = d) :
    s.completeWrites d = if h.waits { s with heldWrites := [] } then s else State.performHeld { s with heldWrites := [] } h := by
  refine completeWrites_eq ?_ fun n _ => .inl ?_
  · rw [hw, completeFrom_single rfl hd, ← hw]
  · split
    · exact hs n
    · exact (performHeld_out ..).trans (hs n)

end

/-! ## Landings and spawned contexts -/

/-- A single landing that is due goes to its register. -/
theorem land_single {s : State} {n : Nat} {l : Landing} (hl : (s.ctx n).landings = [l]) (hdue : l.due ≤ s.clk) :
    ((s.land n).ctx n).landings = [] ∧ ((s.land n).ctx n).tc = sput 0 (s.ctx n).tc l.reg l.value := by
  have hover : l.over s.clk = true := decide_eq_true hdue
  rw [State.land, State.ctx_updCtx_self, hl]
  simp [hover]

theorem spawnReady_of_due {s : State} {n : Nat} (hi : (s.ctx n).st = .idle) (hl : (s.ctx n).launch ≠ none)
    (hr : (s.ctx n).readyAt ≤ s.clk) (hp : (s.ctx n).preq = false) :
    s.spawnReady n = s.updCtx n fun c => { c with st := .ready } := by
  unfold State.spawnReady
  dsimp only
  rw [if_pos (by simp [hi, hr, Option.isSome_iff_ne_none.mpr hl]), hp, if_neg Bool.false_ne_true]

theorem spawnReady_of_notDue {s : State} {n : Nat} (h : (s.ctx n).st ≠ .idle ∨ (s.ctx n).launch = none ∨ s.clk < (s.ctx n).readyAt) :
    s.spawnReady n = s := by
  refine if_neg ?_
  simp only [Bool.and_eq_true, beq_iff_eq, decide_eq_true_eq, not_and, Nat.not_le]
  rintro ⟨hi, hl⟩
  obtain hs | hn | hr := h
  · exact absurd hi hs
  · rw [hn] at hl
    exact absurd hl Bool.false_ne_true
  · exact hr

/-! ## The events -/

theorem ctxEvent_of_lt {n : Nat} (h : n < 512) (s : State) (f : State → State) : ctxEvent n s f = .next (f s) :=
  if_pos (decide_eq_true h)
theorem ctxEvent_of_ge {n : Nat} (h : 512 ≤ n) (s : State) (f : State → State) : ctxEvent n s f = .fault .noSuchParty :=
  if_neg (by simp only [aContext, decide_eq_true_eq]; exact Nat.not_lt.mpr h)

theorem restartPoint_eq (s : State) (n : Nat) : s.restartPoint n = if !(s.ctx n).live then s
    else if (s.ctx n).conflict then if s.landed n then s.conflictRoll n else s
    else if s.recheck n == .ok then s.commitAt n (s.ctx n).regs.pc else s := by
  unfold State.restartPoint State.conflictDue
  cases (s.ctx n).live <;> cases (s.ctx n).conflict <;> rfl

/-- A context that is released holds nothing. -/
theorem releaseCtx_ctx (s : State) (n : Nat) : (s.releaseCtx n).ctx n = .zero := sget_sput_self Ctx.zero s.ctxs n Ctx.zero

/-- Settles O50: each event by the condition on which it acts, and the completions by what each home's writes wait for. -/
theorem contextEvents : Obligations.ContextEvents := by
  intro s n cause va
  refine ⟨fun hn => ?_, ⟨releaseCtx_ctx s n, retireNow_ctx ..⟩, fun l hl hdue => ?_, fun hn => ?_, fun hn => ?_, fun hout => ⟨?_, ?_⟩, fun hw hout => ?_,
    fun hn => ?_⟩
  · have hev {i : Instr} (f : State → State) (h : exec i s = ctxEvent n s f) : exec i s = .next (f s) := h.trans (ctxEvent_of_lt hn s f)
    exact ⟨hev _ rfl, hev _ rfl, hev (·.land n) rfl, hev (fun s => s.updCtx n fun c => { c with regs := c.regs.fmtEffect }) rfl,
      if_neg (Nat.not_le.mpr hn), spawnReady_of_due, spawnReady_of_notDue,
      (hev (·.restartPoint n) rfl).trans (congrArg _ (restartPoint_eq s n)), hev _ rfl, hev (·.faultReturn n cause va .read) rfl,
      hev (·.faultReturn n 257 va .read) rfl, hev (·.faultReturn n 258 va .read) rfl, hev (·.tryPreempt n) rfl, hev _ rfl, hev State.fireTrigger rfl, hev State.arm rfl⟩
  · obtain ⟨hnone, htc⟩ := land_single hl hdue
    rw [htc]
    exact ⟨hnone, sget_sput_self .., fun r hr => sget_sput_ne _ _ _ hr⟩
  · exact if_pos hn
  · exact if_neg (Nat.not_lt.mpr hn)
  · exact completeWrites_of_noOuts_nil hout
  · intro h hw hd z
    rw [completeWrites_of_noOuts_single hout hw hd]
    exact ⟨fun hz => if_neg (by rw [hz]; exact Bool.false_ne_true), fun hz => if_pos hz⟩
  · exact completeWrites_eq (completeFrom_none n hw) fun m hm => hout _ (mem_of_sget Ctx.zero hm)
  · have hev {i : Instr} (f : State → State) (h : exec i s = ctxEvent n s f) : exec i s = .fault .noSuchParty :=
      h.trans (ctxEvent_of_ge hn s f)
    simp only [List.forall_mem_cons, List.not_mem_nil, false_imp_iff, implies_true, and_true]
    exact ⟨hev _ rfl, hev _ rfl, hev (·.land n) rfl, hev (fun s => s.updCtx n fun c => { c with regs := c.regs.fmtEffect }) rfl,
      if_pos hn, hev (·.restartPoint n) rfl, hev _ rfl, hev (·.faultReturn n cause va .read) rfl,
      hev (·.faultReturn n 257 va .read) rfl, hev (·.faultReturn n 258 va .read) rfl, hev (·.tryPreempt n) rfl, hev _ rfl,
      hev State.fireTrigger rfl, hev State.arm rfl⟩

end Sys2Proof.Machine
end

section
/-! PROOFS. The hardware queue scheduler: doorbells, slots, slices and launches (R22 to R28, R332). -/

namespace Sys2Proof.Machine

theorem queueEvent_of_lt {q : Nat} (h : q < 8192) (s : State) (f : State → State) : queueEvent q s f = .next (f s) := if_pos h
theorem queueEvent_of_ge {q : Nat} (h : 8192 ≤ q) (s : State) (f : State → State) : queueEvent q s f = .fault .noSuchParty :=
  if_neg (Nat.not_lt.mpr h)

/-! ## Doorbells -/

section
variable {s : State} {d q : Nat} {w : BitVec 32} (hb : (s.queue q).bound = true) (hu : (s.queue q).unbinding = false)
  (hd : (s.queue q).die = d) (hon : s.queueOn q = true)
include hb hu hd hon

theorem ring_of_answers : s.ring d q w = if (s.queue q).cap < (w - (s.queue q).rd).toNat then
      (s.updQueue q fun u => { u with enabled := false }).postError d (errRec 325 0 0 0)
    else (s.updQueue q fun u => { u with wr := w, waitAt := if u.rd == u.wr then s.clk else u.waitAt }).unitWrite d
      (Config.dieKey d ((s.queue q).descPA + 12)) (toLE 4 w.toNat) := by
  unfold State.ring
  dsimp only
  rw [if_neg (by simp [hb, hu, hd, hon])]

theorem ring_within (h : (w - (s.queue q).rd).toNat ≤ (s.queue q).cap) : ∃ v : State, (v.queue q).wr = w ∧ v.mem = s.mem ∧
    s.ring d q w = v.unitWrite d (Config.dieKey d ((s.queue q).descPA + 12)) (toLE 4 w.toNat) := by
  refine ⟨s.updQueue q fun u => { u with wr := w, waitAt := if u.rd == u.wr then s.clk else u.waitAt }, ?_, rfl, ?_⟩
  · rw [State.queue_updQueue_self]
  · rw [ring_of_answers hb hu hd hon, if_neg (Nat.not_lt.mpr h)]

theorem ring_beyond (h : (s.queue q).cap < (w - (s.queue q).rd).toNat) : ∃ v : State, (v.queue q).enabled = false ∧
    (v.queue q).wr = (s.queue q).wr ∧ s.ring d q w = v.postError d (errRec 325 0 0 0) := by
  refine ⟨s.updQueue q fun u => { u with enabled := false }, ?_, ?_, ?_⟩
  · rw [State.queue_updQueue_self]
  · rw [State.queue_updQueue_self]
  · rw [ring_of_answers hb hu hd hon, if_pos h]

end

/-! ## Slots -/

theorem queue_foldl_updCtx (f : Ctx → Ctx) (ns : List Nat) (s : State) (q : Nat) :
    (ns.foldl (fun s n => s.updCtx n f) s).queue q = s.queue q := by
  induction ns generalizing s with
  | nil => rfl
  | cons n ns ih => exact ih _

/-- A queue that takes a slot holds it. -/
theorem map_slot (s : State) (q k : Nat) : ((s.map_ q k).queue q).slot = some k := by
  unfold State.map_
  dsimp only
  rw [queue_foldl_updCtx, State.queue_updQueue_self]

/-- A free slot goes to the queue that waits alone. -/
theorem mapSlots_alone {s : State} {d q k : Nat} (hw : s.waiting d = [q]) (hk : s.freeSlot d = some k) :
    ((s.mapSlots d).queue q).slot = some k := by
  rw [State.mapSlots, hw, List.foldl_cons, List.foldl_nil, State.mapOne, hk]
  exact map_slot s q k

/-! ## When the scheduler's decisions are due -/

theorem ctxDue_ne_slotMapping (s : State) (n d : Nat) : s.ctxDue n ≠ some (.slotMapping d) := by
  unfold State.ctxDue
  dsimp only
  repeat' split
  all_goals exact fun h => nomatch h

theorem cmdDue_ne_slotMapping (s : State) (c : Cmd) (d : Nat) : s.cmdDue c ≠ some (.slotMapping d) := by
  unfold State.cmdDue
  repeat' split
  all_goals exact fun h => nomatch h

theorem dieDue_eq_slotMapping {s : State} {e d : Nat} (h : s.dieDue e = some (.slotMapping d)) : e = d ∧ s.mayMap d = true := by
  unfold State.dieDue at h
  split at h
  · exact nomatch h
  · split at h
    · rename_i hm
      injection h with h
      injection h with h
      subst h
      exact ⟨rfl, (Bool.and_eq_true _ _ ▸ hm : _ ∧ _).1⟩
    · exact nomatch h

/-- The decisions of a die's scheduler come after every slice that ends, and once in a clk. -/
theorem due_slotMapping {s : State} {d : Nat} (h : s.due = some (.slotMapping d)) :
    (s.die d).mapAt ≤ s.clk ∧ ∀ e ∈ s.queues, s.sliceOver e.1 = false := by
  unfold State.due at h
  split at h
  · exact nomatch h
  split at h
  · exact nomatch h
  split at h
  · exact nomatch h
  split at h
  · rename_i i hi
    obtain ⟨e, _, he⟩ := List.exists_of_findSome?_eq_some hi
    exact absurd (he.trans h) (ctxDue_ne_slotMapping _ _ _)
  split at h
  · exact nomatch h
  split at h
  · rename_i i hi
    obtain ⟨c, _, hc⟩ := List.exists_of_findSome?_eq_some hi
    exact absurd (hc.trans h) (cmdDue_ne_slotMapping _ _ _)
  split at h
  · exact nomatch h
  rename_i hslice
  have hover : ∀ e ∈ s.queues, s.sliceOver e.1 = false := fun e he => by simpa using List.find?_eq_none.mp hslice e he
  split at h
  · rename_i i hi
    obtain ⟨e, _, he⟩ := List.exists_of_findSome?_eq_some hi
    obtain ⟨rfl, hmap⟩ := dieDue_eq_slotMapping (he.trans h)
    exact ⟨of_decide_eq_true hmap, hover⟩
  · obtain ⟨_, _, hl⟩ := Option.map_eq_some_iff.mp h
    exact nomatch hl

/-! ## Launches -/

/-- A property of every context that a pass sets holds of those it has set. -/
theorem ctx_foldl_setCtx {β : Type} (key : β → Nat) (val : State → β → Ctx) {P : Ctx → Prop} (hP : ∀ s x, P (val s x)) (xs : List β) {s : State} {n : Nat}
    (h : (∃ x ∈ xs, key x = n) ∨ P (s.ctx n)) : P ((xs.foldl (fun s x => s.setCtx (key x) (val s x)) s).ctx n) := by
  induction xs generalizing s with
  | nil =>
    obtain ⟨x, hx, _⟩ | h := h
    · exact absurd hx List.not_mem_nil
    · exact h
  | cons x xs ih =>
    refine ih ?_
    by_cases hx : key x = n
    · right
      show P (sget _ (sput _ _ (key x) _) n)
      rw [hx, sget_sput_self]
      exact hP s x
    · obtain ⟨y, hy, hyn⟩ | h := h
      · obtain rfl | hy := List.mem_cons.mp hy
        · exact absurd hyn hx
        · exact .inl ⟨y, hy, hyn⟩
      · right
        show P (sget _ (sput _ _ (key x) _) n)
        rw [sget_sput_ne _ _ _ (Ne.symm hx)]
        exact h

/-- The state in which a launch starts the context `x.1`, the one of rank `x.2` (R27). -/
def startedCtx (clk l : Nat) (r : BitVec 512) (recVA code : VA) (view : SMap Word64) (ns : List Nat) (x : Nat × Nat) : Ctx :=
  let lv := fld r 200 3
  let mates := ns.filter fun m => unitOf lv m == unitOf lv x.1
  let regs := { Regs.zero with
    s := sput 0 (sput 0 [] 0 (BitVec.ofNat 64 x.2)) 1 (BitVec.ofNat 64 ns.length)
    q := sput 0 (sput 0 [] 0 (va8 (fld r 128 64))) 1 recVA
    view := view
    pc := qoff code (16 * recEntry r : Nat) }
  { Ctx.zero with
    st := .ready, regs := regs, ck := regs, launch := some l,
    dom := domWord lv (mates.findIdx (· == x.1)) (mates.length - 1) (domId lv x.1), readyAt := clk }

/-- What the contexts of a launch start with. -/
structure Ctx.Starts (c : Ctx) (l : Nat) (r : BitVec 512) (recVA code : VA) (view : SMap Word64) : Prop where
  ready : c.st = .ready
  launch : c.launch = some l
  checkpoint : c.ck = c.regs
  entry : c.regs.pc = qoff code (16 * recEntry r : Nat)
  argument : c.regs.gq 0 = va8 (fld r 128 64)
  record : c.regs.gq 1 = recVA
  views : c.regs.view = view

theorem startedCtx_starts (clk l : Nat) (r : BitVec 512) (recVA code : VA) (view : SMap Word64) (ns : List Nat) (x : Nat × Nat) :
    (startedCtx clk l r recVA code view ns x).Starts l r recVA code view where
  ready := rfl
  launch := rfl
  checkpoint := rfl
  entry := rfl
  argument := (sget_sput_ne 0 _ recVA (by decide : (0 : QReg).toNat ≠ 1)).trans (sget_sput_self 0 [] 0 (va8 (fld r 128 64)))
  record := sget_sput_self 0 _ 1 recVA
  views := rfl

theorem startContexts_ctx (s : State) (l : Nat) (r : BitVec 512) (recVA code : VA) (view : SMap Word64) {ns : List Nat} {n : Nat}
    (hn : n ∈ ns) : ((s.startContexts l r recVA code view ns).ctx n).Starts l r recVA code view := by
  have hset : s.startContexts l r recVA code view ns =
      ns.zipIdx.foldl (fun u x => u.setCtx x.1 (startedCtx u.clk l r recVA code view ns x)) s := rfl
  obtain ⟨i, hi, hget⟩ := List.mem_iff_getElem.mp hn
  rw [hset]
  exact ctx_foldl_setCtx Prod.fst (fun u x => startedCtx u.clk l r recVA code view ns x) (P := fun c => c.Starts l r recVA code view)
    (fun u x => startedCtx_starts ..) ns.zipIdx
    (.inl ⟨(n, i), List.mem_zipIdx_iff_getElem?.mpr (by simp [← hget, hi]), rfl⟩)

section
variable {s : State} {q : Nat}

theorem nextRecord_of_recordFault {f : FaultRec} (h : s.recordFault q = some f) : s.nextRecord q = none := by
  unfold State.recordFault at h
  unfold State.nextRecord
  dsimp only at h ⊢
  split at h
  · exact nomatch h
  · rename_i hp
    rw [if_neg hp]
    split at h
    · exact nomatch h
    · rfl

/-- A record that cannot be read holds its queue and joins the die's batch (log 28). -/
theorem launchNext_of_recordFault {f : FaultRec} (h : s.recordFault q = some f) : s.launchNext q =
    ((s.schedMarks (s.queue q).die (s.queue q).asid [((s.queue q).ringVA (s.queue q).next, 64)]).updQueue q fun u =>
      { u with held := some f }).batchAdd f := by
  unfold State.launchNext
  dsimp only
  rw [nextRecord_of_recordFault h, h]

/-- A queue without a slot launches nothing. -/
theorem launchNext_of_noSlot (hs : (s.queue q).slot = none) (hf : s.recordFault q = none) : s.launchNext q = s := by
  unfold State.launchNext
  dsimp only
  rw [hf, hs]
  split
  · rfl
  · exact if_pos rfl

/-- The marks of a record's read. -/
def State.recordMarked (s : State) (q : Nat) : State :=
  s.schedMarks (s.queue q).die (s.queue q).asid [((s.queue q).ringVA (s.queue q).next, 64)]
/-- A record completes without a launch (R24). -/
def State.rejected (v s : State) (q : Nat) (r : BitVec 512) (cause : Nat) : State :=
  (v.updQueue q fun u => { u with next := u.next + 1 }).completeRecord q (s.queue q).next r cause

theorem launchNext_of_notPlaceable {r : BitVec 512} (hr : s.nextRecord q = some r) (hp : placeable (s.die (s.queue q).die).svc r = false) :
    s.launchNext q = s := by
  unfold State.launchNext
  dsimp only
  rw [hr]
  exact if_pos (by rw [hp, Bool.not_false, Bool.or_true])

/-- A queue with a slot whose next record may start and has a place does not wait. -/
theorem not_waits {svc : Nat} {r : BitVec 512} (hslot : (s.queue q).slot.isSome = true) (hm : s.mayStart q = true)
    (hp : placeable svc r = true) : ¬((s.queue q).slot.isNone || !s.mayStart q || !placeable svc r) = true := by
  rw [hm, hp, ← Option.not_isSome, hslot]
  decide

variable {r : BitVec 512} (hslot : (s.queue q).slot.isSome = true) (hr : s.nextRecord q = some r) (hm : s.mayStart q = true)
  (hp : placeable (s.die (s.queue q).die).svc r = true)
include hslot hr hm hp

/-- A record that breaks R24 completes with cause 320. -/
theorem launchNext_of_recBad (hok : recOk r = false) : s.launchNext q = (s.recordMarked q).rejected s q r 320 := by
  unfold State.launchNext
  dsimp only
  rw [hr]
  dsimp only
  rw [if_neg (not_waits hslot hm hp), if_pos (by rw [hok]; rfl)]
  rfl

variable (hok : recOk r = true)
include hok

/-- One whose image cannot be read completes with cause 321. -/
theorem launchNext_of_imageBad (hi : (s.recordMarked q).readImage (s.queue q).die (s.queue q).asid r = none) : s.launchNext q =
    State.rejected ((s.recordMarked q).schedMarks (s.queue q).die (s.queue q).asid
      ((s.recordMarked q).imageReads (s.queue q).die (s.queue q).asid r)) s q r 321 := by
  unfold State.recordMarked at hi
  unfold State.launchNext
  dsimp only
  rw [hr]
  dsimp only
  rw [if_neg (not_waits hslot hm hp), if_neg (by simp [hok]), hi]
  rfl

variable {m : BitVec 512} {b : BitVec 1024} {w : SMap Word64}
  (hi : (s.recordMarked q).readImage (s.queue q).die (s.queue q).asid r = some (m, b, w))
include hi

/-- A share that a die cannot grant waits (R25, R26). -/
theorem launchNext_of_refused (hs : (s.recordMarked q).shares r (if (s.die (s.queue q).die).svc = 2 then 8 else 1) = none) :
    s.launchNext q = s.recordMarked q := by
  unfold State.recordMarked at hi hs
  unfold State.launchNext
  dsimp only
  rw [hr]
  dsimp only
  rw [if_neg (not_waits hslot hm hp), if_neg (by simp [hok]), hi]
  dsimp only
  rw [hs]
  rfl

/-- A share that is granted starts its contexts. -/
theorem launchNext_of_granted {ns : List Nat}
    (hs : (s.recordMarked q).shares r (if (s.die (s.queue q).die).svc = 2 then 8 else 1) = some ns) :
    ∃ l, ∀ n ∈ ns, ((s.launchNext q).ctx n).Starts l r ((s.queue q).ringVA (s.queue q).next) (va8 (fld m 64 64)) w := by
  unfold State.recordMarked at hi hs
  unfold State.launchNext
  dsimp only
  rw [hr]
  dsimp only
  rw [if_neg (not_waits hslot hm hp), if_neg (by simp [hok]), hi]
  dsimp only
  rw [hs]
  exact ⟨_, fun n hn => startContexts_ctx _ _ _ _ _ _ hn⟩

end

/-- Settles O49: doorbells, slots, slices and launches, each by its own lemma. -/
theorem queueEvents : Obligations.QueueEvents := by
  intro s d q w
  have hdie (hd : d < 4) (f : State → State) : dieEvent d s f = .next (f s) := if_pos hd
  refine ⟨fun hq hd => ?_, fun hb hu hdie hon => ⟨ring_within hb hu hdie hon, ring_beyond hb hu hdie hon⟩,
    fun hd => ⟨fun h => ?_, fun h => ?_, due_slotMapping, fun k => mapSlots_alone⟩, fun hq => ⟨?_, ?_, fun f => launchNext_of_recordFault,
      launchNext_of_noSlot, fun r hslot hr hm => ?_⟩, fun hq => ⟨if_neg (Nat.not_lt.mpr hq), if_neg (Nat.not_lt.mpr hq),
      if_neg (Nat.not_lt.mpr hq)⟩⟩
  · exact (if_pos hq).trans (if_pos hd)
  · exact (hdie hd _).trans (congrArg _ (if_neg (by simpa [State.mayMap] using h)))
  · exact (hdie hd _).trans (congrArg _ (if_pos (by simpa [State.mayMap] using h)))
  · exact queueEvent_of_lt hq s _
  · exact queueEvent_of_lt hq s (·.launchNext q)
  · intro v reject
    refine ⟨launchNext_of_notPlaceable hr, fun hp => ⟨launchNext_of_recBad hslot hr hm hp, launchNext_of_imageBad hslot hr hm hp, ?_⟩⟩
    intro m b w hok hi
    refine ⟨launchNext_of_refused hslot hr hm hp hok hi, fun ns hs => ?_⟩
    obtain ⟨l, hl⟩ := launchNext_of_granted hslot hr hm hp hok hi hs
    refine ⟨l, fun n hn => ?_⟩
    obtain ⟨hready, hlaunch, hck, hentry, harg, hrec, hview⟩ := hl n hn
    exact ⟨hready, hlaunch, hck, hentry, harg, hrec, hview⟩

end Sys2Proof.Machine
end

section
/-! PROOFS. A copy from memory whose later lines change as its first line is written: the statement of the copies says nothing of the
order in which a state lists its cores, and a write in a cluster with comparators puts the cluster's cores in order. -/

namespace Sys2Proof.Machine

/-- An owner's copy of memory line 2. -/
def ownedLine2 (x : Vec) : Copy := ⟨2, 0, 0, .M, 3, 0, false, 0, x⟩
/-- Two cores, each with an owner's copy of line 2, listed against their order, the first with a comparator that is off. -/
def unorderedCores : SMap CoreSt :=
  [(1, { CoreSt.zero with l1 := [ownedLine2 0], cmps := [(0, .zero)] }), (0, { CoreSt.zero with l1 := [ownedLine2 (~~~0)] })]
/-- 200 bytes from memory address 0x7C to the scratchpad's end: 72 bytes of lines 0 and 1, then 128 of lines 1 and 2. -/
def unorderedCopy : State := { padCmd [(1, 200 <<< 32)] (.copy 6 7 1 false) id with cores := unorderedCores }
/-- What the command reads for one line of its destination. -/
def unorderedRead (g : Nat × Nat) : List Byte :=
  ((unorderedCopy.engRead (oneCmd unorderedCopy) (.at ((oneCmd unorderedCopy).lat.gq 6)) g.1 g.2).toOption).getD []

/-- The scratchpad's last byte after the command has fired. -/
def unorderedLast : Option Byte :=
  match exec (.commandFire 0) unorderedCopy with
  | .next t => some (rdByte t.spad (0 * 2 ^ 22 + (spadOff ((oneCmd unorderedCopy).lat.gq 7) + 72 + 127)))
  | _ => none

theorem eq_ok_of_isOk {x : Except Hit (List Byte)} (h : x.isOk = true) : x = .ok (x.toOption.getD []) := by
  cases x with
  | error e => exact absurd h Bool.false_ne_true
  | ok bs => rfl

theorem unorderedCopy_parts : segOffs ((oneCmd unorderedCopy).lat.gq 7) 200 = [(0, 72), (72, 128)] := by decide +kernel
/-- The command may fire, without a barrier and to the scratchpad. -/
theorem unorderedCopy_fires : unorderedCopy.cmd 0 = some (oneCmd unorderedCopy) ∧ unorderedCopy.mayFire (oneCmd unorderedCopy) = true ∧
    (oneCmd unorderedCopy).prog = 0 ∧ sget [] unorderedCopy.skews (clusterOf (oneCmd unorderedCopy).ctx) = [] ∧
    (oneCmd unorderedCopy).ins = .copy 6 7 1 false ∧ isSpad ((oneCmd unorderedCopy).lat.gq 7) = true ∧
    fld ((oneCmd unorderedCopy).w 1 0) 32 32 = 200 ∧ spadOff ((oneCmd unorderedCopy).lat.gq 7) + 200 = 2 ^ 22 := by decide +kernel
/-- Its source is quiet, and can be read. -/
theorem unorderedCopy_quiet : ∀ g ∈ [(0, 72), (72, 128)], unorderedCopy.devFaults = [] ∧
    (∀ x ∈ segs (qoff ((oneCmd unorderedCopy).lat.gq 6) ((g.1 : Nat) : Int)) g.2,
      isSpad x.1 = false ∧ (unorderedCopy.tlbFind (oneCmd unorderedCopy).asid x.1 .read).isSome = true) ∧
    (unorderedCopy.engRead (oneCmd unorderedCopy) (.at ((oneCmd unorderedCopy).lat.gq 6)) g.1 g.2).isOk = true := by decide +kernel
/-- The last byte that it reads is that of the owner listed first; the one that it writes is that of the other. -/
theorem unorderedCopy_last : (unorderedRead (72, 128)).getD 127 0 = 0 ∧ unorderedLast = some 255 := by decide +kernel

/-- Refutes O45: the state lists two cores against their order, and each holds an owner's copy of the source's last line. The first
line of the copy that is written puts the cores in order, since the cluster has a comparator, and the copy goes on with the other
owner's data; `bytes` gives the data that the line had when the command fired. -/
theorem not_copyAndTileMoves : ¬ Obligations.CopyAndTileMoves := by
  unfold Obligations.CopyAndTileMoves
  intro h
  obtain ⟨hcmd, hfire, hprog, hskew, hins, hspad, hlen, hend⟩ := unorderedCopy_fires
  have hcopy := (h unorderedCopy 0 (oneCmd unorderedCopy) hcmd hfire hprog hskew).1 6 7 1 false hins hspad
  dsimp only at hcopy
  rw [hlen, unorderedCopy_parts] at hcopy
  obtain ⟨t, hexec, -, -, hparts, -⟩ := (hcopy hend.le (fun hbar => absurd hbar Bool.false_ne_true)).2 unorderedRead fun g hg =>
    let ⟨hdev, hsegs, hread⟩ := unorderedCopy_quiet g hg
    ⟨⟨hdev, hsegs⟩, eq_ok_of_isOk hread⟩
  have hbyte := hparts (72, 128) (by decide) 127 (by decide)
  obtain ⟨hread, hlast⟩ := unorderedCopy_last
  rw [unorderedLast, hexec] at hlast
  rw [hread] at hbyte
  exact absurd ((Option.some.inj hlast).symm.trans hbyte) (by decide)

end Sys2Proof.Machine
end

section
/-! PROOFS. An attnf of more rows than a tile has: the row behind the last gives nothing to write, where the statement of the attnf
writes its elements as zeros. -/

namespace Sys2Proof.Machine

/-! ## Bytes of the scratchpad under writes -/

/-- Writes that give a byte its value, or go elsewhere, leave the value there; one that reaches the byte puts it there. -/
theorem rdByte_foldl_wrByte {β : Type} (key : β → Nat) (val : β → Byte) {p : Nat} {b : Byte} (xs : List β) {m : List Host.Cell}
    (hxs : ∀ x ∈ xs, key x ≠ p ∨ val x = b) (h : rdByte m p = b ∨ ∃ x ∈ xs, key x = p) :
    rdByte (xs.foldl (fun m x => wrByte m (key x) (val x)) m) p = b := by
  induction xs generalizing m with
  | nil => exact h.resolve_right fun ⟨_, hx, _⟩ => nomatch hx
  | cons x xs ih =>
    refine ih (fun y hy => hxs y (List.mem_cons_of_mem x hy)) ?_
    by_cases hx : key x = p
    · left
      dsimp only
      rw [hx, rdByte_wrByte_self]
      exact (hxs x List.mem_cons_self).resolve_left fun hne => hne hx
    · dsimp only
      rw [rdByte_wrByte_ne _ _ (Ne.symm hx)]
      exact h.imp_right fun ⟨y, hy, hp⟩ => ⟨y, (List.mem_cons.mp hy).resolve_left fun hyx => hx (hyx ▸ hp), hp⟩

/-- A cluster's scratchpad lies unskewed, and the byte at p is b. -/
def PadByte (k p : Nat) (b : Byte) (s : State) : Prop := sget [] s.skews k = [] ∧ rdByte s.spad p = b

section
variable {s : State} {k p : Nat} {b : Byte} {bs : List (Nat × Byte)}

theorem skews_spadWrite (s : State) (o : Option Nat) (k : Nat) (bs : List (Nat × Byte)) : (s.spadWrite o k bs).skews = s.skews := by
  obtain ⟨cs, fs, h⟩ := spadWrite_eq s o k bs
  rw [h]

theorem padByte_spadWrite (hsk : sget [] s.skews k = []) (hbs : ∀ x ∈ bs, k * 2 ^ 22 + x.1 % 2 ^ 22 ≠ p ∨ x.2 = b)
    (h : rdByte s.spad p = b ∨ ∃ x ∈ bs, k * 2 ^ 22 + x.1 % 2 ^ 22 = p) : PadByte k p b (s.spadWrite none k bs) := by
  refine ⟨by rwa [skews_spadWrite], ?_⟩
  obtain ⟨cs, fs, hw⟩ := spadWrite_eq s none k bs
  rw [hw]
  simp only [fun o => spadKey_of_noSkew (s := s) o hsk]
  exact rdByte_foldl_wrByte (fun x : Nat × Byte => k * 2 ^ 22 + x.1 % 2 ^ 22) Prod.snd bs hbs h

/-- The same for a write line by line. -/
theorem padByte_spadPut (hsk : sget [] s.skews k = []) (hbs : ∀ x ∈ bs, k * 2 ^ 22 + x.1 % 2 ^ 22 ≠ p ∨ x.2 = b)
    (h : rdByte s.spad p = b ∨ ∃ x ∈ bs, k * 2 ^ 22 + x.1 % 2 ^ 22 = p) : PadByte k p b (s.spadPut none k bs) := by
  unfold State.spadPut
  have hls : rdByte s.spad p = b ∨ ∃ l ∈ (bs.map fun b => b.1 / 128).dedup, ∃ x ∈ bs.filter fun b => b.1 / 128 == l,
      k * 2 ^ 22 + x.1 % 2 ^ 22 = p := h.imp_right fun ⟨x, hx, hp⟩ =>
    ⟨x.1 / 128, List.mem_dedup.mpr (List.mem_map_of_mem hx), x, List.mem_filter.mpr ⟨hx, beq_self_eq_true _⟩, hp⟩
  clear h
  generalize (bs.map fun b => b.1 / 128).dedup = ls at hls
  dsimp only
  induction ls generalizing s with
  | nil => exact ⟨hsk, hls.resolve_right fun ⟨_, hl, _⟩ => nomatch hl⟩
  | cons l ls ih =>
    have hbl : ∀ x ∈ bs.filter fun b => b.1 / 128 == l, k * 2 ^ 22 + x.1 % 2 ^ 22 ≠ p ∨ x.2 = b := fun x hx => hbs x (List.mem_filter.mp hx).1
    have hskl : sget [] (s.spadWrite none k (bs.filter fun b => b.1 / 128 == l)).skews k = [] := by rwa [skews_spadWrite]
    by_cases hnow : rdByte s.spad p = b ∨ ∃ x ∈ bs.filter fun b => b.1 / 128 == l, k * 2 ^ 22 + x.1 % 2 ^ 22 = p
    · exact ih hskl (.inl (padByte_spadWrite hsk hbl hnow).2)
    · obtain hb | ⟨m, hm, hx⟩ := hls
      · exact absurd (.inl hb) hnow
      · obtain rfl | hm := List.mem_cons.mp hm
        · exact absurd (.inr hx) hnow
        · exact ih hskl (.inr ⟨m, hm, hx⟩)

end

/-- A destination line in the scratchpad. -/
theorem padByte_engWriteLine {s : State} {c : Cmd} {a : VA} {p : Nat} {b : Byte} {bs : List Byte} (ha : isSpad a = true)
    (hsk : sget [] s.skews (clusterOf c.ctx) = [])
    (hbs : ∀ x ∈ offsetBytes (spadOff a) bs, clusterOf c.ctx * 2 ^ 22 + x.1 % 2 ^ 22 ≠ p ∨ x.2 = b)
    (h : rdByte s.spad p = b ∨ ∃ x ∈ offsetBytes (spadOff a) bs, clusterOf c.ctx * 2 ^ 22 + x.1 % 2 ^ 22 = p) :
    ∃ u, s.engWriteLine c a bs = .ok u ∧ PadByte (clusterOf c.ctx) p b u :=
  ⟨_, if_pos ha, padByte_spadPut hsk hbs h⟩

/-! ## Work by items -/

theorem runItems_keeps {Inv : State → Prop} (fs : List (State → Except Hit State))
    (hfs : ∀ f ∈ fs, ∀ s, Inv s → ∃ u, f s = .ok u ∧ Inv u) (n : Nat) {s : State} (h : Inv s) :
    ∃ u k, runItems fs n s = (u, k, none) ∧ Inv u := by
  induction fs generalizing n s with
  | nil => exact ⟨s, n, rfl, h⟩
  | cons f fs ih =>
    obtain ⟨u, hu, hinv⟩ := hfs f List.mem_cons_self s h
    obtain ⟨v, k, hv, hvinv⟩ := ih (fun g hg => hfs g (List.mem_cons_of_mem f hg)) (n + 1) hinv
    exact ⟨v, k, by rw [runItems, hu]; exact hv, hvinv⟩

theorem foldlM_keeps {β : Type} {Inv : State → Prop} (f : State → β → Except Hit State) (xs : List β)
    (hf : ∀ x ∈ xs, ∀ s, Inv s → ∃ u, f s x = .ok u ∧ Inv u) {s : State} (h : Inv s) : ∃ u, xs.foldlM f s = .ok u ∧ Inv u := by
  induction xs generalizing s with
  | nil => exact ⟨s, rfl, h⟩
  | cons x xs ih =>
    obtain ⟨u, hu, hinv⟩ := hf x List.mem_cons_self s h
    obtain ⟨v, hv, hvinv⟩ := ih (fun y hy => hf y (List.mem_cons_of_mem x hy)) hinv
    exact ⟨v, by rw [List.foldlM_cons, hu]; exact hv, hvinv⟩

/-! ## A row behind a tile's last -/

theorem length_groups {α : Type} (w n : Nat) (xs : List α) : (groups w n xs).length = n := by
  induction n generalizing xs with
  | zero => rfl
  | succ n ih => rw [groups, List.length_cons, ih]

/-- No tile has it: it holds no columns. -/
theorem getO_behind (s : State) (ts : List Nat) {i : Nat} (hi : 64 ≤ i) (dh : Nat) : s.getO ts i dh = [] := by
  have hrow (t : Nat) : (s.tile t).rows.getD i [] = [] := by
    rw [List.getD_eq_getElem?_getD, List.getElem?_eq_none (by rw [Tile.rows, length_groups]; exact hi)]
    rfl
  rw [State.getO, List.flatMap_congr fun t _ => hrow t]
  simp

/-- An attnf of 65 rows of 32 FP32 elements to the scratchpad, where a tile has 64; the first byte of row 64's place is set. -/
def tallAttnf : State := { padCmd [(1, 64 <<< 39), (2, 128)] (.attnf 4 9 1) fun c => { c with tiles := [5, 6] } with
  spad := [(2 ^ 22 - 16384 + 64 * 128, 1)] }
/-- Where a row goes. -/
def tallRow (i : Nat) : VA := qoff ((oneCmd tallAttnf).lat.gq 9) ((i * fld ((oneCmd tallAttnf).w 1 1) 0 32 : Nat) : Int)
/-- The place of row 64. -/
def tallPlace : Nat := 2 ^ 22 - 16384 + 64 * 128

theorem tallAttnf_fires : tallAttnf.cmd 0 = some (oneCmd tallAttnf) ∧ tallAttnf.mayFire (oneCmd tallAttnf) = true ∧
    (oneCmd tallAttnf).prog = 0 ∧ sget [] tallAttnf.skews (clusterOf (oneCmd tallAttnf).ctx) = [] ∧
    (oneCmd tallAttnf).ins = .attnf 4 9 1 ∧ clusterOf (oneCmd tallAttnf).ctx = 0 ∧ (oneCmd tallAttnf).tiles = [5, 6] ∧
    atH ((oneCmd tallAttnf).w 1 0) = 1 ∧ atDH ((oneCmd tallAttnf).w 1 0) = 32 ∧ fld ((oneCmd tallAttnf).w 1 0) 35 4 = 0 ∧
    fld ((oneCmd tallAttnf).w 1 0) 39 7 = 64 := by decide +kernel
/-- Each row is one line of the scratchpad. -/
theorem tallRow_parts : ∀ i < 65, segOffs (tallRow i) 128 = [(0, 128)] ∧ isSpad (qoff (tallRow i) ((0 : Nat) : Int)) = true ∧
    spadOff (qoff (tallRow i) ((0 : Nat) : Int)) = 2 ^ 22 - 16384 + i * 128 := by decide +kernel

theorem mem_offsetBytes {o : Nat} {bs : List Byte} {x : Nat × Byte} (h : x ∈ offsetBytes o bs) :
    o ≤ x.1 ∧ x.1 < o + bs.length ∧ x.2 ∈ bs := by
  obtain ⟨y, hy, rfl⟩ := List.mem_map.mp h
  obtain ⟨hlt, hget⟩ := List.getElem?_eq_some_iff.mp (List.mem_zipIdx_iff_getElem?.mp hy)
  exact ⟨Nat.le_add_right .., Nat.add_lt_add_left hlt o, hget ▸ List.getElem_mem hlt⟩

/-- A row's line: no more bytes than it has, and none of a row behind the tiles' last. -/
theorem atfRow_eq (c : Cmd) (w : Word64) (i : Nat) (s : State) (off len : Nat) : ∃ fl bs,
    atfRow c w i s off len = .ok (s.updTile (c.tiles.headD 0) fun t => t.orFlag i fl, bs) ∧ bs.length ≤ len ∧ (64 ≤ i → bs = []) := by
  refine ⟨_, _, rfl, List.length_take_le _ _, fun hi => ?_⟩
  rw [getO_behind s c.tiles hi]
  simp

/-- Rows that a tile has, and rows of no bytes, do not reach row 64's place. -/
theorem tall_keeps {s : State} {c : Cmd} {i : Nat} {bs : List Byte} (hk : clusterOf c.ctx = 0) (hi : i < 65) (hlen : bs.length ≤ 128)
    (hbehind : 64 ≤ i → bs = []) (hs : PadByte 0 tallPlace 1 s) :
    ∃ u, s.engWriteLine c (qoff (tallRow i) ((0 : Nat) : Int)) bs = .ok u ∧ PadByte 0 tallPlace 1 u := by
  obtain ⟨-, hspad, hoff⟩ := tallRow_parts i hi
  have hwrite := padByte_engWriteLine (s := s) (c := c) (p := tallPlace) (b := 1) (bs := bs) hspad (by rw [hk]; exact hs.1)
    (fun x hx => .inl ?_) (.inl hs.2)
  · rwa [hk] at hwrite
  obtain ⟨hlo, hhi, -⟩ := mem_offsetBytes hx
  rw [hoff] at hlo hhi
  rw [hk, tallPlace]
  by_cases hi64 : i < 64
  · omega
  · rw [hbehind (by omega), List.length_nil] at hhi
    omega

section
variable {b : State × Cmd} (hb : (tallAttnf.bump 12 (oneCmd tallAttnf).ctx 1).begin_ (oneCmd tallAttnf) = b)
include hb

theorem tall_begun : (∃ st, b.2 = { oneCmd tallAttnf with started := st }) ∧ clusterOf b.2.ctx = 0 ∧ PadByte 0 tallPlace 1 b.1 := by
  obtain ⟨bs, cs, st, h⟩ := begin_eq (tallAttnf.bump 12 (oneCmd tallAttnf).ctx 1) (oneCmd tallAttnf)
  obtain ⟨-, -, -, hskew, -, hk, -⟩ := tallAttnf_fires
  rw [← hb, h]
  exact ⟨⟨st, rfl⟩, hk, hk ▸ hskew, (by decide +kernel : rdByte tallAttnf.spad tallPlace = 1)⟩

/-- The run leaves the byte at row 64's place. -/
theorem tall_run : ∃ u p, runCmd b.2 b.1 = (u, p, none) ∧ PadByte 0 tallPlace 1 u := by
  obtain ⟨⟨st, hc⟩, hk, hpad⟩ := tall_begun hb
  obtain ⟨-, -, hprog, -, hins, -, -, -, hdh, helf, hrows⟩ := tallAttnf_fires
  have hrun : runCmd b.2 b.1 = runAttnf b.2 9 1 b.1 := by
    rw [hc, runCmd]
    dsimp only
    rw [hins]
  have hw (k : Nat) : b.2.w 1 k = (oneCmd tallAttnf).w 1 k := by rw [hc]; rfl
  have hq : b.2.lat.gq 9 = (oneCmd tallAttnf).lat.gq 9 := by rw [hc]
  rw [hrun]
  unfold runAttnf
  dsimp only
  rw [hw, hw, hq, hrows, hdh, helf, show b.2.prog = 0 by rw [hc]; exact hprog, List.drop_zero]
  refine runItems_keeps _ (fun f hf s hs => ?_) 0 hpad
  obtain ⟨i, hi, hf⟩ := List.mem_flatMap.mp hf
  obtain ⟨g, hg, rfl⟩ := List.mem_map.mp hf
  have hg : g ∈ segOffs (tallRow i) 128 := hg
  rw [(tallRow_parts i (List.mem_range.mp hi)).1, List.mem_singleton] at hg
  subst hg
  obtain ⟨fl, bs, hrow, hlen, hbehind⟩ := atfRow_eq b.2 ((oneCmd tallAttnf).w 1 0) i s 0 128
  dsimp only
  rw [hrow]
  exact tall_keeps (s := s.updTile (b.2.tiles.headD 0) fun t => t.orFlag i fl) hk (List.mem_range.mp hi) hlen hbehind hs

/-- Lines of zeros, row 64's included, clear it. -/
theorem tall_lines (bytes : Nat → List Byte) (hzero : ∀ i, ∀ y ∈ bytes i, y = 0) (hlen : ∀ i, (bytes i).length = 128) :
    ∃ u, ((List.range 65).flatMap fun i => (segOffs (tallRow i) 128).map fun g => (i, g)).foldlM
      (fun (t : State) x => t.engWriteLine b.2 (qoff (tallRow x.1) (x.2.1 : Int)) (((bytes x.1).drop x.2.1).take x.2.2)) b.1 = .ok u ∧
      rdByte u.spad tallPlace = 0 := by
  obtain ⟨-, hk, hpad⟩ := tall_begun hb
  have hline (i : Nat) : ((bytes i).drop 0).take 128 = bytes i := by rw [List.drop_zero, ← hlen i, List.take_length]
  have hparts : ((List.range 65).flatMap fun i => (segOffs (tallRow i) 128).map fun g => (i, g)) =
      (List.range 64).map (fun i => (i, 0, 128)) ++ [(64, 0, 128)] := by
    rw [List.flatMap_congr fun i hi => congrArg (List.map fun g => (i, g)) (tallRow_parts i (List.mem_range.mp hi)).1]
    decide
  obtain ⟨v, hv, hvpad⟩ := foldlM_keeps (Inv := PadByte 0 tallPlace 1)
    (fun (t : State) (x : Nat × Nat × Nat) =>
      t.engWriteLine b.2 (qoff (tallRow x.1) (x.2.1 : Int)) (((bytes x.1).drop x.2.1).take x.2.2))
    ((List.range 64).map fun i => (i, 0, 128)) (fun x hx s hs => by
      obtain ⟨i, hi, rfl⟩ := List.mem_map.mp hx
      have := List.mem_range.mp hi
      exact tall_keeps hk (by omega) (by rw [hline, hlen]) (by omega) hs) hpad
  obtain ⟨-, hspad, hoff⟩ := tallRow_parts 64 (by decide)
  have hreach : ∃ x ∈ offsetBytes (spadOff (qoff (tallRow 64) ((0 : Nat) : Int))) (bytes 64),
      clusterOf b.2.ctx * 2 ^ 22 + x.1 % 2 ^ 22 = tallPlace := by
    have h0 : 0 < (bytes 64).length := by rw [hlen]; decide
    refine ⟨_, List.mem_map.mpr ⟨((bytes 64)[0], 0), List.mem_zipIdx_iff_getElem?.mpr (List.getElem?_eq_getElem h0), rfl⟩, ?_⟩
    dsimp only
    rw [hoff, hk]
    decide
  obtain ⟨u, hu, hupad⟩ := padByte_engWriteLine (s := v) (c := b.2) (p := tallPlace) (b := 0) (bs := bytes 64) hspad
    (by rw [hk]; exact hvpad.1) (fun x hx => .inr (hzero 64 x.2 (mem_offsetBytes hx).2.2)) (.inr hreach)
  refine ⟨u, ?_, hupad.2⟩
  rw [hparts, List.foldlM_append, hv]
  exact (congrArg (· >>= pure) ((congrArg _ (hline 64)).trans hu))

end

/-- What the statement takes for the bytes of a row. -/
def tallBytes (i : Nat) : List Byte := (List.range 32).flatMap fun j => toLE (efWidth 0) (narrowElf 0 (oneCmd tallAttnf).lat.fmt
  (if (decodeFP .f32 ((tallAttnf.tile ((oneCmd tallAttnf).tiles.getD 1 0)).get i 0)).isNan then Fmt.nan .f32
    else if (tallAttnf.tile ((oneCmd tallAttnf).tiles.getD 1 0)).get i 1 = 0 then 0
    else (fpDiv .f32 ((tallAttnf.getO (oneCmd tallAttnf).tiles i 32).getD j 0)
      ((tallAttnf.tile ((oneCmd tallAttnf).tiles.getD 1 0)).get i 1)).1)).1

/-- Every row's sum is zero, so its elements are. -/
theorem tallBytes_eq (i : Nat) : tallBytes i = List.replicate 128 0 := by
  have htiles : tallAttnf.tiles = [] := by decide +kernel
  have hget (n k : Nat) : (tallAttnf.tile n).get i k = 0 := by
    rw [State.tile, htiles]
    rfl
  have hzero : (decodeFP .f32 0).isNan = false := by decide
  unfold tallBytes
  simp only [hget, hzero, Bool.false_eq_true, if_false, if_true]
  decide

/-- Refutes O46: an attnf of 65 rows. A tile has 64, so the model gives nothing to write for row 64; the statement, whose lines of
memory or scratchpad bound no number of rows, reads its elements as zeros and has them written. The byte that stood at the row's place
stands after the step, and is zero in the state that the statement describes. -/
theorem not_matrixAndAttentionResults : ¬ Obligations.MatrixAndAttentionResults := by
  unfold Obligations.MatrixAndAttentionResults
  intro h
  obtain ⟨hcmd, hmay, hprog, hskew, hins, -, htiles, hH, hdh, helf, hrows⟩ := tallAttnf_fires
  have hattnf := (h tallAttnf 0 (oneCmd tallAttnf) hcmd hmay hprog).2.2 4 9 1 hins hskew
  dsimp only at hattnf
  rw [hH, hdh, helf, hrows] at hattnf
  obtain ⟨u, hu, hzero⟩ := tall_lines rfl tallBytes (fun i y hy => List.eq_of_mem_replicate (tallBytes_eq i ▸ hy))
    fun i => by rw [tallBytes_eq, List.length_replicate]
  obtain ⟨t, hexec, -, hspad, -⟩ := (hattnf (by rw [htiles]; rfl) (by rw [htiles]; decide)).2 u hu
  obtain ⟨v, p, hrun, -, hone⟩ := tall_run rfl
  rw [exec_commandFire_of_some hcmd, if_pos hmay, fire_cluster (.inr (.inr (.inl (by rw [hins]; rfl)))),
    fireCluster_of_runs (by simp [hins]) hrun] at hexec
  have hsame : rdByte t.spad tallPlace = 1 := by
    injection hexec with hexec
    rw [← hexec]
    exact hone
  rw [hspad, hzero] at hsame
  exact absurd hsame (by decide)

end Sys2Proof.Machine
end

section
/-! PROOFS. Writes of fmt: an accepted value stands from the fifth bundle on (R64, R65, R116). -/

namespace Sys2Proof.Machine

/-- What the boundary between two bundles of a context does to its pending writes of fmt. -/
def Regs.fmtNext (r : Regs) : Regs := r.fmtCount.fmtEffect

theorem fmtNext_waiting {r : Regs} {x : Word64} {j : Nat} (h : r.fmtPend = [(x, j + 2)]) :
    r.fmtNext.fmt = r.fmt ∧ r.fmtNext.fmtPend = [(x, j + 1)] := by
  simp [Regs.fmtNext, Regs.fmtCount, Regs.fmtEffect, h]
theorem fmtNext_due {r : Regs} {x : Word64} (h : r.fmtPend = [(x, 1)]) : r.fmtNext.fmt = x ∧ r.fmtNext.fmtPend = [] := by
  simp [Regs.fmtNext, Regs.fmtCount, Regs.fmtEffect, h]
theorem fmtNext_idle {r : Regs} (h : r.fmtPend = []) : r.fmtNext.fmt = r.fmt ∧ r.fmtNext.fmtPend = [] := by
  simp [Regs.fmtNext, Regs.fmtCount, Regs.fmtEffect, h]

/-- While bundles of its count are left, a write stays pending and fmt stays as it was. -/
theorem iterate_fmtNext_waiting {r : Regs} {x : Word64} {m : Nat} (h : r.fmtPend = [(x, m)]) {k : Nat} (hk : k < m) :
    (Regs.fmtNext^[k] r).fmt = r.fmt ∧ (Regs.fmtNext^[k] r).fmtPend = [(x, m - k)] := by
  induction k with
  | zero => exact ⟨rfl, h⟩
  | succ k ih =>
    obtain ⟨hfmt, hpend⟩ := ih (by omega)
    rw [Function.iterate_succ_apply']
    obtain ⟨hfmt', hpend'⟩ := fmtNext_waiting (j := m - k - 2) (hpend.trans (by rw [show m - k - 2 + 2 = m - k by omega]))
    exact ⟨hfmt'.trans hfmt, hpend'.trans (by rw [show m - k - 2 + 1 = m - (k + 1) by omega])⟩
/-- From the end of its count on, the value stands. -/
theorem iterate_fmtNext_done {r : Regs} {x : Word64} {m : Nat} (h : r.fmtPend = [(x, m + 1)]) {k : Nat} (hk : m + 1 ≤ k) :
    (Regs.fmtNext^[k] r).fmt = x ∧ (Regs.fmtNext^[k] r).fmtPend = [] := by
  induction k, hk using Nat.le_induction with
  | base =>
    rw [Function.iterate_succ_apply']
    exact fmtNext_due ((iterate_fmtNext_waiting h (Nat.lt_succ_self m)).2.trans (by rw [Nat.add_sub_cancel_left]))
  | succ k hk ih =>
    rw [Function.iterate_succ_apply']
    exact ⟨(fmtNext_idle ih.2).1.trans ih.1, (fmtNext_idle ih.2).2⟩

theorem exec_fmtset (a : SReg) (s : State) :
    exec (.fmtset a) s = s.resolve (require (fmtOk (s.rS a)) 7) fun s => s.writeFmt (s.rS a) := rfl

/-- Settles O17: the count of five runs out over the boundaries of five bundles. -/
theorem fmtWriteTakesEffectAfterFourBundles : Obligations.FmtWriteTakesEffectAfterFourBundles := by
  intro s a
  refine ⟨fun hok => ?_, fun hbad hs => ?_, fun r x k hr => ?_⟩
  · rw [exec_fmtset, hok]
    rfl
  · rw [exec_fmtset, hbad]
    exact resolve_trap s 7 0 _ hs
  · exact ⟨fun hk => (iterate_fmtNext_waiting hr hk).1, fun hk => (iterate_fmtNext_done hr hk).1⟩

end Sys2Proof.Machine
end

section
/-! PROOFS. Rounding is exact on the values that a format holds (R46, R54). -/

namespace Sys2Proof.Machine

/-! ## The patterns of a format -/

/-- Sign, exponent and fraction of a pattern. -/
def Fmt.signOf (F : Fmt) (x : Nat) : Bool := x / F.sign % 2 == 1
def Fmt.expOf (F : Fmt) (x : Nat) : Nat := x / 2 ^ F.m % 2 ^ F.e
def Fmt.fracOf (F : Fmt) (x : Nat) : Nat := x % 2 ^ F.m

section
variable {F : Fmt} {x : Nat}

theorem fracOf_lt : F.fracOf x < 2 ^ F.m := Nat.mod_lt _ (Nat.two_pow_pos _)
theorem expOf_lt : F.expOf x < 2 ^ F.e := Nat.mod_lt _ (Nat.two_pow_pos _)
/-- A pattern is its sign, exponent and fraction. -/
theorem pattern_eq (hx : x < 2 ^ F.bits) :
    x = (if F.signOf x then F.sign else 0) + (F.expOf x * 2 ^ F.m + F.fracOf x) := by
  have hsign : F.sign = 2 ^ F.m * 2 ^ F.e := by rw [Fmt.sign, Nat.add_comm, pow_add]
  have hlt : x / F.sign < 2 := by
    refine Nat.div_lt_of_lt_mul ?_
    rwa [Fmt.sign, ← pow_succ, show F.e + F.m + 1 = F.bits by unfold Fmt.bits; omega]
  have hs : (if F.signOf x then F.sign else 0) = F.sign * (x / F.sign) := by
    unfold Fmt.signOf
    obtain h | h := Nat.le_one_iff_eq_zero_or_eq_one.mp (Nat.le_of_lt_succ hlt)
    all_goals simp [h]
  have hlow : F.expOf x * 2 ^ F.m + F.fracOf x = x % F.sign := by
    rw [hsign, Nat.mod_mul, Fmt.expOf, Fmt.fracOf]
    ring
  rw [hs, hlow, Nat.div_add_mod]

/-- A pattern that is neither an infinity nor a NaN is at most the largest finite one, but for its sign. -/
theorem le_maxPat (htop : ¬(F.expOf x = 2 ^ F.e - 1 ∧ F.isE4 = false)) (hnan : ¬(F.isE4 = true ∧ F.expOf x = 15 ∧ F.fracOf x = 7)) :
    F.expOf x * 2 ^ F.m + F.fracOf x ≤ F.maxPat := by
  have hex := expOf_lt (F := F) (x := x)
  have hfr := fracOf_lt (F := F) (x := x)
  cases F <;> simp only [Fmt.e, Fmt.m, Fmt.isE4, Fmt.maxPat, and_true, true_and, Bool.true_eq_false] at * <;> omega

/-- What a pattern stands for: an infinity, a NaN, or a number of which the exponent and the fraction are below the largest. -/
theorem decodeFP_cases (F : Fmt) (x : Nat) :
    (F.isE4 = false ∧ F.expOf x = 2 ^ F.e - 1 ∧ F.fracOf x = 0 ∧ decodeFP F x = .inf (F.signOf x)) ∨ decodeFP F x = .nan ∨
    (F.expOf x * 2 ^ F.m + F.fracOf x ≤ F.maxPat ∧
      ((F.expOf x = 0 ∧ decodeFP F x = .fin (F.signOf x) (F.fracOf x) (1 - F.b - F.m)) ∨
       (F.expOf x ≠ 0 ∧ decodeFP F x = .fin (F.signOf x) (2 ^ F.m + F.fracOf x) ((F.expOf x : Int) - F.b - F.m)))) := by
  have hdec : decodeFP F x = if F.expOf x = 2 ^ F.e - 1 && !F.isE4 then (if F.fracOf x = 0 then .inf (F.signOf x) else .nan)
    else if F.isE4 && F.expOf x = 15 && F.fracOf x = 7 then .nan
    else if F.expOf x = 0 then .fin (F.signOf x) (F.fracOf x) (1 - F.b - F.m)
    else .fin (F.signOf x) (2 ^ F.m + F.fracOf x) ((F.expOf x : Int) - F.b - F.m) := rfl
  rw [hdec]
  simp only [Bool.and_eq_true, decide_eq_true_eq, Bool.not_eq_true', and_assoc]
  by_cases htop : F.expOf x = 2 ^ F.e - 1 ∧ F.isE4 = false
  · rw [if_pos htop]
    by_cases hf : F.fracOf x = 0
    · exact .inl ⟨htop.2, htop.1, hf, if_pos hf⟩
    · exact .inr (.inl (if_neg hf))
  · rw [if_neg htop]
    by_cases hnan : F.isE4 = true ∧ F.expOf x = 15 ∧ F.fracOf x = 7
    · exact .inr (.inl (if_pos hnan))
    · rw [if_neg hnan]
      refine .inr (.inr ⟨le_maxPat htop hnan, ?_⟩)
      by_cases h0 : F.expOf x = 0
      · exact .inl ⟨h0, if_pos h0⟩
      · exact .inr ⟨h0, if_neg h0⟩

end

/-! ## Rounding on the grid -/

/-- A multiple of the grid's step is taken as it is. -/
theorem roundTo_of_le (m : Rnd) (neg : Bool) (mag : Nat) {e q : Int} (h : q ≤ e) :
    roundTo m neg mag e q = (mag * 2 ^ (e - q).toNat, false) := if_pos h

/-- A magnitude whose grid step is its own exponent rounds to itself, and raises nothing. -/
theorem roundFP_of_onGrid (F : Fmt) (m : Rnd) (neg : Bool) {mag pat : Nat} {e : Int} (h0 : mag ≠ 0)
    (hq : max ((Nat.log2 mag : Int) + e - F.m) (1 - F.b - F.m) = e) (hpat : (e - (1 - F.b - F.m)).toNat * 2 ^ F.m + mag = pat)
    (hmax : pat ≤ F.maxPat) : roundFP F m (.fin neg mag e) = ((if neg then F.sign else 0) + pat, 0) := by
  have hround : roundTo m neg mag e e = (mag, false) := by rw [roundTo_of_le m neg mag le_rfl]; simp
  unfold roundFP
  simp [h0, hq, hround, hpat, hmax.not_gt]

/-- Settles O26: a subnormal number stands on the lowest grid, a normal one on the grid of its own exponent. -/
theorem roundingKeepsRepresentableValues : Obligations.RoundingKeepsRepresentableValues := by
  intro F m x hx
  refine ⟨fun hnan => by rw [hnan]; rfl, fun hnan => ?_⟩
  have hpat := pattern_eq hx
  obtain ⟨he4, hex, hfr, hd⟩ | hd | ⟨hmax, ⟨hex, hd⟩ | ⟨hex, hd⟩⟩ := decodeFP_cases F x
  · rw [hd]
    simp only [roundFP, he4]
    conv_rhs => rw [hpat, hex, hfr]
    rfl
  · exact absurd hd hnan
  · have hlow : (if F.signOf x then F.sign else 0) + F.fracOf x = x := by
      conv_rhs => rw [hpat, hex]
      simp
    rw [hd]
    by_cases h0 : F.fracOf x = 0
    · rw [h0] at hlow ⊢
      exact Prod.ext hlow rfl
    · have hlog : Nat.log2 (F.fracOf x) < F.m := (Nat.log2_lt h0).mpr fracOf_lt
      rw [hex, zero_mul, zero_add] at hmax
      rw [roundFP_of_onGrid F m _ h0 (max_eq_right (by omega)) (by simp) hmax, hlow]
  · have hlog : Nat.log2 (2 ^ F.m + F.fracOf x) = F.m := by
      have := fracOf_lt (F := F) (x := x)
      rw [Nat.log2_eq_iff (by have := Nat.two_pow_pos F.m; omega), pow_succ]
      omega
    rw [hd, roundFP_of_onGrid F m _ (pat := F.expOf x * 2 ^ F.m + F.fracOf x) (by have := Nat.two_pow_pos F.m; omega) ?_ ?_ hmax,
      ← hpat]
    · rw [hlog]
      omega
    · rw [show ((F.expOf x : Int) - F.b - F.m - (1 - F.b - F.m)).toNat = F.expOf x - 1 by omega, Nat.sub_mul, one_mul]
      have := Nat.le_mul_of_pos_left (2 ^ F.m) (Nat.pos_of_ne_zero hex)
      omega

end Sys2Proof.Machine
end

section
/-! PROOFS. Bit fields and elements replaced in a vector (R45). -/

namespace Sys2Proof.Machine

/-! ## Bit fields -/

theorem getLsbD_setFld {n : Nat} (x : BitVec n) (lo w v i : Nat) : (setFld x lo w v).getLsbD i =
    if lo ≤ i ∧ i < lo + w then decide (i < n) && v.testBit (i - lo) else x.getLsbD i := by
  have hn : ∀ h : i < n, i - lo < n := fun h => by omega
  unfold setFld
  simp only [BitVec.getLsbD_or, BitVec.getLsbD_and, BitVec.getLsbD_not, BitVec.getLsbD_shiftLeft, BitVec.getLsbD_ofNat,
    Nat.testBit_two_pow_sub_one, Nat.testBit_mod_two_pow]
  by_cases hi : i < n
  · by_cases hlo : lo ≤ i
    · by_cases hw : i < lo + w
      · simp [hi, hlo, hw, hn hi, show i - lo < w by omega, not_lt.mpr hlo]
      · simp [hi, hlo, hw, show ¬ i - lo < w by omega]
    · simp [hi, hlo, lt_of_not_ge hlo]
  · simp [hi, BitVec.getLsbD_of_ge x i (by omega)]

theorem fld_setFld_self {n : Nat} (x : BitVec n) {lo w : Nat} (v : Nat) (h : lo + w ≤ n) : fld (setFld x lo w v) lo w = v % 2 ^ w := by
  have : (setFld x lo w v).extractLsb' lo w = BitVec.ofNat w v := by
    apply BitVec.eq_of_getLsbD_eq
    intro i hi
    rw [BitVec.getLsbD_extractLsb', getLsbD_setFld, BitVec.getLsbD_ofNat, if_pos ⟨by omega, by omega⟩]
    simp [hi, show lo + i < n by omega]
  rw [fld, this, BitVec.toNat_ofNat]
theorem fld_setFld_disjoint {n : Nat} (x : BitVec n) {lo w lo' w' : Nat} (v : Nat) (h : lo + w ≤ lo' ∨ lo' + w' ≤ lo) :
    fld (setFld x lo w v) lo' w' = fld x lo' w' := by
  have : (setFld x lo w v).extractLsb' lo' w' = x.extractLsb' lo' w' := by
    apply BitVec.eq_of_getLsbD_eq
    intro i hi
    rw [BitVec.getLsbD_extractLsb', BitVec.getLsbD_extractLsb', getLsbD_setFld, if_neg (by omega)]
  rw [fld, fld, this]

/-! ## Elements -/

theorem lane_setLane_self {w i : Nat} (v : Vec) (x : Nat) (h : 8 * w * i + 8 * w ≤ 1024) :
    lane w (setLane w v i x) i = x % 2 ^ (8 * w) := fld_setFld_self v x h
theorem lane_setLane_ne {w i j : Nat} (v : Vec) (x : Nat) (h : j ≠ i) : lane w (setLane w v i x) j = lane w v j := by
  refine fld_setFld_disjoint v x ?_
  have hle {k l : Nat} (hkl : k < l) : 8 * w * k + 8 * w ≤ 8 * w * l := by
    rw [← Nat.mul_succ]
    exact Nat.mul_le_mul_left _ hkl
  exact (Nat.lt_or_gt_of_ne h).symm.imp hle hle

/-- One element replaced where `on` says so, with the flags of what replaces it. -/
def placeStep (w : Nat) (on : Nat → Bool) (place : Nat → Nat) (f : Nat → Nat × Flg) (acc : Vec × Flg) (i : Nat) : Vec × Flg :=
  if on i then (setLane w acc.1 (place i) (f i).1, acc.2 ||| (f i).2) else acc

section
variable {w : Nat} {on : Nat → Bool} {place : Nat → Nat} {f : Nat → Nat × Flg}

theorem lane_placeStep_ne (acc : Vec × Flg) {i j : Nat} (h : place i ≠ j) :
    lane w (placeStep w on place f acc i).1 j = lane w acc.1 j := by
  unfold placeStep
  split
  · exact lane_setLane_ne _ _ h.symm
  · rfl
theorem lane_placeStep_self (acc : Vec × Flg) {i : Nat} (h : 8 * w * place i + 8 * w ≤ 1024) :
    lane w (placeStep w on place f acc i).1 (place i) = if on i then (f i).1 % 2 ^ (8 * w) else lane w acc.1 (place i) := by
  unfold placeStep
  split
  · exact lane_setLane_self _ _ h
  · rfl
/-- Elements that none of the places names stay. -/
theorem lane_foldl_placeStep_ne (xs : List Nat) (acc : Vec × Flg) {j : Nat} (h : ∀ i ∈ xs, place i ≠ j) :
    lane w (xs.foldl (placeStep w on place f) acc).1 j = lane w acc.1 j := by
  induction xs generalizing acc with
  | nil => rfl
  | cons i xs ih =>
    rw [List.foldl_cons, ih _ fun k hk => h k (List.mem_cons_of_mem _ hk), lane_placeStep_ne _ (h i List.mem_cons_self)]
/-- Each place takes its element, where places differ. -/
theorem lane_foldl_placeStep_self (xs : List Nat) (hxs : xs.Nodup) (hplace : place.Injective) (acc : Vec × Flg) {i : Nat} (hi : i ∈ xs)
    (h : 8 * w * place i + 8 * w ≤ 1024) : lane w (xs.foldl (placeStep w on place f) acc).1 (place i) =
      if on i then (f i).1 % 2 ^ (8 * w) else lane w acc.1 (place i) := by
  induction xs generalizing acc with
  | nil => exact absurd hi List.not_mem_nil
  | cons k xs ih =>
    obtain ⟨hk, hxs⟩ := List.nodup_cons.mp hxs
    rw [List.foldl_cons]
    obtain rfl | hi := List.mem_cons.mp hi
    · rw [lane_foldl_placeStep_ne xs _ fun j hj hji => hk ((hplace hji : j = i) ▸ hj), lane_placeStep_self acc h]
    · rw [ih hxs _ hi, lane_placeStep_ne _ fun hki => hk ((hplace hki : k = i) ▸ hi)]
theorem flags_foldl_placeStep (xs : List Nat) (acc : Vec × Flg) (k : Nat) :
    (xs.foldl (placeStep w on place f) acc).2.getLsbD k = (acc.2.getLsbD k || xs.any fun i => on i && (f i).2.getLsbD k) := by
  induction xs generalizing acc with
  | nil => simp
  | cons i xs ih =>
    rw [List.foldl_cons, ih, List.any_cons, ← Bool.or_assoc]
    congr 1
    unfold placeStep
    cases on i <;> simp

end

end Sys2Proof.Machine
end

section
/-! PROOFS. Vector compares, select and conversions, the reduction tree and the scan's steps (R56, R60, R131 to R136). -/

namespace Sys2Proof.Machine

/-! ## Select and conversions -/

/-- Element i of a select. -/
def State.selElem (s : State) (ty : Ty) (a b : VReg) (c : PReg) (i : Nat) : Nat :=
  if (s.rP c).getLsbD (i * ty.width) then lane ty.width (s.rV a) i else lane ty.width (s.rV b) i

/-- The vector of a list of elements below 2^(element bits), given by their index. -/
theorem lane_ofLanes_map (ty : Ty) (f : Nat → Nat) {i : Nat} (h : i < 128 / ty.width) :
    lane ty.width (ofLanes ty.width ((List.range (128 / ty.width)).map f)) i = f i % 2 ^ (8 * ty.width) := by
  rw [lane_ofLanes _ _ _ (width_lanes ty i h), List.getD_eq_getElem?_getD, List.getElem?_map, List.getElem?_range h]
  rfl

theorem exec_vsel_elements (s : State) (ty : Ty) (d a b : VReg) (c : PReg) :
    ∃ v, exec (.vsel ty d a b c) s = .next (s.wV d v) ∧ ∀ i < 128 / ty.width, lane ty.width v i = s.selElem ty a b c i := by
  refine ⟨_, rfl, fun i hi => (lane_ofLanes_map ty (s.selElem ty a b c) hi).trans (Nat.mod_eq_of_lt ?_)⟩
  unfold State.selElem
  split <;> exact lane_lt ..

section
variable (s : State) (ty src : Ty) (d a : VReg) (part : BitVec 2) (p : Pred)

/-- Where vcvt puts its i-th element, and the converted element: a narrowing fills the part of vD, a widening reads the part of vA. -/
def cvtPlace (ty src : Ty) (part : BitVec 2) (i : Nat) : Nat := if ty.width ≤ src.width then part.toNat * (128 / src.width) + i else i
def State.cvtElem (s : State) (ty src : Ty) (a : VReg) (part : BitVec 2) (i : Nat) : Nat × Flg :=
  convert (fmtRnd s.lat.fmt) (fmtSat s.lat.fmt) src ty
    (lane src.width (s.rV a) (if ty.width ≤ src.width then i else part.toNat * (128 / ty.width) + i))

theorem exec_vcvt : exec (.vcvt ty src d a part p) s = .next (s.wVF d ((List.range (128 / max src.width ty.width)).foldl
    (placeStep ty.width (fun i => enabled ty.width (s.lat.pred p) (cvtPlace ty src part i)) (cvtPlace ty src part)
      (s.cvtElem ty src a part)) (s.rV d, 0))) := by
  show execVcvt ty src d a part p s = _
  unfold execVcvt placeStep cvtPlace State.cvtElem
  by_cases h : ty.width ≤ src.width
  · simp only [if_pos h]
  · simp only [if_neg h]

theorem cvtPlace_injective : (cvtPlace ty src part).Injective := by
  intro i j h
  unfold cvtPlace at h
  split at h <;> omega
theorem width_eq_two_pow : ∃ k, k ≤ 3 ∧ ty.width = 2 ^ k := by cases ty <;> decide
theorem cvtPlace_lt {i : Nat} (hpart : part.toNat < max (src.width / ty.width) (ty.width / src.width))
    (hi : i < 128 / max src.width ty.width) : cvtPlace ty src part i < 128 / ty.width := by
  obtain ⟨j, hj, hty⟩ := width_eq_two_pow ty
  obtain ⟨k, hk, hsrc⟩ := width_eq_two_pow src
  have hcount {m : Nat} (hm : m ≤ 3) : 128 / 2 ^ m = 2 ^ (7 - m) := Nat.pow_div (x := 2) (m := 7) (n := m) (by omega) (by decide)
  unfold cvtPlace
  split
  · next hle =>
    rw [max_eq_left hle, hsrc, hcount hk] at hi
    rw [hty, hsrc, Nat.pow_le_pow_iff_right (by decide)] at hle
    have hratio : 2 ^ j / 2 ^ k ≤ 2 ^ (k - j) :=
      (Nat.div_le_of_le_mul (by rw [mul_one]; exact Nat.pow_le_pow_right (by decide) hle)).trans Nat.one_le_two_pow
    rw [hty, hsrc, Nat.pow_div hle (by decide), max_eq_left hratio] at hpart
    rw [hty, hsrc, hcount hj, hcount hk]
    calc part.toNat * 2 ^ (7 - k) + i < (part.toNat + 1) * 2 ^ (7 - k) := by rw [Nat.succ_mul]; omega
      _ ≤ 2 ^ (k - j) * 2 ^ (7 - k) := Nat.mul_le_mul_right _ hpart
      _ = 2 ^ (7 - j) := by rw [← pow_add]; congr 1; omega
  · next hle => rwa [max_eq_right (Nat.le_of_not_le hle)] at hi

/-- The elements of a conversion: those of its places, the others, and the flags. -/
theorem exec_vcvt_elements (hpart : part.toNat < max (src.width / ty.width) (ty.width / src.width)) :
    ∃ v fl, exec (.vcvt ty src d a part p) s = .next (s.wVF d (v, fl)) ∧
      (∀ i < 128 / max src.width ty.width, lane ty.width v (cvtPlace ty src part i) =
        if enabled ty.width (s.lat.pred p) (cvtPlace ty src part i) then (s.cvtElem ty src a part i).1 % 2 ^ (8 * ty.width)
        else lane ty.width (s.rV d) (cvtPlace ty src part i)) ∧
      (∀ j, (∀ i < 128 / max src.width ty.width, cvtPlace ty src part i ≠ j) → lane ty.width v j = lane ty.width (s.rV d) j) ∧
      ∀ k, fl.getLsbD k = (List.range (128 / max src.width ty.width)).any fun i =>
        enabled ty.width (s.lat.pred p) (cvtPlace ty src part i) && (s.cvtElem ty src a part i).2.getLsbD k := by
  refine ⟨_, _, exec_vcvt s ty src d a part p, fun i hi => ?_, fun j hj => ?_, fun k => ?_⟩
  · exact lane_foldl_placeStep_self _ List.nodup_range (cvtPlace_injective ty src part) _ (List.mem_range.mpr hi)
      (width_lanes ty _ (cvtPlace_lt ty src part hpart hi))
  · exact lane_foldl_placeStep_ne _ _ fun i hi => hj i (List.mem_range.mp hi)
  · rw [flags_foldl_placeStep]
    simp

end

/-! ## One element converted (R56) -/

section
variable (m : Rnd) (sat : Bool) (src ty : Ty) (x : Nat)

theorem convert_fp_fp (hs : (src.isFp || src.isF8) = true) (ht : (ty.isFp || ty.isF8) = true) : convert m sat src ty x =
    cvtToFP (tyFmt ty) m (sat && decide (ty.width ≤ src.width)) (decodeFP (tyFmt src) x) := by
  simp [convert, hs, ht]
theorem convert_int_fp (hs : (src.isFp || src.isF8) = false) (ht : (ty.isFp || ty.isF8) = true) : convert m sat src ty x =
    cvtToFP (tyFmt ty) m sat (.ofInt (elemInt src x) 0) := by
  simp [convert, hs, ht]
theorem convert_fp_int (hs : (src.isFp || src.isF8) = true) (ht : (ty.isFp || ty.isF8) = false) : convert m sat src ty x =
    (wrap (8 * ty.width) (cvtToInt (tyLo ty) (tyHi ty) m (decodeFP (tyFmt src) x)).1,
      (cvtToInt (tyLo ty) (tyHi ty) m (decodeFP (tyFmt src) x)).2) := by
  simp [convert, hs, ht]
theorem convert_int_int (hs : (src.isFp || src.isF8) = false) (ht : (ty.isFp || ty.isF8) = false) : convert m sat src ty x =
    if src.width < ty.width || !sat then (wrap (8 * ty.width) (elemInt src x), 0)
    else (wrap (8 * ty.width) (clampTy ty (elemInt src x)), if clampTy ty (elemInt src x) = elemInt src x then 0 else fSF) := by
  simp [convert, hs, ht]

theorem tyLo_le_tyHi : tyLo ty ≤ tyHi ty := by cases ty <;> decide
theorem clampTy_of_lt {i : Int} (h : i < tyLo ty) : clampTy ty i = tyLo ty := if_pos h
theorem clampTy_of_gt {i : Int} (h : tyHi ty < i) : clampTy ty i = tyHi ty := by
  have := tyLo_le_tyHi ty
  rw [clampTy, if_neg (by omega), if_pos h]
theorem clampTy_of_mem {i : Int} (hlo : tyLo ty ≤ i) (hhi : i ≤ tyHi ty) : clampTy ty i = i := by
  rw [clampTy, if_neg (by omega), if_neg (by omega)]

theorem cvtToInt_fin (lo hi : Int) (neg : Bool) (mag : Nat) (e : Int) : cvtToInt lo hi m (.fin neg mag e) =
    if (roundInt m neg mag e).1 < lo then (lo, fNV ||| fNX) else if hi < (roundInt m neg mag e).1 then (hi, fNV ||| fNX)
    else ((roundInt m neg mag e).1, if (roundInt m neg mag e).2 then fNX else 0) := rfl

/-- A floating-point value to an integer: zero for a NaN, and the nearest bound beyond the range. -/
theorem convert_fp_int_cases (hs : (src.isFp || src.isF8) = true) (ht : (ty.isFp || ty.isF8) = false) :
    let y := decodeFP (tyFmt src) x
    let word (i : Int) : Nat := wrap (8 * ty.width) i
    (y = .nan → convert m sat src ty x = (0, fNV)) ∧
    (∀ neg, y = .inf neg → convert m sat src ty x = (word (if neg then tyLo ty else tyHi ty), fNV ||| fNX)) ∧
    ∀ neg mag e, y = .fin neg mag e →
      let i := (roundInt m neg mag e).1
      (i < tyLo ty → convert m sat src ty x = (word (tyLo ty), fNV ||| fNX)) ∧
      (tyHi ty < i → convert m sat src ty x = (word (tyHi ty), fNV ||| fNX)) ∧
      (tyLo ty ≤ i → i ≤ tyHi ty → convert m sat src ty x = (word i, if (roundInt m neg mag e).2 then fNX else 0)) := by
  have hle := tyLo_le_tyHi ty
  intro y word
  rw [convert_fp_int m sat src ty x hs ht]
  refine ⟨fun hy => ?_, fun neg hy => ?_, fun neg mag e hy => ?_⟩
  · rw [show decodeFP (tyFmt src) x = .nan from hy]
    simp [cvtToInt, wrap]
  · rw [show decodeFP (tyFmt src) x = .inf neg from hy]
    rfl
  · rw [show decodeFP (tyFmt src) x = .fin neg mag e from hy, cvtToInt_fin]
    refine ⟨fun h => by rw [if_pos h], fun h => by rw [if_neg (by omega), if_pos h], fun hlo hhi => ?_⟩
    rw [if_neg (by omega), if_neg (by omega)]

/-- An integer to an integer: modulo 2^(element bits), or clamped where a narrowing saturates. -/
theorem convert_int_int_cases (hs : (src.isFp || src.isF8) = false) (ht : (ty.isFp || ty.isF8) = false) :
    let z := elemInt src x
    let word (i : Int) : Nat := wrap (8 * ty.width) i
    (src.width < ty.width ∨ sat = false → convert m sat src ty x = (word z, 0)) ∧
    (ty.width ≤ src.width → sat = true → (z < tyLo ty → convert m sat src ty x = (word (tyLo ty), fSF)) ∧
      (tyHi ty < z → convert m sat src ty x = (word (tyHi ty), fSF)) ∧
      (tyLo ty ≤ z → z ≤ tyHi ty → convert m sat src ty x = (word z, 0))) := by
  intro z word
  rw [convert_int_int m sat src ty x hs ht]
  refine ⟨fun h => if_pos (by simpa using h), fun hw hsat => ?_⟩
  rw [if_neg (by simp [hsat, hw])]
  refine ⟨fun h => ?_, fun h => ?_, fun hlo hhi => ?_⟩
  · rw [clampTy_of_lt ty h, if_neg (ne_of_gt h)]
  · rw [clampTy_of_gt ty h, if_neg (ne_of_lt h)]
  · rw [clampTy_of_mem ty hlo hhi, if_pos rfl]

end

/-! ## The reduction tree (R60) -/

/-- A level of the tree, from the level below it. -/
def treePair (op : Nat → Nat → Nat × Flg) (x : Nat → Nat) (j : Nat) : Nat := (op (x (2 * j)) (x (2 * j + 1))).1

section
variable (op : Nat → Nat → Nat × Flg)

theorem range_two_mul_succ (n : Nat) : List.range (2 * (n + 1)) = 0 :: 1 :: (List.range (2 * n)).map (· + 2) := by
  rw [show 2 * (n + 1) = 2 * n + 1 + 1 by ring, List.range_succ_eq_map, List.range_succ_eq_map]
  simp [Function.comp_def]

theorem treeStep_range (n : Nat) (x : Nat → Nat) : (treeStep op ((List.range (2 * n)).map x)).1 = (List.range n).map (treePair op x) ∧
    ∀ b, (treeStep op ((List.range (2 * n)).map x)).2.getLsbD b =
      (List.range n).any fun j => (op (x (2 * j)) (x (2 * j + 1))).2.getLsbD b := by
  induction n generalizing x with
  | zero => exact ⟨rfl, fun b => by simp [treeStep]⟩
  | succ n ih =>
    obtain ⟨hval, hfl⟩ := ih fun i => x (i + 2)
    have hstep : treeStep op ((List.range (2 * (n + 1))).map x) =
        ((op (x 0) (x 1)).1 :: (treeStep op ((List.range (2 * n)).map fun i => x (i + 2))).1,
          (op (x 0) (x 1)).2 ||| (treeStep op ((List.range (2 * n)).map fun i => x (i + 2))).2) := by
      rw [range_two_mul_succ, List.map_cons, List.map_cons, List.map_map]
      rfl
    rw [hstep, List.range_succ_eq_map]
    refine ⟨?_, fun b => ?_⟩
    · rw [hval, List.map_cons, List.map_map]
      rfl
    · rw [BitVec.getLsbD_or, hfl, List.any_cons, List.any_map]
      rfl

/-- The tree over 2^k elements: its root, and the flags of every pair of every level. -/
theorem treeRed_range (k : Nat) (x : Nat → Nat) : (treeRed op k ((List.range (2 ^ k)).map x)).1 = (treePair op)^[k] x 0 ∧
    ∀ b, (treeRed op k ((List.range (2 ^ k)).map x)).2.getLsbD b = (List.range k).any fun l => (List.range (2 ^ k / 2 ^ (l + 1))).any fun j =>
      (op ((treePair op)^[l] x (2 * j)) ((treePair op)^[l] x (2 * j + 1))).2.getLsbD b := by
  induction k generalizing x with
  | zero => exact ⟨rfl, fun b => by simp [treeRed]⟩
  | succ k ih =>
    obtain ⟨hstep, hfl⟩ := treeStep_range op (2 ^ k) x
    obtain ⟨hroot, hrest⟩ := ih (treePair op x)
    have hred : treeRed op (k + 1) ((List.range (2 ^ (k + 1))).map x) =
        ((treeRed op k ((List.range (2 ^ k)).map (treePair op x))).1,
          (treeStep op ((List.range (2 * 2 ^ k)).map x)).2 ||| (treeRed op k ((List.range (2 ^ k)).map (treePair op x))).2) := by
      rw [← hstep, pow_succ']
      rfl
    have hhalf (l : Nat) : 2 ^ (k + 1) / 2 ^ (l + 1 + 1) = 2 ^ k / 2 ^ (l + 1) := by
      rw [pow_succ' 2 k, pow_succ' 2 (l + 1), Nat.mul_div_mul_left _ _ (by decide)]
    have hfirst : 2 ^ (k + 1) / 2 ^ (0 + 1) = 2 ^ k := by rw [pow_succ, Nat.zero_add, pow_one, Nat.mul_div_cancel _ (by decide)]
    rw [hred, List.range_succ_eq_map]
    refine ⟨hroot, fun b => ?_⟩
    rw [BitVec.getLsbD_or, hfl, hrest, List.any_cons, List.any_map]
    simp only [Function.comp_def, Nat.succ_eq_add_one, hhalf, hfirst, Function.iterate_succ_apply, Function.iterate_zero_apply]

end

/-! ## The steps of a scan (R60) -/

/-- A step at distance d: the elements below it as they were (log 55), the others with the element that stands d before them. -/
def scanPass (op : Nat → Nat → Nat × Flg) (d : Nat) (x : Nat → Nat) (i : Nat) : Nat := if i < d then x i else (op (x (i - d)) (x i)).1
/-- k steps from distance 2^m on. -/
def scanPasses (op : Nat → Nat → Nat × Flg) (m k : Nat) (x : Nat → Nat) : Nat → Nat :=
  (List.range' m k).foldl (fun x l => scanPass op (2 ^ l) x) x

section
variable (op : Nat → Nat → Nat × Flg) (n : Nat)

theorem scanPasses_succ (m k : Nat) (x : Nat → Nat) : scanPasses op m (k + 1) x = scanPasses op (m + 1) k (scanPass op (2 ^ m) x) := by
  rw [scanPasses, List.range'_succ]
  rfl

theorem zipWith_drop_range (d : Nat) (x : Nat → Nat) : List.zipWith op ((List.range n).map x) (((List.range n).map x).drop d) =
    (List.range (n - d)).map fun i => op (x i) (x (i + d)) := by
  apply List.ext_getElem
  · simp
  · intro i h1 h2
    simp [Nat.add_comm]

theorem scanStep_range (d : Nat) (x : Nat → Nat) : (scanStep op d ((List.range n).map x)).1 = (List.range n).map (scanPass op d x) ∧
    ∀ b, (scanStep op d ((List.range n).map x)).2.getLsbD b =
      (List.range n).any fun j => decide (d ≤ j) && (op (x (j - d)) (x j)).2.getLsbD b := by
  unfold scanStep
  rw [zipWith_drop_range]
  refine ⟨?_, fun b => ?_⟩
  · apply List.ext_getElem
    · simp; omega
    · intro i h1 h2
      simp only [List.length_map, List.length_range] at h2
      by_cases hi : i < d
      · rw [List.getElem_append_left (by simp; omega)]
        simp [scanPass, hi]
      · rw [List.getElem_append_right (by simp; omega)]
        simp [scanPass, hi, show min d n = d by omega, show i - d + d = i by omega]
  · rw [foldl_or_bit, List.any_map, Bool.eq_iff_iff]
    simp only [BitVec.ofNat_eq_ofNat, BitVec.getLsbD_zero, Bool.false_or, List.any_eq_true, List.mem_range, Function.comp_apply,
      Bool.and_eq_true, decide_eq_true_eq]
    constructor
    · rintro ⟨i, hi, h⟩
      exact ⟨i + d, by omega, by omega, by simpa using h⟩
    · rintro ⟨j, hj, hd, h⟩
      exact ⟨j - d, by omega, by rwa [Nat.sub_add_cancel hd]⟩

/-- Every step of a scan, and the flags of every pair of every step. -/
theorem scanAll_range (k m : Nat) (x : Nat → Nat) :
    (scanAll op k (2 ^ m) ((List.range n).map x)).1 = (List.range n).map (scanPasses op m k x) ∧
    ∀ b, (scanAll op k (2 ^ m) ((List.range n).map x)).2.getLsbD b = (List.range k).any fun l => (List.range n).any fun j =>
      decide (2 ^ (m + l) ≤ j) && (op (scanPasses op m l x (j - 2 ^ (m + l))) (scanPasses op m l x j)).2.getLsbD b := by
  induction k generalizing m x with
  | zero => exact ⟨rfl, fun b => by simp [scanAll]⟩
  | succ k ih =>
    obtain ⟨hstep, hfl⟩ := scanStep_range op n (2 ^ m) x
    obtain ⟨hval, hrest⟩ := ih (m + 1) (scanPass op (2 ^ m) x)
    have hall : scanAll op (k + 1) (2 ^ m) ((List.range n).map x) =
        ((scanAll op k (2 ^ (m + 1)) ((List.range n).map (scanPass op (2 ^ m) x))).1,
          (scanStep op (2 ^ m) ((List.range n).map x)).2 |||
            (scanAll op k (2 ^ (m + 1)) ((List.range n).map (scanPass op (2 ^ m) x))).2) := by
      rw [← hstep, pow_succ']
      rfl
    rw [hall]
    refine ⟨by rw [hval, scanPasses_succ], fun b => ?_⟩
    rw [BitVec.getLsbD_or, hfl, hrest, List.range_succ_eq_map, List.any_cons, List.any_map]
    simp only [Function.comp_def, Nat.succ_eq_add_one, scanPasses_succ, ← Nat.add_assoc, Nat.add_right_comm m 1]
    rfl

end

/-! ## Reductions and scans of a vector -/

section
variable (s : State) (ty : Ty) (d a : VReg) (p : Pred) (op : Nat → Nat → Nat × Flg) (ident : Nat)

/-- What element i brings to a reduction or a scan. -/
def State.partElem (s : State) (ty : Ty) (a : VReg) (p : Pred) (ident i : Nat) : Nat :=
  if enabled ty.width (s.lat.pred p) i then lane ty.width (s.rV a) i else ident

theorem two_pow_treeDepth : 128 / ty.width = 2 ^ treeDepth ty.width := by cases ty <;> decide

theorem vreduce_elements : ∃ v fl, s.vreduce ty d a p op ident = s.wVF d (v, fl) ∧
    lane ty.width v 0 = (treePair op)^[treeDepth ty.width] (s.partElem ty a p ident) 0 % 2 ^ (8 * ty.width) ∧
    (∀ j, 1 ≤ j → j < 128 / ty.width → lane ty.width v j = 0) ∧
    ∀ b, fl.getLsbD b = (List.range (treeDepth ty.width)).any fun l => (List.range (128 / ty.width / 2 ^ (l + 1))).any fun j =>
      (op ((treePair op)^[l] (s.partElem ty a p ident) (2 * j)) ((treePair op)^[l] (s.partElem ty a p ident) (2 * j + 1))).2.getLsbD b := by
  have hpos : 0 < 128 / ty.width := by rw [two_pow_treeDepth]; exact Nat.two_pow_pos _
  obtain ⟨hroot, hfl⟩ := treeRed_range op (treeDepth ty.width) (s.partElem ty a p ident)
  rw [← two_pow_treeDepth] at hroot hfl
  refine ⟨_, _, rfl, ?_, fun j hj hlt => ?_, hfl⟩
  · rw [lane_ofLanes _ _ _ (width_lanes ty 0 hpos), ← hroot]
    rfl
  · rw [lane_ofLanes _ _ _ (width_lanes ty j hlt), List.getD_eq_default _ _ (by simpa using hj), Nat.zero_mod]

theorem vscan_elements : ∃ v fl, s.vscan ty d a p op ident = s.wVF d (v, fl) ∧
    (∀ j < 128 / ty.width, lane ty.width v j =
      scanPasses op 0 (treeDepth ty.width) (s.partElem ty a p ident) j % 2 ^ (8 * ty.width)) ∧
    ∀ b, fl.getLsbD b = (List.range (treeDepth ty.width)).any fun l => (List.range (128 / ty.width)).any fun j =>
      decide (2 ^ l ≤ j) && (op (scanPasses op 0 l (s.partElem ty a p ident) (j - 2 ^ l))
        (scanPasses op 0 l (s.partElem ty a p ident) j)).2.getLsbD b := by
  obtain ⟨hval, hfl⟩ := scanAll_range op (128 / ty.width) (treeDepth ty.width) 0 (s.partElem ty a p ident)
  refine ⟨_, _, rfl, fun j hj => ?_, fun b => ?_⟩
  · rw [← lane_ofLanes_map ty _ hj, ← hval]
    rfl
  · have hb := hfl b
    simp only [Nat.zero_add] at hb
    exact hb

end

/-- Settles O22: what each instruction writes, from the laws of its operation. -/
theorem vectorCompareAndReduceResults : Obligations.VectorCompareAndReduceResults := by
  intro s ty src d a b q c p part planes
  refine ⟨rfl, rfl, rfl, rfl, exec_vsel_elements s ty d a b c, fun hpart => ?_, fun m sat x => ?_, rfl, rfl, ?_⟩
  · obtain ⟨v, fl, hexec, hin, hout, hfl⟩ := exec_vcvt_elements s ty src d a part p hpart
    exact ⟨v, fl, hexec, hin, fun j _ => hout j, hfl⟩
  · exact ⟨convert_fp_fp m sat src ty x, convert_int_fp m sat src ty x, convert_fp_int_cases m sat src ty x,
      convert_int_int_cases m sat src ty x⟩
  · intro w n depth el level steps reduces scans sign inf null least greatest
    have hnull : idAdd ty = null := by cases ty <;> rfl
    have hleast : idMax ty = least := by cases ty <;> rfl
    have hgreatest : idMin ty = greatest := by cases ty <;> rfl
    have hlevel (op : Nat → Nat → Nat × Flg) (id l : Nat) : level op id l = (treePair op)^[l] (s.partElem ty a p id) :=
      (List.foldl_const (treePair op) _ _).trans (by rw [List.length_range]; rfl)
    have hsteps (op : Nat → Nat → Nat × Flg) (id l : Nat) : steps op id l = scanPasses op 0 l (s.partElem ty a p id) := by
      rw [scanPasses, ← List.range_eq_range']
      rfl
    have hreduces {i : Instr} {op : Nat → Nat → Nat × Flg} {id : Nat} (h : exec i s = .next (s.vreduce ty d a p op id)) :
        reduces i op id := by
      obtain ⟨v, fl, hv, hlanes, hzero, hfl⟩ := vreduce_elements s ty d a p op id
      refine ⟨v, fl, h.trans (congrArg _ hv), ?_, hzero, fun b => ?_⟩
      · rw [hlevel]; exact hlanes
      · simp only [hlevel]; exact hfl b
    have hscans {i : Instr} {op : Nat → Nat → Nat × Flg} {id : Nat} (h : exec i s = .next (s.vscan ty d a p op id)) :
        scans i op id := by
      obtain ⟨v, fl, hv, hlanes, hfl⟩ := vscan_elements s ty d a p op id
      refine ⟨v, fl, h.trans (congrArg _ hv), fun j hj => ?_, fun b => ?_⟩
      · rw [hsteps]; exact hlanes j hj
      · simp only [hsteps]; exact hfl b
    rw [← hnull, ← hleast, ← hgreatest]
    exact ⟨hreduces rfl, hreduces rfl, hreduces rfl, hscans rfl, hscans rfl⟩

end Sys2Proof.Machine
end

section
/-! PROOFS. The bytes of a line: written one after another, kept in memory, and read by a load at a view (R45, R156, R157, R205). -/

namespace Sys2Proof.Machine

/-! ## Bytes merged into a line -/

/-- The last value that a list of writes gives a byte, or the old one. -/
def lastByte (bs : List (Nat × Byte)) (o : Nat) (old : Byte) : Byte :=
  match bs.reverse.find? (fun b => b.1 == o) with
  | some b => b.2
  | none => old

@[simp] theorem lastByte_nil (o : Nat) (old : Byte) : lastByte [] o old = old := rfl
@[simp] theorem lastByte_concat (bs : List (Nat × Byte)) (b : Nat × Byte) (o : Nat) (old : Byte) :
    lastByte (bs ++ [b]) o old = if b.1 = o then b.2 else lastByte bs o old := by
  unfold lastByte
  rw [List.reverse_append]
  by_cases h : b.1 = o <;> simp [h]

theorem mergeLine_concat (v : Vec) (bs : List (Nat × Byte)) (b : Nat × Byte) :
    mergeLine v (bs ++ [b]) = setFld (mergeLine v bs) (8 * b.1) 8 b.2.toNat := by
  have hbyte : b.2.setWidth 1024 = BitVec.ofNat 1024 (b.2.toNat % 2 ^ 8) := by
    rw [Nat.mod_eq_of_lt b.2.isLt, BitVec.ofNat_toNat]
  simp only [mergeLine, setFld, List.foldl_append, List.foldl_cons, List.foldl_nil, hbyte]
  rfl
theorem lineByte_setFld (v : Vec) (b : Byte) {i o : Nat} (ho : o < 128) :
    lineByte (setFld v (8 * i) 8 b.toNat) o = if i = o then b else lineByte v o := by
  apply BitVec.eq_of_toNat_eq
  split
  · next h =>
    subst h
    exact (fld_setFld_self v b.toNat (by omega)).trans (Nat.mod_eq_of_lt b.isLt)
  · exact fld_setFld_disjoint v b.toNat (by omega)
/-- A merged line holds the last value listed for each byte. -/
theorem lineByte_mergeLine (v : Vec) (bs : List (Nat × Byte)) {o : Nat} (ho : o < 128) :
    lineByte (mergeLine v bs) o = lastByte bs o (lineByte v o) := by
  induction bs using List.reverseRecOn with
  | nil => rfl
  | append_singleton bs b ih => rw [mergeLine_concat, lineByte_setFld _ _ ho, ih, lastByte_concat]

/-- Memory holds the last value listed for each byte, where keys differ. -/
theorem rdByte_writes {key : Nat → Nat} (bs : List (Nat × Byte)) (m : List Host.Cell) {o : Nat} (h : ∀ b ∈ bs, key b.1 = key o → b.1 = o) :
    rdByte (bs.foldl (fun m b => wrByte m (key b.1) b.2) m) (key o) = lastByte bs o (rdByte m (key o)) := by
  induction bs using List.reverseRecOn with
  | nil => rfl
  | append_singleton bs b ih =>
    simp only [List.mem_append, List.mem_singleton] at h
    rw [List.foldl_append, List.foldl_cons, List.foldl_nil, lastByte_concat]
    by_cases hb : b.1 = o
    · rw [if_pos hb, hb, rdByte_wrByte_self]
    · rw [if_neg hb, rdByte_wrByte_ne _ _ fun hk => hb (h b (.inr rfl) hk.symm), ih fun x hx => h x (.inl hx)]

/-! ## The bytes of a line in memory -/

theorem leNat_eq_packed (bs : List Byte) :
    leNat bs = (bs.map BitVec.toNat).foldr (fun x acc => x % 2 ^ (8 * 1) + 2 ^ (8 * 1) * acc) 0 := by
  induction bs with
  | nil => rfl
  | cons b bs ih =>
    rw [leNat, List.map_cons, List.foldr_cons, ← ih, Nat.mod_eq_of_lt b.isLt]
    rfl
theorem lineByte_lineOf (bs : List Byte) {o : Nat} (ho : o < 128) : lineByte (lineOf bs) o = bs.getD o 0 := by
  apply BitVec.eq_of_toNat_eq
  have h := lane_ofLanes 1 (bs.map BitVec.toNat) o (by omega)
  rw [lane, ofLanes, ← leNat_eq_packed] at h
  refine h.trans ?_
  rw [show (0 : Nat) = BitVec.toNat (0 : Byte) from rfl, List.getD_map]
  exact Nat.mod_eq_of_lt (BitVec.isLt _)

section
variable {s : State} {l : Nat}

theorem line_lt_hostKey (hwin : isWin l = false) (hhost : isHost l = false) : l * 128 < Config.hostKey := by
  simpa [isHost, hwin] using hhost
/-- The bytes of a line of a die's own memory lie one after another. -/
theorem backKey_line (s : State) (hwin : isWin l = false) (hhost : isHost l = false) :
    ∃ k, ∀ o < 128, s.backKey (l * 128 + o) = k + o := by
  have hlt := line_lt_hostKey hwin hhost
  rw [show Config.hostKey = 128 * 2 ^ 53 from rfl] at hlt
  have hkey {o : Nat} (ho : o < 128) : ¬ Config.hostKey ≤ l * 128 + o := by
    rw [show Config.hostKey = 128 * 2 ^ 53 from rfl]
    omega
  have hpage {o : Nat} (ho : o < 128) : (l * 128 + o) / 65536 = l / 512 := by omega
  cases hb : sget 0 s.backing (l / 512) with
  | zero => exact ⟨l * 128, fun o ho => by simp only [State.backKey, if_neg (hkey ho), hpage ho, hb]⟩
  | succ h =>
    refine ⟨Config.hostKey + h * 65536 + l * 128 % 65536, fun o ho => ?_⟩
    simp only [State.backKey, if_neg (hkey ho), hpage ho, hb]
    omega
theorem byteKey_of_notWin (s : State) (hwin : isWin l = false) (i : Nat) : s.byteKey l i = some (s.backKey (l * 128 + i)) := by
  simp [State.byteKey, hwin]
theorem kept_of_notWin (s : State) (hwin : isWin l = false) (bs : List (Nat × Byte)) : s.kept l bs = bs := by
  simp [State.kept, byteKey_of_notWin s hwin]
theorem lineByte_storedLine (s : State) (hwin : isWin l = false) {o : Nat} (ho : o < 128) :
    lineByte (s.storedLine l) o = rdByte s.mem (s.backKey (l * 128 + o)) := by
  unfold State.storedLine
  simp only [byteKey_of_notWin s hwin]
  rw [lineByte_lineOf _ ho, List.getD_eq_getElem?_getD, List.getElem?_map, List.getElem?_range ho]
  rfl
theorem homeLine_of_noCxl (h : sget none s.cxl l = none) : s.homeLine l = s.storedLine l := by
  unfold State.homeLine
  rw [h]

end

/-! ## What a load reads -/

/-- A context's view of a line is its gate's bytes merged over memory's. -/
theorem lineFor_eq_mergeLine (s : State) (n l : Nat) : s.lineFor n l = mergeLine (s.lineNow l) (((s.ctx n).gateOn l).flatMap (·.bytes)) := by
  unfold State.lineFor mergeLine
  rw [List.foldl_flatMap]
theorem lineFor_of_empty {s : State} {n : Nat} (l : Nat) (h : (s.ctx n).gate = []) : s.lineFor n l = s.lineNow l := by
  simp [State.lineFor, Ctx.gateOn, h]

theorem segs_oneLine {va : VA} {len : Nat} (h1 : 1 ≤ len) (h2 : fld va 0 7 + len ≤ 128) : segs va len = [(va, len)] := by
  unfold segs
  dsimp only
  rw [show (fld va 0 7 + len + 127) / 128 = 1 by omega, List.range_one, List.map_singleton, if_pos rfl, min_eq_left (by omega)]
/-- A load that stays in one line of memory takes its bytes there. -/
theorem readVia_line {s : State} {n : Nat} {asid : BitVec 16} {va : VA} {len : Nat} (v : BitVec 3) {r : Reach} (hspad : isSpad va = false)
    (h1 : 1 ≤ len) (h2 : fld va 0 7 + len ≤ 128) (hr : s.place asid va .read = .ok r) (hreg : r.reg = none) :
    s.readVia n asid va len v = (List.range len).map fun i => lineByte (loadLine r.hf v (s.lineFor n r.line)) (fld va 0 7 + i) := by
  unfold State.readVia
  rw [segs_oneLine h1 h2, List.flatMap_singleton]
  simp only [hspad, hr, hreg, Bool.false_eq_true, if_false]

theorem loadLine_of_full {hf : BitVec 2} {v : BitVec 3} (x : Vec) (h : served hf v = none) : loadLine hf v x = x := by
  simp [loadLine, widenLine, viewLine, h]
theorem served_full (hf : BitVec 2) : served hf 0 = none := by
  unfold served
  cases homeFmt hf <;> rfl
theorem homeFmt_width {hf : BitVec 2} {h : Fmt} (hh : homeFmt hf = some h) : 8 * (h.bits / 8) = h.bits ∧ h.bits / 8 ∣ 128 := by
  unfold homeFmt at hh
  split at hh <;> cases hh <;> decide
theorem homeFmt_of_served {hf : BitVec 2} {v : BitVec 3} {h f : Fmt} (hs : served hf v = some (h, f)) : homeFmt hf = some h := by
  unfold served at hs
  split at hs
  · next h' f' hh hv =>
    split at hs
    · cases hs
    · split at hs <;> cases hs
      exact hh
  · cases hs
theorem lane_ofLanes_lanes {w : Nat} (hw : w ∣ 128) (f : Nat → Nat) (x : Vec) {i : Nat} (hi : i < 128 / w) :
    lane w (ofLanes w ((lanes w x).map f)) i = f (lane w x i) % 2 ^ (8 * w) := by
  have hle : 8 * w * i + 8 * w ≤ 1024 := by
    have h := Nat.mul_le_mul_left w (Nat.succ_le_of_lt hi)
    rw [Nat.mul_div_cancel' hw, Nat.mul_succ] at h
    rw [Nat.mul_assoc]
    omega
  rw [lane_ofLanes _ _ _ hle, lanes, List.map_map, List.getD_eq_getElem?_getD, List.getElem?_map, List.getElem?_range hi]
  rfl
/-- A load at a served view rounds each element to the view and widens it again. -/
theorem lane_loadLine {hf : BitVec 2} {v : BitVec 3} (x : Vec) {h f : Fmt} (hs : served hf v = some (h, f)) {i : Nat}
    (hi : i < 128 / (h.bits / 8)) : lane (h.bits / 8) (loadLine hf v x) i =
      viewWiden h f (viewRound h f (lane (h.bits / 8) x i) % 2 ^ h.bits) % 2 ^ h.bits := by
  obtain ⟨hbits, hdvd⟩ := homeFmt_width (homeFmt_of_served hs)
  simp only [loadLine, widenLine, viewLine, hs]
  rw [lane_ofLanes_lanes hdvd _ _ hi, lane_ofLanes_lanes hdvd _ _ hi, hbits]

end Sys2Proof.Machine
end

section
/-! PROOFS. Stores and atomics on a line of ordinary memory that the core's own L1 holds exclusively, or that nothing holds (R167, R169,
R189, R191, R313). -/

namespace Sys2Proof.Machine

/-! ## Entries of a sparse store -/

theorem sget_of_absent {α : Type} (d : α) {m : SMap α} {k : Nat} (h : k ∉ m.map (·.1)) : sget d m k = d := by
  induction m with
  | nil => rfl
  | cons e m ih =>
    rw [List.map_cons, List.mem_cons, not_or] at h
    rw [sget, if_neg (Ne.symm h.1), ih h.2]
theorem findSome_sins {α β : Type} (m : SMap α) (k : Nat) (v : α) (f : Nat × α → Option β) (h : ∀ e ∈ m, f e = none) :
    (sins k v m).findSome? f = f (k, v) := by
  induction m with
  | nil => simp [sins]
  | cons e m ih =>
    have hrest := ih fun x hx => h x (List.mem_cons_of_mem _ hx)
    unfold sins
    split
    · rw [List.findSome?_cons, List.findSome?_eq_none_iff.mpr h]
      cases f (k, v) <;> rfl
    · rw [List.findSome?_cons, h e List.mem_cons_self, hrest]
/-- What only the written entry gives is found there. -/
theorem findSome_sput {α β : Type} [DecidableEq α] {d : α} (m : SMap α) (k : Nat) {v : α} (f : Nat × α → Option β) (hv : v ≠ d)
    (h : ∀ e ∈ m, e.1 ≠ k → f e = none) : (sput d m k v).findSome? f = f (k, v) := by
  rw [sput, if_neg hv, sdel_eq_filter]
  refine findSome_sins _ _ _ _ fun e he => ?_
  rw [List.mem_filter, decide_eq_true_eq] at he
  exact h e he.1 he.2

/-! ## Copies of an L1 -/

section
variable {s : State} {c l : Nat} {x : Copy}

theorem l1Find_line (h : s.l1Find c l = some x) : x.line = l := by
  simpa using List.find?_some h
/-- A core whose L1 names no copy of a line finds none. -/
theorem l1Find_of_noCopy (hcopy : ∀ k ∈ s.cores, ∀ y ∈ k.2.l1, y.line ≠ l) (c : Nat) : s.l1Find c l = none := by
  unfold State.l1Find State.core
  by_cases hc : c ∈ s.cores.map (·.1)
  · exact List.find?_eq_none.mpr fun y hy => by simpa using hcopy _ (mem_of_sget CoreSt.zero hc) y hy
  · rw [sget_of_absent _ hc]
    rfl
theorem l1Find_l1Put (s : State) (c : Nat) (h : x.line = l) : (s.l1Put c x).l1Find c l = some x := by
  unfold State.l1Find State.l1Put
  rw [State.core_updCore_self]
  exact List.find?_cons_of_pos (by simp [h])
theorem core_l1Put_ne (s : State) {c k : Nat} (p : Copy) (h : k ≠ c) : (s.l1Put c p).core k = s.core k :=
  State.core_updCore_ne s _ h
/-- The one L1 that holds a line in M supplies its latest value. -/
theorem lineNow_of_l1Put {t : State} (ht : t.cores = (s.l1Put c x).cores) (hx : x.st = .M) (hl : x.line = l)
    (hothers : ∀ k ∈ s.cores, k.1 ≠ c → ∀ y ∈ k.2.l1, y.line = l → y.st ≠ .M) : t.lineNow l = x.data := by
  have hne : ({ s.core c with l1 := x :: (s.core c).l1.filter (·.line != x.line) } : CoreSt) ≠ .zero := fun h =>
    List.cons_ne_nil _ _ (congrArg CoreSt.l1 h)
  have hfind := findSome_sput s.cores c (fun k => k.2.l1.find? fun y => y.line == l && y.st == .M) hne fun k hk hkc =>
    List.find?_eq_none.mpr fun y hy => by simpa using hothers k hk hkc y hy
  have hself : (x :: (s.core c).l1.filter (·.line != x.line)).find? (fun y => y.line == l && y.st == .M) = some x :=
    List.find?_cons_of_pos (by simp [hx, hl])
  unfold State.lineNow
  rw [ht, show (s.l1Put c x).cores = sput .zero s.cores c { s.core c with l1 := x :: (s.core c).l1.filter (·.line != x.line) } from rfl,
    hfind, hself]
/-- A line without copies and without a directory entry is as its home has it. -/
theorem lineNow_of_noCopy (hcopy : ∀ k ∈ s.cores, ∀ y ∈ k.2.l1, y.line ≠ l) (hdir : s.dirFind l = none) : s.lineNow l = s.homeLine l := by
  have hfind : s.cores.findSome? (fun k => k.2.l1.find? fun y => y.line == l && y.st == .M) = none :=
    List.findSome?_eq_none_iff.mpr fun k hk => List.find?_eq_none.mpr fun y hy => by simp [hcopy k hk y hy]
  unfold State.lineNow
  rw [hfind, hdir]

end

/-! ## A store of a context -/

theorem conflictIf_eq (s : State) (o : Option Nat) (l : Nat) (p : Watch → Bool) : ∃ cs, s.conflictIf o l p = { s with ctxs := cs } :=
  ⟨_, rfl⟩
/-- A shootdown drops translations, and voids the checks that they served. -/
theorem shootdown_eq (s : State) (l : Nat) : ∃ cs ds ts, s.shootdown l = { s with ctxs := cs, dies := ds, tlb := ts } := by
  unfold State.shootdown
  split
  · unfold State.shareDrop State.tlbForget
    dsimp only
    split <;> exact ⟨_, _, _, rfl⟩
  · exact ⟨_, _, _, rfl⟩

section
variable {s : State} {n l : Nat} {t : Tag} {bs : List (Nat × Byte)}

theorem ctxStore_of_notHeld (before : Nat) (h : s.lineHeld l (bs.map (·.1)) = false) :
    s.ctxStore n before l t bs = (s.storeLine (some n) (some (coreOf n)) (dieOf n) l t bs).shootdown l := by
  unfold State.ctxStore State.behind
  rw [h]
  rfl
theorem ctxStore_of_held (before : Nat) (h : s.lineHeld l (bs.map (·.1)) = true) :
    ∃ ws, s.ctxStore n before l t bs = { s with heldWrites := ws } := by
  unfold State.ctxStore State.behind
  rw [h]
  exact ⟨_, rfl⟩
theorem perform_line {g : GateEnt} (hspad : g.spad = false) (hreg : g.isReg = false) :
    s.perform n g = s.ctxStore n g.before g.line ⟨g.asid, g.va, g.hf⟩ g.bytes := by
  unfold State.perform
  simp only [hspad, hreg, Bool.false_eq_true, if_false]
theorem regs_ctxStore (s : State) (n before l : Nat) (t : Tag) (bs : List (Nat × Byte)) (m : Nat) :
    ((s.ctxStore n before l t bs).ctx m).regs = (s.ctx m).regs :=
  ctx_of_outline Ctx.regs (fun _ => rfl) (outline_ctxStore ..) m

theorem owned_filter {x : Copy} {asid : BitVec 16} {va : VA} (hst : x.st ≠ .S) (htag : x.tagged asid va = true) :
    (some x).filter (fun y => y.st != .S && y.tagged asid va) = some x := by
  simp [hst, htag]
/-- What a store leaves of a copy in E or M. -/
def Copy.written (x : Copy) (v : Vec) : Copy := { x with st := .M, data := v }

/-- A store to a line that the own L1 holds exclusively writes that copy (R189). -/
theorem storeLine_owned {x : Copy} (by_ : Option Nat) (c d : Nat) (hx : s.l1Find c l = some x) (hst : x.st ≠ .S)
    (htag : x.tagged t.asid t.va = true) : ∃ cs, s.storeLine by_ (some c) d l t bs =
      { s.l1Put c (x.written (mergeLine (s.lineNow l) (s.kept l bs))) with ctxs := cs } := by
  unfold State.storeLine
  dsimp only [Option.bind_some]
  rw [hx, owned_filter hst htag]
  exact ⟨_, rfl⟩
theorem ctxStore_owned {x : Copy} (before : Nat) (hheld : s.lineHeld l (bs.map (·.1)) = false) (hx : s.l1Find (coreOf n) l = some x)
    (hst : x.st ≠ .S) (htag : x.tagged t.asid t.va = true) : ∃ cs ds ts, s.ctxStore n before l t bs =
      { s.l1Put (coreOf n) (x.written (mergeLine (s.lineNow l) (s.kept l bs))) with ctxs := cs, dies := ds, tlb := ts } := by
  obtain ⟨cs, hstore⟩ := storeLine_owned (bs := bs) (some n) (coreOf n) (dieOf n) hx hst htag
  obtain ⟨cs', ds, ts, hshoot⟩ := shootdown_eq (s.storeLine (some n) (some (coreOf n)) (dieOf n) l t bs) l
  rw [ctxStore_of_notHeld before hheld, hshoot, hstore]
  exact ⟨_, _, _, rfl⟩

/-- Held or not, it writes no memory and no scratchpad. -/
theorem ctxStore_owned_stored {x : Copy} (before : Nat) (hx : s.l1Find (coreOf n) l = some x) (hst : x.st ≠ .S)
    (htag : x.tagged t.asid t.va = true) :
    (s.ctxStore n before l t bs).mem = s.mem ∧ (s.ctxStore n before l t bs).spad = s.spad := by
  cases hheld : s.lineHeld l (bs.map (·.1)) with
  | true =>
    obtain ⟨ws, h⟩ := ctxStore_of_held (n := n) (t := t) before hheld
    rw [h]
    exact ⟨rfl, rfl⟩
  | false =>
    obtain ⟨cs, ds, ts, h⟩ := ctxStore_owned (t := t) before hheld hx hst htag
    rw [h]
    exact ⟨rfl, rfl⟩

/-! ## A store to a line that nothing holds -/

section
variable (hcopy : ∀ k ∈ s.cores, ∀ y ∈ k.2.l1, y.line ≠ l)
include hcopy

theorem synonym_of_noCopy (hdir : s.dirFind l = none) (by_ : Option Nat) (t : Tag) : s.synonym by_ l t = s := by
  have hany : (s.cores.any fun c => c.1 / 32 == lineDie l && c.2.l1.any fun x => x.line == l && !x.tagged t.asid t.va) = false := by
    simp only [List.any_eq_false, Bool.and_eq_true, not_and, Bool.not_eq_true]
    exact fun k hk _ y hy h => absurd (by simpa using h) (hcopy k hk y hy)
  unfold State.synonym
  rw [hdir]
  dsimp only
  rw [hany]
  rfl
/-- No tightrope finds a copy to compare. -/
theorem storeHeader_of_noCopy (d : Nat) (hf : BitVec 2) (offs : List Nat) (old new : Vec) :
    s.storeHeader d l hf offs old new = s.header d := by
  unfold State.storeHeader
  refine foldl_fixed _ fun c _ => ?_
  rw [show (s.header d).l1Find c l = s.l1Find c l from rfl, l1Find_of_noCopy hcopy]

end

theorem l2Pass_of_room (hhost : isHost l = false)
    (hroom : ((s.die (lineDie l)).l2.filter fun x => x != l && x % 16 == l % 16).length < Config.l2Lines) :
    ∃ ds, s.l2Pass (lineDie l) l = { s with dies := ds } := by
  have hvictim : s.l2Victim (lineDie l) l = none := by
    unfold State.l2Victim
    rw [List.filter_cons_of_pos (by simp), List.filter_filter]
    refine if_pos ?_
    rw [List.length_cons]
    simpa only [Bool.and_comm, Nat.lt_iff_add_one_le] using hroom
  unfold State.l2Pass State.l2Use State.cxlFill
  simp only [hvictim, hhost, if_true, Bool.false_and, Bool.false_eq_true, if_false]
  exact ⟨_, rfl⟩
/-- What a store makes of memory at a line's bytes. -/
def State.memWith (s : State) (l : Nat) (bs : List (Nat × Byte)) : List Host.Cell :=
  bs.foldl (fun m b => wrByte m (s.backKey (l * 128 + b.1)) b.2) s.mem
theorem homeMerge_of_memory (hwin : isWin l = false) (hhost : isHost l = false) (hbad : s.badUnits = []) (bs : List (Nat × Byte)) :
    s.homeMerge l bs = { s with mem := s.memWith l bs } := by
  unfold State.homeMerge State.devWrite State.memWith
  simp only [hhost, Bool.false_eq_true, if_false, byteKey_of_notWin s hwin, Option.map_some, List.filterMap_eq_map', hbad, List.isEmpty_nil,
    if_true, List.foldl_map]

theorem storeOut_alone (by_ : Option Nat) (t : Tag) (bs : List (Nat × Byte)) (offs : List Nat) (old new : Vec) (hwin : isWin l = false)
    (hhost : isHost l = false) (hbad : s.badUnits = []) (hdir : s.dirFind l = none) (hcopy : ∀ k ∈ s.cores, ∀ y ∈ k.2.l1, y.line ≠ l) :
    s.storeOut by_ true (lineDie l) l t bs offs old new = { s.header (lineDie l) with mem := s.memWith l bs } := by
  unfold State.storeOut
  rw [storeHeader_of_noCopy hcopy]
  dsimp only
  rw [if_pos rfl]
  unfold State.homeStore
  rw [show (s.header (lineDie l)).dirFind l = none from hdir]
  exact homeMerge_of_memory (s := s.header (lineDie l)) hwin hhost hbad bs

/-- A store to a line of the own die's memory that nothing holds writes its bytes there (R191). -/
theorem storeLine_alone (by_ : Option Nat) (c : Nat) (t : Tag) (bs : List (Nat × Byte)) (hwin : isWin l = false) (hhost : isHost l = false)
    (hbad : s.badUnits = []) (hdir : s.dirFind l = none) (hcopy : ∀ k ∈ s.cores, ∀ y ∈ k.2.l1, y.line ≠ l)
    (hroom : ((s.die (lineDie l)).l2.filter fun x => x != l && x % 16 == l % 16).length < Config.l2Lines) :
    ∃ cs ds, s.storeLine by_ (some c) (lineDie l) l t bs = { s with mem := s.memWith l bs, ctxs := cs, dies := ds } := by
  obtain ⟨ds, hpass⟩ := l2Pass_of_room hhost hroom
  have hown : ((some c).bind fun k => s.l1Find k l).filter (fun x => x.st != .S && x.tagged t.asid t.va) = none := by
    simp [l1Find_of_noCopy hcopy]
  have htrim (u : State) : u.l2Trim (lineDie l) l = u := by simp [State.l2Trim]
  unfold State.storeLine
  dsimp only
  rw [hown, synonym_of_noCopy hcopy hdir, hpass, kept_of_notWin s hwin, htrim]
  obtain ⟨cs, hconflict⟩ := conflictIf_eq { s with dies := ds } by_ l fun w =>
    changedAt t.hf w.view (bs.map (·.1)) (State.lineNow { s with dies := ds } l) (mergeLine (State.lineNow { s with dies := ds } l) bs)
  simp only [Option.isSome_none, Bool.false_eq_true, if_false, Option.isSome_some]
  rw [hconflict, storeOut_alone (s := { s with dies := ds, ctxs := cs }) by_ t bs _ _ _ hwin hhost hbad hdir hcopy]
  exact ⟨_, _, rfl⟩

end

/-! ## Gated stores that perform -/

section
variable {s : State} {n : Nat} {g : GateEnt} (hspad : g.spad = false) (hreg : g.isReg = false)
  (hheld : s.lineHeld g.line (g.bytes.map (·.1)) = false)
include hspad hreg hheld

/-- A gated store performs in the copy that its core's L1 holds exclusively. -/
theorem perform_owned {x : Copy} (hx : s.l1Find (coreOf n) g.line = some x) (hst : x.st ≠ .S) (htag : x.tagged g.asid g.va = true) :
    ∃ cs ds ts, s.perform n g = { s.l1Put (coreOf n) (x.written (mergeLine (s.lineNow g.line) (s.kept g.line g.bytes))) with
      ctxs := cs, dies := ds, tlb := ts } := by
  rw [perform_line hspad hreg]
  exact ctxStore_owned (t := ⟨g.asid, g.va, g.hf⟩) g.before hheld hx hst htag
/-- A gated store to a line of the own die's memory that nothing holds performs there. -/
theorem perform_alone (hwin : isWin g.line = false) (hhost : isHost g.line = false) (hdie : lineDie g.line = dieOf n)
    (hbad : s.badUnits = []) (hdir : s.dirFind g.line = none) (hcopy : ∀ k ∈ s.cores, ∀ y ∈ k.2.l1, y.line ≠ g.line)
    (hroom : ((s.die (dieOf n)).l2.filter fun x => x != g.line && x % 16 == g.line % 16).length < Config.l2Lines) :
    ∃ cs ds ts, s.perform n g = { s with mem := s.memWith g.line g.bytes, ctxs := cs, dies := ds, tlb := ts } := by
  rw [← hdie] at hroom
  obtain ⟨cs, ds, hstore⟩ :=
    storeLine_alone (some n) (coreOf n) ⟨g.asid, g.va, g.hf⟩ g.bytes hwin hhost hbad hdir hcopy hroom
  obtain ⟨cs', ds', ts, hshoot⟩ := shootdown_eq { s with mem := s.memWith g.line g.bytes, ctxs := cs, dies := ds } g.line
  rw [perform_line hspad hreg, ctxStore_of_notHeld g.before hheld, ← hdie, hstore, hshoot]
  exact ⟨_, _, _, rfl⟩
omit hheld in
theorem regs_perform (m : Nat) : ((s.perform n g).ctx m).regs = (s.ctx m).regs := by
  rw [perform_line hspad hreg, regs_ctxStore]

end

/-! ## The bytes that a store to memory leaves -/

section
variable {s : State} {l : Nat} (hwin : isWin l = false) (hhost : isHost l = false) {bs : List (Nat × Byte)} (hbs : ∀ b ∈ bs, b.1 < 128)
include hwin hhost hbs

theorem rdByte_memWith_line {o : Nat} (ho : o < 128) : rdByte (s.memWith l bs) (s.backKey (l * 128 + o)) =
    lastByte bs o (rdByte s.mem (s.backKey (l * 128 + o))) := by
  obtain ⟨k, hk⟩ := backKey_line s hwin hhost
  refine rdByte_writes (key := fun i => s.backKey (l * 128 + i)) bs s.mem fun b hb h => ?_
  rw [hk b.1 (hbs b hb), hk o ho] at h
  exact Nat.add_left_cancel h
omit hwin hhost in
theorem rdByte_memWith_off {a : Nat} (ha : ∀ o < 128, a ≠ s.backKey (l * 128 + o)) : rdByte (s.memWith l bs) a = rdByte s.mem a :=
  rdByte_writes_out (fun b : Nat × Byte => s.backKey (l * 128 + b.1)) (·.2) bs s.mem a fun b hb h => ha b.1 (hbs b hb) h.symm

end

/-! ## An atomic on a line that the core's L1 holds exclusively -/

theorem regs_updCtx (s : State) (n : Nat) (f : Ctx → Ctx) (h : ∀ c : Ctx, (f c).regs = c.regs) (m : Nat) :
    ((s.updCtx n f).ctx m).regs = (s.ctx m).regs := by
  by_cases hm : m = n
  · rw [hm, State.ctx_updCtx_self, h]
  · rw [State.ctx_updCtx_ne s f hm]
theorem translateFor_of_tlbFind {s : State} {asid : BitVec 16} {va : VA} {a : Acc} {e : Tlb} (h : s.tlbFind asid va a = some e) (d : Nat) :
    s.translateFor d asid va a = s := by
  unfold State.translateFor State.translate
  rw [h]
  exact ite_self _
/-- Where a held translation serves an access, the part's layouts alone say what it reaches. -/
theorem place_of_tlbFind {s u : State} {asid : BitVec 16} {va : VA} {a : Acc} {e : Tlb} (h : s.tlbFind asid va a = some e)
    (hu : u.tlbFind asid va a = some e) (hdies : u.dies = s.dies) : u.place asid va a = s.place asid va a := by
  unfold State.place State.leafOf State.layout State.die
  rw [h, hu, hdies]
theorem noteRead_of_cached (s : State) (n : Option Nat) (cid l : Nat) : s.noteRead n cid l true = s := by
  simp [State.noteRead, State.corrected, State.metCells]

/-- A context whose gate is empty, as its release leaves it. -/
def State.gateGone (s : State) (n : Nat) : State := s.updCtx n fun c => { c with gate := [], watch := [] }
theorem regs_gateGone (s : State) (n m : Nat) : ((s.gateGone n).ctx m).regs = (s.ctx m).regs := 
  regs_updCtx s n (fun c => { c with gate := [], watch := [] }) (fun _ => rfl) m

/-- The old value that an atomic of a width reads from a line. -/
def State.lineElem (s : State) (l o w : Nat) : Nat := leNat ((List.range w).map fun i => lineByte (s.lineNow l) (o + i))
/-- The bytes of a new element. -/
def elemBytes (w y o : Nat) : List (Nat × Byte) := (toLE w y).zipIdx.map fun b => (o + b.2, b.1)
theorem elemBytes_offs (w y o : Nat) : (elemBytes w y o).map (·.1) = (List.range w).map (o + ·) := by
  rw [elemBytes, List.map_map, ← length_toLE w y, List.range_eq_range', ← List.zipIdx_map_snd 0, List.map_map, length_toLE]
  rfl

section
variable {s : State} {ty : Ty} {va : VA} {f : Nat → Option Nat} {r : Reach} {e : Tlb} {x : Copy} (hspad : isSpad va = false)
  (hgate : s.cx.gate = []) (htlb : s.tlbFind (s.asidOf s.cur) va .write = some e)
  (hplace : s.place (s.asidOf s.cur) va .write = .ok r) (hreg : r.reg = none) (hx : s.l1Find (coreOf s.cur) r.line = some x)
  (hst : x.st ≠ .S) (htag : x.tagged (s.asidOf s.cur) (BitVec.ofNat 72 (va.toNat / 128 * 128)) = true)
include hspad hgate htlb hplace hreg hx hst htag

/-- It reads the line and merges its result, with no message, mark or record beside (R169, R189). -/
theorem atomicAt_owned : s.atomicAt ty va f = match f (s.lineElem r.line (fld va 0 7) ty.width) with
    | some y => (s.gateGone s.cur).ctxStore s.cur s.nextCmd r.line (tagOf (s.asidOf s.cur) va r) (elemBytes ty.width y (fld va 0 7))
    | none => s.gateGone s.cur := by
  have htlb' : (s.gateGone s.cur).tlbFind (s.asidOf s.cur) va .write = some e := htlb
  have hplace' : (s.gateGone s.cur).place (s.asidOf s.cur) va .write = .ok r := (place_of_tlbFind htlb htlb' rfl).trans hplace
  have htag' : x.tagged (tagOf (s.asidOf s.cur) va r).asid (tagOf (s.asidOf s.cur) va r).va = true := htag
  have hx' : (s.gateGone s.cur).l1Find (coreOf s.cur) r.line = some x := hx
  have hcached : (s.gateGone s.cur).writeCached (dieOf s.cur) (some (coreOf s.cur)) r.line (tagOf (s.asidOf s.cur) va r) = true := by
    simp [State.writeCached, State.l1Owns, hx', hst, htag']
  have hown : (s.gateGone s.cur).ownRequest (some s.cur) (coreOf s.cur) r.line (tagOf (s.asidOf s.cur) va r) = s.gateGone s.cur := by
    unfold State.ownRequest
    dsimp only
    rw [hx', owned_filter hst htag']
  unfold State.atomicAt
  simp only [hspad, Bool.false_eq_true, if_false, show s.releaseGate s.cur = s.gateGone s.cur from releaseGate_of_empty s hgate,
    translateFor_of_tlbFind htlb', hplace', hreg, hcached, Bool.true_or, noteRead_of_cached, hown]
  rfl

/-- What an atomic on such a line leaves: memory, scratchpads and registers as they were; and the copy with the result, where there is
one and no group in flight reads the line. -/
theorem atomicAt_owned_leaves : (s.atomicAt ty va f).mem = s.mem ∧ (s.atomicAt ty va f).spad = s.spad ∧
    (∀ m, ((s.atomicAt ty va f).ctx m).regs = (s.ctx m).regs) ∧
    (f (s.lineElem r.line (fld va 0 7) ty.width) = none → (s.atomicAt ty va f).cores = s.cores) ∧
    ∀ y, f (s.lineElem r.line (fld va 0 7) ty.width) = some y →
      s.lineHeld r.line ((elemBytes ty.width y (fld va 0 7)).map (·.1)) = false →
      (s.atomicAt ty va f).l1Find (coreOf s.cur) r.line =
        some (x.written (mergeLine (s.lineNow r.line) (s.kept r.line (elemBytes ty.width y (fld va 0 7))))) := by
  have hat := atomicAt_owned (ty := ty) (f := f) hspad hgate htlb hplace hreg hx hst htag
  have hx' : (s.gateGone s.cur).l1Find (coreOf s.cur) r.line = some x := hx
  cases hf : f (s.lineElem r.line (fld va 0 7) ty.width) with
  | none =>
    rw [hf] at hat
    rw [hat]
    exact ⟨rfl, rfl, regs_gateGone s s.cur, fun _ => rfl, fun y hy => nomatch hy⟩
  | some y =>
    rw [hf] at hat
    dsimp only at hat
    obtain ⟨hmem, hpad⟩ := ctxStore_owned_stored (t := tagOf (s.asidOf s.cur) va r) (bs := elemBytes ty.width y (fld va 0 7)) s.nextCmd
      hx' hst htag
    rw [hat]
    refine ⟨hmem, hpad, fun m => (regs_ctxStore ..).trans (regs_gateGone s s.cur m), (nomatch ·), fun z hz hheld => ?_⟩
    obtain rfl : y = z := Option.some.inj hz
    obtain ⟨cs, ds, ts, hstore⟩ := ctxStore_owned (s := s.gateGone s.cur) (t := tagOf (s.asidOf s.cur) va r) s.nextCmd hheld hx' hst htag
    have hline : x.line = r.line := l1Find_line hx
    rw [hstore]
    exact l1Find_l1Put _ _ hline
omit htlb hplace hx hst htag in
/-- The old value that it returns is the one that it read. -/
theorem atomicOld_owned (hread : s.place (s.asidOf s.cur) va .read = .ok r) (hlen : fld va 0 7 + ty.width ≤ 128) :
    s.atomicOld ty va = s.lineElem r.line (fld va 0 7) ty.width := by
  have hpos : 1 ≤ ty.width := by cases ty <;> decide
  rw [State.atomicOld, readVia_line 0 hspad hpos hlen hread hreg, loadLine_of_full _ (served_full r.hf), lineFor_of_empty (n := s.cur) _ hgate]
  rfl

end

/-- Settles O36: the rules of a line's bytes, of the two stores, of a load and of an atomic. -/
theorem ordinaryMemoryAccesses : Obligations.OrdinaryMemoryAccesses := by
  refine ⟨fun v bs o ho => lineByte_mergeLine v bs ho, ?_, ?_, ?_, ?_, ?_, ?_⟩
  · intro s n g x hspad hreg hheld hx hst htag new t
    obtain ⟨cs, ds, ts, ht⟩ := perform_owned hspad hreg hheld hx hst htag
    have hline : x.line = g.line := l1Find_line hx
    have ht : t = { s.l1Put (coreOf n) (x.written new) with ctxs := cs, dies := ds, tlb := ts } := ht
    refine ⟨?_, by rw [ht]; rfl, fun c hc => ?_, regs_perform hspad hreg, fun hothers => ?_⟩
    · rw [ht]
      exact l1Find_l1Put _ _ hline
    · rw [ht]
      exact core_l1Put_ne s _ hc
    · exact lineNow_of_l1Put (s := s) (c := coreOf n) (x := x.written new) (by rw [ht]) rfl hline hothers
  · intro s n g hspad hreg hwin hhost hdie hbytes hheld hbad hdir hcopy hroom here value t
    obtain ⟨cs, ds, ts, ht⟩ := perform_alone hspad hreg hheld hwin hhost hdie hbad hdir hcopy hroom
    have ht : t = { s with mem := s.memWith g.line g.bytes, ctxs := cs, dies := ds, tlb := ts } := ht
    have hmem : t.mem = s.memWith g.line g.bytes := by rw [ht]
    have hin {o : Nat} (ho : o < 128) : rdByte t.mem (here o) = value o (rdByte s.mem (here o)) := by
      rw [hmem]
      exact rdByte_memWith_line hwin hhost hbytes ho
    refine ⟨fun o ho => hin ho, fun a ha => ?_, fun hcxl o ho => ?_, by rw [ht], by rw [ht], regs_perform hspad hreg⟩
    · rw [hmem]
      exact rdByte_memWith_off hbytes ha
    · have hdir' : t.dirFind g.line = none := by rw [ht]; exact hdir
      have hcopy' : ∀ c ∈ t.cores, ∀ y ∈ c.2.l1, y.line ≠ g.line := by rw [ht]; exact hcopy
      have hcxl' : sget none t.cxl g.line = none := by rw [ht]; exact hcxl
      have hback : t.backKey = s.backKey := by rw [ht]; rfl
      rw [lineNow_of_noCopy hcopy' hdir', lineNow_of_noCopy hcopy hdir, homeLine_of_noCxl hcxl', homeLine_of_noCxl hcxl,
        lineByte_storedLine t hwin ho, lineByte_storedLine s hwin ho, hback]
      exact hin ho
  · intro s n asid va len v r hspad h1 h2 hr hreg
    exact readVia_line v hspad h1 h2 hr hreg
  · intro s n l o ho
    rw [lineFor_eq_mergeLine]
    exact lineByte_mergeLine _ _ ho
  · exact fun hf v x => ⟨loadLine_of_full x, fun h f i hs hi => lane_loadLine x hs hi⟩
  · intro s ty va f r e x hspad hgate htlb hplace hreg hx hst htag o old t
    obtain ⟨hmem, hpad, hregs, hnone, hsome⟩ := atomicAt_owned_leaves (ty := ty) (f := f) hspad hgate htlb hplace hreg hx hst htag
    refine ⟨atomicOld_owned hspad hgate hreg, hmem, hpad, hregs, hnone, fun y hy hheld => hsome y hy ?_⟩
    rw [elemBytes_offs]
    exact hheld

end Sys2Proof.Machine
end

section
/-! PROOFS. Meanings whose check decides, and hardware loops: their opening, the way back at the end of a body, and what a transfer
breaks (R83, R107, R108). -/

namespace Sys2Proof.Machine

/-! ## A check that has passed, and one that traps -/

section
variable {s : State} {o : Out} {v : Verdict} {f : State → State}

theorem next_of_passed (ho : o = s.resolve v f) (hv : v = .ok) : o = .next (f s) := by
  rw [ho, hv, resolve_ok]
theorem trap_of_failed {c : Nat} {x : Word64} (ho : o = s.resolve v f) (hs : s.settled s.cur = true) (hv : v = .trap c x) :
    o = .next (s.trapHere c x) := by
  rw [ho, hv, resolve_trap s c x f hs]

end

theorem require_of {p : Prop} [Decidable p] (c : Nat) (h : p) : require (decide p) c = .ok := by rw [decide_eq_true h, require_true]
theorem require_of_not {p : Prop} [Decidable p] (c : Nat) (h : ¬ p) : require (decide p) c = .trap c 0 := by
  rw [decide_eq_false h, require_false]

/-! ## The checks of loop and loopi -/

/-- The shape that R107 and R108 ask of a loop: a body after its bundle, and a bundle that is not the innermost body's last. -/
def State.loopShape (s : State) (off : BitVec 15) : Prop :=
  1 ≤ off.toInt ∧ ∀ e, s.lat.loops.head? = some e → e.last ≠ s.issue.pc

section
variable {s : State} {off : BitVec 15} {n : Nat}

/-- LOOP_SHAPE comes first, then the count's limit, then LOOP_DEPTH (log 64). -/
theorem checkLoopN_cases (s : State) (off : BitVec 15) (n : Nat) :
    (s.loopShape off ∧ checkLoopN n off s =
      (require (decide (n < 2 ^ 32)) 16).andThen (require (n == 0 || decide (s.lat.loops.length < 4)) 13)) ∨
    (¬ s.loopShape off ∧ checkLoopN n off s = .trap 14 0) := by
  unfold checkLoopN State.loopShape
  dsimp only
  by_cases hoff : 1 ≤ off.toInt
  · cases s.lat.loops with
    | nil => exact .inl ⟨⟨hoff, nofun⟩, by simp [hoff]⟩
    | cons e r =>
      by_cases hlast : e.last = s.issue.pc
      · exact .inr ⟨fun h => h.2 e rfl hlast, by simp [hlast]⟩
      · have hne : (e.last != s.issue.pc) = true := bne_iff_ne.mpr hlast
        exact .inl ⟨⟨hoff, by rintro _ ⟨⟩; exact hlast⟩, by simp [hoff, hne]⟩
  · exact .inr ⟨fun h => hoff h.1, by simp [hoff]⟩

theorem checkLoopN_of_noShape (h : ¬ s.loopShape off) : checkLoopN n off s = .trap 14 0 := by
  obtain ⟨hshape, -⟩ | ⟨-, hcheck⟩ := checkLoopN_cases s off n
  · exact absurd hshape h
  · exact hcheck

section
variable (h : s.loopShape off)
include h

theorem checkLoopN_of_shape : checkLoopN n off s =
    (require (decide (n < 2 ^ 32)) 16).andThen (require (n == 0 || decide (s.lat.loops.length < 4)) 13) := by
  obtain ⟨-, hcheck⟩ | ⟨hnot, -⟩ := checkLoopN_cases s off n
  · exact hcheck
  · exact absurd h hnot
theorem checkLoopN_zero : checkLoopN 0 off s = .ok := by
  rw [checkLoopN_of_shape h]
  rfl
theorem checkLoopN_room (hn : n < 2 ^ 32) (hd : s.lat.loops.length < 4) : checkLoopN n off s = .ok := by
  rw [checkLoopN_of_shape h, require_of 16 hn]
  simp [hd]
theorem checkLoopN_full (h0 : n ≠ 0) (hn : n < 2 ^ 32) (hd : 4 ≤ s.lat.loops.length) : checkLoopN n off s = .trap 13 0 := by
  rw [checkLoopN_of_shape h, require_of 16 hn]
  simp [beq_eq_false_iff_ne.mpr h0, hd.not_gt]
theorem checkLoopN_limit (hn : 2 ^ 32 ≤ n) : checkLoopN n off s = .trap 16 0 := by
  rw [checkLoopN_of_shape h, require_of_not 16 hn.not_gt, Verdict.trap_andThen]

end

/-! ## What loop and loopi leave -/

/-- The state with a loop of n passes opened, and fetch at its body. -/
def State.loopOpened (s : State) (off : BitVec 15) (n : Nat) : State :=
  (s.updRegs fun r => { r with loops := ⟨qoff s.issue.pc 16, qoff s.issue.pc (16 * off.toInt), n⟩ :: r.loops }).direct
    (qoff s.issue.pc 16)

theorem openLoop_zero : s.openLoop 0 off = s.direct (qoff s.issue.pc (16 * (off.toInt + 1))) := rfl
theorem openLoop_of_ne (h : n ≠ 0) : s.openLoop n off = s.loopOpened off n := if_neg h

variable {a : SReg} {k : BitVec 10}

theorem exec_loop_passed (h : checkLoopN (s.rS a).toNat off s = .ok) : exec (.loop a off) s = .next (s.openLoop (s.rS a).toNat off) :=
  next_of_passed (f := fun s => s.openLoop (s.rS a).toNat off) rfl h
theorem exec_loopi_passed (h : checkLoopN k.toNat off s = .ok) : exec (.loopi k off) s = .next (s.openLoop k.toNat off) :=
  next_of_passed (f := fun s => s.openLoop k.toNat off) rfl h
theorem exec_loop_failed {c : Nat} (hs : s.settled s.cur = true) (h : checkLoopN (s.rS a).toNat off s = .trap c 0) :
    exec (.loop a off) s = .next (s.trapHere c 0) :=
  trap_of_failed (f := fun s => s.openLoop (s.rS a).toNat off) rfl hs h
theorem exec_loopi_failed {c : Nat} (hs : s.settled s.cur = true) (h : checkLoopN k.toNat off s = .trap c 0) :
    exec (.loopi k off) s = .next (s.trapHere c 0) :=
  trap_of_failed (f := fun s => s.openLoop k.toNat off) rfl hs h

end

/-! ## The loop stack after a bundle -/

section
variable {pc : VA} {e : LoopEnt} {r : List LoopEnt}

theorem loopBack_again (h : e.last = pc) (hr : 1 < e.remaining) :
    loopBack pc (e :: r) = ({ e with remaining := e.remaining - 1 } :: r, some e.start) := by
  rw [loopBack, if_pos h, if_pos hr]
theorem loopBack_done (h : e.last = pc) (hr : e.remaining ≤ 1) : loopBack pc (e :: r) = loopBack pc r := by
  rw [loopBack, if_pos h, if_neg hr.not_gt]
theorem loopBack_elsewhere (h : e.last ≠ pc) : loopBack pc (e :: r) = (e :: r, none) := by
  rw [loopBack, if_neg h]

end

/-- A transfer breaks the innermost loops that it leaves, up to the first that it does not leave. -/
theorem breakLoops_eq_drop (pc t : VA) (ls : List LoopEnt) : ∃ k, breakLoops pc t ls = ls.drop k ∧
    (∀ e ∈ ls.take k, e.inside pc = true ∧ e.inside t = false) ∧
    ∀ e, (ls.drop k).head? = some e → e.inside pc = false ∨ e.inside t = true := by
  induction ls with
  | nil => exact ⟨0, rfl, nofun, nofun⟩
  | cons e r ih =>
    by_cases h : e.inside pc = true ∧ e.inside t = false
    · obtain ⟨k, hdrop, htaken, hnext⟩ := ih
      refine ⟨k + 1, ?_, ?_, hnext⟩
      · rw [breakLoops, if_pos (by simp [h]), hdrop, List.drop_succ_cons]
      · rw [List.take_succ_cons]
        exact List.forall_mem_cons.mpr ⟨h, htaken⟩
    · refine ⟨0, ?_, nofun, ?_⟩
      · rw [breakLoops, if_neg (by simpa using h), List.drop_zero]
      · rintro _ ⟨⟩
        cases hin : e.inside pc
        · exact .inl rfl
        · exact .inr (by simpa [hin] using h)

/-- Settles O14: the three checks in their order, the count, and the two rules of the stack. -/
theorem loopOpens : Obligations.LoopOpens := by
  refine ⟨fun s a n off => ?_, fun pc e r => ⟨loopBack_again, loopBack_done, loopBack_elsewhere⟩, breakLoops_eq_drop⟩
  intro ls shape opened skipped k
  have hlimit : n.toNat < 2 ^ 32 := by omega
  have hpos (h : n ≠ 0) : n.toNat ≠ 0 := fun h0 => h (BitVec.eq_of_toNat_eq h0)
  refine ⟨fun hshape hroom => ⟨fun h1 hk => ?_, fun h0 => ?_⟩, fun hshape => ⟨fun h0 => ?_, fun h0 => ?_⟩,
    fun hs => ⟨fun hshape => ?_, fun hshape hfull => ⟨fun h1 hk => ?_, fun h0 => ?_⟩, fun hshape hk => ?_⟩⟩
  · rw [exec_loop_passed (checkLoopN_room hshape hk hroom), openLoop_of_ne (Nat.ne_of_gt h1)]
    rfl
  · rw [exec_loopi_passed (checkLoopN_room hshape hlimit hroom), openLoop_of_ne (hpos h0)]
    rfl
  · have h0 : (s.rS a).toNat = 0 := h0
    rw [exec_loop_passed (h0 ▸ checkLoopN_zero hshape), h0, openLoop_zero]
  · subst h0
    exact exec_loopi_passed (checkLoopN_zero hshape)
  · exact ⟨exec_loop_failed hs (checkLoopN_of_noShape hshape), exec_loopi_failed hs (checkLoopN_of_noShape hshape)⟩
  · exact exec_loop_failed hs (checkLoopN_full hshape (Nat.ne_of_gt h1) hk hfull)
  · exact exec_loopi_failed hs (checkLoopN_full hshape (hpos h0) hlimit hfull)
  · exact exec_loop_failed hs (checkLoopN_limit hshape hk)

end Sys2Proof.Machine
end

section
/-! PROOFS. Frames: an instruction whose only destination is a register leaves everything else (R97 to R103, R131, R143 to R145). -/

namespace Sys2Proof.Machine

/-! ## Register writes behind a check -/

section
variable (s : State) (d a b c : SReg)

theorem exec_bfxs : exec (.bfxs d a b c) s =
    s.resolve (checkBf b c s) fun s => s.wS d (bfxsVal (s.rS a).toNat (s.rS b).toNat (s.rS c).toNat) := rfl
theorem exec_bfxu : exec (.bfxu d a b c) s =
    s.resolve (checkBf b c s) fun s => s.wS d (BitVec.ofNat 64 (fieldAt (s.rS a).toNat (s.rS b).toNat (s.rS c).toNat)) := rfl
theorem exec_bfi : exec (.bfi d a b c) s =
    s.resolve (checkBf b c s) fun s => s.wS d (bfiVal (s.rS d) (s.rS a) (s.rS b).toNat (s.rS c).toNat) := rfl
theorem exec_fshl : exec (.fshl d a b c) s =
    s.resolve (checkFsh c s) fun s => s.wS d (fshVal true (s.rS a) (s.rS b) (s.rS c).toNat) := rfl
theorem exec_fshr : exec (.fshr d a b c) s =
    s.resolve (checkFsh c s) fun s => s.wS d (fshVal false (s.rS a) (s.rS b) (s.rS c).toNat) := rfl
theorem exec_mfsr (sr : BitVec 12) : exec (.mfsr d sr) s =
    s.resolve (checkMfsr sr s) fun s => s.wS d ((s.readSR sr.toNat).getD 0) := rfl
theorem exec_vext (ty : Ty) (v : VReg) : exec (.vext ty d v b) s =
    s.resolve (checkLaneS ty b s) fun s => s.wS d (BitVec.ofInt 64 (elemInt ty (lane ty.width (s.rV v) (s.rS b).toNat))) := rfl
theorem exec_pcmp (p : PReg) (cc : BitVec 5) : exec (.pcmp p a b cc) s =
    s.resolve (checkPcmp b cc s) fun s => s.wP p
      (if cc.toNat = 6 then laneBits (s.rS a).toNat (s.rS b).toNat
       else if condOf cc.toNat (s.rS a) (s.rS b) then ~~~0 else 0) := rfl

end

/-! ## What a register write leaves -/

section
variable (s : State)

theorem onlyRegs_updRegs (f : Regs → Regs) : s.onlyRegs (s.updRegs f) := by
  refine ⟨rfl, fun n h => s.ctx_updRegs_ne f h, ?_, fun _ => rfl, fun _ => rfl⟩
  rw [State.cx_updRegs]
theorem onlyRegs_raiseFlags {t : State} (f : Flg) (h : s.onlyRegs t) : s.onlyRegs (t.raiseFlags f) := by
  obtain ⟨hstate, hctx, hcx, hmem, hspad⟩ := h
  have hissue : t.issue = { s.issue with flags := t.issue.flags } := congrArg State.issue hstate
  have hcur : t.cur = s.cur := by
    unfold State.cur
    rw [hissue]
  refine ⟨?_, fun n hn => ?_, ?_, hmem, hspad⟩
  · show { t with ctxs := _, issue := { t.issue with flags := _ } } = _
    rw [hissue, hstate]
    rfl
  · rw [State.ctx_raiseFlags_ne t f (hcur ▸ hn), hctx n hn]
  · rw [State.cx_raiseFlags, hcx]

theorem onlyS_wS (d : SReg) (x : Word64) : s.onlyS d (s.wS d x) := by
  refine ⟨onlyRegs_updRegs s _, rfl, ?_, fun r h => ?_⟩
  · rw [State.cx_wS]; rfl
  · rw [State.cx_wS]; exact Regs.gs_ws_ne _ x h
theorem onlyQ_wQ (d : QReg) (x : VA) : s.onlyQ d (s.wQ d x) := by
  refine ⟨onlyRegs_updRegs s _, rfl, ?_, fun r h => ?_⟩
  · rw [State.cx_wQ]; rfl
  · rw [State.cx_wQ]; exact Regs.gq_wq_ne _ x h
theorem onlyM_wM (d : MReg) (x : BitVec 16) : s.onlyM d (s.wM d x) := by
  refine ⟨onlyRegs_updRegs s _, rfl, ?_, fun r h => ?_⟩
  · rw [State.cx_wM]; rfl
  · rw [State.cx_wM]; exact Regs.gm_wm_ne _ x h
theorem regs_wP (d : PReg) (x : BitVec 128) : (s.wP d x).cx.regs = { s.cx.regs with p := (s.wP d x).cx.regs.p } := by
  rw [State.cx_wP]; rfl
theorem onlyP_wP (d : PReg) (x : BitVec 128) : s.onlyP d (s.wP d x) := by
  refine ⟨onlyRegs_updRegs s _, ?_, fun r h => ?_, 0, ?_⟩
  · rw [State.cx_wP]; rfl
  · rw [State.cx_wP]; exact Regs.gp_wp_ne _ x h
  · rw [State.cx_wP]; simp [Regs.wp]
theorem onlyP_wP_raiseFlags (d : PReg) (x : BitVec 128) (f : Flg) : s.onlyP d ((s.wP d x).raiseFlags f) := by
  refine ⟨onlyRegs_raiseFlags s f (onlyRegs_updRegs s _), ?_, fun r h => ?_, f, ?_⟩
  · rw [State.cx_raiseFlags, State.cx_wP]; rfl
  · rw [State.cx_raiseFlags, State.cx_wP]; exact Regs.gp_wp_ne _ x h
  · rw [State.cx_raiseFlags, State.cx_wP]; rfl

end

/-! ## Instructions whose destination is one register -/

section
variable {i : Instr} {s : State}

theorem exec_of_sOnly {d : SReg} (h : Instr.sOnly i = some d) (hv : Instr.verdict i s = .ok) : ∃ x, exec i s = .next (s.wS d x) := by
  cases i with
  | add _ _ _ | sub _ _ _ | and _ _ _ | or _ _ _ | xor _ _ _ | shl _ _ _ | shr _ _ _ | sra _ _ _ | min _ _ _ | max _ _ _
  | mul _ _ _ | mulh _ _ _ | mulhu _ _ _ | div _ _ _ | divu _ _ _ | addi _ _ _ | andi _ _ _ | ori _ _ _ | xori _ _ _
  | shli _ _ _ | shri _ _ _ | srai _ _ _ | li _ _ | lic _ _ | clz _ _ | ctz _ _ | popc _ _ | slt _ _ _ | sltu _ _ _
  | sel _ _ _ _ | qsub _ _ _ | qtos _ _ _ | mget _ _ =>
    cases h
    exact ⟨_, rfl⟩
  | bfxs _ a b c => cases h; exact ⟨_, next_of_passed (exec_bfxs s d a b c) hv⟩
  | bfxu _ a b c => cases h; exact ⟨_, next_of_passed (exec_bfxu s d a b c) hv⟩
  | bfi _ a b c => cases h; exact ⟨_, next_of_passed (exec_bfi s d a b c) hv⟩
  | fshl _ a b c => cases h; exact ⟨_, next_of_passed (exec_fshl s d a b c) hv⟩
  | fshr _ a b c => cases h; exact ⟨_, next_of_passed (exec_fshr s d a b c) hv⟩
  | mfsr _ sr => cases h; exact ⟨_, next_of_passed (exec_mfsr s d sr) hv⟩
  | vext ty _ v b => cases h; exact ⟨_, next_of_passed (exec_vext s d b ty v) hv⟩
  | _ => cases h
theorem exec_of_qOnly {d : QReg} (h : Instr.qOnly i = some d) : ∃ x, exec i s = .next (s.wQ d x) := by
  cases i with
  | qadd _ _ _ | qaddi _ _ _ | qmov _ _ _ | qhome _ _ _ =>
    cases h
    exact ⟨_, rfl⟩
  | _ => cases h
theorem exec_of_mOnly {d : MReg} (h : Instr.mOnly i = some d) : ∃ x, exec i s = .next (s.wM d x) := by
  cases i with
  | mand _ _ _ | mor _ _ _ | mxor _ _ _ | mset _ _ =>
    cases h
    exact ⟨_, rfl⟩
  | _ => cases h

/-- The instructions that combine predicates or compare scalars; they raise no flag. -/
def Instr.predOp (d : PReg) (i : Instr) : Prop :=
  (∃ a b c, i = .pcmp d a b c) ∨ (∃ a b, i = .pand d a b ∨ i = .por d a b ∨ i = .pxor d a b) ∨ (∃ a, i = .pnot d a)

/-- One whose destination is a predicate writes it alone, or is a vector compare, which may raise flags besides. -/
theorem exec_of_pOnly {d : PReg} (h : Instr.pOnly i = some d) (hv : Instr.verdict i s = .ok) :
    (∃ x, exec i s = .next (s.wP d x)) ∨ (¬ Instr.predOp d i ∧ ∃ x f, exec i s = .next ((s.wP d x).raiseFlags f)) := by
  cases i with
  | pand _ _ _ | por _ _ _ | pxor _ _ _ | pnot _ _ =>
    cases h
    exact .inl ⟨_, rfl⟩
  | pcmp _ a b cc => cases h; exact .inl ⟨_, next_of_passed (exec_pcmp s a b d cc) hv⟩
  | vcmpeq _ _ _ _ _ | vcmpne _ _ _ _ _ | vcmplt _ _ _ _ _ | vcmple _ _ _ _ _ =>
    cases h
    exact .inr ⟨by simp [Instr.predOp], _, _, rfl⟩
  | _ => cases h

end

/-- Settles O27: each of these instructions is one register write, the vector compares with flags besides. -/
theorem scalarWritersChangeOneRegister : Obligations.ScalarWritersChangeOneRegister := by
  refine ⟨fun i d s t h hv ht => ?_, fun i d s t h ht => ?_, fun i d s t h hv ht => ?_, fun i d s t h ht => ?_⟩
  · obtain ⟨x, hx⟩ := exec_of_sOnly h hv
    cases hx.symm.trans ht
    exact onlyS_wS s d x
  · obtain ⟨x, hx⟩ := exec_of_qOnly h
    cases hx.symm.trans ht
    exact onlyQ_wQ s d x
  · obtain ⟨x, hx⟩ | ⟨hcompare, x, f, hx⟩ := exec_of_pOnly h hv
    · cases hx.symm.trans ht
      exact ⟨onlyP_wP s d x, fun _ => ⟨rfl, regs_wP s d x⟩⟩
    · cases hx.symm.trans ht
      exact ⟨onlyP_wP_raiseFlags s d x f, fun hop => absurd hop hcompare⟩
  · obtain ⟨x, hx⟩ := exec_of_mOnly h
    cases hx.symm.trans ht
    exact onlyM_wM s d x

end Sys2Proof.Machine
end

section
/-! PROOFS. Scalar arithmetic: the word operations as numbers, division, bit fields, counts and conditions (R97 to R102). -/

namespace Sys2Proof.Machine

/-! ## Words as numbers -/

theorem shAmt_eq_mod (x : Word64) : shAmt x = x.toNat % 64 := fld_zero x 6

section
variable (x y : Word64) (k : Nat)

theorem shiftLeft_eq_ofNat : x <<< k = BitVec.ofNat 64 (x.toNat * 2 ^ k) := by
  apply BitVec.eq_of_toNat_eq
  rw [BitVec.toNat_shiftLeft, BitVec.toNat_ofNat, Nat.shiftLeft_eq]
theorem ushiftRight_eq_ofNat : x >>> k = BitVec.ofNat 64 (x.toNat / 2 ^ k) := by
  apply BitVec.eq_of_toNat_eq
  rw [BitVec.toNat_ushiftRight, BitVec.toNat_ofNat, Nat.shiftRight_eq_div_pow]
  exact (Nat.mod_eq_of_lt ((Nat.div_le_self _ _).trans_lt x.isLt)).symm
theorem sshiftRight_eq_ofInt : x.sshiftRight k = BitVec.ofInt 64 (x.toInt / (2 ^ k : Nat)) := by
  rw [BitVec.sshiftRight, Int.shiftRight_eq_div_pow]
theorem mul_eq_ofNat : x * y = BitVec.ofNat 64 (x.toNat * y.toNat) := by
  rw [BitVec.ofNat_mul, BitVec.ofNat_toNat, BitVec.ofNat_toNat, BitVec.setWidth_eq, BitVec.setWidth_eq]
/-- lic appends 20 bits. -/
theorem append_eq_ofNat (z : BitVec 20) : (x <<< 20) + z.setWidth 64 = BitVec.ofNat 64 (x.toNat * 2 ^ 20 + z.toNat) := by
  rw [BitVec.ofNat_add, shiftLeft_eq_ofNat, BitVec.ofNat_toNat]

end

/-- A register write of a value that is written another way. -/
theorem next_wS_congr {o : Out} {s : State} {d : SReg} {x y : Word64} (ho : o = .next (s.wS d x)) (h : x = y) : o = .next (s.wS d y) :=
  h ▸ ho

/-- Settles O8: each instruction writes its word operation, which is that operation on numbers. -/
theorem scalarArithmeticResults : Obligations.ScalarArithmeticResults := by
  intro s d a b imm sh x
  have hamt := shAmt_eq_mod (s.rS b)
  refine ⟨rfl, rfl, rfl, rfl, rfl, ?shl, ?shr, ?sra, rfl, rfl, ?mul, rfl, rfl, rfl, rfl, rfl, rfl, rfl, rfl, ?shli, ?shri, ?srai,
    rfl, ?lic⟩
  case shl => exact next_wS_congr rfl (hamt ▸ shiftLeft_eq_ofNat (s.rS a) (shAmt (s.rS b)))
  case shr => exact next_wS_congr rfl (hamt ▸ ushiftRight_eq_ofNat (s.rS a) (shAmt (s.rS b)))
  case sra => exact next_wS_congr rfl (hamt ▸ sshiftRight_eq_ofInt (s.rS a) (shAmt (s.rS b)))
  case mul => exact next_wS_congr rfl (mul_eq_ofNat (s.rS a) (s.rS b))
  case shli => exact next_wS_congr rfl (shiftLeft_eq_ofNat (s.rS a) sh.toNat)
  case shri => exact next_wS_congr rfl (ushiftRight_eq_ofNat (s.rS a) sh.toNat)
  case srai => exact next_wS_congr rfl (sshiftRight_eq_ofInt (s.rS a) sh.toNat)
  case lic => exact next_wS_congr rfl (append_eq_ofNat (s.rS d) x)

/-! ## Division (R99) -/

/-- The one quotient that 64 bits do not hold wraps to the dividend. -/
theorem divS_min_neg_one {a b : Word64} (ha : a.toInt = -(2 ^ 63)) (hb : b.toInt = -1) : divS a b = a := by
  have hb0 : b ≠ 0 := by rintro rfl; exact absurd hb (by decide)
  rw [divS, if_neg hb0, ha, hb, ← BitVec.ofInt_toInt (x := a), ha]
  rfl
/-- A word is its divisor's multiple and the remainder. -/
theorem sub_mul_tdiv (a b : Word64) :
    a - b * BitVec.ofInt 64 (Int.tdiv a.toInt b.toInt) = BitVec.ofInt 64 (Int.tmod a.toInt b.toInt) := by
  rw [Int.tmod_def, Int.sub_eq_add_neg, BitVec.ofInt_add, BitVec.ofInt_neg, BitVec.ofInt_mul, BitVec.ofInt_toInt, BitVec.ofInt_toInt,
    BitVec.sub_eq_add_neg]

/-- Settles O9: the quotient of integers, with its two special cases. -/
theorem divisionTruncatesAndNeverTraps : Obligations.DivisionTruncatesAndNeverTraps := by
  intro s d a b
  exact ⟨rfl, rfl, fun ha hb => next_wS_congr rfl (divS_min_neg_one ha hb), fun _ => sub_mul_tdiv (s.rS a) (s.rS b)⟩

/-! ## Bit fields and funnel shifts (R100) -/

section
variable {o w : Word64}

theorem fieldOk_iff : fieldOk o w = true ↔ o.toNat ≤ 63 ∧ 1 ≤ w.toNat ∧ o.toNat + w.toNat ≤ 64 := by
  simp [fieldOk, and_assoc]
variable {s : State} {b c : SReg}
theorem checkBf_passed (h : (s.rS b).toNat ≤ 63 ∧ 1 ≤ (s.rS c).toNat ∧ (s.rS b).toNat + (s.rS c).toNat ≤ 64) :
    checkBf b c s = .ok := by
  rw [checkBf, fieldOk_iff.mpr h, require_true]
theorem checkBf_failed (h : ¬ ((s.rS b).toNat ≤ 63 ∧ 1 ≤ (s.rS c).toNat ∧ (s.rS b).toNat + (s.rS c).toNat ≤ 64)) :
    checkBf b c s = .trap 15 0 := by
  rw [checkBf, Bool.eq_false_iff.mpr (mt fieldOk_iff.mp h), require_false]

end

/-- A field's sign extension as an integer. -/
theorem bfxsVal_eq_ofInt (x o w : Nat) : bfxsVal x o w =
    BitVec.ofInt 64 (if 2 ^ (w - 1) ≤ fieldAt x o w then (fieldAt x o w : Int) - (2 ^ w : Nat) else fieldAt x o w) := by
  unfold bfxsVal
  dsimp only
  split
  · rfl
  · exact (BitVec.ofInt_natCast ..).symm
/-- bfi replaces the bits of the field and no others. -/
theorem getLsbD_bfiVal (y x : Word64) (o w : Nat) {i : Nat} (hi : i < 64) :
    (bfiVal y x o w).getLsbD i = if o ≤ i ∧ i < o + w then x.getLsbD (i - o) else y.getLsbD i := by
  rw [bfiVal, getLsbD_setFld, fld_zero, Nat.testBit_mod_two_pow, BitVec.testBit_toNat]
  split
  · next h => simp [hi, show i - o < w by omega]
  · rfl
theorem fshVal_right (x y : Word64) (k : Nat) :
    fshVal false x y k = BitVec.ofNat 64 ((x.toNat * 2 ^ 64 + y.toNat) / 2 ^ k % 2 ^ 64) := by
  apply BitVec.eq_of_toNat_eq
  rw [BitVec.toNat_ofNat, Nat.mod_mod]
  exact BitVec.toNat_ofNat ..

/-- Settles O10: behind the check of the field, or of the count, each instruction writes its value. -/
theorem bitFieldResults : Obligations.BitFieldResults := by
  intro s d a b c x o w f y
  refine ⟨fun ho h1 hw => ?_, fun hw => ?_, fun hbad hs => ?_, fun hbad hs => ?_⟩
  · have hcheck := checkBf_passed (s := s) (b := b) (c := c) ⟨ho, h1, hw⟩
    exact ⟨next_of_passed (exec_bfxu s d a b c) hcheck,
      next_wS_congr (next_of_passed (exec_bfxs s d a b c) hcheck) (bfxsVal_eq_ofInt x o w),
      _, next_of_passed (exec_bfi s d a b c) hcheck, fun i hi => getLsbD_bfiVal _ _ _ _ hi⟩
  · have hcheck : checkFsh c s = .ok := require_of 15 hw
    exact ⟨next_of_passed (exec_fshl s d a b c) hcheck,
      next_wS_congr (next_of_passed (exec_fshr s d a b c) hcheck) (fshVal_right ..)⟩
  · have hcheck := checkBf_failed (s := s) (b := b) (c := c) hbad
    exact ⟨trap_of_failed (exec_bfxu s d a b c) hs hcheck, trap_of_failed (exec_bfxs s d a b c) hs hcheck,
      trap_of_failed (exec_bfi s d a b c) hs hcheck⟩
  · have hcheck : checkFsh c s = .trap 15 0 := require_of_not 15 hbad.not_ge
    exact ⟨trap_of_failed (exec_fshl s d a b c) hs hcheck, trap_of_failed (exec_fshr s d a b c) hs hcheck⟩

/-! ## Counts and conditions (R101, R102) -/

section
variable (n x : Nat)

/-- The bits above the leading one are zero, and it is one. -/
theorem leadZeros_spec (h : x < 2 ^ n) : leadZeros n x ≤ n ∧ (∀ i, n - leadZeros n x ≤ i → x.testBit i = false) ∧
    (leadZeros n x < n → x.testBit (n - 1 - leadZeros n x) = true) := by
  unfold leadZeros
  rw [Nat.mod_eq_of_lt h]
  split
  · next h0 =>
    rw [h0]
    exact ⟨le_rfl, fun i _ => Nat.zero_testBit i, fun hlt => absurd hlt (lt_irrefl n)⟩
  · next h0 =>
    have hlog : Nat.log2 x < n := (Nat.log2_lt h0).mpr h
    refine ⟨by omega, fun i hi => ?_, fun _ => ?_⟩
    · exact Nat.testBit_lt_two_pow (Nat.lt_log2_self.trans_le (Nat.pow_le_pow_right (by decide) (by omega)))
    · rw [show n - 1 - (n - 1 - Nat.log2 x) = Nat.log2 x by omega]
      exact Nat.testBit_log2 h0
/-- The bits below the trailing one are zero, and it is one. -/
theorem trailZeros_spec : trailZeros n x ≤ n ∧ (∀ i < trailZeros n x, x.testBit i = false) ∧
    (trailZeros n x < n → x.testBit (trailZeros n x) = true) := by
  induction n generalizing x with
  | zero => exact ⟨le_rfl, nofun, nofun⟩
  | succ n ih =>
    unfold trailZeros
    split
    · next hodd => exact ⟨Nat.zero_le _, nofun, fun _ => by simp [hodd]⟩
    · next heven =>
      obtain ⟨hle, hlow, hone⟩ := ih (x / 2)
      rw [Nat.add_comm 1]
      refine ⟨Nat.succ_le_succ hle, fun i hi => ?_, fun hlt => ?_⟩
      · cases i with
        | zero => simp [heven]
        | succ i => rw [Nat.testBit_succ]; exact hlow i (Nat.lt_of_succ_lt_succ hi)
      · rw [Nat.testBit_succ]
        exact hone (Nat.lt_of_succ_lt_succ hlt)
theorem popCount_eq : popCount n x = ((List.range n).filter x.testBit).length := by
  induction n generalizing x with
  | zero => rfl
  | succ n ih =>
    have hshift : (x.testBit ∘ Nat.succ) = (x / 2).testBit := funext fun i => Nat.testBit_succ x i
    rw [popCount, ih, List.range_succ_eq_map, List.filter_cons, List.filter_map, hshift, Nat.testBit_zero]
    obtain h | h := Nat.mod_two_eq_zero_or_one x
    · simp [h]
    · simp [h, Nat.add_comm]

end

/-- The lanes condition sets the bytes of the elements below its count. -/
theorem getLsbD_laneBits (n : Nat) {w i : Nat} (hw : 0 < w) (hi : i < 128) : (laneBits n w).getLsbD i = decide (i / w < n) := by
  rw [laneBits, BitVec.getLsbD_ofNat, Nat.testBit_two_pow_sub_one]
  simp [hi, Nat.div_lt_iff_lt_mul hw]

/-- The conditions 0 to 5 ask no width of sB. -/
theorem checkPcmp_of_ne (b : SReg) {cc : BitVec 5} (s : State) (h : cc.toNat ≠ 6) : checkPcmp b cc s = .ok := by
  simp [checkPcmp, bne_iff_ne.mpr h]
theorem checkPcmp_lanes (b : SReg) (s : State) :
    checkPcmp b 6 s = require (decide (s.rS b = 1 ∨ s.rS b = 2 ∨ s.rS b = 4 ∨ s.rS b = 8)) 16 := by
  unfold checkPcmp
  dsimp only
  congr 1
  rw [Bool.eq_iff_iff]
  simp [BitVec.toNat_eq, or_assoc]

/-- All bits, or none. -/
def allBits (x : Bool) : BitVec 128 := if x then ~~~0 else 0

theorem exec_pcmp_cond (s : State) (d : PReg) (a b : SReg) {cc : BitVec 5} (h : cc.toNat ≠ 6) :
    exec (.pcmp d a b cc) s = .next (s.wP d (allBits (condOf cc.toNat (s.rS a) (s.rS b)))) := by
  rw [next_of_passed (exec_pcmp s a b d cc) (checkPcmp_of_ne b s h), if_neg h]
  rfl

/-- Settles O11: the counts by their bits, and pcmp by its condition. -/
theorem countAndSelectResults : Obligations.CountAndSelectResults := by
  intro s d a b c all wide
  obtain ⟨hclz, hlead, hfirst⟩ := leadZeros_spec 64 (s.rS a).toNat (s.rS a).isLt
  obtain ⟨hctz, htrail, hlast⟩ := trailZeros_spec 64 (s.rS a).toNat
  refine ⟨⟨_, rfl, hclz, fun i _ => hlead i, hfirst⟩, ⟨_, rfl, hctz, htrail, hlast⟩, ?_, rfl,
    exec_pcmp_cond s c a b (by decide), exec_pcmp_cond s c a b (by decide), exec_pcmp_cond s c a b (by decide),
    exec_pcmp_cond s c a b (by decide), exec_pcmp_cond s c a b (by decide), exec_pcmp_cond s c a b (by decide),
    fun hwide => ⟨laneBits (s.rS a).toNat (s.rS b).toNat, ?_, fun i hi => ?_⟩, fun hwide hs => ?_⟩
  · exact next_wS_congr rfl (congrArg _ (popCount_eq 64 _))
  · exact next_of_passed (exec_pcmp s a b c 6) ((checkPcmp_lanes b s).trans (require_of 16 hwide))
  · refine getLsbD_laneBits _ ?_ hi
    obtain h | h | h | h : wide := hwide
    all_goals rw [h]; decide
  · exact trap_of_failed (exec_pcmp s a b c 6) hs ((checkPcmp_lanes b s).trans (require_of_not 16 hwide))

end Sys2Proof.Machine
end

section
/-! PROOFS. Address registers and control transfer (R103 to R105). -/

namespace Sys2Proof.Machine

/-! ## The home field and the offset of an address -/

section
variable {m n : Nat} (x : BitVec m) (y : BitVec n)

theorem append_toNat : (x ++ y).toNat = x.toNat * 2 ^ n + y.toNat := by
  rw [BitVec.toNat_append, ← Nat.shiftLeft_add_eq_or_of_lt y.isLt, Nat.shiftLeft_eq]
theorem append_toNat_div : (x ++ y).toNat / 2 ^ n = x.toNat := by
  rw [append_toNat, Nat.mul_comm, Nat.mul_add_div (Nat.two_pow_pos n), Nat.div_eq_of_lt y.isLt, Nat.add_zero]
theorem append_toNat_mod : (x ++ y).toNat % 2 ^ n = y.toNat := by
  rw [append_toNat, Nat.mul_add_mod_of_lt y.isLt]

end

theorem wrap_cast (n : Nat) (i : Int) : ((wrap n i : Nat) : Int) = i % (2 ^ n : Nat) :=
  Int.toNat_of_nonneg (Int.emod_nonneg _ (by positivity))
theorem wrap_lt_two_pow (n : Nat) (i : Int) : wrap n i < 2 ^ n := by
  have := Int.emod_lt_of_pos i (b := (2 ^ n : Nat)) (by positivity)
  have := wrap_cast n i
  omega
theorem home_eq (q : VA) : (q.extractLsb' 68 4).toNat = q.toNat / 2 ^ 68 := by
  rw [BitVec.extractLsb'_toNat, Nat.shiftRight_eq_div_pow]
  omega
theorem off_eq (q : VA) : (q.extractLsb' 0 68).toNat = q.toNat % 2 ^ 68 := by
  rw [BitVec.extractLsb'_toNat, Nat.shiftRight_zero]

theorem qoff_home (q : VA) (i : Int) : (qoff q i).toNat / 2 ^ 68 = q.toNat / 2 ^ 68 := by
  rw [qoff, append_toNat_div, home_eq]
theorem qoff_off (q : VA) (i : Int) : (((qoff q i).toNat % 2 ^ 68 : Nat) : Int) = ((q.toNat % 2 ^ 68 : Nat) + i) % 2 ^ 68 := by
  rw [qoff, append_toNat_mod, BitVec.toNat_ofNat, Nat.mod_eq_of_lt (wrap_lt_two_pow ..), wrap_cast, off_eq]
  rfl
theorem qhome_home (h : BitVec 4) (q : VA) : (h ++ q.extractLsb' 0 68 : VA).toNat / 2 ^ 68 = h.toNat := append_toNat_div h _
theorem qhome_off (h : BitVec 4) (q : VA) : (h ++ q.extractLsb' 0 68 : VA).toNat % 2 ^ 68 = q.toNat % 2 ^ 68 :=
  (append_toNat_mod h _).trans (off_eq q)
theorem high_eq_ofNat (q : VA) : (q.extractLsb' 64 8).setWidth 64 = BitVec.ofNat 64 (q.toNat / 2 ^ 64) := by
  apply BitVec.eq_of_toNat_eq
  rw [BitVec.toNat_setWidth, BitVec.extractLsb'_toNat, BitVec.toNat_ofNat, Nat.shiftRight_eq_div_pow]
  omega
theorem off_sub_eq_ofInt (p q : VA) : (p.extractLsb' 0 68 - q.extractLsb' 0 68).setWidth 64 =
    BitVec.ofInt 64 (((p.toNat % 2 ^ 68 : Nat) : Int) - (q.toNat % 2 ^ 68 : Nat)) := by
  apply BitVec.eq_of_toNat_eq
  rw [BitVec.toNat_setWidth, BitVec.toNat_sub, BitVec.toNat_ofInt, off_eq, off_eq]
  omega

/-- Settles O12: qadd and qaddi by `qoff`, the others by the two fields. -/
theorem addressRegisterResults : Obligations.AddressRegisterResults := by
  intro s d a e x y imm home off
  refine ⟨⟨_, rfl, qoff_home .., qoff_off ..⟩, ⟨_, rfl, qoff_home .., qoff_off ..⟩, ?qsub, rfl, rfl, ?high,
    ⟨_, rfl, ?home, ?off⟩⟩
  case qsub => exact next_wS_congr rfl (off_sub_eq_ofInt (s.rQ a) (s.rQ e))
  case high => exact next_wS_congr rfl (high_eq_ofNat (s.rQ a))
  case home => exact (qhome_home _ _).trans (fld_zero (s.rS y) 4)
  case off => exact qhome_off _ _

/-! ## Transfers -/

section
variable {s : State} {q : QReg}

theorem exec_jr : exec (.jr q) s = s.resolve (checkJr q s) fun s => s.transfer (s.rQ q) := rfl
theorem checkJr_eq : checkJr q s = require (decide ((s.rQ q).toNat % 16 = 0)) 2 := by
  unfold checkJr
  congr 1
  rw [Bool.eq_iff_iff]
  simp [BitVec.toNat_eq]

end

/-- Settles O13: a branch by its condition, jr by the alignment of its target. -/
theorem transferResults : Obligations.TransferResults := by
  intro s a b q off far go
  refine ⟨rfl, rfl, rfl, rfl, rfl, rfl, rfl, rfl, fun h => ?_, fun h hs => ?_, fun t => ⟨?_, ?_⟩⟩
  · exact next_of_passed exec_jr (checkJr_eq.trans (require_of 2 h))
  · exact trap_of_failed exec_jr hs (checkJr_eq.trans (require_of_not 2 h))
  · exact congrArg Ctx.regs (s.cx_updRegs fun r => { r with pc := t })
  · exact congrArg Ctx.regs (s.cx_updRegs fun r => { r with pc := t })

end Sys2Proof.Machine
end

section
/-! PROOFS. Context control: end, yield, tnext, wait and the wake comparators (R34, R109 to R113). -/

namespace Sys2Proof.Machine

section
variable (s : State)

theorem exec_endCtx : exec .endCtx s = s.resolve (s.recheck s.cur) fun s =>
    (s.upd fun c => { c with st := .retiring, landings := [], regs := { c.regs with loops := [] } }).domainCheck s.cur := rfl

/-! ## tnext -/

/-- tnext counts the grant in the launch's record, and lands it in the next register in rotation. -/
theorem exec_tnext : ∃ ls, exec .tnext s = .next (State.upd { s with launches := ls } fun c =>
    { c with rot := (c.rot + 1) % 4, landings := c.landings ++ [⟨s.clk + 24, c.rot,
      (s.launchOf s.cur).tileValue (dieOf s.cur) (sget 0 (s.launchOf s.cur).granted (dieOf s.cur))⟩] }) := by
  show ∃ ls, execTnext s = _
  unfold execTnext
  dsimp only
  cases (s.ctx s.cur).launch with
  | none => exact ⟨s.launches, rfl⟩
  | some l => exact ⟨_, rfl⟩

/-! ## wait -/

theorem core_wS (d : SReg) (x : Word64) (c : Nat) : (s.wS d x).core c = s.core c := rfl

/-- The state in which wait acts: where a trap could be taken, the core's overflow bit is clear (R34). -/
def State.waitReady : State :=
  if s.settled s.cur then s.updCore (coreOf s.cur) fun k => { k with overflow := false } else s
/-- wait takes a token of its context. -/
def State.popToken (d : SReg) : State :=
  match takeToken s.cur s.clk (s.core (coreOf s.cur)).wakeQ with
  | some (t, rest) =>
    (s.updCore (coreOf s.cur) fun k => { k with wakeQ := rest }).wS d (BitVec.ofNat 64 (t.value.toNat + 65536 * t.cmp))
  | none => s

theorem exec_wait (d : SReg) : exec (.wait d) s = s.waitReady.resolve (checkWait s) (fun s => s.popToken d) := rfl

@[simp] theorem waitReady_cur : s.waitReady.cur = s.cur := by
  unfold State.waitReady
  split <;> rfl
@[simp] theorem waitReady_clk : s.waitReady.clk = s.clk := by
  unfold State.waitReady
  split <;> rfl
@[simp] theorem waitReady_cx : s.waitReady.cx = s.cx := by
  unfold State.waitReady
  split <;> rfl
theorem waitReady_wakeQ : (s.waitReady.core (coreOf s.cur)).wakeQ = (s.core (coreOf s.cur)).wakeQ := by
  unfold State.waitReady
  split
  · rw [State.core_updCore_self]
  · rfl
theorem waitReady_of_settled (h : s.settled s.cur = true) :
    s.waitReady = s.updCore (coreOf s.cur) fun k => { k with overflow := false } := if_pos h

theorem popToken_of_take {d : SReg} {t : Token} {rest : List Token}
    (h : takeToken s.cur s.clk (s.core (coreOf s.cur)).wakeQ = some (t, rest)) : s.popToken d =
      (s.updCore (coreOf s.cur) fun k => { k with wakeQ := rest }).wS d (BitVec.ofNat 64 (t.value.toNat + 65536 * t.cmp)) := by
  unfold State.popToken
  rw [h]

variable {s} {d : SReg}

theorem checkWait_of_token (h : (s.core (coreOf s.cur)).overflow = false) :
    checkWait s = blockFor (takeToken s.cur s.clk (s.core (coreOf s.cur)).wakeQ).isSome := by
  unfold checkWait
  simp [h]
theorem checkWait_of_overflow (h : (s.core (coreOf s.cur)).overflow = true) : checkWait s = .trap 132 0 := by
  unfold checkWait
  simp [h]

theorem exec_wait_takes (ho : (s.core (coreOf s.cur)).overflow = false) {tok : Token} {rest : List Token}
    (h : takeToken s.cur s.clk (s.core (coreOf s.cur)).wakeQ = some (tok, rest)) :
    ∃ t, exec (.wait d) s = .next t ∧ t.cx.regs = s.cx.regs.ws d (BitVec.ofNat 64 (tok.value.toNat + 65536 * tok.cmp)) ∧
      (t.core (coreOf s.cur)).wakeQ = rest := by
  have hcheck : checkWait s = .ok := by rw [checkWait_of_token ho, h]; rfl
  have htake : takeToken s.waitReady.cur s.waitReady.clk (s.waitReady.core (coreOf s.waitReady.cur)).wakeQ = some (tok, rest) := by
    rw [waitReady_cur, waitReady_clk, waitReady_wakeQ, h]
  refine ⟨_, next_of_passed (exec_wait s d) hcheck, ?_, ?_⟩
  · rw [popToken_of_take _ htake, State.cx_wS]
    show (s.waitReady.cx.regs).ws d _ = _
    rw [waitReady_cx]
  · rw [popToken_of_take _ htake, core_wS, waitReady_cur, State.core_updCore_self]
theorem exec_wait_blocks (ho : (s.core (coreOf s.cur)).overflow = false)
    (h : takeToken s.cur s.clk (s.core (coreOf s.cur)).wakeQ = none) :
    ∃ t, exec (.wait d) s = .next t ∧ t.cx = { s.cx with st := .blocked } := by
  have hcheck : checkWait s = .block := by rw [checkWait_of_token ho, h]; rfl
  refine ⟨s.waitReady.blockHere, by rw [exec_wait, hcheck]; rfl, ?_⟩
  rw [State.blockHere, State.cx_upd, waitReady_cx]
theorem exec_wait_overflow (ho : (s.core (coreOf s.cur)).overflow = true) (hs : s.settled s.cur = true) :
    exec (.wait d) s = .next ((s.updCore (coreOf s.cur) fun k => { k with overflow := false }).trapHere 132 0) := by
  have hready := waitReady_of_settled s hs
  rw [← hready]
  exact trap_of_failed (exec_wait s d) (by rw [hready]; exact hs) (checkWait_of_overflow ho)

end

/-- Settles O15: end behind its restart point, tnext by its grant, wait by the wake queue. -/
theorem contextControlResults : Obligations.ContextControlResults := by
  intro s d
  refine ⟨fun h => next_of_passed (exec_endCtx s) h, rfl, ?_, fun ho => ⟨fun tok rest h => exec_wait_takes ho h, exec_wait_blocks ho⟩,
    exec_wait_overflow⟩
  obtain ⟨ls, hexec⟩ := exec_tnext s
  refine ⟨_, hexec, ?_, ?_, ?_⟩
  all_goals rw [State.cx_upd]; rfl

/-! ## warm -/

section
variable {s : State} {a b c : SReg} {n : BitVec 3} {rep : Bool}

/-- The comparator as warm leaves it. -/
def State.warmed (s : State) (a b c : SReg) (rep : Bool) : Cmp :=
  if (s.rS b).toNat = 0 then .zero
  else ⟨true, (s.rS a).toNat, (s.rS b).toNat, (s.rS c).extractLsb' 0 16, rep, s.cur, 0, s.clk + 1⟩
/-- The state with comparator n of the core written. -/
def State.setCmp (s : State) (n : BitVec 3) (m : Cmp) : State :=
  s.updCore (coreOf s.cur) fun k => { k with cmps := sput .zero k.cmps n.toNat m }

theorem exec_warm : exec (.warm a b c n rep) s =
    s.resolve (require (warmOk (s.rS a).toNat (s.rS b).toNat) 16) fun s => s.setCmp n (s.warmed a b c rep) := rfl

theorem setCmp_self (m : Cmp) : sget Cmp.zero ((s.setCmp n m).core (coreOf s.cur)).cmps n.toNat = m := by
  rw [State.setCmp, State.core_updCore_self, sget_sput_self]
theorem setCmp_ne (m : Cmp) {k : BitVec 3} (h : k ≠ n) :
    sget Cmp.zero ((s.setCmp n m).core (coreOf s.cur)).cmps k.toNat = sget Cmp.zero (s.core (coreOf s.cur)).cmps k.toNat := by
  rw [State.setCmp, State.core_updCore_self]
  exact sget_sput_ne _ _ _ fun e => h (BitVec.eq_of_toNat_eq e)

theorem warmOk_iff (lo len : Nat) : warmOk lo len = true ↔
    len = 0 ∨ (lo % 128 = 0 ∧ len % 128 = 0 ∧ 128 ≤ len ∧ len ≤ 2 ^ 20 ∧ lo + len ≤ 2 ^ 22) := by
  simp [warmOk, and_assoc]

end

/-- Settles O16: behind the limits on its range, warm writes the comparator it names. -/
theorem warmArmsTheComparator : Obligations.WarmArmsTheComparator := by
  intro s a b c n rep lo len
  have hpass (h : warmOk lo len = true) : exec (.warm a b c n rep) s = .next (s.setCmp n (s.warmed a b c rep)) :=
    next_of_passed exec_warm (by rw [h, require_true])
  refine ⟨fun h0 => ?_, fun h1 h2 h3 h4 h5 => ?_, fun hbad hs => ?_⟩
  · have hzero : s.warmed a b c rep = .zero := if_pos h0
    exact ⟨_, hpass ((warmOk_iff lo len).mpr (.inl h0)), by rw [setCmp_self, hzero]; rfl⟩
  · have harmed : s.warmed a b c rep = ⟨true, lo, len, (s.rS c).extractLsb' 0 16, rep, s.cur, 0, s.clk + 1⟩ := if_neg (by omega)
    exact ⟨_, hpass ((warmOk_iff lo len).mpr (.inr ⟨h1, h2, h3, h4, h5⟩)), rfl, rfl, rfl, by rw [setCmp_self, harmed],
      fun k hk => setCmp_ne _ hk⟩
  · exact trap_of_failed exec_warm hs (by rw [Bool.eq_false_iff.mpr (mt (warmOk_iff lo len).mp hbad), require_false])

end Sys2Proof.Machine
end

section
/-! PROOFS. trap and tret, pmsync and spawn (R96, R118 to R122, R262, R312, R319). -/

namespace Sys2Proof.Machine

/-! ## trap and tret -/

section
variable (s : State)

/-- A trap taken at the boundary after the bundle, behind its checkpoint. -/
def State.trapAfterBundle (imm : BitVec 20) : State :=
  let t := (s.markAt s.cur (qoff s.issue.pc 16)).takeTrap s.cur ⟨9, imm.setWidth 64, s.issue.slot, s.issue.opcode, false⟩ true
    (qoff s.issue.pc 16)
  { t with issue := { t.issue with trapped := true } }

theorem exec_trap (imm : BitVec 20) : exec (.trap imm) s = s.resolve (checkTrap s) fun s => s.trapAfterBundle imm := rfl
theorem checkTrap_passed (hl : s.cx.landings = []) (hw : s.landedBefore s.cur = true) : checkTrap s = .ok := by
  rw [checkTrap, hl, hw]
  rfl
theorem exec_tret : exec .tret s = s.resolve (require (s.lat.tstate.getLsbD 0) 10) State.trapReturn := rfl
theorem trapReturn_regs : s.trapReturn.cx.regs = { s.cx.regs with tstate := 0, pc := pcDec s.lat.tpc } :=
  congrArg Ctx.regs (s.cx_updRegs fun r => { r with tstate := 0, pc := pcDec s.lat.tpc })

end

theorem pcEnc_toNat (x : VA) : (pcEnc x).toNat = x.toNat / 2 ^ 68 * 2 ^ 44 + x.toNat / 2 ^ 4 % 2 ^ 44 := by
  rw [pcEnc, append_toNat, append_toNat, home_eq, BitVec.extractLsb'_toNat, Nat.shiftRight_eq_div_pow]
  simp
theorem pcDec_toNat (w : Word64) : (pcDec w).toNat = (w.toNat / 2 ^ 44 % 2 ^ 4 * 2 ^ 64 + w.toNat % 2 ^ 44) * 2 ^ 4 := by
  rw [pcDec, append_toNat, append_toNat, append_toNat, BitVec.extractLsb'_toNat, BitVec.extractLsb'_toNat, Nat.shiftRight_eq_div_pow]
  simp only [Nat.shiftRight_zero, BitVec.ofNat_eq_ofNat, BitVec.toNat_ofNat, Nat.zero_mod]
  omega
/-- TPC holds an address of a bundle below 2^48 of its home. -/
theorem pcDec_pcEnc {x : VA} (halign : x.toNat % 16 = 0) (hlow : x.toNat / 2 ^ 48 % 2 ^ 20 = 0) : pcDec (pcEnc x) = x := by
  apply BitVec.eq_of_toNat_eq
  have hlt : x.toNat < 2 ^ 72 := x.isLt
  rw [pcDec_toNat, pcEnc_toNat]
  omega

/-- Settles O18: trap behind what its bundle has pending, tret by INTRAP. -/
theorem trapAndReturn : Obligations.TrapAndReturn := by
  intro s imm
  refine ⟨fun hl hw => next_of_passed (exec_trap s imm) (checkTrap_passed s hl hw), fun h => ?_, fun h hs => ?_,
    fun x => pcDec_pcEnc⟩
  · exact ⟨s.trapReturn, next_of_passed (exec_tret s) (by rw [h, require_true]), rfl, trapReturn_regs s, rfl, rfl⟩
  · exact trap_of_failed (exec_tret s) hs (by rw [h, require_false])

/-! ## pmsync -/

section
variable (s : State) (d : SReg)

theorem exec_pmsync : exec (.pmsync d) s =
    s.resolve (checkPmsync s) fun s => (s.wS d s.cx.pmerr).upd fun c => { c with pmerr := 0 } := rfl
theorem checkPmsync_idle (h : ∀ x ∈ s.cmds, x.ctx = s.cur → Instr.unit x.ins ≠ .pm) : checkPmsync s = .ok := by
  have hnone : (s.cmds.any fun c => c.ctx == s.cur && Instr.unit c.ins == .pm) = false := by
    rw [List.any_eq_false]
    intro x hx hbusy
    simp only [Bool.and_eq_true, beq_iff_eq] at hbusy
    exact h x hx hbusy.1 hbusy.2
  rw [checkPmsync, hnone]
  rfl
theorem checkPmsync_busy (h : ∃ x ∈ s.cmds, x.ctx = s.cur ∧ Instr.unit x.ins = .pm) : checkPmsync s = .stall := by
  have hsome : (s.cmds.any fun c => c.ctx == s.cur && Instr.unit c.ins == .pm) = true := by
    rw [List.any_eq_true]
    simpa using h
  rw [checkPmsync, hsome]
  rfl

end

/-! ## spawn -/

/-- Registers written one after another from the lowest on. -/
theorem sget_foldl_range {α : Type} [DecidableEq α] (z : α) (f : Nat → α) (n k : Nat) :
    sget z ((List.range n).foldl (fun m i => sput z m i (f i)) []) k = if k < n then f k else z := by
  induction n with
  | zero => rfl
  | succ n ih =>
    rw [List.range_succ, List.foldl_append, List.foldl_cons, List.foldl_nil]
    by_cases h : k = n
    · subst h
      rw [sget_sput_self, if_pos (Nat.lt_succ_self k)]
    · rw [sget_sput_ne _ _ _ h, ih]
      exact if_congr (by omega) rfl rfl

section
variable (s : State) (a b c : SReg) (n : BitVec 5)

/-- The context that spawn starts, at its target. -/
def State.spawnCtx : Ctx :=
  { Ctx.zero with
    regs := s.spawnRegs b c n.toNat, ck := s.spawnRegs b c n.toNat, launch := s.cx.launch, dom := domWord 0 0 0 (domId 1 (s.target a)),
    readyAt := s.clk + 8, preq := !s.slotHeld s.cur, preqAt := if s.slotHeld s.cur then 0 else s.clk }

theorem exec_spawn : exec (.spawn a b c n) s = s.resolve (checkSpawn a b s) fun s => s.setCtx (s.target a) (s.spawnCtx a b c n) := rfl

theorem spawnRegs_gs (k : Nat) (i : SReg) :
    (s.spawnRegs b c k).gs i = if i.toNat < k then s.lat.gsn (c.toNat + i.toNat) else 0 := sget_foldl_range ..
theorem spawnRegs_gq_zero (k : Nat) : (s.spawnRegs b c k).gq 0 = s.rQ 0 := by
  show sget 0 (sput 0 (sput 0 [] 0 (s.rQ 0)) 1 (s.rQ 1)) 0 = _
  rw [sget_sput_ne _ _ _ Nat.zero_ne_one, sget_sput_self]
theorem spawnRegs_gq_one (k : Nat) : (s.spawnRegs b c k).gq 1 = s.rQ 1 := sget_sput_self ..

variable {s a b}
theorem checkSpawn_of_named (ha : (s.rS a).toNat ≤ 15) (hb : (s.rS b).toNat < (s.launchOf s.cur).nbundle) :
    checkSpawn a b s = require (s.ctx (s.target a)).free 48 := by
  rw [checkSpawn, require_of 16 ha, require_of 16 hb]
  rfl

end

/-- Settles O43: pmsync by the context's commands, spawn by its target. -/
theorem pmsyncAndSpawn : Obligations.PmsyncAndSpawn := by
  intro s d a b c n
  refine ⟨fun h => ?_, fun h => ?_, fun ha hb => ?_⟩
  · refine ⟨_, next_of_passed (exec_pmsync s d) (checkPmsync_idle s h), ?_⟩
    rw [State.cx_upd, State.cx_wS]
  · rw [exec_pmsync, checkPmsync_busy s h]
    rfl
  · intro g
    have hcheck := checkSpawn_of_named ha hb
    refine ⟨fun hfree => ?_, fun hbusy hs => ?_⟩
    · have hpass : checkSpawn a b s = .ok := hcheck.trans (hfree ▸ require_true 48)
      have htarget : (s.setCtx (s.target a) (s.spawnCtx a b c n)).ctx g = s.spawnCtx a b c n := s.ctx_setCtx_self ..
      refine ⟨_, next_of_passed (exec_spawn s a b c n) hpass, fun m hm => s.ctx_setCtx_ne _ hm, rfl, rfl, ?_⟩
      rw [htarget]
      exact ⟨rfl, rfl, rfl, rfl, rfl, rfl, spawnRegs_gq_zero .., spawnRegs_gq_one .., rfl, fun i => spawnRegs_gs ..⟩
    · exact trap_of_failed (exec_spawn s a b c n) hs (hcheck.trans (hbusy ▸ require_false 48))

end Sys2Proof.Machine
end

section
/-! PROOFS. Vector results: what they leave (R67, R127), the lanes of an element map (R125), and element-wise arithmetic
(R128 to R130, R135). -/

namespace Sys2Proof.Machine

/-! ## Vector instructions behind a check -/

section
variable (s : State) (ty : Ty) (d a b : VReg) (x y : SReg) (p : Pred) (imm : BitVec 15)

theorem exec_vshli : exec (.vshli ty d a imm p) s =
    s.resolve (checkVsh ty imm) fun s => s.vmap1 ty d a p fun x => vShl ty x imm.toNat := rfl
theorem exec_vshri : exec (.vshri ty d a imm p) s =
    s.resolve (checkVsh ty imm) fun s => s.vmap1 ty d a p fun x => vShr ty x imm.toNat := rfl
theorem exec_vsrai : exec (.vsrai ty d a imm p) s =
    s.resolve (checkVsh ty imm) fun s => s.vmap1 ty d a p fun x => vSra ty x imm.toNat := rfl
theorem exec_vbcast : exec (.vbcast ty d a y p) s = s.resolve (checkLaneS ty y s) fun s =>
    s.wVF d (laneMap ty.width (s.lat.pred p) (s.rV d) fun _ => (lane ty.width (s.rV a) (s.rS y).toNat, 0)) := rfl
theorem exec_vrot : exec (.vrot ty d a imm p) s = s.resolve (checkVrot ty imm) fun s =>
    s.wVF d (laneMap ty.width (s.lat.pred p) (s.rV d) fun i =>
      (lane ty.width (s.rV a) ((i + imm.toNat) % (128 / ty.width)), 0)) := rfl
theorem exec_vslide : exec (.vslide ty d a imm p) s = s.resolve (checkVslide ty imm) fun s =>
    s.wVF d (laneMap ty.width (s.lat.pred p) (s.rV d) fun i =>
      (if 0 ≤ (i : Int) + imm.toInt ∧ (i : Int) + imm.toInt < (128 / ty.width : Nat)
        then lane ty.width (s.rV a) ((i : Int) + imm.toInt).toNat else 0, 0)) := rfl
theorem exec_vbfx : exec (.vbfx ty d a b p) s = s.resolve (checkVbf ty b s) fun s => s.vmap1 ty d a p fun x =>
    intRes ty (if ty.isSigned then sx (lane 1 (s.rV b) 1) (fieldAt x (lane 1 (s.rV b) 0) (lane 1 (s.rV b) 1))
      else (fieldAt x (lane 1 (s.rV b) 0) (lane 1 (s.rV b) 1) : Nat)) := rfl
/-- Field `f` from bit `o` of an element replaced by the low bits of another. -/
def fieldPut (y x o f : Nat) : Nat := y - fieldAt y o f * 2 ^ o + x % 2 ^ f * 2 ^ o
theorem exec_vbfi : exec (.vbfi ty d a b p) s = s.resolve (checkVbf ty b s) fun s =>
    s.wVF d (laneMap ty.width (s.lat.pred p) (s.rV d) fun i => (fieldPut (lane ty.width (s.rV d) i) (lane ty.width (s.rV a) i)
      (lane 1 (s.rV b) 0) (lane 1 (s.rV b) 1), 0)) := rfl
theorem exec_vins : exec (.vins ty d x y) s = s.resolve (checkLaneS ty y s) fun s =>
    s.wV d (setLane ty.width (s.rV d) (s.rS y).toNat (s.rS x).toNat) := rfl

/-- vdesc writes its destination, and raises flags unless its node is all ones. -/
theorem exec_vdesc_writes : (∃ v, exec (.vdesc d a) s = .next (s.wV d v)) ∨ ∃ r, exec (.vdesc d a) s = .next (s.wVF d r) := by
  show (∃ v, execVdesc d a s = _) ∨ ∃ r, execVdesc d a s = _
  unfold execVdesc
  dsimp only
  split
  · exact .inl ⟨_, rfl⟩
  · split
    · exact .inr ⟨_, rfl⟩
    · exact .inr ⟨_, rfl⟩

/-! ## What a vector result leaves -/

theorem onlyV_wV (v : Vec) : s.onlyV d (s.wV d v) := by
  refine ⟨onlyRegs_updRegs s _, ?_, fun r h => ?_, 0, ?_⟩
  · rw [State.cx_wV]; rfl
  · rw [State.cx_wV]; exact Regs.gv_wv_ne _ v h
  · rw [State.cx_wV]; simp [Regs.wv]
theorem onlyV_wVF (r : Vec × Flg) : s.onlyV d (s.wVF d r) := by
  refine ⟨onlyRegs_raiseFlags s r.2 (onlyRegs_updRegs s _), ?_, fun m h => wVF_gv_ne s r h, r.2, wVF_fstat s d r⟩
  rw [State.wVF, State.cx_raiseFlags, State.cx_wV]
  rfl

end

/-- An instruction whose destination is a vector register writes it, with flags or without. -/
theorem exec_of_vOnly {i : Instr} {s : State} {d : VReg} (h : Instr.vOnly i = some d) (hv : Instr.verdict i s = .ok) :
    (∃ v, exec i s = .next (s.wV d v)) ∨ ∃ r, exec i s = .next (s.wVF d r) := by
  cases i with
  | vsel _ _ _ _ _ | vbppack _ _ _ | vbpunpack _ _ _ | vcfupd _ _ _ _ | vphilox _ _ _ =>
    cases h
    exact .inl ⟨_, rfl⟩
  | vins ty _ x y => cases h; exact .inl ⟨_, next_of_passed (exec_vins s ty d x y) hv⟩
  | vdesc _ a => cases h; exact exec_vdesc_writes s d a
  | vadd _ _ _ _ _ | vsub _ _ _ _ _ | vmul _ _ _ _ _ | vfma _ _ _ _ _ | vfms _ _ _ _ _ | vdiv _ _ _ _ _ | vmin _ _ _ _ _
  | vmax _ _ _ _ _ | vabs _ _ _ _ | vneg _ _ _ _ | vadds _ _ _ _ _ | vsubs _ _ _ _ _ | vmulh _ _ _ _ _ | vshl _ _ _ _ _
  | vshr _ _ _ _ _ | vsra _ _ _ _ _ | vaddi _ _ _ _ _ | vcvt _ _ _ _ _ _ | vexp2 _ _ _ _ | vlog2 _ _ _ _ | vrcp _ _ _ _
  | vrsqrt _ _ _ _ | vredadd _ _ _ _ | vredmax _ _ _ _ | vredmin _ _ _ _ | vscanadd _ _ _ _ | vscanmax _ _ _ _
  | vperm _ _ _ _ _ | vzip _ _ _ _ _ _ | vunzip _ _ _ _ _ _ | vand _ _ _ _ _ | vor _ _ _ _ _ | vxor _ _ _ _ _
  | vandn _ _ _ _ _ | vpopc _ _ _ _ | vclz _ _ _ _ | vdup _ _ _ _ | vmov _ _ _ _ | vargmax _ _ _ _ _ | vcfhash _ _ _ _ _ =>
    cases h
    exact .inr ⟨_, rfl⟩
  | vshli ty _ a imm p => cases h; exact .inr ⟨_, next_of_passed (exec_vshli s ty d a p imm) hv⟩
  | vshri ty _ a imm p => cases h; exact .inr ⟨_, next_of_passed (exec_vshri s ty d a p imm) hv⟩
  | vsrai ty _ a imm p => cases h; exact .inr ⟨_, next_of_passed (exec_vsrai s ty d a p imm) hv⟩
  | vbcast ty _ a y p => cases h; exact .inr ⟨_, next_of_passed (exec_vbcast s ty d a y p) hv⟩
  | vrot ty _ a imm p => cases h; exact .inr ⟨_, next_of_passed (exec_vrot s ty d a p imm) hv⟩
  | vslide ty _ a imm p => cases h; exact .inr ⟨_, next_of_passed (exec_vslide s ty d a p imm) hv⟩
  | vbfx ty _ a b p => cases h; exact .inr ⟨_, next_of_passed (exec_vbfx s ty d a b p) hv⟩
  | vbfi ty _ a b p => cases h; exact .inr ⟨_, next_of_passed (exec_vbfi s ty d a b p) hv⟩
  | _ => cases h

/-- Settles O28: each of these instructions is one write of a vector register, with flags or without. -/
theorem vectorWritersChangeOneRegister : Obligations.VectorWritersChangeOneRegister := by
  intro i d s t h hv ht
  obtain ⟨v, hx⟩ | ⟨r, hx⟩ := exec_of_vOnly h hv
  · cases hx.symm.trans ht
    exact onlyV_wV s d v
  · cases hx.symm.trans ht
    exact onlyV_wVF s d r

/-! ## The lanes of an element map -/

/-- Flags stand in fstat's low six bits. -/
theorem getLsbD_or_flags (x : Word64) (f : Flg) (k : Nat) : (x ||| f.setWidth 64).getLsbD k = (x.getLsbD k || f.getLsbD k) := by
  rw [BitVec.getLsbD_or, BitVec.getLsbD_setWidth]
  by_cases hk : k < 64
  · simp [hk]
  · rw [BitVec.getLsbD_of_ge f k (by omega), Bool.and_false]

/-- Settles O25: the elements and the flags of the map that vmap2 writes. -/
theorem enabledLanesTakeTheResult : Obligations.EnabledLanesTakeTheResult := by
  intro s ty d a b p f w t on r
  have hon (i : Nat) : enabled w (s.lat.pred p) i = on i := by
    cases p <;> rfl
  have hvec : t.cx.regs.gv d = (laneMap w (s.lat.pred p) (s.rV d) r).1 := wVF_gv_self s d _
  have hfstat : t.cx.regs.fstat = s.cx.regs.fstat ||| (laneMap w (s.lat.pred p) (s.rV d) r).2.setWidth 64 := wVF_fstat s d _
  refine ⟨fun i hi => ?_, fun k _ => ?_, fun k hk => ?_⟩
  · rw [hvec, lane_laneMap ty _ _ r i hi, hon]
  · rw [hfstat, getLsbD_or_flags, flags_laneMap]
    simp only [hon]
  · rw [hfstat, getLsbD_or_flags, BitVec.getLsbD_of_ge _ k hk, Bool.or_false]

/-! ## Element-wise arithmetic -/

/-- An element map of a function that is written another way. -/
theorem next_vmap1_congr {o : Out} {s : State} {ty : Ty} {d a : VReg} {p : Pred} {f g : Nat → Nat × Flg}
    (ho : o = .next (s.vmap1 ty d a p f)) (h : ∀ x, f x = g x) : o = .next (s.vmap1 ty d a p g) := funext h ▸ ho

/-- Settles O21: each instruction is the map of its operation, the immediate shifts behind the check of their count. -/
theorem vectorArithmeticResults : Obligations.VectorArithmeticResults := by
  intro s ty d a b p imm
  refine ⟨rfl, rfl, rfl, rfl, rfl, rfl, rfl, rfl, rfl, rfl, rfl, rfl, rfl, rfl, rfl, rfl, rfl, fun hlt => ?_, fun hge hs => ?_,
    rfl, rfl, rfl, rfl⟩
  · have hcheck : checkVsh ty imm = .ok := require_of 16 hlt
    exact ⟨next_vmap1_congr (next_of_passed (exec_vshli s ty d a p imm) hcheck) fun x => by rw [vShl, if_neg hlt.not_ge],
      next_vmap1_congr (next_of_passed (exec_vshri s ty d a p imm) hcheck) fun x => by rw [vShr, if_neg hlt.not_ge],
      next_of_passed (exec_vsrai s ty d a p imm) hcheck⟩
  · have hcheck : checkVsh ty imm = .trap 16 0 := require_of_not 16 hge.not_gt
    exact ⟨trap_of_failed (exec_vshli s ty d a p imm) hs hcheck, trap_of_failed (exec_vshri s ty d a p imm) hs hcheck,
      trap_of_failed (exec_vsrai s ty d a p imm) hs hcheck⟩

end Sys2Proof.Machine
end

section
/-! PROOFS. Vector permutes, logic, bit fields and moves (R137 to R142). -/

namespace Sys2Proof.Machine

/-! ## Fields of an element -/

/-- The low bits of a number as a signed word. -/
theorem sx_eq_toInt {n : Nat} (x : Nat) (h : 0 < n) : sx n x = (BitVec.ofNat n x).toInt := by
  rw [sx, bit_eq_testBit, BitVec.toInt_eq_msb_cond, BitVec.msb_eq_getLsbD_last, BitVec.getLsbD_ofNat, BitVec.toNat_ofNat]
  simp [h]
theorem sx_of_lt {n x : Nat} (hn : 1 ≤ n) (hx : x < 2 ^ n) : sx n x = if 2 ^ (n - 1) ≤ x then (x : Int) - (2 ^ n : Nat) else x := by
  have htwice : 2 ^ n = 2 * 2 ^ (n - 1) := by rw [← pow_succ', Nat.sub_add_cancel hn]
  rw [sx_eq_toInt x hn, BitVec.toInt_eq_toNat_cond, BitVec.toNat_ofNat, Nat.mod_eq_of_lt hx]
  by_cases h : 2 ^ (n - 1) ≤ x
  · rw [if_pos h, if_neg (by omega)]
  · rw [if_neg h, if_pos (by omega)]

section
variable (y x o f : Nat)

theorem fieldAt_lt : fieldAt y o f < 2 ^ f := Nat.mod_lt _ (Nat.two_pow_pos f)
/-- The parts of a number with a field replaced: the bits above it, the field, and the bits below it. -/
theorem fieldPut_eq : fieldPut y x o f = 2 ^ o * (2 ^ f * (y / 2 ^ (o + f)) + x % 2 ^ f) + y % 2 ^ o := by
  have hhigh : y / 2 ^ o = 2 ^ f * (y / 2 ^ (o + f)) + fieldAt y o f := by
    rw [pow_add, ← Nat.div_div_eq_div_mul]
    exact (Nat.div_add_mod ..).symm
  have hy : y = 2 ^ o * (2 ^ f * (y / 2 ^ (o + f))) + fieldAt y o f * 2 ^ o + y % 2 ^ o := by
    rw [Nat.mul_comm (fieldAt y o f), ← Nat.mul_add, ← hhigh]
    exact (Nat.div_add_mod ..).symm
  have hrest : y - fieldAt y o f * 2 ^ o = 2 ^ o * (2 ^ f * (y / 2 ^ (o + f))) + y % 2 ^ o := by omega
  rw [fieldPut, hrest]
  ring
/-- A field put into a number replaces its bits and no others. -/
theorem testBit_fieldPut (k : Nat) :
    (fieldPut y x o f).testBit k = if o ≤ k ∧ k < o + f then x.testBit (k - o) else y.testBit k := by
  rw [fieldPut_eq, Nat.testBit_two_pow_mul_add _ (Nat.mod_lt _ (Nat.two_pow_pos o)),
    Nat.testBit_two_pow_mul_add _ (Nat.mod_lt _ (Nat.two_pow_pos f)), Nat.testBit_mod_two_pow, Nat.testBit_mod_two_pow,
    Nat.testBit_div_two_pow]
  by_cases hlo : k < o
  · simp [hlo, not_le.mpr hlo]
  · by_cases hhi : k - o < f
    · simp [hlo, hhi, not_lt.mp hlo, show k < o + f by omega]
    · simp [hlo, hhi, show ¬ k < o + f by omega, show k - o - f + (o + f) = k by omega]

end

section
variable {s : State} {ty : Ty} {b : VReg}

theorem checkVbf_eq : checkVbf ty b s =
    require (decide (1 ≤ lane 1 (s.rV b) 1 ∧ lane 1 (s.rV b) 0 + lane 1 (s.rV b) 1 ≤ 8 * ty.width)) 15 := by
  rw [checkVbf, Bool.decide_and]
/-- An element map of a function that is written another way. -/
theorem next_laneMap_congr {o : Out} {d : VReg} {w : Nat} {p : Option (BitVec 128)} {old : Vec} {f g : Nat → Nat × Flg}
    (ho : o = .next (s.wVF d (laneMap w p old f))) (h : ∀ i, f i = g i) : o = .next (s.wVF d (laneMap w p old g)) := funext h ▸ ho

end

/-- The integer that a bit field reads as, stored in an element. -/
theorem intRes_field (ty : Ty) (x o : Nat) {f : Nat} (hf : 1 ≤ f) :
    intRes ty (if ty.isSigned then sx f (fieldAt x o f) else (fieldAt x o f : Nat)) =
      (((if ty.isSigned ∧ 2 ^ (f - 1) ≤ fieldAt x o f then (fieldAt x o f : Int) - (2 ^ f : Nat) else fieldAt x o f) %
        (2 ^ (8 * ty.width) : Nat)).toNat, 0) := by
  rw [sx_of_lt hf (fieldAt_lt x o f), ite_and]
  rfl

/-- Settles O23: each instruction is the map of its rule, behind the check of its element number, distance or field. -/
theorem vectorMoveResults : Obligations.VectorMoveResults := by
  intro s ty d a b x y p imm half w n el put
  refine ⟨rfl, fun hy => ?_, fun himm => ?_, fun himm => ?_, rfl, rfl, rfl, rfl, rfl, rfl, rfl, rfl, fun h1 hw => ?_,
    fun hy => ?_, ?_, rfl, fun hs => ⟨fun hy => ?_, fun himm => ?_, fun himm => ?_, fun hbad => ?_⟩⟩
  · exact next_of_passed (exec_vbcast s ty d a y p) (require_of 16 hy)
  · exact next_of_passed (exec_vrot s ty d a p imm) (require_of 16 himm)
  · exact next_of_passed (exec_vslide s ty d a p imm) (require_of 16 himm)
  · have hcheck := checkVbf_eq.trans (require_of 15 ⟨h1, hw⟩)
    exact ⟨next_laneMap_congr (next_of_passed (exec_vbfx s ty d a b p) hcheck) fun i => intRes_field ty (el a i) _ h1,
      _, next_of_passed (exec_vbfi s ty d a b p) hcheck, fun i k => testBit_fieldPut ..⟩
  · have hcheck : checkLaneS ty y s = .ok := require_of 16 hy
    exact ⟨next_of_passed (exec_vins s ty d x y) hcheck, next_of_passed (exec_vext s x y ty a) hcheck⟩
  · exact next_laneMap_congr rfl fun _ => congrArg (·, 0) (fld_zero (s.rS x) (8 * w))
  · have hcheck : checkLaneS ty y s = .trap 16 0 := require_of_not 16 hy.not_gt
    exact ⟨trap_of_failed (exec_vbcast s ty d a y p) hs hcheck, trap_of_failed (exec_vins s ty d x y) hs hcheck,
      trap_of_failed (exec_vext s x y ty a) hs hcheck⟩
  · exact trap_of_failed (exec_vrot s ty d a p imm) hs (require_of_not 16 himm.not_gt)
  · exact trap_of_failed (exec_vslide s ty d a p imm) hs (require_of_not 16 himm.not_ge)
  · have hcheck : checkVbf ty b s = .trap 15 0 := checkVbf_eq.trans (require_of_not 15 (by omega))
    exact ⟨trap_of_failed (exec_vbfx s ty d a b p) hs hcheck, trap_of_failed (exec_vbfi s ty d a b p) hs hcheck⟩

end Sys2Proof.Machine
end

section
/-! PROOFS. manc: the masks of a tree's nodes hold their ancestors (R145). -/

namespace Sys2Proof.Machine

/-! ## The tree that a vector holds -/

theorem parentAt_eq (v : Vec) (j : Nat) : parentAt v j = (BitVec.ofNat 32 (lane 4 v j)).toInt := sx_eq_toInt _ (by decide)

/-- Each of the first nodes is a root or has a parent before it. -/
def TreeOk (v : Vec) (count : Nat) : Prop :=
  1 ≤ count ∧ count ≤ 16 ∧ ∀ j : Nat, j < count → parentAt v j = -1 ∨ (0 ≤ parentAt v j ∧ parentAt v j < j)
/-- Node z is the parent of node y. -/
def ParentOf (v : Vec) (y z : Nat) : Prop := parentAt v y = (z : Int)

section
variable (v : Vec) (count : Nat)

theorem treeOk_iff : treeOk v count = true ↔ TreeOk v count := by
  simp [treeOk, TreeOk, and_assoc]

/-! ## The sets of ancestors -/

/-- The sets of the first n nodes. -/
def ancestorsTo (n : Nat) : List Nat :=
  (List.range n).foldl (fun acc j =>
    acc ++ [if count ≤ j then 0 else if parentAt v j = -1 then 2 ^ j else acc.getD (parentAt v j).toNat 0 ||| 2 ^ j]) []
/-- The set of node n, from those of the nodes before it. -/
def ancestorsAt (n : Nat) : Nat :=
  if count ≤ n then 0 else if parentAt v n = -1 then 2 ^ n
  else (ancestorsTo v count n).getD (parentAt v n).toNat 0 ||| 2 ^ n

theorem ancestors_eq : ancestors v count = ancestorsTo v count 16 := rfl
theorem ancestorsTo_succ (n : Nat) : ancestorsTo v count (n + 1) = ancestorsTo v count n ++ [ancestorsAt v count n] := by
  rw [ancestorsTo, List.range_succ, List.foldl_append]
  rfl
theorem length_ancestorsTo (n : Nat) : (ancestorsTo v count n).length = n := by
  induction n with
  | zero => rfl
  | succ n ih => rw [ancestorsTo_succ, List.length_append, ih, List.length_singleton]

variable {v count}

theorem ancestorsAt_of_ge {n : Nat} (h : count ≤ n) : ancestorsAt v count n = 0 := if_pos h
theorem ancestorsAt_root {n : Nat} (h : n < count) (hroot : parentAt v n = -1) : ancestorsAt v count n = 2 ^ n := by
  rw [ancestorsAt, if_neg h.not_ge, if_pos hroot]
theorem ancestorsAt_child {n z : Nat} (h : n < count) (hz : ParentOf v n z) :
    ancestorsAt v count n = (ancestorsTo v count n).getD z 0 ||| 2 ^ n := by
  have hz : parentAt v n = (z : Int) := hz
  rw [ancestorsAt, if_neg h.not_ge, if_neg (by omega), hz, Int.toNat_natCast]

/-- A node's ancestors, itself among them: those that its parent reaches besides. -/
theorem ancestor_root_iff {n i : Nat} (hroot : parentAt v n = -1) : Relation.ReflTransGen (ParentOf v) n i ↔ i = n := by
  rw [Relation.ReflTransGen.cases_head_iff]
  constructor
  · rintro (rfl | ⟨z, hz, -⟩)
    · rfl
    · have hz : parentAt v n = (z : Int) := hz
      omega
  · rintro rfl
    exact .inl rfl
theorem ancestor_child_iff {n z i : Nat} (hz : ParentOf v n z) :
    Relation.ReflTransGen (ParentOf v) n i ↔ Relation.ReflTransGen (ParentOf v) z i ∨ i = n := by
  rw [Relation.ReflTransGen.cases_head_iff, or_comm, eq_comm]
  refine or_congr_left ⟨?_, fun h => ⟨z, hz, h⟩⟩
  rintro ⟨z', hz', h⟩
  have : z' = z := Int.natCast_inj.mp (Eq.trans (Eq.symm hz') hz)
  exact this ▸ h

theorem testBit_ancestorsTo (htree : TreeOk v count) (n : Nat) {j : Nat} (hj : j < n) (i : Nat) :
    ((ancestorsTo v count n).getD j 0).testBit i = true ↔ j < count ∧ Relation.ReflTransGen (ParentOf v) j i := by
  obtain ⟨-, -, hparents⟩ := htree
  induction n generalizing j i with
  | zero => exact absurd hj (Nat.not_lt_zero j)
  | succ n ih =>
    rw [ancestorsTo_succ]
    obtain hlt | rfl := Nat.lt_succ_iff_lt_or_eq.mp hj
    · rw [List.getD_append _ _ _ _ (by rwa [length_ancestorsTo]), ih hlt]
    · rw [List.getD_append_right _ _ _ _ (by rw [length_ancestorsTo]), length_ancestorsTo, Nat.sub_self, List.getD_cons_zero]
      by_cases hcount : j < count
      · obtain hroot | ⟨h0, hlt⟩ := hparents j hcount
        · simp [ancestorsAt_root hcount hroot, ancestor_root_iff hroot, hcount, Nat.testBit_two_pow, eq_comm]
        · obtain ⟨z, hz⟩ := Int.eq_ofNat_of_zero_le h0
          rw [ancestorsAt_child hcount hz, Nat.testBit_or, Bool.or_eq_true, ih (by omega), ancestor_child_iff hz, Nat.testBit_two_pow]
          simp [hcount, show z < count by omega, eq_comm]
      · simp [ancestorsAt_of_ge (not_lt.mp hcount), hcount]

end

/-! ## The masks written -/

/-- Masks written from m0 on. -/
def State.putMasks (s : State) (xs : List Nat) (k : Nat) : State :=
  (xs.zipIdx k).foldl (fun s x => s.wM (BitVec.ofNat 4 x.2) (BitVec.ofNat 16 x.1)) s

theorem putMasks_cons (s : State) (x : Nat) (xs : List Nat) (k : Nat) :
    s.putMasks (x :: xs) k = (s.wM (BitVec.ofNat 4 k) (BitVec.ofNat 16 x)).putMasks xs (k + 1) := rfl
theorem putMasks_mem (s : State) (xs : List Nat) (k : Nat) : (s.putMasks xs k).mem = s.mem := by
  induction xs generalizing s k with
  | nil => rfl
  | cons x xs ih => rw [putMasks_cons, ih, State.wM_mem]
theorem putMasks_spad (s : State) (xs : List Nat) (k : Nat) : (s.putMasks xs k).spad = s.spad := by
  induction xs generalizing s k with
  | nil => rfl
  | cons x xs ih => rw [putMasks_cons, ih, State.wM_spad]
theorem putMasks_below (s : State) (xs : List Nat) {k : Nat} (h : k + xs.length ≤ 16) {j : MReg} (hj : j.toNat < k) :
    (s.putMasks xs k).cx.regs.gm j = s.cx.regs.gm j := by
  induction xs generalizing s k with
  | nil => rfl
  | cons x xs ih =>
    rw [List.length_cons] at h
    have hne : j ≠ BitVec.ofNat 4 k := by
      rintro rfl
      rw [BitVec.toNat_ofNat] at hj
      omega
    rw [putMasks_cons, ih _ (by omega) (by omega), State.cx_wM]
    exact Regs.gm_wm_ne _ _ hne
theorem putMasks_gm (s : State) (xs : List Nat) {k : Nat} (h : k + xs.length ≤ 16) {j : MReg} (hk : k ≤ j.toNat)
    (hj : j.toNat < k + xs.length) : (s.putMasks xs k).cx.regs.gm j = BitVec.ofNat 16 (xs.getD (j.toNat - k) 0) := by
  induction xs generalizing s k with
  | nil => rw [List.length_nil] at hj; omega
  | cons x xs ih =>
    rw [List.length_cons] at h hj
    rw [putMasks_cons]
    obtain rfl | hlt := Nat.eq_or_lt_of_le hk
    · rw [putMasks_below _ _ (by omega) (Nat.lt_succ_self _), Nat.sub_self, State.cx_wM, BitVec.ofNat_toNat, BitVec.setWidth_eq]
      exact Regs.gm_wm_self _ _ _
    · rw [ih _ (by omega) hlt (by omega), show j.toNat - k = j.toNat - (k + 1) + 1 by omega, List.getD_cons_succ]

section
variable (s : State) (a : VReg) (x : SReg)

theorem exec_manc : exec (.manc a x) s =
    s.resolve (checkManc a x s) fun s => s.putMasks (ancestors (s.rV a) (s.rS x).toNat) 0 := rfl

/-- manc of a tree writes every mask, each with its node's ancestors. -/
theorem exec_manc_masks (htree : TreeOk (s.rV a) (s.rS x).toNat) :
    ∃ t, exec (.manc a x) s = .next t ∧ t.mem = s.mem ∧ t.spad = s.spad ∧ ∀ (j : MReg) (i : Nat), i < 16 →
      ((t.cx.regs.gm j).getLsbD i = true ↔
        j.toNat < (s.rS x).toNat ∧ Relation.ReflTransGen (ParentOf (s.rV a)) j.toNat i) := by
  have hcheck : checkManc a x s = .ok := by rw [checkManc, (treeOk_iff _ _).mpr htree, require_true]
  have hlen := length_ancestorsTo (s.rV a) (s.rS x).toNat 16
  refine ⟨_, next_of_passed (exec_manc s a x) hcheck, putMasks_mem .., putMasks_spad .., fun j i hi => ?_⟩
  rw [ancestors_eq, putMasks_gm _ _ (by rw [hlen]) (Nat.zero_le _) (by rw [hlen]; omega), Nat.sub_zero, BitVec.getLsbD_ofNat,
    decide_eq_true hi, Bool.true_and, testBit_ancestorsTo htree 16 j.isLt]
theorem exec_manc_trap (htree : ¬ TreeOk (s.rV a) (s.rS x).toNat) (hs : s.settled s.cur = true) :
    exec (.manc a x) s = .next (s.trapHere 16 0) := by
  have hcheck : checkManc a x s = .trap 16 0 := by
    rw [checkManc, Bool.eq_false_iff.mpr (mt (treeOk_iff _ _).mp htree), require_false]
  exact trap_of_failed (exec_manc s a x) hs hcheck

end

end Sys2Proof.Machine
end

section
/-! PROOFS. vargmax: the order of elements is one of ranks, and the scan takes the first of the greatest (R146). -/

namespace Sys2Proof.Machine

/-! ## Exact values on the extended line -/

/-- The place of a value that is not a NaN. -/
noncomputable def XR.place : XR → EReal
  | .nan => 0
  | .inf neg => if neg then ⊥ else ⊤
  | .fin neg mag exp => ((signed neg mag * 2 ^ exp : ℝ) : EReal)

/-- A magnitude brought to a common exponent keeps its value. -/
theorem signed_scale (neg : Bool) (mag : Nat) {exp e : Int} (h : e ≤ exp) :
    ((signed neg (mag * 2 ^ (exp - e).toNat) : Int) : ℝ) * 2 ^ e = (signed neg mag : Int) * 2 ^ exp := by
  have hpow : (2 : ℝ) ^ (exp - e).toNat * 2 ^ e = 2 ^ exp := by
    rw [← zpow_natCast, Int.toNat_of_nonneg (by omega), ← zpow_add₀ two_ne_zero, Int.sub_add_cancel]
  cases neg <;> simp [signed, ← hpow, mul_assoc]

theorem XR.lt_iff {x y : XR} (hx : x.isNan = false) (hy : y.isNan = false) : x.lt y = true ↔ x.place < y.place := by
  cases x with
  | nan => cases hx
  | inf a =>
    cases y with
    | nan => cases hy
    | inf b => cases a <;> cases b <;> simp [XR.lt, XR.place]
    | fin sb mb eb => cases a <;> simp [XR.lt, XR.place, -EReal.coe_mul]
  | fin sa ma ea =>
    cases y with
    | nan => cases hy
    | inf b => cases b <;> simp [XR.lt, XR.place, -EReal.coe_mul]
    | fin sb mb eb =>
      rw [XR.place, XR.place, EReal.coe_lt_coe_iff, ← signed_scale sa ma (min_le_left ea eb), ← signed_scale sb mb (min_le_right ea eb),
        mul_lt_mul_iff_left₀ (by positivity), Int.cast_lt]
      exact decide_eq_true_iff

/-! ## The rank of an element -/

/-- The place of an element among those of its type. -/
noncomputable def elemPlace (ty : Ty) (x : Nat) : EReal :=
  if ty.isFp then (decodeFP (tyFmt ty) x).place else (((elemInt ty x : Int) : ℝ) : EReal)
/-- NaNs rank above every number (R146). -/
noncomputable def elemRank (ty : Ty) (x : Nat) : WithTop EReal := if elemNan ty x then ⊤ else elemPlace ty x

section
variable (ty : Ty) {x y : Nat}

theorem elemLt_iff (hx : elemNan ty x = false) (hy : elemNan ty y = false) : elemLt ty x y = true ↔ elemPlace ty x < elemPlace ty y := by
  unfold elemNan at hx hy
  unfold elemLt elemPlace
  cases h : ty.isFp
  · simp
  · rw [h, Bool.true_and] at hx hy
    simpa using XR.lt_iff hx hy
theorem argGreater_iff (x y : Nat) : argGreater ty x y = true ↔ elemRank ty y < elemRank ty x := by
  unfold argGreater elemRank
  cases hx : elemNan ty x
  · cases hy : elemNan ty y
    · simpa using elemLt_iff ty hy hx
    · simp
  · cases hy : elemNan ty y
    · simp
    · simp

end

/-! ## The scan -/

/-- The best element so far, against the next. -/
def argStep (gt : Nat → Nat → Bool) (m : Option Nat) (i : Nat) : Option Nat :=
  match m with
  | none => some i
  | some j => if gt i j then some i else some j
/-- i is the first of the greatest enabled elements below n. -/
def FirstGreatest (gt : Nat → Nat → Bool) (on : Nat → Bool) (n i : Nat) : Prop :=
  i < n ∧ on i = true ∧ (∀ j < n, on j = true → gt j i = false) ∧ ∀ j < i, on j = true → gt i j = true

section
variable {gt : Nat → Nat → Bool} {on : Nat → Bool} {α : Type} [LinearOrder α] {rank : Nat → α} {n i : Nat}

theorem firstGreatest_none (hgt : ∀ i j, gt i j = true ↔ rank j < rank i) (hnone : ∀ j < n, on j = false) (hn : on n = true) :
    FirstGreatest gt on (n + 1) n := by
  refine ⟨Nat.lt_succ_self n, hn, fun j hj hon => ?_, fun j hj hon => ?_⟩
  · obtain hj | rfl := Nat.lt_succ_iff_lt_or_eq.mp hj
    · rw [hnone j hj] at hon; cases hon
    · rw [Bool.eq_false_iff, ne_eq, hgt]
      exact lt_irrefl _
  · rw [hnone j hj] at hon; cases hon
theorem firstGreatest_greater (hgt : ∀ i j, gt i j = true ↔ rank j < rank i) (hi : FirstGreatest gt on n i) (hn : on n = true)
    (h : gt n i = true) : FirstGreatest gt on (n + 1) n := by
  obtain ⟨-, -, hmax, -⟩ := hi
  have hbelow (j : Nat) (hj : j < n) (hon : on j = true) : rank j < rank n := by
    have hle : rank j ≤ rank i := not_lt.mp fun hlt => by
      rw [← hgt, hmax j hj hon] at hlt
      cases hlt
    exact hle.trans_lt ((hgt n i).mp h)
  refine ⟨Nat.lt_succ_self n, hn, fun j hj hon => ?_, fun j hj hon => (hgt n j).mpr (hbelow j hj hon)⟩
  rw [Bool.eq_false_iff, ne_eq, hgt]
  obtain hj | rfl := Nat.lt_succ_iff_lt_or_eq.mp hj
  · exact (hbelow j hj hon).not_gt
  · exact lt_irrefl _
theorem firstGreatest_keep (hi : FirstGreatest gt on n i) (h : on n = true → gt n i = false) : FirstGreatest gt on (n + 1) i := by
  obtain ⟨hlt, hon, hmax, hfirst⟩ := hi
  refine ⟨hlt.trans (Nat.lt_succ_self n), hon, fun j hj hj' => ?_, hfirst⟩
  obtain hj | rfl := Nat.lt_succ_iff_lt_or_eq.mp hj
  · exact hmax j hj hj'
  · exact h hj'

/-- The scan finds none where none is enabled, and else the first of the greatest. -/
theorem argScan_cases (hgt : ∀ i j, gt i j = true ↔ rank j < rank i) (n : Nat) :
    (((List.range n).filter on).foldl (argStep gt) none = none ∧ ∀ j < n, on j = false) ∨
    ∃ i, ((List.range n).filter on).foldl (argStep gt) none = some i ∧ FirstGreatest gt on n i := by
  induction n with
  | zero => exact .inl ⟨rfl, nofun⟩
  | succ n ih =>
    rw [List.range_succ, List.filter_append, List.foldl_append]
    cases hn : on n
    · rw [List.filter_cons_of_neg (by simp [hn]), List.filter_nil, List.foldl_nil]
      obtain ⟨hscan, hnone⟩ | ⟨i, hscan, hi⟩ := ih
      · refine .inl ⟨hscan, fun j hj => ?_⟩
        obtain hj | rfl := Nat.lt_succ_iff_lt_or_eq.mp hj
        · exact hnone j hj
        · exact hn
      · exact .inr ⟨i, hscan, firstGreatest_keep hi fun h => absurd (hn.symm.trans h) Bool.false_ne_true⟩
    · rw [List.filter_cons_of_pos hn, List.filter_nil, List.foldl_cons, List.foldl_nil]
      obtain ⟨hscan, hnone⟩ | ⟨i, hscan, hi⟩ := ih
      · exact .inr ⟨n, by rw [hscan]; rfl, firstGreatest_none hgt hnone hn⟩
      · rw [hscan, argStep]
        by_cases h : gt n i = true
        · exact .inr ⟨n, if_pos h, firstGreatest_greater hgt hi hn h⟩
        · exact .inr ⟨i, if_neg h, firstGreatest_keep hi fun _ => Bool.eq_false_iff.mpr h⟩

end

/-! ## The instruction -/

section
variable (s : State) (ty : Ty) (d a : VReg) (x : SReg) (p : Pred)

/-- The element that vargmax takes. -/
def State.argBest (s : State) (ty : Ty) (a : VReg) (p : Pred) : Option Nat :=
  ((List.range (128 / ty.width)).filter (enabled ty.width (s.lat.pred p))).foldl
    (argStep fun i j => argGreater ty (lane ty.width (s.rV a) i) (lane ty.width (s.rV a) j)) none
/-- The vector that vargmax answers: the best element and its index behind the base, or all ones as the index of none. -/
def State.argAnswer (s : State) (ty : Ty) (a : VReg) (x : SReg) (best : Option Nat) : Vec :=
  match best with
  | none => ofLanes 4 [0, 0xFFFFFFFF]
  | some i => ofLanes 4 [lane ty.width (s.rV a) i, ((s.rS x).toNat + i) % 2 ^ 32]

theorem exec_vargmax : exec (.vargmax ty d a x p) s = .next (s.wVF d (s.argAnswer ty a x (s.argBest ty a p),
    nvIf ((List.range (128 / ty.width)).any fun i => enabled ty.width (s.lat.pred p) i && elemNan ty (lane ty.width (s.rV a) i)))) := by
  rw [← List.any_filter]
  rfl

theorem lane_pair (e i : Nat) : lane 4 (ofLanes 4 [e, i]) 0 = e % 2 ^ 32 ∧ lane 4 (ofLanes 4 [e, i]) 1 = i % 2 ^ 32 ∧
    ∀ k, 2 ≤ k → k < 32 → lane 4 (ofLanes 4 [e, i]) k = 0 := by
  refine ⟨lane_ofLanes 4 _ 0 (by omega), lane_ofLanes 4 _ 1 (by omega), fun k hk hlt => ?_⟩
  rw [lane_ofLanes 4 _ k (by omega), List.getD_eq_default _ _ (by simpa using hk), Nat.zero_mod]
theorem lane_argAnswer_above (best : Option Nat) {k : Nat} (h2 : 2 ≤ k) (hk : k < 32) : lane 4 (s.argAnswer ty a x best) k = 0 := by
  have habove (e i : Nat) : lane 4 (ofLanes 4 [e, i]) k = 0 := by
    obtain ⟨-, -, habove⟩ := lane_pair e i
    exact habove k h2 hk
  cases best with
  | none => exact habove ..
  | some i => exact habove ..
theorem argAnswer_none : lane 4 (s.argAnswer ty a x none) 0 = 0 ∧ lane 4 (s.argAnswer ty a x none) 1 = 2 ^ 32 - 1 := by
  obtain ⟨h0, h1, -⟩ := lane_pair 0 0xFFFFFFFF
  exact ⟨h0, h1⟩
theorem argAnswer_some {ty : Ty} (hw : ty.width ≤ 4) (i : Nat) : lane 4 (s.argAnswer ty a x (some i)) 0 = lane ty.width (s.rV a) i ∧
    lane 4 (s.argAnswer ty a x (some i)) 1 = ((s.rS x).toNat + i) % 2 ^ 32 := by
  obtain ⟨h0, h1, -⟩ := lane_pair (lane ty.width (s.rV a) i) (((s.rS x).toNat + i) % 2 ^ 32)
  have hlt : lane ty.width (s.rV a) i < 2 ^ 32 := (lane_lt ..).trans_le (Nat.pow_le_pow_right (by decide) (by omega))
  exact ⟨h0.trans (Nat.mod_eq_of_lt hlt), h1.trans (Nat.mod_mod ..)⟩

/-- What vargmax takes: none where no element is enabled, else the first of the greatest. -/
theorem argBest_cases :
    (s.argBest ty a p = none ∧ ∀ j < 128 / ty.width, enabled ty.width (s.lat.pred p) j = false) ∨
    ∃ i, s.argBest ty a p = some i ∧ FirstGreatest (fun i j => argGreater ty (lane ty.width (s.rV a) i) (lane ty.width (s.rV a) j))
      (enabled ty.width (s.lat.pred p)) (128 / ty.width) i :=
  argScan_cases (rank := fun i => elemRank ty (lane ty.width (s.rV a) i)) (fun _ _ => argGreater_iff ty _ _) _

/-- The elements of vargmax's answer. -/
theorem exec_vargmax_elements (hw : ty.width ≤ 4) :
    let n := 128 / ty.width
    let el (i : Nat) : Nat := lane ty.width (s.rV a) i
    let on (i : Nat) : Bool := enabled ty.width (s.lat.pred p) i
    ∃ v, exec (.vargmax ty d a x p) s = .next (s.wVF d (v, nvIf ((List.range n).any fun i => on i && elemNan ty (el i)))) ∧
      (∀ k, 2 ≤ k → k < 32 → lane 4 v k = 0) ∧
      ((∀ i < n, on i = false) → lane 4 v 0 = 0 ∧ lane 4 v 1 = 2 ^ 32 - 1) ∧
      ((∃ i < n, on i = true) → ∃ i < n, on i = true ∧ lane 4 v 0 = el i ∧ lane 4 v 1 = ((s.rS x).toNat + i) % 2 ^ 32 ∧
        (∀ j < n, on j = true → argGreater ty (el j) (el i) = false) ∧
        ∀ j < i, on j = true → argGreater ty (el i) (el j) = true) := by
  intro n el on
  refine ⟨_, exec_vargmax s ty d a x p, fun k => lane_argAnswer_above s ty a x _, fun hnone => ?_, fun ⟨i, hi, hon⟩ => ?_⟩
  · obtain ⟨hbest, -⟩ | ⟨i, -, hi, hon, -⟩ := argBest_cases s ty a p
    · rw [hbest]; exact argAnswer_none s ty a x
    · exact absurd ((hnone i hi).symm.trans hon) Bool.false_ne_true
  · obtain ⟨-, hnone⟩ | ⟨m, hbest, hm, hmon, hmax, hfirst⟩ := argBest_cases s ty a p
    · exact absurd ((hnone i hi).symm.trans hon) Bool.false_ne_true
    · obtain ⟨h0, h1⟩ := argAnswer_some s a x hw m
      rw [hbest]
      exact ⟨m, hm, hmon, h0, h1, hmax, hfirst⟩

end

end Sys2Proof.Machine
end

section
/-! PROOFS. The sampler's instructions: sparse addition, the filter's hashes and counts, the descent, and the generator
(R147 to R151). -/

namespace Sys2Proof.Machine

/-! ## vsparseadd -/

section
variable (v o : Vec) (base : Nat)

/-- Element e of the chunk with the values of the pairs below n that name it added in order. -/
def sparseSum (n e : Nat) : Nat := ((List.range n).filter fun i => lane 4 v (2 * i) == base + e).foldl
  (fun acc i => (fpAdd .f32 acc (lane 4 v (2 * i + 1))).1 % 2 ^ 32) (lane 4 o e)
/-- What pair j adds to its element. -/
def sparseAdd (j : Nat) : Nat × Flg := fpAdd .f32 (sparseSum v o base j (lane 4 v (2 * j) - base)) (lane 4 v (2 * j + 1))

theorem sparseSum_succ (n e : Nat) : sparseSum v o base (n + 1) e =
    if lane 4 v (2 * n) = base + e then (fpAdd .f32 (sparseSum v o base n e) (lane 4 v (2 * n + 1))).1 % 2 ^ 32
    else sparseSum v o base n e := by
  rw [sparseSum, List.range_succ, List.filter_append, List.foldl_append]
  by_cases h : lane 4 v (2 * n) = base + e
  · rw [if_pos h, List.filter_cons_of_pos (by simpa using h)]
    rfl
  · rw [if_neg h, List.filter_cons_of_neg (by simpa using h)]
    rfl

/-- The scan after n pairs has taken k of them, all below the chunk's end; it has ended at the first that is not. -/
structure SparseAfter (n : Nat) (acc : Vec × Nat × Bool × Flg) : Prop where
  taken_le : acc.2.1 ≤ n
  below : ∀ j < acc.2.1, lane 4 v (2 * j) < base + 32
  stopped : acc.2.2.1 = true → acc.2.1 < n ∧ base + 32 ≤ lane 4 v (2 * acc.2.1)
  going : acc.2.2.1 = false → acc.2.1 = n
  sums : ∀ e < 32, lane 4 acc.1 e = sparseSum v o base acc.2.1 e
  flags : ∀ b, acc.2.2.2.getLsbD b = (List.range acc.2.1).any fun j =>
    decide (base ≤ lane 4 v (2 * j)) && (sparseAdd v o base j).2.getLsbD b

variable {v o base} {n : Nat} {acc : Vec × Nat × Bool × Flg}

theorem sparseAfter_zero : SparseAfter v o base 0 (o, 0, false, 0) where
  taken_le := le_rfl
  below := nofun
  stopped := nofun
  going _ := rfl
  sums _ _ := rfl
  flags b := by simp

theorem sparseStep_of_end (h : acc.2.2.1 = true) : sparseStep v base acc n = acc := if_pos h
theorem sparseStep_ends (h : acc.2.2.1 = false) (hx : base + 32 ≤ lane 4 v (2 * n)) :
    sparseStep v base acc n = (acc.1, acc.2.1, true, acc.2.2.2) := by
  simp [sparseStep, h, hx]
theorem sparseStep_adds (h : acc.2.2.1 = false) (hlo : base ≤ lane 4 v (2 * n)) (hhi : lane 4 v (2 * n) < base + 32) :
    sparseStep v base acc n =
      (setLane 4 acc.1 (lane 4 v (2 * n) - base)
        (fpAdd .f32 (lane 4 acc.1 (lane 4 v (2 * n) - base)) (lane 4 v (2 * n + 1))).1, acc.2.1 + 1, false,
        acc.2.2.2 ||| (fpAdd .f32 (lane 4 acc.1 (lane 4 v (2 * n) - base)) (lane 4 v (2 * n + 1))).2) := by
  simp [sparseStep, h, hlo, hhi.not_ge]
theorem sparseStep_passes (h : acc.2.2.1 = false) (hlo : lane 4 v (2 * n) < base) :
    sparseStep v base acc n = (acc.1, acc.2.1 + 1, false, acc.2.2.2) := by
  simp [sparseStep, h, hlo.not_ge, show ¬ base + 32 ≤ lane 4 v (2 * n) by omega]

/-- One more pair below the chunk's end. -/
theorem SparseAfter.take {r : Vec} {fl : Flg} (h : SparseAfter v o base n acc) (hgo : acc.2.2.1 = false)
    (hhi : lane 4 v (2 * n) < base + 32) (hsum : ∀ e < 32, lane 4 r e = sparseSum v o base (n + 1) e)
    (hfl : ∀ b, fl.getLsbD b = (acc.2.2.2.getLsbD b || (decide (base ≤ lane 4 v (2 * n)) && (sparseAdd v o base n).2.getLsbD b))) :
    SparseAfter v o base (n + 1) (r, acc.2.1 + 1, false, fl) := by
  have hn := h.going hgo
  refine ⟨by simp [hn], fun j hj => ?_, nofun, fun _ => by simp [hn], fun e he => ?_, fun b => ?_⟩
  · obtain hj | rfl := Nat.lt_succ_iff_lt_or_eq.mp hj
    · exact h.below j hj
    · rwa [hn]
  · simpa only [hn] using hsum e he
  · simp [hfl, h.flags, hn, List.range_succ]

theorem sparseAfter_step (h : SparseAfter v o base n acc) : SparseAfter v o base (n + 1) (sparseStep v base acc n) := by
  cases hgo : acc.2.2.1
  · have hn := h.going hgo
    by_cases hhi : base + 32 ≤ lane 4 v (2 * n)
    · rw [sparseStep_ends hgo hhi]
      exact ⟨h.taken_le.trans (Nat.le_succ n), h.below, fun _ => ⟨by simp [hn], by simpa [hn] using hhi⟩, nofun, h.sums, h.flags⟩
    · by_cases hlo : base ≤ lane 4 v (2 * n)
      · have hsum := h.sums (lane 4 v (2 * n) - base) (by omega)
        rw [hn] at hsum
        rw [sparseStep_adds hgo hlo (not_le.mp hhi), hsum]
        refine h.take hgo (not_le.mp hhi) (fun e he => ?_) fun b => ?_
        · rw [sparseSum_succ]
          by_cases hx : lane 4 v (2 * n) = base + e
          · rw [if_pos hx, show lane 4 v (2 * n) - base = e by omega, lane_setLane_self _ _ (by omega)]
          · rw [if_neg hx, lane_setLane_ne _ _ (by omega), h.sums e he, hn]
        · rw [BitVec.getLsbD_or, decide_eq_true hlo, Bool.true_and]
          rfl
      · rw [sparseStep_passes hgo (not_le.mp hlo)]
        refine h.take hgo (not_le.mp hhi) (fun e he => ?_) fun b => ?_
        · rw [sparseSum_succ, if_neg (by omega), h.sums e he, hn]
        · rw [decide_eq_false hlo, Bool.false_and, Bool.or_false]
  · obtain ⟨hlt, hend⟩ := h.stopped hgo
    rw [sparseStep_of_end hgo]
    exact ⟨h.taken_le.trans (Nat.le_succ n), h.below, fun _ => ⟨hlt.trans (Nat.lt_succ_self n), hend⟩,
      fun hno => absurd (hgo.symm.trans hno).symm Bool.false_ne_true, h.sums, h.flags⟩

theorem sparseAfter_range (n : Nat) :
    SparseAfter v o base n ((List.range n).foldl (sparseStep v base) (o, 0, false, 0)) := by
  induction n with
  | zero => exact sparseAfter_zero
  | succ n ih =>
    rw [List.range_succ, List.foldl_append]
    exact sparseAfter_step ih

end

/-- vsparseadd: the pairs taken, the sums of the elements, and the flags of the additions. -/
theorem exec_vsparseadd_sums (s : State) (d a : VReg) (x : SReg) :
    let base := (s.rS x).toNat % 2 ^ 32
    let idx (j : Nat) : Nat := lane 4 (s.rV a) (2 * j)
    ∃ v fl k, exec (.vsparseadd d a x) s = .next ((s.wVF d (v, fl)).wS x (BitVec.ofNat 64 (k * 2 ^ 32 + base))) ∧ k ≤ 16 ∧
      (∀ j < k, idx j < base + 32) ∧ (k < 16 → base + 32 ≤ idx k) ∧
      (∀ e < 32, lane 4 v e = sparseSum (s.rV a) (s.rV d) base k e) ∧
      ∀ b, fl.getLsbD b = (List.range k).any fun j =>
        decide (base ≤ idx j) && (sparseAdd (s.rV a) (s.rV d) base j).2.getLsbD b := by
  intro base idx
  have hbase : fld (s.rS x) 0 32 = base := fld_zero ..
  obtain ⟨hle, hbelow, hstopped, hgoing, hsums, hflags⟩ := sparseAfter_range (v := s.rV a) (o := s.rV d) (base := base) 16
  refine ⟨_, _, _, ?_, hle, hbelow, fun hlt => ?_, hsums, hflags⟩
  · rw [← hbase]
    rfl
  · refine (hstopped ?_).2
    rw [← Bool.not_eq_false]
    exact fun hgo => absurd (hgoing hgo) hlt.ne

/-! ## vcfhash and vcfupd -/

section
variable (s : State) (d a : VReg) (x : SReg) (p : Pred)

theorem fld_high (x : Word64) : fld x 32 32 = x.toNat / 2 ^ 32 := by
  rw [fld, BitVec.extractLsb'_toNat, Nat.shiftRight_eq_div_pow]
  omega

/-- The hashes of vcfhash by its form. -/
theorem exec_vcfhash_forms {form : BitVec 2} (h : form ≠ 3) :
    exec (.vcfhash form d a x p) s = .next (s.wVF d (laneMap 4 (s.lat.pred p) (s.rV d) fun i =>
      let h0 := cfHash (lane 4 (s.rV a) i) ((s.rS x).toNat % 2 ^ 32)
      let h1 := cfHash (lane 4 (s.rV a) i) ((s.rS x).toNat / 2 ^ 32)
      (if form = 0 then h0 else if form = 1 then h1 else h1 * 2 ^ 16 + h0, 0))) := by
  show execVcfhash form d a x p s = _
  unfold execVcfhash
  rw [fld_zero, fld_high]
  obtain rfl | rfl | rfl : form = 0 ∨ form = 1 ∨ form = 2 := by
    revert form
    decide
  · rfl
  · rfl
  · rfl

/-- The hashes that a token of vcfupd names. -/
def cfLow (t : Nat) : Nat := t % 2 ^ 12
def cfHigh (t : Nat) : Nat := t / 2 ^ 16 % 2 ^ 12
/-- A token counted: each of its hashes once. -/
def cfCount (sl : Nat) (v : Vec) (t : Nat) : Vec :=
  if cfLow t = cfHigh t then cfBump sl v (cfLow t) else cfBump sl (cfBump sl v (cfLow t)) (cfHigh t)
/-- A token names counter e of the slice. -/
def cfHits (sl e t : Nat) : Bool := cfLow t == 128 * sl + e || cfHigh t == 128 * sl + e

section
variable (sl : Nat) (v : Vec) {e : Nat} (he : e < 128)
include he

theorem lane_cfBump (h : Nat) : lane 1 (cfBump sl v h) e = if h = 128 * sl + e then min 255 (lane 1 v e + 1) else lane 1 v e := by
  unfold cfBump
  by_cases hsl : h / 128 = sl
  · rw [if_pos hsl]
    by_cases heq : h = 128 * sl + e
    · rw [if_pos heq, show h % 128 = e by omega, lane_setLane_self _ _ (by omega)]
      exact Nat.mod_eq_of_lt (by omega)
    · rw [if_neg heq, lane_setLane_ne _ _ (by omega)]
  · rw [if_neg hsl, if_neg (by omega)]
theorem lane_cfCount (t : Nat) :
    lane 1 (cfCount sl v t) e = if cfHits sl e t then min 255 (lane 1 v e + 1) else lane 1 v e := by
  unfold cfCount cfHits
  by_cases hsame : cfLow t = cfHigh t
  · simp [hsame, lane_cfBump sl v he]
  · rw [if_neg hsame, lane_cfBump sl _ he, lane_cfBump sl _ he]
    by_cases hlow : cfLow t = 128 * sl + e
    · simp [hlow, show cfHigh t ≠ 128 * sl + e from fun h => hsame (hlow.trans h.symm)]
    · simp [hlow]
/-- Tokens counted one after another: each counter by the tokens that name it, up to its greatest value. -/
theorem lane_cfCounts (el : Nat → Nat) (on : Nat → Bool) (n : Nat) :
    lane 1 ((List.range n).foldl (fun v i => if on i then cfCount sl v (el i) else v) v) e =
      min 255 (lane 1 v e + ((List.range n).filter fun i => on i && cfHits sl e (el i)).length) := by
  induction n with
  | zero =>
    have hle : lane 1 v e ≤ 255 := Nat.le_of_lt_succ (lane_lt 1 v e)
    exact (min_eq_right hle).symm
  | succ n ih =>
    rw [List.range_succ, List.foldl_append, List.filter_append, List.length_append, List.foldl_cons, List.foldl_nil]
    cases hon : on n
    · simp [hon, ih]
    · cases hhit : cfHits sl e (el n)
      · simp [hon, hhit, lane_cfCount sl _ he, ih]
      · simp only [hon, hhit, lane_cfCount sl _ he, ih, if_true, Bool.and_self, List.filter_cons_of_pos, List.filter_nil,
          List.length_singleton]
        omega

end

theorem exec_vcfupd : exec (.vcfupd d a x p) s = .next (s.wV d ((List.range 32).foldl (fun v i =>
    if enabled 4 (s.lat.pred p) i then cfCount ((s.rS x).toNat % 32) v (lane 4 (s.rV a) i) else v) (s.rV d))) := by
  have hlow (t : Nat) : bits t 11 0 = cfLow t := by rw [bits, pow_zero, Nat.div_one]; rfl
  have hsl : fld (s.rS x) 0 5 = (s.rS x).toNat % 32 := fld_zero ..
  show execVcfupd d a x p s = _
  unfold execVcfupd
  simp only [hlow, hsl]
  rfl

end

/-! ## vdesc -/

section
variable (s : State) (d a : VReg)

/-- The sum before child j. -/
def State.descBefore (s : State) (a : VReg) (j : Nat) : Nat := if j = 0 then 0 else lane 4 (s.rV a) (j - 1)
/-- The child's sum exceeds the target; the child has weight. -/
def State.descExceeds (s : State) (d a : VReg) (i : Nat) : Bool := elemLt .f32 (lane 4 (s.rV d) 0) (lane 4 (s.rV a) i)
def State.descWeighs (s : State) (a : VReg) (i : Nat) : Bool := elemLt .f32 (s.descBefore a i) (lane 4 (s.rV a) i)
/-- The child that the descent goes to: the first that exceeds the target, else the last with weight. -/
def State.descChild (s : State) (d a : VReg) : Option Nat :=
  match (List.range 32).find? (s.descExceeds d a) with
  | some j => some j
  | none => (List.range 32).reverse.find? (s.descWeighs a)
/-- The invalid flag of the descent: a NaN among the target and the sums. -/
def State.descNan (s : State) (d a : VReg) : Flg :=
  nvIf (elemNan .f32 (lane 4 (s.rV d) 0) || (List.range 32).any fun i => elemNan .f32 (lane 4 (s.rV a) i))
/-- The destination of a descent to child j, with the flags; and of one that finds no child. -/
def State.descTo (s : State) (d a : VReg) (j : Nat) : Vec × Flg :=
  (setLane 4 (setLane 4 (setLane 4 (s.rV d) 0 (fpSub .f32 (lane 4 (s.rV d) 0) (s.descBefore a j)).1) 1
    ((lane 4 (s.rV d) 1 * 32 + j) % 2 ^ 32)) 2 j, s.descNan d a ||| (fpSub .f32 (lane 4 (s.rV d) 0) (s.descBefore a j)).2)
def State.descNone (s : State) (d a : VReg) : Vec × Flg :=
  (setLane 4 (setLane 4 (s.rV d) 1 0xFFFFFFFF) 2 0xFFFFFFFF, s.descNan d a)

theorem exec_vdesc_leaf (h : lane 4 (s.rV d) 1 = 0xFFFFFFFF) :
    exec (.vdesc d a) s = .next (s.wV d (setLane 4 (s.rV d) 2 0xFFFFFFFF)) := if_pos h
theorem exec_vdesc_inner (h : lane 4 (s.rV d) 1 ≠ 0xFFFFFFFF) : exec (.vdesc d a) s =
    match s.descChild d a with
    | none => .next (s.wVF d (s.descNone d a))
    | some j => .next (s.wVF d (s.descTo d a j)) := by
  show execVdesc d a s = _
  unfold execVdesc
  dsimp only
  rw [if_neg h, lanes, List.any_map]
  rfl

/-! Which child is the one. -/

theorem find?_range_first {f : Nat → Bool} {n j : Nat} (hj : j < n) (h : f j = true) (hfirst : ∀ i < j, f i = false) :
    (List.range n).find? f = some j :=
  List.find?_range_eq_some.mpr ⟨h, List.mem_range.mpr hj, fun i hi => by rw [hfirst i hi]; rfl⟩
theorem find?_reverse_range_last {f : Nat → Bool} {n j : Nat} (hj : j < n) (h : f j = true) (hlast : ∀ i < n, j < i → f i = false) :
    (List.range n).reverse.find? f = some j := by
  induction n with
  | zero => exact absurd hj (Nat.not_lt_zero j)
  | succ n ih =>
    rw [List.range_succ, List.reverse_append, List.reverse_singleton, List.singleton_append]
    obtain hlt | rfl := Nat.lt_succ_iff_lt_or_eq.mp hj
    · rw [List.find?_cons_of_neg (by simp [hlast n (Nat.lt_succ_self n) hlt])]
      exact ih hlt fun i hi => hlast i (hi.trans (Nat.lt_succ_self n))
    · exact List.find?_cons_of_pos h
theorem find?_none_of {f : Nat → Bool} {xs : List Nat} (h : ∀ i ∈ xs, f i = false) : xs.find? f = none :=
  List.find?_eq_none.mpr fun i hi => by rw [h i hi]; exact Bool.false_ne_true

section
variable {s d a}

theorem descChild_exceeds {j : Nat} (hj : j < 32) (h : s.descExceeds d a j = true) (hfirst : ∀ i < j, s.descExceeds d a i = false) :
    s.descChild d a = some j := by
  rw [State.descChild, find?_range_first hj h hfirst]
variable (hnone : ∀ i < 32, s.descExceeds d a i = false)
include hnone
theorem descChild_weighs {j : Nat} (hj : j < 32) (h : s.descWeighs a j = true) (hlast : ∀ i < 32, j < i → s.descWeighs a i = false) :
    s.descChild d a = some j := by
  rw [State.descChild, find?_none_of fun i hi => hnone i (List.mem_range.mp hi)]
  exact find?_reverse_range_last hj h hlast
theorem descChild_none (h : ∀ i < 32, s.descWeighs a i = false) : s.descChild d a = none := by
  rw [State.descChild, find?_none_of fun i hi => hnone i (List.mem_range.mp hi)]
  exact find?_none_of fun i hi => h i (List.mem_range.mp (List.mem_reverse.mp hi))

end

/-! What stands in the destination. -/

/-- The first three elements of a vector, and every other as it was. -/
def DescHolds (o v : Vec) (e0 e1 e2 : Nat) : Prop :=
  lane 4 v 0 = e0 ∧ lane 4 v 1 = e1 ∧ lane 4 v 2 = e2 ∧ ∀ k, 3 ≤ k → k < 32 → lane 4 v k = lane 4 o k

section
variable {o v : Vec} {e0 e1 e2 : Nat} (h : DescHolds o v e0 e1 e2) (x : Nat)
include h
theorem DescHolds.set0 : DescHolds o (setLane 4 v 0 x) (x % 2 ^ 32) e1 e2 := by
  obtain ⟨-, h1, h2, hk⟩ := h
  exact ⟨lane_setLane_self _ _ (by decide), (lane_setLane_ne _ _ (by decide)).trans h1, (lane_setLane_ne _ _ (by decide)).trans h2,
    fun k hk3 hlt => (lane_setLane_ne _ _ (by omega)).trans (hk k hk3 hlt)⟩
theorem DescHolds.set1 : DescHolds o (setLane 4 v 1 x) e0 (x % 2 ^ 32) e2 := by
  obtain ⟨h0, -, h2, hk⟩ := h
  exact ⟨(lane_setLane_ne _ _ (by decide)).trans h0, lane_setLane_self _ _ (by decide), (lane_setLane_ne _ _ (by decide)).trans h2,
    fun k hk3 hlt => (lane_setLane_ne _ _ (by omega)).trans (hk k hk3 hlt)⟩
theorem DescHolds.set2 : DescHolds o (setLane 4 v 2 x) e0 e1 (x % 2 ^ 32) := by
  obtain ⟨h0, h1, -, hk⟩ := h
  exact ⟨(lane_setLane_ne _ _ (by decide)).trans h0, (lane_setLane_ne _ _ (by decide)).trans h1, lane_setLane_self _ _ (by decide),
    fun k hk3 hlt => (lane_setLane_ne _ _ (by omega)).trans (hk k hk3 hlt)⟩

end

theorem descHolds_refl (o : Vec) : DescHolds o o (lane 4 o 0) (lane 4 o 1) (lane 4 o 2) := ⟨rfl, rfl, rfl, fun _ _ _ => rfl⟩
theorem descHolds_leaf : DescHolds (s.rV d) (setLane 4 (s.rV d) 2 0xFFFFFFFF) (lane 4 (s.rV d) 0) (lane 4 (s.rV d) 1) (2 ^ 32 - 1) :=
  (descHolds_refl _).set2 0xFFFFFFFF
theorem descHolds_none : DescHolds (s.rV d) (s.descNone d a).1 (lane 4 (s.rV d) 0) (2 ^ 32 - 1) (2 ^ 32 - 1) :=
  ((descHolds_refl _).set1 0xFFFFFFFF).set2 0xFFFFFFFF
theorem descHolds_to {j : Nat} (hj : j < 32) : DescHolds (s.rV d) (s.descTo d a j).1
    ((fpSub .f32 (lane 4 (s.rV d) 0) (s.descBefore a j)).1 % 2 ^ 32) ((lane 4 (s.rV d) 1 * 32 + j) % 2 ^ 32) j := by
  have h := (((descHolds_refl (s.rV d)).set0 (fpSub .f32 (lane 4 (s.rV d) 0) (s.descBefore a j)).1).set1
    ((lane 4 (s.rV d) 1 * 32 + j) % 2 ^ 32)).set2 j
  rwa [Nat.mod_mod, Nat.mod_eq_of_lt (show j < 2 ^ 32 by omega)] at h

/-- The descent goes to child j. -/
theorem exec_vdesc_to {j : Nat} (hj : j < 32) (hnode : lane 4 (s.rV d) 1 ≠ 2 ^ 32 - 1) (h : s.descChild d a = some j) :
    ∃ v, DescHolds (s.rV d) v ((fpSub .f32 (lane 4 (s.rV d) 0) (s.descBefore a j)).1 % 2 ^ 32)
        ((lane 4 (s.rV d) 1 * 32 + j) % 2 ^ 32) j ∧
      exec (.vdesc d a) s =
        .next (s.wVF d (v, s.descNan d a ||| (fpSub .f32 (lane 4 (s.rV d) 0) (s.descBefore a j)).2)) := by
  refine ⟨_, descHolds_to s d a hj, ?_⟩
  rw [exec_vdesc_inner s d a hnode, h]
  rfl
theorem exec_vdesc_none (hnode : lane 4 (s.rV d) 1 ≠ 2 ^ 32 - 1) (h : s.descChild d a = none) :
    ∃ v, DescHolds (s.rV d) v (lane 4 (s.rV d) 0) (2 ^ 32 - 1) (2 ^ 32 - 1) ∧
      exec (.vdesc d a) s = .next (s.wVF d (v, s.descNan d a)) := by
  refine ⟨_, descHolds_none s d a, ?_⟩
  rw [exec_vdesc_inner s d a hnode, h]
  rfl

end

/-! ## vphilox -/

/-- Blocks of four laid one after another. -/
theorem getD_flatMap_four (q : Nat → List Nat) (hq : ∀ g, (q g).length = 4) {n g c : Nat} (hg : g < n) (hc : c < 4) :
    ((List.range n).flatMap q).getD (4 * g + c) 0 = (q g).getD c 0 := by
  have hlen (m : Nat) : ((List.range m).flatMap q).length = 4 * m := by
    simp [List.length_flatMap, hq, Nat.mul_comm]
  induction n with
  | zero => exact absurd hg (Nat.not_lt_zero g)
  | succ n ih =>
    rw [List.range_succ, List.flatMap_append, List.flatMap_singleton]
    obtain hlt | rfl := Nat.lt_succ_iff_lt_or_eq.mp hg
    · rw [List.getD_append _ _ _ _ (by rw [hlen]; omega), ih hlt]
    · rw [List.getD_append_right _ _ _ _ (by rw [hlen]; omega), hlen, Nat.add_sub_cancel_left]

/-- The outputs of the generator on block g of vA. -/
def State.philoxAt (s : State) (a b : VReg) (g : Nat) : Nat × Nat × Nat × Nat :=
  philox (lane 4 (s.rV a) (4 * g), lane 4 (s.rV a) (4 * g + 1), lane 4 (s.rV a) (4 * g + 2), lane 4 (s.rV a) (4 * g + 3))
    (lane 4 (s.rV b) 0) (lane 4 (s.rV b) 1)
/-- A block's four words as a list. -/
def wordsOf (r : Nat × Nat × Nat × Nat) : List Nat := [r.1, r.2.1, r.2.2.1, r.2.2.2]

theorem exec_vphilox (s : State) (d a b : VReg) :
    exec (.vphilox d a b) s = .next (s.wV d (ofLanes 4 ((List.range 8).flatMap fun g => wordsOf (s.philoxAt a b g)))) := rfl
theorem lane_philox (s : State) (a b : VReg) {g c : Nat} (hg : g < 8) (hc : c < 4) :
    lane 4 (ofLanes 4 ((List.range 8).flatMap fun g => wordsOf (s.philoxAt a b g))) (4 * g + c) =
      (wordsOf (s.philoxAt a b g)).getD c 0 % 2 ^ 32 := by
  rw [lane_ofLanes 4 _ _ (by omega), getD_flatMap_four (fun g => wordsOf (s.philoxAt a b g)) (fun _ => rfl) hg hc]

/-! ## All of them -/

/-- Settles O24: each instruction by the laws of its operation. -/
theorem predicateMaskAndSamplerResults : Obligations.PredicateMaskAndSamplerResults := by
  intro s ty d a b x pd pa pb md ma mb p form
  refine ⟨rfl, rfl, rfl, rfl, rfl, rfl, rfl, ?mset, ?mget, ?manc, exec_vargmax_elements s ty d a x p, exec_vsparseadd_sums s d a x,
    exec_vcfhash_forms s d a x p, ?vcfupd, ?vdesc, ?vphilox⟩
  case mset => rw [BitVec.ofNat_toNat]; rfl
  case mget => rw [BitVec.ofNat_toNat]; rfl
  case manc =>
    simp only [← parentAt_eq]
    exact ⟨exec_manc_masks s a x, exec_manc_trap s a x⟩
  case vcfupd => exact ⟨_, exec_vcfupd s d a x p, fun e he => lane_cfCounts _ _ he _ _ 32⟩
  case vdesc =>
    refine ⟨fun hleaf => ⟨_, descHolds_leaf s d, exec_vdesc_leaf s d a hleaf⟩, fun hnode => ⟨fun j hj h hfirst => ?_, fun hnone => ?_⟩⟩
    · exact exec_vdesc_to s d a hj hnode (descChild_exceeds hj h hfirst)
    · exact ⟨fun j hj h hlast => exec_vdesc_to s d a hj hnode (descChild_weighs hnone hj h hlast),
        fun h => exec_vdesc_none s d a hnode (descChild_none hnone h)⟩
  case vphilox =>
    refine ⟨_, exec_vphilox s d a b, fun g hg => ?_⟩
    have hlane {c : Nat} (hc : c < 4) := lane_philox s a b hg hc
    exact ⟨hlane (c := 0) (by decide), hlane (c := 1) (by decide), hlane (c := 2) (by decide), hlane (c := 3) (by decide)⟩

end Sys2Proof.Machine
end

section
/-! PROOFS. Loads: what a load whose checks pass gives, and loads of the context's own scratchpad, which change one register
(R153 to R157, R162 to R164, R170). -/

namespace Sys2Proof.Machine

/-! ## The instructions as their checks and effects -/

section
variable (s : State) (ty : Ty) (vc : BitVec 3) (d i : SReg) (v iv : VReg) (p : PReg) (k : KReg) (q : QReg) (off : BitVec 17)
  (sc : BitVec 2) (scope : BitVec 3)

theorem exec_ld : exec (.ld ty vc d q off) s = s.resolve (checkLd ty vc q off s) fun s => s.loadS ty d (s.eaOff q off) (s.vcOf vc) := rfl
theorem exec_ldx : exec (.ldx ty vc d q i sc) s =
    s.resolve (checkLdx ty vc q i sc s) fun s => s.loadS ty d (s.eaIdx q i sc) (s.vcOf vc) := rfl
theorem exec_lda : exec (.lda ty vc d q scope) s = s.resolve (checkLda ty vc q s) fun s => s.loadS ty d (s.rQ q) (s.vcOf vc) := rfl
theorem exec_vld : exec (.vld ty vc v q off) s = s.resolve (checkVld ty vc q off s) fun s => s.loadV v (s.eaOff q off) (s.vcOf vc) := rfl
theorem exec_vldx : exec (.vldx ty vc v q i sc) s =
    s.resolve (checkVldx ty vc q i sc s) fun s => s.loadV v (s.eaIdx q i sc) (s.vcOf vc) := rfl
theorem exec_vldbc : exec (.vldbc ty vc v q off) s = execVldbc ty vc v q off s := rfl
theorem exec_vlds : exec (.vlds ty vc v q i sc) s = execVlds ty vc v q i sc s := rfl
theorem exec_vgath : exec (.vgath ty vc v q iv sc) s = execVgath ty vc v q iv sc s := rfl
theorem exec_kld : exec (.kld vc k q off) s = execKld vc k q off s := rfl
theorem exec_pld : exec (.pld vc p q off) s = execPld vc p q off s := rfl

end

/-- Settles O31: each load is its checks' verdict and its effect. -/
theorem loadsComplete : Obligations.LoadsComplete := by
  intro s ty vc d i v iv p k q off sc scope w n c rd a x okay
  exact ⟨next_of_passed (exec_ld ..), next_of_passed (exec_ldx ..), next_of_passed (exec_lda ..), next_of_passed (exec_vld ..),
    next_of_passed (exec_vldx ..), next_of_passed (exec_vldbc ..), next_of_passed (exec_vlds ..), next_of_passed (exec_vgath ..),
    next_of_passed (exec_kld ..), next_of_passed (exec_pld ..)⟩

/-! ## Addresses of the own scratchpad -/

theorem vaHome_toNat (va : VA) : vaHome va = va.toNat / 2 ^ 68 := home_eq va

theorem Verdict.all_eq_ok {vs : List Verdict} : Verdict.all vs = .ok ↔ ∀ v ∈ vs, v = .ok := by
  induction vs with
  | nil => simp [Verdict.all]
  | cons v vs ih => rw [Verdict.all, Verdict.andThen_eq_ok, ih, List.forall_mem_cons]

theorem width_dvd_line (ty : Ty) : ty.width ∣ 128 := by cases ty <;> decide

/-- An access of `len` bytes, aligned, that lies in the scratchpad of the context in issue. -/
def State.inSpad (s : State) (va : VA) (align len : Nat) : Prop :=
  isSpad va = true ∧ vaHome va = dieOf s.cur ∧ va.toNat % align = 0 ∧ spadOff va + len ≤ 2 ^ 22

/-- The lines that an access touches keep its home, and its alignment where that divides a line. -/
theorem touched_keeps {va a : VA} {align len : Nat} (hdvd : align ∣ 128) (ha : a ∈ touched va len) (hal : va.toNat % align = 0) :
    vaHome a = vaHome va ∧ a.toNat % align = 0 := by
  simp only [touched, segs, List.map_map, List.mem_map, List.mem_range, Function.comp_apply] at ha
  obtain ⟨i, -, rfl⟩ := ha
  split
  · exact ⟨rfl, hal⟩
  · next hi =>
    have hline : (qoff va (128 * i - fld va 0 7 : Nat)).toNat % 128 = 0 := by
      have hfirst : fld va 0 7 = va.toNat % 128 := fld_zero va 7
      rw [qoff_toNat]
      omega
    refine ⟨?_, Nat.mod_eq_zero_of_dvd (hdvd.trans (Nat.dvd_of_mod_eq_zero hline))⟩
    rw [vaHome_toNat, vaHome_toNat, qoff_home]

section
variable {s : State} {va : VA} {align len : Nat}

theorem addrCheck_of_spad {n : Nat} (hs : isSpad va = true) (hh : vaHome va = dieOf n) (hal : va.toNat % align = 0) :
    addrCheck n va align = .ok := by
  simp [addrCheck, hs, hh, hal]

theorem touched_inSpad (h : s.inSpad va align len) : ∀ a ∈ touched va len, isSpad a = true := by
  obtain ⟨hs, -, -, hl⟩ := h
  intro a ha
  obtain ⟨g, hg, rfl⟩ := List.mem_map.mp ha
  exact (segs_spad hs hl).1 g hg

theorem addrChecks_of_inSpad (hdvd : align ∣ 128) (h : s.inSpad va align len) : addrChecks s.cur va align len = .ok := by
  have ⟨_, hown, haligned, _⟩ := h
  refine Verdict.all_eq_ok.mpr fun v hv => ?_
  obtain ⟨a, ha, rfl⟩ := List.mem_map.mp hv
  obtain ⟨hhome, hal⟩ := touched_keeps hdvd ha haligned
  exact addrCheck_of_spad (touched_inSpad h a ha) (hhome.trans hown) hal

end

/-! ## What the checks of a load ask of such an access -/

theorem viewCheck_of_spad (s : State) (asid : BitVec 16) (v : BitVec 3) {gs : List (VA × Nat)} (h : ∀ g ∈ gs, isSpad g.1 = true)
    (done : List (VA × Acc)) : s.viewCheck asid v gs done = .ok := by
  induction gs generalizing done with
  | nil => rfl
  | cons g gs ih =>
    have hg := h g List.mem_cons_self
    rw [State.viewCheck, State.viewOk, hg]
    exact ih (fun x hx => h x (List.mem_cons_of_mem _ hx)) _

theorem reachAll_of_spad (s : State) (n : Nat) (asid : BitVec 16) (a : Acc) (v : BitVec 3) {vas : List VA}
    (h : ∀ x ∈ vas, isSpad x = true) (done : List VA) : s.reachAll n asid a v vas done = .ok := by
  induction vas generalizing done with
  | nil => rfl
  | cons x vas ih =>
    rw [State.reachAll, if_pos (h x List.mem_cons_self)]
    exact ih (fun y hy => h y (List.mem_cons_of_mem _ hy)) _

theorem accessReady_of_spad {s : State} {n : Nat} (asid : BitVec 16) (a : Acc) {vas : List VA} (hout : s.outLocal n = false)
    (h : ∀ x ∈ vas, isSpad x = true) : s.accessReady n asid a vas = .ok := by
  unfold State.accessReady
  rw [List.all_eq_true.mpr fun x hx => by simp [hout, h x hx], Bool.or_true, waitFor_true]

section
variable {s : State} (hgate : s.cx.gate = []) (hout : s.outLocal s.cur = false)

include hout in
/-- Loads of the own scratchpad pass their checks where no die-local store waits. -/
theorem loadCheck_of_inSpad {vas : List VA} {align len : Nat} (hdvd : align ∣ 128) (vc : Word64) (h : ∀ va ∈ vas, s.inSpad va align len) :
    s.loadCheck s.cur vas align len vc = .ok := by
  have htouched : ∀ a ∈ vas.flatMap fun a => touched a len, isSpad a = true := by
    intro a ha
    obtain ⟨va, hva, ha⟩ := List.mem_flatMap.mp ha
    exact touched_inSpad (h va hva) a ha
  have hsegs : ∀ g ∈ vas.flatMap fun a => segs a len, isSpad g.1 = true := by
    intro g hg
    obtain ⟨va, hva, hg⟩ := List.mem_flatMap.mp hg
    exact touched_inSpad (h va hva) g.1 (List.mem_map_of_mem hg)
  have haddr : Verdict.all (vas.map fun a => addrChecks s.cur a align len) = .ok := by
    refine Verdict.all_eq_ok.mpr fun v hv => ?_
    obtain ⟨va, hva, rfl⟩ := List.mem_map.mp hv
    exact addrChecks_of_inSpad hdvd (h va hva)
  unfold State.loadCheck
  simp only [haddr, viewCheck_of_spad s _ _ hsegs, reachAll_of_spad s _ _ _ _ htouched, accessReady_of_spad _ _ hout htouched,
    Verdict.andThen]

include hgate

theorem loadHere_of_inSpad {va : VA} {align len : Nat} (vc : Word64) (h : s.inSpad va align len) :
    s.loadHere va len vc = s.spadBytes (clusterOf s.cur) (spadOff va) len := by
  obtain ⟨hs, -, -, hl⟩ := h
  exact readVia_spad_of_empty s _ _ hs hl hgate

theorem loadDone_of_inSpad {va : VA} {align len : Nat} (vc : Word64) (h : s.inSpad va align len) : s.loadDone va len vc = s := by
  obtain ⟨hs, -, -, hl⟩ := h
  exact loadEffect_spad_of_empty s _ vc hs hl hgate

theorem loadsDone_of_inSpad {vas : List VA} {align len : Nat} (vc : Word64) (h : ∀ va ∈ vas, s.inSpad va align len) :
    s.loadsDone vas len vc = s :=
  foldl_fixed vas fun va hva => loadDone_of_inSpad hgate vc (h va hva)

end

theorem mem_live {s : State} {ty : Ty} {iv : VReg} {e : Nat} :
    e ∈ s.live ty iv ↔ e < 128 / ty.width ∧ lane ty.width (s.rV iv) e ≠ 2 ^ (8 * ty.width) - 1 := by
  simp [State.live]

/-- Settles O32: the loads of O31, whose checks pass, read the cluster and leave nothing beside. -/
theorem scratchpadLoadsReadTheCluster : Obligations.ScratchpadLoadsReadTheCluster := by
  intro s ty vc d i v iv p k q off sc scope w n rd a x here hgate hout
  obtain ⟨hld, hldx, hlda, hvld, hvldx, hvldbc, hvlds, hvgath, hkld, hpld⟩ := loadsComplete s ty vc d i v iv p k q off sc scope
  dsimp only at hld hldx hlda hvld hvldx hvldbc hvlds hvgath hkld hpld
  have hw : w ∣ 128 := width_dvd_line ty
  have hcheck {align len : Nat} {vas : List VA} (hd : align ∣ 128) (h : ∀ va ∈ vas, here va align len) :=
    loadCheck_of_inSpad (s := s) hout hd (s.vcOf vc) h
  have hone {align len : Nat} {va : VA} (hd : align ∣ 128) (h : here va align len) :
      s.loadCheck s.cur [va] align len (s.vcOf vc) = .ok := hcheck hd (List.forall_mem_singleton.mpr h)
  have hdone {align len : Nat} {va : VA} (h : here va align len) := loadDone_of_inSpad hgate (s.vcOf vc) h
  have hread {align len : Nat} {va : VA} (h : here va align len) : leNat (s.loadHere va len (s.vcOf vc)) = rd va len :=
    congrArg leNat (loadHere_of_inSpad hgate (s.vcOf vc) h)
  refine ⟨fun h => ?_, fun h => ?_, fun h => ?_, fun h => ?_, fun h => ?_, fun h => ?_, fun h => ?vlds, fun h => ?vgath, fun h => ?_,
    fun h => ?_⟩
  · rw [hld (hone hw h), hdone h, hread h]
  · rw [hldx (hone hw h), hdone h, hread h]
  · rw [hlda (hone hw h), hdone h, hread h]
  · rw [hvld (hone hw h), hdone h, hread h]
  · rw [hvldx (hone hw h), hdone h, hread h]
  · rw [hvldbc (hone hw h), hdone h, hread h]
  case vlds =>
    have hall : ∀ va ∈ s.strides ty q i sc, here va w w := by
      intro va hva
      obtain ⟨e, he, rfl⟩ := List.mem_map.mp hva
      exact h e (List.mem_range.mp he)
    rw [hvlds (hcheck hw hall), loadsDone_of_inSpad hgate _ hall, List.map_congr_left fun va hva => hread (hall va hva), State.strides,
      List.map_map]
    rfl
  case vgath =>
    have hall : ∀ va ∈ (s.live ty iv).map (s.eaVec ty q iv sc), here va w w := by
      intro va hva
      obtain ⟨e, he, rfl⟩ := List.mem_map.mp hva
      obtain ⟨hlt, hlive⟩ := mem_live.mp he
      exact h e hlt hlive
    have helem : ∀ e ∈ List.range n, (if lane w (s.rV iv) e = 2 ^ (8 * w) - 1 then 0
        else leNat (s.loadHere (s.eaVec ty q iv sc e) w (s.vcOf vc))) =
          if lane w (s.rV iv) e = 2 ^ (8 * w) - 1 then 0 else rd (s.eaVec ty q iv sc e) w := by
      intro e he
      split
      · rfl
      · next hlive => exact hread (h e (List.mem_range.mp he) hlive)
    rw [hvgath (hcheck hw hall), loadsDone_of_inSpad hgate _ hall, List.map_congr_left helem]
  · rw [hkld (hone (by decide) h), hdone h, hread h]
  · rw [hpld (hone (by decide) h), hdone h, hread h]

end Sys2Proof.Machine
end

section
/-! PROOFS. Atomics: their forms, what one does to a location of the scratchpad, and the operation's value by type (R166 to R169). -/

namespace Sys2Proof.Machine

/-! ## The instructions as their checks and effects -/

section
variable (s : State) (ty : Ty) (d b : SReg) (a : QReg) (ord : BitVec 2) (scope : BitVec 3)

theorem exec_amadd : exec (.amadd ty d a b ord scope) s = s.resolve (checkAtomic ty a ord s) fun s => s.atomicRet .add ty d a b := rfl
theorem exec_ammin : exec (.ammin ty d a b ord scope) s = s.resolve (checkAtomic ty a ord s) fun s => s.atomicRet .min ty d a b := rfl
theorem exec_ammax : exec (.ammax ty d a b ord scope) s = s.resolve (checkAtomic ty a ord s) fun s => s.atomicRet .max ty d a b := rfl
theorem exec_amand : exec (.amand ty d a b ord scope) s = s.resolve (checkAtomic ty a ord s) fun s => s.atomicRet .and ty d a b := rfl
theorem exec_amor : exec (.amor ty d a b ord scope) s = s.resolve (checkAtomic ty a ord s) fun s => s.atomicRet .or ty d a b := rfl
theorem exec_amxor : exec (.amxor ty d a b ord scope) s = s.resolve (checkAtomic ty a ord s) fun s => s.atomicRet .xor ty d a b := rfl
theorem exec_amxchg : exec (.amxchg ty d a b ord scope) s = s.resolve (checkAtomic ty a ord s) fun s => s.atomicRet .xchg ty d a b := rfl
theorem exec_amcas : exec (.amcas ty d a b ord scope) s = s.resolve (checkAtomic ty a ord s) fun s => s.atomicRet .cas ty d a b := rfl
theorem exec_stadd : exec (.stadd ty a b ord scope) s = s.resolve (checkAtomic ty a ord s) fun s => s.atomicNo .add ty a b := rfl
theorem exec_stmin : exec (.stmin ty a b ord scope) s = s.resolve (checkAtomic ty a ord s) fun s => s.atomicNo .min ty a b := rfl
theorem exec_stmax : exec (.stmax ty a b ord scope) s = s.resolve (checkAtomic ty a ord s) fun s => s.atomicNo .max ty a b := rfl
theorem exec_stand : exec (.stand ty a b ord scope) s = s.resolve (checkAtomic ty a ord s) fun s => s.atomicNo .and ty a b := rfl
theorem exec_stor : exec (.stor ty a b ord scope) s = s.resolve (checkAtomic ty a ord s) fun s => s.atomicNo .or ty a b := rfl
theorem exec_stxor : exec (.stxor ty a b ord scope) s = s.resolve (checkAtomic ty a ord s) fun s => s.atomicNo .xor ty a b := rfl

end

/-! ## Bytes and numbers -/

/-- The number of a byte string gives the string back. -/
theorem toLE_leNat (bs : List Byte) : toLE bs.length (leNat bs) = bs := by
  induction bs with
  | nil => rfl
  | cons b bs ih =>
    have hb : b.toNat < 256 := b.isLt
    rw [List.length_cons, toLE, leNat, show (b.toNat + 256 * leNat bs) / 256 = leNat bs by omega, ih]
    congr 1
    apply BitVec.eq_of_toNat_eq
    rw [BitVec.toNat_ofNat]
    omega

/-- The element that an integer names is the integer modulo its width. -/
theorem elemInt_emod (ty : Ty) {x : Nat} (hx : x < 2 ^ (8 * ty.width)) : elemInt ty x % (2 ^ (8 * ty.width) : Nat) = x := by
  have hcast : (x : Int) % (2 ^ (8 * ty.width) : Nat) = x := by rw [← Int.natCast_mod, Nat.mod_eq_of_lt hx]
  have hbits : 1 ≤ 8 * ty.width := by cases ty <;> decide
  unfold elemInt
  split
  · rw [sx_of_lt hbits hx]
    split
    · rw [Int.sub_emod_right, hcast]
    · exact hcast
  · exact hcast

theorem wrap_elemInt (ty : Ty) {x : Nat} (hx : x < 2 ^ (8 * ty.width)) : wrap (8 * ty.width) (elemInt ty x) = x :=
  Int.ofNat_inj.mp ((wrap_cast ..).trans (elemInt_emod ty hx))

theorem wrap_elemInt_add (ty : Ty) {x y : Nat} (hx : x < 2 ^ (8 * ty.width)) (hy : y < 2 ^ (8 * ty.width)) :
    wrap (8 * ty.width) (elemInt ty x + elemInt ty y) = (x + y) % 2 ^ (8 * ty.width) := by
  refine Int.ofNat_inj.mp ((wrap_cast ..).trans ?_)
  rw [Int.add_emod, elemInt_emod ty hx, elemInt_emod ty hy]
  rfl

/-! ## The operation's value -/

/-- On an integer type an operation is one on integers, and raises no flag (R167). -/
theorem apply_int {ty : Ty} (hty : ty ≠ .f32) {old x : Nat} (hold : old < 2 ^ (8 * ty.width)) (hx : x < 2 ^ (8 * ty.width)) (e : Nat) :
    (∀ op : AtomOp, (op.apply ty old x e).2 = 0) ∧
    (AtomOp.add.apply ty old x e).1 = some ((old + x) % 2 ^ (8 * ty.width)) ∧
    (AtomOp.min.apply ty old x e).1 = some (if elemInt ty old ≤ elemInt ty x then old else x) ∧
    (AtomOp.max.apply ty old x e).1 = some (if elemInt ty old ≤ elemInt ty x then x else old) := by
  refine ⟨fun op => ?_, ?_, ?_, ?_⟩
  · cases op <;> simp [AtomOp.apply, hty]
  · simp only [AtomOp.apply, if_neg hty, wrap_elemInt_add ty hold hx]
  · simp only [AtomOp.apply, if_neg hty, apply_ite (wrap (8 * ty.width)), wrap_elemInt ty hold, wrap_elemInt ty hx]
  · simp only [AtomOp.apply, if_neg hty, apply_ite (wrap (8 * ty.width)), wrap_elemInt ty hold, wrap_elemInt ty hx]

/-! ## The location of an atomic in the scratchpad -/

theorem spadOff_room {ty : Ty} {va : VA} (hal : va.toNat % ty.width = 0) : spadOff va + ty.width ≤ 2 ^ 22 := by
  have hwidth : ty.width = 1 ∨ ty.width = 2 ∨ ty.width = 4 ∨ ty.width = 8 := by cases ty <;> decide
  rw [spadOff_toNat]
  obtain h | h | h | h := hwidth <;> rw [h] at hal ⊢ <;> omega

theorem spadWrite_issue (s : State) (o : Option Nat) (k : Nat) (bs : List (Nat × Byte)) : (s.spadWrite o k bs).issue = s.issue := by
  obtain ⟨cs, fs, h⟩ := spadWrite_eq s o k bs
  rw [h]

section
variable {s : State} {ty : Ty} {va : VA} (hspad : isSpad va = true) (hal : va.toNat % ty.width = 0)
  (hskew : sget [] s.skews (clusterOf s.cur) = []) (hgate : s.cx.gate = [])

/-- The number that stands at an atomic's location. -/
def State.spadElem (s : State) (ty : Ty) (va : VA) : Nat := leNat (s.spadBytes (clusterOf s.cur) (spadOff va) ty.width)

theorem spadElem_lt (s : State) (ty : Ty) (va : VA) : s.spadElem ty va < 2 ^ (8 * ty.width) := by
  have h := leNat_lt (s.spadBytes (clusterOf s.cur) (spadOff va) ty.width)
  rw [length_spadBytes, show 256 = 2 ^ 8 from rfl, ← pow_mul] at h
  exact h

include hspad hgate in
/-- An atomic at the scratchpad reads and writes the bank, with the gate gone. -/
theorem atomicAt_spad (f : Nat → Option Nat) : s.atomicAt ty va f = match f (s.spadElem ty va) with
    | some x => (s.gateGone s.cur).spadWrite (some s.cur) (clusterOf s.cur) (offsetBytes (spadOff va) (toLE ty.width x))
    | none => s.gateGone s.cur := by
  unfold State.atomicAt
  simp only [hspad, if_true, show s.releaseGate s.cur = s.gateGone s.cur from releaseGate_of_empty s hgate]
  rfl

include hspad hal hgate in
theorem atomicOld_spad : s.atomicOld ty va = s.spadElem ty va :=
  congrArg leNat (readVia_spad_of_empty s _ 0 hspad (spadOff_room hal) hgate)

include hspad hal hskew hgate in
/-- What an atomic at the scratchpad leaves: the operation's value at its location where there is one, every other byte, memory and the
registers as they were. -/
theorem atomicAt_spad_leaves (f : Nat → Option Nat) :
    (s.atomicAt ty va f).mem = s.mem ∧ (s.atomicAt ty va f).issue = s.issue ∧
    (∀ m, ((s.atomicAt ty va f).ctx m).regs = (s.ctx m).regs) ∧
    (s.atomicAt ty va f).spadBytes (clusterOf s.cur) (spadOff va) ty.width =
      toLE ty.width ((f (s.spadElem ty va)).getD (s.spadElem ty va)) ∧
    (f (s.spadElem ty va) = none → (s.atomicAt ty va f).spad = s.spad) ∧
    ∀ a, (∀ i < ty.width, a ≠ clusterOf s.cur * 2 ^ 22 + (spadOff va + i)) →
      rdByte (s.atomicAt ty va f).spad a = rdByte s.spad a := by
  have hat := atomicAt_spad (ty := ty) hspad hgate f
  cases hf : f (s.spadElem ty va) with
  | none =>
    rw [hf] at hat
    rw [hat]
    have hbytes := toLE_leNat (s.spadBytes (clusterOf s.cur) (spadOff va) ty.width)
    rw [length_spadBytes] at hbytes
    exact ⟨rfl, rfl, regs_gateGone s s.cur, hbytes.symm, fun _ => rfl, fun _ _ => rfl⟩
  | some x =>
    rw [hf] at hat
    dsimp only at hat
    have hlen := length_toLE ty.width x
    have hroom : spadOff va + (toLE ty.width x).length ≤ 2 ^ 22 := by rw [hlen]; exact spadOff_room hal
    have hskew' : sget [] (s.gateGone s.cur).skews (clusterOf s.cur) = [] := hskew
    rw [hat]
    refine ⟨spadWrite_mem .., spadWrite_issue .., fun m => (spadWrite_regs ..).trans (regs_gateGone s s.cur m), ?_, (nomatch ·),
      fun a ha => ?_⟩
    · have hread := spadBytes_spadWrite_offsetBytes (some s.cur) hskew' hroom
      rw [hlen] at hread
      exact hread
    · rw [spadWrite_offsetBytes_spad (some s.cur) hskew' hroom]
      refine rdByte_wrBytes_out _ s.spad ?_
      rw [hlen]
      have hin := ha (a - (clusterOf s.cur * 2 ^ 22 + spadOff va))
      omega

end

/-! ## The registers after an atomic -/

/-- The old value as sD takes it: extended by its sign for `.i32` (R167). -/
theorem atomicExtend_eq (ty : Ty) {old : Nat} (h : old < 2 ^ (8 * ty.width)) :
    (if ty = .i32 then BitVec.ofInt 64 (sx 32 old) else BitVec.ofNat 64 old : Word64) =
      BitVec.ofInt 64 (if ty = .i32 ∧ 2 ^ 31 ≤ old then (old : Int) - 2 ^ 32 else old) := by
  by_cases hty : ty = .i32
  · subst hty
    have hsx : sx 32 old = if 2 ^ 31 ≤ old then (old : Int) - (2 ^ 32 : Nat) else (old : Int) := sx_of_lt (by decide) h
    rw [if_pos rfl, hsx]
    simp only [true_and]
    rfl
  · rw [if_neg hty, if_neg (fun hc => hty hc.1), BitVec.ofInt_natCast]

/-- A value, or the old one, stands at an atomic's location, and beside it nothing of memory, of the scratchpads and of the registers of
other contexts has changed. -/
def State.landsAt (s : State) (ty : Ty) (va : VA) (t : State) (v : Option Nat) : Prop :=
  t.mem = s.mem ∧ t.spadBytes (clusterOf s.cur) (spadOff va) ty.width = toLE ty.width (v.getD (s.spadElem ty va)) ∧
  (∀ x, (∀ i < ty.width, x ≠ clusterOf s.cur * 2 ^ 22 + (spadOff va + i)) → rdByte t.spad x = rdByte s.spad x) ∧
  ∀ n, n ≠ s.cur → (t.ctx n).regs = (s.ctx n).regs

section
variable {s t : State} {ty : Ty} {va : VA} {v : Option Nat}

theorem landsAt_updRegs (h : s.landsAt ty va t v) (hcur : t.cur = s.cur) (f : Regs → Regs) : s.landsAt ty va (t.updRegs f) v := by
  obtain ⟨hmem, hbytes, hframe, hregs⟩ := h
  refine ⟨hmem, hbytes, hframe, fun n hn => ?_⟩
  rw [State.ctx_updRegs_ne t f (hn.trans_eq hcur.symm), hregs n hn]

theorem landsAt_raiseFlags (h : s.landsAt ty va t v) (hcur : t.cur = s.cur) (fl : Flg) : s.landsAt ty va (t.raiseFlags fl) v :=
  landsAt_updRegs h hcur fun r => { r with fstat := r.fstat ||| fl.setWidth 64 }

end

section
variable {s : State} {ty : Ty} {a : QReg} (hspad : isSpad (s.rQ a) = true) (hal : (s.rQ a).toNat % ty.width = 0)
  (hskew : sget [] s.skews (clusterOf s.cur) = []) (hgate : s.cx.gate = []) (op : AtomOp) (b d : SReg)
include hspad hal hskew hgate

theorem landsAt_atomicAt (f : Nat → Option Nat) :
    s.landsAt ty (s.rQ a) (s.atomicAt ty (s.rQ a) f) (f (s.spadElem ty (s.rQ a))) ∧ (s.atomicAt ty (s.rQ a) f).cur = s.cur ∧
      (s.atomicAt ty (s.rQ a) f).cx.regs = s.cx.regs := by
  obtain ⟨hmem, hissue, hregs, hbytes, -, hframe⟩ := atomicAt_spad_leaves hspad hal hskew hgate f
  refine ⟨⟨hmem, hbytes, hframe, fun n _ => hregs n⟩, congrArg Issue.ctx hissue, ?_⟩
  rw [State.cx, hissue]
  exact hregs _

/-- A form with return: the value lands, sD takes the old one, and fstat the flags (R167, R168). -/
theorem atomicRet_spad :
    s.landsAt ty (s.rQ a) (s.atomicRet op ty d a b) (s.atomicVal op ty b (s.rS d) (s.spadElem ty (s.rQ a))).1 ∧
    (s.atomicRet op ty d a b).cx.regs = { s.cx.regs.ws d (if ty = .i32 then BitVec.ofInt 64 (sx 32 (s.spadElem ty (s.rQ a)))
        else BitVec.ofNat 64 (s.spadElem ty (s.rQ a))) with
      fstat := s.cx.regs.fstat ||| (s.atomicVal op ty b (s.rS d) (s.spadElem ty (s.rQ a))).2.setWidth 64 } := by
  obtain ⟨hlands, hcur, hregs⟩ := landsAt_atomicAt hspad hal hskew hgate fun o => (s.atomicVal op ty b (s.rS d) o).1
  unfold State.atomicRet
  dsimp only
  rw [atomicOld_spad hspad hal hgate]
  refine ⟨landsAt_raiseFlags (landsAt_updRegs hlands hcur _) hcur _, ?_⟩
  rw [State.cx_raiseFlags, State.cx_wS, hregs]
  rfl

/-- A form without return: the value lands, and its flags wait for a drain. -/
theorem atomicNo_spad :
    s.landsAt ty (s.rQ a) (s.atomicNo op ty a b) (s.atomicVal op ty b 0 (s.spadElem ty (s.rQ a))).1 ∧
    (s.atomicNo op ty a b).cx.regs =
      { s.cx.regs with aflags := s.cx.regs.aflags ||| (s.atomicVal op ty b 0 (s.spadElem ty (s.rQ a))).2 } := by
  obtain ⟨hlands, hcur, hregs⟩ := landsAt_atomicAt hspad hal hskew hgate fun o => (s.atomicVal op ty b 0 o).1
  unfold State.atomicNo
  dsimp only
  rw [atomicOld_spad hspad hal hgate]
  refine ⟨landsAt_updRegs hlands hcur _, ?_⟩
  rw [State.cx_updRegs, hregs]

end

/-- Settles O35: the forms by their checks, the location by the bank's bytes, and the operation's value by the type. -/
theorem atomicsComplete : Obligations.AtomicsComplete := by
  refine ⟨fun s ty d b a ord scope hcheck => ?forms, fun s ty va f hspad hal hskew hgate => ?location,
    fun s op ty d b a hspad hal hskew hgate => ?registers, fun old x e => ⟨rfl, rfl, rfl, rfl, rfl⟩,
    fun ty old x e hty hold hx => ?value⟩
  case forms =>
    exact ⟨next_of_passed (exec_amadd ..) hcheck, next_of_passed (exec_ammin ..) hcheck, next_of_passed (exec_ammax ..) hcheck,
      next_of_passed (exec_amand ..) hcheck, next_of_passed (exec_amor ..) hcheck, next_of_passed (exec_amxor ..) hcheck,
      next_of_passed (exec_amxchg ..) hcheck, next_of_passed (exec_amcas ..) hcheck, next_of_passed (exec_stadd ..) hcheck,
      next_of_passed (exec_stmin ..) hcheck, next_of_passed (exec_stmax ..) hcheck, next_of_passed (exec_stand ..) hcheck,
      next_of_passed (exec_stor ..) hcheck, next_of_passed (exec_stxor ..) hcheck⟩
  case location =>
    intro k o t
    obtain ⟨hmem, -, hregs, hbytes, hnone, hframe⟩ := atomicAt_spad_leaves hspad hal hskew hgate f
    rw [atomicOld_spad hspad hal hgate]
    refine ⟨hmem, hregs, rfl, fun x hx => ?_, fun y hy => ?_⟩
    · rw [hx] at hbytes
      exact hbytes
    · obtain hf | hy := hy
      · exact congrArg (rdByte · y) (hnone hf)
      · exact hframe y hy
  case registers =>
    intro k o old r lands ext
    have hext := atomicExtend_eq ty (spadElem_lt s ty (s.rQ a))
    obtain ⟨hret, hretRegs⟩ := atomicRet_spad hspad hal hskew hgate op b d
    obtain ⟨hno, hnoRegs⟩ := atomicNo_spad hspad hal hskew hgate op b
    rw [hext] at hretRegs
    exact ⟨⟨hret, hretRegs⟩, hno, hnoRegs⟩
  case value =>
    have hint : ty ≠ .f32 := by rintro rfl; simp at hty
    obtain ⟨hflags, hadd, hmin, hmax⟩ := apply_int hint hold hx e
    exact ⟨hflags, hadd, hmin, hmax, rfl, rfl, rfl, rfl, rfl⟩

end Sys2Proof.Machine
end

section
/-! PROOFS. Skewed tiles: entry and removal, and the permutation of a tile's rows; and the block gather at issue (R165, R179). -/

namespace Sys2Proof.Machine

/-! ## The permutation of a tile's rows -/

section
variable {e : Skew} {o : Nat}

theorem skewOff_outside (h : o < e.offset ∨ e.offset + e.rows * e.rb ≤ o) : skewOff [e] o = o := by
  have hfind : [e].find? (fun e => decide (e.offset ≤ o) && decide (o < e.offset + e.rows * e.rb)) = none :=
    List.find?_eq_none.mpr fun x hx => by
      rw [List.mem_singleton.mp hx]
      simp only [Bool.and_eq_true, decide_eq_true_eq]
      omega
  rw [skewOff, hfind]

/-- Inside the tile an offset keeps its row, in which it is rotated by four bytes a row. -/
theorem skewOff_inside (h : e.offset ≤ o) (h' : o < e.offset + e.rows * e.rb) :
    skewOff [e] o = e.offset + (o - e.offset) / e.rb * e.rb + ((o - e.offset) % e.rb + 4 * ((o - e.offset) / e.rb)) % e.rb := by
  have hfind : [e].find? (fun e => decide (e.offset ≤ o) && decide (o < e.offset + e.rows * e.rb)) = some e :=
    List.find?_cons_of_pos (by simp [h, h'])
  rw [skewOff, hfind]

section
variable (hrb : 0 < e.rb) (h : e.offset ≤ o) (h' : o < e.offset + e.rows * e.rb)
include hrb h h'

omit hrb in
theorem offset_le_skewOff : e.offset ≤ skewOff [e] o := by
  rw [skewOff_inside h h', Nat.add_assoc]
  exact Nat.le_add_right _ _

theorem skewOff_row : (skewOff [e] o - e.offset) / e.rb = (o - e.offset) / e.rb := by
  rw [skewOff_inside h h', Nat.add_assoc, Nat.add_sub_cancel_left, Nat.add_comm, Nat.add_mul_div_right _ _ hrb,
    Nat.div_eq_of_lt (Nat.mod_lt _ hrb), Nat.zero_add]

omit hrb in
theorem skewOff_col : (skewOff [e] o - e.offset) % e.rb = ((o - e.offset) % e.rb + 4 * ((o - e.offset) / e.rb)) % e.rb := by
  rw [skewOff_inside h h', Nat.add_assoc, Nat.add_sub_cancel_left, Nat.mul_comm, Nat.mul_add_mod, Nat.mod_mod]

theorem skewOff_lt : skewOff [e] o < e.offset + e.rows * e.rb := by
  have hrow : (skewOff [e] o - e.offset) / e.rb < e.rows := by
    rw [skewOff_row hrb h h', Nat.div_lt_iff_lt_mul hrb]
    omega
  have hle := offset_le_skewOff h h'
  rw [Nat.div_lt_iff_lt_mul hrb] at hrow
  omega

end

/-- The tile's offsets are permuted among themselves. -/
theorem skewOff_inTile_iff (hrb : 0 < e.rb) : (e.offset ≤ skewOff [e] o ∧ skewOff [e] o < e.offset + e.rows * e.rb) ↔
    (e.offset ≤ o ∧ o < e.offset + e.rows * e.rb) := by
  by_cases ho : e.offset ≤ o ∧ o < e.offset + e.rows * e.rb
  · exact iff_of_true ⟨offset_le_skewOff ho.1 ho.2, skewOff_lt hrb ho.1 ho.2⟩ ho
  · rw [skewOff_outside (by omega)]

/-- Two offsets that a tile puts in one place are one offset. -/
theorem skewOff_injective (hrb : 0 < e.rb) {p : Nat} (heq : skewOff [e] o = skewOff [e] p) : o = p := by
  have htile := skewOff_inTile_iff (o := o) hrb
  rw [heq, skewOff_inTile_iff hrb] at htile
  by_cases ho : e.offset ≤ o ∧ o < e.offset + e.rows * e.rb
  · obtain ⟨hp, hp'⟩ := htile.mpr ho
    obtain ⟨ho, ho'⟩ := ho
    have hrow : (o - e.offset) / e.rb = (p - e.offset) / e.rb := by
      rw [← skewOff_row hrb ho ho', heq, skewOff_row hrb hp hp']
    have hcol : (o - e.offset) % e.rb = (p - e.offset) % e.rb := by
      have hrot := skewOff_col ho ho'
      rw [heq, skewOff_col hp hp', hrow] at hrot
      have hmod := (Nat.ModEq.add_right_cancel' _ hrot).symm
      rwa [Nat.ModEq, Nat.mod_mod, Nat.mod_mod] at hmod
    have hdiff : o - e.offset = p - e.offset := by
      rw [← Nat.div_add_mod (o - e.offset) e.rb, hrow, hcol, Nat.div_add_mod]
    omega
  · have hp := mt htile.mp ho
    rwa [skewOff_outside (by omega), skewOff_outside (by omega)] at heq

end

/-! ## The instructions -/

theorem exec_spmode (a b : SReg) (s : State) : exec (.spmode a b) s = execSpmode a b s := rfl
theorem exec_bgath (d : CReg) (a : KReg) (b : QReg) (c : SReg) (zero : Bool) (s : State) :
    exec (.bgath d a b c zero) s = execBgath d a b c zero s := rfl

/-- The skew entries of a cluster once a tile has been entered or removed. -/
def skewsAfter (es : List Skew) (x : Nat) (remove : Bool) (l : Option Nat) : List Skew :=
  if remove then es.filter fun e => e.offset != bits x 21 0 else es ++ [⟨bits x 21 0, tileRows x, tileRb x, l⟩]

theorem exec_spmode_skews {a b : SReg} {s : State} (h : checkSpmode a b s = .ok) : ∃ t, exec (.spmode a b) s = .next t ∧
    sget [] t.skews (clusterOf s.cur) =
      skewsAfter (sget [] (s.releaseGate s.cur).skews (clusterOf s.cur)) (s.rS a).toNat ((s.rS b).toNat == 0) s.cx.launch := by
  rw [exec_spmode, execSpmode, h, resolve_ok]
  exact ⟨_, rfl, sget_sput_self ..⟩

theorem bits_tileOffset (x : Nat) : bits x 21 0 = x % 2 ^ 22 := by simp [bits]

/-- Settles O41: spmode by the table it writes, the permutation by a tile's rows, and bgath by the command it queues. -/
theorem skewAndBlockGather : Obligations.SkewAndBlockGather := by
  refine ⟨fun s a b hcheck => ?spmode,
    fun e hrb => ⟨fun o h => skewOff_outside h, fun o h h' => ⟨skewOff_row hrb h h', offset_le_skewOff h h', skewOff_col h h'⟩,
      fun o p heq => skewOff_injective hrb heq⟩,
    fun s d a b c zero hcheck => ?bgath⟩
  case spmode =>
    intro x k es
    obtain ⟨t, ht, hskews⟩ := exec_spmode_skews hcheck
    refine ⟨t, ht, fun hoff => ?_, fun hon => ⟨s.cx.launch, ?_⟩⟩
    · rw [hskews, hoff, skewsAfter, if_pos (by decide), bits_tileOffset]
    · rw [hskews, hon, skewsAfter, if_neg (by decide), bits_tileOffset]
  case bgath =>
    rw [exec_bgath, execBgath, hcheck, resolve_ok]
    exact ⟨_, _, rfl, rfl, rfl, rfl, rfl, rfl⟩

end Sys2Proof.Machine
end

section
/-! PROOFS. fence, drain, pref and dsync (R165, R171, R172, R177, R178): the gate that a release leaves empty, the wait behind a drain,
and the arrival of a domain sync. -/

namespace Sys2Proof.Machine

/-! ## The gate after its release -/

/-- What a context holds of stores that are not released: its gate, but for the marks of other parties' accesses, and its watches. -/
def Ctx.gateView (c : Ctx) : List GateEnt × List Watch := (c.gate.map GateEnt.bare, c.watch)

theorem gateView_bare (c : Ctx) : c.bare.gateView = c.gateView := by
  unfold Ctx.gateView Ctx.bare
  rw [List.map_map]
  rfl

theorem gateView_of_outline {s t : State} (h : t.outline = s.outline) (n : Nat) : (t.ctx n).gateView = (s.ctx n).gateView :=
  ctx_of_outline Ctx.gateView gateView_bare h n

section
variable (s : State) (n m : Nat)

theorem gateView_updCtx (f : Ctx → Ctx) (h : ∀ c : Ctx, (f c).gateView = c.gateView) :
    ((s.updCtx m f).ctx n).gateView = (s.ctx n).gateView := by
  by_cases hn : n = m
  · rw [hn, State.ctx_updCtx_self, h]
  · rw [State.ctx_updCtx_ne s f hn]

theorem ctx_msiRaise (v : Nat) : (s.msiRaise v).ctx n = s.ctx n := rfl
theorem gateView_postError (d r : Nat) : ((s.postError d r).ctx n).gateView = (s.ctx n).gateView := by
  unfold State.postError
  dsimp only
  split
  · rw [ctx_msiRaise]
    exact gateView_of_outline (by simp) n
  · rfl
theorem gateView_windowStore (d off : Nat) (bs : List Byte) : ((s.windowStore d off bs).ctx n).gateView = (s.ctx n).gateView := by
  unfold State.windowStore State.ring
  dsimp only
  split
  · split
    · rfl
    · split
      · exact gateView_postError ..
      · exact gateView_of_outline (outline_unitWrite ..) n
  · rfl
theorem gateView_spadWrite (o : Option Nat) (k : Nat) (bs : List (Nat × Byte)) :
    ((s.spadWrite o k bs).ctx n).gateView = (s.ctx n).gateView := by
  obtain ⟨cs, fs, h⟩ := spadWrite_eq s o k bs
  rw [h]
  exact sget_mapEntries Ctx.zero (fun e : Nat × Ctx => { e.2 with conflict := fs e }) s.ctxs n Ctx.gateView fun _ => rfl

theorem gateView_foldl {β : Type} {f : State → β → State} (hf : ∀ s x, ((f s x).ctx n).gateView = (s.ctx n).gateView) (xs : List β) :
    ((xs.foldl f s).ctx n).gateView = (s.ctx n).gateView := by
  induction xs generalizing s with
  | nil => rfl
  | cons x xs ih => rw [List.foldl_cons, ih, hf]

/-- A store that performs, or is lost, changes no gate and no watch. -/
theorem gateView_performOut (g : GateEnt) : ((s.performOut m g).ctx n).gateView = (s.ctx n).gateView := by
  unfold State.performOut State.perform
  split
  · exact gateView_updCtx s n m _ fun _ => rfl
  · split
    · exact gateView_spadWrite ..
    · split
      · refine gateView_foldl _ _ (fun s bs => ?_) _
        split
        · rfl
        · exact gateView_windowStore ..
      · exact gateView_of_outline (outline_ctxStore ..) n
theorem gateView_drainList (gs : List GateEnt) : ((s.drainList m gs).ctx n).gateView = (s.ctx n).gateView := by
  induction gs generalizing s with
  | nil => exact gateView_updCtx s n m _ fun _ => rfl
  | cons g gs ih =>
    unfold State.drainList
    split
    · rw [ih, gateView_performOut]
    · exact gateView_updCtx s n m _ fun _ => rfl

/-- A release leaves the gate empty and nothing watched (R313). -/
theorem gateView_releaseGate : ((s.releaseGate n).ctx n).gateView = ([], []) := by
  unfold State.releaseGate
  split
  · rw [State.ctx_updCtx_self]
    rfl
  · unfold State.drainOut
    dsimp only
    rw [gateView_drainList, State.ctx_updCtx_self]
    rfl
theorem releaseGate_gate : ((s.releaseGate n).ctx n).gate = [] ∧ ((s.releaseGate n).ctx n).watch = [] := by
  have h := gateView_releaseGate s n
  rw [Ctx.gateView, Prod.mk.injEq, List.map_eq_nil_iff] at h
  exact h

end

/-! ## fence and drain -/

section
variable {s : State} (scope : BitVec 3)

theorem exec_fence : exec (.fence scope) s =
    s.resolve (checkFence s) fun s => (s.releaseGate s.cur).upd fun c => { c with fence := s.nextCmd + 1 } := rfl
theorem exec_drain : exec .drain s =
    s.resolve (checkDrain s) fun s => (s.releaseGate s.cur).upd fun c => { c with draining := true } := rfl

end

/-! ## The wait behind a drain -/

section
variable {s : State} {n : Nat} (hd : (s.ctx n).draining = true)
include hd

theorem drained_of_quiet (hr : s.readsDone n = true) (ho : s.outs n = []) : s.drained n =
    s.updCtx n fun c => { c with draining := false, regs := c.regs.takeFlags, ck := c.ck.takeFlags } := by
  have hquiet : s.quiet n = true := by simp [State.quiet, hr, ho]
  rw [State.drained, hd, hquiet]
  rfl

omit hd in
theorem drained_of_busy (h : s.readsDone n = false ∨ s.outs n ≠ []) : s.drained n = s := by
  have hquiet : s.quiet n = false := by
    obtain h | h := h
    · simp [State.quiet, h]
    · simp [State.quiet, h]
  rw [State.drained, hquiet, Bool.and_false]
  rfl

/-- Until its accesses have performed the context behind a drain issues nothing (R172). -/
theorem issueCtx_of_draining (h : s.readsDone n = false ∨ s.outs n ≠ []) (hc : (s.ctx n).conflict = false) :
    s.issueCtx n = .next (s.enter n) := by
  have hdrain : ((s.enter n).ctx n).draining = true := by rw [enter_ctx]; exact hd
  have hconflict : ((s.enter n).ctx n).conflict = false := by rw [enter_ctx]; exact hc
  unfold State.issueCtx
  simp only [drained_of_busy h, hdrain, hconflict, Bool.false_eq_true, if_false, if_true]

end

/-! ## dsync -/

theorem exec_dsync (ord : BitVec 2) (scope : BitVec 3) (s : State) : exec (.dsync ord scope) s = execDsync ord scope s := rfl

theorem readsDone_of_bgath {s : State} {n : Nat}
    (h : ∃ c ∈ s.cmds, c.ctx = n ∧ ∃ d a b k z, c.ins = .bgath d a b k z) : s.readsDone n = false := by
  obtain ⟨c, hc, hctx, d, a, b, k, z, hins⟩ := h
  unfold State.readsDone
  rw [Bool.not_eq_false', List.any_eq_true]
  exact ⟨c, hc, by simp [hctx, hins]⟩

section
variable {s : State} {ord : BitVec 2} (scope : BitVec 3) (hre : s.recheck s.cur = .ok)
include hre

theorem checkDsync_of_recheck : checkDsync ord s = blockFor (s.dsyncReady ord && s.dsyncArrive.dsyncDone) := by
  rw [checkDsync, hre]
  rfl

/-- A dsync that may not arrive yet blocks as it is (R177). -/
theorem exec_dsync_of_notReady (h : s.dsyncReady ord = false) : exec (.dsync ord scope) s = .next s.blockHere := by
  have hcheck : checkDsync ord s = .block := by rw [checkDsync_of_recheck hre, h]; rfl
  rw [exec_dsync, execDsync, hcheck, h]
  rfl

/-- One that has arrived completes with its sync. -/
theorem exec_dsync_of_done (h : s.dsyncReady ord = true) (hdone : s.dsyncArrive.dsyncDone = true) :
    exec (.dsync ord scope) s = .next (s.dsyncArrive.upd fun c => { c with joined := false }) := by
  have hcheck : checkDsync ord s = .ok := by rw [checkDsync_of_recheck hre, h, hdone]; rfl
  rw [exec_dsync, execDsync, hcheck, h]
  rfl

theorem exec_dsync_of_waiting (h : s.dsyncReady ord = true) (hdone : s.dsyncArrive.dsyncDone = false) :
    exec (.dsync ord scope) s = .next s.dsyncArrive.blockHere := by
  have hcheck : checkDsync ord s = .block := by rw [checkDsync_of_recheck hre, h, hdone]; rfl
  rw [exec_dsync, execDsync, hcheck, h]
  rfl

end

/-! ## pref -/

theorem exec_pref (l2 : Bool) (vc : BitVec 3) (q : QReg) (off : BitVec 17) (s : State) :
    exec (.pref l2 vc q off) s = execPref l2 vc q off s := rfl

/-- A dropped prefetch changes nothing (R178). -/
theorem exec_pref_of_dropped {s : State} {l2 : Bool} {vc : BitVec 3} {q : QReg} {off : BitVec 17}
    (h : s.prefLine (s.eaOff q off) l2 (if l2 then 0 else vcView (s.vcOf vc)) = none) : exec (.pref l2 vc q off) s = .next s := by
  rw [exec_pref, execPref]
  dsimp only
  rw [h]

theorem prefLine_of_spad {s : State} {va : VA} (h : isSpad va = true) (l2 : Bool) (v : BitVec 3) : s.prefLine va l2 v = none := by
  rw [State.prefLine, h]
  rfl

/-- Settles O37: fence, drain and dsync by their checks, the wait behind a drain, and the prefetches that are dropped. -/
theorem orderingCompletes : Obligations.OrderingCompletes := by
  intro s q off l2 vc scope ord
  refine ⟨fun hre => ⟨next_of_passed (exec_fence scope) hre, next_of_passed exec_drain hre, releaseGate_gate s s.cur, fun hgate => ?empty,
    fun hreads hjoined hrel => ?gathers, fun hjoined hready => ?notReady, fun hready => ?ready⟩, fun n hd => ?drain, ?pref,
    fun hspad => exec_pref_of_dropped (prefLine_of_spad hspad ..)⟩
  case empty =>
    rw [releaseGate_of_empty s (n := s.cur) hgate]
    exact ⟨rfl, rfl⟩
  case gathers =>
    refine exec_dsync_of_notReady scope hre ?_
    rw [State.dsyncReady, hjoined, State.releaseReady, hrel, readsDone_of_bgath hreads]
    rfl
  case notReady =>
    refine exec_dsync_of_notReady scope hre ?_
    rw [State.dsyncReady, hjoined, hready]
    rfl
  case ready =>
    have hready : s.dsyncReady ord = true := by simpa [State.dsyncReady] using hready
    refine ⟨fun hdone => ⟨_, exec_dsync_of_done scope hre hready hdone, ?_, ?_⟩,
      fun hdone => ⟨_, exec_dsync_of_waiting scope hre hready hdone, ?_⟩⟩
    · rw [State.cx_upd]
    · rw [State.cx_upd]
    · rw [State.blockHere, State.cx_upd]
  case drain =>
    refine ⟨fun hr ho => ?_, fun h hc => issueCtx_of_draining hd h hc⟩
    rw [drained_of_quiet hd hr ho]
    exact ⟨State.ctx_updCtx_self .., fun m hm => State.ctx_updCtx_ne _ _ hm⟩
  case pref =>
    obtain ⟨t, ht⟩ : ∃ t, exec (.pref l2 vc q off) s = .next t := ⟨_, rfl⟩
    refine ⟨t, ht, fun hnone => ?_⟩
    rw [exec_pref_of_dropped hnone] at ht
    exact (Host.Outcome.next.inj ht).symm

end Sys2Proof.Machine
end

section
/-! PROOFS. Page-table walks: the ASID table, one level, the checks of a leaf, and the marks that a walk leaves (R305 to R310). -/

namespace Sys2Proof.Machine

/-! ## The geometry of a table (R307) -/

/-- The low index bit of a level, the entries of its table, and where the entry for an offset stands. -/
def tableShift (n : Nat) : Nat := [41, 32, 27, 21, 16].getD n 16
def tableEntries (n : Nat) : Nat := [128, 512, 32, 64, 32].getD n 32
def tableAddr (tbl off n : Nat) : Nat := tbl + 8 * (off / 2 ^ tableShift n % tableEntries n)

theorem levelBits_shift (n : Nat) : (levelBits n).2 = tableShift n :=
  match n with
  | 0 | 1 | 2 | 3 | 4 | _ + 5 => rfl
theorem levelBits_entries (n : Nat) : 2 ^ ((levelBits n).1 + 1 - tableShift n) = tableEntries n :=
  match n with
  | 0 | 1 | 2 | 3 | 4 | _ + 5 => rfl
theorem tableEntries_pos (n : Nat) : 0 < tableEntries n := by
  rw [← levelBits_entries]
  exact Nat.two_pow_pos _
theorem bits_level (off n : Nat) : bits off (levelBits n).1 (tableShift n) = off / 2 ^ tableShift n % tableEntries n := by
  rw [bits, levelBits_entries]

/-! ## The checks of a leaf (R308, R309) -/

/-- The page address of a leaf. -/
def leafPage (e : Word64) : Nat := 65536 * fld e 16 36
/-- A leaf that breaks the format of R308 for its page size. -/
def leafBroken (e : Word64) (size : Nat) : Prop :=
  fld e 9 7 ≠ 0 ∨ fld e 58 6 ≠ 0 ∨ (e.getLsbD 8 = false ∧ (fld e 52 6 ≠ 0 ∨ leafPage e % 2 ^ size ≠ 0))
/-- The access that a leaf allows. -/
def leafAllows (e : Word64) (a : Acc) : Prop := (a = .write → e.getLsbD 2 = true) ∧ (a = .fetch → e.getLsbD 3 = true)

/-- The checks of the page of a leaf whose access is allowed (R309). -/
def leafPageCheck (e : Word64) (size : Nat) (host : Bool) (off : Nat) : Option Nat :=
  if e.getLsbD 8 || host then none
  else if 2 ^ 48 ≤ leafPage e then some 78
  else if Config.regBase ≤ leafPage e ∧ leafPage e < Config.regBase + Config.regSize then
    if leafPage e + off % 2 ^ size < Config.regBase + Config.doorbellOff ∨ leafPage e < Config.regBase + Config.doorbellOff then some 78
    else none
  else if !inPM (leafPage e + 2 ^ size - 1) then some 78
  else if inReserved (leafPage e) || (decide (leafPage e ≤ Config.rsvBase) && decide (Config.rsvBase < leafPage e + 2 ^ size) &&
    inReserved (leafPage e + off % 2 ^ size)) then some 78
  else none

theorem inPM_iff (pa : Nat) : inPM pa = true ↔ pa < 0x2000000000 := decide_eq_true_iff
theorem inReserved_iff (pa : Nat) : inReserved pa = true ↔ 0x1FE0000000 ≤ pa ∧ pa < 0x2000000000 := by
  rw [inReserved, Bool.and_eq_true, decide_eq_true_iff, decide_eq_true_iff]
  rfl

section
variable {e : Word64} {size : Nat} (host : Bool) (off : Nat) (a : Acc)

theorem leafCheck_of_broken (h : leafBroken e size) : leafCheck e size host off a = some 77 := by
  unfold leafCheck
  dsimp only
  rw [if_pos]
  unfold leafBroken leafPage at h
  simp only [Bool.or_eq_true, Bool.and_eq_true, decide_eq_true_eq, Bool.not_eq_true', Nat.mul_comm _ 65536]
  tauto

/-- The checks of a leaf that keeps the format: the access, then the page. -/
theorem leafCheck_of_wellFormed (h : ¬ leafBroken e size) : leafCheck e size host off a =
    if a == .write && !e.getLsbD 2 then some 73
    else if a == .fetch && !e.getLsbD 3 then some 74
    else leafPageCheck e size host off := by
  unfold leafBroken leafPage at h
  unfold leafCheck leafPageCheck leafPage
  dsimp only
  rw [if_neg, Nat.mul_comm (fld e 16 36)]
  simp only [Bool.or_eq_true, Bool.and_eq_true, decide_eq_true_eq, Bool.not_eq_true', Nat.mul_comm (fld e 16 36)]
  tauto

variable (h : ¬ leafBroken e size)
include h

theorem leafCheck_of_readOnly (hw : e.getLsbD 2 = false) : leafCheck e size host off .write = some 73 := by
  rw [leafCheck_of_wellFormed host off .write h, hw]
  rfl
theorem leafCheck_of_noExecute (hx : e.getLsbD 3 = false) : leafCheck e size host off .fetch = some 74 := by
  rw [leafCheck_of_wellFormed host off .fetch h, hx]
  rfl

theorem leafCheck_of_allowed {a : Acc} (ha : leafAllows e a) : leafCheck e size host off a = leafPageCheck e size host off := by
  obtain ⟨hw, hx⟩ := ha
  rw [leafCheck_of_wellFormed host off a h, if_neg, if_neg]
  · simpa using hx
  · simpa using hw

/-- A leaf to a window, of host memory, or to a page below the reserved area passes. -/
theorem leafCheck_passes {a : Acc} (ha : leafAllows e a)
    (hp : e.getLsbD 8 = true ∨ host = true ∨ leafPage e + 2 ^ size ≤ Config.rsvBase) : leafCheck e size host off a = none := by
  rw [leafCheck_of_allowed host off h ha, leafPageCheck]
  by_cases hwin : (e.getLsbD 8 || host) = true
  · rw [if_pos hwin]
  · have hsize := Nat.two_pow_pos size
    have hpage : leafPage e + 2 ^ size ≤ 0x1FE0000000 := by
      simp only [Bool.or_eq_true, not_or] at hwin
      obtain h | h | h := hp
      · exact absurd h hwin.1
      · exact absurd h hwin.2
      · exact h
    have hpm : inPM (leafPage e + 2 ^ size - 1) = true := (inPM_iff _).mpr (by omega)
    have hin : inReserved (leafPage e) = false := by
      rw [Bool.eq_false_iff, Ne, inReserved_iff]
      omega
    have hacross : ¬ Config.rsvBase < leafPage e + 2 ^ size := Nat.not_lt.mpr hpage
    rw [if_neg hwin, if_neg (by omega), if_neg (by simp only [Config.regBase]; omega), hpm, hin, decide_eq_false hacross]
    simp

/-- A leaf to the reserved area, or to no memory and no register, is cause 78. -/
theorem leafCheck_of_noPage {a : Acc} (ha : leafAllows e a) (hwin : e.getLsbD 8 = false) (hres : Config.rsvBase ≤ leafPage e)
    (hreg : leafPage e < 0x800000000000 ∨ 0x1000000000000 ≤ leafPage e) : leafCheck e size false off a = some 78 := by
  have hsize := Nat.two_pow_pos size
  rw [leafCheck_of_allowed false off h ha, leafPageCheck, hwin, Bool.false_or, if_neg Bool.false_ne_true]
  by_cases hhigh : 2 ^ 48 ≤ leafPage e
  · rw [if_pos hhigh]
  · rw [if_neg hhigh, if_neg (by simp only [Config.regBase]; omega)]
    by_cases hpm : inPM (leafPage e + 2 ^ size - 1) = true
    · have hin : inReserved (leafPage e) = true := by
        rw [inPM_iff] at hpm
        exact (inReserved_iff _).mpr ⟨hres, by omega⟩
      rw [hpm, hin]
      rfl
    · rw [if_pos (by simpa using hpm)]

end

/-! ## One level of a walk (R307, R308) -/

/-- The next table of an entry that is no leaf, and an entry that breaks the format of R308. -/
def nextTable (e : Word64) : Nat := 256 * fld e 8 44
def nodeBroken (e : Word64) (size : Nat) : Prop :=
  fld e 2 6 ≠ 0 ∨ fld e 52 12 ≠ 0 ∨ nextTable e % size ≠ 0 ∨ Config.pmEnd < nextTable e + size

theorem nodeBroken_iff (e : Word64) (n : Nat) : (fld e 2 6 ≠ 0 || fld e 52 12 ≠ 0 || nextTable e % (8 * tableEntries (n + 1)) ≠ 0 ||
    !inPM (nextTable e + 8 * tableEntries (n + 1) - 1)) = true ↔ nodeBroken e (8 * tableEntries (n + 1)) := by
  have hsize := tableEntries_pos (n + 1)
  have hpm : (!inPM (nextTable e + 8 * tableEntries (n + 1) - 1)) = true ↔ 0x2000000000 < nextTable e + 8 * tableEntries (n + 1) := by
    rw [Bool.not_eq_true', Bool.eq_false_iff, Ne, inPM_iff]
    omega
  rw [Bool.or_eq_true, Bool.or_eq_true, Bool.or_eq_true, hpm, decide_eq_true_iff, decide_eq_true_iff, decide_eq_true_iff, nodeBroken,
    or_assoc, or_assoc]
  rfl

section
variable (s : State) (d slice : Nat) (host : Bool) (off : Nat) (a : Acc) (fuel : Nat) (n tbl : Nat) (seen : List Nat)
  (path : List (Nat × Word64))

/-- A table entry as a walk reads it: from the walk cache of its slice, or from memory. -/
def State.tableEntry (addr : Nat) : Word64 := (s.walkHit d slice addr).getD (s.word64 d addr)
/-- The line of a table entry. -/
def tableLine (d addr : Nat) : Nat := Config.dieKey d addr / 128
/-- The entry is cached, or its table can be read. -/
def State.tableReadable (addr : Nat) : Prop :=
  (s.walkHit d slice addr).isSome = true ∨ (s.backDown (tableLine d addr) = false ∧ s.tableUE d addr = false)

theorem walkFrom_of_unreadable (hit : s.walkHit d slice (tableAddr tbl off n) = none)
    (hback : s.backDown (tableLine d (tableAddr tbl off n)) = false) (hue : s.tableUE d (tableAddr tbl off n) = true) :
    s.walkFrom d slice host off a (fuel + 1) n tbl seen path = .error 79 := by
  unfold tableLine tableAddr at *
  unfold State.walkFrom
  simp only [levelBits_shift, bits_level, hit, hback, hue, Option.isNone_none, Bool.and_false, Bool.false_eq_true, if_false, Bool.and_self, if_true]

/-- What a walk makes of the entry that it reads at an address. -/
def State.walkAt (addr : Nat) (e : Word64) : Except Nat Leaf :=
  if !e.getLsbD 0 then .error 72
  else if e.getLsbD 1 then
    if n = 0 then .error 77
    else match leafCheck e (tableShift n) host off a with
      | some c => .error c
      | none => .ok ⟨e, addr, off / 2 ^ tableShift n * 2 ^ tableShift n, tableShift n, tableLine d addr :: seen, path⟩
  else if n = 4 then .error 77
  else if fld e 2 6 ≠ 0 || fld e 52 12 ≠ 0 || nextTable e % (8 * tableEntries (n + 1)) ≠ 0 ||
      !inPM (nextTable e + 8 * tableEntries (n + 1) - 1) then .error 77
  else s.walkFrom d slice host off a fuel (n + 1) (nextTable e) (tableLine d addr :: seen) ((addr, e) :: path)

theorem walkFrom_of_readable (hread : s.tableReadable d slice (tableAddr tbl off n)) :
    s.walkFrom d slice host off a (fuel + 1) n tbl seen path =
      s.walkAt d slice host off a fuel n seen path (tableAddr tbl off n) (s.tableEntry d slice (tableAddr tbl off n)) := by
  have hgo : ((s.walkHit d slice (tableAddr tbl off n)).isNone && s.backDown (tableLine d (tableAddr tbl off n))) = false ∧
      ((s.walkHit d slice (tableAddr tbl off n)).isNone && s.tableUE d (tableAddr tbl off n)) = false := by
    obtain hit | ⟨hback, hue⟩ := hread
    · rw [Option.isNone_eq_false_iff.mpr hit]
      exact ⟨rfl, rfl⟩
    · rw [hback, hue]
      exact ⟨Bool.and_false _, Bool.and_false _⟩
  obtain ⟨hback, hue⟩ := hgo
  unfold tableLine tableAddr at hback hue
  rw [State.walkFrom]
  simp only [levelBits_shift, bits_level, levelBits_entries, hback, hue, Bool.false_eq_true, if_false, Nat.mul_comm _ 256]
  rfl

variable {s d slice host off a fuel n seen path} {addr : Nat} {e : Word64}

theorem walkAt_of_invalid (h0 : e.getLsbD 0 = false) : s.walkAt d slice host off a fuel n seen path addr e = .error 72 := by
  rw [State.walkAt, h0]
  rfl

variable (h0 : e.getLsbD 0 = true)
include h0

theorem walkAt_of_rootLeaf (h1 : e.getLsbD 1 = true) (hn : n = 0) :
    s.walkAt d slice host off a fuel n seen path addr e = .error 77 := by
  rw [State.walkAt, h0, h1, if_pos hn]
  rfl
theorem walkAt_of_badLeaf (h1 : e.getLsbD 1 = true) (hn : n ≠ 0) {c : Nat} (hc : leafCheck e (tableShift n) host off a = some c) :
    s.walkAt d slice host off a fuel n seen path addr e = .error c := by
  rw [State.walkAt, h0, h1, if_neg hn, hc]
  rfl
theorem walkAt_of_leaf (h1 : e.getLsbD 1 = true) (hn : n ≠ 0) (hc : leafCheck e (tableShift n) host off a = none) :
    s.walkAt d slice host off a fuel n seen path addr e =
      .ok ⟨e, addr, off / 2 ^ tableShift n * 2 ^ tableShift n, tableShift n, tableLine d addr :: seen, path⟩ := by
  rw [State.walkAt, h0, h1, if_neg hn, hc]
  rfl

theorem walkAt_of_badNode (h1 : e.getLsbD 1 = false) (h : n = 4 ∨ nodeBroken e (8 * tableEntries (n + 1))) :
    s.walkAt d slice host off a fuel n seen path addr e = .error 77 := by
  rw [State.walkAt, h0, h1]
  by_cases hn : n = 4
  · rw [if_pos hn]
    rfl
  · rw [if_neg hn, if_pos ((nodeBroken_iff e n).mpr (h.resolve_left hn))]
    rfl
theorem walkAt_of_node (h1 : e.getLsbD 1 = false) (hn : n < 4) (h : ¬ nodeBroken e (8 * tableEntries (n + 1))) :
    s.walkAt d slice host off a fuel n seen path addr e =
      s.walkFrom d slice host off a fuel (n + 1) (nextTable e) (tableLine d addr :: seen) ((addr, e) :: path) := by
  rw [State.walkAt, h0, h1, if_neg hn.ne, if_neg (mt (nodeBroken_iff e n).mp h)]
  rfl

end

/-! ## The start of a walk, at the ASID table (R305, R306) -/

/-- The die that translates an address, and where its ASID table holds the entry for it. -/
def walkDie (va : VA) : Nat := if vaHome va = 8 then 0 else vaHome va
def asidAddr (asid : BitVec 16) (va : VA) : Nat := Config.rsvBase + 16 * asid.toNat + (if vaHome va == 8 then 8 else 0)
def State.asidEntry (s : State) (asid : BitVec 16) (va : VA) : Word64 :=
  BitVec.ofNat 64 (leNat (rdBytes s.mem (Config.dieKey (walkDie va) (asidAddr asid va)) 8))

section
variable {s : State} {asid : BitVec 16} {va : VA} {a : Acc}

theorem walk_eq : s.walk asid va a =
    if s.tableUE (walkDie va) (asidAddr asid va) then .error 79
    else if !(s.asidEntry asid va).getLsbD 0 then .error 76
    else if fld (s.asidEntry asid va) 1 9 ≠ 0 || fld (s.asidEntry asid va) 48 16 ≠ 0 then .error 77
    else s.walkFrom (walkDie va) (sliceOf va) (vaHome va == 8) (fld va 0 48) a 5 0 (1024 * fld (s.asidEntry asid va) 10 38) [] [] := by
  have hdie : (if (vaHome va == 8) = true then 0 else vaHome va) = walkDie va := by simp [walkDie]
  unfold State.walk
  simp only [hdie, Nat.mul_comm _ 1024]
  rfl

theorem walk_of_unreadable (hue : s.tableUE (walkDie va) (asidAddr asid va) = true) : s.walk asid va a = .error 79 := by
  rw [walk_eq, if_pos hue]

variable (hue : s.tableUE (walkDie va) (asidAddr asid va) = false)
include hue

theorem walk_of_invalid (h0 : (s.asidEntry asid va).getLsbD 0 = false) : s.walk asid va a = .error 76 := by
  rw [walk_eq, hue, h0]
  rfl

variable (h0 : (s.asidEntry asid va).getLsbD 0 = true)
include h0

theorem walk_of_broken (h : fld (s.asidEntry asid va) 1 9 ≠ 0 ∨ fld (s.asidEntry asid va) 48 16 ≠ 0) : s.walk asid va a = .error 77 := by
  rw [walk_eq, hue, h0, if_neg Bool.false_ne_true, if_neg (by decide), if_pos (by simpa using h)]

theorem walk_of_root (h1 : fld (s.asidEntry asid va) 1 9 = 0) (h2 : fld (s.asidEntry asid va) 48 16 = 0) : s.walk asid va a =
    s.walkFrom (walkDie va) (sliceOf va) (vaHome va == 8) (fld va 0 48) a 5 0 (1024 * fld (s.asidEntry asid va) 10 38) [] [] := by
  rw [walk_eq, hue, h0, if_neg Bool.false_ne_true, if_neg (by decide), if_neg (by simp [h1, h2])]

end

end Sys2Proof.Machine
end

section
/-! PROOFS. The marks that a walk leaves in memory, and nothing else there (R310). -/

namespace Sys2Proof.Machine

/-! ## A write of a unit to a line that nothing holds -/

section
variable {s : State} {l : Nat} (hwin : isWin l = false) (hhost : isHost l = false)
include hwin hhost

/-- Merged at the home, bytes of a die's own memory are written there; marks of bad units may go (R265). -/
theorem homeMerge_memory (bs : List (Nat × Byte)) : ∃ us, s.homeMerge l bs = { s with mem := s.memWith l bs, badUnits := us } := by
  unfold State.homeMerge State.devWrite State.memWith
  simp only [hhost, Bool.false_eq_true, if_false, byteKey_of_notWin s hwin, Option.map_some, List.filterMap_eq_map', List.foldl_map]
  split
  · exact ⟨s.badUnits, rfl⟩
  · exact ⟨_, rfl⟩

variable (hdir : s.dirFind l = none) (hcopy : ∀ k ∈ s.cores, ∀ y ∈ k.2.l1, y.line ≠ l)
  (hroom : ((s.die (lineDie l)).l2.filter fun x => x != l && x % 16 == l % 16).length < Config.l2Lines)
include hdir hcopy hroom

theorem storeLine_unit_memory (t : Tag) (bs : List (Nat × Byte)) : ∃ cs ds us, s.storeLine none none (lineDie l) l t bs =
    { s with mem := s.memWith l bs, ctxs := cs, dies := ds, badUnits := us } := by
  obtain ⟨ds, hpass⟩ := l2Pass_of_room hhost hroom
  have htrim (u : State) : u.l2Trim (lineDie l) l = u := by simp [State.l2Trim]
  have hsyn := synonym_of_noCopy hcopy hdir none t
  unfold State.storeLine
  dsimp only [Option.bind_none, Option.filter_none]
  simp only [Option.isSome_none, Bool.false_eq_true, if_false, hsyn, hpass, htrim, kept_of_notWin s hwin]
  obtain ⟨cs, hconflict⟩ := conflictIf_eq { s with dies := ds } none l fun w =>
    changedAt t.hf w.view (bs.map (·.1)) (State.lineNow { s with dies := ds } l) (mergeLine (State.lineNow { s with dies := ds } l) bs)
  rw [hconflict]
  unfold State.storeOut
  rw [storeHeader_of_noCopy (s := { s with dies := ds, ctxs := cs }) hcopy]
  dsimp only
  rw [if_pos rfl, State.homeStore, show State.dirFind (State.header { s with dies := ds, ctxs := cs } (lineDie l)) l = none from hdir]
  obtain ⟨us, hmerge⟩ := homeMerge_memory (s := State.header { s with dies := ds, ctxs := cs } (lineDie l)) hwin hhost bs
  exact ⟨_, _, us, hmerge⟩

theorem lineStore_memory (t : Tag) {bs : List (Nat × Byte)} (hheld : s.lineHeld l (bs.map (·.1)) = false) :
    ∃ cs ds us, s.lineStore (lineDie l) l t bs = { s with mem := s.memWith l bs, ctxs := cs, dies := ds, badUnits := us } := by
  rw [State.lineStore, State.lineStoreBy, State.behind, hheld]
  exact storeLine_unit_memory hwin hhost hdir hcopy hroom t bs

end

/-! ## The bytes of a marked leaf -/

theorem marked_eq (f : Leaf) (a : Acc) : f.marked a = f.pte ||| 0x10 ||| (if a = .write then 0x20 else 0) := by
  cases a <;> rfl

/-- The last value of a run of bytes is the one for its place. -/
theorem lastByte_run (o : Nat) (v : Nat → Byte) (old : Byte) {n i : Nat} (hi : i < n) :
    lastByte ((List.range n).map fun j => (o + j, v j)) (o + i) old = v i := by
  induction n with
  | zero => omega
  | succ n ih =>
    rw [List.range_succ, List.map_append, List.map_singleton, lastByte_concat]
    by_cases h : n = i
    · rw [h, if_pos rfl]
    · rw [if_neg (by omega), ih (by omega)]

section
variable {s : State} {f : Leaf} {l : Nat} (a : Acc)

/-- The marks' bytes, in the line of the leaf. -/
theorem rdByte_marks (hwin : isWin l = false) (hhost : isHost l = false) (hal : f.addr % 8 = 0) {i : Nat} (hi : i < 8) :
    rdByte (s.memWith l (f.markBytes a)) (s.backKey (l * 128 + (f.addr % 128 + i))) = (f.marked a).extractLsb' (8 * i) 8 := by
  have hoffs : ∀ b ∈ f.markBytes a, b.1 < 128 := by
    intro b hb
    obtain ⟨j, hj, rfl⟩ := List.mem_map.mp hb
    have := List.mem_range.mp hj
    dsimp only
    omega
  rw [rdByte_memWith_line hwin hhost hoffs (by omega)]
  exact lastByte_run _ (fun j => (f.marked a).extractLsb' (8 * j) 8) _ hi

theorem rdByte_marks_off {k : Nat} (hk : ∀ i < 8, k ≠ s.backKey (l * 128 + (f.addr % 128 + i))) :
    rdByte (s.memWith l (f.markBytes a)) k = rdByte s.mem k := by
  refine rdByte_writes_out (fun b : Nat × Byte => s.backKey (l * 128 + b.1)) (·.2) _ s.mem k fun b hb h => ?_
  obtain ⟨j, hj, rfl⟩ := List.mem_map.mp hb
  exact hk j (List.mem_range.mp hj) h.symm

end

/-! ## Translation -/

theorem shareDrop_eq (s : State) (r : PtShare) : ∃ cs ds ts, s.shareDrop r = { s with ctxs := cs, dies := ds, tlb := ts } := by
  unfold State.shareDrop State.tlbForget
  dsimp only
  split <;> exact ⟨_, _, _, rfl⟩

/-- With the new records noted, the least recent may be given up: no more changes than a drop of one does. -/
theorem shareTrim_eq {s u : State} {ds : List (Nat × DieSt)} (hu : u = { s with dies := ds }) (c : Prop) [Decidable c] (o : Option PtShare) :
    ∃ cs ds ts, (if c then u else match o with | some r => u.shareDrop r | none => u) = { s with ctxs := cs, dies := ds, tlb := ts } := by
  subst hu
  split
  · exact ⟨_, _, _, rfl⟩
  · split
    · obtain ⟨cs, ds, ts, h⟩ := shareDrop_eq { s with dies := ds } ‹_›
      exact ⟨cs, ds, ts, h⟩
    · exact ⟨_, _, _, rfl⟩

theorem shareNote_eq (s : State) (d slice l : Nat) : ∃ cs ds ts, s.shareNote d slice l = { s with ctxs := cs, dies := ds, tlb := ts } :=
  shareTrim_eq (u := s.updDie d _) rfl _ _

theorem foldl_shareNote_eq (d slice : Nat) (ls : List Nat) (s : State) : ∃ cs ds ts,
    ls.foldl (fun (s : State) x => s.shareNote d slice x) s = { s with ctxs := cs, dies := ds, tlb := ts } := by
  induction ls generalizing s with
  | nil => exact ⟨_, _, _, rfl⟩
  | cons l ls ih =>
    obtain ⟨cs, ds, ts, h⟩ := shareNote_eq s d slice l
    obtain ⟨cs', ds', ts', h'⟩ := ih (s.shareNote d slice l)
    rw [List.foldl_cons, h', h]
    exact ⟨_, _, _, rfl⟩

/-- A slice that has walked takes the entries it has read and the translation. -/
theorem holdLeaf_eq (s : State) (d slice e : Nat) (f : Leaf) (ts : List Tlb) (ls : List Nat) : ∃ cs ds us,
    ls.foldl (fun (s : State) x => s.shareNote d slice x) { s.walkNote d e f with tlb := ts } = { s with ctxs := cs, dies := ds, tlb := us } := by
  obtain ⟨cs, ds, us, h⟩ := foldl_shareNote_eq d slice ls { s.walkNote d e f with tlb := ts }
  exact ⟨cs, ds, us, h⟩

/-- A write of the marks, where the leaf lacks one. -/
def State.writeMarks (s : State) (va : VA) (f : Leaf) (a : Acc) : State :=
  if f.marked a = f.pte then s
  else s.lineStore (walkDie va) (Config.dieKey (walkDie va) f.addr / 128) (s.lineTag (Config.dieKey (walkDie va) f.addr / 128)) (f.markBytes a)

section
variable {s : State} {asid : BitVec 16} {va : VA} {a : Acc}

/-- A walk that reaches a leaf writes its marks; beside them only the slice's records of the walk change. -/
theorem translate_of_walk {f : Leaf} (hw : s.walk asid va a = .ok f) (htlb : s.tlbFind asid va a = none)
    (hdown : s.markDown asid va a = false) : ∃ cs ds ts, s.translate asid va a =
      { s.writeMarks va f a with ctxs := cs, dies := ds, tlb := ts } := by
  unfold State.translate
  rw [htlb, hw]
  show ∃ cs ds ts, (if s.markDown asid va a = true then _ else _) = _
  rw [if_neg (by rw [hdown]; exact Bool.false_ne_true)]
  exact holdLeaf_eq (s.writeMarks va f a) ..

theorem translate_of_held (h : (s.tlbFind asid va a).isSome = true) : s.translate asid va a = s := by
  obtain ⟨e, he⟩ := Option.isSome_iff_exists.mp h
  rw [State.translate, he]

theorem translate_of_error {k : Nat} (h : s.walk asid va a = .error k) : s.translate asid va a = s := by
  unfold State.translate
  cases s.tlbFind asid va a with
  | some e => rfl
  | none => rw [h]

end

/-! ## What the write of the marks leaves (R310) -/

section
variable {s : State} {va : VA} {f : Leaf} {a : Acc}

/-- The line of a leaf. -/
def leafLine (va : VA) (f : Leaf) : Nat := Config.dieKey (walkDie va) f.addr / 128

theorem writeMarks_of_marked (h : f.marked a = f.pte) : s.writeMarks va f a = s := if_pos h

theorem writeMarks_memory (h : f.marked a ≠ f.pte) (hdie : lineDie (leafLine va f) = walkDie va) (hwin : isWin (leafLine va f) = false)
    (hhost : isHost (leafLine va f) = false) (hdir : s.dirFind (leafLine va f) = none)
    (hcopy : ∀ k ∈ s.cores, ∀ y ∈ k.2.l1, y.line ≠ leafLine va f)
    (hheld : s.lineHeld (leafLine va f) ((List.range 8).map (f.addr % 128 + ·)) = false)
    (hroom : ((s.die (walkDie va)).l2.filter fun x => x != leafLine va f && x % 16 == leafLine va f % 16).length < Config.l2Lines) :
    ∃ cs ds us, s.writeMarks va f a = { s with mem := s.memWith (leafLine va f) (f.markBytes a), ctxs := cs, dies := ds, badUnits := us } := by
  have hoffs : (f.markBytes a).map (·.1) = (List.range 8).map (f.addr % 128 + ·) := List.map_map
  rw [← hoffs] at hheld
  have hline := lineStore_memory hwin hhost hdir hcopy (by rwa [hdie]) (s.lineTag (leafLine va f)) hheld
  rw [hdie] at hline
  rw [State.writeMarks, if_neg h]
  exact hline

end

end Sys2Proof.Machine
end

section
/-! PROOFS. Stores go to the gate: the entries that hold a store's bytes, and what else a store changes (R156, R160, R162 to R164, R170,
R310, R314). -/

namespace Sys2Proof.Machine

/-! ## The instructions as their checks and effects -/

section
variable (s : State) (ty : Ty) (d i : SReg) (v iv : VReg) (p : PReg) (q : QReg) (off : BitVec 17) (sc : BitVec 2) (scope : BitVec 3)

theorem exec_st : exec (.st ty d q off) s = s.resolve (checkSt ty q off s) fun s => s.storeS ty d (s.eaOff q off) false := rfl
theorem exec_stx : exec (.stx ty d q i sc) s = s.resolve (checkStx ty q i sc s) fun s => s.storeS ty d (s.eaIdx q i sc) false := rfl
theorem exec_stl : exec (.stl ty d q scope) s = s.resolve (checkStl ty q s) fun s => s.storeS ty d (s.rQ q) true := rfl
theorem exec_vst : exec (.vst ty v q off) s = s.resolve (checkVst ty q off s) fun s =>
    s.storeHere (vaBytes (s.eaOff q off) (bytesOf (s.rV v))) 128 false := rfl
theorem exec_vstx : exec (.vstx ty v q i sc) s = s.resolve (checkVstx ty q i sc s) fun s =>
    s.storeHere (vaBytes (s.eaIdx q i sc) (bytesOf (s.rV v))) 128 false := rfl
theorem exec_vsts : exec (.vsts ty v q i sc) s = s.resolve (checkVsts ty q i sc s) fun s =>
    s.storeElems ty v ((s.strides ty q i sc).zipIdx.map fun a => (a.2, a.1)) := rfl
theorem exec_vscat : exec (.vscat ty v q iv sc) s = s.resolve (checkVscat ty q iv sc s) fun s =>
    s.storeElems ty v ((s.live ty iv).map fun e => (e, s.eaVec ty q iv sc e)) := rfl
theorem exec_pst : exec (.pst p q off) s = s.resolve (checkPst q off s) fun s =>
    s.storeHere (vaBytes (s.eaOff q off) (toLE 16 (s.rP p).toNat)) 16 false := rfl

/-- The elements of a list of numbered addresses. -/
theorem storeElems_map (es : List Nat) (f : Nat → VA) : s.storeElems ty v (es.map fun e => (e, f e)) =
    s.storeHere (es.flatMap fun e => vaBytes (f e) (toLE ty.width (lane ty.width (s.rV v) e))) ty.width false := by
  rw [State.storeElems, List.flatMap_map]

theorem strides_numbered : ((s.strides ty q i sc).zipIdx.map fun a => (a.2, a.1)) =
    (List.range (128 / ty.width)).map fun e => (e, s.eaStride q i sc e) := by
  refine List.ext_getElem (by simp [State.strides]) fun n _ _ => ?_
  simp [State.strides]

end

/-! ## Lines and offsets -/

section
variable {a b : VA}

theorem lineVA_toNat (a : VA) : (lineVA a).toNat = a.toNat / 128 * 128 := by
  have : a.toNat < 2 ^ 72 := a.isLt
  rw [lineVA, BitVec.toNat_ofNat]
  omega
theorem lineVA_eq_iff : lineVA a = lineVA b ↔ a.toNat / 128 = b.toNat / 128 := by
  rw [← BitVec.toNat_inj, lineVA_toNat, lineVA_toNat]
  omega

/-- Whether an address is the scratchpad's, and where, is its line's. -/
theorem isSpad_of_line (h : lineVA a = lineVA b) : isSpad a = isSpad b := by
  rw [lineVA_eq_iff] at h
  rw [Bool.eq_iff_iff, spad_toNat, spad_toNat]
  omega
theorem isSpad_lineVA (a : VA) : isSpad (lineVA a) = isSpad a :=
  isSpad_of_line (lineVA_eq_iff.mpr (by rw [lineVA_toNat]; omega))
theorem spadOff_of_line (h : lineVA a = lineVA b) : spadOff b = spadOff a / 128 * 128 + fld b 0 7 := by
  rw [lineVA_eq_iff] at h
  rw [spadOff_toNat, spadOff_toNat, fld_zero]
  omega

end

/-! ## The entries of a store -/

/-- The store's bytes on a line, at their offsets. -/
def bytesOn (bs : List (VA × Byte)) (ln : Nat) : List (Nat × Byte) :=
  (bs.filter fun b => b.1.toNat / 128 == ln).map fun x => (fld x.1 0 7, x.2)

/-- The entry for the line `ln`, which the first byte of the store there reaches. -/
def State.lineEnt (s : State) (asid : BitVec 16) (bs : List (VA × Byte)) (width : Nat) (rel : Bool) (ln : Nat) (va : VA) : Option GateEnt :=
  if isSpad va then some ⟨true, spadOff va / 128, asid, BitVec.ofNat 72 (ln * 128), 3, bytesOn bs ln, width, true, rel, s.nextCmd⟩
  else match s.place asid va .write with
    | .ok r => some ⟨false, r.gateLine, asid, BitVec.ofNat 72 (ln * 128), r.hf, bytesOn bs ln, width, true, rel, s.nextCmd⟩
    | .error _ => none

theorem mem_bytesOn {bs : List (VA × Byte)} {va : VA} {y : Nat × Byte} :
    y ∈ bytesOn bs (va.toNat / 128) ↔ ∃ b ∈ bs, lineVA b.1 = lineVA va ∧ fld b.1 0 7 = y.1 ∧ b.2 = y.2 := by
  simp only [bytesOn, List.mem_map, List.mem_filter, beq_iff_eq, lineVA_eq_iff, Prod.ext_iff, and_assoc]

section
variable (s : State) (asid : BitVec 16) (bs : List (VA × Byte)) (width : Nat) (rel : Bool)

theorem gateEnts_eq : s.gateEnts asid bs width rel = (bs.map fun b => b.1.toNat / 128).dedup.filterMap fun ln =>
    ((bs.filter fun b => b.1.toNat / 128 == ln).head?).bind fun b => s.lineEnt asid bs width rel ln b.1 := by
  unfold State.gateEnts State.lineEnt bytesOn
  refine List.filterMap_congr fun ln _ => ?_
  cases h : bs.filter fun b => b.1.toNat / 128 == ln with
  | nil => rfl
  | cons b mine => rfl

variable {s asid bs width rel}

/-- An entry is that of the line of a byte of the store. -/
theorem ent_of_mem_gateEnts {g : GateEnt} (hg : g ∈ s.gateEnts asid bs width rel) :
    ∃ b ∈ bs, s.lineEnt asid bs width rel (b.1.toNat / 128) b.1 = some g := by
  rw [gateEnts_eq, List.mem_filterMap] at hg
  obtain ⟨ln, -, hln⟩ := hg
  obtain ⟨b, hb, he⟩ := Option.bind_eq_some_iff.mp hln
  obtain ⟨hmem, hline⟩ := List.mem_filter.mp (List.mem_of_head? hb)
  rw [← beq_iff_eq.mp hline] at he
  exact ⟨b, hmem, he⟩

/-- Every byte of the store has its line's entry, by the first byte of the store there. -/
theorem gateEnts_of_mem {b : VA × Byte} (hb : b ∈ bs) : ∃ x ∈ bs, lineVA x.1 = lineVA b.1 ∧
    ∀ g, s.lineEnt asid bs width rel (b.1.toNat / 128) x.1 = some g → g ∈ s.gateEnts asid bs width rel := by
  have hmine : b ∈ bs.filter fun x => x.1.toNat / 128 == b.1.toNat / 128 := List.mem_filter.mpr ⟨hb, beq_self_eq_true _⟩
  obtain ⟨x, hx⟩ := Option.isSome_iff_exists.mp (List.isSome_head?.mpr (List.ne_nil_of_mem hmine))
  obtain ⟨hmem, hline⟩ := List.mem_filter.mp (List.mem_of_head? hx)
  refine ⟨x, hmem, lineVA_eq_iff.mpr (beq_iff_eq.mp hline), fun g hg => ?_⟩
  rw [gateEnts_eq, List.mem_filterMap]
  exact ⟨_, List.mem_dedup.mpr (List.mem_map_of_mem hb), Option.bind_eq_some_iff.mpr ⟨x, hx, hg⟩⟩

/-- The fields of a line's entry, whichever storage holds the line. -/
theorem lineEnt_fields {va : VA} {ln : Nat} {g : GateEnt} (h : s.lineEnt asid bs width rel ln va = some g) :
    g.release = rel ∧ g.width = width ∧ g.asid = asid ∧ g.checked = true ∧ g.before = s.nextCmd ∧
      g.va = BitVec.ofNat 72 (ln * 128) ∧ g.bytes = bytesOn bs ln := by
  unfold State.lineEnt at h
  split at h
  · cases h
    exact ⟨rfl, rfl, rfl, rfl, rfl, rfl, rfl⟩
  · split at h
    · cases h
      exact ⟨rfl, rfl, rfl, rfl, rfl, rfl, rfl⟩
    · cases h

/-- Where a line's entry stands. -/
theorem lineEnt_place {va : VA} {ln : Nat} {g : GateEnt} (h : s.lineEnt asid bs width rel ln va = some g) :
    if isSpad va then g.spad = true ∧ g.line = spadOff va / 128
    else g.spad = false ∧ ∃ r, s.place asid va .write = .ok r ∧ g.line = r.gateLine := by
  unfold State.lineEnt at h
  split at h
  · next hs =>
    cases h
    rw [if_pos hs]
    exact ⟨rfl, rfl⟩
  · next hs =>
    rw [if_neg hs]
    split at h
    · next r hr =>
      cases h
      exact ⟨rfl, r, hr, rfl⟩
    · cases h

theorem lineEnt_isSome {va : VA} {ln : Nat} (h : isSpad va = true ∨ ∃ r, s.place asid va .write = .ok r) :
    ∃ g, s.lineEnt asid bs width rel ln va = some g := by
  unfold State.lineEnt
  by_cases hs : isSpad va = true
  · rw [if_pos hs]
    exact ⟨_, rfl⟩
  · obtain ⟨r, hr⟩ := h.resolve_left hs
    rw [if_neg hs, hr]
    exact ⟨_, rfl⟩

/-- A byte of the store whose line is reached stands in an entry. -/
theorem exists_gateEnt {b : VA × Byte} (hb : b ∈ bs)
    (h : isSpad b.1 = true ∨ ∀ x ∈ bs, lineVA x.1 = lineVA b.1 → ∃ r, s.place asid x.1 .write = .ok r) :
    ∃ g ∈ s.gateEnts asid bs width rel, g.va = lineVA b.1 ∧ (fld b.1 0 7, b.2) ∈ g.bytes := by
  obtain ⟨x, hx, hline, hmem⟩ := gateEnts_of_mem (s := s) (asid := asid) (width := width) (rel := rel) hb
  obtain ⟨g, hg⟩ := lineEnt_isSome (s := s) (asid := asid) (bs := bs) (width := width) (rel := rel) (ln := b.1.toNat / 128)
    (h.imp (isSpad_of_line hline).trans fun h => h x hx hline)
  obtain ⟨-, -, -, -, -, hva, hbytes⟩ := lineEnt_fields hg
  refine ⟨g, hmem g hg, hva, ?_⟩
  rw [hbytes, mem_bytesOn]
  exact ⟨b, hb, rfl, rfl, rfl⟩

/-- The bytes of an entry are bytes of the store on its line. -/
theorem gateEnt_bytes {g : GateEnt} (hg : g ∈ s.gateEnts asid bs width rel) {y : Nat × Byte} (hy : y ∈ g.bytes) :
    ∃ b ∈ bs, lineVA b.1 = g.va ∧ fld b.1 0 7 = y.1 ∧ b.2 = y.2 := by
  obtain ⟨b, -, he⟩ := ent_of_mem_gateEnts hg
  obtain ⟨-, -, -, -, -, hva, hbytes⟩ := lineEnt_fields he
  rw [hbytes, mem_bytesOn] at hy
  rw [hva]
  exact hy

/-- An entry of a store to the scratchpad is the scratchpad's, at its line's offset. -/
theorem gateEnt_spad (hspad : ∀ b ∈ bs, isSpad b.1 = true) {g : GateEnt} (hg : g ∈ s.gateEnts asid bs width rel) :
    g.spad = true ∧ ∀ va, lineVA va = g.va → spadOff va = g.line * 128 + fld va 0 7 := by
  obtain ⟨b, hb, he⟩ := ent_of_mem_gateEnts hg
  obtain ⟨-, -, -, -, -, hva, -⟩ := lineEnt_fields he
  have hplace := lineEnt_place he
  rw [if_pos (hspad b hb)] at hplace
  obtain ⟨hs, hline⟩ := hplace
  refine ⟨hs, fun va h => ?_⟩
  rw [hline]
  exact spadOff_of_line (hva.symm.trans h.symm)

end

/-! ## The walks of a store, and the gate that takes it -/

/-- The walk of a line for a store of the context in issue, from its die. -/
def State.lineWalk (s : State) (asid : BitVec 16) (a : VA) : State :=
  if isSpad a then s else s.translateFor (dieOf s.cur) asid a .write
/-- The state after the walks of a store's lines. -/
def State.storeWalks (s : State) (bs : List (VA × Byte)) : State :=
  (bs.map fun b => lineVA b.1).dedup.foldl (fun u a => u.lineWalk (s.asidOf s.cur) a) s

theorem outline_lineWalk (s : State) (asid : BitVec 16) (a : VA) : (s.lineWalk asid a).outline = s.outline := by
  unfold State.lineWalk
  split
  · rfl
  · exact outline_translateFor ..
theorem cur_lineWalk (s : State) (asid : BitVec 16) (a : VA) : (s.lineWalk asid a).cur = s.cur :=
  (congrArg (fun u : State => u.issue.ctx) (outline_lineWalk s asid a) :)

/-- No walk changes the context in issue, so that all are walks from its die. -/
theorem foldl_lineWalk (asid : BitVec 16) (n : Nat) (as : List VA) (s : State) (hn : s.cur = n) :
    as.foldl (fun u a => if isSpad a then u else u.translateFor (dieOf n) asid a .write) s = as.foldl (fun u a => u.lineWalk asid a) s := by
  induction as generalizing s with
  | nil => rfl
  | cons a as ih =>
    rw [List.foldl_cons, List.foldl_cons, ← ih (s.lineWalk asid a) ((cur_lineWalk s asid a).trans hn), State.lineWalk, hn]

section
variable (s : State) (bs : List (VA × Byte)) (width : Nat) (rel : Bool)

theorem storeHere_eq : s.storeHere bs width rel = (s.storeWalks bs).updCtx s.cur fun c =>
    { c with gate := c.gate ++ (s.storeWalks bs).gateEnts (s.asidOf s.cur) bs width rel } := by
  rw [State.storeHere, State.gateStore, foldl_lineWalk _ _ _ s rfl]
  rfl

theorem outline_storeWalks : (s.storeWalks bs).outline = s.outline := outline_foldl _ (fun u a => outline_lineWalk u _ a) _
theorem cur_storeWalks : (s.storeWalks bs).cur = s.cur :=
  (congrArg (fun u : State => u.issue.ctx) (outline_storeWalks s bs) :)
theorem nextCmd_storeWalks : (s.storeWalks bs).nextCmd = s.nextCmd :=
  (congrArg State.nextCmd (outline_storeWalks s bs) :)

variable {s bs}

/-- Lines of the scratchpad, and those translated already, are not walked. -/
theorem storeWalks_of_held
    (h : ∀ b ∈ bs, isSpad b.1 = true ∨ (s.tlbFind (s.asidOf s.cur) (lineVA b.1) .write).isSome = true) : s.storeWalks bs = s := by
  refine foldl_fixed _ fun a ha => ?_
  obtain ⟨b, hb, rfl⟩ := List.mem_map.mp (List.mem_dedup.mp ha)
  rw [State.lineWalk, isSpad_lineVA]
  split
  · rfl
  · next hs =>
    obtain ⟨e, he⟩ := Option.isSome_iff_exists.mp ((h b hb).resolve_left hs)
    exact translateFor_of_tlbFind he _

variable (s bs)

theorem storeHere_ctxs : s.storeHere bs width rel = { s.storeWalks bs with ctxs := (s.storeHere bs width rel).ctxs } := by
  rw [storeHere_eq]
  rfl
theorem ctx_storeHere_ne {n : Nat} (h : n ≠ s.cur) : (s.storeHere bs width rel).ctx n = (s.storeWalks bs).ctx n := by
  rw [storeHere_eq, State.ctx_updCtx_ne _ _ h]
theorem cx_storeHere : (s.storeHere bs width rel).cx = { (s.storeWalks bs).cx with
    gate := (s.storeWalks bs).cx.gate ++ (s.storeWalks bs).gateEnts (s.asidOf s.cur) bs width rel } := by
  have hcx (u : State) (h : u.cur = s.cur) : u.cx = u.ctx s.cur := by rw [← h]; rfl
  have hcur : (s.storeHere bs width rel).cur = s.cur := (congrArg State.cur (storeHere_ctxs s bs width rel)).trans (cur_storeWalks s bs)
  rw [hcx _ (cur_storeWalks s bs), hcx _ hcur, storeHere_eq, State.ctx_updCtx_self]

end

/-! ## The obligation -/

/-- Settles O33: a store's instruction is its checks and the gate of its bytes, whose entries are its lines'; a walk is told level by
level; and the marks of a leaf are a write of its line. -/
theorem storesGoToTheGate : Obligations.StoresGoToTheGate := by
  refine ⟨?stores, ?walk, ?level⟩
  case stores =>
    intro s ty d i v iv p q off sc scope w a x okay put
    refine ⟨next_of_passed (exec_st ..), next_of_passed (exec_stx ..), next_of_passed (exec_stl ..), fun h => ?_,
      fun h => ?_, fun h => ?_, fun h => ?_, fun h => ?_, fun bs width rel => ?gate⟩
    · rw [next_of_passed (exec_vst ..) h]
    · rw [next_of_passed (exec_vstx ..) h]
    · rw [next_of_passed (exec_vsts ..) h, strides_numbered, storeElems_map]
    · rw [next_of_passed (exec_vscat ..) h, storeElems_map]
    · rw [next_of_passed (exec_pst ..) h]
    case gate =>
      intro t asid u reached
      have held := storeWalks_of_held (s := s) (bs := bs)
      refine ⟨⟨u.gateEnts asid bs width rel, storeHere_ctxs .., fun n hn => ctx_storeHere_ne s bs width rel hn, cx_storeHere .., fun g hg => ?_,
        fun b hb => exists_gateEnt hb⟩, held, fun hspad => ?_⟩
      · obtain ⟨b, hb, he⟩ := ent_of_mem_gateEnts hg
        obtain ⟨hrel, hwidth, hasid, hchecked, hbefore, hva, -⟩ := lineEnt_fields he
        exact ⟨hrel, hwidth, hasid, hchecked, hbefore.trans (nextCmd_storeWalks s bs), ⟨b, hb, hva, lineEnt_place he⟩,
          fun y hy => gateEnt_bytes hg hy⟩
      · have hu : s.storeWalks bs = s := held fun b hb => .inl (hspad b hb)
        have hctxs := storeHere_ctxs s bs width rel
        have hother (n : Nat) (hn : n ≠ s.cur) := ctx_storeHere_ne s bs width rel hn
        have hcx := cx_storeHere s bs width rel
        rw [hu] at hctxs hcx
        simp only [hu] at hother
        refine ⟨hctxs, hother, s.gateEnts asid bs width rel, hcx, fun g hg => ?_, fun b hb => ?_⟩
        · obtain ⟨b, -, he⟩ := ent_of_mem_gateEnts hg
          obtain ⟨hrel, -⟩ := lineEnt_fields he
          obtain ⟨hs, hoff⟩ := gateEnt_spad hspad hg
          refine ⟨hs, hrel, fun y hy => ?_⟩
          obtain ⟨x, hx, hline, ho, hv⟩ := gateEnt_bytes hg hy
          exact ⟨x, hx, ho ▸ hoff x.1 hline, hv⟩
        · obtain ⟨g, hg, hva, hmem⟩ := exists_gateEnt (s := s) (asid := asid) (width := width) (rel := rel) hb (.inl (hspad b hb))
          exact ⟨g, hg, _, hmem, (gateEnt_spad hspad hg).2 b.1 hva.symm, rfl⟩
  case walk =>
    intro s asid va a host d addr root w t
    refine ⟨walk_of_unreadable, fun hue => ⟨walk_of_invalid hue, walk_of_broken hue, walk_of_root hue⟩, fun _ => rfl,
      fun h => h.elim translate_of_held fun ⟨_, hk⟩ => translate_of_error hk, fun f hw htlb hdown => ?marks⟩
    case marks =>
      intro l e here
      obtain ⟨cs, ds, ts, ht⟩ := translate_of_walk hw htlb hdown
      have he : f.marked a = e := marked_eq f a
      refine ⟨fun h => ?_, fun h hdie hwin hhost hal hdir hcopy hheld hroom => ?_⟩
      · rw [writeMarks_of_marked (he.trans h)] at ht
        refine ⟨?_, ?_, ?_, ?_⟩ <;> rw [show t = _ from ht]
      · obtain ⟨cs', ds', us, hm⟩ := writeMarks_memory (he.trans_ne h) hdie hwin hhost hdir hcopy hheld hroom
        rw [hm] at ht
        have hmem : t.mem = s.memWith l (f.markBytes a) := congrArg State.mem ht
        have hspad : t.spad = s.spad := (congrArg State.spad ht).trans rfl
        refine ⟨hspad, ctx_of_outline Ctx.regs (fun _ => rfl) (outline_translate ..), fun i hi => ?_, fun k hk => ?_⟩
        · rw [hmem, ← he]
          exact rdByte_marks a hwin hhost hal hi
        · rw [hmem]
          exact rdByte_marks_off a hk
  case level =>
    intro s d slice off host a fuel n tbl seen path hn shift entries addr l hit e w pa malformed allowed next size broken
    refine ⟨fun hnone hback hue => walkFrom_of_unreadable s d slice host off a fuel n tbl seen path hnone hback hue, fun hread => ?_⟩
    have hw : w = s.walkAt d slice host off a fuel n seen path addr e :=
      walkFrom_of_readable s d slice host off a fuel n tbl seen path hread
    refine ⟨fun h0 => hw.trans (walkAt_of_invalid h0), fun h0 h1 => ⟨fun hroot => hw.trans (walkAt_of_rootLeaf h0 h1 hroot),
      fun hroot hbad _ => hw.trans (walkAt_of_badLeaf h0 h1 hroot (leafCheck_of_broken host off a hbad)), fun hroot hok => ?leaf⟩,
      fun h0 h1 => ⟨fun hbad => hw.trans (walkAt_of_badNode h0 h1 hbad), fun hlt hok => hw.trans (walkAt_of_node h0 h1 hlt hok)⟩⟩
    refine ⟨fun ha hwr => ?_, fun ha hx => ?_, fun ha hp => ?_, fun ha hwin hhost hres hreg => ?_⟩
    · subst ha
      exact hw.trans (walkAt_of_badLeaf h0 h1 hroot (leafCheck_of_readOnly host off hok hwr))
    · subst ha
      exact hw.trans (walkAt_of_badLeaf h0 h1 hroot (leafCheck_of_noExecute host off hok hx))
    · exact hw.trans (walkAt_of_leaf h0 h1 hroot (leafCheck_passes host off hok ha hp))
    · subst hhost
      exact hw.trans (walkAt_of_badLeaf h0 h1 hroot (leafCheck_of_noPage off hok ha hwin hres hreg))

end Sys2Proof.Machine
end
